-- ==== Sys2Proof/Word.lean ====
section
/-! DEFINITION. The word types of the Thikai: bytes, 32-bit containers, 64-bit scalars, and container data with its
tag pair (R54, R57). Only the plainest types stand here. -/

namespace Sys2Proof

/-- One byte of memory. -/
abbrev Byte := BitVec 8
/-- A 32-bit value: the data of one container, or one C word. -/
abbrev W32 := BitVec 32
/-- A 64-bit scalar. -/
abbrev W64 := BitVec 64
/-- A stored block name or root name (R245): 16 digest bytes. -/
abbrev Name := BitVec 128

/-- A 32-bit container with its tag pair (R57). -/
structure Container where
  data : W32
  valid : Bool
  poison : Bool
  deriving DecidableEq, Repr

/-- No value: invalid containers carry zero data (R57). -/
def Container.none : Container := ⟨0, false, false⟩

/-- An ordinary value. -/
def Container.ord (w : W32) : Container := ⟨w, true, false⟩

/-- A register, latch or scratchpad row: 128 containers (R54). -/
abbrev Row := List Container

/-- The four streams of a core (R16). -/
inductive Stream where
  | c | l | s | k
  deriving DecidableEq, Repr

/-- The code of a stream: 0 C, 1 L, 2 S, 3 K (R96, R334). -/
def Stream.code : Stream → Nat
  | .c => 0 | .l => 1 | .s => 2 | .k => 3

/-- The stream of a code. -/
def Stream.ofCode : Nat → Stream
  | 0 => .c | 1 => .l | 2 => .s | _ => .k

end Sys2Proof
end

