-- ==== Sys2Proof/Syntax.lean ====
section
/-! DEFINITION. The ONE instruction type: one constructor per row of spec/opcode_table.json. A row is one indivisible
step of the machine (95_what_each_step_holds.md): a word of a stream, an operation a trigger starts, a launch record taken
from a queue, or an event of a unit. Operands are the fields of the encodings (R90, R93, R96, R100, R109, R110, R214,
R404). An event has no operand fields: what it acts on stands in the state, in the fields cur and arg (Actor, Arg). -/

namespace Sys2Proof

/-- A move slot of a bundle (R100). -/
structure Slot where
  op : BitVec 7
  lane : BitVec 3
  src : BitVec 10
  dst : BitVec 10
  deriving DecidableEq, Repr

/-- Station, type code and trigger modifier x of a station operation (R102, R107). -/
structure VArgs where
  st : BitVec 3
  ty : BitVec 3
  x : BitVec 4
  deriving DecidableEq, Repr

/-- One stage of a VCHAIN word (R110). -/
structure ChainStage where
  sta : BitVec 3
  sop : BitVec 7
  deriving DecidableEq, Repr

/-- Fields of a VCHAIN word (R110); SM1 is the number of stages less 1. -/
structure ChainFields where
  idle : BitVec 4
  saddr : BitVec 19
  daddr : BitVec 19
  nm1 : BitVec 7
  x : BitVec 4
  stages : List ChainStage
  deriving DecidableEq, Repr

/-- Fields of a matrix word (R109). -/
structure MatFields where
  idle : BitVec 4
  acc : BitVec 2
  aaddr : BitVec 19
  apeer : BitVec 3
  arem : BitVec 1
  baddr : BitVec 19
  bpeer : BitVec 3
  brem : BitVec 1
  fa : BitVec 4
  fb : BitVec 4
  km1 : BitVec 9
  mm1 : BitVec 7
  nm1 : BitVec 8
  saaddr : BitVec 19
  sbaddr : BitVec 19
  mxa : BitVec 1
  mxb : BitVec 1
  mcg : BitVec 4
  rm : BitVec 3
  sat : BitVec 1
  dfmt : BitVec 4
  deriving DecidableEq, Repr

/-- A matrix follow-on record (R214). -/
structure FollowOn where
  fmop : BitVec 4
  acc : BitVec 2
  aaddr : BitVec 19
  baddr : BitVec 19
  fa : BitVec 4
  fb : BitVec 4
  km1 : BitVec 9
  mm1 : BitVec 7
  nm1 : BitVec 8
  mxa : BitVec 1
  mxb : BitVec 1
  deriving DecidableEq, Repr

/-- The fields common to engine commands (R93). -/
structure Hdr where
  idle : BitVec 6
  wsem : BitVec 6
  wcnt : BitVec 4
  ssem : BitVec 6
  so : BitVec 6
  deriving DecidableEq, Repr

/-- The fields of BCLOSE (R93, R223): idle count and wait count; it waits on semaphore 0. -/
structure CloseFields where
  idle : BitVec 6
  wcnt : BitVec 4
  deriving DecidableEq, Repr

/-- The ring fields of WSET (R225). -/
structure RingFields where
  bank : BitVec 3
  first : BitVec 7
  dm1 : BitVec 7
  rm1 : BitVec 3
  start : BitVec 16
  fetch : BitVec 7
  deriving DecidableEq, Repr

/-- The two layouts of FILL (R230): L writes scratchpad words, S a memory sub-range. -/
inductive FillFields where
  | spad (wa nwm1 : BitVec 17) (val : BitVec 16) (vm : BitVec 2) (inv : BitVec 1)
  | mem (d : BitVec 6) (val : BitVec 16) (vm : BitVec 2) (i0 : BitVec 16) (cntm1 : BitVec 12)
  deriving DecidableEq, Repr

/-- Fields of ACC and ACCF besides AOP (R238). -/
structure AccFields where
  d : BitVec 6
  srcw : BitVec 17
  nm1 : BitVec 8
  scope : BitVec 2
  dmode : BitVec 2
  ixw : BitVec 17
  deriving DecidableEq, Repr

/-- Parameter and result record numbers of rows 0x2_ to 0x4_ (R254). -/
structure PrmRes where
  prm : BitVec 15
  res : BitVec 15
  deriving DecidableEq, Repr

/-- The time references of R429. -/
inductive TimeRef where
  | ptp | fjostan | host
  deriving DecidableEq, Repr

/-- The operator part of the configuration record (R438). A slot-table entry is a partition, or none for FREE (R387). -/
structure OperatorPart where
  devid : BitVec 20
  ndom : Nat
  pcs : Fin 13
  slots : Vector (Option (BitVec 4)) 64
  donate : Bool
  testPeriod : Nat
  chest0 : Nat
  chest1 : Nat
  interleave : Bool
  timeRef : TimeRef
  syncInt : Nat
  finj : List Nat
  deriving DecidableEq, Repr

/-- A directory or block message of the Fjostan (R424): its form, the device that sent it and its fields. -/
inductive Msg where
  | register (name : Name) (holder : BitVec 20)
  | unregister (name : Name) (holder : BitVec 20)
  | lookup (name : Name) (asker : BitVec 20)
  | holders (name : Name) (devs : List (BitVec 20))
  | rlease (name : Name) (reader : BitVec 20) (ticks : BitVec 16)
  | rlgrant (name : Name) (source : BitVec 20) (id : W32) (ticks : BitVec 16)
  | rldeny (name : Name) (source : BitVec 20) (full : Bool)
  | rlrenew (name : Name) (reader : BitVec 20) (id : W32) (ticks : BitVec 16)
  | rlfree (name : Name) (reader : BitVec 20) (id : W32)
  | read (name : Name) (reader : BitVec 20) (id : W32) (off len : Nat)
  | data (name : Name) (source : BitVec 20) (id : W32) (off : Nat) (bytes : List Byte)
  deriving DecidableEq, Repr

/-- What a link's other end does (R418, R419): a flit of 256 bytes arrives; the highest sequence number taken in
order is returned; a flit sent is refused; the stop signal of a channel changes. -/
inductive LinkEvent where
  | flit (bytes : List Byte)
  | taken (seq : W32)
  | refused (seq : W32)
  | stop (vc : Nat) (up : Bool)
  deriving DecidableEq, Repr

/-- What an event acts on besides the stream named in Actor: an index, or what the outside world brings. -/
inductive Arg where
  | none
  | num (n : Nat)
  | hostWrite (pa : Nat) (bytes : List Byte)
  | portWrite (q : Nat) (whole : Bool) (rec : BitVec 512)
  | reg (off : Nat) (val : W64)
  | delta (d : Int)
  | timeMsg (ref : TimeRef) (sender : BitVec 20) (ns delay offset : Nat)
  | msg (m : Msg)
  | name (n : Name)
  | boot (digests : List (BitVec 384)) (failAt : Option Nat) (badCores badStacks : List Nat) (repairOk : Bool)
  | measure (reg : Nat) (digest : BitVec 384)
  | config (signed : Bool) (part : OperatorPart)
  | algorithms (sha384 p384 : Bool)
  | nonce (n : BitVec 256)
  | retrain (stack : Nat) (trained : Bool)
  | bankTest (stack pc bank : Nat) (bad : List Nat)
  | scrub (stack : Nat) (corrected uncorrectable : List Nat)
  | link (port : Nat) (e : LinkEvent)
  | portState (port : Nat) (state width : BitVec 2)
  | farPort (port : Nat) (up : Bool)
  deriving DecidableEq, Repr

/-- The machine's steps, one constructor per row of the opcode table; the rows without operand fields stand last. -/
inductive Instr where
  /-- ADD (R122): Writes gs + gt modulo 2^64 into gd. -/
  | add (rd rs rt : BitVec 5)
  /-- SUB (R122): Writes gs - gt modulo 2^64 into gd. -/
  | sub (rd rs rt : BitVec 5)
  /-- MUL (R122): Writes the low 64 bits of gs x gt into gd. -/
  | mul (rd rs rt : BitVec 5)
  /-- MULH (R122): Writes bits [127:64] of the signed 128-bit product into gd. -/
  | mulh (rd rs rt : BitVec 5)
  /-- MULHZ (R122): Writes bits [127:64] of the unsigned 128-bit product into gd. -/
  | mulhz (rd rs rt : BitVec 5)
  /-- DIV (R123): Writes the signed quotient of div_s into gd, never faulting. -/
  | div_ (rd rs rt : BitVec 5)
  /-- DIVZ (R123): Writes the unsigned quotient of div_z into gd. -/
  | divz (rd rs rt : BitVec 5)
  /-- REM (R123): Writes the signed remainder of div_s into gd. -/
  | rem_ (rd rs rt : BitVec 5)
  /-- REMZ (R123): Writes the unsigned remainder of div_z into gd. -/
  | remz (rd rs rt : BitVec 5)
  /-- AND (R122): Writes the bitwise AND of gs and gt into gd. -/
  | and_ (rd rs rt : BitVec 5)
  /-- OR (R122): Writes the bitwise OR of gs and gt into gd. -/
  | or_ (rd rs rt : BitVec 5)
  /-- XOR (R122): Writes the bitwise XOR of gs and gt into gd. -/
  | xor_ (rd rs rt : BitVec 5)
  /-- SHL (R122): Shifts gs left by gt mod 64 into gd. -/
  | shl (rd rs rt : BitVec 5)
  /-- SHR (R122): Shifts gs right logically by gt mod 64 into gd. -/
  | shr (rd rs rt : BitVec 5)
  /-- SRA (R122): Shifts gs right arithmetically by gt mod 64 into gd. -/
  | sra (rd rs rt : BitVec 5)
  /-- MIN (R122): Writes the signed minimum of gs and gt into gd. -/
  | min (rd rs rt : BitVec 5)
  /-- MAX (R122): Writes the signed maximum of gs and gt into gd. -/
  | max (rd rs rt : BitVec 5)
  /-- MINZ (R122): Writes the unsigned minimum of gs and gt into gd. -/
  | minz (rd rs rt : BitVec 5)
  /-- MAXZ (R122): Writes the unsigned maximum of gs and gt into gd. -/
  | maxz (rd rs rt : BitVec 5)
  /-- CLZ (R122): Writes the count of leading zero bits of gs into gd. -/
  | clz (rd rs : BitVec 5)
  /-- POPC (R122): Writes the count of one bits of gs into gd. -/
  | popc (rd rs : BitVec 5)
  /-- SEQ (R125): Writes 1 into gd when gs equals gt, else 0. -/
  | seq (rd rs rt : BitVec 5)
  /-- SLT (R125): Writes 1 into gd when gs < gt signed, else 0. -/
  | slt (rd rs rt : BitVec 5)
  /-- SLTZ (R125): Writes 1 into gd when gs < gt unsigned, else 0. -/
  | sltz (rd rs rt : BitVec 5)
  /-- LEA (R122): Writes gs + (gt << s) into gd without reading memory. -/
  | lea (rd rs rt : BitVec 5) (sc : BitVec 2)
  /-- ADDI (R124): Writes gs plus the sign-extended immediate into gd. -/
  | addi (rd rs : BitVec 5) (imm : BitVec 16)
  /-- ANDI (R124): Writes gs AND the zero-extended immediate into gd. -/
  | andi (rd rs : BitVec 5) (imm : BitVec 16)
  /-- ORI (R124): Writes gs OR the zero-extended immediate into gd. -/
  | ori (rd rs : BitVec 5) (imm : BitVec 16)
  /-- XORI (R124): Writes gs XOR the zero-extended immediate into gd. -/
  | xori (rd rs : BitVec 5) (imm : BitVec 16)
  /-- SLTI (R124): Writes 1 into gd when gs is below the sign-extended immediate. -/
  | slti (rd rs : BitVec 5) (imm : BitVec 16)
  /-- LIH (R124): Writes (gs << 16) OR the immediate into gd. -/
  | lih (rd rs : BitVec 5) (imm : BitVec 16)
  /-- SHLI (R124): Shifts gs left by imm[5:0] into gd. -/
  | shli (rd rs : BitVec 5) (sh : BitVec 6)
  /-- SHRI (R124): Shifts gs right logically by imm[5:0] into gd. -/
  | shri (rd rs : BitVec 5) (sh : BitVec 6)
  /-- SRAI (R124): Shifts gs right arithmetically by imm[5:0] into gd. -/
  | srai (rd rs : BitVec 5) (sh : BitVec 6)
  /-- LDB (R126): Loads one byte zero-extended into gd. -/
  | ldb (rd rs : BitVec 5) (imm : BitVec 16)
  /-- LDBS (R126): Loads one byte sign-extended into gd. -/
  | ldbs (rd rs : BitVec 5) (imm : BitVec 16)
  /-- LDH (R126): Loads two bytes zero-extended into gd. -/
  | ldh (rd rs : BitVec 5) (imm : BitVec 16)
  /-- LDHS (R126): Loads two bytes sign-extended into gd. -/
  | ldhs (rd rs : BitVec 5) (imm : BitVec 16)
  /-- LDW (R126): Loads four bytes zero-extended into gd. -/
  | ldw (rd rs : BitVec 5) (imm : BitVec 16)
  /-- LDWS (R126): Loads four bytes sign-extended into gd. -/
  | ldws (rd rs : BitVec 5) (imm : BitVec 16)
  /-- LDD (R126): Loads eight bytes into gd. -/
  | ldd (rd rs : BitVec 5) (imm : BitVec 16)
  /-- STB (R129): Stores the low byte of gt to memory or the scratchpad aperture. -/
  | stb (rt rs : BitVec 5) (imm : BitVec 16)
  /-- STH (R129): Stores the low two bytes of gt. -/
  | sth (rt rs : BitVec 5) (imm : BitVec 16)
  /-- STW (R129): Stores the low four bytes of gt. -/
  | stw (rt rs : BitVec 5) (imm : BitVec 16)
  /-- STD (R129): Stores the eight bytes of gt. -/
  | std (rt rs : BitVec 5) (imm : BitVec 16)
  /-- BEQ (R131): Branches when gs equals gt. -/
  | beq (rs rt : BitVec 5) (off : BitVec 16)
  /-- BNE (R131): Branches when gs differs from gt. -/
  | bne (rs rt : BitVec 5) (off : BitVec 16)
  /-- BLT (R131): Branches when gs < gt signed. -/
  | blt (rs rt : BitVec 5) (off : BitVec 16)
  /-- BGE (R131): Branches when gs >= gt signed. -/
  | bge (rs rt : BitVec 5) (off : BitVec 16)
  /-- BLO (R131): Branches when gs < gt unsigned. -/
  | blo (rs rt : BitVec 5) (off : BitVec 16)
  /-- BHS (R131): Branches when gs >= gt unsigned. -/
  | bhs (rs rt : BitVec 5) (off : BitVec 16)
  /-- JAL (R132): Writes the return address into gd and jumps by the word offset. -/
  | jal (rd : BitVec 5) (off : BitVec 21)
  /-- JALR (R132): Writes the return address into gd and jumps to gs plus the immediate. -/
  | jalr (rd rs : BitVec 5) (imm : BitVec 16)
  /-- LOOP (R133): Starts a C hardware loop with the count in gs. -/
  | loop (lc : BitVec 1) (rs : BitVec 5) (stop : BitVec 16)
  /-- LOOPI (R133): Starts a C hardware loop with an immediate count. -/
  | loopi (lc : BitVec 1) (count : BitVec 13) (stop : BitVec 12)
  /-- DSET (R135): Writes one 64-bit quarter of a descriptor register from a g register. -/
  | dset (dn : BitVec 6) (q : BitVec 2) (g : BitVec 5)
  /-- DGET (R135): Reads one 64-bit quarter of a descriptor register into a g register. -/
  | dget (dn : BitVec 6) (q : BitVec 2) (g : BitVec 5)
  /-- MBW (R136): Copies gs and its poison bit into a mailbox. -/
  | mbw (mb : BitVec 2) (rs : BitVec 5)
  /-- TSIG (R137): Appends n tagged tokens to a C-to-stream token queue, stalling for room. -/
  | tsig (str : BitVec 2) (tag : BitVec 1) (nm1 : BitVec 5)
  /-- TWAIT (R137): Removes n tokens from a stream-to-C queue, stalling until they are present. -/
  | twait (str : BitVec 2) (nm1 : BitVec 5)
  /-- TWAITB (R137): Removes one token and branches if its tag is 1. -/
  | twaitb (str : BitVec 2) (off : BitVec 16)
  /-- SEMW (R138): Waits until a semaphore holds at least cnt and subtracts cnt. -/
  | semw (sem cnt : BitVec 8)
  /-- SEMS (R138): Adds cnt to a semaphore, faulting on overflow. -/
  | sems (sem cnt : BitVec 8)
  /-- SEMR (R138): Reads a semaphore value into gd. -/
  | semr (rd : BitVec 5) (sem : BitVec 8)
  /-- ACQ (R143): Requests a lock at its home slice, or completes at once if already held. -/
  | acq (so : BitVec 6)
  /-- REL (R144): Marks a held lock for release at the region's commit. -/
  | rel (so : BitVec 6)
  /-- SOBIND (R142): Binds a sync-object handle to a lock or barrier object. -/
  | sobind (so : BitVec 6) (kind : BitVec 2) (rs : BitVec 5)
  /-- BOARM (R145): Arms an arrival of gs units at a barrier handle for the commit. -/
  | boarm (so : BitVec 6) (rs : BitVec 5)
  /-- BOWAIT (R146): Waits until the barrier object's phase differs from the handle's. -/
  | bowait (so : BitVec 6)
  /-- FENCE (R147): Waits for earlier accesses of the pred kinds to be performed. -/
  | fence (pred succ : BitVec 7)
  /-- TSPAWN (R149): Reserves a queue entry for a task launch to be enqueued at commit. -/
  | tspawn (rd rs rt : BitVec 5)
  /-- SRRD (R151): Reads a state register into gd. -/
  | srrd (rd : BitVec 5) (idx : BitVec 8)
  /-- SRWR (R151): Clears SR.FAULT whatever value is written. -/
  | srwr (rs : BitVec 5) (idx : BitVec 8)
  /-- TIME (R152): Writes device time and the sync bit into gd. -/
  | time (rd : BitVec 5)
  /-- CYC (R152): Writes SR.CYC into gd. -/
  | cyc (rd : BitVec 5)
  /-- RNG (R152): Writes 64 bits from the entropy source into gd, waiting for them. -/
  | rng (rd : BitVec 5)
  /-- TRAP (R153): Raises a software-trap fault carrying gs. -/
  | trap (rs : BitVec 5)
  /-- FLTINJ (R153): Flips one bit in one replica's register or next deferred store. -/
  | fltinj (rs rt : BitVec 5)
  /-- LOOPK (R97): Starts a timed-stream hardware loop. -/
  | loopk (idle : BitVec 6) (lc : BitVec 1) (stop : BitVec 16) (count : BitVec 32)
  /-- JMPK (R98): Jumps by a unit offset in a timed stream. -/
  | jmpk (idle : BitVec 6) (off : BitVec 24)
  /-- TWAIT_TIMED (R98): Consumes one token in a timed stream without branching. -/
  | twaitTimed (idle : BitVec 6) (q : BitVec 2)
  /-- TWAITB_TIMED (R98): Consumes one token in a timed stream and branches on its tag. -/
  | twaitbTimed (idle : BitVec 6) (q : BitVec 2) (off : BitVec 24)
  /-- TSIG_TIMED (R98): Appends one tagged token from a timed stream. -/
  | tsigTimed (idle : BitVec 6) (q : BitVec 2) (tag : BitVec 1)
  /-- CLOSE_TIMED (R99): Ends a timed stream's part of the region. -/
  | closeTimed (idle : BitVec 6)
  /-- HALT (R99): Ends a timed stream for the rest of the task. -/
  | halt (idle : BitVec 6)
  /-- BUNDLE (R156): Issues up to three moves that read their sources and travel the viaduct lanes. -/
  | bundle (idle : BitVec 4) (s0 s1 s2 : Slot)
  /-- VADD (R163): Adds A and T element-wise with wrap. -/
  | vadd (o : VArgs)
  /-- VSUB (R163): Subtracts T from A element-wise with wrap. -/
  | vsub (o : VArgs)
  /-- VADDS (R163): Adds A and T element-wise with saturation. -/
  | vadds (o : VArgs)
  /-- VSUBS (R163): Subtracts T from A element-wise with saturation. -/
  | vsubs (o : VArgs)
  /-- VMIN (R163): Signed element-wise minimum. -/
  | vmin (o : VArgs)
  /-- VMAX (R163): Signed element-wise maximum. -/
  | vmax (o : VArgs)
  /-- VMINZ (R163): Unsigned element-wise minimum. -/
  | vminz (o : VArgs)
  /-- VMAXZ (R163): Unsigned element-wise maximum. -/
  | vmaxz (o : VArgs)
  /-- VAND (R163): Bitwise AND of A and T. -/
  | vand (o : VArgs)
  /-- VOR (R163): Bitwise OR of A and T. -/
  | vor (o : VArgs)
  /-- VXOR (R163): Bitwise XOR of A and T. -/
  | vxor (o : VArgs)
  /-- VNOT (R163): Bitwise NOT of T. -/
  | vnot (o : VArgs)
  /-- VSHL (R164): Shifts A left by T without reducing the count. -/
  | vshl (o : VArgs)
  /-- VSHR (R164): Shifts A right logically by T. -/
  | vshr (o : VArgs)
  /-- VSRA (R164): Shifts A right arithmetically by T. -/
  | vsra (o : VArgs)
  /-- VMOV (R163): Passes T unchanged to .q. -/
  | vmov (o : VArgs)
  /-- VCEQ (R165): Element-wise equality mask. -/
  | vceq (o : VArgs)
  /-- VCLT (R165): Signed less-than mask. -/
  | vclt (o : VArgs)
  /-- VCLTZ (R165): Unsigned less-than mask. -/
  | vcltz (o : VArgs)
  /-- VSEL (R166): Selects A where B is nonzero, else T, with its own tag rule. -/
  | vsel (o : VArgs)
  /-- VVALID (R167): Writes all ones where T's container is valid. -/
  | vvalid (o : VArgs)
  /-- VIOTA (R165): Writes A + i x T per element index. -/
  | viota (o : VArgs)
  /-- VABS (R165): Wrapping signed absolute value. -/
  | vabs (o : VArgs)
  /-- VNEG (R165): Wrapping negation. -/
  | vneg (o : VArgs)
  /-- VFADD (R168): Floating addition of A and T, rounded once. -/
  | vfadd (o : VArgs)
  /-- VFSUB (R168): Floating subtraction A - T. -/
  | vfsub (o : VArgs)
  /-- VFMUL (R168): Floating multiplication of A and T. -/
  | vfmul (o : VArgs)
  /-- VFMA (R168): Fused A x T + B. -/
  | vfma (o : VArgs)
  /-- VFMS (R168): Fused A x T - B. -/
  | vfms (o : VArgs)
  /-- VFNMA (R168): Fused -(A x T) + B. -/
  | vfnma (o : VArgs)
  /-- VFMIN (R169): Earlier of A and T in f_order. -/
  | vfmin (o : VArgs)
  /-- VFMAX (R169): Later of A and T in f_order. -/
  | vfmax (o : VArgs)
  /-- VFABS (R170): Clears the sign bit of T. -/
  | vfabs (o : VArgs)
  /-- VFNEG (R170): Inverts the sign bit of T. -/
  | vfneg (o : VArgs)
  /-- VFCMP (R173): Writes an integer mask by a floating predicate. -/
  | vfcmp (o : VArgs)
  /-- VFSCALE (R171): Scales A by 2 to the integer T via scale2. -/
  | vfscale (o : VArgs)
  /-- VFEXPO (R172): Writes the integer exponent of T. -/
  | vfexpo (o : VArgs)
  /-- VFMANT (R172): Writes the normalised significand of T. -/
  | vfmant (o : VArgs)
  /-- VDIV (R177): Correctly rounded A / T. -/
  | vdiv (o : VArgs)
  /-- VRCP (R177): Correctly rounded 1 / T. -/
  | vrcp (o : VArgs)
  /-- VSQRT (R177): Correctly rounded square root of T. -/
  | vsqrt (o : VArgs)
  /-- VSQRTC (R178): Checked square root raising NR on non-positive operands. -/
  | vsqrtc (o : VArgs)
  /-- VRSQRT (R177): Correctly rounded 1 / sqrt T. -/
  | vrsqrt (o : VArgs)
  /-- VEXP2 (R177): Correctly rounded 2^T. -/
  | vexp2 (o : VArgs)
  /-- VLOG2 (R177): Correctly rounded log2 T. -/
  | vlog2 (o : VArgs)
  /-- VGUMB (R179): Base-2 Gumbel transform in two rounded steps. -/
  | vgumb (o : VArgs)
  /-- VSUM (R182): Reduces T to a sum written to every element. -/
  | vsum (o : VArgs)
  /-- VSCAN (R182): Inclusive prefix sum of T. -/
  | vscan (o : VArgs)
  /-- VRMAX (R183): Largest valid element and its index in pair layout. -/
  | vrmax (o : VArgs)
  /-- VRMIN (R183): Smallest valid element and its index in pair layout. -/
  | vrmin (o : VArgs)
  /-- VEMAX (R184): Maximum exponent over valid elements. -/
  | vemax (o : VArgs)
  /-- VCOUNT (R184): Counts valid or nonzero valid elements. -/
  | vcount (o : VArgs)
  /-- VSORT (R185): Sorts the valid elements by okey, writing values or indices. -/
  | vsort (o : VArgs)
  /-- VTOPK (R186): Writes the 64 highest candidates of T with indices. -/
  | vtopk (o : VArgs)
  /-- VTOPKM (R186): Merges two pair lists into the top 64 pairs. -/
  | vtopkm (o : VArgs)
  /-- VCVT_F32 (R187): Converts elements to FP32. -/
  | vcvtF32 (o : VArgs)
  /-- VCVT_F16 (R187): Converts elements to FP16. -/
  | vcvtF16 (o : VArgs)
  /-- VCVT_BF16 (R187): Converts elements to BF16. -/
  | vcvtBf16 (o : VArgs)
  /-- VCVT_E4M3 (R187): Converts elements to E4M3. -/
  | vcvtE4m3 (o : VArgs)
  /-- VCVT_E5M2 (R187): Converts elements to E5M2. -/
  | vcvtE5m2 (o : VArgs)
  /-- VCVT_S32 (R187): Converts elements to INT32. -/
  | vcvtS32 (o : VArgs)
  /-- VCVT_S16 (R187): Converts elements to INT16. -/
  | vcvtS16 (o : VArgs)
  /-- VCVT_S8 (R187): Converts elements to INT8. -/
  | vcvtS8 (o : VArgs)
  /-- VMXQ (R189): Quantises four FP32 blocks into MX elements or scales. -/
  | vmxq (o : VArgs)
  /-- VMXDQ (R190): Dequantises an MX slice into FP32. -/
  | vmxdq (o : VArgs)
  /-- VPACK (R188): Narrows A and T contiguously into one register. -/
  | vpack (o : VArgs)
  /-- VWIDEN (R188): Widens one interleaved part of T. -/
  | vwiden (o : VArgs)
  /-- VNARROW (R188): Narrows T into an interleaved part of A. -/
  | vnarrow (o : VArgs)
  /-- VRNG (R191): Counter-based random numbers from the seed and A, T. -/
  | vrng (o : VArgs)
  /-- VPERM (R192): Permutes T and B by indices in A. -/
  | vperm (o : VArgs)
  /-- VSHUF (R192): Zips, unzips or reverses by a fixed pattern. -/
  | vshuf (o : VArgs)
  /-- VBCAST (R192): Broadcasts one element of T. -/
  | vbcast (o : VArgs)
  /-- VEXTR (R192): Extracts a window of T followed by A. -/
  | vextr (o : VArgs)
  /-- VINS (R192): Inserts A_0 into one element of T. -/
  | vins (o : VArgs)
  /-- VROT (R192): Rotates T by a scalar count. -/
  | vrot (o : VArgs)
  /-- VDOT4S (R193): Four-way 8-bit dot product per container with one saturation. -/
  | vdot4s (o : VArgs)
  /-- VDOT8S (R193): Eight-way 4-bit dot product per container with one saturation. -/
  | vdot8s (o : VArgs)
  /-- VCOMPACT (R194): Compacts or masks selected elements of T. -/
  | vcompact (o : VArgs)
  /-- VEXPAND (R194): Expands elements of T to selected positions. -/
  | vexpand (o : VArgs)
  /-- VCHAIN (R196): Streams scratchpad rows through up to eight station stages. -/
  | vchain (f : ChainFields)
  /-- MMA (R199): Floating matrix multiply-accumulate into a tile. -/
  | mma (f : MatFields)
  /-- MMAZ (R199): Unsigned integer matrix multiply-accumulate with saturation. -/
  | mmaz (f : MatFields)
  /-- MMAS (R199): Floating matrix multiply-subtract into a tile. -/
  | mmas (f : MatFields)
  /-- MIMA (R199): Signed integer matrix multiply-accumulate into a tile. -/
  | mima (f : MatFields)
  /-- MZERO (R205): Writes +0 into part of a tile. -/
  | mzero (f : MatFields)
  /-- MLDACC (R205): Loads part of a tile from the scratchpad bit for bit. -/
  | mldacc (f : MatFields)
  /-- MDRAIN (R206): Converts and writes part of a tile to the scratchpad. -/
  | mdrain (f : MatFields)
  /-- WSET (R225): Opens a window and fetches its first rows. -/
  | wset (h : Hdr) (w : BitVec 4) (d : BitVec 6) (f : RingFields)
  /-- WADV (R226): Retires and fetches window rows. -/
  | wadv (h : Hdr) (w : BitVec 4) (ret fetch : BitVec 7)
  /-- WCLOSE (R227): Closes a window. -/
  | wclose (h : Hdr) (w : BitVec 4)
  /-- COPY (R228): Moves a descriptor sub-range between memory and the scratchpad. -/
  | copy (h : Hdr) (d : BitVec 6) (spa : BitVec 19) (i0 : BitVec 16) (cntm1 : BitVec 12) (fo : Option FollowOn)
  /-- PEER_COPY (R229): Copies rows from a crew peer's shared scratchpad. -/
  | peerCopy (h : Hdr) (spa : BitVec 19) (prank : BitVec 3) (rowsm1 : BitVec 12) (fo : Option FollowOn)
  /-- GATH (R233): Gathers indexed tensor rows into the scratchpad. -/
  | gath (h : Hdr) (d : BitVec 6) (dst idx : BitVec 19) (nm1 : BitVec 9)
  /-- GATH_TOWIN (R233): Gathers indexed tensor rows into window slots. -/
  | gathTowin (h : Hdr) (w : BitVec 4) (d : BitVec 6) (idx : BitVec 19) (nm1 : BitVec 9)
  /-- SCAT (R233): Scatters scratchpad rows to indexed tensor rows. -/
  | scat (h : Hdr) (d : BitVec 6) (src idx : BitVec 19) (nm1 : BitVec 9)
  /-- FILL (R230): Writes a constant to scratchpad words or a memory sub-range. -/
  | fill (h : Hdr) (f : FillFields)
  /-- PREF (R231): Prefetches a sub-range into L1 or the shelf. -/
  | pref (h : Hdr) (d : BitVec 6) (tier : BitVec 1) (i0 : BitVec 16) (cntm1 : BitVec 12)
  /-- ACC_ADD_S32 (R239): Atomic integer add accumulate. -/
  | accAddS32 (h : Hdr) (f : AccFields)
  /-- ACC_ADD_F32 (R239): Atomic FP32 add accumulate. -/
  | accAddF32 (h : Hdr) (f : AccFields)
  /-- ACC_ADD_BF16 (R239): Atomic BF16 add accumulate. -/
  | accAddBf16 (h : Hdr) (f : AccFields)
  /-- ACC_MIN_S32 (R239): Atomic signed minimum. -/
  | accMinS32 (h : Hdr) (f : AccFields)
  /-- ACC_MAX_S32 (R239): Atomic signed maximum. -/
  | accMaxS32 (h : Hdr) (f : AccFields)
  /-- ACC_MIN_Z32 (R239): Atomic unsigned minimum. -/
  | accMinZ32 (h : Hdr) (f : AccFields)
  /-- ACC_MAX_Z32 (R239): Atomic unsigned maximum. -/
  | accMaxZ32 (h : Hdr) (f : AccFields)
  /-- ACC_AND (R239): Atomic bitwise AND. -/
  | accAnd (h : Hdr) (f : AccFields)
  /-- ACC_OR (R239): Atomic bitwise OR. -/
  | accOr (h : Hdr) (f : AccFields)
  /-- ACC_XOR (R239): Atomic bitwise XOR. -/
  | accXor (h : Hdr) (f : AccFields)
  /-- ACC_SWAP (R239): Atomic swap. -/
  | accSwap (h : Hdr) (f : AccFields)
  /-- ACCF_ADD_S32 (R239): Atomic integer add returning the old value. -/
  | accfAddS32 (h : Hdr) (f : AccFields)
  /-- ACCF_ADD_F32 (R239): Atomic FP32 add returning the old value. -/
  | accfAddF32 (h : Hdr) (f : AccFields)
  /-- ACCF_ADD_BF16 (R239): Atomic BF16 add returning the old value. -/
  | accfAddBf16 (h : Hdr) (f : AccFields)
  /-- ACCF_MIN_S32 (R239): Atomic signed minimum returning the old value. -/
  | accfMinS32 (h : Hdr) (f : AccFields)
  /-- ACCF_MAX_S32 (R239): Atomic signed maximum returning the old value. -/
  | accfMaxS32 (h : Hdr) (f : AccFields)
  /-- ACCF_MIN_Z32 (R239): Atomic unsigned minimum returning the old value. -/
  | accfMinZ32 (h : Hdr) (f : AccFields)
  /-- ACCF_MAX_Z32 (R239): Atomic unsigned maximum returning the old value. -/
  | accfMaxZ32 (h : Hdr) (f : AccFields)
  /-- ACCF_AND (R239): Atomic AND returning the old value. -/
  | accfAnd (h : Hdr) (f : AccFields)
  /-- ACCF_OR (R239): Atomic OR returning the old value. -/
  | accfOr (h : Hdr) (f : AccFields)
  /-- ACCF_XOR (R239): Atomic XOR returning the old value. -/
  | accfXor (h : Hdr) (f : AccFields)
  /-- ACCF_SWAP (R239): Atomic swap returning the old value. -/
  | accfSwap (h : Hdr) (f : AccFields)
  /-- CAS (R242): Compare-and-swap on a memory word at commit. -/
  | cas (h : Hdr) (d : BitVec 6) (recw : BitVec 17) (w64 : BitVec 1) (scope : BitVec 2)
  /-- BCLOSE (R223): Closes the stream's open batch. -/
  | bclose (f : CloseFields)
  /-- WAITB (R223): Closes the batch and waits until at most N closed batches remain. -/
  | waitb (h : Hdr) (n : BitVec 4)
  /-- SLOPEN (R261): Opens the lowest free sequence slot. -/
  | slopen (h : Hdr) (p : PrmRes)
  /-- SLFORK (R261): Opens a new slot copying a source slot and its tail. -/
  | slfork (h : Hdr) (p : PrmRes)
  /-- SLMOVE (R261): Moves a slot's leaf, tail and grammar state to another slot. -/
  | slmove (h : Hdr) (p : PrmRes)
  /-- SLMOVE_SWAP (R261): Exchanges leaf, tail and grammar state between two slots. -/
  | slmoveSwap (h : Hdr) (p : PrmRes)
  /-- SLCLOSE (R261): Closes a slot and frees its tail. -/
  | slclose (h : Hdr) (p : PrmRes)
  /-- SLINFO (R261): Returns a slot record. -/
  | slinfo (h : Hdr) (p : PrmRes)
  /-- RXLOOK (R262): Finds the longest sealed prefix of a token list, optionally leasing it. -/
  | rxlook (h : Hdr) (p : PrmRes) (lse : BitVec 1) (tier : BitVec 2) (rmt : BitVec 1)
  /-- SEAL (R264): Turns a full tail into a sealed node or dedups to an existing one. -/
  | seal (h : Hdr) (p : PrmRes) (evc : BitVec 2)
  /-- KAPP (R263): Appends key-value rows of one layer to a slot's tail. -/
  | kapp (h : Hdr) (p : PrmRes)
  /-- CPACT (R265): Builds a tail from chosen token positions. -/
  | cpact (h : Hdr) (p : PrmRes)
  /-- REPL (R270): Copies a remote block into the local drawer. -/
  | repl (h : Hdr) (p : PrmRes)
  /-- LEASE (R266): Grants a lease on a node in a tier. -/
  | lease (h : Hdr) (p : PrmRes)
  /-- RENEW (R266): Extends a lease. -/
  | renew (h : Hdr) (p : PrmRes)
  /-- FREE (R266): Ends a lease and returns its quota. -/
  | free (h : Hdr) (p : PrmRes)
  /-- EVCLASS (R266): Sets a node's eviction class. -/
  | evclass (h : Hdr) (p : PrmRes)
  /-- PROMO (R266): Brings a node's planes into a tier. -/
  | promo (h : Hdr) (p : PrmRes)
  /-- NODEINFO (R266): Returns a node record. -/
  | nodeinfo (h : Hdr) (p : PrmRes)
  /-- BSEL (R268): Bounds grain scores and emits a gather list. -/
  | bsel (h : Hdr) (p : PrmRes)
  /-- PGATH (R269): Fetches selected grains into a window. -/
  | pgath (h : Hdr) (p : PrmRes) (w : BitVec 4)
  /-- TKFEED (R279): Tokenises a UTF-8 buffer and advances the tokeniser state. -/
  | tkfeed (h : Hdr) (p : PrmRes)
  /-- TKDRAIN (R281): Ends a token stream and emits pending tokens. -/
  | tkdrain (h : Hdr) (p : PrmRes)
  /-- TKDETOK (R283): Writes the bytes of a token list. -/
  | tkdetok (h : Hdr) (p : PrmRes)
  /-- GLOAD (R286): Binds a grammar number to a grammar image. -/
  | gload (h : Hdr) (p : PrmRes) (g : BitVec 4)
  /-- GMASK (R287): Writes a slot's allowed-token bitmap. -/
  | gmask (h : Hdr) (p : PrmRes)
  /-- GSTEP_STEP (R288): Steps each listed slot's grammar by its token. -/
  | gstepStep (h : Hdr) (p : PrmRes)
  /-- GSTEP_START (R288): Starts a grammar on each listed slot. -/
  | gstepStart (h : Hdr) (p : PrmRes) (g : BitVec 4)
  /-- GSTEP_OFF (R288): Turns the grammar off on each listed slot. -/
  | gstepOff (h : Hdr) (p : PrmRes)
  /-- CLOSE (R148): Ends the C stream's part of a region and starts the crew's commit. -/
  | close
  /-- TDONE (R150): Ends the task after the timed streams halt, with a final commit. -/
  | tdone
  /-- NOP (R154): Has no effect. -/
  | nop
  /-- STALLED_WORD_RESUME (R137): A C word stalled on a token queue, semaphore or entropy source proceeds once its condition holds. -/
  | stalledWordResume
  /-- LOCK_GRANT (R143): The home slice grants a waiting lock request, completing the ACQ. -/
  | lockGrant
  /-- BARRIER_PHASE_SEEN (R146): A waiting BOWAIT finds the phase changed, invalidates lines and completes. -/
  | barrierPhaseSeen
  /-- C_STORE_PERFORMED (R295): A drained C store takes its place in the write order at its home slice. -/
  | cStorePerformed
  /-- MOVE_ARRIVAL (R157): A move writes its destination in phase 1 of its arrival cycle, starting an operation if it is a trigger. -/
  | moveArrival
  /-- UNIT_RESULT (R155): A station's operation writes its result and flags to .q after its latency. -/
  | unitResult
  /-- FOLLOW_ON_STEP (R215): A COPY's follow-on matrix step issues once the copy has written its last byte and the array is free. -/
  | followOnStep
  /-- COMMAND_START (R219): A queued engine command starts once earlier commands started and a channel is free. -/
  | commandStart
  /-- COMMAND_COMPLETION (R220): A command completes, signalling its semaphore and adding its byte count. -/
  | commandCompletion
  /-- REGION_COMMIT (R27): Once all streams reach CLOSE and commands complete, commits the region in seven steps. -/
  | regionCommit
  /-- ALIGNMENT_BARRIER (R18): All sequencers of the crew pass the barrier together, fixing the region origin. -/
  | alignmentBarrier
  /-- ECHO_ARRIVAL (R314): The lead's echoed result reaches a follower and completes its instruction. -/
  | echoArrival
  /-- PARAPET_DECISION (R322): With all signatures in, the parapet commits, votes with transplant, or mismatches. -/
  | parapetDecision
  /-- DEADLINE_FAULT (R25): The charge exceeds the budget and the task is faulted and suspended. -/
  | deadlineFault
  /-- SIDE_LOG_RETRY (R364): Every 65,536 cycles each task's head side-log entry is tried again. -/
  | sideLogRetry
  /-- TASK_PLACEMENT (R413): The dispatcher places a ready task, claiming and reading back scratchpad pieces. -/
  | taskPlacement
  /-- PREEMPTION_DISCARD (R33): The dispatcher discards a preemptible running region. -/
  | preemptionDiscard
  /-- PLACEMENT_RESERVATION (R414): A task unplaceable for PDELAY reserves a placement and may pre-empt lower tasks. -/
  | placementReservation
  /-- LAUNCH_PORT_WRITE (R397): A 64-byte port write enqueues one record or is discarded. -/
  | launchPortWrite
  /-- TASK (R405): Accepts a task launch record. -/
  | task
  /-- GRAPH (R409): Accepts a task graph and readies its source nodes. -/
  | graph
  /-- PATCH (R410): Copies a new parameter generation and flips GEN. -/
  | patch
  /-- FENCE_RECORD (R406): Waits for earlier host writes, optionally invalidating TLBs or draining launches. -/
  | fenceRecord
  /-- TIMED (R415): Writes an entry of the time-triggered table. -/
  | timed
  /-- SIGNAL (R407): Performs a barrier addition as a release of host writes. -/
  | signal
  /-- RESUME (R340): Resumes a suspended task with an optional new budget. -/
  | resume
  /-- RESUME_CHANNEL (R341): Releases a held channel or unit, or retries the side log. -/
  | resumeChannel
  /-- TERMINATE (R342): Moves a task to FAILED, dropping its pending work. -/
  | terminate
  /-- POWER (R441): Selects a power state for spans to take when idle. -/
  | power
  /-- SPAN_POWER_CHANGE (R441): An idle span takes the latest accepted power state. -/
  | spanPowerChange
  /-- TIMED_SLOT_FIRE (R416): A time-triggered slot fires, launching, pending or skipping. -/
  | timedSlotFire
  /-- QSTAT_WRITE (R398): A write to QSTAT clears DROPS and BAD. -/
  | qstatWrite
  /-- REGISTER_WRITE (R400): A host write to a device register without behaviour of its own. -/
  | registerWrite
  /-- HOST_MEMORY_WRITE (R310): A host write reaches its home slice. -/
  | hostMemoryWrite
  /-- LEASE_EXPIRY (R377): At a tick boundary leases whose EXP is at or below NOW end. -/
  | leaseExpiry
  /-- LEASE_REBASE (R252): Every 32,768 ticks the base advances and EXP and LAGE are reduced. -/
  | leaseRebase
  /-- DEVICE_TIME_STEP (R362): Device time steps and the lease tick count follows. -/
  | deviceTimeStep
  /-- REGISTER (R425): A holder registers a name at its name home. -/
  | register
  /-- UNREGISTER (R425): A holder unregisters a name. -/
  | unregister
  /-- LOOKUP (R424): Asks the name home for a name's holders. -/
  | lookup
  /-- HOLDERS (R426): Answers a LOOKUP with up to eight holders. -/
  | holders
  /-- RLEASE (R428): Asks a source for a remote lease on a block. -/
  | rlease
  /-- RLGRANT (R427): Grants a remote lease. -/
  | rlgrant
  /-- RLDENY (R427): Denies a remote lease or read. -/
  | rldeny
  /-- RLRENEW (R427): Renews a remote lease. -/
  | rlrenew
  /-- RLFREE (R427): Ends a remote lease. -/
  | rlfree
  /-- READ (R427): Asks the source for block bytes under a live lease. -/
  | read
  /-- DATA (R427): Carries block bytes to the reader. -/
  | data
  /-- REMOTE_LEASE_RENEW (R427): The reader renews when less than half the granted time remains. -/
  | remoteLeaseRenew
  /-- DIRECTORY_TIMEOUT (R420): A request unanswered for DIRTO counts as a miss. -/
  | directoryTimeout
  /-- LINK_REPLAY (R418): A refused flit makes the sender replay in order. -/
  | linkReplay
  /-- TIME_MESSAGE (R429): A time reference message updates device time. -/
  | timeMessage
  /-- SYNC_LOSS (R431): The time unit leaves sync and remote leases are voided. -/
  | syncLoss
  /-- BOOT (R436): After reset the management core runs the measured boot chain. -/
  | boot
  /-- MEASUREMENT_EXTEND (R437): A host request extends a measurement register 9 to 15. -/
  | measurementExtend
  /-- CONFIG_RECORD_REPLACE (R438): The host replaces the operator part for the next reset. -/
  | configRecordReplace
  /-- GET_VERSION (R437): SPDM version request. -/
  | getVersion
  /-- GET_CAPABILITIES (R437): SPDM capabilities request. -/
  | getCapabilities
  /-- NEGOTIATE_ALGORITHMS (R437): SPDM algorithm negotiation. -/
  | negotiateAlgorithms
  /-- GET_DIGESTS (R437): SPDM certificate digests request. -/
  | getDigests
  /-- GET_CERTIFICATE (R437): SPDM certificate chain request. -/
  | getCertificate
  /-- CHALLENGE (R437): SPDM challenge-response authentication. -/
  | challenge
  /-- GET_MEASUREMENTS (R437): Returns measurement registers. -/
  | getMeasurements
  /-- CORE_RETIREMENT (R440): A core with three suspect marks is retired at a task boundary. -/
  | coreRetirement
  /-- THERMAL_CLAMP_ENGAGE (R442): A die at 105 C has its clock halved by gating. -/
  | thermalClampEngage
  /-- THERMAL_CLAMP_RELEASE (R442): The clamp releases below 100 C. -/
  | thermalClampRelease
  /-- HBM_RETRAINING (R389): Periodic or error-driven retraining of a stack between windows. -/
  | hbmRetraining
  /-- HBM_INTERFACE_ERROR (R389): An interface error moves a stack to DRAIN for retraining. -/
  | hbmInterfaceError
  /-- BANK_TEST (R391): Parks, marches, repairs and returns one bank. -/
  | bankTest
  /-- PATROL_SCRUB (R392): Reads and corrects every line once per 24 hours. -/
  | patrolScrub
  /-- HBM_STATUS_WRITE (R394): A write to a stack status word clears CE and UE. -/
  | hbmStatusWrite
  /-- PORT_STATUS_WRITE (R432): A write to a port status word clears its counters. -/
  | portStatusWrite
  /-- ARRAY_WRITE (R210): At its fixed cycles the matrix array writes a word's tile results and flags at the ready cycle, or an MDRAIN row to the scratchpad. -/
  | arrayWrite
  /-- FJOSTAN_PORT_STATE_CHANGE (R417): A Fjostan port trains at 8 or 4 lanes and enters service, or goes down or out of service. -/
  | fjostanPortStateChange
  /-- FAR_MEMORY_PORT_STATE_CHANGE (R434): A far-memory CXL port goes out of service or returns, which changes whether a chest is configured. -/
  | farMemoryPortStateChange
  /-- REMOTE_LEASE_HOLDER_EXPIRY (R430): The holder's reckoned expiry of a remote lease, less 4,000 ns, passes and the lease may no longer be used, so the REPL returns MISS. -/
  | remoteLeaseHolderExpiry
  deriving DecidableEq, Repr

end Sys2Proof
end

