-- ==== Sys2Proof/Decode.lean ====
section
/-! DEFINITION. Decoding of the words of all four streams, total on any bits and rejecting by name (R87 to R110), and
after it the encoder, written from the same tables. Field VALUES that a chapter does not allow (an END of 0, a stream
code of 0, a trigger's type) are judged when the word executes or issues (R89, R120, R477); here stand the shapes:
opcodes, reserved codes and reserved zero fields. -/

namespace Sys2Proof

/-- Why a word is not an instruction (R89): every one raises the illegal fault. -/
inductive DecodeErr where
  | reservedMajor      -- R91: a major opcode written "—"
  | reservedFunc       -- R92: a func value not listed
  | reservedField      -- R89: a reserved field that is not zero
  | reservedOpcode     -- R95: an engine opcode written "—"
  | wrongStream        -- R95: a command issued in a stream that is not named
  | badFrame           -- R88: a frame code out of place
  | reservedSop        -- R96: a sequencing code not listed
  | reservedMop        -- R109: a MOP not listed
  | badChainStage      -- R110: a stage above SM1 that is not zero
  deriving DecidableEq, Repr

/-- The bits [lo + len - 1 : lo] of a word are zero. -/
def zeroBits {n : Nat} (w : BitVec n) (lo len : Nat) : Bool := w.extractLsb' lo len == 0#len

/-- Answer i where the reserved bits are zero, else reject. -/
def guardField (ok : Bool) (i : Instr) : Except DecodeErr Instr :=
  if ok then .ok i else .error .reservedField

/-! ## C-stream words (R90 to R92) -/

/-- Major 0x01, form R, by func (R92). -/
def decodeAlu (w : BitVec 32) : Except DecodeErr Instr :=
  let rd := w.extractLsb' 6 5
  let rs := w.extractLsb' 11 5
  let rt := w.extractLsb' 16 5
  match (w.extractLsb' 21 11).toNat with
  | 0x000 => .ok (.add rd rs rt)
  | 0x001 => .ok (.sub rd rs rt)
  | 0x002 => .ok (.mul rd rs rt)
  | 0x003 => .ok (.mulh rd rs rt)
  | 0x004 => .ok (.mulhz rd rs rt)
  | 0x005 => .ok (.div_ rd rs rt)
  | 0x006 => .ok (.divz rd rs rt)
  | 0x007 => .ok (.rem_ rd rs rt)
  | 0x008 => .ok (.remz rd rs rt)
  | 0x010 => .ok (.and_ rd rs rt)
  | 0x011 => .ok (.or_ rd rs rt)
  | 0x012 => .ok (.xor_ rd rs rt)
  | 0x018 => .ok (.shl rd rs rt)
  | 0x019 => .ok (.shr rd rs rt)
  | 0x01A => .ok (.sra rd rs rt)
  | 0x020 => .ok (.min rd rs rt)
  | 0x021 => .ok (.max rd rs rt)
  | 0x022 => .ok (.minz rd rs rt)
  | 0x023 => .ok (.maxz rd rs rt)
  | 0x028 => guardField (rt == 0#5) (.clz rd rs)
  | 0x029 => guardField (rt == 0#5) (.popc rd rs)
  | 0x030 => .ok (.seq rd rs rt)
  | 0x031 => .ok (.slt rd rs rt)
  | 0x032 => .ok (.sltz rd rs rt)
  | 0x038 => .ok (.lea rd rs rt 0#2)
  | 0x039 => .ok (.lea rd rs rt 1#2)
  | 0x03A => .ok (.lea rd rs rt 2#2)
  | 0x03B => .ok (.lea rd rs rt 3#2)
  | _ => .error .reservedFunc

/-- Major 0x36, form O, by func (R92, R141). -/
def decodeSync (w : BitVec 32) : Except DecodeErr Instr :=
  let rs := w.extractLsb' 11 5
  let so := w.extractLsb' 16 6
  let base := zeroBits w 6 5 && zeroBits w 27 5
  let noKind := zeroBits w 22 2
  let noRs := zeroBits w 11 5
  match (w.extractLsb' 24 3).toNat with
  | 0 => guardField (base && noKind && noRs) (.acq so)
  | 1 => guardField (base && noKind && noRs) (.rel so)
  | 2 => guardField base (.sobind so (w.extractLsb' 22 2) rs)
  | 3 => guardField (base && noKind) (.boarm so rs)
  | 4 => guardField (base && noKind && noRs) (.bowait so)
  | _ => .error .reservedFunc

/-- Major 0x3D, form R, by func (R92, R152). -/
def decodeClock (w : BitVec 32) : Except DecodeErr Instr :=
  let rd := w.extractLsb' 6 5
  let ok := zeroBits w 11 10
  match (w.extractLsb' 21 11).toNat with
  | 0 => guardField ok (.time rd)
  | 1 => guardField ok (.cyc rd)
  | 2 => guardField ok (.rng rd)
  | _ => .error .reservedFunc

/-- Major 0x3E, form R, by func (R92, R153). -/
def decodeSys (w : BitVec 32) : Except DecodeErr Instr :=
  let rs := w.extractLsb' 11 5
  match (w.extractLsb' 21 11).toNat with
  | 0 => guardField (zeroBits w 6 5 && zeroBits w 16 5) (.trap rs)
  | 1 => guardField (zeroBits w 6 5) (.fltinj rs (w.extractLsb' 16 5))
  | _ => .error .reservedFunc

/-- A C word by its major opcode (R91). -/
def decodeC (w : BitVec 32) : Except DecodeErr Instr :=
  let a := w.extractLsb' 6 5
  let b := w.extractLsb' 11 5
  let imm := w.extractLsb' 16 16
  match (w.extractLsb' 0 6).toNat with
  | 0x01 => decodeAlu w
  | 0x02 => .ok (.addi a b imm)
  | 0x03 => .ok (.andi a b imm)
  | 0x04 => .ok (.ori a b imm)
  | 0x05 => .ok (.xori a b imm)
  | 0x06 => .ok (.slti a b imm)
  | 0x07 => .ok (.lih a b imm)
  | 0x08 => guardField (zeroBits w 22 10) (.shli a b (w.extractLsb' 16 6))
  | 0x09 => guardField (zeroBits w 22 10) (.shri a b (w.extractLsb' 16 6))
  | 0x0A => guardField (zeroBits w 22 10) (.srai a b (w.extractLsb' 16 6))
  | 0x10 => .ok (.ldb a b imm)
  | 0x11 => .ok (.ldbs a b imm)
  | 0x12 => .ok (.ldh a b imm)
  | 0x13 => .ok (.ldhs a b imm)
  | 0x14 => .ok (.ldw a b imm)
  | 0x15 => .ok (.ldws a b imm)
  | 0x16 => .ok (.ldd a b imm)
  | 0x18 => .ok (.stb a b imm)
  | 0x19 => .ok (.sth a b imm)
  | 0x1A => .ok (.stw a b imm)
  | 0x1B => .ok (.std a b imm)
  | 0x20 => .ok (.beq a b imm)
  | 0x21 => .ok (.bne a b imm)
  | 0x22 => .ok (.blt a b imm)
  | 0x23 => .ok (.bge a b imm)
  | 0x24 => .ok (.blo a b imm)
  | 0x25 => .ok (.bhs a b imm)
  | 0x26 => .ok (.jal a (w.extractLsb' 11 21))
  | 0x27 => .ok (.jalr a b imm)
  | 0x28 => guardField (zeroBits w 7 4) (.loop (w.extractLsb' 6 1) b imm)
  | 0x29 => .ok (.loopi (w.extractLsb' 6 1) (w.extractLsb' 7 13) (w.extractLsb' 20 12))
  | 0x2A => guardField (zeroBits w 19 13) (.dset (w.extractLsb' 6 6) (w.extractLsb' 12 2) (w.extractLsb' 14 5))
  | 0x2B => guardField (zeroBits w 19 13) (.dget (w.extractLsb' 6 6) (w.extractLsb' 12 2) (w.extractLsb' 14 5))
  | 0x2C => guardField (zeroBits w 8 3 && zeroBits w 16 16) (.mbw (w.extractLsb' 6 2) b)
  | 0x30 => guardField (zeroBits w 14 18) (.tsig (w.extractLsb' 6 2) (w.extractLsb' 8 1) (w.extractLsb' 9 5))
  | 0x31 => guardField (zeroBits w 8 1 && zeroBits w 14 18) (.twait (w.extractLsb' 6 2) (w.extractLsb' 9 5))
  | 0x32 => guardField (zeroBits w 8 8) (.twaitb (w.extractLsb' 6 2) imm)
  | 0x33 => guardField (zeroBits w 6 10) (.semw (w.extractLsb' 16 8) (w.extractLsb' 24 8))
  | 0x34 => guardField (zeroBits w 6 10) (.sems (w.extractLsb' 16 8) (w.extractLsb' 24 8))
  | 0x35 => guardField (zeroBits w 11 5 && zeroBits w 24 8) (.semr a (w.extractLsb' 16 8))
  | 0x36 => decodeSync w
  | 0x37 => guardField (zeroBits w 6 26) .close
  | 0x38 => guardField (zeroBits w 20 12) (.fence (w.extractLsb' 6 7) (w.extractLsb' 13 7))
  | 0x39 => guardField (zeroBits w 21 11) (.tspawn a b (w.extractLsb' 16 5))
  | 0x3A => guardField (zeroBits w 6 26) .tdone
  | 0x3B => guardField (zeroBits w 11 5 && zeroBits w 24 8) (.srrd a (w.extractLsb' 16 8))
  | 0x3C => guardField (zeroBits w 6 5 && zeroBits w 24 8) (.srwr b (w.extractLsb' 16 8))
  | 0x3D => decodeClock w
  | 0x3E => decodeSys w
  | 0x3F => guardField (zeroBits w 6 26) .nop
  | _ => .error .reservedMajor

/-! ## Sequencing forms (R96) -/

/-- A unit of frame 01. -/
def decodeSeq (u : BitVec 96) : Except DecodeErr Instr :=
  let idle := u.extractLsb' 2 6
  match (u.extractLsb' 8 6).toNat with
  | 0x01 => guardField (zeroBits u 63 33) (.loopk idle (u.extractLsb' 14 1) (u.extractLsb' 15 16) (u.extractLsb' 31 32))
  | 0x02 => guardField (zeroBits u 38 58) (.jmpk idle (u.extractLsb' 14 24))
  | 0x03 =>
    if u.extractLsb' 16 1 == 1#1 then
      guardField (zeroBits u 41 55) (.twaitbTimed idle (u.extractLsb' 14 2) (u.extractLsb' 17 24))
    else guardField (zeroBits u 17 79) (.twaitTimed idle (u.extractLsb' 14 2))
  | 0x04 => guardField (zeroBits u 17 79) (.tsigTimed idle (u.extractLsb' 14 2) (u.extractLsb' 16 1))
  | 0x05 => guardField (zeroBits u 14 82) (.closeTimed idle)
  | 0x06 => guardField (zeroBits u 14 82) (.halt idle)
  | _ => .error .reservedSop

/-! ## K words (R100, R109, R110) -/

/-- A move slot from its 30 bits. -/
def decodeSlot (b : BitVec 30) : Slot :=
  ⟨b.extractLsb' 0 7, b.extractLsb' 7 3, b.extractLsb' 10 10, b.extractLsb' 20 10⟩

/-- The fields of a matrix word. -/
def decodeMatFields (u0 u1 : BitVec 96) : MatFields :=
  { idle := u0.extractLsb' 2 4, acc := u0.extractLsb' 14 2, aaddr := u0.extractLsb' 16 19
    apeer := u0.extractLsb' 35 3, arem := u0.extractLsb' 38 1, baddr := u0.extractLsb' 39 19
    bpeer := u0.extractLsb' 58 3, brem := u0.extractLsb' 61 1, fa := u0.extractLsb' 62 4
    fb := u0.extractLsb' 66 4, km1 := u0.extractLsb' 70 9, mm1 := u0.extractLsb' 79 7
    nm1 := u0.extractLsb' 86 8, saaddr := u1.extractLsb' 2 19, sbaddr := u1.extractLsb' 21 19
    mxa := u1.extractLsb' 40 1, mxb := u1.extractLsb' 41 1, mcg := u1.extractLsb' 42 4
    rm := u1.extractLsb' 46 3, sat := u1.extractLsb' 49 1, dfmt := u1.extractLsb' 50 4 }

/-- The first n stages of a chain word's second unit: stage i in bits [10i + 11 : 10i + 2] of that unit. -/
def decodeStages (u1 : BitVec 96) : Nat → Nat → List ChainStage
  | _, 0 => []
  | i, n + 1 => ⟨u1.extractLsb' (10 * i + 2) 3, u1.extractLsb' (10 * i + 5) 7⟩ :: decodeStages u1 (i + 1) n

/-- A VCHAIN word. -/
def decodeChain (u0 u1 : BitVec 96) : Except DecodeErr Instr :=
  let n := (u0.extractLsb' 59 3).toNat + 1
  if !(zeroBits u0 66 30 && zeroBits u1 82 14) then .error .reservedField
  else if !zeroBits u1 (10 * n + 2) (80 - 10 * n) then .error .badChainStage
  else .ok (.vchain
    { idle := u0.extractLsb' 2 4, saddr := u0.extractLsb' 14 19, daddr := u0.extractLsb' 33 19
      nm1 := u0.extractLsb' 52 7, x := u0.extractLsb' 62 4, stages := decodeStages u1 0 n })

/-- A two-unit word of the K stream, by MOP (R109). -/
def decodeMat (u0 u1 : BitVec 96) : Except DecodeErr Instr :=
  let f := decodeMatFields u0 u1
  let ok := zeroBits u0 94 2 && zeroBits u1 54 42
  match (u0.extractLsb' 6 8).toNat with
  | 0x01 => guardField ok (.mma f)
  | 0x02 => guardField ok (.mmaz f)
  | 0x03 => guardField ok (.mmas f)
  | 0x04 => guardField ok (.mima f)
  | 0x05 => guardField ok (.mzero f)
  | 0x06 => guardField ok (.mldacc f)
  | 0x07 => guardField ok (.mdrain f)
  | 0x10 => decodeChain u0 u1
  | _ => .error .reservedMop

/-- A word of the K stream: its first unit and the unit after it (R88). -/
def decodeK (u0 u1 : BitVec 96) : Except DecodeErr Instr :=
  match (u0.extractLsb' 0 2).toNat with
  | 0 => .ok (.bundle (u0.extractLsb' 2 4) (decodeSlot (u0.extractLsb' 6 30)) (decodeSlot (u0.extractLsb' 36 30))
      (decodeSlot (u0.extractLsb' 66 30)))
  | 1 => decodeSeq u0
  | 3 => if u1.extractLsb' 0 2 == 2#2 then decodeMat u0 u1 else .error .badFrame
  | _ => .error .badFrame

/-! ## Engine commands (R93 to R95) -/

/-- The common fields (R93). -/
def decodeHdr (u : BitVec 96) : Hdr :=
  { idle := u.extractLsb' 2 6, wsem := u.extractLsb' 16 6, wcnt := u.extractLsb' 22 4, ssem := u.extractLsb' 26 6
    so := u.extractLsb' 32 6 }

/-- A follow-on record from bits [191:98] (R214), bits [95:2] of the second unit. -/
def decodeFollowOn (u1 : BitVec 96) : FollowOn :=
  { fmop := u1.extractLsb' 2 4, acc := u1.extractLsb' 6 2, aaddr := u1.extractLsb' 8 19, baddr := u1.extractLsb' 27 19
    fa := u1.extractLsb' 46 4, fb := u1.extractLsb' 50 4, km1 := u1.extractLsb' 54 9, mm1 := u1.extractLsb' 63 7
    nm1 := u1.extractLsb' 70 8, mxa := u1.extractLsb' 78 1, mxb := u1.extractLsb' 79 1 }

/-- COPY and its peer form (R228), with the follow-on record of a frame-11 word. -/
def decodeCopy (st : Stream) (u : BitVec 96) (fo : Option FollowOn) : Except DecodeErr Instr :=
  let h := decodeHdr u
  if u.extractLsb' 63 1 == 1#1 then
    if st == .l then
      guardField (zeroBits u 38 6 && zeroBits u 67 1 && zeroBits u 68 16)
        (.peerCopy h (u.extractLsb' 44 19) (u.extractLsb' 64 3) (u.extractLsb' 84 12) fo)
    else .error .wrongStream
  else guardField (zeroBits u 64 4)
    (.copy h (u.extractLsb' 38 6) (u.extractLsb' 44 19) (u.extractLsb' 68 16) (u.extractLsb' 84 12) fo)

/-- The accumulate of an AOP code (R239); f tells ACCF. -/
def accInstr (fetch : Bool) (aop : Nat) (h : Hdr) (f : AccFields) : Except DecodeErr Instr :=
  match fetch, aop with
  | false, 0x0 => .ok (.accAddS32 h f)
  | false, 0x1 => .ok (.accAddF32 h f)
  | false, 0x2 => .ok (.accAddBf16 h f)
  | false, 0x3 => .ok (.accMinS32 h f)
  | false, 0x4 => .ok (.accMaxS32 h f)
  | false, 0x5 => .ok (.accMinZ32 h f)
  | false, 0x6 => .ok (.accMaxZ32 h f)
  | false, 0x7 => .ok (.accAnd h f)
  | false, 0x8 => .ok (.accOr h f)
  | false, 0x9 => .ok (.accXor h f)
  | false, 0xA => .ok (.accSwap h f)
  | true, 0x0 => .ok (.accfAddS32 h f)
  | true, 0x1 => .ok (.accfAddF32 h f)
  | true, 0x2 => .ok (.accfAddBf16 h f)
  | true, 0x3 => .ok (.accfMinS32 h f)
  | true, 0x4 => .ok (.accfMaxS32 h f)
  | true, 0x5 => .ok (.accfMinZ32 h f)
  | true, 0x6 => .ok (.accfMaxZ32 h f)
  | true, 0x7 => .ok (.accfAnd h f)
  | true, 0x8 => .ok (.accfOr h f)
  | true, 0x9 => .ok (.accfXor h f)
  | true, 0xA => .ok (.accfSwap h f)
  | _, _ => .error .reservedFunc

/-- A unit of frame 00 in L or S, by OP (R95). -/
def decodeCmd (st : Stream) (u : BitVec 96) : Except DecodeErr Instr :=
  let h := decodeHdr u
  let p : PrmRes := ⟨u.extractLsb' 38 15, u.extractLsb' 53 15⟩
  let noExtra := zeroBits u 68 28
  let inL (i : Except DecodeErr Instr) : Except DecodeErr Instr := if st == .l then i else .error .wrongStream
  let inS (i : Except DecodeErr Instr) : Except DecodeErr Instr := if st == .s then i else .error .wrongStream
  match (u.extractLsb' 8 8).toNat with
  | 0x01 => inL (guardField (zeroBits u 91 5) (.wset h (u.extractLsb' 38 4) (u.extractLsb' 42 6)
      { bank := u.extractLsb' 48 3, first := u.extractLsb' 51 7, dm1 := u.extractLsb' 58 7, rm1 := u.extractLsb' 65 3
        start := u.extractLsb' 68 16, fetch := u.extractLsb' 84 7 }))
  | 0x02 => inL (guardField (zeroBits u 56 40) (.wadv h (u.extractLsb' 38 4) (u.extractLsb' 42 7) (u.extractLsb' 49 7)))
  | 0x03 => inL (guardField (zeroBits u 42 54) (.wclose h (u.extractLsb' 38 4)))
  | 0x08 => decodeCopy st u none
  | 0x09 => inL (
      if u.extractLsb' 42 1 == 1#1 then
        guardField (zeroBits u 49 19) (.gathTowin h (u.extractLsb' 38 4) (u.extractLsb' 43 6) (u.extractLsb' 68 19) (u.extractLsb' 87 9))
      else guardField (zeroBits u 38 4) (.gath h (u.extractLsb' 43 6) (u.extractLsb' 49 19) (u.extractLsb' 68 19) (u.extractLsb' 87 9)))
  | 0x0A => inS (guardField (zeroBits u 38 5) (.scat h (u.extractLsb' 43 6) (u.extractLsb' 49 19) (u.extractLsb' 68 19) (u.extractLsb' 87 9)))
  | 0x0B =>
    if st == .l then
      guardField (zeroBits u 91 5) (.fill h (.spad (u.extractLsb' 38 17) (u.extractLsb' 55 17) (u.extractLsb' 72 16) (u.extractLsb' 88 2) (u.extractLsb' 90 1)))
    else inS (guardField (zeroBits u 62 6) (.fill h (.mem (u.extractLsb' 38 6) (u.extractLsb' 44 16) (u.extractLsb' 60 2) (u.extractLsb' 68 16) (u.extractLsb' 84 12))))
  | 0x0C => inL (guardField (zeroBits u 45 23) (.pref h (u.extractLsb' 38 6) (u.extractLsb' 44 1) (u.extractLsb' 68 16) (u.extractLsb' 84 12)))
  | 0x10 => inS (if zeroBits u 94 2 then accInstr false (u.extractLsb' 69 4).toNat h
      ⟨u.extractLsb' 38 6, u.extractLsb' 44 17, u.extractLsb' 61 8, u.extractLsb' 73 2, u.extractLsb' 75 2, u.extractLsb' 77 17⟩ else .error .reservedField)
  | 0x11 => inS (if zeroBits u 94 2 then accInstr true (u.extractLsb' 69 4).toNat h
      ⟨u.extractLsb' 38 6, u.extractLsb' 44 17, u.extractLsb' 61 8, u.extractLsb' 73 2, u.extractLsb' 75 2, u.extractLsb' 77 17⟩ else .error .reservedField)
  | 0x12 => inS (guardField (zeroBits u 64 32) (.cas h (u.extractLsb' 38 6) (u.extractLsb' 44 17) (u.extractLsb' 61 1) (u.extractLsb' 62 2)))
  | 0x18 => if st == .l || st == .s then guardField (zeroBits u 16 6 && zeroBits u 26 70) (.bclose ⟨u.extractLsb' 2 6, u.extractLsb' 22 4⟩) else .error .wrongStream
  | 0x19 => if st == .l || st == .s then guardField (zeroBits u 32 6 && zeroBits u 42 54) (.waitb h (u.extractLsb' 38 4)) else .error .wrongStream
  | 0x20 => inS (guardField noExtra (.slopen h p))
  | 0x21 => inS (guardField noExtra (.slfork h p))
  | 0x22 => inS (if u.extractLsb' 68 1 == 1#1 then guardField (zeroBits u 69 27) (.slmoveSwap h p) else guardField (zeroBits u 69 27) (.slmove h p))
  | 0x23 => inS (guardField noExtra (.slclose h p))
  | 0x24 => inL (guardField noExtra (.slinfo h p))
  | 0x28 => inL (guardField (zeroBits u 72 24) (.rxlook h p (u.extractLsb' 68 1) (u.extractLsb' 69 2) (u.extractLsb' 71 1)))
  | 0x29 => inS (guardField (zeroBits u 70 26) (.seal h p (u.extractLsb' 68 2)))
  | 0x2A => inS (guardField noExtra (.kapp h p))
  | 0x2B => inS (guardField noExtra (.cpact h p))
  | 0x2C => inL (guardField noExtra (.repl h p))
  | 0x30 => inS (guardField noExtra (.lease h p))
  | 0x31 => inS (guardField noExtra (.renew h p))
  | 0x32 => inS (guardField noExtra (.free h p))
  | 0x33 => inS (guardField noExtra (.evclass h p))
  | 0x34 => inS (guardField noExtra (.promo h p))
  | 0x35 => inL (guardField noExtra (.nodeinfo h p))
  | 0x38 => inL (guardField noExtra (.bsel h p))
  | 0x39 => inL (guardField (zeroBits u 72 24) (.pgath h p (u.extractLsb' 68 4)))
  | 0x40 => inL (guardField noExtra (.tkfeed h p))
  | 0x41 => inL (guardField noExtra (.tkdrain h p))
  | 0x42 => inL (guardField noExtra (.tkdetok h p))
  | 0x48 => inL (guardField (zeroBits u 72 24) (.gload h p (u.extractLsb' 68 4)))
  | 0x49 => inL (guardField noExtra (.gmask h p))
  | 0x4A => inS (
      if !zeroBits u 74 22 then .error .reservedField
      else match (u.extractLsb' 68 2).toNat with
      | 0 => guardField (zeroBits u 70 4) (.gstepStep h p)
      | 1 => .ok (.gstepStart h p (u.extractLsb' 70 4))
      | 2 => guardField (zeroBits u 70 4) (.gstepOff h p)
      | _ => .error .reservedFunc)
  | _ => .error .reservedOpcode

/-- A word of the L or S stream (R88): frame 11 is a COPY carrying a follow-on record. -/
def decodeLS (st : Stream) (u0 u1 : BitVec 96) : Except DecodeErr Instr :=
  match (u0.extractLsb' 0 2).toNat with
  | 0 => decodeCmd st u0
  | 1 => decodeSeq u0
  | 3 =>
    if u1.extractLsb' 0 2 == 2#2 then
      if (u0.extractLsb' 8 8).toNat == 0x08 then
        if zeroBits u1 80 16 then decodeCopy st u0 (some (decodeFollowOn u1)) else .error .reservedField
      else .error .badFrame
    else .error .badFrame
  | _ => .error .badFrame

/-- A word of a timed stream from its first unit and the unit after it. -/
def decodeTimed (st : Stream) (u0 u1 : BitVec 96) : Except DecodeErr Instr :=
  match st with
  | .k => decodeK u0 u1
  | _ => decodeLS st u0 u1

/-- Units a timed word takes (R87, R88): two when its first unit has frame 11. -/
def unitsOf (u0 : BitVec 96) : Nat := if u0.extractLsb' 0 2 == 3#2 then 2 else 1

/-- IDLE of a timed word (R96, R100, R109): 4 bits in a bundle, matrix or chain word, 6 bits elsewhere. A first unit of frame 10, which
begins no legal word and has no IDLE, is read like the other words of its stream: bits [5:2] in K, [7:2] in L and S; the spec gives its nominal
issue cycle no rule. [DESIGN CHOICE, log 70] -/
def idleOf (st : Stream) (u0 : BitVec 96) : Nat :=
  if st == .k && u0.extractLsb' 0 2 != 1#2 then (u0.extractLsb' 2 4).toNat else (u0.extractLsb' 2 6).toNat

/-! ## Station operations (R107, R108) -/

/-- The operation number, type code and page of a trigger, as an instruction: R108 gives the number, the types column of
the operation's own rule gives the types it accepts (R163, R165, R168 to R173, R177, R180 to R194), and R161, R175 the
values x may take. None is an illegal trigger. R188 lists x[1] (wrap) for all three of its operations while R195 gives its keyword to VNARROW
alone: a VWIDEN with x[1] = 1 is taken as illegal. [DESIGN CHOICE, log 71] -/
def decodeOp (st : BitVec 3) (op : BitVec 7) (x : BitVec 4) : Option Instr :=
  let ty := op.extractLsb' 0 3
  let o : VArgs := ⟨st, ty, x⟩
  let num := (op.extractLsb' 3 4).toNat
  let t := ty.toNat
  let xm := (x.extractLsb' 0 3).toNat
  let signed := t == 0 || t == 2 || t == 4 || t == 6
  let flt := t < 3
  let rmOk := xm < 5
  let ok (c : Bool) (i : Instr) : Option Instr := if c then some i else none
  match st.toNat with
  | 0 | 1 =>
    if xm ≥ 2 then none
    else if xm == 0 then
      match num with
      | 0x0 => some (.vadd o)
      | 0x1 => some (.vsub o)
      | 0x2 => some (.vadds o)
      | 0x3 => some (.vsubs o)
      | 0x4 => ok signed (.vmin o)
      | 0x5 => ok signed (.vmax o)
      | 0x6 => ok (!signed) (.vminz o)
      | 0x7 => ok (!signed) (.vmaxz o)
      | 0x8 => some (.vand o)
      | 0x9 => some (.vor o)
      | 0xA => some (.vxor o)
      | 0xB => some (.vnot o)
      | 0xC => some (.vshl o)
      | 0xD => some (.vshr o)
      | 0xE => some (.vsra o)
      | _ => some (.vmov o)
    else
      match num with
      | 0x0 => some (.vceq o)
      | 0x1 => ok signed (.vclt o)
      | 0x2 => ok (!signed) (.vcltz o)
      | 0x3 => some (.vsel o)
      | 0x4 => some (.vvalid o)
      | 0x5 => some (.viota o)
      | 0x6 => ok signed (.vabs o)
      | 0x7 => some (.vneg o)
      | _ => none
  | 2 | 3 =>
    if !flt then none
    else match num with
      | 0x0 => ok rmOk (.vfadd o)
      | 0x1 => ok rmOk (.vfsub o)
      | 0x2 => ok rmOk (.vfmul o)
      | 0x3 => ok rmOk (.vfma o)
      | 0x4 => ok rmOk (.vfms o)
      | 0x5 => ok rmOk (.vfnma o)
      | 0x6 => ok (xm == 0) (.vfmin o)
      | 0x7 => ok (xm == 0) (.vfmax o)
      | 0x8 => ok (xm == 0) (.vfabs o)
      | 0x9 => ok (xm == 0) (.vfneg o)
      | 0xA => some (.vfcmp o)
      | 0xB => ok rmOk (.vfscale o)
      | 0xC => ok (xm == 0) (.vfexpo o)
      | 0xD => ok (xm == 0) (.vfmant o)
      | _ => none
  | 4 =>
    if !(flt && rmOk) then none
    else match num with
      | 0x0 => some (.vdiv o)
      | 0x1 => some (.vrcp o)
      | 0x2 => some (.vsqrt o)
      | 0x3 => some (.vsqrtc o)
      | 0x4 => some (.vrsqrt o)
      | 0x5 => some (.vexp2 o)
      | 0x6 => some (.vlog2 o)
      | 0x7 => some (.vgumb o)
      | _ => none
  | 5 =>
    match num with
    | 0x0 => ok (if flt then rmOk else xm == 0) (.vsum o)
    | 0x1 => ok (xm == 0) (.vrmax o)
    | 0x2 => ok (xm == 0) (.vrmin o)
    | 0x3 => ok (flt && xm == 0) (.vemax o)
    | 0x4 => ok (if flt then rmOk else xm == 0) (.vscan o)
    | 0x5 => ok (xm < 4 && !(xm ≥ 2 && t ≥ 6)) (.vsort o)
    | 0x6 => ok (xm == 0 && (t == 0 || t == 3 || t == 4)) (.vtopk o)
    | 0x7 => ok (xm == 0 && (t == 0 || t == 3 || t == 4)) (.vtopkm o)
    | 0x8 => ok (xm < 2) (.vcount o)
    | _ => none
  | 6 =>
    match num with
    | 0x0 => ok rmOk (.vcvtF32 o)
    | 0x1 => ok rmOk (.vcvtF16 o)
    | 0x2 => ok rmOk (.vcvtBf16 o)
    | 0x3 => ok rmOk (.vcvtE4m3 o)
    | 0x4 => ok rmOk (.vcvtE5m2 o)
    | 0x5 => ok rmOk (.vcvtS32 o)
    | 0x6 => ok rmOk (.vcvtS16 o)
    | 0x7 => ok rmOk (.vcvtS8 o)
    | 0x8 => ok (t < 5 && rmOk) (.vmxq o)
    | 0x9 => ok (t < 5 && rmOk) (.vmxdq o)
    | 0xA => ok ((xm == 0 || xm == 2) && t < 6) (.vpack o)
    | 0xB => ok (xm < 2 && (t ≥ 6 || t < 2 || (t < 4 && xm == 0))) (.vwiden o)
    | 0xC => ok (xm < 4 && t < 6 && (t ≥ 2 || xm % 2 == 0)) (.vnarrow o)
    | 0xD => ok (xm == 0 && t < 2) (.vrng o)
    | _ => none
  | _ =>
    match num with
    | 0x0 => ok (xm == 0 && 2 ≤ t && t < 6) (.vperm o)
    | 0x1 => ok (xm < 5) (.vshuf o)
    | 0x2 => ok (xm == 0) (.vbcast o)
    | 0x3 => ok (xm == 0) (.vextr o)
    | 0x4 => ok (xm == 0) (.vins o)
    | 0x5 => ok (xm == 0) (.vrot o)
    | 0x6 => ok (xm == 0 && t < 2) (.vdot4s o)
    | 0x7 => ok (xm == 0 && 6 ≤ t) (.vdot8s o)
    | 0x8 => ok (xm < 4) (.vcompact o)
    | 0x9 => ok (xm < 4) (.vexpand o)
    | _ => none

/-! ## The encoder

The words of an instruction, from the same tables (R90 to R110). An event has no words, and a station operation stands
inside a bundle's trigger slot (encodeOp). -/

/-- The words of an instruction: a C word, one unit, or a two-unit word, first unit first. -/
inductive Words where
  | c (w : BitVec 32)
  | unit (u : BitVec 96)
  | pair (u0 u1 : BitVec 96)
  deriving DecidableEq, Repr

/-- Form R (R90): major, func, d, s, t. -/
def formR (major : BitVec 6) (func : BitVec 11) (d s t : BitVec 5) : BitVec 32 := func ++ t ++ s ++ d ++ major

/-- Forms I, S, B (R90): major, two register fields and 16 bits. -/
def formI (major : BitVec 6) (a b : BitVec 5) (imm : BitVec 16) : BitVec 32 := imm ++ b ++ a ++ major

/-- Form O (R90, R141): func, KIND, handle and s. -/
def formO (func : BitVec 3) (kind : BitVec 2) (so : BitVec 6) (rs : BitVec 5) : BitVec 32 :=
  0#5 ++ func ++ kind ++ so ++ rs ++ 0#5 ++ 0x36#6

/-- A sequencing unit (R96): IDLE, SOP and 82 bits of fields. -/
def formSeq (idle : BitVec 6) (sop : BitVec 6) (rest : BitVec 82) : BitVec 96 := rest ++ sop ++ idle ++ 1#2

/-- An engine command (R93): frame, the common fields and 58 bits of the command's own. -/
def formCmd (frame : BitVec 2) (op : BitVec 8) (h : Hdr) (rest : BitVec 58) : BitVec 96 :=
  rest ++ h.so ++ h.ssem ++ h.wcnt ++ h.wsem ++ op ++ h.idle ++ frame

/-- A prefix-store or token command (R254): record numbers and 28 bits of flags. -/
def formPrm (op : BitVec 8) (h : Hdr) (p : PrmRes) (rest : BitVec 28) : BitVec 96 :=
  formCmd 0#2 op h (rest ++ p.res ++ p.prm)

/-- A move slot's 30 bits (R100). -/
def encodeSlot (s : Slot) : BitVec 30 := s.dst ++ s.src ++ s.lane ++ s.op

/-- A matrix word's units (R109). -/
def formMat (mop : BitVec 8) (f : MatFields) : Words :=
  .pair (0#2 ++ f.nm1 ++ f.mm1 ++ f.km1 ++ f.fb ++ f.fa ++ f.brem ++ f.bpeer ++ f.baddr ++ f.arem ++ f.apeer ++ f.aaddr
      ++ f.acc ++ mop ++ f.idle ++ 3#2)
    (0#42 ++ f.dfmt ++ f.sat ++ f.rm ++ f.mcg ++ f.mxb ++ f.mxa ++ f.sbaddr ++ f.saaddr ++ 2#2)

/-- Stage i of a chain, or zero above its last (R110). -/
def encodeStage (l : List ChainStage) (i : Nat) : BitVec 10 := (l.getD i ⟨0#3, 0#7⟩).sop ++ (l.getD i ⟨0#3, 0#7⟩).sta

/-- A chain word's units (R110). -/
def formChain (f : ChainFields) : Words :=
  .pair (0#30 ++ f.x ++ BitVec.ofNat 3 (f.stages.length - 1) ++ f.nm1 ++ f.daddr ++ f.saddr ++ 0x10#8 ++ f.idle ++ 3#2)
    (0#14 ++ encodeStage f.stages 7 ++ encodeStage f.stages 6 ++ encodeStage f.stages 5 ++ encodeStage f.stages 4
      ++ encodeStage f.stages 3 ++ encodeStage f.stages 2 ++ encodeStage f.stages 1 ++ encodeStage f.stages 0 ++ 2#2)

/-- A follow-on record as a second unit (R214). -/
def formFollow (r : FollowOn) : BitVec 96 :=
  0#16 ++ r.mxb ++ r.mxa ++ r.nm1 ++ r.mm1 ++ r.km1 ++ r.fb ++ r.fa ++ r.baddr ++ r.aaddr ++ r.acc ++ r.fmop ++ 2#2

/-- A COPY word, with or without a follow-on record. -/
def formCopy (h : Hdr) (rest : BitVec 58) (fo : Option FollowOn) : Words :=
  match fo with
  | none => .unit (formCmd 0#2 0x08#8 h rest)
  | some r => .pair (formCmd 3#2 0x08#8 h rest) (formFollow r)

/-- ACC and ACCF (R238, R239). -/
def formAcc (op : BitVec 8) (aop : BitVec 4) (h : Hdr) (f : AccFields) : BitVec 96 :=
  formCmd 0#2 op h (0#2 ++ f.ixw ++ f.dmode ++ f.scope ++ aop ++ f.nm1 ++ f.srcw ++ f.d)

/-- The words of an instruction. -/
def encode : Instr → Option Words
  | .add d s t => some (.c (formR 1#6 0x000#11 d s t))
  | .sub d s t => some (.c (formR 1#6 0x001#11 d s t))
  | .mul d s t => some (.c (formR 1#6 0x002#11 d s t))
  | .mulh d s t => some (.c (formR 1#6 0x003#11 d s t))
  | .mulhz d s t => some (.c (formR 1#6 0x004#11 d s t))
  | .div_ d s t => some (.c (formR 1#6 0x005#11 d s t))
  | .divz d s t => some (.c (formR 1#6 0x006#11 d s t))
  | .rem_ d s t => some (.c (formR 1#6 0x007#11 d s t))
  | .remz d s t => some (.c (formR 1#6 0x008#11 d s t))
  | .and_ d s t => some (.c (formR 1#6 0x010#11 d s t))
  | .or_ d s t => some (.c (formR 1#6 0x011#11 d s t))
  | .xor_ d s t => some (.c (formR 1#6 0x012#11 d s t))
  | .shl d s t => some (.c (formR 1#6 0x018#11 d s t))
  | .shr d s t => some (.c (formR 1#6 0x019#11 d s t))
  | .sra d s t => some (.c (formR 1#6 0x01A#11 d s t))
  | .min d s t => some (.c (formR 1#6 0x020#11 d s t))
  | .max d s t => some (.c (formR 1#6 0x021#11 d s t))
  | .minz d s t => some (.c (formR 1#6 0x022#11 d s t))
  | .maxz d s t => some (.c (formR 1#6 0x023#11 d s t))
  | .seq d s t => some (.c (formR 1#6 0x030#11 d s t))
  | .slt d s t => some (.c (formR 1#6 0x031#11 d s t))
  | .sltz d s t => some (.c (formR 1#6 0x032#11 d s t))
  | .clz d s => some (.c (formR 1#6 0x028#11 d s 0#5))
  | .popc d s => some (.c (formR 1#6 0x029#11 d s 0#5))
  | .lea d s t sc => some (.c (0x00E#9 ++ sc ++ t ++ s ++ d ++ 1#6))
  | .addi a b imm => some (.c (formI 0x02#6 a b imm))
  | .andi a b imm => some (.c (formI 0x03#6 a b imm))
  | .ori a b imm => some (.c (formI 0x04#6 a b imm))
  | .xori a b imm => some (.c (formI 0x05#6 a b imm))
  | .slti a b imm => some (.c (formI 0x06#6 a b imm))
  | .lih a b imm => some (.c (formI 0x07#6 a b imm))
  | .ldb a b imm => some (.c (formI 0x10#6 a b imm))
  | .ldbs a b imm => some (.c (formI 0x11#6 a b imm))
  | .ldh a b imm => some (.c (formI 0x12#6 a b imm))
  | .ldhs a b imm => some (.c (formI 0x13#6 a b imm))
  | .ldw a b imm => some (.c (formI 0x14#6 a b imm))
  | .ldws a b imm => some (.c (formI 0x15#6 a b imm))
  | .ldd a b imm => some (.c (formI 0x16#6 a b imm))
  | .stb a b imm => some (.c (formI 0x18#6 a b imm))
  | .sth a b imm => some (.c (formI 0x19#6 a b imm))
  | .stw a b imm => some (.c (formI 0x1A#6 a b imm))
  | .std a b imm => some (.c (formI 0x1B#6 a b imm))
  | .beq a b imm => some (.c (formI 0x20#6 a b imm))
  | .bne a b imm => some (.c (formI 0x21#6 a b imm))
  | .blt a b imm => some (.c (formI 0x22#6 a b imm))
  | .bge a b imm => some (.c (formI 0x23#6 a b imm))
  | .blo a b imm => some (.c (formI 0x24#6 a b imm))
  | .bhs a b imm => some (.c (formI 0x25#6 a b imm))
  | .jalr a b imm => some (.c (formI 0x27#6 a b imm))
  | .shli d s sh => some (.c (0#10 ++ sh ++ s ++ d ++ 0x08#6))
  | .shri d s sh => some (.c (0#10 ++ sh ++ s ++ d ++ 0x09#6))
  | .srai d s sh => some (.c (0#10 ++ sh ++ s ++ d ++ 0x0A#6))
  | .jal d off => some (.c (off ++ d ++ 0x26#6))
  | .loop lc s stop => some (.c (stop ++ s ++ 0#4 ++ lc ++ 0x28#6))
  | .loopi lc count stop => some (.c (stop ++ count ++ lc ++ 0x29#6))
  | .dset dn q g => some (.c (0#13 ++ g ++ q ++ dn ++ 0x2A#6))
  | .dget dn q g => some (.c (0#13 ++ g ++ q ++ dn ++ 0x2B#6))
  | .mbw mb s => some (.c (0#16 ++ s ++ 0#3 ++ mb ++ 0x2C#6))
  | .tsig str tag n => some (.c (0#18 ++ n ++ tag ++ str ++ 0x30#6))
  | .twait str n => some (.c (0#18 ++ n ++ 0#1 ++ str ++ 0x31#6))
  | .twaitb str off => some (.c (off ++ 0#8 ++ str ++ 0x32#6))
  | .semw sem cnt => some (.c (cnt ++ sem ++ 0#10 ++ 0x33#6))
  | .sems sem cnt => some (.c (cnt ++ sem ++ 0#10 ++ 0x34#6))
  | .semr d sem => some (.c (0#8 ++ sem ++ 0#5 ++ d ++ 0x35#6))
  | .acq so => some (.c (formO 0#3 0#2 so 0#5))
  | .rel so => some (.c (formO 1#3 0#2 so 0#5))
  | .sobind so kind s => some (.c (formO 2#3 kind so s))
  | .boarm so s => some (.c (formO 3#3 0#2 so s))
  | .bowait so => some (.c (formO 4#3 0#2 so 0#5))
  | .close => some (.c (0#26 ++ 0x37#6))
  | .fence pred succ => some (.c (0#12 ++ succ ++ pred ++ 0x38#6))
  | .tspawn d s t => some (.c (0#11 ++ t ++ s ++ d ++ 0x39#6))
  | .tdone => some (.c (0#26 ++ 0x3A#6))
  | .srrd d idx => some (.c (0#8 ++ idx ++ 0#5 ++ d ++ 0x3B#6))
  | .srwr s idx => some (.c (0#8 ++ idx ++ s ++ 0#5 ++ 0x3C#6))
  | .time d => some (.c (formR 0x3D#6 0#11 d 0#5 0#5))
  | .cyc d => some (.c (formR 0x3D#6 1#11 d 0#5 0#5))
  | .rng d => some (.c (formR 0x3D#6 2#11 d 0#5 0#5))
  | .trap s => some (.c (formR 0x3E#6 0#11 0#5 s 0#5))
  | .fltinj s t => some (.c (formR 0x3E#6 1#11 0#5 s t))
  | .nop => some (.c (0#26 ++ 0x3F#6))
  | .loopk idle lc stop count => some (.unit (formSeq idle 1#6 (0#33 ++ count ++ stop ++ lc)))
  | .jmpk idle off => some (.unit (formSeq idle 2#6 (0#58 ++ off)))
  | .twaitTimed idle q => some (.unit (formSeq idle 3#6 (0#80 ++ q)))
  | .twaitbTimed idle q off => some (.unit (formSeq idle 3#6 (0#55 ++ off ++ 1#1 ++ q)))
  | .tsigTimed idle q tag => some (.unit (formSeq idle 4#6 (0#79 ++ tag ++ q)))
  | .closeTimed idle => some (.unit (formSeq idle 5#6 0#82))
  | .halt idle => some (.unit (formSeq idle 6#6 0#82))
  | .bundle idle s0 s1 s2 => some (.unit (encodeSlot s2 ++ encodeSlot s1 ++ encodeSlot s0 ++ idle ++ 0#2))
  | .vchain f => some (formChain f)
  | .mma f => some (formMat 1#8 f)
  | .mmaz f => some (formMat 2#8 f)
  | .mmas f => some (formMat 3#8 f)
  | .mima f => some (formMat 4#8 f)
  | .mzero f => some (formMat 5#8 f)
  | .mldacc f => some (formMat 6#8 f)
  | .mdrain f => some (formMat 7#8 f)
  | .wset h w d f => some (.unit (formCmd 0#2 0x01#8 h
      (0#5 ++ f.fetch ++ f.start ++ f.rm1 ++ f.dm1 ++ f.first ++ f.bank ++ d ++ w)))
  | .wadv h w ret fetch => some (.unit (formCmd 0#2 0x02#8 h (0#40 ++ fetch ++ ret ++ w)))
  | .wclose h w => some (.unit (formCmd 0#2 0x03#8 h (0#54 ++ w)))
  | .copy h d spa i0 cntm1 fo => some (formCopy h (cntm1 ++ i0 ++ 0#4 ++ 0#1 ++ spa ++ d) fo)
  | .peerCopy h spa prank rowsm1 fo => some (formCopy h (rowsm1 ++ 0#16 ++ 0#1 ++ prank ++ 1#1 ++ spa ++ 0#6) fo)
  | .gath h d dst idx n => some (.unit (formCmd 0#2 0x09#8 h (n ++ idx ++ dst ++ d ++ 0#1 ++ 0#4)))
  | .gathTowin h w d idx n => some (.unit (formCmd 0#2 0x09#8 h (n ++ idx ++ 0#19 ++ d ++ 1#1 ++ w)))
  | .scat h d src idx n => some (.unit (formCmd 0#2 0x0A#8 h (n ++ idx ++ src ++ d ++ 0#5)))
  | .fill h f => some (.unit (formCmd 0#2 0x0B#8 h (match f with
      | .spad wa n val vm inv => 0#5 ++ inv ++ vm ++ val ++ n ++ wa
      | .mem d val vm i0 cntm1 => cntm1 ++ i0 ++ 0#6 ++ vm ++ val ++ d)))
  | .pref h d tier i0 cntm1 => some (.unit (formCmd 0#2 0x0C#8 h (cntm1 ++ i0 ++ 0#23 ++ tier ++ d)))
  | .accAddS32 h f => some (.unit (formAcc 0x10#8 0x0#4 h f))
  | .accAddF32 h f => some (.unit (formAcc 0x10#8 0x1#4 h f))
  | .accAddBf16 h f => some (.unit (formAcc 0x10#8 0x2#4 h f))
  | .accMinS32 h f => some (.unit (formAcc 0x10#8 0x3#4 h f))
  | .accMaxS32 h f => some (.unit (formAcc 0x10#8 0x4#4 h f))
  | .accMinZ32 h f => some (.unit (formAcc 0x10#8 0x5#4 h f))
  | .accMaxZ32 h f => some (.unit (formAcc 0x10#8 0x6#4 h f))
  | .accAnd h f => some (.unit (formAcc 0x10#8 0x7#4 h f))
  | .accOr h f => some (.unit (formAcc 0x10#8 0x8#4 h f))
  | .accXor h f => some (.unit (formAcc 0x10#8 0x9#4 h f))
  | .accSwap h f => some (.unit (formAcc 0x10#8 0xA#4 h f))
  | .accfAddS32 h f => some (.unit (formAcc 0x11#8 0x0#4 h f))
  | .accfAddF32 h f => some (.unit (formAcc 0x11#8 0x1#4 h f))
  | .accfAddBf16 h f => some (.unit (formAcc 0x11#8 0x2#4 h f))
  | .accfMinS32 h f => some (.unit (formAcc 0x11#8 0x3#4 h f))
  | .accfMaxS32 h f => some (.unit (formAcc 0x11#8 0x4#4 h f))
  | .accfMinZ32 h f => some (.unit (formAcc 0x11#8 0x5#4 h f))
  | .accfMaxZ32 h f => some (.unit (formAcc 0x11#8 0x6#4 h f))
  | .accfAnd h f => some (.unit (formAcc 0x11#8 0x7#4 h f))
  | .accfOr h f => some (.unit (formAcc 0x11#8 0x8#4 h f))
  | .accfXor h f => some (.unit (formAcc 0x11#8 0x9#4 h f))
  | .accfSwap h f => some (.unit (formAcc 0x11#8 0xA#4 h f))
  | .cas h d recw w64 scope => some (.unit (formCmd 0#2 0x12#8 h (0#32 ++ scope ++ w64 ++ recw ++ d)))
  | .bclose f => some (.unit (0#70 ++ f.wcnt ++ 0#6 ++ 0x18#8 ++ f.idle ++ 0#2))
  | .waitb h n => some (.unit (formCmd 0#2 0x19#8 h (0#54 ++ n)))
  | .slopen h p => some (.unit (formPrm 0x20#8 h p 0#28))
  | .slfork h p => some (.unit (formPrm 0x21#8 h p 0#28))
  | .slmove h p => some (.unit (formPrm 0x22#8 h p 0#28))
  | .slclose h p => some (.unit (formPrm 0x23#8 h p 0#28))
  | .slinfo h p => some (.unit (formPrm 0x24#8 h p 0#28))
  | .kapp h p => some (.unit (formPrm 0x2A#8 h p 0#28))
  | .cpact h p => some (.unit (formPrm 0x2B#8 h p 0#28))
  | .repl h p => some (.unit (formPrm 0x2C#8 h p 0#28))
  | .lease h p => some (.unit (formPrm 0x30#8 h p 0#28))
  | .renew h p => some (.unit (formPrm 0x31#8 h p 0#28))
  | .free h p => some (.unit (formPrm 0x32#8 h p 0#28))
  | .evclass h p => some (.unit (formPrm 0x33#8 h p 0#28))
  | .promo h p => some (.unit (formPrm 0x34#8 h p 0#28))
  | .nodeinfo h p => some (.unit (formPrm 0x35#8 h p 0#28))
  | .bsel h p => some (.unit (formPrm 0x38#8 h p 0#28))
  | .tkfeed h p => some (.unit (formPrm 0x40#8 h p 0#28))
  | .tkdrain h p => some (.unit (formPrm 0x41#8 h p 0#28))
  | .tkdetok h p => some (.unit (formPrm 0x42#8 h p 0#28))
  | .gmask h p => some (.unit (formPrm 0x49#8 h p 0#28))
  | .gstepStep h p => some (.unit (formPrm 0x4A#8 h p 0#28))
  | .slmoveSwap h p => some (.unit (formPrm 0x22#8 h p 1#28))
  | .rxlook h p lse tier rmt => some (.unit (formPrm 0x28#8 h p (0#24 ++ rmt ++ tier ++ lse)))
  | .seal h p evc => some (.unit (formPrm 0x29#8 h p (0#26 ++ evc)))
  | .pgath h p w => some (.unit (formPrm 0x39#8 h p (0#24 ++ w)))
  | .gload h p g => some (.unit (formPrm 0x48#8 h p (0#24 ++ g)))
  | .gstepStart h p g => some (.unit (formPrm 0x4A#8 h p (0#22 ++ g ++ 1#2)))
  | .gstepOff h p => some (.unit (formPrm 0x4A#8 h p 2#28))
  | .vadd _ => none
  | .vsub _ => none
  | .vadds _ => none
  | .vsubs _ => none
  | .vmin _ => none
  | .vmax _ => none
  | .vminz _ => none
  | .vmaxz _ => none
  | .vand _ => none
  | .vor _ => none
  | .vxor _ => none
  | .vnot _ => none
  | .vshl _ => none
  | .vshr _ => none
  | .vsra _ => none
  | .vmov _ => none
  | .vceq _ => none
  | .vclt _ => none
  | .vcltz _ => none
  | .vsel _ => none
  | .vvalid _ => none
  | .viota _ => none
  | .vabs _ => none
  | .vneg _ => none
  | .vfadd _ => none
  | .vfsub _ => none
  | .vfmul _ => none
  | .vfma _ => none
  | .vfms _ => none
  | .vfnma _ => none
  | .vfmin _ => none
  | .vfmax _ => none
  | .vfabs _ => none
  | .vfneg _ => none
  | .vfcmp _ => none
  | .vfscale _ => none
  | .vfexpo _ => none
  | .vfmant _ => none
  | .vdiv _ => none
  | .vrcp _ => none
  | .vsqrt _ => none
  | .vsqrtc _ => none
  | .vrsqrt _ => none
  | .vexp2 _ => none
  | .vlog2 _ => none
  | .vgumb _ => none
  | .vsum _ => none
  | .vscan _ => none
  | .vrmax _ => none
  | .vrmin _ => none
  | .vemax _ => none
  | .vcount _ => none
  | .vsort _ => none
  | .vtopk _ => none
  | .vtopkm _ => none
  | .vcvtF32 _ => none
  | .vcvtF16 _ => none
  | .vcvtBf16 _ => none
  | .vcvtE4m3 _ => none
  | .vcvtE5m2 _ => none
  | .vcvtS32 _ => none
  | .vcvtS16 _ => none
  | .vcvtS8 _ => none
  | .vmxq _ => none
  | .vmxdq _ => none
  | .vpack _ => none
  | .vwiden _ => none
  | .vnarrow _ => none
  | .vrng _ => none
  | .vperm _ => none
  | .vshuf _ => none
  | .vbcast _ => none
  | .vextr _ => none
  | .vins _ => none
  | .vrot _ => none
  | .vdot4s _ => none
  | .vdot8s _ => none
  | .vcompact _ => none
  | .vexpand _ => none
  | .stalledWordResume => none
  | .lockGrant => none
  | .barrierPhaseSeen => none
  | .cStorePerformed => none
  | .moveArrival => none
  | .unitResult => none
  | .followOnStep => none
  | .commandStart => none
  | .commandCompletion => none
  | .regionCommit => none
  | .alignmentBarrier => none
  | .echoArrival => none
  | .parapetDecision => none
  | .deadlineFault => none
  | .sideLogRetry => none
  | .taskPlacement => none
  | .preemptionDiscard => none
  | .placementReservation => none
  | .launchPortWrite => none
  | .task => none
  | .graph => none
  | .patch => none
  | .fenceRecord => none
  | .timed => none
  | .signal => none
  | .resume => none
  | .resumeChannel => none
  | .terminate => none
  | .power => none
  | .spanPowerChange => none
  | .timedSlotFire => none
  | .qstatWrite => none
  | .registerWrite => none
  | .hostMemoryWrite => none
  | .leaseExpiry => none
  | .leaseRebase => none
  | .deviceTimeStep => none
  | .register => none
  | .unregister => none
  | .lookup => none
  | .holders => none
  | .rlease => none
  | .rlgrant => none
  | .rldeny => none
  | .rlrenew => none
  | .rlfree => none
  | .read => none
  | .data => none
  | .remoteLeaseRenew => none
  | .directoryTimeout => none
  | .linkReplay => none
  | .timeMessage => none
  | .syncLoss => none
  | .boot => none
  | .measurementExtend => none
  | .configRecordReplace => none
  | .getVersion => none
  | .getCapabilities => none
  | .negotiateAlgorithms => none
  | .getDigests => none
  | .getCertificate => none
  | .challenge => none
  | .getMeasurements => none
  | .coreRetirement => none
  | .thermalClampEngage => none
  | .thermalClampRelease => none
  | .hbmRetraining => none
  | .hbmInterfaceError => none
  | .bankTest => none
  | .patrolScrub => none
  | .hbmStatusWrite => none
  | .portStatusWrite => none
  | .arrayWrite => none
  | .fjostanPortStateChange => none
  | .farMemoryPortStateChange => none
  | .remoteLeaseHolderExpiry => none

/-- The trigger of a station operation (R107, R108): station, op field (number and type code) and modifier x. -/
def trigger (o : VArgs) (num : BitVec 4) : BitVec 3 × BitVec 7 × BitVec 4 := (o.st, num ++ o.ty, o.x)

/-- The trigger that starts an operation, none for what is no station operation. -/
def encodeOp : Instr → Option (BitVec 3 × BitVec 7 × BitVec 4)
  | .vadd o => some (trigger o 0x0#4)
  | .vsub o => some (trigger o 0x1#4)
  | .vadds o => some (trigger o 0x2#4)
  | .vsubs o => some (trigger o 0x3#4)
  | .vmin o => some (trigger o 0x4#4)
  | .vmax o => some (trigger o 0x5#4)
  | .vminz o => some (trigger o 0x6#4)
  | .vmaxz o => some (trigger o 0x7#4)
  | .vand o => some (trigger o 0x8#4)
  | .vor o => some (trigger o 0x9#4)
  | .vxor o => some (trigger o 0xA#4)
  | .vnot o => some (trigger o 0xB#4)
  | .vshl o => some (trigger o 0xC#4)
  | .vshr o => some (trigger o 0xD#4)
  | .vsra o => some (trigger o 0xE#4)
  | .vmov o => some (trigger o 0xF#4)
  | .vceq o => some (trigger o 0x0#4)
  | .vclt o => some (trigger o 0x1#4)
  | .vcltz o => some (trigger o 0x2#4)
  | .vsel o => some (trigger o 0x3#4)
  | .vvalid o => some (trigger o 0x4#4)
  | .viota o => some (trigger o 0x5#4)
  | .vabs o => some (trigger o 0x6#4)
  | .vneg o => some (trigger o 0x7#4)
  | .vfadd o => some (trigger o 0x0#4)
  | .vfsub o => some (trigger o 0x1#4)
  | .vfmul o => some (trigger o 0x2#4)
  | .vfma o => some (trigger o 0x3#4)
  | .vfms o => some (trigger o 0x4#4)
  | .vfnma o => some (trigger o 0x5#4)
  | .vfmin o => some (trigger o 0x6#4)
  | .vfmax o => some (trigger o 0x7#4)
  | .vfabs o => some (trigger o 0x8#4)
  | .vfneg o => some (trigger o 0x9#4)
  | .vfcmp o => some (trigger o 0xA#4)
  | .vfscale o => some (trigger o 0xB#4)
  | .vfexpo o => some (trigger o 0xC#4)
  | .vfmant o => some (trigger o 0xD#4)
  | .vdiv o => some (trigger o 0x0#4)
  | .vrcp o => some (trigger o 0x1#4)
  | .vsqrt o => some (trigger o 0x2#4)
  | .vsqrtc o => some (trigger o 0x3#4)
  | .vrsqrt o => some (trigger o 0x4#4)
  | .vexp2 o => some (trigger o 0x5#4)
  | .vlog2 o => some (trigger o 0x6#4)
  | .vgumb o => some (trigger o 0x7#4)
  | .vsum o => some (trigger o 0x0#4)
  | .vscan o => some (trigger o 0x4#4)
  | .vrmax o => some (trigger o 0x1#4)
  | .vrmin o => some (trigger o 0x2#4)
  | .vemax o => some (trigger o 0x3#4)
  | .vcount o => some (trigger o 0x8#4)
  | .vsort o => some (trigger o 0x5#4)
  | .vtopk o => some (trigger o 0x6#4)
  | .vtopkm o => some (trigger o 0x7#4)
  | .vcvtF32 o => some (trigger o 0x0#4)
  | .vcvtF16 o => some (trigger o 0x1#4)
  | .vcvtBf16 o => some (trigger o 0x2#4)
  | .vcvtE4m3 o => some (trigger o 0x3#4)
  | .vcvtE5m2 o => some (trigger o 0x4#4)
  | .vcvtS32 o => some (trigger o 0x5#4)
  | .vcvtS16 o => some (trigger o 0x6#4)
  | .vcvtS8 o => some (trigger o 0x7#4)
  | .vmxq o => some (trigger o 0x8#4)
  | .vmxdq o => some (trigger o 0x9#4)
  | .vpack o => some (trigger o 0xA#4)
  | .vwiden o => some (trigger o 0xB#4)
  | .vnarrow o => some (trigger o 0xC#4)
  | .vrng o => some (trigger o 0xD#4)
  | .vperm o => some (trigger o 0x0#4)
  | .vshuf o => some (trigger o 0x1#4)
  | .vbcast o => some (trigger o 0x2#4)
  | .vextr o => some (trigger o 0x3#4)
  | .vins o => some (trigger o 0x4#4)
  | .vrot o => some (trigger o 0x5#4)
  | .vdot4s o => some (trigger o 0x6#4)
  | .vdot8s o => some (trigger o 0x7#4)
  | .vcompact o => some (trigger o 0x8#4)
  | .vexpand o => some (trigger o 0x9#4)
  | _ => none

/-- Decoding of an instruction's words in a stream. -/
def decodeWords (st : Stream) : Words → Except DecodeErr Instr
  | .c w => decodeC w
  | .unit u => decodeTimed st u 0#96
  | .pair u0 u1 => decodeTimed st u0 u1

/-- The decoding of a word for the opcode table: its rows with bits are the C words; wider words are read as an engine
command of L, else of S, else as a K word. -/
def decodeTableWord (nbits w : Nat) : Option Instr :=
  if nbits ≤ 32 then (decodeC (BitVec.ofNat 32 w)).toOption
  else
    let u0 := BitVec.ofNat 96 w
    let u1 := BitVec.ofNat 96 (w >>> 96)
    ((decodeTimed .l u0 u1).toOption.orElse fun _ => (decodeTimed .s u0 u1).toOption).orElse fun _ =>
      (decodeTimed .k u0 u1).toOption

end Sys2Proof
end

