-- ==== Sys2Proof/Config.lean ====
section
/-! DEFINITION. What an implementation fixes, and the free values. An opaque constant here has no body: no proof can see
what it is, so a statement holds whatever it is (notes/assumptions/4.md, 5.md). -/

namespace Sys2Proof.Config

/-- The free value number n: a value the spec leaves open, taken in order from the counter State.free [DESIGN CHOICE, log 4] -/
opaque freeWord : Nat → BitVec 64

/-- Extra cycles before the next C word may run, for the n-th C word: C words have no architected timing (R119). [DESIGN CHOICE, log 5] -/
opaque cDelay : Nat → Nat

/-- Cycles between a C store's completion and the moment it is performed, less 1 (R295). [DESIGN CHOICE, log 5; DEDUCED, log 51] -/
opaque drainDelay : Nat → Nat

/-- Cycles from the start of an engine command to its first piece and between its pieces, less 1 (R5, R292, R383). [DESIGN CHOICE, log 5; DEDUCED, log 51] -/
opaque engineCycles : Nat → Nat

/-- Elements or rows an engine command moves in one cycle, less 1 (R220, R296). [DESIGN CHOICE, log 5] -/
opaque engineBurst : Nat → Nat

/-- Cycles between a task's becoming ready or its commit and the next alignment barrier, less 1 (R18, R27). [DESIGN CHOICE, log 5] -/
opaque barrierDelay : Nat → Nat

/-- Bytes of a tier beyond storeFloor that blocks and tails may take: 1 drawer, 2 chest (R256, R267: the spec gives no figure). [UNVERIFIED, log 55] -/
opaque storeMore : Nat → Nat

/-- Bytes that any tier has room for: a block of the largest geometry (R244) and its tail. [DESIGN CHOICE, log 55] -/
def storeFloor : Nat := 2 ^ 32

/-- Bytes of a tier that blocks and tails may take. [DESIGN CHOICE, log 55] -/
def storeBytes (tier : Nat) : Nat := storeFloor + storeMore tier

/-- The page of its die's drawer from which page i of the block with a serial looks for a free one (R308, R380: which pages a block takes is not
given). [DESIGN CHOICE, log 59] -/
opaque blockAddr : Nat → Nat → Nat

/-- The page of the chest from which page i of a block that is demoted looks for a free one (R434: not given). [DESIGN CHOICE, log 59] -/
opaque chestAddr : Nat → Nat → Nat

/-- What byte o of page i of a block is (R380: the layout of a block's planes in its pages is not given): the place in the block's image,
none for a byte of no plane. [DESIGN CHOICE, log 59] -/
opaque planeAt : Nat → Nat → Option Nat

/-- The line of a block's pages that holds byte k of its image (R373, R380: not given). [DESIGN CHOICE, log 60] -/
opaque planeLine : Nat → Nat

/-- The number that a line of a block's page, or of a tail, takes among the plane-cache sets of its slice (R373: only the slice is given). [DESIGN CHOICE,
log 60] -/
opaque planeSet : Bool → Nat → Nat → Nat

/-- The page of its die's drawer that holds part i of the tail of a slot: where tails stand there is not given (R248, R366). [DESIGN CHOICE, log
60] -/
opaque tailAddr : Nat → Nat → Nat

/-- Bytes of a directory or block message (R418, R424: its layout in its flits is not given). [DESIGN CHOICE, log 62] -/
opaque messageBytes : Nat → BitVec 128 → List Nat → List Byte

/-- The message that the bytes of some flits of a virtual channel carry, in the terms of messageBytes: none while they hold no whole message
(R418, R424). [DESIGN CHOICE, log 62] -/
opaque messageIn : Nat → List Byte → Option (Nat × BitVec 128 × List Nat)

/-- Flits of a channel that a receiver's buffers hold before its stop signal goes up (R419). [DESIGN CHOICE, log 62] -/
opaque linkRoom : Nat

/-- Rows of a bank that a test parks, and the cycles of a phase of a test (R391). [DESIGN CHOICE, log 61] -/
opaque bankRows : Nat
opaque testCycles : Nat → Nat

/-- The rows that the march of a run-time test finds failing, for the n-th free value (R391). [DESIGN CHOICE, log 61] -/
opaque marchFails : Nat → List Nat

/-- The device identity chain held in SPDM slot 0 (R437); its bytes are outside the spec. [DESIGN CHOICE, log 5] -/
opaque identityChain : List Byte

/-- The ECDSA P-384 signature of a CHALLENGE answer (R437); its value is outside the spec. [DESIGN CHOICE, log 5] -/
opaque challengeSignature : List Byte → BitVec 768

/-- Where piece p of member m of the task with arbiter number t lies in its context's pool (R36, R66, R402: the layout is not
architectural). [DESIGN CHOICE, log 5] -/
opaque saveOffset : Nat → Nat → Nat → Nat

/-- The bank (64 x pseudo-channel + bank) and the row in it of the 64-byte line at a physical address / 64: the hash of a stack is not
architectural (R385). [DESIGN CHOICE, log 5] -/
opaque bankOf : Nat → Nat
opaque rowOf : Nat → Nat

/-- Hard repair spares of each bank, and rows that a stack's repair area holds (R393). [DESIGN CHOICE, log 5] -/
opaque hardSpares : Nat
opaque repairRows : Nat

/-- Plane of a directory message other than by NAME[5:2]: ports of the device (R417). -/
def fjostanPorts : Nat := 16

/-- Entries of a name home on the UX-TK7680 (R423). -/
def nameHomeEntries : Nat := 16777216

/-- Images with unretired replays of the graph table on the UX-TK7680 (R410). -/
def graphTable : Nat := 4096

/-- Drawer bytes usable per stack (R385). -/
def stackBytes : Nat := 62000000000

/-- The carve-out of the node table, slot table and lease records (R366): the bytes it takes at the end of a stack's usable part. A
trestle's node table and lease records stand at the top of the usable part of the first stack of its die, and the slot table beside die 0's.
The places are the model's. [DESIGN CHOICE, log 63] -/
def carveBytes (stack : Nat) : Nat :=
  match stack with
  | 0 => 2 ^ 30 + 4 * 2 ^ 20 + 2 ^ 26
  | 3 | 6 | 9 => 2 ^ 30 + 2 ^ 26
  | _ => 0

/-- Ways of a shelf set, sets of a slice and slices (R360). -/
def shelfWays : Nat := 16
def shelfSets : Nat := 6144
def shelfSlices : Nat := 32

/-- Physical base of the launch-port window (R397) and of the chest (R434). -/
def portBase : Nat := 0x4000000000000
def chestBase : Nat := 0x1000000000000

/-- Sets and ways of an L1 (R358), and entries of the C stream's and of an engine's TLB (R351). -/
def l1Sets : Nat := 256
def l1Ways : Nat := 16
def tlbEntries : Nat := 512
def tlbStream : Nat := 64

/-- Entries of a pseudo-channel's write queue, and the two watermarks (R390). -/
def queueEntries : Nat := 64
def queueHigh : Nat := 48
def queueLow : Nat := 16

/-- Nanoseconds of a scrub period (R392). -/
def scrubPeriod : Nat := 24 * 3600 * 1000000000

/-- DIRTO of R420 in nanoseconds, and the guard band of R430. -/
def dirTimeout : Nat := 100000
def guardBand : Nat := 4000

end Sys2Proof.Config
end

