-- ==== Sys2Proof/Machine/StateCore.lean ====
section
/-! DEFINITION. The state of one core and of one task: crew members, engine commands, commits, replicas and task contexts
(R39, R66). All of it is plain data. Machine/State.lean puts it together with the device's own state. -/

namespace Sys2Proof.Machine

/-- A sparse map by number: pairs with strictly rising keys; an absent key holds the map's default. -/
abbrev SMap (α : Type) := List (Nat × α)

/-- The entry of key k, or none. -/
def SMap.find {α : Type} : SMap α → Nat → Option α
  | [], _ => none
  | (i, a) :: r, k => if i == k then some a else if k < i then none else SMap.find r k

/-- The map with key k set to a. -/
def SMap.put {α : Type} : SMap α → Nat → α → SMap α
  | [], k, a => [(k, a)]
  | (i, b) :: r, k, a =>
    if i == k then (k, a) :: r else if k < i then (k, a) :: (i, b) :: r else (i, b) :: SMap.put r k a

/-- The map without key k. -/
def SMap.del {α : Type} : SMap α → Nat → SMap α
  | [], _ => []
  | (i, b) :: r, k => if i == k then r else if k < i then (i, b) :: r else (i, b) :: SMap.del r k

/-- A 64-bit scalar with its poison bit (R41). -/
structure Scalar where
  val : W64
  poison : Bool
  deriving DecidableEq, Repr

/-- A loop counter with the addresses of its loop (R42, R97). -/
structure LoopCtr where
  count : BitVec 32
  start : W64
  stop : W64
  deriving DecidableEq, Repr

/-- Where a stream stands in its region: running, at the region boundary (R27), or halted (R37). -/
inductive StreamStatus where
  | running | closed | halted
  deriving DecidableEq, Repr

/-- One stream of a core. base is the cycle from which the next word's idle count runs (R19); for C, the first cycle in
which the next word may run. waiting says that the word at pc already passed the checks made at its nominal cycle. -/
structure StreamSt where
  pc : W64
  lc0 : LoopCtr
  lc1 : LoopCtr
  base : Nat
  waiting : Bool
  status : StreamStatus
  waits : Nat
  deriving DecidableEq, Repr

/-- A slot of a window (R46). written is a filling slot whose bytes have all arrived, which becomes present when every slot
filled before it is present (R224). -/
inductive Fill where
  | empty | filling | written | present
  deriving DecidableEq, Repr

/-- A window record (R46, R103, R224); gen tells one opening of the window from another (R227). -/
structure Window where
  opened : Bool
  desc : BitVec 256
  bank : Nat
  first : Nat
  depth : Nat
  rows : Nat
  head : Nat
  next : Nat
  cur : Nat
  slots : List (Nat × Fill)
  gen : Nat
  deriving DecidableEq, Repr

/-- The key of sr_bits that a move or word carries to its operation (R79): the word's address and the loop counters. -/
structure RngKey where
  addr : W64
  lc0 : BitVec 32
  lc1 : BitVec 32
  deriving DecidableEq, Repr

/-- A lane segment held in one cycle (R106). -/
structure Seg where
  lane : Nat
  from_ : Nat
  cycle : Nat
  deriving DecidableEq, Repr

/-- Where a move writes (R102): a register, a latch, a trigger or a bank row by bank and row. -/
inductive Dest where
  | none
  | v (n : Nat)
  | la (k : Nat)
  | lb (k : Nat)
  | trig (k : Nat) (op : BitVec 7) (x : BitVec 4)
  | row (bank row : Nat)
  deriving DecidableEq, Repr

/-- A move in flight (R155 to R158). -/
structure Move where
  dest : Dest
  data : Row
  arrive : Nat
  segs : List Seg
  key : RngKey
  deriving DecidableEq, Repr

/-- A trigger that arrived and starts its operation in this cycle (R155). rest is what remains of a chain. -/
structure Start where
  st : Nat
  op : BitVec 7
  x : BitVec 4
  key : RngKey
  chain : Option Nat
  deriving DecidableEq, Repr

/-- A chain row in flight (R196): its stages still to come, its destination row and when the next trigger arrives. -/
structure ChainRow where
  id : Nat
  t : Row
  stages : List (Nat × BitVec 7)
  x : BitVec 4
  dest : Nat
  arrive : Nat
  reads : Option Nat
  key : RngKey
  deriving DecidableEq, Repr

/-- A result due at a station (R155): the row, the flags, and the part mark it leaves on st6 (R176). -/
structure Result where
  st : Nat
  due : Nat
  data : Row
  flags : BitVec 6
  mark : Option (Nat × Nat)
  chain : Option Nat
  deriving DecidableEq, Repr

/-- A word the matrix array runs (R210): its fields, its issue-derived cycles, the cycles in which its operands are read with
what was read (data and scale containers), the rows an MDRAIN has written, and the follow-on command it serves. -/
structure Job where
  mop : Nat
  f : MatFields
  start : Nat
  busy : Nat
  ready : Nat
  rowsDone : Nat
  key : RngKey
  readA : Nat
  readB : Nat
  opA : Option (List Container × List Container)
  opB : Option (List Container × List Container)
  cmd : Option Nat
  deriving DecidableEq, Repr

/-- A remote operand stream (R213): the operands its word reads of peers (the word's remote ranges), the peer, the cycles it is
read, and its multicast group with the issue cycle. -/
structure RStream where
  what : List (Nat × Nat × BitVec 4 × Bool × Nat) × Nat
  peer : Nat
  first : Nat
  last : Nat
  mcg : Nat
  issued : Nat
  deriving DecidableEq, Repr

/-- Where an engine command stands (R219, R220, R234, R235, R240): queued, at work with its next piece due in a cycle, with its
last byte written and its completion due in a cycle (0 where a follow-on step has still to start), held at its mark, waiting for
room in the side log, or waiting for the answer of another device or the lead's echo (R314, R426, R427). A held command keeps the cause that holds it. deferred is a command
of the deferred-write queue. -/
inductive CmdState where
  | queued
  | active (due : Nat)
  | moved (done : Nat)
  | held (cause : Nat)
  | waitLog
  | waitAnswer
  | deferred
  deriving DecidableEq, Repr

/-- Where a window fill writes (R224, R227): the window and its opening, the ring, and the tag of its first row. -/
structure Ring where
  w : Nat
  gen : Nat
  bank : Nat
  first : Nat
  depth : Nat
  rows : Nat
  tag : Nat
  deriving DecidableEq, Repr

/-- The tail of a slot (R248): tokens filled by layer, identifiers, rows by layer x 256 + token and summaries by
(layer x 16 + grain) x 16 + head. -/
structure Tail where
  lfill : List Nat
  ids : SMap W32
  keys : SMap (List (BitVec 16))
  vals : SMap (List (BitVec 16))
  sums : SMap (List (BitVec 8 × BitVec 8))
  deriving DecidableEq, Repr

/-- What a BSEL, CPACT or PGATH keeps of its slot while it runs (R371): its blocks by number, the token count, the tail, the word of its
geometry, and which mapping of the slot it is (SeqSlot.gen). -/
structure Kept where
  blocks : List (Option Nat)
  tok : Nat
  tail : Tail
  geom : W32
  gen : Nat
  deriving DecidableEq, Repr

/-- An engine command in its stream's queue (R217 to R220): its units, its word's address and loop counters, the descriptor read
at issue, its channel, its progress mark (R234), its batch, its byte count and object (R220), the pages it has recorded (R235),
and for rows 0x2_ to 0x4_ the parameter record read at issue followed by the words it has found, the step it has reached, and what
a BSEL, CPACT or PGATH keeps of its slot's mapping: the blocks of the chain and the tail (R371). -/
structure Cmd where
  seq : Nat
  stream : Stream
  instr : Instr
  u0 : BitVec 96
  u1 : BitVec 96
  key : RngKey
  desc : BitVec 256
  ring : Option Ring
  issued : Nat
  state : CmdState
  chan : Option Nat
  mark : Nat
  batch : Nat
  bytes : Nat
  ssem : Nat
  so : Nat
  pages : List Nat
  out : List W32
  step : Nat
  kept : Option Kept
  deriving DecidableEq, Repr

/-- A channel or unit held over a discard (R66, R236): the command with its mark, the cause of the fault that holds it, and whether
the hold has been released. -/
structure HeldCmd where
  cmd : Cmd
  cause : Nat
  released : Bool
  deriving DecidableEq, Repr

/-- A deferred write (R363): a C store, with whether its translation was missing when it was executed (R129), or a command
performed at the commit. -/
inductive Dwq where
  | store (addr : Nat) (bytes : List Byte) (missing : Bool)
  | cmd (c : Cmd)
  deriving DecidableEq, Repr

/-- A C store executed and not yet performed (R295): physical address and bytes, the first cycle it may be performed, and the
number of side-log entries made before it, of which it waits for those of its line (R130). -/
structure PStore where
  pa : Nat
  va : Nat
  bytes : List Byte
  due : Nat
  logMark : Nat
  deriving DecidableEq, Repr

/-- A leaf (R348) as a translation uses it. -/
structure Leaf where
  base : Nat
  size : Nat
  r : Bool
  w : Bool
  x : Bool
  sealedPage : Bool
  nl1 : Bool
  nsh : Bool
  bind : Nat
  deriving DecidableEq, Repr

/-- An L1 line (R358): its physical address, the context, virtual address and leaf through which it was filled, and its 128
bytes. -/
structure Line where
  pa : Nat
  ctx : Nat
  va : Nat
  leaf : Leaf
  data : List Byte
  deriving DecidableEq, Repr

/-- A TLB entry: its context, the page's virtual address, its leaf, and whether a KEEP range of the hint table holds it (R351,
R357). -/
structure TlbEntry where
  ctx : Nat
  va : Nat
  leaf : Leaf
  keep : Bool
  deriving DecidableEq, Repr

/-- What a core keeps when a task leaves it: L1 lines of read-only and sealed pages, TLB entries (R302, R351), and for each context how
many of the ten physical pieces of every bank it has had (R61, R62). -/
structure CoreSave where
  l1 : List Line
  tlbC : List TlbEntry
  tlbL : List TlbEntry
  tlbS : List TlbEntry
  ctxs : SMap (List Nat)
  deriving DecidableEq, Repr

/-- An echo held for a follower (R314): stream, word address and the lead's result. -/
structure Echo where
  stream : Stream
  addr : W64
  val : W64
  data : List Container
  deriving DecidableEq, Repr

/-- A TSPAWN reservation (R149): its number among its member's, the queue, header and parameter addresses. -/
structure Spawn where
  num : Nat
  q : Nat
  hdr : W64
  param : W64
  deriving DecidableEq, Repr

/-- What raised a fault (R334): everything of a record that its raiser fixes. -/
structure FaultInfo where
  cause : Nat
  cls : Nat
  stream : Nat
  rank : Nat
  replica : Nat
  unit : Nat
  pc : W64
  word : BitVec 192
  mark : Nat
  addr : W64
  aux : Nat
  deriving DecidableEq, Repr

/-- A fault record that has been detected and is still to be presented to the event arbiter (R35, R311): its task, what it says, and bytes
32 to 63 where they are those of a decision record (R325). -/
structure Rec where
  task : Nat
  info : FaultInfo
  tail : Option (BitVec 256)
  deriving DecidableEq, Repr

/-- The changes that apply together at the end of a cycle (R48, R49, R51, R135). A semaphore increment carries what would be
recorded if it overflowed. -/
structure Pend where
  mbw : List (Nat × Scalar)
  dset : List (Nat × Nat × W64)
  semAdd : List (Nat × Nat × FaultInfo)
  semTaken : List (Nat × Nat)
  tokPush : List (Nat × List Bool)
  tokTaken : List (Nat × Nat)
  deriving DecidableEq, Repr

/-- Nothing to apply. -/
def Pend.empty : Pend := ⟨[], [], [], [], [], []⟩

/-- The checkpoint bank and descriptor copy of one member (R66). -/
structure Ckpt where
  g : Vector Scalar 32
  v : Vector Row 32
  mb : Vector Scalar 4
  d : Vector (BitVec 256) 64
  lcs : List (LoopCtr × LoopCtr)
  pcs : List W64
  deriving DecidableEq, Repr

/-- A prefix-store command's outcome kept for its re-run (R259): word address, loop counters, parameter record and result. -/
structure Replay where
  stream : Stream
  key : RngKey
  prm : List W32
  out : List W32
  deriving DecidableEq, Repr

/-- One crew member of one replica (R39). savedPieces are the pieces of its allocation written to the save area; stuck are pieces whose
save has failed (R36, R345). spStart, spMid, wrote, kWrote and matNow are the model's own: the scratchpad before this cycle's arrivals and before its
engine writes, the containers written since, and those that its arrivals wrote (R159, R211), and the multiply word whose nominal issue cycle is the present one (R209). flips are the bits FLTINJ
of KIND 2 has pending (R153); counts are commands of L whose byte counts wait for the commit (R220, R321). -/
structure Member where
  core : Nat
  rank : Nat
  replica : Nat
  g : Vector Scalar 32
  d : Vector (BitVec 256) 64
  win : Vector Window 16
  sem : Vector Nat 256
  tq : Vector (List Bool) 12
  mb : Vector Scalar 4
  v : Vector Row 32
  la : Vector Row 8
  lb : Vector Row 8
  lt : Vector Row 8
  lq : Vector Row 8
  mark : Option (Nat × Nat)
  acc : SMap Container
  accReady : Vector Nat 4
  kf : BitVec 6
  spad : SMap Container
  spStart : SMap Container
  spMid : SMap Container
  wrote : List Nat
  kWrote : List Nat
  streams : Vector StreamSt 4
  stall : Option Instr
  moves : List Move
  starts : List Start
  chains : List ChainRow
  results : List Result
  jobs : List Job
  arrayFree : Nat
  rstreams : List RStream
  matNow : Option MatFields
  cmds : List Cmd
  nextCmd : Nat
  batchL : Nat
  batchS : Nat
  held : List HeldCmd
  dwq : List Dwq
  lastAcc : Bool
  frozen : List Nat
  replay : List Replay
  replayPos : List (Stream × Nat)
  rels : List Nat
  arms : List (Nat × W64)
  bowaits : List Nat
  spawns : List Spawn
  sigC : List Byte
  sigL : List Byte
  sigS : List Byte
  recCounts : List Nat
  echoes : List Echo
  echoSent : List (Stream × Nat)
  flips : List Nat
  counts : List Cmd
  stores : List PStore
  seen : Nat
  saw : List (Nat × Nat × Nat)
  l1 : List Line
  tlbC : List TlbEntry
  tlbL : List TlbEntry
  tlbS : List TlbEntry
  pend : Pend
  ckpt : Ckpt
  savedPieces : List (Nat × SMap Container)
  stuck : List Nat
  deriving DecidableEq, Repr

/-- States of a task (R67). -/
inductive TaskState where
  | queued | ready | placing | running | suspended | done | failed
  deriving DecidableEq, Repr

/-- KIND of a handle (R50). -/
inductive SoKind where
  | none | lock | barrier
  deriving DecidableEq, Repr

/-- A sync-object handle (R50, R354): ids are the binding identifiers that select its object; holds is the hold of a
barrier object (R298). -/
structure Handle where
  kind : SoKind
  addr : Nat
  held : Bool
  phase : BitVec 32
  arm : Bool
  ids : List Nat
  holds : Bool
  deriving DecidableEq, Repr

/-- The SR.FAULT fields (R64, R336). -/
structure FaultSt where
  cause : Nat
  count : Nat
  seq : Nat
  deriving DecidableEq, Repr

/-- One replica crew's part of the task context (R24, R38, R321, R327). fault is the region copy of SR.FAULT (R336). sigs are its member signatures once sent; stopped says
what made it diverge or fault, in the cycle stopCycle; more are the other faults of that cycle (R35). -/
structure Replica where
  charge : Nat
  chargeOrigin : Nat
  origin : Nat
  holding : Bool
  atBarrier : Bool
  sticky : BitVec 6
  sigs : Option (List W64 × List Nat)
  stopped : Option FaultInfo
  stopCycle : Nat
  more : List FaultInfo
  fault : FaultSt
  deriving DecidableEq, Repr

/-- Work of step 2 of a commit, in the order of R301. Members are named by their index in the task; failed stands for an uncorrectable error that a
side-log entry of the commit has met (R327). -/
inductive Work where
  | store (m : Nat) (addr : Nat) (bytes : List Byte) (missing : Bool)
  | cmd (m : Nat) (c : Cmd)
  | count (m : Nat) (c : Cmd)
  | release (so : Nat)
  | arrival (m so : Nat) (units : W64)
  | spawn (m : Nat) (sp : Spawn)
  | failed
  deriving DecidableEq, Repr

/-- How far a region's commit has come (R26, R27, R321). -/
inductive Commit where
  | none
  | step1
  | deciding
  | step2 (committer : Nat) (w : List Work)
  deriving DecidableEq, Repr

/-- A vote (R324): the outvoted replica, the ATTEMPT of the run that was compared, and the physical cores that the vote marks (R325,
R326). -/
structure Vote where
  replica : Nat
  attempt : Nat
  cores : List Nat
  deriving DecidableEq, Repr

/-- How a task ended (R408). -/
inductive Ending where
  | done | failed | refused | terminated
  deriving DecidableEq, Repr

/-- A task context (R66) with its launch record (R404) and the context-record fields read at dispatch (R402: ptroot to rpol), with TCPOOL as read when the task
context is allocated and the fault-queue address (R66). members holds replica x crew + rank; so are the
task's handles; vote is the vote of the commit in progress; before holds, to the end of the cycle, the replicas and members as they
stood when the region was discarded (R35); mu are the MU ranges of the hint table, by first
address and bytes, and keep its KEEP ranges with their cores (R357); poolBytes is what the context takes of its pool (R402). -/
structure Task where
  seq : Nat
  node : Nat
  queue : Nat
  ctx : Nat
  tag : BitVec 32
  irq : Bool
  compl : W64
  hdrVA : W64
  param : W64
  ptroot : Nat
  btab : Nat
  hint : Nat
  part : Nat
  rpol : Bool
  tcpool : Nat
  qbase : Nat
  graph : Option Nat
  fromTT : Option Nat
  state : TaskState
  hdr : BitVec 1024
  pool : List W32
  members : List Member
  replicas : List Replica
  discards : Nat
  attempt : Nat
  budget : Nat
  so : Vector Handle 64
  faultLive : FaultSt
  commit : Commit
  commitFinal : Bool
  commitPending : Bool
  vote : Option Vote
  readySince : Nat
  unplaced : Nat
  preemptReq : Bool
  termReq : Bool
  fatal : Bool
  placedOnce : Bool
  before : Option (List Replica × List Member)
  ending : Option Ending
  mu : List (Nat × Nat)
  keep : List (Nat × Nat × Nat)
  poolBytes : Nat
  began : Nat
  deriving DecidableEq, Repr

end Sys2Proof.Machine
end

