-- ==== Sys2Proof/Machine/State.lean ====
section
/-! DEFINITION. The state of the whole device, its faults and refusals, and the state after reset. Every field is plain
data. -/

namespace Sys2Proof.Machine

/-- Why a step stops. noTask (safe): a word of a stream is executed while State.cur names no crew member; the machine never
schedules one, and every step of the agenda names a member. Raised by the meanings of the words and operations of the four
streams only; every fault the spec describes is a next state (R329). -/
inductive Fault where
  | noTask
  deriving DecidableEq, Repr

/-- Why a step has no meaning. notModelled (safe): the instruction has no meaning yet; raised by Dispatch only. -/
inductive Refusal where
  | notModelled (mnemonic : String)
  deriving DecidableEq, Repr

/-- What a word or command does when its meaning runs: issue in its stream, or be performed by its engine (R219). -/
inductive Phase where
  | issue
  | perform
  deriving DecidableEq, Repr

/-- The agent whose step runs: task and member by index, stream, phase, the engine command for its performance, and the
address and bits of the word. -/
structure Actor where
  task : Nat
  member : Nat
  stream : Stream
  phase : Phase
  cmd : Nat
  pc : W64
  word : BitVec 192
  deriving DecidableEq, Repr

/-- A turn of the agenda: an instruction or event with its actor and operand, a stream's issue, the starts of triggered
operations, or a stage of the cycle whose turns are still to be listed. -/
inductive Turn where
  | event (a : Actor) (g : Arg) (i : Instr)
  | issue (t m : Nat) (x : Stream)
  | starts (t m : Nat)
  | stage (n : Nat)
  deriving DecidableEq, Repr

/-- Who wrote a record into a queue: the host, or a task. -/
inductive Writer where
  | host
  | task (t : Nat)
  deriving DecidableEq, Repr

/-- An entry of a launch queue (R399): a record, or a TSPAWN reservation with the rank and number that made it. -/
structure QEntry where
  record : Option (BitVec 512)
  writer : Writer
  slot : Option (Nat × Nat)
  tt : Option Nat
  deriving DecidableEq, Repr

/-- A queue control block with the entries held (R398, R399). -/
structure Queue where
  cfg : W64
  spill : W64
  entries : List QEntry
  hwait : Bool
  drops : Nat
  bad : Nat
  deriving DecidableEq, Repr

/-- The reset value of a queue control block (R398): LOG2D 1, WGT 1, all else 0. [DESIGN CHOICE, log 2] -/
def Queue.reset : Queue := ⟨0x88000, 0, [], false, 0, 0⟩

/-- A recorded event (R311): its sequence number and what it is. -/
inductive EventKind where
  | accept (kind queue : Nat)
  | completion (task : Nat)
  | faultRecord (cause : Nat)
  | management (what value : Nat)
  deriving DecidableEq, Repr

/-- A replay of a graph image (R410): its launch, generation, and its nodes' progress. -/
structure Graph where
  seq : Nat
  queue : Nat
  ctx : Nat
  tag : BitVec 32
  irq : Bool
  image : Nat
  compl : W64
  gen : Nat
  nnode : Nat
  edges : List (Nat × Nat)
  failedNodes : List Nat
  doneNodes : List Nat
  liveNodes : List Nat
  charge : Nat
  waitL : Nat
  waitS : Nat
  waitK : Nat
  flags : BitVec 6
  retired : Bool
  refused : Bool
  tt : Option Nat
  deriving DecidableEq, Repr

/-- What a side-log entry does when it is performed (R129, R235, R240, R397, R478): write bytes, write the 64 bytes of a COPY that a
launch port takes as a record, one element of an accumulate or a
CAS (its bytes are the value it combines or stores; old is the value a CAS compares with), or add to or release a sync object. -/
inductive LogAct where
  | write
  | record
  | acc (c : Cmd) (j : Nat) (old : W64)
  | add (units : Nat)
  | release (so : Nat)
  | arrive (so units : Nat)
  deriving DecidableEq, Repr

/-- A side-log entry (R364): its number, core, context, task and member, line address, bytes by their offset, its command, and the byte
count the command adds to an object once its last entry is performed (R235; so is 0 for none). -/
structure LogEntry where
  id : Nat
  core : Nat
  ctx : Nat
  task : Nat
  member : Nat
  va : Nat
  bytes : List (Nat × Byte)
  act : LogAct
  cmd : Option Nat
  so : Nat
  units : Nat
  deriving DecidableEq, Repr

/-- A lock request waiting at a home slice (R139): the object's physical address and the task; granted once a release has passed it the
lock (R144). -/
structure LockReq where
  obj : Nat
  task : Nat
  granted : Bool
  deriving DecidableEq, Repr

/-- An owner of pages (R355): a task's rank. -/
structure Owner where
  task : Nat
  rank : Nat
  deriving DecidableEq, Repr

/-- State of a 64 KiB ownership unit (R355): whole with its written mask, or split by piece. -/
inductive OwnUnit where
  | whole (o : Owner) (mask : BitVec 16)
  | split (pieces : List (Option Owner))
  deriving DecidableEq, Repr

/-- A prefix node (R247) with its planes' contents: rows of a layer and token by layer x 256 + token, scale exponents by
layer x 16 + head, summaries by (layer x 16 + grain) x 16 + head, and the block's token identifiers. pages are the physical numbers of the drawer pages that
hold it (R308, R380), cpages those of the chest pages once it has been demoted (R267, R434). -/
structure Node where
  pages : List Nat
  cpages : List Nat
  name : Name
  depth : Nat
  kvf : Bool
  evc : BitVec 2
  res : BitVec 3
  lm1 : Nat
  hm1 : Nat
  cm1 : Nat
  homedev : BitVec 20
  refc : Nat
  lsh : Nat
  ldr : Nat
  lch : Nat
  lage : Nat
  fchild : Option Nat
  nsib : Option Nat
  jumps : List (Option Nat)
  gh : List W64
  root : Name
  ids : List W32
  keys : SMap (List (BitVec 16))
  vals : SMap (List (BitVec 16))
  kscale : SMap Int
  vscale : SMap Int
  sums : SMap (List (BitVec 8 × BitVec 8))
  deriving DecidableEq, Repr

/-- A sequence slot (R248) with its tail and grammar stack (R285), the die that holds its tail (R366), and, the model's own, how often what it names
has been replaced other than by KAPP (R269, R371). -/
structure SeqSlot where
  opened : Bool
  ctx : Nat
  leaf : Option Nat
  tok : Nat
  tailn : Nat
  ctag : W64
  mtag : W64
  gstate : W32
  lm1 : Nat
  hm1 : Nat
  cm1 : Nat
  kvf : Bool
  tail : Tail
  stack : List Nat
  homeDie : Nat
  gen : Nat
  deriving DecidableEq, Repr

/-- A lease (R251); ctx is none for a remote lease held by another device (R428). -/
structure Lease where
  id : Nat
  node : Nat
  tier : Nat
  ctx : Option Nat
  dev : BitVec 20
  exp : Nat
  deriving DecidableEq, Repr

/-- A read of a node's planes registered in a tier (R375): the command that reads. -/
structure Reader where
  node : Nat
  tier : Nat
  task : Nat
  member : Nat
  cmd : Nat
  deriving DecidableEq, Repr

/-- A line of the plane cache (R372, R373): what it belongs to (a node, or the tail of a slot), and its slice and set. -/
structure ShelfLine where
  tail : Bool
  owner : Nat
  part : Nat
  slice : Nat
  set : Nat
  deriving DecidableEq, Repr

/-- The prefix store (R244 to R253, R375, R378, R286), the lines of the plane cache, oldest first (R372, R373), the number of blocks inserted so far,
and the reclaim guards of R430 (node, tier, device time). -/
structure Store where
  nodes : SMap Node
  slots : SMap SeqSlot
  leases : List Lease
  usage : SMap Nat
  readers : List Reader
  gram : SMap Nat
  guards : List (Nat × Nat × Nat)
  shelf : List ShelfLine
  nextSerial : Nat
  deriving DecidableEq, Repr

/-- Device time (R362, R429): nanoseconds, the part of a nanosecond in units of 1/1,217,370 (R441), the tick count, the base of the tick offsets,
and synchronisation. -/
structure TimeUnit where
  ns : Nat
  frac : Nat
  tick : Nat
  base : Nat
  inSync : Bool
  lastSync : Nat
  offset : Nat
  deriving DecidableEq, Repr

/-- A flit of a link (R418): virtual channel, destination and source device, and message bytes; its sequence number is its
place in the link's order. -/
structure Flit where
  vc : Nat
  dest : BitVec 20
  src : BitVec 20
  body : List Byte
  deriving DecidableEq, Repr

/-- A Fjostan port (R417 to R419, R432): status word fields; as receiver the next sequence number taken in order, the flits in its buffers, those
of messages not yet whole, the channels whose stop signal it has up, and what it has returned to the other end, on virtual channel 3; as sender the
channels whose stop signal is up, the flits waiting in each channel, the next sequence number, the flits sent and not yet taken, in
order, and the replays of the first of them. -/
structure Port where
  state : BitVec 2
  width : BitVec 2
  replay : Nat
  crcerr : Nat
  timeout : Nat
  nextSeq : BitVec 32
  rx : List Flit
  parts : List Flit
  ownStops : List Nat
  returned : List LinkEvent
  stops : List Nat
  waiting : List Flit
  sendSeq : BitVec 32
  unacked : List Flit
  tries : Nat
  deriving DecidableEq, Repr

/-- A remote lease held (R427, R430): name, source, lease ID, expiry by this device's reckoning, and the REPL it serves. -/
structure RemoteLease where
  name : Name
  source : BitVec 20
  id : W32
  sent : Nat
  ticks : Nat
  task : Nat
  member : Nat
  cmd : Nat
  deriving DecidableEq, Repr

/-- A request awaiting its answer (R420): name, form, when sent, to whom, on which plane, and the command it serves. -/
inductive ReqKind where
  | lookup | rlease | rlrenew | read
  deriving DecidableEq, Repr

/-- A directory request in flight; a READ and an RLRENEW name their lease. -/
structure Request where
  name : Name
  kind : ReqKind
  dest : BitVec 20
  plane : Option Nat
  sent : Nat
  task : Nat
  member : Nat
  cmd : Nat
  lease : W32
  deriving DecidableEq, Repr

/-- A copy of a remote block in progress (R427): the bytes received so far. -/
structure RemoteCopy where
  name : Name
  task : Nat
  member : Nat
  cmd : Nat
  bytes : SMap Byte
  size : Nat
  deriving DecidableEq, Repr

/-- The Fjostan side of the device (R417 to R431): ports, the name home's entries, and this device's remote business. outbox
holds messages sent, with plane, virtual channel and destination; late are requests that were given up as unanswered (R420);
chestBad are the lines of the chest whose expander returns poisoned data, or (true) completes requests with an error (R434). -/
structure Fabric where
  ports : List Port
  homes : List (Name × List (BitVec 20))
  dropReg : Nat
  held : List RemoteLease
  reqs : List Request
  late : List Request
  copies : List RemoteCopy
  outbox : List (Nat × Nat × BitVec 20 × Msg)
  chest0 : Bool
  chest1 : Bool
  chestBad : List (Nat × Bool)
  deriving DecidableEq, Repr

/-- Where a bank test stands (R391): copying rows to the parking area, the march with the rows it finds failing, or copying back. -/
inductive TestPhase where
  | parking (row : Nat)
  | march
  | returning (row : Nat)
  deriving DecidableEq, Repr

/-- A bank test of a stack (R391): pseudo-channel, bank, phase, the cycle in which the phase goes on, and the rows that fail. -/
structure BankTest where
  pc : Nat
  bank : Nat
  phase : TestPhase
  due : Nat
  bad : List Nat
  deriving DecidableEq, Repr

/-- A write queue of a pseudo-channel (R390): its writes, oldest first, and whether the controller serves only writes. -/
structure WriteQ where
  writes : List (Nat × List Byte)
  draining : Bool
  deriving DecidableEq, Repr

/-- An HBM stack (R389 to R394): status word fields, the write queues outside SERVICE by pseudo-channel, the bank test under way, the
banks parked for good, lines with a correctable and with an uncorrectable error, lines corrected in this scrub period, repair candidates by bank
and row, hard spares used by bank, rows mapped into the repair area in order (R393), and whether tests are barred. -/
structure Stack where
  mode : Nat
  donate : Bool
  tpc : BitVec 6
  tbank : BitVec 6
  ce : Nat
  ue : Nat
  ppr : Nat
  remap : Nat
  trains : Nat
  wq : SMap WriteQ
  test : Option BankTest
  parked : List (Nat × Nat)
  softLines : List Nat
  badLines : List Nat
  corrected : List Nat
  candidates : List (Nat × Nat)
  used : SMap Nat
  hard : List (Nat × Nat)
  area : List (Nat × Nat)
  barred : Bool
  deriving DecidableEq, Repr

/-- Progress of the boot chain (R436): not run, stopped at a step, or READY. -/
inductive BootState where
  | off
  | failed (step : Nat)
  | ready
  deriving DecidableEq, Repr

/-- An answer the mailbox holds (R437). -/
inductive MailAnswer where
  | version (major minor : Nat)
  | capabilities (challenge certs meas : Bool)
  | algorithms (sha384 p384 : Bool)
  | digests (d : List (BitVec 384))
  | certificate (chain : List Byte)
  | challenge (nonce : BitVec 256) (signature : BitVec 768)
  | measurements (m : List (Nat × BitVec 384))
  | config (accepted : Bool)
  | capacity (bytes : Nat)
  | error
  deriving DecidableEq, Repr

/-- The repair part (R438 to R440): per span the physical core its spare replaces, suspect counts per physical core and the
retired cores; a retirement waiting for its core's task. -/
structure Repair where
  spares : SMap Nat
  suspects : SMap Nat
  retired : List Nat
  retiring : List Nat
  deriving DecidableEq, Repr

/-- The management core (R435 to R440), with the device times of the latest run-time bank tests and patrol scrub, and the bank the next test
takes (R391, R392). -/
structure Mgmt where
  boot : BootState
  meas : Vector (BitVec 384) 16
  cfg : OperatorPart
  nextCfg : Option OperatorPart
  repair : Repair
  corrected : Nat
  lastTest : Nat
  nextBank : Nat
  lastScrub : Nat
  mailbox : List MailAnswer
  deriving DecidableEq, Repr

/-- Power (R441, R442): the state of each span, the latest state accepted with the queues whose IRQ waits for it, and the
clamped dies. -/
structure Power where
  spans : List Nat
  accepted : Nat
  irqs : List Nat
  clamped : List Nat
  deriving DecidableEq, Repr

/-- The global registers of BAR2 (R400). -/
structure Regs where
  ctxbase : W64
  ttbase : W64
  agep : BitVec 32
  pdelay : BitVec 32
  devid : BitVec 20
  deriving DecidableEq, Repr

/-- A reservation of a placement (R414): the task, and the logical cores by span for each replica. -/
structure Reserve where
  task : Nat
  cores : List Nat
  deriving DecidableEq, Repr

/-- Memory (R4, R293): bytes by physical address, strictly rising, none listed that equals an unlisted byte. -/
abbrev Memory := List Host.Cell

/-- What an unlisted byte reads as: 0, a DESIGN CHOICE (notes/assumptions/1.md; unsafe). [DESIGN CHOICE, log 1] -/
def Memory.default : Byte := 0

/-- The byte at an address. [DESIGN CHOICE, log 1] -/
def Memory.get : Memory → Nat → Byte
  | [], _ => Memory.default
  | (i, b) :: r, a => if i = a then b else if a < i then Memory.default else Memory.get r a

/-- The memory with the byte at an address set: the entry goes when the byte equals an unlisted one. [DESIGN CHOICE, log 1] -/
def Memory.set : Memory → Nat → Byte → Memory
  | [], a, v => if v = Memory.default then [] else [(a, v)]
  | (i, b) :: r, a, v =>
    if i = a then (if v = Memory.default then r else (a, v) :: r)
    else if a < i then (if v = Memory.default then (i, b) :: r else (a, v) :: (i, b) :: r)
    else (i, b) :: Memory.set r a v

/-- The canonical form of the rest of a memory above an address. -/
def Memory.wfAbove : Nat → Memory → Bool
  | _, [] => true
  | lo, (i, b) :: r => decide (lo ≤ i) && b != Memory.default && Memory.wfAbove (i + 1) r

/-- The canonical form: addresses strictly rising, no entry equal to what an unlisted address reads as. -/
def Memory.wf (m : Memory) : Bool := Memory.wfAbove 0 m

/-- A soft error (R332): in the registers of a task's member, in its checkpoint bank or descriptor copy, in a container of its scratchpad, in a
side-log entry, or in a line of HBM, correctable or not; one of a core or a scratchpad that is corrected; or a line of the chest for which an expander returns poisoned data, or completes requests with an error, or no longer
does either (R434). -/
inductive SoftError where
  | core (t m : Nat)
  | bank (t m : Nat)
  | corrected
  | spad (t m ci : Nat)
  | logEntry (id : Nat)
  | hbm (line : Nat) (correctable : Bool)
  | chest (line : Nat) (bad : Option Bool)
  deriving DecidableEq, Repr

/-- How far the reads reach that see a write at once, beside those of its own agent: no further, the cores of a span, or those of the whole device
(R307). -/
inductive Reach where
  | core
  | span (n : Nat)
  | device
  deriving DecidableEq, Repr

/-- A write performed (R295): where, what it replaced, the task and rank of the agent that made it, its reach, and whether a commit performed it,
whose writes every member of its task's crew sees (R304). -/
structure Written where
  pa : Nat
  old : List Byte
  writer : Option (Nat × Nat)
  reach : Reach
  crew : Bool
  deriving DecidableEq, Repr

/-- The whole device. past is the model's own record of the writes performed, latest first, with what memory held before each: a read may return it
(R299, R300). recs are the fault records of this cycle that wait for the event arbiter (R35). xlat are the translations used in each context that its page tables still gave at its last invalidation (R350); unmapped are the entries of page tables, by address, with
the pages of removed blocks that they no longer map until they are written again (R308, R368); errors are the soft errors
to come, by cycle (R332). -/
structure State where
  mem : Memory
  past : List Written
  queues : SMap Queue
  regs : Regs
  nextSeq : Nat
  events : List (Nat × EventKind)
  recs : List Rec
  tasks : List Task
  graphs : List Graph
  credits : List (Nat × Nat × Int)
  reserve : Option Reserve
  irqs : List Nat
  lockq : List LockReq
  slog : List LogEntry
  nextLog : Nat
  own : SMap OwnUnit
  cores : SMap CoreSave
  xlat : List TlbEntry
  unmapped : List (Nat × Nat)
  store : Store
  time : TimeUnit
  ttNext : SMap Nat
  fabric : Fabric
  hbm : List Stack
  mgmt : Mgmt
  power : Power
  cur : Actor
  arg : Arg
  agenda : List Turn
  inputs : List (Nat × Instr × Arg)
  errors : List (Nat × SoftError)
  cycle : Nat
  free : Nat
  deriving DecidableEq, Repr

/-- The tail and stack of a slot never opened. -/
def Tail.empty : Tail := ⟨[], [], [], [], []⟩

/-- The operator part of the configuration record before a boot has read one: DESIGN CHOICE (notes/assumptions/2.md). [DESIGN CHOICE, log 2] -/
def OperatorPart.reset : OperatorPart :=
  { devid := 0, ndom := 1, pcs := 0, slots := Vector.replicate 64 none, donate := false, testPeriod := 0, chest0 := 0, chest1 := 0
    interleave := false, timeRef := .host, syncInt := 2000000000, finj := [] }

/-- An HBM stack at reset (R394: MODE 1, counts 0; the fields from the record 0, notes/assumptions/2.md). [DESIGN CHOICE, log 2] -/
def Stack.reset : Stack :=
  { mode := 1, donate := false, tpc := 0, tbank := 0, ce := 0, ue := 0, ppr := 0, remap := 0, trains := 0, wq := []
    test := none, parked := [], softLines := [], badLines := [], corrected := [], candidates := [], used := [], hard := []
    area := [], barred := false }

/-- A Fjostan port at reset (R432). [DESIGN CHOICE, log 2] -/
def Port.reset : Port := ⟨0, 0, 0, 0, 0, 0, [], [], [], [], [], [], 0, [], 0⟩

/-- The device right after reset: nothing booted, nothing enabled, nothing listed in memory (R394, R398, R400, R412, R432,
R437; values the spec does not give: notes/assumptions/1.md to 4.md). [DESIGN CHOICE, log 2] -/
def State.reset : State :=
  { mem := [], past := [], queues := [], regs := ⟨0, 0, 0, 10000, 0⟩, nextSeq := 0, events := [], recs := [], tasks := [], graphs := []
    credits := [], reserve := none, irqs := [], lockq := [], slog := [], nextLog := 0, own := [], cores := []
    xlat := [], unmapped := []
    store := ⟨[], [], [], [], [], [], [], [], 0⟩
    time := ⟨0, 0, 0, 0, false, 0, 0⟩
    ttNext := []
    fabric := ⟨List.replicate 16 Port.reset, [], 0, [], [], [], [], [], false, false, []⟩
    hbm := List.replicate 12 Stack.reset
    mgmt := ⟨.off, Vector.replicate 16 0, OperatorPart.reset, none, ⟨[], [], [], []⟩, 0, 0, 0, 0, []⟩
    power := ⟨List.replicate 32 0, 0, [], []⟩
    cur := ⟨0, 0, .c, .issue, 0, 0, 0⟩, arg := .none, agenda := [], inputs := [], errors := [], cycle := 0, free := 0 }

end Sys2Proof.Machine
end

