-- ==== Sys2Proof/Machine/Block.lean ====
section
/-! DEFINITION. Byte strings and words (R4); the geometry of prefix-store blocks (R244, R378), a block's bytes (R380) and the pages that
hold them (R308). -/

namespace Sys2Proof.Machine

/-! ## Bytes and words (R4) -/

/-- The number of a little-endian byte string. -/
def leNat : List Byte → Nat
  | [] => 0
  | b :: r => b.toNat + 256 * leNat r

/-- The n bytes of a number, least significant first. -/
def leBytes : Nat → Nat → List Byte
  | 0, _ => []
  | n + 1, v => BitVec.ofNat 8 v :: leBytes n (v / 256)

/-- Whether x lies in [lo, lo + n). -/
def within (x lo n : Nat) : Bool := decide (lo ≤ x) && decide (x < lo + n)

/-! ## Blocks (R244, R308, R378, R380) -/

/-- The geometry of a slot or node (R244). -/
structure Geom where
  l : Nat
  h : Nat
  c : Nat
  kvf : Bool
  deriving DecidableEq, Repr

/-- Bytes a lease of a block charges, which are the bytes of its planes and summaries (R378). -/
def Geom.block (g : Geom) : Nat := g.l * (512 * g.h * g.c * (if g.kvf then 1 else 2) + 32 * g.h * g.c)

/-- Bytes the tail of a slot charges (R378). -/
def Geom.tail (g : Geom) : Nat := g.l * (1024 * g.h * g.c + 32 * g.h * g.c) + 1024

/-- The geometry of a node. -/
def Node.geom (n : Node) : Geom := ⟨n.lm1 + 1, n.hm1 + 1, 16 * (n.cm1 + 1), n.kvf⟩

/-- Bytes of an element of a plane. -/
def Geom.elem (g : Geom) : Nat := if g.kvf then 1 else 2

/-- A plane as bytes: by layer and token. -/
def planeBytes (g : Geom) (p : SMap (List (BitVec 16))) : List Byte :=
  (List.range (256 * g.l)).flatMap fun i =>
    let row := (p.find i).getD []
    (List.range (g.h * g.c)).flatMap fun e => leBytes g.elem (row.getD e 0).toNat

/-- Scales as bytes: by layer and head. -/
def scaleBytes (g : Geom) (m : SMap Int) : List Byte :=
  (List.range g.l).flatMap fun l => (List.range g.h).map fun h => BitVec.ofInt 8 ((m.find (16 * l + h)).getD 0)

/-- Summaries as bytes: by layer, grain, head and channel. -/
def sumBytes (g : Geom) (m : SMap (List (BitVec 8 × BitVec 8))) : List Byte :=
  (List.range (16 * g.l)).flatMap fun i => (List.range g.h).flatMap fun h =>
    let row := (m.find (16 * i + h)).getD []
    (List.range g.c).flatMap fun e => let p := row.getD e (0, 0)
      [p.1, p.2]

/-- The bytes of a block's planes, scales and summaries, in the model's own order. [DESIGN CHOICE, log 43] -/
def Node.body (n : Node) : List Byte :=
  let g := n.geom
  planeBytes g n.keys ++ planeBytes g n.vals ++ scaleBytes g n.kscale ++ scaleBytes g n.vscale ++ sumBytes g n.sums

/-- Pages of 4 KiB that a block takes (R378). -/
def Geom.pages (g : Geom) : Nat := (g.block + 4095) / 4096

/-- Pages of the drawer of a stack below its carve-out (R366, R385). -/
def stackPages (stack : Nat) : Nat := (Config.stackBytes - Config.carveBytes stack) / 4096

/-- Page n of the drawer of a die, by its physical number: its three stacks by turns (R366, R383, R385). [DESIGN CHOICE, log 59] -/
def drawerPage (die n : Nat) : Nat := (3 * die + n % 3) * 2 ^ 24 + n / 3 % stackPages (3 * die + n % 3)

/-- The first page from page n on that is not in use. -/
def freePage (place : Nat → Nat) (used : List Nat) : Nat → Nat → Nat
  | 0, n => place n
  | f + 1, n => if used.contains (place n) then freePage place used f (n + 1) else place n

/-- Pages that are not in use, one for each page wanted. -/
def takePages (place : Nat → Nat) (used : List Nat) : List Nat → List Nat
  | [] => []
  | n :: r => let p := freePage place used used.length n
    p :: takePages place (p :: used) r

/-- Drawer pages that blocks take. -/
def Store.pagesUsed (st : Store) : List Nat := st.nodes.flatMap fun p => p.2.pages

/-- The drawer of a die has that many pages besides those in use (R380). [DESIGN CHOICE, log 59] -/
def Store.dieRoom (st : Store) (die n : Nat) : Bool :=
  decide ((st.pagesUsed.filter fun p => p / 2 ^ 24 / 3 == die).length + n ≤ 3 * stackPages (3 * die))

/-- Physical page numbers that a new block takes in the drawer of a die, of no other block (R308, R380). [DESIGN CHOICE, log 59] -/
def Store.newPages (st : Store) (g : Geom) (die : Nat) : List Nat :=
  takePages (drawerPage die) st.pagesUsed ((List.range g.pages).map (Config.blockAddr st.nextSerial))

/-- Byte o of page i of a block, 0 where the page holds nothing of its planes (R308, R380). [DESIGN CHOICE, log 59] -/
def Node.pageByte (n : Node) (i o : Nat) : Byte := ((Config.planeAt i o).bind fun k => n.body[k]?).getD 0

/-- The block and the page of it that a physical page number holds. -/
def Store.blockAt (st : Store) (page : Nat) : Option (Node × Nat) :=
  (st.nodes.findSome? fun p => (p.2.pages.idxOf? page).map fun i => (p.2, i))

end Sys2Proof.Machine
end

