-- ==== Sys2Proof/Machine/Ops.lean ====
section
/-! DEFINITION. The named operations every meaning is built of: access to tasks and members, bytes and words, physical
memory, page walks and TLBs, the scratchpad, fault records, discards, TAKING A FAULT (raise) and the return from one
(resumeTask), and the advance of a stream. -/

namespace Sys2Proof.Machine

/-- What a step answers. -/
abbrev Res := Host.Outcome State Fault Refusal

/-! ## Tasks and members -/

/-- Task t with its context replaced. -/
def State.putTask (s : State) (t : Nat) (tk : Task) : State := { s with tasks := s.tasks.set t tk }

/-- The task with member m replaced. -/
def Task.putMember (tk : Task) (m : Nat) (mem : Member) : Task := { tk with members := tk.members.set m mem }

/-- Member m of task t. -/
def State.member? (s : State) (t m : Nat) : Option Member := (s.tasks[t]?).bind fun tk => tk.members[m]?

/-- The state with member m of task t replaced. -/
def State.putMember (s : State) (t m : Nat) (mem : Member) : State :=
  match s.tasks[t]? with
  | some tk => s.putTask t (tk.putMember m mem)
  | none => s

/-- The state with a function applied to member m of task t. -/
def State.modMember (s : State) (t m : Nat) (f : Member → Member) : State :=
  match s.member? t m with
  | some mem => s.putMember t m (f mem)
  | none => s

/-- The state with a function applied to task t. -/
def State.modTask (s : State) (t : Nat) (f : Task → Task) : State :=
  match s.tasks[t]? with
  | some tk => s.putTask t (f tk)
  | none => s

/-- The current member's state replaced. -/
def State.put (s : State) (mem : Member) : State := s.putMember s.cur.task s.cur.member mem

/-- Run a meaning on the current task and member; a word without one stops (Fault.noTask). [DESIGN CHOICE, log 49] -/
def onMember (s : State) (f : Task → Member → Res) : Res :=
  match s.tasks[s.cur.task]? with
  | none => .fault .noTask
  | some tk =>
    match tk.members[s.cur.member]? with
    | none => .fault .noTask
    | some mem => f tk mem

/-- The next free value, and the state past it. [DESIGN CHOICE, log 4] -/
def State.takeFree (s : State) : W64 × State := (Config.freeWord s.free, { s with free := s.free + 1 })

/-- Crew size from the header (R8). -/
def Task.crew (tk : Task) : Nat := 2 ^ (tk.hdr.extractLsb' 352 2).toNat
/-- MODE of the header: true is tolerant. -/
def Task.tolerant (tk : Task) : Bool := tk.hdr.extractLsb' 354 1 == 1#1
/-- PRE of the header. -/
def Task.pre (tk : Task) : Bool := tk.hdr.extractLsb' 355 1 == 1#1
/-- REPL of the header: 0 none, 1 dual, 2 triple. -/
def Task.repl (tk : Task) : Nat := (tk.hdr.extractLsb' 356 2).toNat
/-- RETRY of the header. -/
def Task.retry (tk : Task) : Nat := (tk.hdr.extractLsb' 358 2).toNat
/-- PRIO of the header. -/
def Task.prio (tk : Task) : Nat := (tk.hdr.extractLsb' 360 3).toNat
/-- SPAD of the header, in pieces. -/
def Task.spadN (tk : Task) : Nat := (tk.hdr.extractLsb' 336 7).toNat
/-- SPSH of the header, in pieces. -/
def Task.spsh (tk : Task) : Nat := (tk.hdr.extractLsb' 344 7).toNat
/-- SEED of the header. -/
def Task.seed (tk : Task) : W64 := tk.hdr.extractLsb' 448 64
/-- DCNT of the header. -/
def Task.dcnt (tk : Task) : Nat := (tk.hdr.extractLsb' 576 7).toNat
/-- The task is replicated. -/
def Task.replicated (tk : Task) : Bool := tk.repl != 0
/-- Replicas of the task. -/
def Task.nrepl (tk : Task) : Nat := tk.repl + 1
/-- The task stands on its cores. -/
def Task.placed (tk : Task) : Bool := tk.state == TaskState.running || tk.state == TaskState.placing
/-- The index of rank r of replica k among the task's members. -/
def Task.index (tk : Task) (k r : Nat) : Nat := k * tk.crew + r
/-- Replica k's part of the context. -/
def Task.replica? (tk : Task) (k : Nat) : Option Replica := tk.replicas[k]?
/-- The task with replica k's part replaced. -/
def Task.putReplica (tk : Task) (k : Nat) (r : Replica) : Task := { tk with replicas := tk.replicas.set k r }
/-- Cycles charged to replica k so far (R24). -/
def Task.chargeOf (tk : Task) (k : Nat) : Nat := (tk.replicas[k]?.map (·.charge)).getD 0
/-- The origin of the running region in replica k. -/
def Task.originOf (tk : Task) (k : Nat) : Nat := (tk.replicas[k]?.map (·.origin)).getD 0
/-- Sticky flags of replica k. -/
def Task.stickyOf (tk : Task) (k : Nat) : BitVec 6 := (tk.replicas[k]?.map (·.sticky)).getD 0

/-- A stream's state. -/
def Member.str (mem : Member) (x : Stream) : StreamSt :=
  match x with
  | .c => mem.streams[0]
  | .l => mem.streams[1]
  | .s => mem.streams[2]
  | .k => mem.streams[3]

/-- A stream's state replaced. -/
def Member.setStr (mem : Member) (x : Stream) (v : StreamSt) : Member :=
  match x with
  | .c => { mem with streams := mem.streams.set 0 v }
  | .l => { mem with streams := mem.streams.set 1 v }
  | .s => { mem with streams := mem.streams.set 2 v }
  | .k => { mem with streams := mem.streams.set 3 v }

/-! ## g registers (R40, R41) -/

/-- A g register as read: g0 reads as zero with poison clear. -/
def Member.rd (mem : Member) (r : BitVec 5) : Scalar := if r = 0#5 then ⟨0, false⟩ else mem.g[r.toNat]'(r.isLt)

/-- A g register written: a write to g0 is discarded. -/
def Member.wr (mem : Member) (r : BitVec 5) (v : Scalar) : Member :=
  if r = 0#5 then mem else { mem with g := mem.g.set r.toNat v r.isLt }

/-! ## Physical memory (R348, R385, R396, R397, R434) -/

/-- The port of a chest offset, none beyond the configured sizes (R434). -/
def State.chestPort (s : State) (off : Nat) : Option Nat :=
  let c := s.mgmt.cfg
  if c.chest0 = c.chest1 && c.interleave then
    if off < 2 * c.chest0 then some (off / 4096 % 2) else none
  else if off < c.chest0 then some 0
  else if off < c.chest0 + c.chest1 then some 1
  else none

/-- A chest counts as configured: a port in service with nonzero size (R434). -/
def State.chestOn (s : State) : Bool :=
  (s.fabric.chest0 && s.mgmt.cfg.chest0 != 0) || (s.fabric.chest1 && s.mgmt.cfg.chest1 != 0)

/-- The address lies in the launch-port window (R397). -/
def inPorts (pa : Nat) : Bool := within pa Config.portBase (2 ^ 21)

/-- The byte of the chest lies within the configured sizes, on a port in service (R434). -/
def State.chestOk (s : State) (pa : Nat) : Bool :=
  match s.chestPort (pa - Config.chestBase) with
  | some 0 => s.fabric.chest0
  | some _ => s.fabric.chest1
  | none => false

/-- The byte exists and reads without an uncorrectable memory error (R385, R389, R392, R434). -/
def State.paOk (s : State) (pa : Nat) : Bool :=
  if 2 ^ 51 ≤ pa then decide (pa < 2 ^ 52)
  else if inPorts pa then true
  else if within pa Config.chestBase (2 ^ 44) then s.chestOk pa && !s.fabric.chestBad.any fun b => b.1 == pa / 64
  else
    match s.hbm[pa / 2 ^ 36]? with
    | some st => decide (pa % 2 ^ 36 < Config.stackBytes) && st.mode != 5 && !st.badLines.contains (pa / 64)
    | none => false

/-- The byte exists and can be written: a line that fails is replaced by a write, but for one of the chest whose requests complete with an
error (R385, R389, R392, R434). -/
def State.paWritable (s : State) (pa : Nat) : Bool :=
  if within pa Config.chestBase (2 ^ 44) then s.chestOk pa && !s.fabric.chestBad.contains (pa / 64, true)
  else if decide (2 ^ 51 ≤ pa) || inPorts pa then s.paOk pa
  else match s.hbm[pa / 2 ^ 36]? with
    | some st => decide (pa % 2 ^ 36 < Config.stackBytes) && st.mode != 5
    | none => false

/-- Every byte of [pa, pa + n) can be written. -/
def State.canWrite (s : State) (pa n : Nat) : Bool := (List.range n).all fun i => s.paWritable (pa + i)

/-- The physical byte lies in the carve-out of the prefix store, which no context can map (R366). [DESIGN CHOICE, log 63] -/
def carved (pa : Nat) : Bool :=
  decide (pa / 2 ^ 36 < 12) && decide (Config.stackBytes ≤ pa % 2 ^ 36 + Config.carveBytes (pa / 2 ^ 36)) &&
    decide (pa % 2 ^ 36 < Config.stackBytes)

/-- How a page's leaf serves an address: none in the carve-out (R366), and a block's pages are mapped read-only with the sealed flag set (R308,
R380). [DESIGN CHOICE, log 59, 63] -/
def State.view (s : State) (l : Leaf) (va : Nat) : Option Leaf :=
  if carved (l.base + va % l.size) then none
  else if (s.store.blockAt ((l.base + va % l.size) / 4096)).isSome then some { l with w := false, sealedPage := true }
  else some l

/-- Every byte of [pa, pa + n) is readable. -/
def State.rangeOk (s : State) (pa n : Nat) : Bool := (List.range n).all fun i => s.paOk (pa + i)

/-- n bytes of a memory from an address. -/
def Memory.bytes (m : Memory) (pa n : Nat) : List Byte := (List.range n).map fun i => m.get (pa + i)

/-- A memory with a byte string written at an address. -/
def Memory.setBytes : Memory → Nat → List Byte → Memory
  | m, _, [] => m
  | m, pa, b :: r => Memory.setBytes (m.set pa b) (pa + 1) r

/-- The queue status word of queue q (R398). [DEDUCED, log 38] -/
def State.qstat (s : State) (q : Nat) : Nat :=
  match s.queues.find q with
  | none => 0
  | some x => x.entries.length % 2 ^ 17 + (if x.hwait then 2 ^ 17 else 0) + x.drops * 2 ^ 32 + x.bad * 2 ^ 48

/-- Byte i of launch port q as it is read (R397). [DEDUCED, log 38] -/
def State.portByte (s : State) (off : Nat) : Byte :=
  if off % 64 < 8 then BitVec.ofNat 8 (s.qstat (off / 64) / 256 ^ (off % 64)) else 0

/-- n bytes of physical memory within one page: what every read at the home slice returns (R295, R390), the sealed bytes of a
block's page (R308), or a launch port's bytes (R397). -/
def State.load (s : State) (pa n : Nat) : List Byte :=
  if inPorts pa then (List.range n).map fun i => s.portByte (pa + i - Config.portBase)
  else match s.store.blockAt (pa / 4096) with
    | some b => (List.range n).map fun i => b.1.pageByte b.2 (pa % 4096 + i)
    | none => s.mem.bytes pa n

/-- The little-endian number of n bytes of physical memory. -/
def State.loadNat (s : State) (pa n : Nat) : Nat := leNat (s.load pa n)

/-- The first of the two 64-byte lines of a 128-byte line, by which the hash of R385 takes both. -/
def pairOf (line : Nat) : Nat := line / 2 * 2

/-- The pseudo-channel of a physical address: 128-byte lines rotate over them (R385, R390). -/
def channelAt (pa : Nat) : Nat := Config.bankOf (pairOf (pa / 64)) / 64

/-- A write queue serves writes, oldest first, until it holds n (R390). -/
def WriteQ.serve (q : WriteQ) (n : Nat) : WriteQ := { q with writes := q.writes.drop (q.writes.length - n) }

/-- A write queue with one more write: at its full 64 entries the oldest leaves first; from 48 on only writes are served until 16 are
left (R390). -/
def WriteQ.push (q : WriteQ) (w : Nat × List Byte) : WriteQ :=
  let q1 := if Config.queueEntries ≤ q.writes.length then q.serve (Config.queueEntries - 1) else q
  let q2 := { q1 with writes := q1.writes ++ [w] }
  if Config.queueHigh ≤ q2.writes.length then q2.serve Config.queueLow else q2

/-- A write overlaps [pa, pa + n). -/
def overlaps (w : Nat × List Byte) (pa n : Nat) : Bool := decide (w.1 < pa + n) && decide (pa < w.1 + w.2.length)

/-- A write covers [pa, pa + n). -/
def covers (w : Nat × List Byte) (pa n : Nat) : Bool := decide (w.1 ≤ pa) && decide (pa + n ≤ w.1 + w.2.length)

/-- A read checked against a write queue: the youngest write that overlaps it either covers it and answers it, or is drained with every
write before it (R390). -/
def WriteQ.read (q : WriteQ) (pa n : Nat) : WriteQ :=
  match (List.range q.writes.length).reverse.find? fun i => (q.writes[i]?.map fun w => overlaps w pa n).getD false with
  | none => q
  | some i => if (q.writes[i]?.map fun w => covers w pa n).getD false then q else { q with writes := q.writes.drop (i + 1) }

/-- Rows with four corrected errors or more among some lines: bank and row (R392). -/
def rowCandidates (lines : List Nat) : List (Nat × Nat) :=
  let rows := lines.map fun l => (Config.bankOf (pairOf l), Config.rowOf (pairOf l))
  (rows.filter fun r => decide (4 ≤ rows.count r)).eraseDups

/-- Errors corrected in some lines of a stack: counted, written back, and held against their rows (R392). -/
def Stack.correct (st : Stack) (lines : List Nat) : Stack :=
  { st with
    ce := min (st.ce + lines.length) 65535, corrected := st.corrected ++ lines
    softLines := st.softLines.filter fun l => !lines.contains l
    candidates := (st.candidates ++ rowCandidates (st.corrected ++ lines)).eraseDups }

/-- What a write does to its HBM stack besides the bytes: outside SERVICE it joins the write queue of its pseudo-channel (R390), and a
line all of whose 64 bytes it replaces fails no longer (R392). State.mem holds what reads see, the queued writes among it. [DEDUCED, log
61] -/
def Stack.noteWrite (st : Stack) (pa : Nat) (bytes : List Byte) : Stack :=
  let replaced := fun (l : Nat) => decide (pa ≤ 64 * l) && decide (64 * l + 64 ≤ pa + bytes.length)
  { st with
    wq := if st.mode == 3 || st.mode == 4 then
        st.wq.put (channelAt pa) (((st.wq.find (channelAt pa)).getD ⟨[], false⟩).push (pa, bytes)) else st.wq
    softLines := st.softLines.filter fun l => !replaced l
    badLines := st.badLines.filter fun l => !replaced l }

/-- What a read does to its HBM stack: the check against the write queue outside SERVICE (R390), and the errors it meets (R392); in a stack that has
failed it is one itself (R389). -/
def Stack.noteRead (st : Stack) (pa n : Nat) : Stack :=
  let met := fun (l : Nat) => decide (64 * l < pa + n) && decide (pa < 64 * l + 64)
  let st1 := if st.mode == 3 || st.mode == 4 then
      { st with wq := (st.wq.find (channelAt pa)).elim st.wq fun q => st.wq.put (channelAt pa) (q.read pa n) } else st
  let st2 := { st1 with ue := min (st1.ue + if st1.mode = 5 then 1 else (st1.badLines.filter met).length) 255 }
  if (st2.softLines.filter met).isEmpty then st2 else st2.correct (st2.softLines.filter met)

/-- Lines with a correctable error that a read of n bytes meets. -/
def Stack.softMet (st : Stack) (pa n : Nat) : Nat := (st.softLines.filter fun l => decide (64 * l < pa + n) && decide (pa < 64 * l + 64)).length

/-- A read of n bytes of physical memory noted in its HBM stack (R390, R392); the management core counts what it corrects (R332, R435). -/
def State.noteRead (s : State) (pa n : Nat) : State :=
  { s with
    hbm := s.hbm.modify (pa / 2 ^ 36) fun st => st.noteRead pa n
    mgmt := { s.mgmt with corrected := s.mgmt.corrected + ((s.hbm[pa / 2 ^ 36]?).map fun st => st.softMet pa n).getD 0 } }

/-- A write performed at its home slice (R295). past keeps what it replaced, for the reads that may still return it (R300). [DESIGN CHOICE,
log 64] An entry of a page table that it writes is no longer unmapped. -/
def State.wrMem (s : State) (pa : Nat) (bytes : List Byte) : State :=
  { s with
    mem := s.mem.setBytes pa bytes
    unmapped := s.unmapped.filter fun e => !overlaps (pa, bytes) e.1 8
    past := ⟨pa, s.mem.bytes pa bytes.length, none, .core, false⟩ :: s.past
    hbm := s.hbm.modify (pa / 2 ^ 36) fun st => st.noteWrite pa bytes }

/-- The writes performed since s0 changed in their record. -/
def State.markPast (s s0 : State) (f : Written → Written) : State :=
  let n := s.past.length - s0.past.length
  { s with past := (s.past.take n).map f ++ s.past.drop n }

/-- The writes performed since s0 are those of the member of some rank of task t; crew says that a commit performed them. -/
def State.writtenBy (s s0 : State) (t rank : Nat) (crew : Bool) : State :=
  s.markPast s0 fun w => { w with writer := w.writer.or (some (t, rank)), crew := w.crew || crew }

/-- Memory as it stood some writes ago. -/
def Memory.before : Memory → List Written → Memory
  | m, [] => m
  | m, w :: r => Memory.before (m.setBytes w.pa w.old) r

/-- n bytes of memory as they stood before the latest k writes. -/
def State.bytesBefore (s : State) (k pa n : Nat) : List Byte := (s.mem.before (s.past.take k)).bytes pa n

/-- A write performed touches [pa, pa + n). -/
def Written.meets (w : Written) (pa n : Nat) : Bool := overlaps (w.pa, w.old) pa n

/-- Before how many of the latest writes an element at pa of e bytes may be read by a racy read of a task that began after some number of
writes: a free value, but a byte that no write had reached yet counts only where it is the value at the task's start (R300). -/
def State.racyTime (s : State) (began free pa e : Nat) : Nat :=
  let k := (Config.freeWord free).toNat % (s.past.length + 1)
  let start := s.past.length - began
  let written := fun (ws : List Written) (b : Nat) => ws.any fun w => w.meets b 1
  if (List.range e).all fun i => written (s.past.drop k) (pa + i) || !written (s.past.drop start) (pa + i) then k else start

/-- n bytes at a physical address as a racy read returns them: what stood there before some of the writes made so far, the number
of which is a free value; every element of w bytes has a time of its own (R296, R300). [DESIGN CHOICE, log 64] -/
def State.racyBytes (s : State) (began pa n w : Nat) : List Byte × State :=
  let e := max w 1
  let k := (n + e - 1) / e
  (((List.range k).flatMap fun i => s.bytesBefore (s.racyTime began (s.free + i) (pa + i * e) e) (pa + i * e) e).take n,
   { s with free := s.free + k })

/-- A read by a member of task t sees the write wherever it comes after it: the agent's own (R300), one of a reach that takes it in (R307), or
one of a commit of its task (R304). -/
def Written.shows (w : Written) (t : Nat) (mem : Member) : Bool :=
  (match w.reach with
    | .core => false
    | .span n => mem.core / 8 == n
    | .device => true)
  || w.writer == some (t, mem.rank) || (w.crew && w.writer.any fun p => p.1 == t)

/-- How many of the latest writes a read of [pa, pa + n) by a member of task t need not show: those since its latest acquire (R303), since the state
of memory that an earlier read of its own returned there, and since the latest write there that it sees (R300). [DESIGN CHOICE, log 64] -/
def State.hidden (s : State) (t : Nat) (mem : Member) (pa n : Nat) : Nat :=
  let reads := mem.saw.filter fun r => decide (r.1 < pa + n) && decide (pa < r.1 + r.2.1)
  let recent := s.past.take (s.past.length - reads.foldl (fun k r => max k r.2.2) mem.seen)
  (recent.findIdx? fun w => w.meets pa n && w.shows t mem).getD recent.length

/-- Every byte of [pa, pa + n) reads as memory holds it: the writes that a read of it need not show lie elsewhere. -/
def State.settled (s : State) (t : Nat) (mem : Member) (pa n : Nat) : Bool :=
  (List.range n).all fun i => !(s.past.take (s.hidden t mem (pa + i) 1)).any fun w => w.meets (pa + i) 1

/-- n bytes at a physical address as a read that is not racy returns them: where writes are left that it need not show, every element of w bytes
stands as it was before some of those, the number of which is a free value; what it returned is noted (R296, R300). [DESIGN CHOICE, log 64] -/
def State.weakBytes (s : State) (t : Nat) (mem : Member) (pa n w : Nat) : List Byte × Member × State :=
  if s.settled t mem pa n || inPorts pa || (s.store.blockAt (pa / 4096)).isSome then (s.load pa n, mem, s)
  else
    let e := max w 1
    let k := (n + e - 1) / e
    let times := (List.range k).map fun i =>
      (pa + i * e, (Config.freeWord (s.free + i)).toNat % (s.hidden t mem (pa + i * e) e + 1))
    ((times.flatMap fun x => s.bytesBefore x.2 x.1 e).take n,
     { mem with saw := mem.saw ++ times.map fun x => (x.1, e, s.past.length - x.2) }, { s with free := s.free + k })

/-- A member after an acquire: every write performed so far is visible to it (R302, R303). [DESIGN CHOICE, log 64] -/
def Member.acquire (mem : Member) (s : State) : Member := { mem with seen := s.past.length, saw := [] }

/-- A queue changed. -/
def State.modQueue (s : State) (q : Nat) (f : Queue → Queue) : State :=
  { s with queues := s.queues.put q (f ((s.queues.find q).getD Queue.reset)) }

/-- BAD of a queue counts one more (R397, R398). -/
def Queue.countBad (q : Queue) : Queue := { q with bad := min (q.bad + 1) 65535 }

/-- Entries a queue may hold (R398). -/
def Queue.depth (q : Queue) : Nat :=
  let l := (q.cfg.extractLsb' 15 4).toNat
  2 ^ (if l = 0 then 1 else l)

/-- The queue has room for an entry. -/
def Queue.room (q : Queue) : Bool := decide (q.entries.length < q.depth)

/-- DROPS of a queue counts one more (R398, R399). -/
def Queue.countDrop (q : Queue) : Queue := { q with drops := min (q.drops + 1) 65535 }

/-- A record written into a queue: dropped where it is disabled or full (R398, R399). -/
def Queue.write (q : Queue) (rec : BitVec 512) (who : Writer) (tt : Option Nat) : Queue :=
  if q.cfg.getLsbD 0 && q.room then { q with entries := q.entries ++ [⟨some rec, who, none, tt⟩] } else q.countDrop

/-- The write of a record by an S-stream COPY of task t into the port at a physical address (R397). -/
def State.portCopy (s : State) (pa t ctx : Nat) (rec : BitVec 512) : State :=
  s.modQueue ((pa - Config.portBase) / 64) fun q =>
    if q.cfg.getLsbD 14 && (q.cfg.extractLsb' 1 12).toNat == ctx then q.write rec (.task t) none else q.countBad

/-- A write of n bytes that enqueues nothing, counted once in BAD of every launch port it touches (R397). -/
def State.countPorts (s : State) (pa n : Nat) : State :=
  if n = 0 then s
  else (List.range ((pa + n - 1) / 64 + 1 - pa / 64)).foldl (fun st i =>
    st.modQueue (((pa / 64 + i) * 64 - Config.portBase) / 64) Queue.countBad) s

/-- A write by a C store, an engine or the device itself: one that falls on launch ports is discarded and counted (R397); one to an
address that does not exist writes nothing (R385). -/
def State.wrDev (s : State) (pa : Nat) (bytes : List Byte) : State :=
  if inPorts pa then s.countPorts pa bytes.length
  else if s.canWrite pa bytes.length then s.wrMem pa bytes else s

/-- The causes of R330. -/
def cIllegal : Nat := 0x01
def cPrivilege : Nat := 0x02
def cAlignment : Nat := 0x03
def cBounds : Nat := 0x04
def cTranslation : Nat := 0x05
def cProtection : Nat := 0x06
def cSharing : Nat := 0x07
def cPoison : Nat := 0x08
def cSchedule : Nat := 0x09
def cDeadline : Nat := 0x0A
def cWindowTag : Nat := 0x0B
def cMatrix : Nat := 0x0C
def cTrap : Nat := 0x0D
def cMemory : Nat := 0x0E
def cEcho : Nat := 0x13
def cLeaseLost : Nat := 0x18
def cInjected : Nat := 0x19

/-! ## Page tables (R347 to R349) -/

/-- What an entry of a table is. -/
inductive Pte where
  | invalid
  | table (pa : Nat)
  | leaf (l : Leaf)
  deriving DecidableEq, Repr

/-- Bytes of a page of a SIZE code (R347). -/
def pageBytes : Nat → Nat
  | 0 => 2 ^ 12 | 1 => 2 ^ 16 | 2 => 2 ^ 18 | 3 => 2 ^ 21
  | 4 => 2 ^ 24 | 5 => 2 ^ 27 | 6 => 2 ^ 30 | _ => 2 ^ 34

/-- The level a SIZE code belongs to (R347). -/
def pageLevel : Nat → Nat
  | 0 | 1 | 2 => 4
  | 3 | 4 | 5 => 3
  | _ => 2

/-- An entry read at a level; a malformed entry counts as invalid (R349, R396). -/
def decodePte (level : Nat) (e : W64) : Pte :=
  let bit (i : Nat) : Bool := e.getLsbD i
  let size := (e.extractLsb' 2 3).toNat
  let pa := (e.extractLsb' 12 40).toNat * 4096
  if !bit 0 || bit 11 then .invalid
  else if bit 1 then
    if level = 4 || e.extractLsb' 2 9 != 0#9 || e.extractLsb' 52 12 != 0#12 then .invalid else .table pa
  else if level ≤ 1 || pageLevel size ≠ level || pa % pageBytes size ≠ 0 || (bit 8 && bit 6)
      || (decide (2 ^ 51 ≤ pa) && bit 6) then .invalid
  else .leaf { base := pa, size := pageBytes size, r := bit 5, w := bit 6, x := bit 7, sealedPage := bit 8, nl1 := bit 9
               nsh := bit 10, bind := (e.extractLsb' 52 12).toNat }

/-- The leaf of an entry of a page table: of one that no longer maps some of its pages (R308, R368), the page of the address alone. [DESIGN
CHOICE, log 59] -/
def State.leafAt (s : State) (entry va : Nat) (l : Leaf) : Option Leaf :=
  if s.unmapped.any fun e => e.1 == entry then
    let page := (l.base + va % l.size) / 4096
    if s.unmapped.contains (entry, page) then none else some { l with base := 4096 * page, size := 4096 }
  else some l

/-- A walk from a table, one level per index shift; an entry that cannot be read gives no leaf. -/
def State.walkFrom (s : State) : List Nat → Nat → Nat → Nat → Option Leaf
  | [], _, _, _ => none
  | sh :: rest, level, tab, va =>
    if !s.rangeOk (tab + 8 * (va / 2 ^ sh % 512)) 8 then none
    else match decodePte level (BitVec.ofNat 64 (s.loadNat (tab + 8 * (va / 2 ^ sh % 512)) 8)) with
    | .invalid => none
    | .leaf l => s.leafAt (tab + 8 * (va / 2 ^ sh % 512)) va l
    | .table t => State.walkFrom s rest (level + 1) t va

/-- The address of the entry that a walk cannot read, if that ends it (R385, R392). -/
def State.walkBad (s : State) : List Nat → Nat → Nat → Nat → Option Nat
  | [], _, _, _ => none
  | sh :: rest, level, tab, va =>
    if !s.rangeOk (tab + 8 * (va / 2 ^ sh % 512)) 8 then some (tab + 8 * (va / 2 ^ sh % 512))
    else match decodePte level (BitVec.ofNat 64 (s.loadNat (tab + 8 * (va / 2 ^ sh % 512)) 8)) with
    | .table t => State.walkBad s rest (level + 1) t va
    | _ => none

/-- The addresses of the entries that a walk from a table reads. -/
def State.walkReads (s : State) : List Nat → Nat → Nat → Nat → List Nat
  | [], _, _, _ => []
  | sh :: rest, level, tab, va =>
    let a := tab + 8 * (va / 2 ^ sh % 512)
    a :: match decodePte level (BitVec.ofNat 64 (s.loadNat a 8)) with
      | .table t => if s.rangeOk a 8 then State.walkReads s rest (level + 1) t va else []
      | _ => []

/-- The scratchpad aperture: addresses with A[56:20] all ones (R127). -/
def inAperture (va : Nat) : Bool := decide (va / 2 ^ 20 = 2 ^ 37 - 1)

/-- The leaf that the page tables of a root hold for a virtual address; addresses above 57 bits and the aperture have none (R126, R127, R349). -/
def State.leafOf (s : State) (root va : Nat) : Option Leaf :=
  if va < 2 ^ 57 && !inAperture va then s.walkFrom [48, 39, 30, 21, 12] 0 root va else none

/-- The reads of a walk noted in the HBM stacks (R390, R392). -/
def State.noteWalk (s : State) (root va : Nat) : State :=
  if va < 2 ^ 57 && !inAperture va then (s.walkReads [48, 39, 30, 21, 12] 0 root va).foldl (fun st a => st.noteRead a 8) s else s

/-- The leaf of a virtual address under a root, as it serves the address. -/
def State.walk (s : State) (root va : Nat) : Option Leaf := (s.leafOf root va).bind fun l => s.view l va

/-- The physical address a leaf gives a virtual one. -/
def Leaf.pa (l : Leaf) (va : Nat) : Nat := l.base + va % l.size

/-- The TLB entry of a context that covers an address. [DESIGN CHOICE, log 6] -/
def tlbFind (tlb : List TlbEntry) (ctx va : Nat) : Option Leaf :=
  (tlb.find? fun e => e.ctx == ctx && within va e.va e.leaf.size).map (·.leaf)

/-- What an access through a missing translation reports: an uncorrectable memory error where the walk met an entry it could not read, else
a translation fault (R349, R385). -/
def State.missCause (s : State) (root va : Nat) : Nat :=
  if va < 2 ^ 57 && !inAperture va && (s.walkBad [48, 39, 30, 21, 12] 0 root va).isSome then cMemory else cTranslation

/-- A TLB of a size with room for one more entry: at its capacity an entry no KEEP range holds goes, which one is a free value (R351,
R357). [DESIGN CHOICE, log 6] -/
def tlbRoom (size free : Nat) (tlb : List TlbEntry) : List TlbEntry :=
  if tlb.length < size then tlb
  else
    let loose := (List.range tlb.length).filter fun i => (tlb[i]?.map fun e => !e.keep).getD false
    tlb.eraseIdx (loose.getD ((Config.freeWord free).toNat % loose.length) 0)

/-- How an access uses a TLB: its size, and whether the page of the access lies in a KEEP range of the core (R351, R357). -/
structure TlbUse where
  size : Nat
  keep : Bool

/-- A TLB with the walk's outcome for an address; at most 16 entries are kept for KEEP ranges (R357). -/
def tlbPut (u : TlbUse) (free : Nat) (tlb : List TlbEntry) (ctx va : Nat) (w : Option Leaf) : List TlbEntry :=
  let rest := tlb.filter fun e => !(e.ctx == ctx && within va e.va e.leaf.size)
  match w with
  | none => rest
  | some l => ⟨ctx, va / l.size * l.size, l, u.keep && decide ((rest.filter (·.keep)).length < 16)⟩ :: tlbRoom u.size free rest

/-- A translation used in a context, kept until the context's TLB entries are invalidated (R350). -/
def State.noteXlat (s : State) (ctx va : Nat) (w : Option Leaf) : State :=
  match w with
  | none => s
  | some l =>
    let e : TlbEntry := ⟨ctx, va / l.size * l.size, l, false⟩
    if s.xlat.contains e then s else { s with xlat := e :: s.xlat }

/-- A walk for an address, its outcome put into a TLB; where that takes the place of another entry, a free value is used up. -/
def State.fillTlb (s : State) (u : TlbUse) (tlb : List TlbEntry) (ctx root va : Nat) : List TlbEntry × State :=
  let w := s.leafOf root va
  let s1 := (s.noteWalk root va).noteXlat ctx va w
  (tlbPut u s.free tlb ctx va w, if u.size ≤ tlb.length then { s1 with free := s.free + 1 } else s1)

/-- A translation through a TLB: where the entry held and the table differ, the device may use either until the context's TLB
entries are invalidated (R350); the choice is a free value. [DESIGN CHOICE, log 6] -/
def State.translate (s : State) (u : TlbUse) (tlb : List TlbEntry) (ctx root va : Nat) : Option Leaf × List TlbEntry × State :=
  let w := s.walk root va
  match tlbFind tlb ctx va with
  | none =>
    let r := s.fillTlb u tlb ctx root va
    (w, r.1, r.2)
  | some old =>
    if w = s.view old va then (w, tlb, s)
    else if s.takeFree.1.getLsbD 0 then (s.view old va, tlb, s.takeFree.2)
    else
      let r := s.takeFree.2.fillTlb u tlb ctx root va
      (w, r.1, r.2)

/-- The TLB a stream's accesses use (R351). -/
def Member.tlb (mem : Member) : Stream → List TlbEntry
  | .c | .k => mem.tlbC
  | .l => mem.tlbL
  | .s => mem.tlbS

/-- The TLB of a stream replaced. -/
def Member.setTlb (mem : Member) (x : Stream) (t : List TlbEntry) : Member :=
  match x with
  | .c | .k => { mem with tlbC := t }
  | .l => { mem with tlbL := t }
  | .s => { mem with tlbS := t }

/-- The page of an address lies in a KEEP range of a core (R357). -/
def Task.keeps (tk : Task) (core va : Nat) : Bool := tk.keep.any fun k => within va k.1 k.2.1 && k.2.2 == core

/-- How a member's stream uses its TLB (R351, R357). -/
def Task.tlbUse (tk : Task) (mem : Member) (x : Stream) (va : Nat) : TlbUse :=
  ⟨match x with
    | .c | .k => Config.tlbEntries
    | _ => Config.tlbStream, tk.keeps mem.core va⟩

/-- A translation for a member's stream. -/
def State.translateFor (s : State) (tk : Task) (mem : Member) (x : Stream) (va : Nat) : Option Leaf × Member × State :=
  let r := s.translate (tk.tlbUse mem x va) (mem.tlb x) tk.ctx tk.ptroot va
  (r.1, mem.setTlb x r.2.1, r.2.2)

/-! ## Context records (R401, R402) -/

/-- n bytes at an offset of context c's record. -/
def State.ctxField (s : State) (c off n : Nat) : Nat := s.loadNat (s.regs.ctxbase.toNat + 512 * c + off) n

/-- EN of a context. -/
def State.ctxEn (s : State) (c : Nat) : Bool := s.ctxField c 0 1 % 2 == 1

/-- The root table of a context as its record names it now. -/
def State.ctxRoot (s : State) (c : Nat) : Nat := s.ctxField c 8 8

/-- The physical address of a virtual one in a context, for a device access that needs W or R, without a TLB. -/
def State.ctxPa (s : State) (c va : Nat) (write : Bool) : Option Nat :=
  match s.walk (s.ctxRoot c) va with
  | some l => if (if write then l.w else l.r) then some (l.pa va) else none
  | none => none

/-! ## Sync objects (R139, R140) -/

/-- A sync object at a physical address can be read and written without an uncorrectable error (R385, R389, R392). -/
def State.objectOk (s : State) (pa : Nat) : Bool := s.rangeOk pa 64 && s.canWrite pa 64

/-- barrier_add at the home slice of the object at a physical address (R140). -/
def State.barrierAdd (s : State) (pa units : Nat) : State :=
  let expect := s.loadNat (pa + 8) 8
  let count := (s.loadNat (pa + 16) 8 + units) % 2 ^ 64
  let phase := s.loadNat (pa + 24) 4
  let s1 := s.noteRead pa 64
  if expect = 0 then s1.wrDev (pa + 16) (leBytes 8 count)
  else (s1.wrDev (pa + 16) (leBytes 8 (count % expect))).wrDev (pa + 24) (leBytes 4 ((phase + count / expect) % 2 ^ 32))

/-- The object a binding identifier selects in a binding table (R354). -/
def State.bindObj (s : State) (btab bind : Nat) : Option Nat :=
  if bind = 0 then none
  else
    let e := s.loadNat (btab + 8 * bind) 8
    if e = 0 || e % 64 ≠ 0 || e ≥ 2 ^ 57 then none else some e

/-- The identifiers whose entries select an object (R354): only an entry with a listed byte can. -/
def State.bindIds (s : State) (btab obj : Nat) : List Nat :=
  (((s.mem.filter fun c => within c.1 btab 32768).map fun c => (c.1 - btab) / 8).eraseDups).filter fun i => s.bindObj btab i == some obj

/-- The task holds a sync object (R298). -/
def Task.holdsObj (tk : Task) (addr : Nat) : Bool :=
  tk.so.toList.any fun h =>
    h.addr == addr && ((h.kind == SoKind.lock && h.held) || (h.kind == SoKind.barrier && h.holds))

/-! ## Ownership (R355, R356) -/

/-- Pages that take ownership: writable, unbound, not the launch-port window. -/
def Leaf.owned (l : Leaf) (pa : Nat) : Bool := l.w && l.bind == 0 && !inPorts pa

/-- The owner a read of a byte meets. -/
def State.ownerOf (s : State) (pa : Nat) : Option Owner :=
  match s.own.find (pa / 65536) with
  | some (.whole o _) => some o
  | some (.split ps) => (ps[pa / 4096 % 16]?).join
  | none => none

/-- Ownership of a piece taken for a write, or none where another owner has it (R355). -/
def State.takeOwn (s : State) (o : Owner) (pa : Nat) : Option State :=
  let u := pa / 65536
  let p := pa / 4096 % 16
  let bit : BitVec 16 := 1#16 <<< p
  match s.own.find u with
  | none => some { s with own := s.own.put u (.whole o bit) }
  | some (.whole q mask) =>
    if q = o then some { s with own := s.own.put u (.whole o (mask ||| bit)) }
    else if mask.getLsbD p then none
    else
      let ps := (List.range 16).map fun i => if i = p then some o else if mask.getLsbD i then some q else none
      some { s with own := s.own.put u (.split ps) }
  | some (.split ps) =>
    match (ps[p]?).join with
    | none => some { s with own := s.own.put u (.split (ps.set p (some o))) }
    | some q => if q = o then some s else none

/-- Ownership after a write that another owner's piece refused: a whole unit has split (R355). -/
def State.splitOwn (s : State) (pa : Nat) : State :=
  match s.own.find (pa / 65536) with
  | some (.whole q mask) =>
    { s with own := s.own.put (pa / 65536) (.split ((List.range 16).map fun i => if mask.getLsbD i then some q else none)) }
  | _ => s

/-- An ownership unit without the owners a test names, or none when it is left unowned. -/
def OwnUnit.drop (gone : Owner → Bool) : OwnUnit → Option OwnUnit
  | .whole o mask => if gone o then none else some (.whole o mask)
  | .split ps =>
    let qs := ps.map fun q => match q with
      | some o => if gone o then none else some o
      | none => none
    if qs.all (·.isNone) then none else some (.split qs)

/-- Release of everything a task owns (R356). -/
def State.releaseOwn (s : State) (t : Nat) : State :=
  { s with own := s.own.filterMap fun u => (u.2.drop fun o => o.task == t).map fun v => (u.1, v) }

/-! ## Racy reads (R299, R316) -/

/-- The read is outside the load rule of replicated tasks (case 3 of R299). -/
def State.outsideRule (s : State) (t : Nat) (tk : Task) (l : Leaf) (pa : Nat) : Bool :=
  tk.replicated && l.w &&
    (if l.bind ≠ 0 then
      match s.bindObj tk.btab l.bind with
      | some a => !tk.holdsObj a
      | none => true
    else match s.ownerOf pa with
      | some o => o.task != t
      | none => false)

/-- A read of a byte through a leaf is racy (R299). [DEDUCED, log 36] -/
def State.racy (s : State) (t : Nat) (tk : Task) (mem : Member) (l : Leaf) (pa : Nat) : Bool :=
  l.w &&
    ((if l.bind ≠ 0 then
      match s.bindObj tk.btab l.bind with
      | some a => !tk.holdsObj a
      | none => true
    else match s.ownerOf pa with
      | some o => decide (o ≠ ⟨t, mem.rank⟩)
      | none => false) || s.outsideRule t tk l pa)

/-! ## The scratchpad (R60 to R62, R57, R221) -/

/-- The piece of a task scratchpad address (R61). -/
def pieceOf (a : Nat) : Nat := (a % 0xA000) / 512 / 8 * 8 + a / 0xA000

/-- The address lies in an allocation of n pieces. -/
def inAlloc (n a : Nat) : Bool := decide (a < 0x50000) && decide (pieceOf a < n)

/-- The first address of [a, a + len) outside an allocation of n pieces, if any: bounds can change only at rows. -/
def firstOut (n a len : Nat) : Option Nat :=
  if len = 0 then none
  else
    let rows := (a + len - 1) / 512 - a / 512
    ((List.range (rows + 1)).map fun i => if i = 0 then a else (a / 512 + i) * 512).find? fun x => !inAlloc n x

/-- Container ci of the scratchpad. -/
def Member.cont (mem : Member) (ci : Nat) : Container := (mem.spad.find ci).getD Container.none

/-- Container ci replaced; the map lists no container equal to the default. The write is noted for R159. -/
def Member.setCont (mem : Member) (ci : Nat) (c : Container) : Member :=
  { mem with spad := if c = Container.none then mem.spad.del ci else mem.spad.put ci c, wrote := ci :: mem.wrote }

/-- n containers from the container of address a. -/
def Member.conts (mem : Member) (a n : Nat) : List Container := (List.range n).map fun i => mem.cont (a / 4 + i)

/-- Byte i of a container. -/
def contByte (c : Container) (i : Nat) : Byte := c.data.extractLsb' (8 * i) 8

/-- A container with one byte of data written: valid, with a poison bit; untouched bytes of an invalid container are 0. -/
def putContByte (c : Container) (i : Nat) (b : Byte) (p : Bool) : Container :=
  let mask : W32 := (0xFF#32 <<< (8 * i))
  ⟨((if c.valid then c.data else 0) &&& ~~~mask) ||| (b.zeroExtend 32 <<< (8 * i)), true, p⟩

/-- The byte of the scratchpad at an address with the tags of its container. -/
def Member.spByte (mem : Member) (a : Nat) : Byte × Bool × Bool :=
  let c := mem.cont (a / 4)
  (contByte c (a % 4), c.valid, c.valid && c.poison)

/-- One byte of data written into the scratchpad: poison of the container is or-ed in when keep is set. -/
def Member.putSpByte (mem : Member) (a : Nat) (b : Byte) (p keep : Bool) : Member :=
  let c := mem.cont (a / 4)
  mem.setCont (a / 4) (putContByte c (a % 4) b (p || (keep && c.valid && c.poison)))

/-- A byte string written into the scratchpad from an address, each byte with its poison; a container touched by several
bytes of the string is poisoned when one of them is (R58, R221). -/
def Member.putSpBytes : Member → Nat → List (Byte × Bool) → Member
  | mem, _, [] => mem
  | mem, a, (b, p) :: r => Member.putSpBytes (mem.putSpByte a b p false) (a + 1) r

/-- Row number r of the allocation, bank x 80 + row: its 128 containers. -/
def Member.spRow (mem : Member) (r : Nat) : Row := (List.range 128).map fun i => mem.cont (r * 128 + i)

/-- A row written container by container: an invalid container leaves the old data and tags (R58, R157). -/
def Member.putSpRow (mem : Member) (r : Nat) (row : Row) : Member :=
  (List.range row.length).foldl (fun m i =>
    let c := row.getD i Container.none
    if c.valid then m.setCont (r * 128 + i) c else m) mem

/-! ## Streams advance (R97, R98, R134, R19) -/

/-- The loop counters after the word at address a with the next address given: the inner loop first, both in one step. -/
def StreamSt.loopEnd (x : StreamSt) (a next : W64) : StreamSt :=
  let innerHere := decide (x.lc1.count ≠ 0) && decide (a = x.lc1.stop)
  let c1 := if innerHere then x.lc1.count - 1 else x.lc1.count
  let x1 := { x with lc1 := { x.lc1 with count := c1 } }
  if innerHere && decide (c1 ≠ 0) then { x1 with pc := x.lc1.start }
  else
    let outerHere := decide (x.lc0.count ≠ 0) && decide (a = x.lc0.stop)
    let c0 := if outerHere then x.lc0.count - 1 else x.lc0.count
    let x2 := { x1 with lc0 := { x.lc0 with count := c0 } }
    if outerHere && decide (c0 ≠ 0) then { x2 with pc := x.lc0.start } else { x2 with pc := next }

/-- A loop whose start and end a target lies outside of ends (R98, R132). -/
def LoopCtr.leave (l : LoopCtr) (target : W64) : LoopCtr :=
  if l.count ≠ 0 ∧ ¬ (l.start.toNat ≤ target.toNat ∧ target.toNat ≤ l.stop.toNat) then { l with count := 0 } else l

/-- A taken branch (R98, R132). -/
def StreamSt.jump (x : StreamSt) (target : W64) : StreamSt :=
  { x with pc := target, lc0 := x.lc0.leave target, lc1 := x.lc1.leave target }

/-- The word at a is the end word of an active loop (R97, R134). -/
def StreamSt.atLoopEnd (x : StreamSt) (a : W64) : Bool :=
  (decide (x.lc0.count ≠ 0) && decide (a = x.lc0.stop)) || (decide (x.lc1.count ≠ 0) && decide (a = x.lc1.stop))

/-- A stream after a word of len bytes that goes on in sequence; the next idle count runs from the next cycle. -/
def StreamSt.seqNext (x : StreamSt) (len cycle : Nat) : StreamSt :=
  { x.loopEnd x.pc (x.pc + BitVec.ofNat 64 len) with base := cycle + 1, waiting := false }

/-- A stream after a taken branch. -/
def StreamSt.jumpNext (x : StreamSt) (target : W64) (cycle : Nat) : StreamSt :=
  { x.jump target with base := cycle + 1, waiting := false }

/-- The C stream past the current word: the next word runs no earlier than the next cycle, at a time the device does not fix
(R119). -/
def Member.cNext (mem : Member) (cycle : Nat) : Member :=
  mem.setStr .c ((mem.str .c).seqNext 4 (cycle + Config.cDelay cycle))

/-- The C stream continues at a target. -/
def Member.cJump (mem : Member) (target : W64) (cycle : Nat) : Member :=
  mem.setStr .c ((mem.str .c).jumpNext target (cycle + Config.cDelay cycle))

/-- Bytes of the word the current actor issues: 4 for C, 12 per unit otherwise (R87). -/
def wordBytes (x : Stream) (word : BitVec 192) : Nat :=
  match x with
  | .c => 4
  | _ => 12 * unitsOf (word.extractLsb' 0 96)

/-- A timed stream past the current word. -/
def Member.tNext (mem : Member) (a : Actor) (cycle : Nat) : Member :=
  mem.setStr a.stream ((mem.str a.stream).seqNext (wordBytes a.stream a.word) cycle)

/-! ## Members at region entry and after a discard (R29, R31, R32) -/

/-- A row of zeros, valid (R29). -/
def Row.zero : Row := List.replicate 128 (Container.ord 0)

/-- A row of invalid containers. [DESIGN CHOICE, log 2] -/
def Row.invalid : Row := List.replicate 128 Container.none

/-- A closed window. [DESIGN CHOICE, log 2] -/
def Window.closed (gen : Nat) : Window := ⟨false, 0, 0, 0, 1, 1, 0, 0, 0, [], gen⟩

/-- What every region entry starts with: windows closed, semaphores 0, queues and latches empty, tiles +0, kf clear, nothing
in flight and nothing queued (R29). -/
def Member.entry (mem : Member) : Member :=
  { mem with
    win := mem.win.map fun w => Window.closed (w.gen + 1)
    sem := Vector.replicate 256 0
    tq := Vector.replicate 12 []
    la := Vector.replicate 8 Row.invalid
    lb := Vector.replicate 8 Row.invalid
    lt := Vector.replicate 8 Row.invalid
    lq := Vector.replicate 8 Row.invalid
    mark := none, acc := [], accReady := Vector.replicate 4 0, kf := 0, stall := none
    moves := [], starts := [], chains := [], results := [], jobs := [], arrayFree := 0, rstreams := [], matNow := none
    cmds := [], batchL := 0, batchS := 0, dwq := [], lastAcc := false, frozen := [], replayPos := []
    rels := [], arms := [], bowaits := [], spawns := []
    sigC := [], sigL := [], sigS := [], recCounts := List.replicate 7 0
    echoes := [], echoSent := [], flips := [], counts := [], wrote := [], kWrote := [], pend := Pend.empty }

/-- A stream placed at an address with its loop counters. -/
def StreamSt.at (x : StreamSt) (pc : W64) (lcs : LoopCtr × LoopCtr) : StreamSt :=
  { x with pc := pc, lc0 := lcs.1, lc1 := lcs.2, base := 0, waiting := false, status := .running }

/-- Loop counters of a checkpoint for stream number n. -/
def Ckpt.lc (c : Ckpt) (n : Nat) : LoopCtr × LoopCtr := c.lcs.getD n (⟨0, 0, 0⟩, ⟨0, 0, 0⟩)

/-- A command holds its channel or unit (R234). -/
def Cmd.isHeld (c : Cmd) : Bool :=
  match c.state with
  | .held _ => true
  | _ => false

/-- The state of a member for a re-run: the checkpoint bank and descriptor copy restored, everything else as at any region
entry; a command that holds its channel is kept with its mark (R29, R31, R32, R236). -/
def Member.rerun (mem : Member) : Member :=
  let heldNow := mem.cmds.filterMap fun c => match c.state with
    | .held k => some (HeldCmd.mk c k false)
    | _ => none
  let m := { mem.entry with
    g := mem.ckpt.g, v := mem.ckpt.v, mb := mem.ckpt.mb, d := mem.ckpt.d
    held := mem.held ++ heldNow }
  (((m.setStr .c ((m.str .c).at (m.ckpt.pcs.getD 0 0) (m.ckpt.lc 0))).setStr .l
    ((m.str .l).at (m.ckpt.pcs.getD 1 0) (m.ckpt.lc 1))).setStr .s
    ((m.str .s).at (m.ckpt.pcs.getD 2 0) (m.ckpt.lc 2))).setStr .k
    ((m.str .k).at (m.ckpt.pcs.getD 3 0) (m.ckpt.lc 3))

/-- A discard of the running region in the task context (R31, R32): every member back to its checkpoint, armed arrivals
dropped with their marks (R144, R145). C stores already executed stay: they drain as they issued (R30). -/
def Task.discardRegion (tk : Task) : Task :=
  { tk with
    members := tk.members.map Member.rerun
    so := tk.so.map fun h => { h with arm := false }
    replicas := tk.replicas.map fun r => { r with
      sigs := none, stopped := none, more := [], holding := false, atBarrier := false }
    commit := .none, commitFinal := false }

/-- What leaves the core when its task stops running: L1 lines of read-only and sealed pages and TLB entries stay with the
core (R302, R351), and reservations in the launching queue are released (R149). -/
def State.leaveCore (s : State) (mem : Member) : State :=
  let ctxs := ((s.cores.find mem.core).map (·.ctxs)).getD []
  { s with cores := s.cores.put mem.core ⟨mem.l1.filter fun l => !l.leaf.w, mem.tlbC, mem.tlbL, mem.tlbS, ctxs⟩ }

/-- Every member of task tk leaves its core, where it stands on one. -/
def State.leaveCores (s : State) (tk : Task) : State := if tk.placed then tk.members.foldl State.leaveCore s else s

/-- One reservation of a queue released: the first unfilled entry that task t reserved (R149, R399). -/
def dropReserved (t : Nat) : List QEntry → List QEntry
  | [] => []
  | e :: r => if e.record.isNone && e.writer == Writer.task t then r else e :: dropReserved t r

/-- Every reservation of task t released. -/
def State.dropSpawns (s : State) (t : Nat) : State :=
  { s with queues := s.queues.map fun q =>
      (q.1, { q.2 with entries := q.2.entries.filter fun e => !(e.record.isNone && e.writer == Writer.task t) }) }

/-- The registered read is of a command of task tk that holds, which a discard keeps (R32, R375). -/
def Task.holdsRead (tk : Task) (r : Reader) : Bool :=
  match tk.members[r.member]? with
  | some m => (m.held.any fun h => h.cmd.seq == r.cmd) || m.cmds.any fun c => c.isHeld && c.seq == r.cmd
  | none => false

/-- The region of task t discarded on every member and replica (R31): the task keeps what R32 lists. Waiting lock requests are
dropped with the ACQ that waits for them, but for one a release has already passed the lock to (R144), and reads of commands that do not hold are deregistered. -/
def State.discard (s : State) (t : Nat) : State :=
  match s.tasks[t]? with
  | none => s
  | some tk =>
    let s1 := (s.leaveCores tk).dropSpawns t
    let s2 := { s1 with
      lockq := s1.lockq.filter fun r => r.task != t || r.granted
      store := { s1.store with readers := s1.store.readers.filter fun r => r.task != t || tk.holdsRead r } }
    s2.putTask t tk.discardRegion

/-! ## Sorting by key -/

/-- Lexicographic order of keys. -/
def keyLt : List Nat → List Nat → Bool
  | [], [] => false
  | [], _ => true
  | _, [] => false
  | a :: r, b :: q => decide (a < b) || (a == b && keyLt r q)

/-- A keyed entry put in its place, after entries of an equal key. -/
def insertKeyed {α : Type} (k : List Nat) (x : α) : List (List Nat × α) → List (List Nat × α)
  | [] => [(k, x)]
  | (i, y) :: r => if keyLt k i then (k, x) :: (i, y) :: r else (i, y) :: insertKeyed k x r

/-- Entries by ascending key. -/
def sortKeyed {α : Type} (l : List (List Nat × α)) : List (List Nat × α) := l.foldl (fun acc p => insertKeyed p.1 p.2 acc) []

/-! ## Fault records (R334 to R338) -/

/-- The 64 bytes of a record (R334). -/
def FaultInfo.record (f : FaultInfo) (task seq : Nat) : BitVec 512 :=
  0#16 ++ BitVec.ofNat 16 f.aux ++ f.word.extractLsb' 32 160 ++ f.addr ++ BitVec.ofNat 64 seq ++ BitVec.ofNat 32 f.mark
    ++ f.word.extractLsb' 0 32 ++ f.pc ++ BitVec.ofNat 32 task ++ 0#9 ++ BitVec.ofNat 4 f.unit ++ BitVec.ofNat 2 f.replica
    ++ BitVec.ofNat 3 f.rank ++ BitVec.ofNat 3 f.stream ++ BitVec.ofNat 3 f.cls ++ BitVec.ofNat 8 f.cause

/-- A record written into context c's fault queue, or dropped (R337, R338). [DESIGN CHOICE, log 41] -/
def State.queueRecord (s : State) (c : Nat) (rec : BitVec 512) : State :=
  let q := s.ctxField c 32 8
  match s.ctxPa c q true with
  | none => s
  | some h =>
    if q = 0 || q % 64 ≠ 0 || !s.canWrite h 64 then s
    else
      let prod := s.loadNat h 4
      let cons := s.loadNat (h + 4) 4
      let drops := s.loadNat (h + 8) 4
      let log2n := s.loadNat (h + 12) 1 % 32
      let dropped := s.wrDev (h + 8) (leBytes 4 (min (drops + 1) (2 ^ 32 - 1)))
      if log2n < 4 || log2n > 16 then dropped
      else if (prod + 2 ^ 32 - cons) % 2 ^ 32 ≥ 2 ^ log2n then dropped
      else
        match s.ctxPa c (q + 64 + 64 * (prod % 2 ^ log2n)) true with
        | none => dropped
        | some p =>
          if !s.canWrite p 64 then dropped
          else
          let s1 := (s.wrDev p (leBytes 64 rec.toNat)).wrDev h (leBytes 4 ((prod + 1) % 2 ^ 32))
          let notify := s1.loadNat (h + 16) 8
          if notify = 0 then s1
          else match s1.ctxPa c notify true with
            | none => s1
            | some o => if s1.objectOk o then s1.barrierAdd o 1 else s1

/-- The event arbiter stamps an event (R311). [DESIGN CHOICE, log 41] -/
def State.stamp (s : State) (e : EventKind) : State :=
  { s with nextSeq := s.nextSeq + 1, events := s.events ++ [(s.nextSeq, e)] }

/-- SR.FAULT's live copy after a record (R64, R336). -/
def FaultSt.count1 (f : FaultSt) (cause seq : Nat) : FaultSt := ⟨cause, min (f.count + 1) 255, seq % 2 ^ 32⟩

/-- The 64 bytes of a record, with bytes 32 to 63 of a decision record where it is one (R325, R334). -/
def Rec.image (r : Rec) (task seq : Nat) : BitVec 512 :=
  match r.tail with
  | none => r.info.record task seq
  | some b => b ++ (r.info.record task seq).extractLsb' 0 256

/-- The place of a record among those of its task and cycle (R35): members by ascending rank, within a member streams in the order C, L, S, K,
then what no stream raised; decisions come last. -/
def Rec.key (r : Rec) : List Nat := [if r.tail.isSome then 1 else 0, r.info.rank, r.info.stream]

/-- A record detected: it waits for the arbiter with the other records of its cycle (R35). -/
def State.recordRaw (s : State) (r : Rec) : State := { s with recs := s.recs ++ [r] }

/-- A fault record of task t (R334). -/
def State.recordFault (s : State) (t : Nat) (f : FaultInfo) : State := s.recordRaw ⟨t, f, none⟩

/-- A record presented to the arbiter: stamped, queued, and counted in SR.FAULT unless a notice (R311, R336, R338). The task context takes the
fault-queue address as it is at this use (R66, R402). -/
def State.present (s : State) (r : Rec) : State :=
  match s.tasks[r.task]? with
  | none => s
  | some tk =>
    let seq := s.nextSeq
    let tk1 := { tk with qbase := s.ctxField tk.ctx 32 8 }
    let tk' := if r.info.cls = 3 then tk1 else { tk1 with faultLive := tk.faultLive.count1 r.info.cause seq }
    ((s.stamp (.faultRecord r.info.cause)).putTask r.task tk').queueRecord tk.ctx (r.image (tk.seq % 2 ^ 32) seq)

/-- The records that wait of task t, in the order of R35. -/
def State.recsOf (s : State) (t : Nat) : List Rec :=
  (sortKeyed ((s.recs.filter fun r => r.task == t).map fun r => (r.key, r))).map (·.2)

/-- The records that wait of task t presented in the order of R35. -/
def State.presentFor (s : State) (t : Nat) : State :=
  (s.recsOf t).foldl State.present { s with recs := s.recs.filter fun r => r.task != t }

/-- Every record that waits presented, task by task. -/
def State.presentAll (s : State) : State := ((s.recs.map (·.task)).eraseDups).foldl State.presentFor s

/-- Two faults are raised alike: the same cause, rank, stream and word (R327). [DEDUCED, log 35] -/
def FaultInfo.alike (a b : FaultInfo) : Bool :=
  a.cause == b.cause && a.rank == b.rank && a.stream == b.stream && a.pc == b.pc && a.word == b.word

/-- A fault of a cycle recorded, but for one that is recorded already, by itself or alike by another replica of the task (R35, R327). -/
def State.recordOnce (s : State) (t : Nat) (f : FaultInfo) : State :=
  if s.recs.any fun r => r.task == t && (r.info == f || (r.info.replica != f.replica && r.info.alike f)) then s else s.recordFault t f

/-- A fault of the whole of task t, or one that singles no replica out, as its record names the replica (R334). -/
def FaultInfo.ofTask (f : FaultInfo) (tk : Task) : FaultInfo := { f with replica := if tk.replicated then 3 else 0 }

/-- What the current word or command reports for a cause with its ADDR and AUX (R330, R334). -/
def State.info (s : State) (mem : Member) (cause cls : Nat) (addr : W64) (aux : Nat) : FaultInfo :=
  { cause, cls, stream := s.cur.stream.code, rank := mem.rank, replica := mem.replica, unit := s.cur.stream.code
    pc := s.cur.pc, word := s.cur.word, mark := 0, addr, aux }

/-! ## Taking a fault, and the return from one -/

/-- Task t suspended after a discard: its ownership is released (R356) and it waits for a recovery record (R67). Replicas and members
as they stood are kept to the end of the cycle, for the other faults of the same cycle (R35). -/
def State.suspend (s : State) (t : Nat) : State :=
  match s.tasks[t]? with
  | none => s
  | some tk => ((s.discard t).releaseOwn t).modTask t fun x =>
      { x with state := .suspended, before := some (tk.before.getD (tk.replicas, tk.members)) }

/-- Task t suspended with no word of it issuing in this cycle (R25). -/
def State.halt (s : State) (t : Nat) : State := (s.suspend t).modTask t fun x => { x with before := none }

/-- The faults that have stopped replicas of a task in a cycle (R35, R327). -/
def Task.stoppedIn (tk : Task) (cycle : Nat) : List FaultInfo :=
  tk.replicas.flatMap fun r => if r.stopCycle = cycle then r.stopped.toList ++ r.more else []

/-- A fault that discards the region of a task recorded, with the faults that have stopped replicas of the task in the same cycle (R35). -/
def State.recordDiscard (s : State) (t : Nat) (tk : Task) (f : FaultInfo) : State :=
  (tk.stoppedIn s.cycle).foldl (fun st g => st.recordOnce t g) (s.recordFault t f)

/-- A replica that a fault of this cycle stops at once: it has sent no signatures then (R327). -/
def Replica.stop (r : Replica) (f : FaultInfo) (cycle : Nat) : Replica :=
  { r with stopped := some f, stopCycle := cycle, sigs := none }

/-- TAKING A PRECISE FAULT (R329): the record is written, the region is discarded on every crew member and replica, and the
task goes to SUSPENDED. In a replicated task a fault other than a schedule or deadline fault stops its replica alone, and the
parapet decides (R327); the faults its replica raises in the cycle in which it stops are recorded with it (R35). Of a task that is suspended
already in this cycle, the other faults are recorded too. [DEDUCED, log 50] -/
def State.raiseFor (s : State) (t : Nat) (f : FaultInfo) : State :=
  match s.tasks[t]? with
  | none => s
  | some tk =>
    if tk.before.isSome then s.recordOnce t f
    else if !tk.replicated || f.cause = cSchedule || f.cause = cDeadline then (s.recordDiscard t tk f).suspend t
    else match tk.replicas[f.replica]? with
      | none => s
      | some r =>
        if r.stopped.isNone then s.putTask t (tk.putReplica f.replica (r.stop f s.cycle))
        else if r.stopCycle = s.cycle then s.putTask t (tk.putReplica f.replica { r with more := r.more ++ [f] })
        else s

/-- The current word raises a precise fault: a next state. -/
def raise (s : State) (mem : Member) (cause : Nat) (addr : W64) (aux : Nat) : Res :=
  .next (s.raiseFor s.cur.task (s.info mem cause 0 addr aux))

/-- Illegal fault on the current word (R89). -/
def raiseIllegal (s : State) (mem : Member) : Res := raise s mem cIllegal 0 0

/-- Schedule fault on the current word with its check code (R330). -/
def raiseSchedule (s : State) (mem : Member) (aux : Nat) : Res := raise s mem cSchedule 0 aux

/-- THE RETURN FROM A FAULT: a suspended task becomes READY, and its members restart from their checkpoints at the next
placement (R67, R340). -/
def State.resumeTask (s : State) (t : Nat) : State :=
  s.modTask t fun tk => if tk.state = TaskState.suspended then { tk with state := .ready, readySince := s.time.ns, unplaced := s.time.ns } else tk

/-- A failed scoreboard check of a timed word (R20, R21): a precise fault in strict mode; in tolerant mode the word waits a
cycle, which is counted (R23). -/
def scoreboard (s : State) (tk : Task) (mem : Member) (cause : Nat) (addr : W64) (aux : Nat) : Res :=
  if tk.tolerant then
    let x := mem.str s.cur.stream
    .next (s.put (mem.setStr s.cur.stream { x with waiting := true, waits := min (x.waits + 1) (2 ^ 32 - 1) }))
  else raise s mem cause addr aux

/-! ## Members placed on a core (R29, R413) -/

/-- A scalar register at 0, poison clear. -/
def Scalar.zero : Scalar := ⟨0, false⟩

/-- A stream that has not started. [DESIGN CHOICE, log 2] -/
def StreamSt.blank : StreamSt := ⟨0, ⟨0, 0, 0⟩, ⟨0, 0, 0⟩, 0, false, .running, 0⟩

/-- The checkpoint a member has before its first region (R29): g1 the parameter block, g2 PSIZE, everything else 0. -/
def Ckpt.first (param psize : W64) (d : Vector (BitVec 256) 64) (pcs : List W64) : Ckpt :=
  { g := ((Vector.replicate 32 Scalar.zero).set 1 ⟨param, false⟩).set 2 ⟨psize, false⟩
    v := Vector.replicate 32 Row.zero, mb := Vector.replicate 4 Scalar.zero, d := d
    lcs := List.replicate 4 (⟨0, 0, 0⟩, ⟨0, 0, 0⟩), pcs := pcs }

/-- A member that has been given a core and stands at the entry its checkpoint describes. -/
def Member.place (core rank replica : Nat) (ck : Ckpt) : Member :=
  Member.rerun
    { core, rank, replica, g := ck.g, d := ck.d, win := Vector.replicate 16 (Window.closed 0)
      sem := Vector.replicate 256 0, tq := Vector.replicate 12 [], mb := ck.mb, v := ck.v
      la := Vector.replicate 8 Row.invalid, lb := Vector.replicate 8 Row.invalid, lt := Vector.replicate 8 Row.invalid
      lq := Vector.replicate 8 Row.invalid, mark := none, acc := [], accReady := Vector.replicate 4 0, kf := 0, spad := []
      spStart := [], spMid := [], wrote := [], kWrote := [], streams := Vector.replicate 4 StreamSt.blank, stall := none, moves := [], starts := [], chains := [], results := []
      jobs := [], arrayFree := 0, rstreams := [], matNow := none, cmds := [], nextCmd := 0, batchL := 0, batchS := 0, held := [], dwq := []
      lastAcc := false, frozen := [], replay := [], replayPos := [], rels := [], arms := [], bowaits := [], spawns := []
      sigC := [], sigL := [], sigS := [], recCounts := [], echoes := [], echoSent := [], flips := [], counts := [], stores := [], seen := 0, saw := [], l1 := []
      tlbC := [], tlbL := [], tlbS := [], pend := Pend.empty, ckpt := ck, savedPieces := [], stuck := [] }

/-- A handle at T0: unbound (R50). -/
def Handle.unbound : Handle := ⟨.none, 0, false, 0, false, [], false⟩

/-- A replica's part of the context at a first dispatch. -/
def Replica.blank : Replica := ⟨0, 0, 0, false, false, 0, none, none, 0, [], ⟨0, 0, 0⟩⟩

/-- A task context as it is allocated for a launch of a queue (R66, R405). -/
def Task.launch (seq node queue ctx : Nat) (tag : BitVec 32) (irq : Bool) (compl hdr param : W64) (graph tt : Option Nat)
    (now : Nat) : Task :=
  { seq, node, queue, ctx, tag, irq, compl, hdrVA := hdr, param, ptroot := 0, btab := 0, hint := 0, part := 0, rpol := false
    tcpool := 0, qbase := 0, graph, fromTT := tt, state := .queued, hdr := 0, pool := [], members := [], replicas := [], discards := 0, attempt := 0
    budget := 0, so := Vector.replicate 64 Handle.unbound, faultLive := ⟨0, 0, 0⟩
    commit := .none, commitFinal := false, commitPending := false, vote := none, readySince := now, unplaced := now
    preemptReq := false, termReq := false, fatal := false, placedOnce := false, before := none, ending := none, mu := [], keep := []
    poolBytes := 0, began := 0 }

/-! ## Word fetch (R87, R89) -/

/-- n 4-byte pieces of code from an address: each needs a leaf with X; the cause and address of the first that fails. -/
def fetchPieces (s : State) (tk : Task) (mem : Member) : Nat → W64 → Except (Nat × W64) (List Byte) × Member × State
  | 0, _ => (.ok [], mem, s)
  | n + 1, va =>
    match s.translateFor tk mem .c va.toNat with
    | (none, m1, s1) => (.error (s.missCause tk.ptroot va.toNat, va), m1, s1)
    | (some l, m1, s1) =>
      if !l.x then (.error (cProtection, va), m1, s1)
      else if !s1.rangeOk (l.pa va.toNat) 4 then (.error (cMemory, va), m1, s1)
      else match fetchPieces (s1.noteRead (l.pa va.toNat) 4) tk m1 n (va + 4) with
        | (.ok r, m2, s2) => (.ok (s1.load (l.pa va.toNat) 4 ++ r), m2, s2)
        | e => e

/-- Why a word cannot be fetched: cause and address, with the first four bytes where they could be read, which hold IDLE (R89). -/
structure FetchErr where
  cause : Nat
  va : W64
  head : Option (BitVec 96)

/-- Fetched pieces with the first four bytes of the word known. -/
def withHead (h : Option (BitVec 96)) (r : Except (Nat × W64) (List Byte) × Member × State) :
    Except FetchErr (List Byte) × Member × State :=
  (match r.1 with
    | .ok b => .ok b
    | .error e => .error ⟨e.1, e.2, h⟩, r.2.1, r.2.2)

/-- The word at a stream's program counter, in the low bits of 192: 4 bytes for C, one unit or two otherwise. -/
def fetchWord (s : State) (tk : Task) (mem : Member) (x : Stream) : Except FetchErr (BitVec 192) × Member × State :=
  let pc := (mem.str x).pc
  match withHead none (fetchPieces s tk mem 1 pc) with
  | (.error e, m, s1) => (.error e, m, s1)
  | (.ok a, m, s1) =>
    match x with
    | .c => (.ok (BitVec.ofNat 192 (leNat a)), m, s1)
    | _ =>
      let h := some (BitVec.ofNat 96 (leNat a))
      match withHead h (fetchPieces s1 tk m 2 (pc + 4)) with
      | (.error e, m2, s2) => (.error e, m2, s2)
      | (.ok b, m2, s2) =>
        if unitsOf (BitVec.ofNat 96 (leNat (a ++ b))) = 1 then (.ok (BitVec.ofNat 192 (leNat (a ++ b))), m2, s2)
        else match withHead h (fetchPieces s2 tk m2 3 (pc + 12)) with
          | (.ok c, m3, s3) => (.ok (BitVec.ofNat 192 (leNat (a ++ b ++ c))), m3, s3)
          | (.error e, m3, s3) => (.error e, m3, s3)

/-- The instruction of a fetched word in a stream. -/
def decodeFetched (x : Stream) (w : BitVec 192) : Except DecodeErr Instr :=
  match x with
  | .c => decodeC (w.extractLsb' 0 32)
  | _ => decodeTimed x (w.extractLsb' 0 96) (w.extractLsb' 96 96)

/-- Idle cycles before a fetched word (R19); a C word has none. -/
def fetchedIdle (x : Stream) (w : BitVec 192) : Nat :=
  match x with
  | .c => 0
  | _ => idleOf x (w.extractLsb' 0 96)

end Sys2Proof.Machine
end

