-- ==== Sys2Proof/Machine/Operands.lean ====
section
/-! DEFINITION. The operand forms of the C stream: effective addresses, the scratchpad aperture, loads through the L1 and the
core's own stores, stores with ownership, side log and deferral, sync handles, store signatures and echoes. -/

namespace Sys2Proof.Machine

/-- A fault a check finds: cause, ADDR and AUX (R330). -/
structure Trap where
  cause : Nat
  addr : W64
  aux : Nat
  deriving DecidableEq, Repr

/-- What an access answers: a fault or a value, with the member (its TLB and L1 move) and the state (free values move). -/
structure Acc (α : Type) where
  res : Except Trap α
  mem : Member
  st : State

/-- An element of a vector replaced, nothing outside its range. -/
def setVec {α : Type} {n : Nat} (v : Vector α n) (i : Nat) (a : α) : Vector α n := v.setIfInBounds i a

/-- The current word raises what a check found. -/
def raiseTrap (s : State) (mem : Member) (t : Trap) : Res := raise s mem t.cause t.addr t.aux

/-- The C word completes: its stream goes on. -/
def cDone (s : State) (mem : Member) : Res := .next (s.put (mem.cNext s.cycle))

/-- The C word writes a register and completes. -/
def cWrite (s : State) (mem : Member) (rd : BitVec 5) (v : Scalar) : Res := cDone s (mem.wr rd v)

/-- The C word stalls (R23); it is tried again by the event that ends its wait. [DEDUCED, log 52] -/
def cStall (s : State) (mem : Member) (i : Instr) : Res := .next (s.put { mem with stall := some i })

/-- The C word goes on at a target. -/
def cGoto (s : State) (mem : Member) (target : W64) : Res := .next (s.put (mem.cJump target s.cycle))

/-- The word at the current address ends an active C loop (R134). -/
def endsLoop (s : State) (mem : Member) : Bool := (mem.str .c).atLoopEnd s.cur.pc

/-- A word offset from the current word (R131, R132). -/
def wordTarget (s : State) {n : Nat} (off : BitVec n) : W64 := s.cur.pc + 4 * off.signExtend 64

/-! ## The scratchpad aperture (R127) -/

/-- The task scratchpad address of an aperture address. -/
def apertureOf (a : W64) : Nat := a.toNat % 2 ^ 20

/-- A load through the aperture: the value and poison of n bytes. -/
def Member.apertureLoad (mem : Member) (t n : Nat) : Nat × Bool :=
  let bs := (List.range n).map fun i => mem.spByte (t + i)
  if bs.all fun b => b.2.1 then (leNat (bs.map fun b => b.1), bs.any fun b => b.2.2) else (0, true)

/-- The allocation check of an aperture access: bounds fault with the task scratchpad address (R60, R61). -/
def apertureCheck (tk : Task) (t : Nat) : Option Trap :=
  if inAlloc tk.spadN t then none else some ⟨cBounds, BitVec.ofNat 64 t, 0⟩

/-! ## Loads from virtual memory (R128, R130, R299, R300, R358) -/

/-- Byte x of a list of stores with their addresses, the youngest first to answer. -/
def overlayByte (x : Nat) : List (Nat × List Byte) → Option Byte
  | [] => none
  | (a, bs) :: r =>
    match overlayByte x r with
    | some b => some b
    | none => if within x a bs.length then bs[x - a]? else none

/-- A byte string at an address with younger stores laid over it. -/
def overlay (stores : List (Nat × List Byte)) (a : Nat) (bs : List Byte) : List Byte :=
  (List.range bs.length).map fun i => (overlayByte (a + i) stores).getD (bs.getD i 0)

/-- The C stores of a member that wait in the side log for the line of an address, as physical writes to that line, with their place in the
order of the member's stores (R129, R130). -/
def ownLogged (s : State) (va pa : Nat) : List (Nat × Nat × List Byte) :=
  (s.slog.filter fun e => e.task == s.cur.task && e.member == s.cur.member && e.cmd.isNone && e.act == LogAct.write
      && e.va == va / 128 * 128).flatMap fun e => e.bytes.map fun b => (2 * e.id + 1, pa / 128 * 128 + b.1, [b.2])

/-- The stores of a member not yet performed that fall on the line of an address, oldest first: those on their way and those in the side
log (R130, R295). -/
def ownStores (s : State) (mem : Member) (va pa : Nat) : List (Nat × List Byte) :=
  match ownLogged s va pa with
  | [] => mem.stores.map fun p => (p.pa, p.bytes)
  | l =>
    let mine : List (Nat × Nat × List Byte) := mem.stores.map fun p => (2 * p.logMark, p.pa, p.bytes)
    ((mine ++ l).mergeSort fun a b => decide (a.1 ≤ b.1)).map (·.2)

/-- Bytes of one line as this core sees them: those of the home slice or of its L1 under its own stores not yet performed (R130, R300). -/
def coreBytes (s : State) (mem : Member) (va pa : Nat) (bytes : List Byte) : List Byte := overlay (ownStores s mem va pa) pa bytes

/-- The L1 line of a physical address. -/
def Member.line? (mem : Member) (pa : Nat) : Option Line := mem.l1.find? fun l => l.pa == pa / 128 * 128

/-- The set of a line (R358). -/
def l1Set (pa : Nat) : Nat := pa / 128 % Config.l1Sets

/-- Whether the set of a line has no free way left for it. -/
def Member.setFull (mem : Member) (pa : Nat) : Bool :=
  decide (Config.l1Ways ≤ (mem.l1.filter fun k => l1Set k.pa == l1Set pa && k.pa != pa).length)

/-- The member with a line put into its L1: where the set is full, the line that a free value chooses leaves (R358). [DESIGN CHOICE, log 6] -/
def Member.putLine (mem : Member) (free : Nat) (l : Line) : Member :=
  let rest := mem.l1.filter fun k => k.pa != l.pa
  if mem.setFull l.pa then
    let ways := rest.filter fun k => l1Set k.pa == l1Set l.pa
    let gone := (ways[(Config.freeWord free).toNat % ways.length]?).map (·.pa)
    { mem with l1 := l :: rest.filter fun k => some k.pa != gone }
  else { mem with l1 := l :: rest }

/-- The bytes of a line that a fill brings, and the member that holds them in its L1 (R358). [DESIGN CHOICE, log 6] -/
def State.fillLine (s : State) (ctx : Nat) (mem : Member) (l : Leaf) (va pa : Nat) : List Byte × Member × State :=
  let at_ := pa / 128 * 128
  let r := (s.noteRead at_ 128).weakBytes s.cur.task mem at_ 128 8
  let k : Line := ⟨at_, ctx, va / 128 * 128, l, coreBytes s mem va at_ r.1⟩
  (k.data, r.2.1.putLine r.2.2.free k, if mem.setFull at_ then { r.2.2 with free := r.2.2.free + 1 } else r.2.2)

/-- A C read of n bytes of one line: from the L1 line when it is held, else from memory, by a fill of the line unless its page asks for none
(R358). Its own stores lie over either (R130, R300). A memory error of a line that is filled is met by the load that fills it. [DEDUCED, log 61] -/
def l1Read (s : State) (ctx : Nat) (mem : Member) (l : Leaf) (va pa n : Nat) : Acc (List Byte) :=
  match mem.line? pa with
  | some k => ⟨.ok (coreBytes s mem va pa ((k.data.drop (pa % 128)).take n)), mem, s⟩
  | none =>
    let lo := if l.nl1 then pa else pa / 128 * 128
    let len := if l.nl1 then n else 128
    if !s.rangeOk lo len then ⟨.error ⟨cMemory, BitVec.ofNat 64 va, 0⟩, mem, s.noteRead lo len⟩
    else if l.nl1 then
      let r := (s.noteRead pa n).weakBytes s.cur.task mem pa n 8
      ⟨.ok (coreBytes s mem va pa r.1), r.2.1, r.2.2⟩
    else
      let r := s.fillLine ctx mem l va pa
      ⟨.ok ((r.1.drop (pa % 128)).take n), r.2.1, r.2.2⟩

/-- The deferred C stores of a member by virtual address. -/
def Member.deferredStores (mem : Member) : List (Nat × List Byte) :=
  mem.dwq.filterMap fun d => match d with
    | .store a bs _ => some (a, bs)
    | .cmd _ => none

/-- Bytes a read from memory brings at an address, with their poison, under the bytes of the deferred-write queue, which come first (R128, R358): a
read all of whose bytes the queue gives reads nothing else, and is not poisoned. [DEDUCED, log 64] -/
def overDeferred (mem : Member) (a : Nat) (bytes : List Byte) (poison : Bool) : List Byte × Bool :=
  (overlay mem.deferredStores a bytes, poison && !(List.range bytes.length).all fun i => (overlayByte (a + i) mem.deferredStores).isSome)

/-- A C read of n bytes of one line of virtual memory, with its poison (R128, R299, R300, R358). A read outside the load rule of a replicated
task gives 0 poisoned and no fault (R316). [DEDUCED, log 36] -/
def readC (s : State) (tk : Task) (mem : Member) (a : W64) (n : Nat) : Acc (List Byte × Bool) :=
  match s.translateFor tk mem .c a.toNat with
  | (none, m1, s1) => ⟨.error ⟨s.missCause tk.ptroot a.toNat, a, 0⟩, m1, s1⟩
  | (some l, m1, s1) =>
    let pa := l.pa a.toNat
    if !l.r then ⟨.error ⟨cProtection, a, 0⟩, m1, s1⟩
    else if s1.outsideRule s.cur.task tk l pa then ⟨.ok (overDeferred m1 a.toNat (List.replicate n 0) true), m1, s1⟩
    else if s1.racy s.cur.task tk m1 l pa then
      if !s1.rangeOk pa n then ⟨.error ⟨cMemory, a, 0⟩, m1, s1.noteRead pa n⟩
      else
        let r := (s1.noteRead pa n).racyBytes tk.began pa n n
        ⟨.ok (overDeferred m1 a.toNat r.1 true), m1, r.2⟩
    else
      match l1Read s1 tk.ctx m1 l a.toNat pa n with
      | ⟨.ok bs, m2, s2⟩ => ⟨.ok (overDeferred m2 a.toNat bs false), m2, s2⟩
      | ⟨.error t, m2, s2⟩ => ⟨.error t, m2, s2⟩

/-- A load of n bytes, aligned, from virtual memory: value and poison. [DESIGN CHOICE, log 64] -/
def loadVirtual (s : State) (tk : Task) (mem : Member) (a : W64) (n : Nat) : Acc (Nat × Bool) :=
  match readC s tk mem a n with
  | ⟨.ok r, m1, s1⟩ => ⟨.ok (leNat r.1, r.2), m1, s1⟩
  | ⟨.error t, m1, s1⟩ => ⟨.error t, m1, s1⟩

/-- A load's value and poison for an effective address that has passed the checks of R120 up to alignment. -/
def loadAt (s : State) (tk : Task) (mem : Member) (a : W64) (n : Nat) : Acc (Nat × Bool) :=
  if inAperture a.toNat then
    match apertureCheck tk (apertureOf a) with
    | some t => ⟨.error t, mem, s⟩
    | none => ⟨.ok (mem.apertureLoad (apertureOf a) n), mem, s⟩
  else loadVirtual s tk mem a n

/-- The effective address of a load or store (R126). -/
def effAddr (mem : Member) (rs : BitVec 5) (imm : BitVec 16) : W64 := (mem.rd rs).val + imm.signExtend 64

/-- A load instruction: n bytes, extended by ext, into rd (R126, R128). -/
def loadWord (rd rs : BitVec 5) (imm : BitVec 16) (n : Nat) (ext : Nat → W64) (s : State) : Res :=
  onMember s fun tk mem =>
    let a := effAddr mem rs imm
    if (mem.rd rs).poison then raise s mem cPoison 0 0
    else if a.toNat % n ≠ 0 then raise s mem cAlignment a 0
    else
      let r := loadAt s tk mem a n
      match r.res with
      | .error t => raiseTrap r.st r.mem t
      | .ok (v, p) => cWrite r.st r.mem rd ⟨ext v, p⟩

/-! ## Signatures (R318 to R320) -/

/-- A stream's signature bytes with a record appended, and the record counted. -/
def Member.sign (mem : Member) (x : Stream) (kind : Nat) (body : List Byte) : Member :=
  let bytes := BitVec.ofNat 8 kind :: body
  let m := { mem with recCounts := mem.recCounts.modify (kind - 1) (· + 1) }
  match x with
  | .c => { m with sigC := m.sigC ++ bytes }
  | .l => { m with sigL := m.sigL ++ bytes }
  | _ => { m with sigS := m.sigS ++ bytes }

/-- A record of a replicated task (R319). -/
def Task.sign (tk : Task) (mem : Member) (x : Stream) (kind : Nat) (body : List Byte) : Member :=
  if tk.replicated then mem.sign x kind body else mem

/-! ## Stores (R127, R129, R355, R363, R364) -/

/-- Entries of the side log of a core. -/
def State.logOf (s : State) (core : Nat) : List LogEntry := s.slog.filter fun e => e.core == core

/-- The side log of a core has room (R364). -/
def State.logRoom (s : State) (core : Nat) : Bool := decide ((s.logOf core).length < 64)

/-- An entry put into the side log, with the next number (R364). -/
def State.addLog (s : State) (e : LogEntry) : State := { s with nextLog := s.nextLog + 1, slog := s.slog ++ [{ e with id := s.nextLog }] }

/-- A write entered in the side log of a member's core: one entry for the line of its address (R364). -/
def State.logWrite (s : State) (t m : Nat) (tk : Task) (mem : Member) (va : Nat) (bytes : List Byte) (act : LogAct)
    (cmd : Option Nat) : State :=
  s.addLog { id := 0, core := mem.core, ctx := tk.ctx, task := t, member := m, va := va / 128 * 128
             bytes := (List.range bytes.length).map fun i => (va % 128 + i, bytes.getD i 0), act := act, cmd := cmd, so := 0, units := 0 }

/-- The member after a store's bytes have gone to its own L1 copy of the line (R295). -/
def Member.updateLine (mem : Member) (pa : Nat) (bytes : List Byte) : Member :=
  { mem with l1 := mem.l1.map fun k =>
      if k.pa == pa / 128 * 128 then { k with data := overlay [(pa, bytes)] k.pa k.data } else k }

/-- The flips of FLTINJ with KIND 2 in the data of a deferred store (R153). A flip of a bit beyond the width of the store is used up without
effect: the spec does not say what it does. [DESIGN CHOICE, log 73] -/
def Member.flipStore (mem : Member) (v : W64) : W64 × Member :=
  (mem.flips.foldl (fun x b => x ^^^ (1#64 <<< b)) v, { mem with flips := [] })

/-- A store that enters the deferred-write queue of a replicated task (R129, R319, R363); missing says that it has no translation. -/
def deferStore (s : State) (tk : Task) (mem : Member) (a : W64) (n : Nat) (v : W64) (missing : Bool) : Acc Bool :=
  if mem.dwq.length ≥ 64 then ⟨.error ⟨cSchedule, 0, 10⟩, mem, s⟩
  else
    let f := mem.flipStore v
    let bytes := leBytes n f.1.toNat
    let m := { f.2 with dwq := f.2.dwq ++ [.store a.toNat bytes missing] }
    ⟨.ok true, tk.sign m .c 1 (leBytes 8 a.toNat ++ leBytes 1 n ++ leBytes 8 (leNat bytes)), s⟩

/-- A store of n bytes, aligned, to virtual memory; false when it must wait for the side log. [DEDUCED, log 40] -/
def storeVirtual (s : State) (tk : Task) (mem : Member) (a : W64) (n : Nat) (v : W64) : Acc Bool :=
  let bytes := leBytes n v.toNat
  if a.toNat ≥ 2 ^ 57 then ⟨.error ⟨cTranslation, a, 0⟩, mem, s⟩
  else match s.translateFor tk mem .c a.toNat with
  | (none, m1, s1) =>
    if s.missCause tk.ptroot a.toNat = cMemory then ⟨.error ⟨cMemory, a, 0⟩, m1, s1⟩
    else if tk.replicated then deferStore s1 tk m1 a n v true
    else if !s1.logRoom m1.core then ⟨.ok false, m1, s1⟩
    else ⟨.ok true, m1, (s1.logWrite s.cur.task s.cur.member tk m1 a.toNat bytes .write none).recordFault s.cur.task
            (s1.info m1 cTranslation 2 a 0)⟩
  | (some l, m1, s1) =>
    let pa := l.pa a.toNat
    if !l.w then ⟨.error ⟨cProtection, a, 0⟩, m1, s1⟩
    else if !s1.canWrite pa n then ⟨.error ⟨cMemory, a, 0⟩, m1, s1⟩
    else
      let taken := if l.owned pa then s1.takeOwn ⟨s.cur.task, m1.rank⟩ pa else some s1
      match taken with
      | none => ⟨.error ⟨cSharing, a, 0⟩, m1, s1.splitOwn pa⟩
      | some s2 =>
        if tk.replicated then deferStore s2 tk m1 a n v false
        else
          let due := s2.cycle + 1 + Config.drainDelay s2.cycle
          ⟨.ok true, { (m1.updateLine pa bytes) with stores := m1.stores ++ [⟨pa, a.toNat, bytes, due, s2.nextLog⟩] }, s2⟩

/-- A store through the aperture (R127, R243). -/
def storeAperture (s : State) (tk : Task) (mem : Member) (a : W64) (n : Nat) (v : Scalar) : Acc Bool :=
  let t := apertureOf a
  match apertureCheck tk t with
  | some f => ⟨.error f, mem, s⟩
  | none =>
    if mem.frozen.contains (t / 512) then ⟨.error ⟨cSchedule, 0, 11⟩, mem, s⟩
    else ⟨.ok true, mem.putSpBytes t ((leBytes n v.val.toNat).map fun b => (b, v.poison)), s⟩

/-- A store instruction: the low n bytes of rt (R126, R129). -/
def storeWord (i : Instr) (rt rs : BitVec 5) (imm : BitVec 16) (n : Nat) (s : State) : Res :=
  onMember s fun tk mem =>
    let a := effAddr mem rs imm
    let v := mem.rd rt
    if (mem.rd rs).poison || (v.poison && !inAperture a.toNat) then raise s mem cPoison 0 0
    else if a.toNat % n ≠ 0 then raise s mem cAlignment a 0
    else
      let r := if inAperture a.toNat then storeAperture s tk mem a n v else storeVirtual s tk mem a n v.val
      match r.res with
      | .error t => raiseTrap r.st r.mem t
      | .ok true => cDone r.st r.mem
      | .ok false => cStall r.st r.mem i

/-! ## Handles (R50, R141) -/

/-- A handle of a task. -/
def Task.handle (tk : Task) (so : BitVec 6) : Handle := tk.so[so.toNat]'(so.isLt)

/-- The task with a handle replaced. -/
def Task.setHandle (tk : Task) (so : BitVec 6) (h : Handle) : Task := { tk with so := tk.so.set so.toNat h so.isLt }

/-- L1 lines of the given identifiers invalidated in every member (R143, R146, R354). -/
def Task.invalidate (tk : Task) (ids : List Nat) : Task :=
  { tk with members := tk.members.map fun m => { m with l1 := m.l1.filter fun l => !ids.contains l.leaf.bind } }

/-- The state with the current task replaced and then the current member (which the task's copy may lag behind). -/
def State.putBoth (s : State) (tk : Task) (mem : Member) : State := (s.putTask s.cur.task tk).put mem

/-- The physical address of an object of the task, by the C stream's TLB, for reading (R478). -/
def objectPa (s : State) (tk : Task) (mem : Member) (a : W64) : Acc Nat :=
  match s.translateFor tk mem .c a.toNat with
  | (none, m1, s1) => ⟨.error ⟨s.missCause tk.ptroot a.toNat, a, 0⟩, m1, s1⟩
  | (some l, m1, s1) =>
    if !l.r then ⟨.error ⟨cProtection, a, 0⟩, m1, s1⟩
    else if !s1.rangeOk (l.pa a.toNat) 64 then ⟨.error ⟨cMemory, a, 0⟩, m1, s1.noteRead (l.pa a.toNat) 64⟩
    else ⟨.ok (l.pa a.toNat), m1, s1.noteRead (l.pa a.toNat) 64⟩

/-! ## Echoes (R314) -/

/-- The member is of the lead. -/
def Member.lead (mem : Member) : Bool := mem.replica == 0

/-- Members of the followers with a given rank, by index. -/
def Task.followers (tk : Task) (rank : Nat) : List Nat :=
  (List.range tk.members.length).filter fun i =>
    match tk.members[i]? with
    | some m => m.rank == rank && !m.lead
    | none => false

/-- Every follower of a rank has room for one more echo. -/
def Task.echoRoom (tk : Task) (rank : Nat) : Bool :=
  (tk.followers rank).all fun i => match tk.members[i]? with
    | some m => decide (m.echoes.length < 64)
    | none => true

/-- An echo delivered to every follower of a rank. -/
def Task.echo (tk : Task) (rank : Nat) (e : Echo) : Task :=
  { tk with members := tk.members.map fun m => if m.rank == rank && !m.lead then { m with echoes := m.echoes ++ [e] } else m }

/-- The member's oldest echo of a stream, and the member without it. -/
def Member.takeEcho (mem : Member) (x : Stream) : Option (Echo × Member) :=
  match mem.echoes.find? fun e => e.stream == x with
  | some e => some (e, { mem with echoes := mem.echoes.erase e })
  | none => none

/-- An echoed C word with the lead's value: the lead (or the only replica) writes it and echoes it, stalling where a buffer is
full; a follower stalls for its echo (R314). -/
def echoed (i : Instr) (rd : BitVec 5) (v : W64) (s : State) (tk : Task) (mem : Member) : Res :=
  if !tk.replicated then cWrite s mem rd ⟨v, false⟩
  else if !mem.lead then cStall s mem i
  else if !tk.echoRoom mem.rank then cStall s mem i
  else
    let tk1 := tk.echo mem.rank ⟨.c, s.cur.pc, v, []⟩
    .next (s.putBoth tk1 ((mem.wr rd ⟨v, false⟩).cNext s.cycle))

end Sys2Proof.Machine
end

