-- ==== Sys2Proof/Machine/Control.lean ====
section
/-! DEFINITION. Branches, jumps and hardware loops of the C stream (R131 to R134), descriptors and mailboxes (R135, R136), tokens
and semaphores (R137, R138). -/

namespace Sys2Proof.Machine

/-- A branch (R131): poison before the loop check of R134 (R120). -/
def branchOp (rs rt : BitVec 5) (off : BitVec 16) (f : W64 → W64 → Bool) (s : State) : Res :=
  onMember s fun _ mem =>
    let a := mem.rd rs
    let b := mem.rd rt
    if a.poison || b.poison then raise s mem cPoison 0 0
    else if endsLoop s mem then raiseIllegal s mem
    else if f a.val b.val then cGoto s mem (wordTarget s off)
    else cDone s mem

/-- BEQ (R131). -/
def execBeq (rs rt : BitVec 5) (off : BitVec 16) (s : State) : Res := branchOp rs rt off (fun a b => a == b) s
/-- BNE (R131). -/
def execBne (rs rt : BitVec 5) (off : BitVec 16) (s : State) : Res := branchOp rs rt off (fun a b => a != b) s
/-- BLT (R131). -/
def execBlt (rs rt : BitVec 5) (off : BitVec 16) (s : State) : Res :=
  branchOp rs rt off (fun a b => decide (a.toInt < b.toInt)) s
/-- BGE (R131). -/
def execBge (rs rt : BitVec 5) (off : BitVec 16) (s : State) : Res :=
  branchOp rs rt off (fun a b => decide (b.toInt ≤ a.toInt)) s
/-- BLO (R131). -/
def execBlo (rs rt : BitVec 5) (off : BitVec 16) (s : State) : Res :=
  branchOp rs rt off (fun a b => decide (a.toNat < b.toNat)) s
/-- BHS (R131). -/
def execBhs (rs rt : BitVec 5) (off : BitVec 16) (s : State) : Res :=
  branchOp rs rt off (fun a b => decide (b.toNat ≤ a.toNat)) s

/-- JAL (R132). -/
def execJal (rd : BitVec 5) (off : BitVec 21) (s : State) : Res :=
  onMember s fun _ mem =>
    if endsLoop s mem then raiseIllegal s mem
    else cGoto s (mem.wr rd ⟨s.cur.pc + 4, false⟩) (wordTarget s off)

/-- JALR (R132): gs is read before gd is written. -/
def execJalr (rd rs : BitVec 5) (imm : BitVec 16) (s : State) : Res :=
  onMember s fun _ mem =>
    let t := effAddr mem rs imm
    if (mem.rd rs).poison then raise s mem cPoison 0 0
    else if endsLoop s mem then raiseIllegal s mem
    else if t.toNat % 4 ≠ 0 then raise s mem cAlignment t 0
    else cGoto s (mem.wr rd ⟨s.cur.pc + 4, false⟩) t

/-- A loop starts on a stream whose words are len bytes, after R97 and R133: none where it is illegal. next is the first word of
the body, or the word after the end when the count is 0. -/
def StreamSt.startLoop (x : StreamSt) (a : W64) (j : BitVec 1) (count : BitVec 32) (stop : BitVec 16) (len : Nat) :
    Option (StreamSt × W64) :=
  let start := a + BitVec.ofNat 64 len
  let last := a + BitVec.ofNat 64 len * stop.zeroExtend 64
  if j = 0#1 then
    if x.lc0.count ≠ 0 ∨ x.lc1.count ≠ 0 then none
    else some ({ x with lc0 := ⟨count, start, last⟩ }, if count = 0 then last + BitVec.ofNat 64 len else start)
  else
    if x.lc1.count ≠ 0 then none
    else if x.lc0.count ≠ 0 ∧ x.lc0.stop.toNat < last.toNat then none
    else some ({ x with lc1 := ⟨count, start, last⟩ }, if count = 0 then last + BitVec.ofNat 64 len else start)

/-- The C stream after a loop word: the loop word itself ends no loop (R134). -/
def cLoop (s : State) (mem : Member) (j : BitVec 1) (count : BitVec 32) (stop : BitVec 16) : Res :=
  if endsLoop s mem then raiseIllegal s mem
  else match (mem.str .c).startLoop s.cur.pc j count stop 4 with
    | none => raiseIllegal s mem
    | some (x, next) =>
      .next (s.put (mem.setStr .c { x with pc := next, base := s.cycle + Config.cDelay s.cycle + 1, waiting := false }))

/-- LOOP (R133). [DEDUCED, log 38] -/
def execLoop (lc : BitVec 1) (rs : BitVec 5) (stop : BitVec 16) (s : State) : Res :=
  onMember s fun _ mem =>
    let n := mem.rd rs
    if stop = 0#16 then raiseIllegal s mem
    else if n.poison then raise s mem cPoison 0 0
    else if n.val.toNat ≥ 2 ^ 32 then raiseIllegal s mem
    else cLoop s mem lc (n.val.extractLsb' 0 32) stop

/-- LOOPI (R133). [DEDUCED, log 38] -/
def execLoopi (lc : BitVec 1) (count : BitVec 13) (stop : BitVec 12) (s : State) : Res :=
  onMember s fun _ mem =>
    if stop = 0#12 then raiseIllegal s mem else cLoop s mem lc (count.zeroExtend 32) (stop.zeroExtend 16)

/-! ## Descriptors and mailboxes -/

/-- Quarter q of a descriptor replaced. -/
def setQuarter (d : BitVec 256) (q : BitVec 2) (v : W64) : BitVec 256 :=
  let sh := 64 * q.toNat
  (d &&& ~~~((BitVec.allOnes 64).zeroExtend 256 <<< sh)) ||| (v.zeroExtend 256 <<< sh)

/-- Quarter q of a descriptor. -/
def getQuarter (d : BitVec 256) (q : BitVec 2) : W64 := d.extractLsb' (64 * q.toNat) 64

/-- Descriptor register dn as the C stream has written it: DSETs of this cycle included. -/
def Member.descNow (mem : Member) (dn : BitVec 6) : BitVec 256 :=
  mem.pend.dset.foldl (fun d p => if p.1 = dn.toNat then setQuarter d (BitVec.ofNat 2 p.2.1) p.2.2 else d)
    (mem.d[dn.toNat]'(dn.isLt))

/-- DSET (R135): commands and matrix words see the quarter from the next cycle on. -/
def execDset (dn : BitVec 6) (q : BitVec 2) (g : BitVec 5) (s : State) : Res :=
  onMember s fun _ mem =>
    let v := mem.rd g
    if v.poison then raise s mem cPoison 0 0
    else cDone s { mem with pend := { mem.pend with dset := mem.pend.dset ++ [(dn.toNat, q.toNat, v.val)] } }

/-- DGET (R135). -/
def execDget (dn : BitVec 6) (q : BitVec 2) (g : BitVec 5) (s : State) : Res :=
  onMember s fun _ mem => cWrite s mem g ⟨getQuarter (mem.descNow dn) q, false⟩

/-- MBW (R136, R51): the mailbox changes at the end of the cycle. -/
def execMbw (mb : BitVec 2) (rs : BitVec 5) (s : State) : Res :=
  onMember s fun _ mem => cDone s { mem with pend := { mem.pend with mbw := mem.pend.mbw ++ [(mb.toNat, mem.rd rs)] } }

/-! ## Tokens (R137, R17, R49) -/

/-- The number of the token queue from stream x to stream y, two different codes. -/
def tokenQueue (x y : Nat) : Nat := 3 * x + (if y < x then y else y - 1)

/-- Tokens in a queue at the start of the cycle. -/
def Member.tokens (mem : Member) (q : Nat) : List Bool := mem.tq.toList.getD q []

/-- Tokens of queue q appended in this cycle. -/
def Member.tokPushed (mem : Member) (q : Nat) : Nat :=
  ((mem.pend.tokPush.filter fun p => p.1 == q).map fun p => p.2.length).sum

/-- Tokens of queue q removed in this cycle. -/
def Member.tokTaken (mem : Member) (q : Nat) : Nat := ((mem.pend.tokTaken.filter fun p => p.1 == q).map (·.2)).sum

/-- Queue q has room for n more tokens, by its count at the start of the cycle. -/
def Member.tokRoom (mem : Member) (q n : Nat) : Bool := decide ((mem.tokens q).length + mem.tokPushed q + n ≤ 32)

/-- Queue q holds n tokens not yet taken in this cycle, by its count at the start of the cycle. -/
def Member.tokHas (mem : Member) (q n : Nat) : Bool := decide (mem.tokTaken q + n ≤ (mem.tokens q).length)

/-- n tokens with a tag appended at the end of the cycle. -/
def Member.tokPush (mem : Member) (q n : Nat) (tag : Bool) : Member :=
  { mem with pend := { mem.pend with tokPush := mem.pend.tokPush ++ [(q, List.replicate n tag)] } }

/-- The oldest n tokens removed at the end of the cycle; the tag of the first. -/
def Member.tokTake (mem : Member) (q n : Nat) : Bool × Member :=
  ((mem.tokens q).getD (mem.tokTaken q) false,
    { mem with pend := { mem.pend with tokTaken := mem.pend.tokTaken ++ [(q, n)] } })

/-- TSIG (R137). -/
def execTsig (str : BitVec 2) (tag : BitVec 1) (nm1 : BitVec 5) (s : State) : Res :=
  onMember s fun _ mem =>
    let q := tokenQueue 0 str.toNat
    let n := nm1.toNat + 1
    if str = 0#2 then raiseIllegal s mem
    else if mem.tokRoom q n then cDone s ((mem.tokPush q n (tag == 1#1)))
    else cStall s mem (.tsig str tag nm1)

/-- TWAIT (R137). -/
def execTwait (str : BitVec 2) (nm1 : BitVec 5) (s : State) : Res :=
  onMember s fun _ mem =>
    let q := tokenQueue str.toNat 0
    let n := nm1.toNat + 1
    if str = 0#2 then raiseIllegal s mem
    else if mem.tokHas q n then cDone s (mem.tokTake q n).2
    else cStall s mem (.twait str nm1)

/-- TWAITB (R137). -/
def execTwaitb (str : BitVec 2) (off : BitVec 16) (s : State) : Res :=
  onMember s fun _ mem =>
    let q := tokenQueue str.toNat 0
    if str = 0#2 then raiseIllegal s mem
    else if endsLoop s mem then raiseIllegal s mem
    else if !mem.tokHas q 1 then cStall s mem (.twaitb str off)
    else
      let r := mem.tokTake q 1
      if r.1 then cGoto s r.2 (wordTarget s off) else cDone s r.2

/-! ## Semaphores (R138, R48) -/

/-- A semaphore's value at the start of the cycle. -/
def Member.semVal (mem : Member) (n : Nat) : Nat := mem.sem.toList.getD n 0

/-- Counts taken from a semaphore by waits of this cycle. -/
def Member.semTakenNow (mem : Member) (n : Nat) : Nat := ((mem.pend.semTaken.filter fun p => p.1 == n).map (·.2)).sum

/-- A wait on a semaphore is satisfied (R48). -/
def Member.semReady (mem : Member) (n cnt : Nat) : Bool := decide (mem.semTakenNow n + cnt ≤ mem.semVal n)

/-- A wait's count consumed at the end of the cycle. -/
def Member.semTake (mem : Member) (n cnt : Nat) : Member :=
  { mem with pend := { mem.pend with semTaken := mem.pend.semTaken ++ [(n, cnt)] } }

/-- A count added at the end of the cycle; who is what an overflow is reported against. -/
def Member.semAdd (mem : Member) (n cnt : Nat) (who : FaultInfo) : Member :=
  { mem with pend := { mem.pend with semAdd := mem.pend.semAdd ++ [(n, cnt, who)] } }

/-- The semaphores after a cycle's changes, and every increment that overflows (R48). Of several increments of one semaphore in one cycle, the one
blamed is the first in the order in which the cycle's words and commands made them that carries the value past 65,535; the spec does not say
which it is. An increment that overflows is not added. [DESIGN CHOICE, log 65] -/
def Member.semEnd (mem : Member) : Member × List FaultInfo :=
  let taken := mem.pend.semTaken.foldl (fun m p => { m with sem := setVec m.sem p.1 (m.semVal p.1 - p.2) }) mem
  mem.pend.semAdd.foldl (fun r p =>
    let v := r.1.semVal p.1 + p.2.1
    if v < 65536 then ({ r.1 with sem := setVec r.1.sem p.1 v }, r.2) else (r.1, r.2 ++ [p.2.2])) (taken, [])

/-- SEMW (R138). -/
def execSemw (sem cnt : BitVec 8) (s : State) : Res :=
  onMember s fun _ mem =>
    if cnt = 0#8 then raiseIllegal s mem
    else if mem.semReady sem.toNat cnt.toNat then cDone s (mem.semTake sem.toNat cnt.toNat)
    else cStall s mem (.semw sem cnt)

/-- SEMS (R138): an overflow is found at the end of the cycle, when all changes apply (R48). -/
def execSems (sem cnt : BitVec 8) (s : State) : Res :=
  onMember s fun _ mem =>
    if cnt = 0#8 then raiseIllegal s mem
    else cDone s (mem.semAdd sem.toNat cnt.toNat (s.info mem cSchedule 0 0 9))

/-- SEMR (R138). -/
def execSemr (rd : BitVec 5) (sem : BitVec 8) (s : State) : Res :=
  onMember s fun _ mem => cWrite s mem rd ⟨BitVec.ofNat 64 (mem.semVal sem.toNat), false⟩

end Sys2Proof.Machine
end

