-- ==== Sys2Proof/Machine/Sequence.lean ====
section
/-! DEFINITION. The sequencing forms of the timed streams (R96 to R99). -/

namespace Sys2Proof.Machine

/-- The stream a timed word issues in. -/
def Member.cur (mem : Member) (s : State) : StreamSt := mem.str s.cur.stream

/-- The timed word is the end word of an active loop of its stream (R97). -/
def timedEnd (s : State) (mem : Member) : Bool := (mem.cur s).atLoopEnd s.cur.pc

/-- A unit offset from the current word (R98). -/
def unitTarget (s : State) (off : BitVec 24) : W64 := s.cur.pc + 12 * off.signExtend 64

/-- The timed word issues and the stream goes on at a target. -/
def tGoto (s : State) (mem : Member) (target : W64) : Res :=
  .next (s.put (mem.setStr s.cur.stream ((mem.cur s).jumpNext target s.cycle)))

/-- The timed word issues and the stream goes on in sequence. -/
def tDone (s : State) (mem : Member) : Res := .next (s.put (mem.tNext s.cur s.cycle))

/-- Bytes of the word of a timed stream that begins at an address: its first unit tells (R87). A word that cannot be fetched counts
as one unit. [DEDUCED, log 38] -/
def endWordBytes (s : State) (tk : Task) (mem : Member) (a : W64) : Nat :=
  match (fetchPieces s tk mem 1 a).1 with
  | .ok b => 12 * unitsOf (BitVec.ofNat 96 (leNat b))
  | .error _ => 12

/-- LOOPK (R97): a count of 0 goes on at the word after the loop's last word. [DEDUCED, log 38] -/
def execLoopk (_idle : BitVec 6) (lc : BitVec 1) (stop : BitVec 16) (count : BitVec 32) (s : State) : Res :=
  onMember s fun tk mem =>
    if stop = 0#16 || timedEnd s mem then raiseIllegal s mem
    else match (mem.cur s).startLoop s.cur.pc lc count stop 12 with
      | none => raiseIllegal s mem
      | some (x, next) =>
        let last := next - 12#64
        let pc := if count = 0#32 then last + BitVec.ofNat 64 (endWordBytes s tk mem last) else next
        .next (s.put (mem.setStr s.cur.stream { x with pc, base := s.cycle + 1, waiting := false }))

/-- JMPK (R98). -/
def execJmpk (_idle : BitVec 6) (off : BitVec 24) (s : State) : Res :=
  onMember s fun _ mem => if timedEnd s mem then raiseIllegal s mem else tGoto s mem (unitTarget s off)

/-- A token taken by a timed stream; branch says where the word goes on when the token's tag is 1 (R98). -/
def timedWait (q : BitVec 2) (branch : Option (BitVec 24)) (s : State) : Res :=
  onMember s fun tk mem =>
    let k := tokenQueue q.toNat s.cur.stream.code
    if q.toNat = s.cur.stream.code || timedEnd s mem then raiseIllegal s mem
    else if !mem.tokHas k 1 then scoreboard s tk mem cSchedule 0 1
    else
      let r := mem.tokTake k 1
      match branch with
      | some off => if r.1 then tGoto s r.2 (unitTarget s off) else tDone s r.2
      | none => tDone s r.2

/-- TWAIT in a timed stream (R98). -/
def execTwaitTimed (_idle : BitVec 6) (q : BitVec 2) (s : State) : Res := timedWait q none s

/-- TWAITB in a timed stream (R98). -/
def execTwaitbTimed (_idle : BitVec 6) (q : BitVec 2) (off : BitVec 24) (s : State) : Res := timedWait q (some off) s

/-- TSIG in a timed stream (R98). -/
def execTsigTimed (_idle : BitVec 6) (q : BitVec 2) (tag : BitVec 1) (s : State) : Res :=
  onMember s fun tk mem =>
    let k := tokenQueue s.cur.stream.code q.toNat
    if q.toNat = s.cur.stream.code then raiseIllegal s mem
    else if !mem.tokRoom k 1 then scoreboard s tk mem cSchedule 0 1
    else tDone s (mem.tokPush k 1 (tag == 1#1))

/-- A timed stream stops at a word with both counters at 0 (R97): its next word is the one after. -/
def timedStop (st : StreamStatus) (s : State) : Res :=
  onMember s fun _ mem =>
    let x := mem.cur s
    if x.lc0.count ≠ 0 ∨ x.lc1.count ≠ 0 then raiseIllegal s mem
    else .next (s.put (mem.setStr s.cur.stream { x with pc := x.pc + 12, status := st, waiting := false }))

/-- CLOSE in a timed stream (R99, R27). -/
def execCloseTimed (_idle : BitVec 6) (s : State) : Res := timedStop .closed s

/-- HALT (R99, R37). -/
def execHalt (_idle : BitVec 6) (s : State) : Res := timedStop .halted s

end Sys2Proof.Machine
end

