-- ==== Sys2Proof/Machine/Engine.lean ====
section
/-! DEFINITION. What the engine commands share: descriptors (R43 to R45, R221), issue and queues (R217 to R219), memory reads and
writes by an engine (R293 to R300, R234, R235), scratchpad accesses, progress, completion and byte counts (R220, R478). -/

namespace Sys2Proof.Machine

/-! ## Descriptors -/

def dBase (d : BitVec 256) : Nat := (d.extractLsb' 0 57).toNat
def dNdim (d : BitVec 256) : Nat := (d.extractLsb' 57 2).toNat
def dFmt (d : BitVec 256) : Nat := (d.extractLsb' 60 4).toNat
/-- SIZE of dimension i. -/
def dSize (d : BitVec 256) (i : Nat) : Nat := (d.extractLsb' (64 + 16 * i) 16).toNat
/-- Signed byte stride of dimension i, at least 1. -/
def dStride (d : BitVec 256) (i : Nat) : Int := (d.extractLsb' (88 + 40 * i) 40).toInt

/-- Bits of an element of a format code (R44). -/
def fmtBits : Nat → Nat
  | 0x0 | 0x9 | 0xF => 32
  | 0x1 | 0x2 | 0xA => 16
  | 0x7 | 0xD | 0xE => 4
  | _ => 8

/-- Element bits of a descriptor. -/
def dBits (d : BitVec 256) : Nat := fmtBits (dFmt d)

/-- The check of a descriptor at its use (R45). [DEDUCED, log 11] -/
def descTrap (d : BitVec 256) : Option Trap :=
  let nd := dNdim d
  let badSize := (List.range 4).any fun i => if i ≤ nd then dSize d i == 0 else dSize d i != 0
  let badStride := [1, 2, 3].any fun i => decide (nd < i) && dStride d i != 0
  if d.getLsbD 59 || d.extractLsb' 248 8 != 0#8 || badSize || badStride then some ⟨cIllegal, 0, 0⟩
  else if dBits d ≠ 4 ∧ dBase d % (dBits d / 8) ≠ 0 then some ⟨cAlignment, BitVec.ofNat 64 (dBase d), 0⟩
  else none

/-- Elements of the dimensions below j. -/
def dPrefix (d : BitVec 256) : Nat → Nat
  | 0 => 1
  | j + 1 => dPrefix d j * dSize d j

/-- Elements of the sub-range of cnt outermost indices. -/
def dCount (d : BitVec 256) (cnt : Nat) : Nat := cnt * dPrefix d (dNdim d)

/-- Index of dimension j of element k of the sub-range from outermost index i0 (R221). -/
def dIndex (d : BitVec 256) (i0 k j : Nat) : Nat :=
  if j = dNdim d then i0 + k / dPrefix d j else k / dPrefix d j % dSize d j

/-- The byte address of element k of a sub-range, modulo 2^57 (R43). -/
def dAddr (d : BitVec 256) (i0 k : Nat) : Nat :=
  let rest : Int := ((List.range (dNdim d)).map fun j => (dIndex d i0 k (j + 1) : Int) * dStride d (j + 1)).sum
  (((dBase d + dIndex d i0 k 0 * dBits d / 8 : Nat) + rest) % 2 ^ 57).toNat

/-- The high nibble holds element k of a 4-bit sub-range. -/
def dHigh (d : BitVec 256) (i0 k : Nat) : Bool := dBits d == 4 && dIndex d i0 k 0 % 2 == 1

/-- A 4-bit sub-range is even (R221). -/
def subrangeEven (d : BitVec 256) (i0 cnt : Nat) : Bool :=
  dBits d != 4 || (if dNdim d = 0 then i0 % 2 == 0 && cnt % 2 == 0 else dSize d 0 % 2 == 0)

/-- The sub-range lies inside its descriptor (R221). -/
def subrangeTrap (d : BitVec 256) (i0 cnt : Nat) : Option Trap :=
  if i0 + cnt ≤ dSize d (dNdim d) then none else some ⟨cBounds, BitVec.ofNat 64 (dBase d), 0⟩

/-- Row bytes of a tensor descriptor (R224). -/
def dRow (d : BitVec 256) : Nat := dSize d 0 * dBits d / 8

/-- The descriptor counts tensor rows in dimension 1, of a multiple of 4 bytes (R224). -/
def rowDesc (d : BitVec 256) : Bool := dNdim d == 1 && dSize d 0 * dBits d % 32 == 0

/-- The byte address of tensor row t. -/
def rowVA (d : BitVec 256) (t : Nat) : Nat := (((dBase d : Int) + t * dStride d 1) % 2 ^ 57).toNat

/-! ## Scratchpad checks -/

/-- Bounds of a range of the member's allocation. [DEDUCED, log 11] -/
def spadTrap (tk : Task) (a len : Nat) : Option Trap :=
  (firstOut tk.spadN a len).map fun x => ⟨cBounds, BitVec.ofNat 64 x, 0⟩

/-- The first poisoned container of a range (R218, R58). -/
def poisonTrap (mem : Member) (a len : Nat) : Option Trap :=
  if len = 0 then none
  else
    ((List.range ((a + len - 1) / 4 + 1 - a / 4)).find? fun i => (mem.cont (a / 4 + i)).valid && (mem.cont (a / 4 + i)).poison).map
      fun i => ⟨cPoison, BitVec.ofNat 64 (4 * (a / 4 + i)), 0⟩

/-- A range meets a frozen row (R243). [DEDUCED, log 11] -/
def frozenTrap (mem : Member) (a len : Nat) : Option Trap :=
  if mem.frozen.any fun r => decide (a < 512 * r + 512) && decide (512 * r < a + len) then some ⟨cSchedule, 0, 11⟩ else none

/-- The first of a list of checks that fails. -/
def firstTrap : List (Option Trap) → Option Trap
  | [] => none
  | none :: r => firstTrap r
  | some t :: _ => some t

/-- A range's rows. -/
def rowsOf (a len : Nat) : List Nat := if len = 0 then [] else (List.range ((a + len - 1) / 512 + 1 - a / 512)).map fun i => a / 512 + i

/-- Containers of a range as signature bytes: data and tags (R319). -/
def signConts (mem : Member) (a len : Nat) : List Byte :=
  if len = 0 then []
  else (List.range ((a + len - 1) / 4 + 1 - a / 4)).flatMap fun i =>
    let c := mem.cont (a / 4 + i)
    leBytes 4 c.data.toNat ++ leBytes 1 ((if c.valid then 1 else 0) + if c.poison then 2 else 0)

/-! ## Commands in their queues (R217 to R219) -/

/-- The descriptor of a number. -/
def Member.desc (mem : Member) (d : BitVec 6) : BitVec 256 := mem.d[d.toNat]'(d.isLt)

/-- The command is a fill of a window, and of which (R224). -/
def Cmd.fills (c : Cmd) : Option Nat := c.ring.map (·.w)

/-- The command runs on a copy channel (R219, R223, R240, R258): window fetches, copies, gathers, scatters, fills, prefetches,
scratchpad accumulates, KAPP, CPACT and PGATH. -/
def usesChannel : Instr → Bool
  | .wset .. | .wadv .. | .wclose .. | .copy .. | .peerCopy .. | .gath .. | .gathTowin .. | .scat .. | .fill .. | .pref .. => true
  | .accAddS32 .. | .accAddF32 .. | .accAddBf16 .. | .accMinS32 .. | .accMaxS32 .. | .accMinZ32 .. | .accMaxZ32 .. => true
  | .accAnd .. | .accOr .. | .accXor .. | .accSwap .. => true
  | .accfAddS32 .. | .accfAddF32 .. | .accfAddBf16 .. | .accfMinS32 .. | .accfMaxS32 .. | .accfMinZ32 .. | .accfMaxZ32 .. => true
  | .accfAnd .. | .accfOr .. | .accfXor .. | .accfSwap .. => true
  | .kapp .. | .cpact .. | .pgath .. => true
  | _ => false

/-- Row 0x2_ or 0x3_ of the opcode map. -/
def prefixRow : Instr → Bool
  | .slopen .. | .slfork .. | .slmove .. | .slmoveSwap .. | .slclose .. | .slinfo .. | .rxlook .. | .seal .. | .kapp ..
  | .cpact .. | .repl .. | .lease .. | .renew .. | .free .. | .evclass .. | .promo .. | .nodeinfo .. | .bsel .. | .pgath .. =>
    true
  | _ => false

/-- Row 0x4_ of the opcode map. -/
def tokenRow : Instr → Bool
  | .tkfeed .. | .tkdrain .. | .tkdetok .. | .gload .. | .gmask .. | .gstepStep .. | .gstepStart .. | .gstepOff .. => true
  | _ => false

/-- The commands that the replay log of their stream keeps in an unreplicated task (R259, R291). -/
def joinsLog : Instr → Bool
  | .slopen .. | .slfork .. | .slmove .. | .slmoveSwap .. | .slclose .. | .seal .. | .kapp .. | .cpact .. | .repl .. | .lease ..
  | .renew .. | .free .. | .evclass .. | .promo .. | .gload .. | .gstepStep .. | .gstepStart .. | .gstepOff .. => true
  | .rxlook _ _ lse .. => lse == 1#1
  | _ => false

/-- UNIT of a record about a command (R335): its channel, else its unit. -/
def Cmd.unit (c : Cmd) : Nat :=
  match c.chan with
  | some k => 5 + k
  | none =>
    match c.instr with
    | .bsel .. => 9
    | i => if tokenRow i then 10 else if prefixRow i then 11 else if c.stream == Stream.l then 5 else 7

/-- What a command reports (R334). -/
def Cmd.info (c : Cmd) (mem : Member) (t : Trap) (cls unit mark : Nat) : FaultInfo :=
  { cause := t.cause, cls, stream := c.stream.code, rank := mem.rank, replica := mem.replica, unit, pc := c.key.addr
    word := c.u1 ++ c.u0, mark, addr := t.addr, aux := t.aux }

/-- The open batch of a stream (R223). -/
def Member.batch (mem : Member) (x : Stream) : Nat := if x == Stream.l then mem.batchL else mem.batchS

/-- The open batch closed (R223). -/
def Member.closeBatch (mem : Member) (x : Stream) : Member :=
  if x == Stream.l then { mem with batchL := mem.batchL + 1 } else { mem with batchS := mem.batchS + 1 }

/-- Queue entries of a stream (R219). -/
def Member.queued (mem : Member) (x : Stream) : List Cmd := mem.cmds.filter fun c => c.stream == x

/-- The command of the current word. -/
def newCmd (s : State) (mem : Member) (i : Instr) (ssem so : BitVec 6) : Cmd :=
  { seq := mem.nextCmd, stream := s.cur.stream, instr := i, u0 := s.cur.word.extractLsb' 0 96, u1 := s.cur.word.extractLsb' 96 96
    key := ⟨s.cur.pc, (mem.str s.cur.stream).lc0.count, (mem.str s.cur.stream).lc1.count⟩, desc := 0, ring := none
    issued := s.cycle, state := .queued, chan := none, mark := 0, batch := mem.batch s.cur.stream, bytes := 0
    ssem := ssem.toNat, so := so.toNat, pages := [], out := [], step := 0, kept := none }

/-- Semaphore signal of a command's completion (R220). -/
def Member.signal (mem : Member) (c : Cmd) : Member :=
  if c.ssem = 0 then mem else mem.semAdd c.ssem 1 (c.info mem ⟨cSchedule, 0, 9⟩ 0 (if c.stream == Stream.l then 1 else 2) 0)

/-- The header's own legality: the wait field (R94) and the object's kind (R220). [DEDUCED, log 11] -/
def hdrLegal (tk : Task) (h : Hdr) : Bool :=
  (h.wcnt != 0#4 || h.wsem == 0#6) && (h.so == 0#6 || (tk.handle h.so).kind == SoKind.barrier)

/-! ## Sync objects reached by address (R220, R478) -/

/-- An operation on the object at a virtual address can be performed or logged (R364, R478). -/
def State.objectRoom (s : State) (tk : Task) (mem : Member) (va : Nat) : Bool :=
  (s.translateFor tk mem .c va).1.isSome || s.logRoom mem.core

/-- The object at a virtual address meets an uncorrectable memory error, on the walk or in its own line (R385, R389, R392). -/
def State.objectBad (s : State) (tk : Task) (mem : Member) (va : Nat) : Bool :=
  match s.translateFor tk mem .c va with
  | (none, _, _) => s.missCause tk.ptroot va == cMemory
  | (some l, _, s1) => l.w && !s1.objectOk (l.pa va)

/-- barrier_add at an object's virtual address, by stream x of member m of task t: logged where its page has no translation, dropped with a
record where it is not writable (R478) or meets an uncorrectable memory error (R332, R385). [DEDUCED, log 33] -/
def State.addObject (s : State) (t m : Nat) (tk : Task) (mem : Member) (va units : Nat) (who : FaultInfo) : State :=
  let rec? := fun (st : State) (cause : Nat) =>
    st.recordFault t { who with cause, cls := 2, unit := 12, addr := BitVec.ofNat 64 va, mark := 0, aux := 0 }
  match s.translateFor tk mem .c va with
  | (none, _, s1) =>
    if s.missCause tk.ptroot va = cMemory then rec? s1 cMemory
    else
      (rec? s1 cTranslation).addLog { id := 0, core := mem.core, ctx := tk.ctx, task := t, member := m, va := va, bytes := [], act := .add units
                                      cmd := none, so := 0, units := 0 }
  | (some l, _, s1) =>
    if !l.w then rec? s1 cProtection
    else if !s1.objectOk (l.pa va) then rec? (s1.noteRead (l.pa va) 64) cMemory
    else s1.barrierAdd (l.pa va) units

/-- The address of the object that a command's byte count goes to (R220): the one its handle is bound to when the count is added. [DESIGN CHOICE, log
78] -/
def Cmd.object (c : Cmd) (tk : Task) : Nat := (tk.so.toList.getD c.so Handle.unbound).addr

/-- The byte count of a command added to its object, once no entry of it is left in the side log (R220, R235). In a replicated task it waits
for the commit, where the committer alone adds it (R301, R321); elsewhere it waits for room in the side log where it needs some. [DEDUCED, log
27] -/
def State.addBytes (s : State) (t m : Nat) (tk : Task) (mem : Member) (c : Cmd) (units : Nat) : Member × State :=
  if c.so = 0 then (mem, s)
  else if tk.replicated then ({ mem with counts := mem.counts ++ [{ c with bytes := units }] }, s)
  else
    let mine := fun (e : LogEntry) => e.task == t && e.member == m && e.cmd == some c.seq
    if s.slog.any mine then
      (mem, { s with slog := s.slog.map fun e => if mine e then { e with so := c.so, units := units } else e })
    else if s.objectRoom tk mem (c.object tk) then (mem, s.addObject t m tk mem (c.object tk) units (c.info mem ⟨0, 0, 0⟩ 2 12 0))
    else ({ mem with counts := mem.counts ++ [{ c with bytes := units }] }, s)

/-- How a command leaves its issue: queued, complete at once, in the deferred-write queue (R219, R226, R240, R243), or both queued there and at its channel (R291); where a follow-on
step may still have to run (R215). -/
inductive Fate where
  | queued
  | done
  | deferred
  | deferredStep
  | twice
  deriving DecidableEq, Repr

/-- What the issue of a command does once its checks are passed. -/
structure Plan where
  mem : Member
  cmd : Cmd
  fate : Fate

/-- The held command that a re-run command matches (R236). -/
def Member.heldFor (mem : Member) (c : Cmd) : Option HeldCmd :=
  mem.held.find? fun h => h.cmd.stream == c.stream && h.cmd.key == c.key && h.cmd.u0 == c.u0 && h.cmd.u1 == c.u1
    && !(mem.cmds.any fun k => k.state == CmdState.queued && k.chan == h.cmd.chan && k.chan.isSome)

/-- The slots of the rows that a resumed fill of a window wrote before the discard, no longer to be written (R224, R236): they are
present from the re-run's issue on, while it still holds. [DESIGN CHOICE, log 79] -/
def Member.refilled (mem : Member) (c : Cmd) : Member :=
  match c.ring with
  | none => mem
  | some r =>
    let w := (mem.win.toList[r.w]?).getD (Window.closed 0)
    let slots := (List.range c.mark).foldl (fun l j =>
      let t := (r.tag + j) % 2 ^ 32
      l.set (t % w.depth) (t, .written)) w.slots
    { mem with win := setVec mem.win r.w { w with slots := slots } }

/-- The command takes its queue entry, on the channel and from the mark of the held command it matches. -/
def Member.enqueue (mem : Member) (c : Cmd) : Member :=
  let c1 := match mem.heldFor c with
    | some h => { c with chan := h.cmd.chan, mark := h.cmd.mark, step := h.cmd.step, out := h.cmd.out, pages := h.cmd.pages, kept := h.cmd.kept }
    | none => c
  { mem.refilled c1 with cmds := mem.cmds ++ [c1], nextCmd := mem.nextCmd + 1 }

/-- The next word of the command's stream, with the wait of the command consumed. -/
def issued (s : State) (h : Hdr) (mem : Member) : Res :=
  tDone s (if h.wcnt = 0#4 then mem else mem.semTake h.wsem.toNat h.wcnt.toNat)

/-- The issue of an engine command in the order of R218: legality, semaphore, queue, then the checks of the command and its
plan. room is what the command needs besides a queue entry. A deferred COPY with a follow-on record keeps a queue entry for its step,
which may issue as soon as the COPY is queued, since that is when it completes (R215, R243). [DEDUCED, log 69] -/
def issueCmd (s : State) (i : Instr) (h : Hdr) (legal : Task → Member → Bool) (checks : Task → Member → Option Trap)
    (plan : Task → Member → Cmd → Plan) (room : Member → Bool := fun _ => true) : Res :=
  onMember s fun tk mem =>
    let x := s.cur.stream
    let ok := hdrLegal tk h && !(x == Stream.s && mem.lastAcc) && legal tk mem
    if !(mem.cur s).waiting && !ok then raiseIllegal s mem
    else if h.wcnt ≠ 0#4 ∧ mem.semReady h.wsem.toNat h.wcnt.toNat = false then scoreboard s tk mem cSchedule 0 5
    else if decide (16 ≤ (mem.queued x).length) || !(room mem) then scoreboard s tk mem cSchedule 0 6
    else if !ok then raiseIllegal s mem
    else
      match checks tk mem with
      | some t => raiseTrap s mem t
      | none =>
        let p := plan tk mem (newCmd s mem i h.ssem h.so)
        match p.fate with
        | .queued => issued s h (p.mem.enqueue p.cmd)
        | .done =>
          let r := s.addBytes s.cur.task s.cur.member tk { p.mem with nextCmd := p.mem.nextCmd + 1 } p.cmd 0
          issued r.2 h (r.1.signal p.cmd)
        | .deferred =>
          if 64 ≤ p.mem.dwq.length then raiseSchedule s mem 10
          else issued s h ({ p.mem with
            dwq := p.mem.dwq ++ [Dwq.cmd { p.cmd with state := .deferred }], nextCmd := p.mem.nextCmd + 1 }.signal p.cmd)
        | .deferredStep =>
          if 64 ≤ p.mem.dwq.length then raiseSchedule s mem 10
          else issued s h { p.mem with
            dwq := p.mem.dwq ++ [Dwq.cmd { p.cmd with state := .deferred, ssem := 0 }], nextCmd := p.mem.nextCmd + 1
            cmds := p.mem.cmds ++ [{ p.cmd with state := .moved 0, so := 0, bytes := 0 }] }
        | .twice =>
          if 64 ≤ p.mem.dwq.length then raiseSchedule s mem 10
          else issued s h ({ p.mem with dwq := p.mem.dwq ++ [Dwq.cmd { p.cmd with state := .deferred, ssem := 0, so := 0 }] }.enqueue p.cmd)

/-- OP and OPER of a command as signature bytes (R319). -/
def Cmd.signHead (c : Cmd) : List Byte := leBytes 1 (c.u0.extractLsb' 8 8).toNat ++ leBytes 8 (c.u0.extractLsb' 38 58).toNat

/-! ## Memory reads by an engine (R234, R293, R299, R300) -/

/-- Parts of an address range of n bytes, none of which crosses a multiple of g: address modulo 2^57 and length. [DESIGN CHOICE, log 14] -/
def parts (g va n : Nat) : List (Nat × Nat) :=
  if n = 0 then []
  else (List.range ((va + n - 1) / g + 1 - va / g)).map fun i =>
    let lo := max va ((va / g + i) * g)
    (lo % 2 ^ 57, min (va + n) ((va / g + i + 1) * g) - lo)

/-- The command the current event works for. -/
def Member.curCmd (mem : Member) (s : State) : Option Cmd := mem.cmds.find? fun c => c.seq == s.cur.cmd

/-- The command steps down through its addresses: its outermost stride is negative (R43, R351). -/
def Cmd.stepsDown (c : Cmd) : Bool := dNdim c.desc != 0 && decide (dStride c.desc (dNdim c.desc) < 0)

/-- The walk ahead of a stream TLB: the page that follows an access in the command's address order, kept where it is valid (R351). -/
def State.walkAhead (s : State) (tk : Task) (mem : Member) (x : Stream) (va : Nat) (l : Leaf) : Member × State :=
  let down := ((mem.curCmd s).map Cmd.stepsDown).getD false
  let next := if down then va / l.size * l.size - 1 else (va / l.size + 1) * l.size
  if x == Stream.c || x == Stream.k || (tlbFind (mem.tlb x) tk.ctx next).isSome then (mem, s)
  else match s.walk tk.ptroot next with
    | none => (mem, s)
    | some _ =>
      let r := s.fillTlb (tk.tlbUse mem x next) (mem.tlb x) tk.ctx tk.ptroot next
      (mem.setTlb x r.1, r.2)

/-- A translation for an engine access, with the walk ahead (R351). -/
def State.engTranslate (s : State) (tk : Task) (mem : Member) (x : Stream) (va : Nat) : Option Leaf × Member × State :=
  match s.translateFor tk mem x va with
  | (none, m1, s1) => (none, m1, s1)
  | (some l, m1, s1) =>
    let r := s1.walkAhead tk m1 x va l
    (some l, r.1, r.2)

/-- A part within one page as an engine reads it: its bytes and their poison; w is the bytes of an element (R296). -/
def engReadPart (s : State) (t : Nat) (tk : Task) (mem : Member) (x : Stream) (va n w : Nat) : Acc (List (Byte × Bool)) :=
  match s.engTranslate tk mem x va with
  | (none, m1, s1) => ⟨.error ⟨s.missCause tk.ptroot va, BitVec.ofNat 64 va, 0⟩, m1, s1⟩
  | (some l, m1, s1) =>
    let pa := l.pa va
    if !l.r then ⟨.error ⟨cProtection, BitVec.ofNat 64 va, 0⟩, m1, s1⟩
    else if s1.outsideRule t tk l pa then ⟨.ok (List.replicate n (0, true)), m1, s1⟩
    else if !s1.rangeOk pa n then ⟨.error ⟨cMemory, BitVec.ofNat 64 va, 0⟩, m1, s1.noteRead pa n⟩
    else if s1.racy t tk m1 l pa then
      let f := (s1.noteRead pa n).racyBytes tk.began pa n w
      ⟨.ok (f.1.map fun b => (b, true)), m1, f.2⟩
    else
      let r := (s1.noteRead pa n).weakBytes t m1 pa n w
      ⟨.ok (r.1.map fun b => (b, false)), r.2.1, r.2.2⟩

/-- Parts read in order; the first failure ends the read. -/
def engReadParts (t : Nat) (tk : Task) (x : Stream) (w : Nat) : List (Nat × Nat) → State → Member → Acc (List (Byte × Bool))
  | [], s, mem => ⟨.ok [], mem, s⟩
  | (va, n) :: r, s, mem =>
    match engReadPart s t tk mem x va n w with
    | ⟨.error e, m1, s1⟩ => ⟨.error e, m1, s1⟩
    | ⟨.ok b, m1, s1⟩ =>
      match engReadParts t tk x w r s1 m1 with
      | ⟨.error e, m2, s2⟩ => ⟨.error e, m2, s2⟩
      | ⟨.ok c, m2, s2⟩ => ⟨.ok (b ++ c), m2, s2⟩

/-- n bytes from an address as an engine command of stream x reads them, in elements of w bytes. [DEDUCED, log 54] -/
def engRead (s : State) (t : Nat) (tk : Task) (mem : Member) (x : Stream) (va n w : Nat) : Acc (List (Byte × Bool)) :=
  engReadParts t tk x w (parts 4096 va n) s mem

/-! ## Memory writes by an engine (R235, R243, R295, R355, R364) -/

/-- What a piece of a command comes to: done, a failure that holds it at its mark, a wait for room in the side log, or a precise
fault. -/
inductive UnitEnd where
  | ok
  | hold (t : Trap)
  | full
  | fault (t : Trap)
  deriving DecidableEq, Repr

/-- A piece of a command with what it left. -/
structure UnitRes where
  res : UnitEnd
  st : State
  mem : Member
  cmd : Cmd

/-- A command of one piece after it: at its end, or at the mark where the piece left it. -/
def UnitRes.whole (u : UnitRes) (c : Cmd) : UnitRes :=
  match u.res with
  | .ok => { u with cmd := { c with mark := 1 } }
  | _ => u

/-- Runs of bytes to be written: offset and bytes, nothing for those that are not written. -/
def runs : Nat → List (Option Byte) → List (Nat × List Byte)
  | _, [] => []
  | i, none :: r => runs (i + 1) r
  | i, some b :: r =>
    match runs (i + 1) r with
    | (j, bs) :: t => if j = i + 1 then (i, b :: bs) :: t else (i, [b]) :: (j, bs) :: t
    | [] => [(i, [b])]

/-- Runs written from a physical address. -/
def State.writeRuns (s : State) (pa : Nat) (rs : List (Nat × List Byte)) : State :=
  rs.foldl (fun st r => st.wrDev (pa + r.1) r.2) s

/-- Bytes of a line with their offsets laid over the bytes of an entry. -/
def mergeBytes (old new : List (Nat × Byte)) : List (Nat × Byte) := (old.filter fun o => !(new.any fun n => n.1 == o.1)) ++ new

/-- The bytes of a part by their offset in the line. -/
def lineBytes (va : Nat) (bs : List (Option Byte)) : List (Nat × Byte) :=
  (List.range bs.length).filterMap fun i => ((bs[i]?).join).map fun b => (va % 128 + i, b)

/-- The side-log entry of a command for a line. -/
def State.ownEntry (s : State) (t m : Nat) (c : Cmd) (va : Nat) : Bool :=
  s.slog.any fun e => e.task == t && e.member == m && e.cmd == some c.seq && e.va == va / 128 * 128

/-- A part of a line whose page has no valid translation enters the side log, merged with the command's bytes of that line, with
one record per command and page (R235). -/
def logPart (s : State) (t m : Nat) (tk : Task) (mem : Member) (c : Cmd) (atCommit : Bool) (va : Nat) (bs : List (Option Byte))
    (act : LogAct := .write) : UnitRes :=
  let page := va / 4096
  let rec? := if c.pages.contains page then s
    else s.recordFault t (c.info mem ⟨cTranslation, BitVec.ofNat 64 va, 0⟩ 2 (if atCommit then 12 else c.unit) 0)
  let c1 := if c.pages.contains page then c else { c with pages := c.pages ++ [page] }
  if s.ownEntry t m c va then
    ⟨.ok, { rec? with slog := rec?.slog.map fun e =>
        if e.task == t && e.member == m && e.cmd == some c.seq && e.va == va / 128 * 128 then
          { e with bytes := mergeBytes e.bytes (lineBytes va bs) } else e }, mem, c1⟩
  else if !s.logRoom mem.core then ⟨.full, s, mem, c⟩
  else
    ⟨.ok, rec?.addLog { id := 0, core := mem.core, ctx := tk.ctx, task := t, member := m, va := va / 128 * 128
                        bytes := lineBytes va bs, act := act, cmd := some c.seq, so := 0, units := 0 }, mem, c1⟩

/-- A failed permission or ownership check of an engine write at an address: the command holds, or at a commit the bytes are dropped,
with one logged record per line (R235, R243). Lines stand beside the pages a command has reported, from 2^57 on. -/
def denied (s : State) (t : Nat) (mem : Member) (c : Cmd) (atCommit : Bool) (va : Nat) (e : Trap) : UnitRes :=
  let key := 2 ^ 57 + va / 128
  if !atCommit then ⟨.hold e, s, mem, c⟩
  else if c.pages.contains key then ⟨.ok, s, mem, c⟩
  else ⟨.ok, s.recordFault t (c.info mem e 2 12 0), mem, { c with pages := c.pages ++ [key] }⟩

/-- A write of an engine command to launch ports that enqueues nothing: BAD counts once for each port the command touches (R397). Ports
stand beside the pages a command has reported, from 2^58 on. [DEDUCED, log 38] -/
def badPorts (s : State) (mem : Member) (c : Cmd) (pa n : Nat) : UnitRes :=
  let ports := ((List.range ((pa + n - 1) / 64 + 1 - pa / 64)).map fun i => 2 ^ 58 + pa / 64 + i).filter fun k => !c.pages.contains k
  ⟨.ok, ports.foldl (fun st k => st.countPorts (64 * (k - 2 ^ 58)) 1) s, mem, { c with pages := c.pages ++ ports }⟩

/-- A part of a line written by an engine command. While an earlier part of the line waits in the side log, a later one joins it there, so that
the command's writes to a byte stay in order (R233, R235). An address that cannot be written holds the command (R385). [DEDUCED, log 40] -/
def engWritePart (s : State) (t m : Nat) (tk : Task) (mem : Member) (c : Cmd) (atCommit : Bool) (va : Nat)
    (bs : List (Option Byte)) : UnitRes :=
  if bs.all (·.isNone) then ⟨.ok, s, mem, c⟩
  else if s.ownEntry t m c va then logPart s t m tk mem c atCommit va bs
  else
    match s.engTranslate tk mem c.stream va with
    | (none, m1, s1) =>
      if s.missCause tk.ptroot va = cMemory then ⟨.hold ⟨cMemory, BitVec.ofNat 64 va, 0⟩, s1, m1, c⟩
      else logPart s1 t m tk m1 c atCommit va bs
    | (some l, m1, s1) =>
      let pa := l.pa va
      if !l.w then denied s1 t m1 c atCommit va ⟨cProtection, BitVec.ofNat 64 va, 0⟩
      else if inPorts pa then badPorts s1 m1 c pa bs.length
      else if !s1.canWrite pa bs.length then ⟨.hold ⟨cMemory, BitVec.ofNat 64 va, 0⟩, s1, m1, c⟩
      else
        match (if l.owned pa then s1.takeOwn ⟨t, m1.rank⟩ pa else some s1) with
        | none => denied (s1.splitOwn pa) t m1 c atCommit va ⟨cSharing, BitVec.ofNat 64 va, 0⟩
        | some s2 => ⟨.ok, (s2.writeRuns pa (runs 0 bs)).writtenBy s2 t m1.rank false, m1, c⟩

/-- The parts of a write in order: the first that fails ends it. -/
def engWriteParts (t m : Nat) (tk : Task) (atCommit : Bool) : List (Nat × List (Option Byte)) → State → Member → Cmd → UnitRes
  | [], s, mem, c => ⟨.ok, s, mem, c⟩
  | (va, bs) :: r, s, mem, c =>
    let p := engWritePart s t m tk mem c atCommit va bs
    match p.res with
    | .ok => engWriteParts t m tk atCommit r p.st p.mem p.cmd
    | _ => p

/-- The first part of a range that would be denied, found before anything is written, with the state it leaves: a unit that another
owner's piece refuses has split (R355). -/
def writeDenied (s : State) (t : Nat) (tk : Task) (mem : Member) (x : Stream) (ps : List (Nat × List (Option Byte))) :
    Option (Trap × State) :=
  ps.findSome? fun p =>
    if p.2.all (·.isNone) then none
    else match (s.translateFor tk mem x p.1).1 with
      | none => none
      | some l =>
        if !l.w then some (⟨cProtection, BitVec.ofNat 64 p.1, 0⟩, s)
        else if l.owned (l.pa p.1) && (s.takeOwn ⟨t, mem.rank⟩ (l.pa p.1)).isNone then
          some (⟨cSharing, BitVec.ofNat 64 p.1, 0⟩, s.splitOwn (l.pa p.1))
        else none

/-- Bytes written from an address by an engine command, line by line; outside a commit nothing is written where some part is
denied (R234, R235). -/
def engWrite (s : State) (t m : Nat) (tk : Task) (mem : Member) (c : Cmd) (atCommit : Bool) (va : Nat) (bs : List (Option Byte)) :
    UnitRes :=
  let ps := (parts 128 va bs.length).map fun p => (p.1, (bs.drop ((p.1 + 2 ^ 57 - va % 2 ^ 57) % 2 ^ 57)).take p.2)
  match (if atCommit then none else writeDenied s t tk mem c.stream ps) with
  | some e => ⟨.hold e.1, e.2, mem, c⟩
  | none => engWriteParts t m tk atCommit ps s mem c

/-! ## Progress (R219, R220, R234) -/

/-- The progress mark as a record gives it: elements of a copy, rows of the others (R234). A 4-bit sub-range moves by bytes, two
elements each. -/
def Cmd.progress (c : Cmd) : Nat :=
  match c.instr with
  | .copy .. | .fill .. => if dBits c.desc = 4 then 2 * c.mark else c.mark
  | _ => c.mark

/-- A key for the opaque timing of a command's pieces. -/
def Cmd.timeKey (c : Cmd) (s : State) : Nat := c.seq + 2 ^ 20 * s.cycle

/-- Pieces of a command worked off from its mark: at most n of them, until one does not finish. [DESIGN CHOICE, log 14] -/
def runPieces (f : State → Member → Cmd → Nat → UnitRes) (total : Nat) : Nat → State → Member → Cmd → UnitRes
  | 0, s, mem, c => ⟨.ok, s, mem, c⟩
  | n + 1, s, mem, c =>
    if total ≤ c.mark then ⟨.ok, s, mem, c⟩
    else
      let r := f s mem c c.mark
      match r.res with
      | .ok => runPieces f total n r.st r.mem { r.cmd with mark := r.cmd.mark + 1 }
      | _ => r

/-- A member with its command of the same number replaced. -/
def Member.putCmd (mem : Member) (c : Cmd) : Member := { mem with cmds := mem.cmds.map fun k => if k.seq = c.seq then c else k }

/-- Where a command stands after some pieces: done, held with its record, waiting for the side log, or at work. -/
def afterPieces (s : State) (total : Nat) (r : UnitRes) : Res :=
  let t := s.cur.task
  match r.res with
  | .ok =>
    let st := if total ≤ r.cmd.mark then CmdState.moved (if r.cmd.step = 1 then 0 else s.cycle)
      else .active (s.cycle + 1 + Config.engineCycles (r.cmd.timeKey s))
    .next (r.st.put (r.mem.putCmd { r.cmd with state := st }))
  | .hold e =>
    let s1 := r.st.recordFault t (r.cmd.info r.mem e 1 r.cmd.unit r.cmd.progress)
    .next (s1.put (r.mem.putCmd { r.cmd with state := .held e.cause }))
  | .full => .next (r.st.put (r.mem.putCmd { r.cmd with state := .waitLog }))
  | .fault e => .next ((r.st.put r.mem).raiseFor t (r.cmd.info r.mem e 0 (if r.cmd.stream == Stream.l then 1 else 2) 0))

/-- The work of an engine command in one cycle: some pieces from its mark (R220). An event that names no command at work does
nothing. [DESIGN CHOICE, log 14] -/
def workCmd (s : State) (total : Task → Member → Cmd → Nat) (f : Task → State → Member → Cmd → Nat → UnitRes) : Res :=
  onMember s fun tk mem =>
    match mem.curCmd s with
    | none => .next s
    | some c =>
      match c.state with
      | .active _ | .waitLog =>
        let n := total tk mem c
        afterPieces s n (runPieces (f tk) n (1 + Config.engineBurst (c.timeKey s)) s mem c)
      | _ => .next s

/-! ## Scratchpad writes by an engine (R221, R243) -/

/-- Bytes written from a scratchpad address: a container whose first written byte of the piece continues the command's last piece
keeps that piece's poison (R58, R221). -/
def Member.spPut : Member → Nat → Bool → List (Byte × Bool) → Member
  | mem, _, _, [] => mem
  | mem, a, keep, (b, p) :: r => Member.spPut (mem.putSpByte a b p (keep && a % 4 != 0)) (a + 1) true r

/-- A range made invalid with data 0. -/
def Member.spInvalid (mem : Member) (a len : Nat) : Member :=
  (List.range (len / 4)).foldl (fun m i => m.setCont (a / 4 + i) Container.none) mem

/-- The bytes of a range as data for memory: those of invalid or poisoned containers are not written (R58, R237). -/
def Member.spData (mem : Member) (a len : Nat) : List (Option Byte) :=
  (List.range len).map fun i =>
    let b := mem.spByte (a + i)
    if b.2.1 && !b.2.2 then some b.1 else none

/-- A piece written into the scratchpad unless a row of it is frozen (R243). -/
def spPiece (s : State) (mem : Member) (c : Cmd) (a len : Nat) (f : Member → Member) : UnitRes :=
  match frozenTrap mem a len with
  | some t => ⟨.fault t, s, mem, c⟩
  | none => ⟨.ok, s, f mem, c⟩

end Sys2Proof.Machine
end

