-- ==== Sys2Proof/Machine/Flags.lean ====
section
/-! DEFINITION. Number formats, and every rounding with the K flags it raises (R59, R68 to R86). Exact values are dyadic; a
value that is not dyadic is known by its leading bits and a sticky bit, which fixes every rounding. -/

namespace Sys2Proof.Machine

/-- K flags (R59). -/
abbrev KFlags := BitVec 6

def fIV : KFlags := 1#6
def fDZ : KFlags := 2#6
def fOF : KFlags := 4#6
def fUF : KFlags := 8#6
def fNX : KFlags := 16#6
def fNR : KFlags := 32#6

/-! ## Formats (R68, R69) -/

/-- A floating format: width, mantissa width, bias, code of the largest finite value, infinity and NaN codes, narrow (R74), and
the exponent of the largest normal binade. -/
structure Fmt where
  w : Nat
  m : Nat
  bias : Nat
  maxCode : Nat
  inf : Option Nat
  nan : Option Nat
  narrow : Bool
  emax : Int
  deriving DecidableEq, Repr

def fp32 : Fmt := ⟨32, 23, 127, 0x7F7FFFFF, some 0x7F800000, some 0x7FC00000, false, 127⟩
def fp16 : Fmt := ⟨16, 10, 15, 0x7BFF, some 0x7C00, some 0x7E00, false, 15⟩
def bf16 : Fmt := ⟨16, 7, 127, 0x7F7F, some 0x7F80, some 0x7FC0, false, 127⟩
def e4m3 : Fmt := ⟨8, 3, 7, 0x7E, none, some 0x7F, true, 8⟩
def e5m2 : Fmt := ⟨8, 2, 15, 0x7B, some 0x7C, some 0x7E, true, 15⟩
def e3m2 : Fmt := ⟨6, 2, 3, 0x1F, none, none, true, 4⟩
def e2m3 : Fmt := ⟨6, 3, 1, 0x1F, none, none, true, 2⟩
def e2m1 : Fmt := ⟨4, 1, 1, 0x7, none, none, true, 2⟩

/-- The canonical NaN of a format that has one. -/
def Fmt.nanCode (f : Fmt) : Nat := f.nan.getD 0

/-- A decoded value: NaN, an infinity, or (-1)^neg x m x 2^e. -/
inductive FVal where
  | nan
  | inf (neg : Bool)
  | fin (neg : Bool) (m : Nat) (e : Int)
  deriving DecidableEq, Repr

/-- The value of a code (R68). [DEDUCED, log 10] -/
def Fmt.decode (f : Fmt) (code : Nat) : FVal :=
  let neg := code / 2 ^ (f.w - 1) % 2 == 1
  let mag := code % 2 ^ (f.w - 1)
  let e := mag / 2 ^ f.m
  let m := mag % 2 ^ f.m
  if mag ≤ f.maxCode then
    if e = 0 then .fin neg m (1 - (f.bias : Int) - f.m) else .fin neg (m + 2 ^ f.m) ((e : Int) - f.bias - f.m)
  else if f.inf = some mag then .inf neg
  else .nan

/-- The value of an E8M0 code (R68). -/
def decodeE8M0 (code : Nat) : FVal := if code = 255 then .nan else .fin false 1 ((code : Int) - 127)

/-- The sign bit of a code of a format. -/
def Fmt.signBit (f : Fmt) (neg : Bool) : Nat := if neg then 2 ^ (f.w - 1) else 0

/-- Bits of a number: 0 for 0, else floor(log2) + 1. -/
def bitLen (n : Nat) : Nat := if n = 0 then 0 else Nat.log2 n + 1

/-- floor(log2) of a nonzero dyadic magnitude. -/
def lg (m : Nat) (e : Int) : Int := (bitLen m : Int) - 1 + e

/-- A number times 2 to an integer, floored. -/
def scaleNat (m : Nat) (e : Int) : Nat := if 0 ≤ e then m * 2 ^ e.toNat else m / 2 ^ (-e).toNat

/-! ## round_fmt and round_int (R75, R76) -/

/-- A magnitude to round: m x 2^e, or strictly between that and (m + 1) x 2^e when sticky. -/
structure Mag where
  m : Nat
  e : Int
  sticky : Bool
  deriving DecidableEq, Repr

/-- n, fr > 0, and whether the magnitude rounds up, for spacing 2^qe (R75, R76). -/
def roundUp (a : Mag) (neg : Bool) (qe : Int) (rm rb : Nat) : Nat × Bool × Bool :=
  let k := (qe - a.e).toNat
  let n := scaleNat a.m (a.e - qe)
  let rem := if a.e < qe then a.m % 2 ^ k else 0
  let inexact := rem != 0 || a.sticky
  let up := match rm with
    | 0 => decide (2 ^ k < 2 * rem) || (decide (2 * rem = 2 ^ k) && decide (k ≠ 0) && (a.sticky || n % 2 == 1))
    | 1 => false
    | 2 => inexact && neg
    | 3 => inexact && !neg
    | _ => decide (2 ^ 32 ≤ rem * 2 ^ 32 / 2 ^ k + rb)
  (n, inexact, up && inexact)

/-- What an overflow delivers (R75). -/
def overflowCode (f : Fmt) (neg : Bool) (rm : Nat) (sat : Bool) : Nat :=
  let s := f.signBit neg
  if f.narrow && sat then s + f.maxCode
  else match f.inf with
    | some i => if rm = 0 ∨ 4 ≤ rm ∨ (rm = 3 ∧ !neg) ∨ (rm = 2 ∧ neg) then s + i else s + f.maxCode
    | none => match f.nan with
      | some c => c
      | none => s + f.maxCode

/-- round_fmt of a nonzero magnitude (R75). -/
def roundMag (a : Mag) (neg : Bool) (f : Fmt) (rm : Nat) (sat : Bool) (rb : Nat) : Nat × KFlags :=
  let tiny : Int := 1 - (f.bias : Int)
  let l := lg a.m a.e
  let e := max l tiny
  let r := roundUp a neg (e - f.m) rm rb
  let code := (e + f.bias - 1).toNat * 2 ^ f.m + r.1 + (if r.2.2 then 1 else 0)
  let fl : KFlags := (if r.2.1 then fNX else 0) ||| (if r.2.1 && decide (l < tiny) then fUF else 0)
  if code > f.maxCode then (overflowCode f neg rm sat, fl ||| fOF ||| fNX) else (f.signBit neg + code, fl)

/-- round_fmt (R75): the code and the flags. -/
def roundFmt (x : FVal) (f : Fmt) (rm : Nat) (sat : Bool) (rb : Nat) : Nat × KFlags :=
  match x with
  | .nan => match f.nan with
    | some c => (c, 0)
    | none => (0, fIV)
  | .inf neg =>
    match f.inf, f.narrow && sat with
    | some i, false => (f.signBit neg + i, 0)
    | _, _ =>
      match f.nan, sat with
      | some c, false => (c, fIV)
      | _, _ => (f.signBit neg + f.maxCode, fIV)
  | .fin neg 0 _ => (f.signBit neg, 0)
  | .fin neg m e => roundMag ⟨m, e, false⟩ neg f rm sat rb

/-- The least and greatest integer of w bits. -/
def intLo (w : Nat) (sg : Bool) : Int := if sg then -(2 ^ (w - 1) : Int) else 0
def intHi (w : Nat) (sg : Bool) : Int := if sg then 2 ^ (w - 1) - 1 else 2 ^ w - 1

/-- sat_int (R76). -/
def satInt (v : Int) (w : Nat) (sg : Bool) : Int := min (max v (intLo w sg)) (intHi w sg)

/-- round_int (R76). -/
def roundInt (x : FVal) (w : Nat) (sg : Bool) (rm rb : Nat) : Int × KFlags :=
  match x with
  | .nan => (0, fIV)
  | .inf neg => (if neg then intLo w sg else intHi w sg, fIV)
  | .fin neg m e =>
    let r := roundUp ⟨m, e, false⟩ neg 0 rm rb
    let n : Int := r.1 + (if r.2.2 then 1 else 0)
    let y := if neg then -n else n
    if y < intLo w sg then (intLo w sg, fIV)
    else if intHi w sg < y then (intHi w sg, fIV)
    else (y, if r.2.1 then fNX else 0)

/-- The exact value of an integer. -/
def ofInt (i : Int) : FVal := .fin (decide (i < 0)) i.natAbs 0

/-! ## Exact arithmetic and farith (R77) -/

/-- The sign of a value. -/
def FVal.neg : FVal → Bool
  | .nan => false
  | .inf n => n
  | .fin n _ _ => n

/-- A value with its sign changed; NaN stays NaN. -/
def FVal.negate : FVal → FVal
  | .nan => .nan
  | .inf n => .inf (!n)
  | .fin n m e => .fin (!n) m e

/-- The value is a zero. -/
def FVal.isZero : FVal → Bool
  | .fin _ 0 _ => true
  | _ => false

/-- The value is an infinity. -/
def FVal.isInf : FVal → Bool
  | .inf _ => true
  | _ => false

/-- The value is NaN. -/
def FVal.isNan : FVal → Bool
  | .nan => true
  | _ => false

/-- The signed integer of a finite value in units of 2^u, u at most its exponent. -/
def finInt (neg : Bool) (m : Nat) (e u : Int) : Int :=
  let v : Int := m * 2 ^ (e - u).toNat
  if neg then -v else v

/-- The exact sum of two finite values as a signed number of units of 2^u. -/
def addFin (n1 : Bool) (m1 : Nat) (e1 : Int) (n2 : Bool) (m2 : Nat) (e2 : Int) : Int × Int :=
  let u := min e1 e2
  (finInt n1 m1 e1 u + finInt n2 m2 e2 u, u)

/-- The exact product of two values that are not NaN and not an infinity with a zero. -/
def mulVal (a b : FVal) : FVal :=
  match a, b with
  | .fin n1 m1 e1, .fin n2 m2 e2 => .fin (n1 != n2) (m1 * m2) (e1 + e2)
  | _, _ => .inf (a.neg != b.neg)

/-- An infinity and a zero meet in a product. -/
def badProduct (a b : FVal) : Bool := (a.isInf && b.isZero) || (a.isZero && b.isInf)

/-- The end of farith for an addition of u and v, neither of them NaN (R77). -/
def addRound (u v : FVal) (f : Fmt) (rm rb : Nat) : Nat × KFlags :=
  match u, v with
  | .inf n, .inf k => if n = k then roundFmt (.inf n) f rm false rb else (f.nanCode, fIV)
  | .inf n, _ => roundFmt (.inf n) f rm false rb
  | _, .inf k => roundFmt (.inf k) f rm false rb
  | .fin n1 m1 e1, .fin n2 m2 e2 =>
    let z := addFin n1 m1 e1 n2 m2 e2
    if z.1 = 0 then
      if m1 = 0 ∧ m2 = 0 ∧ n1 = n2 then (f.signBit n1, 0) else (f.signBit (rm == 2), 0)
    else roundFmt (.fin (decide (z.1 < 0)) z.1.natAbs z.2) f rm false rb
  | _, _ => (f.nanCode, 0)

/-- farith of an addition (R77). -/
def farithAdd (a b : FVal) (f : Fmt) (rm rb : Nat) : Nat × KFlags :=
  if a.isNan || b.isNan then (f.nanCode, 0) else addRound a b f rm rb

/-- farith of a multiplication (R77). -/
def farithMul (a b : FVal) (f : Fmt) (rm rb : Nat) : Nat × KFlags :=
  if a.isNan || b.isNan then (f.nanCode, 0)
  else if badProduct a b then (f.nanCode, fIV)
  else roundFmt (mulVal a b) f rm false rb

/-- farith of a fused multiply-add (R77). -/
def farithFma (a b c : FVal) (f : Fmt) (rm rb : Nat) : Nat × KFlags :=
  if a.isNan || b.isNan || c.isNan then (f.nanCode, 0)
  else if badProduct a b then (f.nanCode, fIV)
  else addRound (mulVal a b) c f rm rb

/-! ## Stochastic bits (R78, R79) -/

/-- One round of rng64 (R78). -/
def rngRound (x k : W64) : W64 :=
  let x1 := x + k
  let x2 := x1 ^^^ (x1 >>> 31)
  let x3 := x2 * 0xD6E8FEB86659FD93#64
  x3 ^^^ (x3 >>> 29)

/-- rng64 (R78). -/
def rng64 (key ctr : W64) : W64 :=
  let g := 0x9E3779B97F4A7C15#64
  rngRound (rngRound (rngRound (rngRound ctr key) (key + g)) (key + g + g)) (key + g + g + g)

/-- The key of an operation's draws: the first two levels of sr_bits (R79). -/
def srKey (seed : W64) (rank : Nat) (k : RngKey) : W64 :=
  rng64 (rng64 seed (k.addr * 8 + BitVec.ofNat 64 rank)) (k.lc0 ++ k.lc1)

/-- sr_bits of element i under a key (R79). -/
def srBits (key : W64) (i : Nat) : Nat := (rng64 key (BitVec.ofNat 64 i)).toNat % 2 ^ 32

/-! ## Special functions (R85) -/

/-- Bits below bit k of the integer square root of n. -/
def isqrtBits (n : Nat) : Nat → Nat → Nat
  | 0, r => r
  | k + 1, r => if (r + 2 ^ k) * (r + 2 ^ k) ≤ n then isqrtBits n k (r + 2 ^ k) else isqrtBits n k r

/-- floor of the square root. -/
def isqrt (n : Nat) : Nat := isqrtBits n (bitLen n / 2 + 1) 0

/-- The quotient of two nonzero magnitudes. -/
def divMag (m1 : Nat) (e1 : Int) (m2 : Nat) (e2 : Int) : Mag :=
  let k := 72 + bitLen m2
  ⟨m1 * 2 ^ k / m2, e1 - e2 - k, m1 * 2 ^ k % m2 != 0⟩

/-- The square root of a nonzero magnitude. -/
def sqrtMag (m : Nat) (e : Int) : Mag :=
  let odd := e % 2 ≠ 0
  let n := (if odd then 2 * m else m) * 4 ^ 72
  let r := isqrt n
  ⟨r, (if odd then e - 1 else e) / 2 - 72, r * r != n⟩

/-- 1 over the square root of a nonzero magnitude. -/
def rsqrtMag (m : Nat) (e : Int) : Mag :=
  let odd := e % 2 ≠ 0
  let d := if odd then 2 * m else m
  let k := 72 + bitLen d
  let r := isqrt (4 ^ k / d)
  ⟨r, -((if odd then e - 1 else e) / 2) - k, r * r * d != 4 ^ k⟩

/-- Terms n, n - 1, ..., 1 of the series of ln 2 in units of 2^-p: at most n + 2 below it. -/
def ln2Terms (p : Nat) : Nat → Nat
  | 0 => 0
  | n + 1 => 2 ^ p / ((n + 1) * 2 ^ (n + 1)) + ln2Terms p n

/-- ln 2 in units of 2^-p, from below; at most p + 2 units short. -/
def ln2 (p : Nat) : Nat := ln2Terms p p

/-- n further terms of the exponential series of y, the k-th being t, all in units of 2^-p. -/
def expTerms (p y : Nat) : Nat → Nat → Nat → Nat
  | 0, _, t => t
  | n + 1, k, t => t + expTerms p y n (k + 1) (t * y / ((k + 1) * 2 ^ p))

/-- 2^(f / 2^d) for f below 2^d in units of 2^-p, from below; at most 8 p + 64 units short. -/
def exp2Low (p f d : Nat) : Nat := expTerms p (f * ln2 p / 2 ^ d) p 0 (2 ^ p)

/-- The first 72 fraction bits of 2^(f / 2^d), once a precision of the list fixes them. -/
def exp2Bits (f d : Nat) : List Nat → Nat
  | [] => exp2Low 128 f d / 2 ^ 56
  | p :: r =>
    let lo := exp2Low p f d
    if lo / 2 ^ (p - 72) = (lo + 8 * p + 64) / 2 ^ (p - 72) then lo / 2 ^ (p - 72) else exp2Bits f d r

/-- 2 to a finite value that is no integer: its leading bits. A value beyond every format keeps its side of the range. -/
def exp2Mag (neg : Bool) (m : Nat) (e : Int) : Mag :=
  if 9 ≤ lg m e then (if neg then ⟨1, -1000, true⟩ else ⟨1, 1000, true⟩)
  else
    let d := (-e).toNat
    let n := m / 2 ^ d
    let f := m % 2 ^ d
    if neg then ⟨exp2Bits (2 ^ d - f) d [160, 384, 1024], -(n : Int) - 1 - 72, true⟩
    else ⟨exp2Bits f d [160, 384, 1024], (n : Int) - 72, true⟩

/-- n terms of the series of the inverse hyperbolic tangent, z^(2k+1) / (2k+1), in units of 2^-p; w is z squared. -/
def atanhTerms (p w : Nat) : Nat → Nat → Nat → Nat
  | 0, _, _ => 0
  | n + 1, k, t => t / (2 * k + 1) + atanhTerms p w n (k + 1) (t * w / 2 ^ p)

/-- log2 of m x 2^e, m not a power of two, in units of 2^-192, from below. -/
def log2Low (m : Nat) (e : Int) : Int :=
  let p := 448
  let l := bitLen m - 1
  let b := 2 ^ l
  let z := (m - b) * 2 ^ p / (m + b)
  let ln := 2 * atanhTerms p (z * z / 2 ^ p) 160 0 z
  (l + e) * 2 ^ 192 + (ln * 2 ^ 192 / ln2 p : Nat)

/-- log2 of m x 2^e, m not a power of two: sign and leading bits. -/
def log2Mag (m : Nat) (e : Int) : Bool × Mag :=
  let v := log2Low m e
  if v < 0 then (true, ⟨(v + 1).natAbs, -192, true⟩) else (false, ⟨v.natAbs, -192, true⟩)

/-- The number is a power of two. -/
def isPow2 (m : Nat) : Bool := m != 0 && 2 ^ (bitLen m - 1) == m

/-- VDIV (R85). -/
def spDiv (a b : FVal) (f : Fmt) (rm rb : Nat) : Nat × KFlags :=
  let s := a.neg != b.neg
  match a, b with
  | .nan, _ => (f.nanCode, 0)
  | _, .nan => (f.nanCode, 0)
  | .inf _, .inf _ => (f.nanCode, fIV)
  | .inf _, .fin _ _ _ => roundFmt (.inf s) f rm false rb
  | .fin _ _ _, .inf _ => (f.signBit s, 0)
  | .fin _ 0 _, .fin _ 0 _ => (f.nanCode, fIV)
  | .fin _ 0 _, .fin _ _ _ => (f.signBit s, 0)
  | .fin _ _ _, .fin _ 0 _ => ((roundFmt (.inf s) f rm false rb).1, fDZ)
  | .fin _ m1 e1, .fin _ m2 e2 => roundMag (divMag m1 e1 m2 e2) s f rm false rb

/-- VSQRT (R85). -/
def spSqrt (x : FVal) (f : Fmt) (rm rb : Nat) : Nat × KFlags :=
  match x with
  | .nan => (f.nanCode, 0)
  | .fin n 0 _ => (f.signBit n, 0)
  | .inf false => roundFmt x f rm false rb
  | .fin false m e => roundMag (sqrtMag m e) false f rm false rb
  | _ => (f.nanCode, fIV)

/-- VSQRTC (R178). -/
def spSqrtc (x : FVal) (f : Fmt) (rm rb : Nat) : Nat × KFlags :=
  if !x.isNan && (x.neg || x.isZero) then (f.nanCode, fNR) else spSqrt x f rm rb

/-- VRSQRT (R85). -/
def spRsqrt (x : FVal) (f : Fmt) (rm rb : Nat) : Nat × KFlags :=
  match x with
  | .nan => (f.nanCode, 0)
  | .fin n 0 _ => ((roundFmt (.inf n) f rm false rb).1, fDZ)
  | .inf false => (0, 0)
  | .fin false m e => roundMag (rsqrtMag m e) false f rm false rb
  | _ => (f.nanCode, fIV)

/-- VEXP2 (R85, R177). -/
def spExp2 (x : FVal) (f : Fmt) (rm rb : Nat) : Nat × KFlags :=
  match x with
  | .nan => (f.nanCode, 0)
  | .inf true => (0, 0)
  | .inf false => roundFmt x f rm false rb
  | .fin neg m e =>
    if 0 ≤ e ∨ m % 2 ^ (-e).toNat = 0 then
      let n : Int := scaleNat m e
      if n > 4096 then roundMag (if neg then ⟨1, -1000, true⟩ else ⟨1, 1000, true⟩) false f rm false rb
      else roundMag ⟨1, if neg then -n else n, false⟩ false f rm false rb
    else roundMag (exp2Mag neg m e) false f rm false rb

/-- VLOG2 (R85, R177). -/
def spLog2 (x : FVal) (f : Fmt) (rm rb : Nat) : Nat × KFlags :=
  match x with
  | .nan => (f.nanCode, 0)
  | .fin _ 0 _ => ((roundFmt (.inf true) f rm false rb).1, fDZ)
  | .inf false => roundFmt x f rm false rb
  | .fin false m e =>
    if isPow2 m then roundFmt (ofInt (lg m e)) f rm false rb
    else
      let r := log2Mag m e
      roundMag r.2 r.1 f rm false rb
  | _ => (f.nanCode, fIV)

/-- VGUMB (R179). -/
def spGumb (x : FVal) (f : Fmt) (rm rb : Nat) : Nat × KFlags :=
  let s1 := spLog2 x f rm rb
  let s2 := spLog2 (f.decode s1.1).negate f rm rb
  let r := match f.decode s2.1 with
    | .nan => f.nanCode
    | v => (roundFmt v.negate f rm false rb).1
  (r, s1.2 ||| s2.2)

/-! ## Exponents (R86) -/

/-- expo of a value that is not NaN; NaN gives 2^31 - 1 too, with IV (R86). -/
def expo (x : FVal) : Int × KFlags :=
  match x with
  | .nan => (2147483647, fIV)
  | .inf _ => (2147483647, 0)
  | .fin _ 0 _ => (-2147483648, 0)
  | .fin _ m e => (lg m e, 0)

/-- scale2 (R86). -/
def scale2 (x : FVal) (n : Int) (f : Fmt) (rm rb : Nat) : Nat × KFlags :=
  match x with
  | .fin neg m e => if m = 0 then (f.signBit neg, 0) else roundMag ⟨m, e + n, false⟩ neg f rm false rb
  | _ => roundFmt x f rm false rb

/-! ## MX blocks and groups (R80 to R83) -/

/-- Magnitude order of two finite magnitudes. -/
def magLe (m1 : Nat) (e1 : Int) (m2 : Nat) (e2 : Int) : Bool :=
  let u := min e1 e2
  decide (m1 * 2 ^ (e1 - u).toNat ≤ m2 * 2 ^ (e2 - u).toNat)

/-- max of floor(log2 |x|) over the nonzero finite values of a list. -/
def maxLg (xs : List FVal) : Option Int :=
  xs.foldl (fun o x => match x with
    | .fin _ m e => if m = 0 then o else some (match o with
      | some b => max b (lg m e)
      | none => lg m e)
    | _ => o) none

/-- mx_quant (R81): the scale code, the element codes, the flags. rb gives the stochastic bits of an element. -/
def mxQuant (xs : List FVal) (f : Fmt) (rm : Nat) (sat : Bool) (rb : Nat → Nat) : Nat × List Nat × KFlags :=
  if xs.any fun x => x.isNan || x.isInf then (255, xs.map fun _ => 0, fIV)
  else
    let se : Int := match maxLg xs with
      | none => -127
      | some l => min (max (l - f.emax) (-127)) 127
    let rs := (List.range xs.length).map fun j =>
      match xs.getD j .nan with
      | .fin n m e => roundFmt (.fin n m (e - se)) f rm sat (rb j)
      | x => roundFmt x f rm sat (rb j)
    ((se + 127).toNat, rs.map (·.1), rs.foldl (fun a r => a ||| r.2) 0)

/-- The exact sum of finite values, in units of 2^u for the least exponent u. -/
def sumFin (xs : List FVal) : Int × Int :=
  xs.foldl (fun s x => match x with
    | .fin n m e => addFin (decide (s.1 < 0)) s.1.natAbs s.2 n m e
    | _ => s) (0, 0)

/-- A product cut to 47 bits below the leading bit m of its group (R82). -/
def cutProduct (m : Int) (x : FVal) : FVal :=
  match x with
  | .fin n k e => .fin n (scaleNat k (e - (m - 47))) (m - 47)
  | _ => x

/-- mma_group (R82); wide says that an operand format is FP16 or BF16. -/
def mmaGroup (acc : FVal) (ab : List (FVal × FVal)) (wide : Bool) (sa sb : Nat) : Nat × KFlags :=
  if sa = 255 ∨ sb = 255 then (fp32.nanCode, 0)
  else if acc.isNan || ab.any fun p => p.1.isNan || p.2.isNan then (fp32.nanCode, 0)
  else if ab.any fun p => badProduct p.1 p.2 then (fp32.nanCode, fIV)
  else
    let ps := ab.map fun p => mulVal p.1 p.2
    let infs := (acc :: ps).filter FVal.isInf
    match infs with
    | i :: rest => if rest.all fun j => j == i then roundFmt i fp32 0 false 0 else (fp32.nanCode, fIV)
    | [] =>
      let qs := if wide then match maxLg ps with
          | some m => ps.map (cutProduct m)
          | none => ps
        else ps
      let t := sumFin qs
      let allNeg := !ps.isEmpty && ps.all fun p => p.isZero && p.neg
      let sum : FVal := if t.1 = 0 then .fin allNeg 0 0
        else .fin (decide (t.1 < 0)) t.1.natAbs (t.2 + sa - 127 + sb - 127)
      farithAdd acc sum fp32 0 0

/-- One level of tree_sum (R84): neighbours added, with the flags. -/
def treeLevel (f : Fmt) (rm : Nat) (key : W64) (lvl : Nat) : Nat → List Nat → List Nat × KFlags
  | i, a :: b :: r =>
    let z := farithAdd (f.decode a) (f.decode b) f rm (srBits key (lvl * 1024 + i))
    let t := treeLevel f rm key lvl (i + 1) r
    (z.1 :: t.1, z.2 ||| t.2)
  | _, r => (r, 0)

/-- tree_sum over at most 2^n codes (R84). -/
def treeSum (f : Fmt) (rm : Nat) (key : W64) : Nat → Nat → List Nat → Nat × KFlags
  | 0, _, xs => (xs.headD 0, 0)
  | n + 1, lvl, xs =>
    if xs.length ≤ 1 then (xs.headD 0, 0)
    else
      let r := treeLevel f rm key lvl 0 xs
      let t := treeSum f rm key n (lvl + 1) r.1
      (t.1, r.2 ||| t.2)

end Sys2Proof.Machine
end

