-- ==== Sys2Proof/Machine/Viaduct.lean ====
section
/-! DEFINITION. The viaduct: bundles and their moves (R100 to R106, R155 to R160), the chain word (R196, R197), the arrival of
moves and the results of the stations (R155, R157, R176). -/

namespace Sys2Proof.Machine

/-- A source port of a move (R101). -/
inductive Src where
  | null
  | const (n : Nat)
  | v (n : Nat)
  | q (k : Nat)
  | mb (n : Nat)
  | acc (t h j : Nat)
  | win (w code : Nat)
  | row (bank row : Nat)
  deriving DecidableEq, Repr

/-- The source a port number names. -/
def srcOf (p : BitVec 10) : Option Src :=
  let n := p.toNat
  if n = 0 then some .null
  else if within n 0x020 32 then some (.const (n - 0x020))
  else if within n 0x040 32 then some (.v (n - 0x040))
  else if within n 0x060 8 then some (.q (n - 0x060))
  else if within n 0x068 4 then some (.mb (n - 0x068))
  else if within n 0x070 16 then some (.acc ((n - 0x070) / 4) ((n - 0x070) / 2 % 2) (n % 2))
  else if within n 0x100 128 then some (.win ((n - 0x100) / 8) (n % 8))
  else if within n 0x180 640 then some (.row ((n - 0x180) / 80) ((n - 0x180) % 80))
  else none

/-- The destination a port number names, with the trigger's OP (R102). -/
def dstOf (p : BitVec 10) (op : BitVec 7) : Option Dest :=
  let n := p.toNat
  if n = 0 then some .none
  else if within n 0x040 32 then some (.v (n - 0x040))
  else if within n 0x060 16 then some (if n % 2 = 0 then .la ((n - 0x060) / 2) else .lb ((n - 0x060) / 2))
  else if within n 0x100 128 then some (.trig ((n - 0x100) / 16) op (BitVec.ofNat 4 n))
  else if within n 0x180 640 then some (.row ((n - 0x180) / 80) ((n - 0x180) % 80))
  else none

/-- The station of a destination, none for null. -/
def Dest.station : Dest → Option Nat
  | .none => Option.none
  | .v n => some (n / 4)
  | .la k => some k
  | .lb k => some k
  | .trig k _ _ => some k
  | .row b _ => some b

/-- Two destinations are one place (R158). -/
def Dest.same : Dest → Dest → Bool
  | .v n, .v m => n == m
  | .la j, .la k => j == k
  | .lb j, .lb k => j == k
  | .trig j _ _, .trig k _ _ => j == k
  | .row b r, .row c q => b == c && r == q
  | _, _ => false

/-- The station at which a source enters, none where it enters at its destination (R101). -/
def Src.station (mem : Member) : Src → Option Nat
  | .null => none
  | .const _ => none
  | .mb _ => none
  | .v n => some (n / 4)
  | .q k => some k
  | .acc _ _ _ => some 3
  | .win w _ => (mem.win.toList[w]?).map (·.bank)
  | .row b _ => some b

/-- The hops of a move on a lane from station a to b (R106). -/
def hops (lane a b : Nat) : Nat := if lane < 4 then (b + 8 - a) % 8 else (a + 8 - b) % 8

/-- The lane segments of a move that issues in cycle c (R106). -/
def segsOf (lane a h c : Nat) : List Seg :=
  (List.range h).map fun i => ⟨lane, if lane < 4 then (a + i) % 8 else (a + 8 - i % 8) % 8, c + i⟩

/-- A move slot taken apart: source, destination, modifier and the move without its data. -/
structure SlotMove where
  src : Src
  dest : Dest
  mod : Nat
  arrive : Nat
  segs : List Seg
  deriving DecidableEq, Repr

/-- A modifier a source may carry (R105). -/
def modOk (src : Src) (op : Nat) : Bool :=
  match src with
  | .mb _ => op < 4 || 0x40 ≤ op
  | _ => op == 0 || 0x40 ≤ op

/-- A slot in cycle c: none where it is illegal, some none where it is empty (R100 to R107). The null port as a destination has no
station, so a move to it takes no hop and holds no lane segment; the spec gives neither (R106, R157). [DESIGN CHOICE, log 67] -/
def slotMove (mem : Member) (c : Nat) (sl : Slot) : Option (Option SlotMove) :=
  if sl.src = 0#10 ∧ sl.dst = 0#10 then (if sl.op = 0#7 then some none else none)
  else match srcOf sl.src, dstOf sl.dst sl.op with
    | some src, some dest =>
      let legal := match dest with
        | .trig k op x => (decodeOp (BitVec.ofNat 3 k) op x).isSome
        | _ => modOk src sl.op.toNat
      if !legal then none
      else
        let lane := sl.lane.toNat
        let a := ((src.station mem).orElse fun _ => dest.station).getD 0
        let h := hops lane a (dest.station.getD a)
        let mod := match dest with
          | .trig _ _ _ => 0
          | _ => sl.op.toNat
        some (some ⟨src, dest, mod, c + 1 + h, segsOf lane a h c⟩)
    | _, _ => none

/-! ## Windows as sources (R103, R20, R22) -/

/-- The change of CUR by a stride code (R103). -/
def cursorDelta (w : Window) (code : Nat) : Int :=
  match code with
  | 0 => 0
  | 1 => 1
  | 2 => 2
  | 3 => 4
  | 4 => 8
  | 5 => w.rows
  | 6 => -1
  | _ => 16

/-- The window of a number. -/
def Member.window (mem : Member) (n : Nat) : Window := (mem.win.toList[n]?).getD (Window.closed 0)

/-- The tensor row a read of a window expects. -/
def Window.expected (w : Window) : Nat := w.cur / w.rows

/-- The tag and state of the slot that holds tensor row t. -/
def Window.slot (w : Window) (t : Nat) : Nat × Fill := w.slots.getD (t % 2 ^ 32 % w.depth) (0, .empty)

/-- The slot of tensor row t is present with that tag. -/
def Window.holds (w : Window) (t : Nat) : Bool := w.slot t == (t % 2 ^ 32, Fill.present)

/-- ADDR of a window tag record (R330). -/
def Window.tagAddr (w : Window) : W64 :=
  let t := w.expected
  let p := match (w.slot t).2 with
    | .present => (w.slot t).1
    | _ => 2 ^ 32 - 1
  BitVec.ofNat 64 (t % 2 ^ 32 + p % 2 ^ 32 * 2 ^ 32)

/-- The scratchpad row, bank x 80 + row, that a read of a window delivers (R103). -/
def Window.rowNow (w : Window) : Nat := w.bank * 80 + w.first + (w.expected % 2 ^ 32 % w.depth) * w.rows + w.cur % w.rows

/-- The sum of the cursor moves of window n in a bundle. -/
def windowDelta (mem : Member) (ms : List SlotMove) (n : Nat) : Int :=
  (ms.map fun m => match m.src with
    | .win k c => if k = n then cursorDelta (mem.window n) c else 0
    | _ => 0).sum

/-- The windows a bundle reads. -/
def windowsRead (ms : List SlotMove) : List Nat :=
  ms.filterMap fun m => match m.src with
    | .win k _ => some k
    | _ => none

/-- The cursors of the windows a bundle reads, moved. -/
def moveCursors (mem : Member) (ms : List SlotMove) : Member :=
  { mem with win := Vector.ofFn fun i : Fin 16 =>
      let w := mem.win[i]
      { w with cur := ((w.cur : Int) + windowDelta mem ms i.val).toNat } }

/-! ## The checks of a bundle (R477) -/

/-- The task address of a bank row. -/
def rowAddr (bank row : Nat) : Nat := bank * 0xA000 + row * 512

/-- The mark of st6.q forbids the move (R176). -/
def markBad (mem : Member) (m : SlotMove) : Bool :=
  match m.src, m.dest, mem.mark with
  | .q 6, .v r, some (p, n) => decide (r % n ≠ p)
  | _, _, _ => false

/-- Two moves of one list meet at a destination in one cycle. -/
def meetWithin : List SlotMove → Bool
  | [] => false
  | m :: r => (r.any fun k => m.dest.same k.dest && m.arrive == k.arrive) || meetWithin r

/-- Item 1 of R477 for a bundle whose slots are legal by themselves. -/
def bundleIllegal (mem : Member) (ms : List SlotMove) : Bool :=
  ((windowsRead ms).any fun n => !(mem.window n).opened || decide (((mem.window n).cur : Int) + windowDelta mem ms n < 0))
    || ms.any (markBad mem) || meetWithin ms

/-- The bank rows a move reads and writes, as bank x 80 + row. -/
def SlotMove.bankRows (m : SlotMove) : List Nat :=
  (match m.src with
    | .row b r => [b * 80 + r]
    | _ => []) ++
  (match m.dest with
    | .row b r => [b * 80 + r]
    | _ => [])

/-- Item 2 of R477: bounds, frozen rows, and windows below HEAD. -/
def bundleNominal (tk : Task) (mem : Member) (ms : List SlotMove) : Option Trap :=
  let out := (ms.flatMap (·.bankRows)).find? fun r => !inAlloc tk.spadN (rowAddr (r / 80) (r % 80))
  let frozen := ms.any fun m => match m.dest with
    | .row b r => mem.frozen.contains (b * 80 + r)
    | _ => false
  let below := (windowsRead ms).find? fun n => decide ((mem.window n).expected < (mem.window n).head)
  match out with
  | some r => some ⟨cBounds, BitVec.ofNat 64 (rowAddr (r / 80) (r % 80)), 0⟩
  | none =>
    if frozen then some ⟨cSchedule, 0, 11⟩
    else below.map fun n => ⟨cWindowTag, (mem.window n).tagAddr, n⟩

/-- The remaining triggers and the row write of a chain row, as destinations with their arrival cycles (R196, R197). -/
def chainEvents : List (Nat × BitVec 7) → BitVec 4 → Nat → Nat → List (Dest × Nat)
  | [], _, dest, c => [(.row (dest / 80) (dest % 80), c)]
  | (st, op) :: r, x, dest, c =>
    let lat := [2, 2, 4, 4, 14, 6, 3, 2].getD st 0
    (.trig st op x, c) :: chainEvents r x dest (c + lat + 1)

/-- The latency of a station's unit (R52). -/
def latency (st : Nat) : Nat := [2, 2, 4, 4, 14, 6, 3, 2].getD st 0

/-- What is still to reach a destination: moves in flight and chain rows. -/
def Member.pending (mem : Member) : List (Dest × Nat) :=
  (mem.moves.map fun m => (m.dest, m.arrive)) ++ mem.chains.flatMap fun c => chainEvents c.stages c.x c.dest c.arrive

/-- Items 3 and 4 of R477 for a bundle: cause, ADDR and AUX of the first check that fails. -/
def bundleChecks (cycle : Nat) (mem : Member) (ms : List SlotMove) : Option Trap :=
  let tag := (windowsRead ms).find? fun n => !(mem.window n).holds (mem.window n).expected
  let unready := ms.any fun m => match m.src with
    | .acc t _ _ => decide (cycle < mem.accReady.toList.getD t 0)
    | _ => false
  let segs := ms.flatMap (·.segs)
  let flying := mem.moves.flatMap (·.segs)
  match tag with
  | some n => some ⟨cWindowTag, (mem.window n).tagAddr, n⟩
  | none =>
    if unready then some ⟨cSchedule, 0, 2⟩
    else if !segs.Nodup || segs.any flying.contains then some ⟨cSchedule, 0, 4⟩
    else if ms.any fun m => mem.pending.any fun p => m.dest.same p.1 && m.arrive == p.2 then some ⟨cSchedule, 0, 7⟩
    else none

/-! ## Reading sources (R156, R104, R105) -/

/-- Element (m, n) of tile t: the accumulators list no element equal to the entry value +0 (R29). -/
def Member.accAt (mem : Member) (t m n : Nat) : Container := (mem.acc.find (t * 32768 + m * 256 + n)).getD (Container.ord 0)

/-- Element (m, n) of tile t replaced. -/
def Member.setAcc (mem : Member) (t m n : Nat) (c : Container) : Member :=
  let k := t * 32768 + m * 256 + n
  { mem with acc := if c = Container.ord 0 then mem.acc.del k else mem.acc.put k c }

/-- A row of one container repeated. -/
def Row.splat (c : Container) : Row := List.replicate 128 c

/-- The row a mailbox delivers under a modifier (R105, R156). -/
def mailboxRow (v : Scalar) (mod : Nat) : Row :=
  let lo : Container := ⟨v.val.extractLsb' 0 32, true, v.poison⟩
  let hi : Container := ⟨v.val.extractLsb' 32 32, true, v.poison⟩
  match mod with
  | 2 => Row.splat hi
  | 3 => (List.range 128).map fun i => if i % 2 = 0 then lo else hi
  | _ => Row.splat lo

/-- BC j applied to a row (R105). -/
def broadcast (mod : Nat) (r : Row) : Row := if 0x40 ≤ mod then Row.splat (r.getD (mod - 0x40) Container.none) else r

/-- Containers that may be read before or after they were written: each is old or new by a free value (R159, R211). -/
def mixConts (free : Nat) : List Container → List Container → List Container
  | a :: r, b :: t => (if a = b || (Config.freeWord free).getLsbD 0 then a else b) :: mixConts (free + 1) r t
  | _, t => t

/-- The same, with the free values used up: none where old and new agree. -/
def mixed (free : Nat) (old now : List Container) : List Container × Nat :=
  if old = now then (now, free) else (mixConts free old now, free + now.length)

/-- The member with the scratchpad as it stood before this cycle's engine writes. -/
def Member.midCycle (mem : Member) : Member := { mem with spad := mem.spMid }

/-- A scratchpad row as the K stream reads it in phase 3: where an engine (or, with no token, a C store) writes it in the same cycle each
container is old or new (R130, R159). -/
def Member.kRow (mem : Member) (free r : Nat) : Row × Nat := mixed free (mem.midCycle.spRow r) (mem.spRow r)

/-- The row a source delivers in phase 3 (R156), with the free values used up. -/
def readSrc (tk : Task) (mem : Member) (free : Nat) (m : SlotMove) : Row × Nat :=
  match m.src with
  | .null => (Row.invalid, free)
  | .const n => (Row.splat (Container.ord (tk.pool.getD n 0)), free)
  | .mb n => (mailboxRow (mem.mb.toList.getD n Scalar.zero) m.mod, free)
  | .v n => (broadcast m.mod (mem.v.toList.getD n Row.invalid), free)
  | .q k => (broadcast m.mod (mem.lq.toList.getD k Row.invalid), free)
  | .acc t h j =>
    let lc := if j = 0 then (mem.str .k).lc0.count else (mem.str .k).lc1.count
    let row := (lc.toNat + 127) % 128
    (broadcast m.mod ((List.range 128).map fun i => mem.accAt t row (128 * h + i)), free)
  | .win w _ => let r := mem.kRow free (mem.window w).rowNow
    (broadcast m.mod r.1, r.2)
  | .row b r => let r := mem.kRow free (b * 80 + r)
    (broadcast m.mod r.1, r.2)

/-- The moves of a bundle that issues, with what their sources deliver, and the free values used up. -/
def sendMoves (tk : Task) (mem : Member) (key : RngKey) : Nat → List SlotMove → List Move × Nat
  | free, [] => ([], free)
  | free, m :: r =>
    let x := readSrc tk mem free m
    let y := sendMoves tk mem key x.2 r
    (Move.mk m.dest x.1 m.arrive m.segs key :: y.1, y.2)

/-- The key of sr_bits for the current word (R79). -/
def rngKey (s : State) (mem : Member) : RngKey :=
  ⟨s.cur.pc, (mem.cur s).lc0.count, (mem.cur s).lc1.count⟩

/-- The slots of a bundle, none where one is illegal. -/
def bundleMoves (mem : Member) (c : Nat) (sl : List Slot) : Option (List SlotMove) :=
  (sl.mapM (slotMove mem c)).map fun l => l.filterMap id

/-- BUNDLE (R156, R477). -/
def execBundle (_idle : BitVec 4) (s0 s1 s2 : Slot) (s : State) : Res :=
  onMember s fun tk mem =>
    match bundleMoves mem s.cycle [s0, s1, s2] with
    | none => raiseIllegal s mem
    | some ms =>
      let waiting := (mem.cur s).waiting
      if !waiting && bundleIllegal mem ms then raiseIllegal s mem
      else match (if waiting then none else bundleNominal tk mem ms) with
        | some t => raiseTrap s mem t
        | none =>
          match bundleChecks s.cycle mem ms with
          | some t => scoreboard s tk mem t.cause t.addr t.aux
          | none =>
            let new := sendMoves tk mem (rngKey s mem) s.free (ms.filter fun m => m.dest != Dest.none)
            tDone { s with free := new.2 } { moveCursors mem ms with moves := mem.moves ++ new.1 }

/-! ## The chain word (R196, R197) -/

/-- The stages of a chain word with their stations as numbers. -/
def chainStages (f : ChainFields) : List (Nat × BitVec 7) := f.stages.map fun g => (g.sta.toNat, g.sop)

/-- A range of rows from a task address lies within one bank. -/
def oneBank (a rows : Nat) : Bool := decide (a % 0xA000 / 512 + rows ≤ 80)

/-- Item 1 of R477 for a chain word. -/
def chainIllegal (f : ChainFields) : Bool :=
  let rows := f.nm1.toNat + 1
  (f.stages.any fun g => (decodeOp g.sta g.sop f.x).isNone) || !(f.stages.map (·.sta)).Nodup
    || f.saddr.toNat % 512 != 0 || f.daddr.toNat % 512 != 0
    || !oneBank f.saddr.toNat rows || !oneBank f.daddr.toNat rows

/-- Item 2 of R477 for a chain word. -/
def chainNominal (tk : Task) (mem : Member) (f : ChainFields) : Option Trap :=
  let rows := f.nm1.toNat + 1
  match (firstOut tk.spadN f.saddr.toNat (rows * 512)).orElse fun _ => firstOut tk.spadN f.daddr.toNat (rows * 512) with
  | some a => some ⟨cBounds, BitVec.ofNat 64 a, 0⟩
  | none =>
    if (List.range rows).any fun r => mem.frozen.contains (f.daddr.toNat / 512 + r) then some ⟨cSchedule, 0, 11⟩ else none

/-- The rows of a chain word that issues in cycle c, none of them read yet. -/
def chainRows (mem : Member) (f : ChainFields) (key : RngKey) (c : Nat) : List ChainRow :=
  let first := (mem.chains.map (·.id)).foldl Nat.max 0 + 1
  (List.range (f.nm1.toNat + 1)).map fun r =>
    { id := first + r, t := Row.invalid, stages := (chainStages f), x := f.x, dest := f.daddr.toNat / 512 + r, arrive := c + 1 + r
      reads := some (f.saddr.toNat / 512 + r), key }

/-- The rows that a list of chain rows reads in phase 3 of cycle c, with the free values used up. -/
def readChainRows (mem : Member) (c : Nat) : Nat → List ChainRow → List ChainRow × Nat
  | free, [] => ([], free)
  | free, k :: r =>
    match k.reads with
    | some w =>
      if k.arrive = c + 1 then
        let x := mem.kRow free w
        let y := readChainRows mem c x.2 r
        ({ k with t := x.1, reads := none } :: y.1, y.2)
      else
        let y := readChainRows mem c free r
        (k :: y.1, y.2)
    | none =>
      let y := readChainRows mem c free r
      (k :: y.1, y.2)

/-- The chain rows of member m of task t that are read in phase 3 of this cycle (R159, R196). -/
def State.readChains (s : State) (t m : Nat) : State :=
  match s.member? t m with
  | none => s
  | some mem =>
    let x := readChainRows mem s.cycle s.free mem.chains
    { s.putMember t m { mem with chains := x.1 } with free := x.2 }

/-- VCHAIN (R196, R197). -/
def execVchain (f : ChainFields) (s : State) : Res :=
  onMember s fun tk mem =>
    let waiting := (mem.cur s).waiting
    if !waiting && chainIllegal f then raiseIllegal s mem
    else match (if waiting then none else chainNominal tk mem f) with
      | some t => raiseTrap s mem t
      | none =>
        let new := chainRows mem f (rngKey s mem) s.cycle
        let events := new.flatMap fun c => chainEvents c.stages c.x c.dest c.arrive
        if events.any fun e => mem.pending.any fun p => e.1.same p.1 && e.2 == p.2 then scoreboard s tk mem cSchedule 0 7
        else tDone s { mem with chains := mem.chains ++ new }

/-! ## Arrivals and results -/

/-- A row as a register or latch takes it: an invalid container with zero data (R157). -/
def normRow (r : Row) : Row := r.map fun c => if c.valid then c else Container.none

/-- A row written at its destination in phase 1 (R157). -/
def Member.deliver (mem : Member) (d : Dest) (r : Row) : Member :=
  match d with
  | .none => mem
  | .v n => { mem with v := setVec mem.v n (normRow r) }
  | .la k => { mem with la := setVec mem.la k (normRow r) }
  | .lb k => { mem with lb := setVec mem.lb k (normRow r) }
  | .trig k _ _ => { mem with lt := setVec mem.lt k (normRow r) }
  | .row b w => mem.putSpRow (b * 80 + w) r

/-- The operation a trigger starts in this cycle. -/
def Dest.starts (d : Dest) (key : RngKey) (chain : Option Nat) : List Start :=
  match d with
  | .trig k op x => [⟨k, op, x, key, chain⟩]
  | _ => []

/-- A chain row's arrival in cycle c: its next stage's trigger, or the write of its destination row. -/
def Member.chainArrive (mem : Member) (k : ChainRow) : Member :=
  let rest := mem.chains.filter fun j => j.id != k.id
  match k.stages with
  | [] => { mem.deliver (.row (k.dest / 80) (k.dest % 80)) k.t with chains := rest }
  | (st, op) :: _ =>
    let m := mem.deliver (.trig st op k.x) k.t
    { m with
      starts := m.starts ++ [⟨st, op, k.x, k.key, some k.id⟩]
      chains := mem.chains.map fun j => if j.id == k.id then { j with arrive := j.arrive + latency st + 1, stages := j.stages.drop 1 } else j }

/-- The first move due in cycle c. -/
def Member.dueMove (mem : Member) (c : Nat) : Option Move := mem.moves.find? fun m => m.arrive == c

/-- The first chain row due in cycle c that has been read. -/
def Member.dueChain (mem : Member) (c : Nat) : Option ChainRow := mem.chains.find? fun k => k.arrive == c && k.reads.isNone

/-- MOVE_ARRIVAL (R157): the first move or chain row due in this cycle writes its destination, starting an operation if it is a
trigger. -/
def execMoveArrival (s : State) : Res :=
  onMember s fun _ mem =>
    match mem.dueMove s.cycle with
    | some m =>
      let m1 := mem.deliver m.dest m.data
      .next (s.put { m1 with moves := mem.moves.erase m, starts := m1.starts ++ m.dest.starts m.key none })
    | none =>
      match mem.dueChain s.cycle with
      | some k => .next (s.put (mem.chainArrive k))
      | none => .next s

/-- UNIT_RESULT (R155, R72, R176): the first result due in this cycle is written to its station's .q with its flags and mark; a
chain's result goes on to its next stage. -/
def execUnitResult (s : State) : Res :=
  onMember s fun _ mem =>
    match mem.results.find? fun r => r.due == s.cycle with
    | none => .next s
    | some r =>
      .next (s.put { mem with
        results := mem.results.erase r
        lq := setVec mem.lq r.st r.data
        kf := mem.kf ||| r.flags
        mark := if r.st = 6 then r.mark else mem.mark
        chains := mem.chains.map fun k => if r.chain = some k.id then { k with t := r.data } else k })

/-- The latches an operation reads (R161). -/
structure Latches where
  a : Row
  b : Row
  t : Row
  deriving DecidableEq, Repr

/-- What an operation gives: the row, its flags, and the part mark of st6 (R176). -/
structure OpOut where
  row : Row
  flags : BitVec 6
  mark : Option (Nat × Nat)
  deriving DecidableEq, Repr

/-- The start of a station operation (R155, R161): it reads its latches as they stand and its result is due after the unit's
latency. An operation that no trigger has started does nothing. -/
def opStart (o : VArgs) (num : BitVec 4) (f : Task → Member → RngKey → Latches → OpOut) (s : State) : Res :=
  onMember s fun tk mem =>
    let k := o.st.toNat
    match mem.starts.find? fun g => g.st == k && g.op == num ++ o.ty && g.x == o.x with
    | none => .next s
    | some g =>
      let l : Latches := ⟨mem.la.toList.getD k Row.invalid, mem.lb.toList.getD k Row.invalid, mem.lt.toList.getD k Row.invalid⟩
      let out := f tk mem g.key l
      .next (s.put { mem with
        starts := mem.starts.erase g
        results := mem.results ++ [⟨k, s.cycle + latency k, out.row, out.flags, out.mark, g.chain⟩] })

end Sys2Proof.Machine
end

