-- ==== Sys2Proof/Machine/Elements.lean ====
section
/-! DEFINITION. Rows seen as elements, and the tags and flags of a station's result (R54, R57, R72, R162). -/

namespace Sys2Proof.Machine

/-! ## Types (R107) -/

/-- Element width of an integer type. -/
def intW (t : BitVec 3) : Nat :=
  match t.toNat with
  | 0 | 1 => 8
  | 2 | 3 => 16
  | 4 | 5 => 32
  | _ => 4

/-- An integer type is signed. -/
def intSg (t : BitVec 3) : Bool := t.toNat % 2 == 0

/-- Format of a float type. -/
def fltFmt (t : BitVec 3) : Fmt :=
  match t.toNat with
  | 0 => fp32
  | 1 => fp16
  | _ => bf16

/-- An element type of the Order or Convert set: a float format, or an integer of some width and signedness. -/
inductive ElTy where
  | flt (f : Fmt)
  | int (w : Nat) (sg : Bool)
  deriving DecidableEq, Repr

/-- Width of an element type. -/
def ElTy.w : ElTy → Nat
  | .flt f => f.w
  | .int w _ => w

/-- The Order set. -/
def orderTy (t : BitVec 3) : ElTy :=
  match t.toNat with
  | 0 => .flt fp32
  | 1 => .flt fp16
  | 2 => .flt bf16
  | 3 => .int 32 true
  | 4 => .int 32 false
  | 5 => .int 16 true
  | 6 => .int 8 true
  | _ => .int 8 false

/-- The Convert set. -/
def convTy (t : BitVec 3) : ElTy :=
  match t.toNat with
  | 0 => .flt fp32
  | 1 => .flt fp16
  | 2 => .flt bf16
  | 3 => .flt e4m3
  | 4 => .flt e5m2
  | 5 => .int 32 true
  | 6 => .int 16 true
  | _ => .int 8 true

/-- The MX set. -/
def mxFmt (t : BitVec 3) : Fmt :=
  match t.toNat with
  | 0 => e4m3
  | 1 => e5m2
  | 2 => e3m2
  | 3 => e2m3
  | _ => e2m1

/-- Bits an MX element takes in a register: a byte, or a nibble for E2M1 (R43). -/
def mxW (t : BitVec 3) : Nat := if t.toNat = 4 then 4 else 8

/-! ## Elements -/

/-- A code of w bits as a signed integer. -/
def toS (w n : Nat) : Int := if n % 2 ^ w < 2 ^ (w - 1) then (n % 2 ^ w : Nat) else (n % 2 ^ w : Nat) - 2 ^ w

/-- A code of w bits as an integer of that signedness. -/
def toI (w : Nat) (sg : Bool) (n : Nat) : Int := if sg then toS w n else (n % 2 ^ w : Nat)

/-- An integer as a code of w bits. -/
def wrapTo (w : Nat) (v : Int) : Nat := (v % 2 ^ w).toNat

/-- The exact value of a code. -/
def ElTy.value (ty : ElTy) (code : Nat) : FVal :=
  match ty with
  | .flt f => f.decode code
  | .int w sg => ofInt (toI w sg code)

/-- Container c of a row. -/
def rowC (r : Row) (c : Nat) : Container := r.getD c Container.none

/-- Element i of width w. -/
def elemOf (w : Nat) (r : Row) (i : Nat) : Nat := (rowC r (i * w / 32)).data.toNat / 2 ^ (i * w % 32) % 2 ^ w

/-- Codes of w bits packed, element 0 lowest. -/
def packCodes (w : Nat) : List Nat → Nat
  | [] => 0
  | a :: r => a % 2 ^ w + 2 ^ w * packCodes w r

/-- Container number of element i. -/
def contOf (w i : Nat) : Nat := i * w / 32

/-- The tags of a container fed by the listed containers (R57). -/
def joinTags (cs : List Container) : Bool × Bool := (cs.all (·.valid), cs.any (·.poison))

/-- A container whose tags and data are given: invalid ones carry zero data (R57). -/
def taggedC (tag : Bool × Bool) (d : Nat) : Container :=
  if tag.1 then ⟨BitVec.ofNat 32 d, true, tag.2⟩ else Container.none

/-- A row of elements of width w under the tags of each container; the flags of invalid containers are not raised (R72). -/
def buildRow (w : Nat) (tag : Nat → Bool × Bool) (f : Nat → Nat × KFlags) : OpOut :=
  let cells := (List.range 128).map fun c =>
    if (tag c).1 then
      let es := (List.range (32 / w)).map fun j => f (c * (32 / w) + j)
      (taggedC (tag c) (packCodes w (es.map (·.1))), es.foldl (fun a e => a ||| e.2) (0 : KFlags))
    else (Container.none, 0)
  ⟨cells.map (·.1), cells.foldl (fun a e => a ||| e.2) (0 : KFlags), none⟩

/-- A row all of whose containers are invalid. -/
def invalidOut : OpOut := ⟨Row.invalid, 0, none⟩

/-- An element-wise operation: container c is fed by container c of every listed operand (R162). -/
def mapRow (w : Nat) (ops : List Row) (f : Nat → Nat × KFlags) : OpOut :=
  buildRow w (fun c => joinTags (ops.map fun r => rowC r c)) f

/-- The scalar of a latch (R175). [DEDUCED, log 8] -/
def scal (r : Row) : Nat := (rowC r 0).data.toNat

/-- The rounding mode or modifier of a trigger, and its sat bit. -/
def rmOf (o : VArgs) : Nat := (o.x.extractLsb' 0 3).toNat
def satOf (o : VArgs) : Bool := o.x.getLsbD 3
/-- Bit i of the modifier. -/
def xBit (o : VArgs) (i : Nat) : Bool := o.x.getLsbD i

/-- sr_bits of element i of an operation (R79). -/
def opBits (tk : Task) (mem : Member) (key : RngKey) : Nat → Nat := srBits (srKey tk.seed mem.rank key)

end Sys2Proof.Machine
end

