-- ==== Sys2Proof/Machine/Matrix.lean ====
section
/-! DEFINITION. The matrix array: its words, follow-on steps, operand reads and writes (R199 to R216). -/

namespace Sys2Proof.Machine

/-! ## Fields -/

/-- Element bits of an operand format code (R200, R44), none for a code no multiply word accepts. -/
def matBits : BitVec 4 → Option Nat
  | 0x1#4 | 0x2#4 => some 16
  | 0x3#4 | 0x4#4 | 0x5#4 | 0x6#4 => some 8
  | 0x7#4 => some 4
  | 0xB#4 | 0xC#4 => some 8
  | 0xD#4 => some 4
  | _ => none

/-- Rate of a format code: k per cycle (R200). -/
def matRate (c : BitVec 4) : Nat := 16 / (matBits c).getD 16

/-- The code is floating. -/
def matFloat (c : BitVec 4) : Bool := decide (1 ≤ c.toNat) && decide (c.toNat ≤ 7)

/-- The code is integer. -/
def matInt (c : BitVec 4) : Bool := decide (0xB ≤ c.toNat) && decide (c.toNat ≤ 0xD)

/-- Exact value of a code in a floating format. -/
def matVal (c : BitVec 4) (code : Nat) : FVal :=
  match c with
  | 0x1#4 => fp16.decode code
  | 0x2#4 => bf16.decode code
  | 0x3#4 => e4m3.decode code
  | 0x4#4 => e5m2.decode code
  | 0x5#4 => e3m2.decode code
  | 0x6#4 => e2m3.decode code
  | _ => e2m1.decode code

/-- Value of a code in an integer format. -/
def matIntVal (c : BitVec 4) (code : Nat) : Int :=
  match c with
  | 0xB#4 => toS 8 code
  | 0xC#4 => (code % 256 : Nat)
  | _ => toS 4 code

def matM (f : MatFields) : Nat := f.mm1.toNat + 1
def matN (f : MatFields) : Nat := f.nm1.toNat + 1
def matK (f : MatFields) : Nat := f.km1.toNat + 1
/-- Groups of 32 k-values. -/
def matG (f : MatFields) : Nat := (matK f + 31) / 32

/-- One operand of a multiply word (R201, R202): address, rows or columns, format, scales and the peer it is read from. -/
structure Side where
  addr : Nat
  rows : Nat
  fmt : BitVec 4
  mx : Bool
  saddr : Nat
  peer : Option Nat
  deriving DecidableEq, Repr

def sideA (f : MatFields) : Side :=
  ⟨f.aaddr.toNat, matM f, f.fa, f.mxa == 1#1, f.saaddr.toNat, if f.arem = 1#1 then some f.apeer.toNat else none⟩
def sideB (f : MatFields) : Side :=
  ⟨f.baddr.toNat, matN f, f.fb, f.mxb == 1#1, f.sbaddr.toNat, if f.brem = 1#1 then some f.bpeer.toNat else none⟩

/-- Element bits of an operand. -/
def Side.bits (x : Side) : Nat := (matBits x.fmt).getD 8
/-- Bytes an operand spans over g groups. -/
def Side.span (x : Side) (g : Nat) : Nat := g * x.rows * 4 * x.bits

/-- Bytes of a tile element in the scratchpad under a drain format, with rounding and the narrow formats (R206). -/
def drainFmt (c : BitVec 4) : Option (Nat × Option Fmt) :=
  match c with
  | 0x0#4 => some (4, none)
  | 0x1#4 => some (2, some fp16)
  | 0x2#4 => some (2, some bf16)
  | 0x3#4 => some (1, some e4m3)
  | 0x4#4 => some (1, some e5m2)
  | 0xA#4 => some (2, none)
  | 0xB#4 => some (1, none)
  | 0xC#4 => some (1, none)
  | _ => none

/-! ## Checks (R207, R209, R213) -/

/-- The operand fields are zero. -/
def noOperands (f : MatFields) : Bool :=
  f.baddr == 0#19 && f.fa == 0#4 && f.fb == 0#4 && f.km1 == 0#9 && f.apeer == 0#3 && f.arem == 0#1 && f.bpeer == 0#3
    && f.brem == 0#1 && f.mcg == 0#4 && f.saaddr == 0#19 && f.mxa == 0#1 && f.sbaddr == 0#19 && f.mxb == 0#1

/-- The drain fields are zero. -/
def noDrain (f : MatFields) : Bool := f.rm == 0#3 && f.sat == 0#1 && f.dfmt == 0#4

/-- The formats and MX bits of a multiply word are accepted (R200); fl for MMA and MMAS. -/
def matFormats (fl : Bool) (f : MatFields) : Bool :=
  let cls := fun c => if fl then matFloat c else matInt c
  let mx := fun (b : BitVec 1) (c : BitVec 4) => b == 0#1 || (fl && decide (3 ≤ c.toNat))
  cls f.fa && cls f.fb && mx f.mxa f.fa && mx f.mxb f.fb

/-- A peer field names another member of the crew where it is used. [DEDUCED, log 10] -/
def peerOk (crew rank : Nat) (rem : BitVec 1) (peer : BitVec 3) : Bool :=
  rem == 0#1 || (decide (peer.toNat < crew) && peer.toNat != rank)

/-- Item 1 of R209 for a multiply word. -/
def multiplyLegal (fl : Bool) (tk : Task) (mem : Member) (f : MatFields) : Bool :=
  matFormats fl f && noDrain f && peerOk tk.crew mem.rank f.arem f.apeer && peerOk tk.crew mem.rank f.brem f.bpeer
    && !(f.arem == 1#1 && f.brem == 1#1 && f.apeer == f.bpeer) && !(f.mcg != 0#4 && f.arem == 0#1 && f.brem == 0#1)

/-- Item 1 of R209 for MDRAIN. -/
def drainLegal (f : MatFields) : Bool :=
  noOperands f &&
    (match drainFmt f.dfmt with
      | some (w, fm) => decide (matN f * w % 4 = 0) && (if fm.isSome then decide (f.rm.toNat < 5) else f.rm == 0#3)
      | none => false)

/-- Items 2 and 3 of R209 for the operands of a multiply word. -/
def sideTrap (tk : Task) (g : Nat) (x : Side) : Option Trap :=
  let pieces := if x.peer.isSome then tk.spsh else tk.spadN
  ((firstOut pieces x.addr (x.span g)).orElse fun _ =>
    if x.mx then firstOut pieces x.saddr (g * x.rows) else none).map fun a => ⟨cBounds, BitVec.ofNat 64 a, 0⟩

/-- Alignment of an operand address. -/
def alignTrap (a : Nat) : Option Trap := if a % 16 = 0 then none else some ⟨cAlignment, BitVec.ofNat 64 a, 0⟩

/-- Items 2 and 3 of R209 for a multiply word: where several operands fail one item, A is reported before B, and an operand's data before its
scales. [DESIGN CHOICE, log 76] -/
def multiplyTrap (tk : Task) (f : MatFields) : Option Trap :=
  (((alignTrap f.aaddr.toNat).orElse fun _ => alignTrap f.baddr.toNat).orElse fun _ => sideTrap tk (matG f) (sideA f)).orElse
    fun _ => sideTrap tk (matG f) (sideB f)

/-- Items 2 and 3 of R209 for a range of the member's own allocation. -/
def rangeTrap (tk : Task) (a len : Nat) : Option Trap :=
  (alignTrap a).orElse fun _ => (firstOut tk.spadN a len).map fun x => ⟨cBounds, BitVec.ofNat 64 x, 0⟩

/-- The remote operands of a word, as the members of a multicast group must name them alike (R213). -/
def remoteOf (f : MatFields) : List (Nat × Nat × BitVec 4 × Bool × Nat) × Nat :=
  (([sideA f, sideB f].filterMap fun x => x.peer.map fun p => (p, x.addr, x.fmt, x.mx, if x.mx then x.saddr else 0)), matK f)

/-- Item 4 of R209: another word of the group, whose nominal issue cycle is the same and which passes the checks before, names another remote
operand (R213). [DEDUCED, log 12] -/
def groupMismatch (tk : Task) (mem : Member) (f : MatFields) : Bool :=
  f.mcg != 0#4 && tk.members.any fun m => m.replica == mem.replica && m.rank != mem.rank &&
    (match m.matNow with
      | some g => g.mcg == f.mcg && remoteOf g != remoteOf f
      | none => false)

/-- The remote-operand check of a word that issues in cycle c and reads for b cycles (R213): no stream of another word or group
from the same peer is read in one of its cycles. Of two words of one cycle the lower rank's takes the stream. [DESIGN CHOICE, log 76] -/
def remoteFree (tk : Task) (mem : Member) (c b : Nat) (f : MatFields) : Bool :=
  let peers := (remoteOf f).1.map (·.1)
  let streams := (tk.members.filter fun m => m.replica == mem.replica).flatMap (·.rstreams)
  streams.all fun r =>
    !(peers.contains r.peer) || decide (r.last < c + 1) || decide (c + b < r.first)
      || (f.mcg != 0#4 && r.mcg == f.mcg.toNat && r.issued == c && r.what == remoteOf f)

/-! ## Issue (R210) -/

/-- Busy cycles of a word. -/
def matBusy (mop : Nat) (f : MatFields) : Nat :=
  match mop with
  | 5 => 1
  | 6 | 7 => matM f
  | _ =>
    let r := min (matRate f.fa) (matRate f.fb)
    (matK f + r - 1) / r

/-- A word reads a peer's scratchpad. -/
def matRemote (f : MatFields) : Bool := f.arem == 1#1 || f.brem == 1#1

/-- The job of a word issued in cycle c. -/
def matJob (mop : Nat) (f : MatFields) (c : Nat) (key : RngKey) (cmd : Option Nat) : Job :=
  let s := if matRemote f then c + 13 else c + 1
  let b := matBusy mop f
  { mop, f, start := s, busy := b, ready := s + b + 6, rowsDone := 0, key
    readA := if f.arem = 1#1 then s - 12 else s
    readB := if f.brem = 1#1 then s - 12 else s
    opA := none, opB := none, cmd }

/-- A member with a job given to its array: the array held, the tile outstanding, and the peers' streams (R210, R213). -/
def Member.startJob (mem : Member) (j : Job) (c : Nat) : Member :=
  { mem with
    jobs := mem.jobs ++ [j]
    arrayFree := j.start + j.busy
    accReady := if j.mop = 7 then mem.accReady else setVec mem.accReady j.f.acc.toNat j.ready
    rstreams := (mem.rstreams.filter fun r => decide (c ≤ r.last)) ++
      (remoteOf j.f).1.map fun p => ⟨remoteOf j.f, p.1, c + 1, c + j.busy, j.f.mcg.toNat, c⟩ }

/-- The accumulator-ready check (R210). -/
def arrayReady (mem : Member) (mop : Nat) (f : MatFields) (c : Nat) : Bool :=
  decide (mem.arrayFree ≤ c + if matRemote f then 13 else 1)
    && (mop != 7 || decide (mem.accReady.toList.getD f.acc.toNat 0 ≤ c))

/-- A matrix word in the order of R477: at its nominal issue cycle, legal and the checks of R209; then, and in each cycle it waits, the
scoreboard; then the array takes it. [DEDUCED, log 12] -/
def matIssue (mop : Nat) (f : MatFields) (legal : Task → Member → Bool) (trap : Task → Member → Option Trap) (s : State) : Res :=
  onMember s fun tk mem =>
    let c := s.cycle
    let waiting := (mem.cur s).waiting
    if !waiting && !(legal tk mem) then raiseIllegal s mem
    else match (if waiting then none else trap tk mem) with
      | some t => raiseTrap s mem t
      | none =>
        if !waiting && groupMismatch tk mem f then raise s mem cMatrix 0 f.mcg.toNat
        else if !(arrayReady mem mop f c) then scoreboard s tk mem cSchedule 0 2
        else if !(remoteFree tk mem c (matBusy mop f) f) then scoreboard s tk mem cSchedule 0 3
        else tDone s (mem.startJob (matJob mop f c (rngKey s mem) none) c)

/-- MMA (R199, R200). -/
def execMma (f : MatFields) (s : State) : Res :=
  matIssue 1 f (fun tk mem => multiplyLegal true tk mem f) (fun tk _ => multiplyTrap tk f) s

/-- MMAZ (R199, R200). -/
def execMmaz (f : MatFields) (s : State) : Res :=
  matIssue 2 f (fun tk mem => multiplyLegal false tk mem f) (fun tk _ => multiplyTrap tk f) s

/-- MMAS (R199, R200). -/
def execMmas (f : MatFields) (s : State) : Res :=
  matIssue 3 f (fun tk mem => multiplyLegal true tk mem f) (fun tk _ => multiplyTrap tk f) s

/-- MIMA (R199, R200). -/
def execMima (f : MatFields) (s : State) : Res :=
  matIssue 4 f (fun tk mem => multiplyLegal false tk mem f) (fun tk _ => multiplyTrap tk f) s

/-- MZERO (R205). -/
def execMzero (f : MatFields) (s : State) : Res :=
  matIssue 5 f (fun _ _ => noOperands f && noDrain f && f.aaddr == 0#19) (fun _ _ => none) s

/-- MLDACC (R205). -/
def execMldacc (f : MatFields) (s : State) : Res :=
  matIssue 6 f (fun _ _ => noOperands f && noDrain f) (fun tk _ => rangeTrap tk f.aaddr.toNat (matM f * matN f * 4)) s

/-- Bytes of an element an MDRAIN writes. -/
def drainW (f : MatFields) : Nat := ((drainFmt f.dfmt).map (·.1)).getD 4

/-- A write of the range meets a frozen row (R243). -/
def frozenIn (mem : Member) (a len : Nat) : Bool := mem.frozen.any fun r => decide (a < 512 * r + 512) && decide (512 * r < a + len)

/-- MDRAIN (R206, R243). -/
def execMdrain (f : MatFields) (s : State) : Res :=
  let len := matM f * matN f * drainW f
  matIssue 7 f (fun _ _ => drainLegal f) (fun tk mem =>
    (rangeTrap tk f.aaddr.toNat len).orElse fun _ =>
      if frozenIn mem f.aaddr.toNat len then some ⟨cSchedule, 0, 11⟩ else none) s

/-! ## Operand reads (R211, R213) -/

/-- The containers of an operand and of its scales over g groups. -/
def readSide (src : Member) (g : Nat) (x : Side) : List Container × List Container :=
  (src.conts x.addr (g * x.rows * x.bits),
   if x.mx then src.conts x.saddr ((x.saddr % 4 + g * x.rows + 3) / 4) else [])

/-- An operand and its scales mixed container by container, with the free values used up. -/
def mixedSide (free : Nat) (old now : List Container × List Container) : (List Container × List Container) × Nat :=
  let a := mixed free old.1 now.1
  let b := mixed a.2 old.2 now.2
  ((a.1, b.1), b.2)

/-- An operand as read so far, after cycle c of its interval: in the first cycle what stood after the cycle's arrivals (R155) mixed with what stands
now, in each later one what was read mixed with what stands now (R211). -/
def readStep (free first b c : Nat) (sofar : Option (List Container × List Container)) (before now : List Container × List Container) :
    Option (List Container × List Container) × Nat :=
  if c = first then
    let r := mixedSide free before now
    (some r.1, r.2)
  else if first < c ∧ c < first + b then
    let r := mixedSide free (sofar.getD now) now
    (some r.1, r.2)
  else (sofar, free)

/-- The member an operand is read from. -/
def sideSrc (tk : Task) (mem : Member) (x : Side) : Member :=
  match x.peer with
  | some p => (tk.members[tk.index mem.replica p]?).getD mem
  | none => mem

/-- The reads of one job in phase 3 of cycle c (R211). -/
def jobReads (tk : Task) (mem : Member) (c free : Nat) (j : Job) : Job × Nat :=
  match j.mop with
  | 5 | 7 => (j, free)
  | 6 =>
    if j.start ≤ c ∧ c < j.start + j.busy then
      let a := j.f.aaddr.toNat + (c - j.start) * matN j.f * 4
      let row := mixed free (mem.midCycle.conts a (matN j.f)) (mem.conts a (matN j.f))
      ({ j with opA := some (((j.opA.map (·.1)).getD []) ++ row.1, []) }, row.2)
    else (j, free)
  | _ =>
    let pa := sideSrc tk mem (sideA j.f)
    let pb := sideSrc tk mem (sideB j.f)
    let rd (p : Member) (x : Side) := readSide p (matG j.f) x
    let a := readStep free j.readA j.busy c j.opA (rd pa.midCycle (sideA j.f)) (rd pa (sideA j.f))
    let b := readStep a.2 j.readB j.busy c j.opB (rd pb.midCycle (sideB j.f)) (rd pb (sideB j.f))
    ({ j with opA := a.1, opB := b.1 }, b.2)

/-- The reads of every job of a member. [DEDUCED, log 54] -/
def State.arrayReads (s : State) (t m : Nat) : State :=
  match s.tasks[t]? with
  | none => s
  | some tk =>
    match tk.members[m]? with
    | none => s
    | some mem =>
      let r := mem.jobs.foldl (fun (a : List Job × Nat) j =>
        let x := jobReads tk mem s.cycle a.2 j
        (a.1 ++ [x.1], x.2)) ([], s.free)
      { s.putMember t m { mem with jobs := r.1 } with free := r.2 }

/-! ## Results (R199, R203, R204) -/

/-- The container and code of element kk of row r of an operand. -/
def sideElem (x : Side) (d : List Container) (r kk : Nat) : Container × Nat :=
  let c := d.getD ((kk / 32 * x.rows + r) * x.bits + kk % 32 * x.bits / 32) Container.none
  (c, c.data.toNat / 2 ^ (kk % 32 * x.bits % 32) % 2 ^ x.bits)

/-- The container and code of the scale of row r in group g: 127 without MX. -/
def sideScale (x : Side) (d : List Container) (g r : Nat) : Container × Nat :=
  if x.mx then
    let a := x.saddr % 4 + g * x.rows + r
    let c := d.getD (a / 4) Container.none
    (c, c.data.toNat / 2 ^ (8 * (a % 4)) % 256)
  else (Container.ord 127, 127)

/-- The result of group g for one output, from its bits: the new bits and flags (R82, R83, R199). -/
def groupResult (j : Job) (a b : List Container × List Container) (m n g acc : Nat) : Nat × KFlags :=
  let f := j.f
  let ks := (List.range (min 32 (matK f - 32 * g))).map fun i => 32 * g + i
  let ea := fun kk => (sideElem (sideA f) a.1 m kk).2
  let eb := fun kk => (sideElem (sideB f) b.1 n kk).2
  match j.mop with
  | 1 | 3 =>
    let av := fun kk => if j.mop = 3 then (matVal f.fa (ea kk)).negate else matVal f.fa (ea kk)
    let r := mmaGroup (fp32.decode acc) (ks.map fun kk => (av kk, matVal f.fb (eb kk)))
      (decide (f.fa.toNat ≤ 2) || decide (f.fb.toNat ≤ 2)) (sideScale (sideA f) a.2 g m).2 (sideScale (sideB f) b.2 g n).2
    (r.1, r.2 &&& (fIV ||| fOF))
  | _ =>
    let sg := j.mop == 4
    let v := toI 32 sg acc + (ks.map fun kk => matIntVal f.fa (ea kk) * matIntVal f.fb (eb kk)).sum
    let w := satInt v 32 sg
    (wrapTo 32 w, if w = v then 0 else fOF)

/-- Every container an output reads. -/
def outputConts (j : Job) (a b : List Container × List Container) (m n : Nat) : List Container :=
  let f := j.f
  (List.range (matK f)).flatMap (fun kk => [(sideElem (sideA f) a.1 m kk).1, (sideElem (sideB f) b.1 n kk).1]) ++
    (List.range (matG f)).flatMap fun g => [(sideScale (sideA f) a.2 g m).1, (sideScale (sideB f) b.2 g n).1]

/-- One output element after a multiply word, with its flags (R199, R203, R204). -/
def outputResult (j : Job) (a b : List Container × List Container) (m n : Nat) (old : Container) : Container × KFlags :=
  let tag := joinTags (old :: outputConts j a b m n)
  if !tag.1 then (Container.none, 0)
  else
    let r := (List.range (matG j.f)).foldl (fun (x : Nat × KFlags) g =>
      let y := groupResult j a b m n g x.1
      (y.1, x.2 ||| y.2)) (old.data.toNat, 0)
    (⟨BitVec.ofNat 32 r.1, true, tag.2⟩, r.2)

/-- Every output position of a word. -/
def outputs (f : MatFields) : List (Nat × Nat) := (List.range (matM f)).flatMap fun m => (List.range (matN f)).map fun n => (m, n)

/-- The tile after a word other than MDRAIN, in phase 1 of its ready cycle (R199, R204, R205). -/
def Member.tileWrite (mem : Member) (j : Job) : Member :=
  let t := j.f.acc.toNat
  let a := j.opA.getD ([], [])
  let b := j.opB.getD ([], [])
  match j.mop with
  | 5 => (outputs j.f).foldl (fun x p => x.setAcc t p.1 p.2 (Container.ord 0)) mem
  | 6 => (outputs j.f).foldl (fun x p => x.setAcc t p.1 p.2 (a.1.getD (p.1 * matN j.f + p.2) Container.none)) mem
  | _ => (outputs j.f).foldl (fun x p =>
      let r := outputResult j a b p.1 p.2 (mem.accAt t p.1 p.2)
      { x.setAcc t p.1 p.2 r.1 with kf := x.kf ||| r.2 }) mem

/-- One drained element: its code and flags (R206). -/
def drainElem (f : MatFields) (bits : Nat → Nat) (m n : Nat) (d : Nat) : Nat × KFlags :=
  match drainFmt f.dfmt with
  | some (_, some fm) => roundFmt (fp32.decode d) fm f.rm.toNat (f.sat == 1#1) (bits (256 * m + n))
  | _ =>
    match f.dfmt with
    | 0xA#4 => (wrapTo 16 (satInt (toS 32 d) 16 true), 0)
    | 0xB#4 => (wrapTo 8 (satInt (toS 32 d) 8 true), 0)
    | 0xC#4 => (wrapTo 8 (satInt d 8 false), 0)
    | _ => (d, 0)

/-- Row m of an MDRAIN written to the scratchpad (R206). A destination container with an invalid element is not written and raises no flags: flags
come from valid elements only (R206), and none from an invalid container (R72). [DEDUCED, log 68] -/
def Member.drainRow (mem : Member) (tk : Task) (j : Job) (m : Nat) : Member :=
  let f := j.f
  let w := drainW f
  let bits := opBits tk mem j.key
  let at_ := fun n => mem.accAt f.acc.toNat m n
  let base := (f.aaddr.toNat + m * matN f * w) / 4
  (List.range (matN f * w / 4)).foldl (fun x i =>
    let ns := (List.range (4 / w)).map fun k => i * (4 / w) + k
    let tag := joinTags (ns.map at_)
    let es := ns.map fun n => drainElem f bits m n (at_ n).data.toNat
    if tag.1 then
      { x.setCont (base + i) (taggedC tag (packCodes (8 * w) (es.map (·.1)))) with
        kf := es.foldl (fun (a : KFlags) e => a ||| e.2) x.kf }
    else x) mem

/-- A job writes in cycle c: its tile, or its next row (R210, R211). -/
def Job.due (j : Job) (c : Nat) : Bool := if j.mop = 7 then j.start + j.rowsDone + 4 == c else j.ready == c

/-- ARRAY_WRITE: the first job of the array that is due writes its tile, or its next row (R204, R211). -/
def execArrayWrite (s : State) : Res :=
  onMember s fun tk mem =>
    match mem.jobs.find? fun j => j.due s.cycle with
    | none => .next s
    | some j =>
      let rest := mem.jobs.erase j
      if j.mop = 7 then
        let m1 := mem.drainRow tk j j.rowsDone
        let j1 := { j with rowsDone := j.rowsDone + 1 }
        .next (s.put { m1 with
          jobs := if j1.rowsDone = matM j.f then rest else mem.jobs.map fun k => if k = j then j1 else k })
      else .next (s.put { mem.tileWrite j with jobs := rest })

/-! ## Follow-on steps (R214, R215) -/

/-- The fields of a follow-on record as a matrix word: its scales lie directly after their operand's data. -/
def followFields (r : FollowOn) : MatFields :=
  let f : MatFields :=
    { idle := 0, acc := r.acc, aaddr := r.aaddr, apeer := 0, arem := 0, baddr := r.baddr, bpeer := 0, brem := 0, fa := r.fa
      fb := r.fb, km1 := r.km1, mm1 := r.mm1, nm1 := r.nm1, saaddr := 0, sbaddr := 0, mxa := r.mxa, mxb := r.mxb, mcg := 0
      rm := 0, sat := 0, dfmt := 0 }
  { f with
    saaddr := BitVec.ofNat 19 (f.aaddr.toNat + (sideA f).span (matG f))
    sbaddr := BitVec.ofNat 19 (f.baddr.toNat + (sideB f).span (matG f)) }

/-- The bounds of a follow-on record's scales, whose addresses may pass 19 bits. -/
def followScale (tk : Task) (g : Nat) (x : Side) : Option Trap :=
  if x.mx then (firstOut tk.spadN (x.addr + x.span g) (g * x.rows)).map fun a => ⟨cBounds, BitVec.ofNat 64 a, 0⟩ else none

/-- The checks of a follow-on record at its COPY's issue (R214). -/
def followTrap (tk : Task) (mem : Member) (r : FollowOn) : Option Trap :=
  let f := followFields r
  let k := r.fmop.toNat
  if !(decide (1 ≤ k) && decide (k ≤ 4) && multiplyLegal (k == 1 || k == 3) tk mem f) then some ⟨cIllegal, 0, 0⟩
  else (multiplyTrap tk { f with mxa := 0, mxb := 0 }).orElse fun _ =>
    (followScale tk (matG f) (sideA f)).orElse fun _ => followScale tk (matG f) (sideB f)

/-- The follow-on record of a command. -/
def Cmd.follow (c : Cmd) : Option FollowOn :=
  match c.instr with
  | .copy _ _ _ _ _ fo => fo
  | .peerCopy _ _ _ _ fo => fo
  | _ => none

/-- A matrix word of the K stream issued in cycle c. -/
def issuedMatrix (mem : Member) (c : Nat) : Bool :=
  mem.jobs.any fun j => j.cmd.isNone && j.start == c + if matRemote j.f then 13 else 1

/-- FOLLOW_ON_STEP (R215): the first copied command whose step waits issues it in phase 3 of a cycle in which the array is free
from the next on and K issues no matrix word; its completion is due at the step's ready cycle. Of several that wait, the first in the order in
which the member's commands were issued goes first: the spec does not say which. [DESIGN CHOICE, log 69] -/
def execFollowOnStep (s : State) : Res :=
  onMember s fun _ mem =>
    match mem.cmds.find? fun c => c.state == CmdState.moved 0 && c.follow.isSome with
    | none => .next s
    | some c =>
      match c.follow with
      | none => .next s
      | some r =>
        if issuedMatrix mem s.cycle || decide (s.cycle + 1 < mem.arrayFree) then .next s
        else
          let j := matJob r.fmop.toNat (followFields r) s.cycle c.key (some c.seq)
          let m1 := mem.startJob j s.cycle
          .next (s.put { m1 with
            cmds := m1.cmds.map fun k => if k.seq = c.seq then { k with state := .moved j.ready } else k })

end Sys2Proof.Machine
end

