-- ==== Sys2Proof/Machine/Copy.lean ====
section
/-! DEFINITION. Windows, copies, gathers, scatters, fills, prefetches and batches (R223 to R233). -/

namespace Sys2Proof.Machine

/-! ## Windows (R224 to R227) -/

/-- The window with slot t mod DEPTH replaced; a tag has 32 bits (R46). -/
def Window.setSlot (w : Window) (t : Nat) (f : Fill) : Window := { w with slots := w.slots.set (t % 2 ^ 32 % w.depth) (t % 2 ^ 32, f) }

/-- n tensor rows from t given a slot state. -/
def Window.setSlots (w : Window) (f : Fill) : Nat → Nat → Window
  | _, 0 => w
  | t, n + 1 => (w.setSlot t f).setSlots f (t + 1) n

/-- Written slots become present in row order, up to the first that is still filling (R224). -/
def Window.settle (w : Window) : Nat → Nat → Window
  | _, 0 => w
  | t, n + 1 =>
    match w.slot t with
    | (_, .written) => (w.setSlot t .present).settle (t + 1) n
    | (_, .present) => w.settle (t + 1) n
    | _ => w

/-- Tensor row t of an opening of the window has been written (R224, R227); its slot becomes present at the end of the cycle (R47). -/
def Window.rowWritten (w : Window) (gen t : Nat) : Window :=
  if w.opened && w.gen == gen && w.slot t == (t % 2 ^ 32, Fill.filling) then w.setSlot t .written else w

/-- Tensor rows from HEAD up to NEXT, both of 32 bits (R46). -/
def Window.filled (w : Window) : Nat := (w.next + 2 ^ 32 - w.head) % 2 ^ 32

/-- A window at the end of a cycle: the slots whose last byte was written become present in the next, in row order (R47, R224). -/
def Window.endCycle (w : Window) : Window := w.settle w.head w.filled

/-- The rows that a window fill has written: the mark of a PGATH counts its result record too (R269). -/
def Cmd.rowsFilled (c : Cmd) : Nat :=
  match c.instr with
  | .pgath .. => min c.mark (16 * (c.out.getD 2 0).toNat)
  | _ => c.mark

/-- The rows of a window fill are present, or their opening has gone, or they have been retired (R47, R220, R227). -/
def Member.fillPresent (mem : Member) (c : Cmd) : Bool :=
  match c.ring with
  | none => true
  | some r =>
    let w := mem.window r.w
    let last := (r.tag + c.rowsFilled - 1) % 2 ^ 32
    c.rowsFilled == 0 || !w.opened || w.gen != r.gen || !(w.slot last == (last, Fill.filling) || w.slot last == (last, Fill.written))

/-- The member with a window replaced. -/
def Member.setWindow (mem : Member) (n : Nat) (w : Window) : Member := { mem with win := setVec mem.win n w }

/-- The scratchpad address of the slot of the fill's row j. -/
def Ring.slotAddr (r : Ring) (j : Nat) : Nat := rowAddr r.bank (r.first + (r.tag + j) % 2 ^ 32 % r.depth * r.rows)

/-- Row j of a window fill whose tensor row is t, none for a bad index (R224, R233). -/
def fillRow (s : State) (tk : Task) (mem : Member) (c : Cmd) (a : Nat) (row : Option Nat) : UnitRes :=
  let rb := dRow c.desc
  match row with
  | none => spPiece s mem c a rb fun m => m.spInvalid a rb
  | some t =>
    if dSize c.desc 1 ≤ t then spPiece s mem c a rb fun m => m.spInvalid a rb
    else
      match engRead s s.cur.task tk mem c.stream (rowVA c.desc t) rb (max 1 (dBits c.desc / 8)) with
      | ⟨.error e, m1, s1⟩ => ⟨.hold e, s1, m1, c⟩
      | ⟨.ok bs, m1, s1⟩ => spPiece s1 m1 c a rb fun m => m.spPut a false bs

/-- A row of a window fill with its slot noted. -/
def ringRow (s : State) (tk : Task) (mem : Member) (c : Cmd) (r : Ring) (j : Nat) (row : Option Nat) : UnitRes :=
  let u := fillRow s tk mem c (r.slotAddr j) row
  match u.res with
  | .ok => { u with mem := u.mem.setWindow r.w ((u.mem.window r.w).rowWritten r.gen (r.tag + j)) }
  | _ => u

/-- Piece j of a WSET or WADV. -/
def fetchPiece (tk : Task) (s : State) (mem : Member) (c : Cmd) (j : Nat) : UnitRes :=
  match c.ring with
  | some r => ringRow s tk mem c r j (some ((r.tag + j) % 2 ^ 32))
  | none => ⟨.ok, s, mem, c⟩

/-- The ring of a window for a fill whose first tag is t. -/
def Window.ring (w : Window) (n t : Nat) : Ring := ⟨n, w.gen, w.bank, w.first, w.depth, w.rows, t⟩

/-- Frozen rows among the slots of a fill of n rows. -/
def ringFrozen (mem : Member) (r : Ring) (n : Nat) : Option Trap :=
  firstTrap ((List.range n).map fun j => frozenTrap mem (r.slotAddr j) (r.rows * 512))

/-- Whether a fill of n rows completes at once or is queued. -/
def fillFate (n : Nat) : Fate := if n = 0 then .done else .queued

/-- The window WSET opens. [DEDUCED, log 13] -/
def openWindow (old : Window) (d : BitVec 256) (f : RingFields) : Window :=
  let depth := f.dm1.toNat + 1
  let rows := f.rm1.toNat + 1
  let w : Window :=
    { opened := true, desc := d, bank := f.bank.toNat, first := f.first.toNat, depth, rows, head := f.start.toNat
      next := f.start.toNat + f.fetch.toNat, cur := f.start.toNat * rows, slots := List.replicate depth (0, .empty)
      gen := old.gen + 1 }
  w.setSlots .filling f.start.toNat f.fetch.toNat

/-- The limits of WSET (R225). [DEDUCED, log 11] -/
def wsetLegal (mem : Member) (n : Nat) (d : BitVec 256) (f : RingFields) : Bool :=
  let depth := f.dm1.toNat + 1
  let rows := f.rm1.toNat + 1
  !(mem.window n).opened && decide (f.first.toNat + depth * rows ≤ 80) && decide (f.fetch.toNat ≤ depth) && rowDesc d
    && decide (dRow d ≤ rows * 512)

/-- WSET (R225): it takes its place in the queue even when it fetches no row, since it starts behind the fills of its window (R227). -/
def execWset (h : Hdr) (w : BitVec 4) (d : BitVec 6) (f : RingFields) (s : State) : Res :=
  match s.cur.phase with
  | .issue =>
    issueCmd s (.wset h w d f) h (fun _ mem => wsetLegal mem w.toNat (mem.desc d) f)
      (fun tk mem =>
        let win := openWindow (mem.window w.toNat) (mem.desc d) f
        firstTrap [descTrap (mem.desc d),
          spadTrap tk (rowAddr f.bank.toNat f.first.toNat) ((f.dm1.toNat + 1) * (f.rm1.toNat + 1) * 512),
          ringFrozen mem (win.ring w.toNat f.start.toNat) f.fetch.toNat])
      fun _ mem c =>
        let win := openWindow (mem.window w.toNat) (mem.desc d) f
        ⟨mem.setWindow w.toNat win,
         { c with desc := mem.desc d, ring := some (win.ring w.toNat f.start.toNat), bytes := f.fetch.toNat * dRow (mem.desc d) },
         .queued⟩
  | .perform => workCmd s (fun _ _ _ => f.fetch.toNat) fetchPiece

/-- A window moved along by WADV (R226): HEAD and NEXT are 32 bits wide (R46). -/
def Window.advance (w : Window) (ret fetch : Nat) : Window :=
  let w1 := { (w.setSlots .empty w.head ret) with head := (w.head + ret) % 2 ^ 32 }
  { (w1.setSlots .filling w1.next fetch) with next := (w1.next + fetch) % 2 ^ 32 }

/-- The limits of WADV (R226). [DEDUCED, log 11] -/
def wadvLegal (w : Window) (ret fetch : Nat) : Bool :=
  w.opened && decide (ret ≤ 80) && decide (fetch ≤ 80) && decide (ret ≤ w.filled)
    && decide (w.filled + fetch ≤ ret + w.depth)

/-- WADV (R226). -/
def execWadv (h : Hdr) (w : BitVec 4) (ret fetch : BitVec 7) (s : State) : Res :=
  match s.cur.phase with
  | .issue =>
    issueCmd s (.wadv h w ret fetch) h (fun _ mem => wadvLegal (mem.window w.toNat) ret.toNat fetch.toNat)
      (fun _ mem => ringFrozen mem ((mem.window w.toNat).ring w.toNat (mem.window w.toNat).next) fetch.toNat)
      fun _ mem c =>
        let win := mem.window w.toNat
        ⟨mem.setWindow w.toNat (win.advance ret.toNat fetch.toNat),
         { c with desc := win.desc, ring := some (win.ring w.toNat win.next), bytes := fetch.toNat * dRow win.desc },
         fillFate fetch.toNat⟩
  | .perform => workCmd s (fun _ _ _ => fetch.toNat) fetchPiece

/-- WCLOSE (R227): completes at once. -/
def execWclose (h : Hdr) (w : BitVec 4) (s : State) : Res :=
  match s.cur.phase with
  | .issue =>
    issueCmd s (.wclose h w) h (fun _ _ => true) (fun _ _ => none)
      fun _ mem c => ⟨mem.setWindow w.toNat { mem.window w.toNat with opened := false }, c, .done⟩
  | .perform => onMember s fun _ _ => .next s

/-! ## COPY (R228, R229, R214) -/

/-- Bytes of a piece of a sub-range: an element, or two 4-bit ones. -/
def atomBytes (d : BitVec 256) : Nat := if dBits d = 4 then 1 else dBits d / 8

/-- Pieces of a sub-range of cnt outermost indices. -/
def atoms (d : BitVec 256) (cnt : Nat) : Nat := dCount d cnt * dBits d / 8 / atomBytes d

/-- The memory address of piece k. -/
def atomVA (d : BitVec 256) (i0 k : Nat) : Nat := dAddr d i0 (if dBits d = 4 then 2 * k else k)

/-- Bytes of a sub-range. -/
def subBytes (d : BitVec 256) (cnt : Nat) : Nat := dCount d cnt * dBits d / 8

/-- Piece k of a COPY in L. [DESIGN CHOICE, log 14] -/
def copyInPiece (spa i0 : Nat) (tk : Task) (s : State) (mem : Member) (c : Cmd) (k : Nat) : UnitRes :=
  let n := atomBytes c.desc
  match engRead s s.cur.task tk mem c.stream (atomVA c.desc i0 k) n n with
  | ⟨.error e, m1, s1⟩ => ⟨.hold e, s1, m1, c⟩
  | ⟨.ok bs, m1, s1⟩ => spPiece s1 m1 c (spa + k * n) n fun m => m.spPut (spa + k * n) (decide (k ≠ 0)) bs

/-- A byte of a row as an element of a descriptor's format is written: E3M2 and E2M3 have bits [7:6] zero (R43). -/
def fmtByte (d : BitVec 256) (b : Byte) : Byte := if dFmt d = 5 ∨ dFmt d = 6 then b &&& 0x3F#8 else b

/-- The bytes of a scratchpad range as they are written to elements of a descriptor (R43, R58). -/
def outData (mem : Member) (d : BitVec 256) (a n : Nat) : List (Option Byte) := (mem.spData a n).map fun b => b.map (fmtByte d)

/-- The bytes of a COPY that a launch port takes as a record: exactly 64, with SPA and the destination aligned to 64 (R397). -/
def recordForm (mem : Member) (c : Cmd) (spa i0 cnt : Nat) : Option (List Byte) :=
  let n := atomBytes c.desc
  let va := atomVA c.desc i0 0
  let bs := outData mem c.desc spa 64
  if subBytes c.desc cnt = 64 ∧ spa % 64 = 0 ∧ va % 64 = 0 ∧ (List.range (64 / n)).all (fun k => atomVA c.desc i0 k == va + k * n)
      ∧ bs.all (·.isSome) then some (bs.map fun b => b.getD 0) else none

/-- Piece k of a COPY in S, at a channel or at a commit: a COPY of the form that launch ports take is one piece where its destination is a
port, or has no translation yet. [DESIGN CHOICE, log 14; DEDUCED, log 38] -/
def copyOutPiece (atCommit : Bool) (spa i0 cnt : Nat) (tk : Task) (s : State) (mem : Member) (c : Cmd) (k : Nat) : UnitRes :=
  let n := atomBytes c.desc
  let va := atomVA c.desc i0 0
  let one (u : UnitRes) : UnitRes := match u.res with
    | .ok => { u with cmd := { u.cmd with mark := atoms c.desc cnt - 1 } }
    | _ => u
  let plain := engWrite s s.cur.task s.cur.member tk mem c atCommit (atomVA c.desc i0 k) (outData mem c.desc (spa + k * n) n)
  match (if k = 0 then recordForm mem c spa i0 cnt else none) with
  | none => plain
  | some bs =>
    match (s.translateFor tk mem c.stream va).1 with
    | none =>
      if s.missCause tk.ptroot va = cMemory then plain
      else one (logPart s s.cur.task s.cur.member tk mem c atCommit va (bs.map some) .record)
    | some l =>
      if l.w && inPorts (l.pa va) then
        one ⟨.ok, s.portCopy (l.pa va) s.cur.task tk.ctx (BitVec.ofNat 512 (leNat bs)), mem, c⟩
      else plain

/-- The legality of a follow-on record (R214). -/
def followLegal (tk : Task) (mem : Member) (fo : Option FollowOn) : Bool :=
  match fo with
  | none => true
  | some r => match followTrap tk mem r with
    | some t => t.cause != cIllegal
    | none => true

/-- The other checks of a follow-on record (R214). -/
def followCheck (tk : Task) (mem : Member) (fo : Option FollowOn) : Option Trap := fo.bind (followTrap tk mem)

/-- A follow-on entry is free (R215): a record holds one until its step issues, and not until its COPY completes. [DESIGN CHOICE, log 77] -/
def followRoom (fo : Option FollowOn) (mem : Member) : Bool :=
  fo.isNone || decide ((mem.cmds.filter fun c => c.follow.isSome &&
    (match c.state with
      | .moved d => d == 0
      | _ => true)).length < 4)

/-- The freeze of a deferred command's source rows (R243). -/
def Member.freeze (mem : Member) (a len : Nat) : Member := { mem with frozen := mem.frozen ++ (rowsOf a len).filter fun r => !mem.frozen.contains r }

/-- A deferred S command of a replicated task: its signature record and its frozen sources (R243, R319). -/
def deferS (tk : Task) (mem : Member) (c : Cmd) (ranges : List (Nat × Nat)) : Member :=
  let body := c.signHead ++ leBytes 32 c.desc.toNat ++ ranges.flatMap fun r => signConts mem r.1 r.2
  ranges.foldl (fun m r => m.freeze r.1 r.2) (tk.sign mem .s 2 body)

/-- How a command of S that writes memory leaves its issue. -/
def writeFate (tk : Task) : Fate := if tk.replicated then .deferred else .queued

/-- COPY (R228). -/
def execCopy (h : Hdr) (d : BitVec 6) (spa : BitVec 19) (i0 : BitVec 16) (cntm1 : BitVec 12) (fo : Option FollowOn) (s : State) :
    Res :=
  let cnt := cntm1.toNat + 1
  match s.cur.phase with
  | .issue =>
    let x := s.cur.stream
    issueCmd s (.copy h d spa i0 cntm1 fo) h (fun tk mem => subrangeEven (mem.desc d) i0.toNat cnt && followLegal tk mem fo)
      (fun tk mem =>
        let dd := mem.desc d
        let n := subBytes dd cnt
        firstTrap [descTrap dd, followCheck tk mem fo, subrangeTrap dd i0.toNat cnt, spadTrap tk spa.toNat n,
          if x == Stream.l then frozenTrap mem spa.toNat n else poisonTrap mem spa.toNat n])
      (fun tk mem c =>
        let c1 := { c with desc := mem.desc d, bytes := subBytes (mem.desc d) cnt, step := if fo.isSome then 1 else 0 }
        if x == Stream.l then ⟨mem, c1, .queued⟩
        else if tk.replicated then
          ⟨deferS tk mem c1 [(spa.toNat, c1.bytes)], c1, if fo.isSome then .deferredStep else .deferred⟩
        else ⟨mem, c1, .queued⟩)
      (followRoom fo)
  | .perform =>
    workCmd s (fun _ _ c => atoms c.desc cnt) fun tk s mem c k =>
      if c.stream == Stream.l then copyInPiece spa.toNat i0.toNat tk s mem c k
      else copyOutPiece false spa.toNat i0.toNat cnt tk s mem c k

/-- Row r of a peer copy (R229). [DEDUCED, log 13] -/
def peerPiece (spa prank : Nat) (tk : Task) (s : State) (mem : Member) (c : Cmd) (r : Nat) : UnitRes :=
  match tk.members[tk.index mem.replica prank]? with
  | none => ⟨.ok, s, mem, c⟩
  | some p =>
    let a := spa + 512 * r
    spPiece s mem c a 512 fun m => (List.range 128).foldl (fun k i => k.setCont (a / 4 + i) (p.cont (a / 4 + i))) m

/-- The peer form of COPY (R229). -/
def execPeerCopy (h : Hdr) (spa : BitVec 19) (prank : BitVec 3) (rowsm1 : BitVec 12) (fo : Option FollowOn) (s : State) : Res :=
  let n := (rowsm1.toNat + 1) * 512
  match s.cur.phase with
  | .issue =>
    issueCmd s (.peerCopy h spa prank rowsm1 fo) h
      (fun tk mem => prank.toNat != mem.rank && decide (prank.toNat < tk.crew) && followLegal tk mem fo)
      (fun tk mem => firstTrap
        [if spa.toNat % 512 = 0 then none else some ⟨cAlignment, BitVec.ofNat 64 spa.toNat, 0⟩,
         followCheck tk mem fo, (firstOut tk.spsh spa.toNat n).map fun a => ⟨cBounds, BitVec.ofNat 64 a, 0⟩,
         spadTrap tk spa.toNat n, frozenTrap mem spa.toNat n])
      (fun _ mem c => ⟨mem, { c with bytes := n, step := if fo.isSome then 1 else 0 }, .queued⟩)
      (followRoom fo)
  | .perform => workCmd s (fun _ _ _ => rowsm1.toNat + 1) (peerPiece spa.toNat prank.toNat)

/-! ## GATH and SCAT (R232, R233) -/

/-- Index j of an index list: none where its container is invalid. -/
def indexAt (mem : Member) (idx j : Nat) : Option Nat :=
  let c := mem.cont (idx / 4 + j)
  if c.valid then some c.data.toNat else none

/-- GATH into the scratchpad (R233). -/
def execGath (h : Hdr) (d : BitVec 6) (dst idx : BitVec 19) (nm1 : BitVec 9) (s : State) : Res :=
  let n := nm1.toNat + 1
  match s.cur.phase with
  | .issue =>
    issueCmd s (.gath h d dst idx nm1) h
      (fun _ mem => rowDesc (mem.desc d) && dst.toNat % 4 == 0 && idx.toNat % 4 == 0)
      (fun tk mem => firstTrap [descTrap (mem.desc d), spadTrap tk idx.toNat (4 * n),
        spadTrap tk dst.toNat (n * dRow (mem.desc d)), frozenTrap mem dst.toNat (n * dRow (mem.desc d)),
        poisonTrap mem idx.toNat (4 * n)])
      fun _ mem c => ⟨mem, { c with desc := mem.desc d, bytes := n * dRow (mem.desc d) }, .queued⟩
  | .perform =>
    workCmd s (fun _ _ _ => n) fun tk s mem c j => fillRow s tk mem c (dst.toNat + j * dRow c.desc) (indexAt mem idx.toNat j)

/-- GATH into a window (R233). -/
def execGathTowin (h : Hdr) (w : BitVec 4) (d : BitVec 6) (idx : BitVec 19) (nm1 : BitVec 9) (s : State) : Res :=
  let n := nm1.toNat + 1
  match s.cur.phase with
  | .issue =>
    issueCmd s (.gathTowin h w d idx nm1) h
      (fun _ mem =>
        let win := mem.window w.toNat
        win.opened && decide (win.filled + n ≤ win.depth) && rowDesc (mem.desc d) && idx.toNat % 4 == 0
          && decide (dRow (mem.desc d) ≤ win.rows * 512))
      (fun tk mem => firstTrap [descTrap (mem.desc d), spadTrap tk idx.toNat (4 * n),
        ringFrozen mem ((mem.window w.toNat).ring w.toNat (mem.window w.toNat).next) n, poisonTrap mem idx.toNat (4 * n)])
      fun _ mem c =>
        let win := mem.window w.toNat
        ⟨mem.setWindow w.toNat (win.advance 0 n),
         { c with desc := mem.desc d, ring := some (win.ring w.toNat win.next), bytes := n * dRow (mem.desc d) }, .queued⟩
  | .perform =>
    workCmd s (fun _ _ _ => n) fun tk s mem c j =>
      match c.ring with
      | some r => ringRow s tk mem c r j (indexAt mem idx.toNat j)
      | none => ⟨.ok, s, mem, c⟩

/-- Row j of a SCAT; one whose index has become poisoned since the tag pass is not written (R237). [DESIGN CHOICE, log 78] -/
def scatPiece (atCommit : Bool) (src idx : Nat) (tk : Task) (s : State) (mem : Member) (c : Cmd) (j : Nat) : UnitRes :=
  let rb := dRow c.desc
  match indexAt mem idx j with
  | none => ⟨.ok, s, mem, c⟩
  | some t =>
    if dSize c.desc 1 ≤ t || (mem.cont (idx / 4 + j)).poison then ⟨.ok, s, mem, c⟩
    else engWrite s s.cur.task s.cur.member tk mem c atCommit (rowVA c.desc t) (outData mem c.desc (src + j * rb) rb)

/-- SCAT (R233). -/
def execScat (h : Hdr) (d : BitVec 6) (src idx : BitVec 19) (nm1 : BitVec 9) (s : State) : Res :=
  let n := nm1.toNat + 1
  match s.cur.phase with
  | .issue =>
    issueCmd s (.scat h d src idx nm1) h
      (fun _ mem => rowDesc (mem.desc d) && src.toNat % 4 == 0 && idx.toNat % 4 == 0)
      (fun tk mem =>
        let len := n * dRow (mem.desc d)
        firstTrap [descTrap (mem.desc d), spadTrap tk idx.toNat (4 * n), spadTrap tk src.toNat len,
          poisonTrap mem src.toNat len, poisonTrap mem idx.toNat (4 * n)])
      fun tk mem c =>
        let c1 := { c with desc := mem.desc d, bytes := n * dRow (mem.desc d) }
        if tk.replicated then ⟨deferS tk mem c1 [(idx.toNat, 4 * n), (src.toNat, c1.bytes)], c1, .deferred⟩ else ⟨mem, c1, .queued⟩
  | .perform => workCmd s (fun _ _ _ => n) (scatPiece false src.toNat idx.toNat)

/-! ## FILL and PREF (R230, R231) -/

/-- The constant of a FILL. -/
def fillValue (val : BitVec 16) (vm : BitVec 2) : W32 :=
  match vm.toNat with
  | 0 => val ++ val
  | 1 => val ++ 0#16
  | 2 => val.zeroExtend 32
  | _ => val.signExtend 32

/-- Piece k of a FILL in S. -/
def fillOutPiece (atCommit : Bool) (val : BitVec 16) (vm : BitVec 2) (i0 : Nat) (tk : Task) (s : State) (mem : Member) (c : Cmd)
    (k : Nat) : UnitRes :=
  let x := (fillValue val vm).toNat
  let bs := if dBits c.desc = 4 then [BitVec.ofNat 8 (x % 16 * 17)] else leBytes (atomBytes c.desc) x
  engWrite s s.cur.task s.cur.member tk mem c atCommit (atomVA c.desc i0 k) (bs.map fun b => some (fmtByte c.desc b))

/-- Word i of a FILL in L. -/
def fillWord (a : Nat) (x : W32) (inv : Bool) (s : State) (mem : Member) (c : Cmd) (i : Nat) : UnitRes :=
  spPiece s mem c (a + 4 * i) 4 fun m => m.setCont (a / 4 + i) (if inv then Container.none else Container.ord x)

/-- FILL (R230). -/
def execFill (h : Hdr) (f : FillFields) (s : State) : Res :=
  match s.cur.phase, f with
  | .issue, .spad wa nwm1 val vm inv =>
    let n := 4 * (nwm1.toNat + 1)
    issueCmd s (.fill h f) h (fun _ _ => inv == 0#1 || (val == 0#16 && vm == 0#2))
      (fun tk mem => firstTrap [spadTrap tk (4 * wa.toNat) n, frozenTrap mem (4 * wa.toNat) n])
      fun _ mem c => ⟨mem, { c with bytes := n }, .queued⟩
  | .issue, .mem d _ _ i0 cntm1 =>
    let cnt := cntm1.toNat + 1
    issueCmd s (.fill h f) h (fun _ mem => subrangeEven (mem.desc d) i0.toNat cnt)
      (fun _ mem => firstTrap [descTrap (mem.desc d), subrangeTrap (mem.desc d) i0.toNat cnt])
      fun tk mem c =>
        let c1 := { c with desc := mem.desc d, bytes := subBytes (mem.desc d) cnt }
        if tk.replicated then ⟨deferS tk mem c1 [], c1, .deferred⟩ else ⟨mem, c1, .queued⟩
  | .perform, .spad wa nwm1 val vm inv =>
    workCmd s (fun _ _ _ => nwm1.toNat + 1) fun _ => fillWord (4 * wa.toNat) (fillValue val vm) (inv == 1#1)
  | .perform, .mem _ val vm i0 cntm1 =>
    workCmd s (fun _ _ c => atoms c.desc (cntm1.toNat + 1)) (fillOutPiece false val vm i0.toNat)

/-- Piece k of a PREF: its line is filled into the core's L1 for tier=L1; failures are dropped (R231, R358). -/
def prefPiece (tier : BitVec 1) (i0 : Nat) (tk : Task) (s : State) (mem : Member) (c : Cmd) (k : Nat) : UnitRes :=
  let va := atomVA c.desc i0 k
  match s.engTranslate tk mem c.stream va with
  | (some l, m1, s1) =>
    let pa := l.pa va
    if l.r && s1.rangeOk (pa / 128 * 128) 128 && tier == 0#1 && (m1.line? pa).isNone then
      let r := s1.fillLine tk.ctx m1 l va pa
      ⟨.ok, r.2.2, r.2.1, c⟩
    else ⟨.ok, s1, m1, c⟩
  | (none, m1, s1) => ⟨.ok, s1, m1, c⟩

/-- PREF (R231). -/
def execPref (h : Hdr) (d : BitVec 6) (tier : BitVec 1) (i0 : BitVec 16) (cntm1 : BitVec 12) (s : State) : Res :=
  let cnt := cntm1.toNat + 1
  match s.cur.phase with
  | .issue =>
    issueCmd s (.pref h d tier i0 cntm1) h (fun _ mem => h.so == 0#6 && subrangeEven (mem.desc d) i0.toNat cnt)
      (fun _ mem => firstTrap [descTrap (mem.desc d), subrangeTrap (mem.desc d) i0.toNat cnt])
      fun _ mem c => ⟨mem, { c with desc := mem.desc d }, .queued⟩
  | .perform => workCmd s (fun _ _ c => atoms c.desc cnt) (prefPiece tier i0.toNat)

/-! ## Batches (R223) -/

/-- BCLOSE (R223): takes no queue entry; with WCNT it waits on sem0 first (R93, R94). -/
def execBclose (f : CloseFields) (s : State) : Res :=
  onMember s fun tk mem =>
    if s.cur.stream == Stream.s && mem.lastAcc then raiseIllegal s mem
    else if f.wcnt ≠ 0#4 ∧ mem.semReady 0 f.wcnt.toNat = false then scoreboard s tk mem cSchedule 0 5
    else
      let m1 := if f.wcnt = 0#4 then mem else mem.semTake 0 f.wcnt.toNat
      tDone s (m1.closeBatch s.cur.stream)

/-- Closed batches of a command's stream, issued before it, that are outstanding (R223). -/
def outstandingBatches (mem : Member) (c : Cmd) : Nat :=
  (((mem.queued c.stream).filter fun k => decide (k.batch < c.batch) && (match k.instr with
    | .waitb .. => false
    | _ => true)).map (·.batch)).eraseDups.length

/-- WAITB (R223): it waits in the queue, and COMMAND_COMPLETION ends its wait. [DEDUCED, log 38] -/
def execWaitb (h : Hdr) (n : BitVec 4) (s : State) : Res :=
  match s.cur.phase with
  | .issue =>
    issueCmd s (.waitb h n) h (fun _ _ => true) (fun _ _ => none) fun _ mem c =>
      let m1 := mem.closeBatch s.cur.stream
      ⟨m1, { c with batch := m1.batch s.cur.stream }, .queued⟩
  | .perform => onMember s fun _ _ => .next s

end Sys2Proof.Machine
end

