-- ==== Sys2Proof/Machine/Atomics.lean ====
section
/-! DEFINITION. Accumulates and compare-and-swap (R238 to R242), and the L1 copies they invalidate (R307). -/

namespace Sys2Proof.Machine

/-- AOP of R239. -/
inductive Aop where
  | addS32 | addF32 | addBf16 | minS32 | maxS32 | minZ32 | maxZ32 | and | or | xor | swap
  deriving DecidableEq, Repr

/-- Element size of an AOP (R239). -/
def Aop.z : Aop → Nat
  | .addBf16 => 2
  | _ => 4

/-- The descriptor formats an AOP accepts (R239). -/
def Aop.fmtOk : Aop → Nat → Bool
  | .addF32, f => f == 0x0
  | .addBf16, f => f == 0x2
  | _, f => f == 0x9 || f == 0xF

/-- The new value from the old one and the operand (R239). -/
def Aop.new (a : Aop) (old x : Nat) : Nat :=
  match a with
  | .addS32 => (old + x) % 2 ^ 32
  | .addF32 => (farithAdd (fp32.decode old) (fp32.decode x) fp32 0 0).1
  | .addBf16 => (farithAdd (bf16.decode old) (bf16.decode x) bf16 0 0).1
  | .minS32 => if toS 32 old ≤ toS 32 x then old else x
  | .maxS32 => if toS 32 old ≤ toS 32 x then x else old
  | .minZ32 => min old x
  | .maxZ32 => max old x
  | .and => old &&& x
  | .or => old ||| x
  | .xor => old ^^^ x
  | .swap => x

/-- The AOP of an accumulate, with whether it fetches. -/
def accOf : Instr → Option (Aop × Bool × Hdr × AccFields)
  | .accAddS32 h f => some (.addS32, false, h, f)
  | .accAddF32 h f => some (.addF32, false, h, f)
  | .accAddBf16 h f => some (.addBf16, false, h, f)
  | .accMinS32 h f => some (.minS32, false, h, f)
  | .accMaxS32 h f => some (.maxS32, false, h, f)
  | .accMinZ32 h f => some (.minZ32, false, h, f)
  | .accMaxZ32 h f => some (.maxZ32, false, h, f)
  | .accAnd h f => some (.and, false, h, f)
  | .accOr h f => some (.or, false, h, f)
  | .accXor h f => some (.xor, false, h, f)
  | .accSwap h f => some (.swap, false, h, f)
  | .accfAddS32 h f => some (.addS32, true, h, f)
  | .accfAddF32 h f => some (.addF32, true, h, f)
  | .accfAddBf16 h f => some (.addBf16, true, h, f)
  | .accfMinS32 h f => some (.minS32, true, h, f)
  | .accfMaxS32 h f => some (.maxS32, true, h, f)
  | .accfMinZ32 h f => some (.minZ32, true, h, f)
  | .accfMaxZ32 h f => some (.maxZ32, true, h, f)
  | .accfAnd h f => some (.and, true, h, f)
  | .accfOr h f => some (.or, true, h, f)
  | .accfXor h f => some (.xor, true, h, f)
  | .accfSwap h f => some (.swap, true, h, f)
  | _ => none

/-- L1 copies of a line invalidated within a scope (R307): 0 the core, 1 its span, 2 and 3 the device. -/
def State.dropLine (s : State) (pa core scope : Nat) : State :=
  let inScope := fun (k : Nat) =>
    match scope with
    | 0 => k == core
    | 1 => k / 8 == core / 8
    | _ => true
  let keep := fun (ls : List Line) => ls.filter fun l => l.pa != pa / 128 * 128
  { s with
    tasks := s.tasks.map fun tk => { tk with members := tk.members.map fun m => if inScope m.core then { m with l1 := keep m.l1 } else m }
    cores := s.cores.map fun c => if inScope c.1 then (c.1, { c.2 with l1 := keep c.2.l1 }) else c }

/-- The same of one member's own lines, whose copy in the state its caller replaces. -/
def Member.dropLine (mem : Member) (pa : Nat) : Member := { mem with l1 := mem.l1.filter fun l => l.pa != pa / 128 * 128 }

/-- A change of the scratchpad of every other replica's member of the same rank (R240, R321). -/
def State.spread (s : State) (t : Nat) (mem : Member) (f : Member → Member) : State :=
  s.modTask t fun tk => { tk with members := tk.members.map fun m => if m.rank == mem.rank && m.replica != mem.replica then f m else m }

/-- The memory address of element j, none where it is skipped (R238). -/
def accVA (d : BitVec 256) (f : AccFields) (mem : Member) (j : Nat) : Option Nat :=
  if f.dmode = 0#2 then some (dAddr d 0 j)
  else match indexAt mem (4 * f.ixw.toNat) j with
    | some i => if i < dSize d 0 then some ((dBase d + i * (dBits d / 8)) % 2 ^ 57) else none
    | none => none

/-- The operand of element j: none where its container is invalid or has become poisoned (R237, R239). -/
def accOperand (a : Aop) (f : AccFields) (mem : Member) (j : Nat) : Option Nat :=
  let at_ := 4 * f.srcw.toNat + j * a.z
  let c := mem.cont (at_ / 4)
  if c.valid && !c.poison then some (leNat ((List.range a.z).map fun i => contByte c (at_ % 4 + i))) else none

/-- A valid, unpoisoned value put at a scratchpad address. -/
def Member.putValue (mem : Member) (at_ n v : Nat) : Member := mem.putSpBytes at_ ((leBytes n v).map fun b => (b, false))

/-- How far an accumulate or a CAS of a scope reaches, issued by some core (R307). -/
def scopeReach (core scope : Nat) : Reach :=
  match scope with
  | 0 => .core
  | 1 => .span (core / 8)
  | _ => .device

/-- A value stored by an atomic operation of a core in a scope (R307). -/
def State.wrAtomic (s : State) (pa core scope : Nat) (bytes : List Byte) : State :=
  (s.wrDev pa bytes).markPast s fun w => { w with reach := scopeReach core scope }

/-- Element j of a memory accumulate performed at the home slice of its line (R239, R307): the fetched value goes to the operand
element in every replica. -/
def accPerform (s : State) (t : Nat) (mem : Member) (a : Aop) (fetch : Bool) (f : AccFields) (j pa x : Nat) : State × Member :=
  let old := s.loadNat pa a.z
  let s1 := (s.wrAtomic pa mem.core f.scope.toNat (leBytes a.z (a.new old x))).dropLine pa mem.core f.scope.toNat
  let m1 := mem.dropLine pa
  if fetch then
    let put := fun (m : Member) => m.putValue (4 * f.srcw.toNat + j * a.z) a.z old
    (s1.spread t mem put, put m1)
  else (s1, m1)

/-- An entry of the command is still in the side log. -/
def State.entryLeft (s : State) (c : Cmd) : Bool :=
  s.slog.any fun e => e.task == s.cur.task && e.member == s.cur.member && e.cmd == some c.seq

/-- One atomic operation of a commit on n bytes at a virtual address (R240): where its page has no translation it enters the side log as
piece j with its data, and step = j + 1 says so until the entry has gone; an uncorrectable error of the target, or an address that cannot be written,
holds the command (R332, R385); a target that may not be written is dropped with a logged record, as a deferred write is. [DESIGN CHOICE, log 78] -/
def atomicAt (tk : Task) (s : State) (mem : Member) (c : Cmd) (j va n data : Nat) (old : W64) (perform : State → Member → Nat → State × Member) :
    UnitRes :=
  let t := s.cur.task
  let at_ : W64 := BitVec.ofNat 64 va
  match s.translateFor tk mem c.stream va with
  | (none, m1, s1) =>
    if s.missCause tk.ptroot va = cMemory then ⟨.hold ⟨cMemory, at_, 0⟩, s1, m1, c⟩
    else if !s1.logRoom m1.core then ⟨.full, s1, m1, c⟩
    else
      let c1 := { c with pages := if c.pages.contains (va / 4096) then c.pages else c.pages ++ [va / 4096], step := j + 1 }
      let s2 := if c.pages.contains (va / 4096) then s1 else s1.recordFault t (c.info m1 ⟨cTranslation, at_, 0⟩ 2 12 0)
      ⟨.full, s2.logWrite t s.cur.member tk m1 va (leBytes n data) (.acc c1 j old) (some c.seq), m1, c1⟩
  | (some l, m1, s1) =>
    let pa := l.pa va
    if !l.w then denied s1 t m1 c true va ⟨cProtection, at_, 0⟩
    else if !s1.rangeOk pa n || !s1.canWrite pa n then ⟨.hold ⟨cMemory, at_, 0⟩, s1.noteRead pa n, m1, c⟩
    else match (if l.owned pa then s1.takeOwn ⟨t, m1.rank⟩ pa else some s1) with
      | none => denied (s1.splitOwn pa) t m1 c true va ⟨cSharing, at_, 0⟩
      | some s2 =>
        let r := perform (s2.noteRead pa n) m1 pa
        ⟨.ok, r.1, r.2, c⟩

/-- Element j of a memory accumulate at a commit (R239, R240), with its operand and its index as they stand there. [DESIGN CHOICE, log 78] -/
def accPiece (a : Aop) (fetch : Bool) (f : AccFields) (tk : Task) (s : State) (mem : Member) (c : Cmd) (j : Nat) : UnitRes :=
  if c.step = j + 1 then (if s.entryLeft c then ⟨.full, s, mem, c⟩ else ⟨.ok, s, mem, { c with step := 0 }⟩)
  else
    match accOperand a f mem j, accVA c.desc f mem j with
    | some x, some va => atomicAt tk s mem c j va a.z x 0 fun s1 m1 pa => accPerform s1 s.cur.task m1 a fetch f j pa x
    | _, _ => ⟨.ok, s, mem, c⟩

/-- Element j of a scratchpad accumulate (R239, R240): the data of an invalid destination counts as its old value. [DESIGN CHOICE, log 78] -/
def accSpad (a : Aop) (fetch : Bool) (f : AccFields) (s : State) (mem : Member) (c : Cmd) (j : Nat) : UnitRes :=
  let at_ := 4 * f.srcw.toNat + j * a.z
  let dst := 4 * f.ixw.toNat + j * a.z
  let xc := mem.cont (at_ / 4)
  let dc := mem.cont (dst / 4)
  if !xc.valid then ⟨.ok, s, mem, c⟩
  else
    let val := fun (k : Container) (p : Nat) => leNat ((List.range a.z).map fun i => contByte k (p % 4 + i))
    let old := val dc dst
    let v := a.new old (val xc at_)
    let p := xc.poison || (dc.valid && dc.poison)
    match firstTrap [frozenTrap mem dst a.z, if fetch then frozenTrap mem at_ a.z else none] with
    | some t => ⟨.fault t, s, mem, c⟩
    | none =>
      let m1 := mem.putSpBytes dst ((leBytes a.z v).map fun b => (b, p))
      ⟨.ok, s, if fetch then m1.putValue at_ a.z old else m1, c⟩

/-- The limits of an accumulate (R238, R239). -/
def accLegal (a : Aop) (f : AccFields) (mem : Member) : Bool :=
  match f.dmode.toNat with
  | 0 => f.ixw == 0#17 && a.fmtOk (dFmt (mem.desc f.d))
  | 1 => a.fmtOk (dFmt (mem.desc f.d))
  | 2 => f.d == 0#6 && f.scope == 0#2
  | _ => false

/-- The scratchpad ranges an accumulate reads: its index list, then its operands. -/
def accRanges (a : Aop) (f : AccFields) : List (Nat × Nat) :=
  let n := f.nm1.toNat + 1
  (if f.dmode = 1#2 then [(4 * f.ixw.toNat, 4 * n)] else []) ++ [(4 * f.srcw.toNat, n * a.z)]

/-- A target of an ACCF or a CAS at its issue: what its translation, its write permission or its ownership raises is precise (R241, R331). -/
def targetTrap (s : State) (tk : Task) (mem : Member) (va : Nat) : Option Trap :=
  match (s.translateFor tk mem .s va).1 with
  | none => some ⟨s.missCause tk.ptroot va, BitVec.ofNat 64 va, 0⟩
  | some l =>
    if !l.w then some ⟨cProtection, BitVec.ofNat 64 va, 0⟩
    else if l.owned (l.pa va) && (s.takeOwn ⟨s.cur.task, mem.rank⟩ (l.pa va)).isNone then some ⟨cSharing, BitVec.ofNat 64 va, 0⟩
    else none

/-- The targets of a memory ACCF at its issue (R241). -/
def fetchTargets (s : State) (tk : Task) (mem : Member) (a : Aop) (f : AccFields) : Option Trap :=
  (List.range (f.nm1.toNat + 1)).findSome? fun j =>
    match accOperand a f mem j, accVA (mem.desc f.d) f mem j with
    | some _, some va => targetTrap s tk mem va
    | _, _ => none

/-- The checks of an accumulate (R218, R238, R241, R243). -/
def accChecks (s : State) (a : Aop) (fetch : Bool) (f : AccFields) (tk : Task) (mem : Member) : Option Trap :=
  let d := mem.desc f.d
  let n := f.nm1.toNat + 1
  let ranges := (accRanges a f).map fun r => spadTrap tk r.1 r.2
  if f.dmode = 2#2 then
    firstTrap (spadTrap tk (4 * f.ixw.toNat) (n * a.z) :: ranges ++
      [frozenTrap mem (4 * f.ixw.toNat) (n * a.z), if fetch then frozenTrap mem (4 * f.srcw.toNat) (n * a.z) else none])
  else
    let dense := f.dmode == 0#2
    let skew := dense && (List.range (dNdim d)).any fun i => dStride d (i + 1) % (a.z : Int) != 0
    firstTrap ([descTrap d, if skew then some ⟨cAlignment, BitVec.ofNat 64 (dBase d), 0⟩ else none,
        if dense && decide (dPrefix d (dNdim d + 1) < n) then some ⟨cBounds, BitVec.ofNat 64 (dBase d), 0⟩ else none] ++ ranges ++
      ((accRanges a f).reverse.map fun r => poisonTrap mem r.1 r.2) ++ [if fetch then fetchTargets s tk mem a f else none])

/-- The plan of an accumulate: its signature record and frozen operands in a replicated task, and its deferral (R240, R241). -/
def accPlan (a : Aop) (fetch : Bool) (f : AccFields) (tk : Task) (mem : Member) (c : Cmd) : Plan :=
  let spad := f.dmode == 2#2
  let c1 := { c with desc := if spad then 0 else mem.desc f.d, bytes := (f.nm1.toNat + 1) * a.z }
  let body := c1.signHead ++ (if spad then [] else leBytes 32 c1.desc.toNat) ++
    (accRanges a f).flatMap fun r => signConts mem r.1 r.2
  let m1 := tk.sign mem .s 3 body
  if spad then ⟨m1, c1, .queued⟩
  else
    let m2 := if tk.replicated then (accRanges a f).foldl (fun m r => m.freeze r.1 r.2) m1 else m1
    ⟨{ m2 with lastAcc := m2.lastAcc || fetch }, c1, .deferred⟩

/-- ACC and ACCF of an AOP (R238 to R241). -/
def accumulate (i : Instr) (a : Aop) (fetch : Bool) (h : Hdr) (f : AccFields) (s : State) : Res :=
  match s.cur.phase with
  | .issue => issueCmd s i h (fun _ mem => accLegal a f mem) (accChecks s a fetch f) (accPlan a fetch f)
  | .perform => workCmd s (fun _ _ _ => f.nm1.toNat + 1) fun _ => accSpad a fetch f

/-- ACC.ADD.S32 (R239). -/
def execAccAddS32 (h : Hdr) (f : AccFields) (s : State) : Res := accumulate (.accAddS32 h f) .addS32 false h f s

/-- ACC.ADD.F32 (R239). -/
def execAccAddF32 (h : Hdr) (f : AccFields) (s : State) : Res := accumulate (.accAddF32 h f) .addF32 false h f s

/-- ACC.ADD.BF16 (R239). -/
def execAccAddBf16 (h : Hdr) (f : AccFields) (s : State) : Res := accumulate (.accAddBf16 h f) .addBf16 false h f s

/-- ACC.MIN.S32 (R239). -/
def execAccMinS32 (h : Hdr) (f : AccFields) (s : State) : Res := accumulate (.accMinS32 h f) .minS32 false h f s

/-- ACC.MAX.S32 (R239). -/
def execAccMaxS32 (h : Hdr) (f : AccFields) (s : State) : Res := accumulate (.accMaxS32 h f) .maxS32 false h f s

/-- ACC.MIN.Z32 (R239). -/
def execAccMinZ32 (h : Hdr) (f : AccFields) (s : State) : Res := accumulate (.accMinZ32 h f) .minZ32 false h f s

/-- ACC.MAX.Z32 (R239). -/
def execAccMaxZ32 (h : Hdr) (f : AccFields) (s : State) : Res := accumulate (.accMaxZ32 h f) .maxZ32 false h f s

/-- ACC.AND (R239). -/
def execAccAnd (h : Hdr) (f : AccFields) (s : State) : Res := accumulate (.accAnd h f) .and false h f s

/-- ACC.OR (R239). -/
def execAccOr (h : Hdr) (f : AccFields) (s : State) : Res := accumulate (.accOr h f) .or false h f s

/-- ACC.XOR (R239). -/
def execAccXor (h : Hdr) (f : AccFields) (s : State) : Res := accumulate (.accXor h f) .xor false h f s

/-- ACC.SWAP (R239). -/
def execAccSwap (h : Hdr) (f : AccFields) (s : State) : Res := accumulate (.accSwap h f) .swap false h f s

/-- ACCF.ADD.S32 (R239). -/
def execAccfAddS32 (h : Hdr) (f : AccFields) (s : State) : Res := accumulate (.accfAddS32 h f) .addS32 true h f s

/-- ACCF.ADD.F32 (R239). -/
def execAccfAddF32 (h : Hdr) (f : AccFields) (s : State) : Res := accumulate (.accfAddF32 h f) .addF32 true h f s

/-- ACCF.ADD.BF16 (R239). -/
def execAccfAddBf16 (h : Hdr) (f : AccFields) (s : State) : Res := accumulate (.accfAddBf16 h f) .addBf16 true h f s

/-- ACCF.MIN.S32 (R239). -/
def execAccfMinS32 (h : Hdr) (f : AccFields) (s : State) : Res := accumulate (.accfMinS32 h f) .minS32 true h f s

/-- ACCF.MAX.S32 (R239). -/
def execAccfMaxS32 (h : Hdr) (f : AccFields) (s : State) : Res := accumulate (.accfMaxS32 h f) .maxS32 true h f s

/-- ACCF.MIN.Z32 (R239). -/
def execAccfMinZ32 (h : Hdr) (f : AccFields) (s : State) : Res := accumulate (.accfMinZ32 h f) .minZ32 true h f s

/-- ACCF.MAX.Z32 (R239). -/
def execAccfMaxZ32 (h : Hdr) (f : AccFields) (s : State) : Res := accumulate (.accfMaxZ32 h f) .maxZ32 true h f s

/-- ACCF.AND (R239). -/
def execAccfAnd (h : Hdr) (f : AccFields) (s : State) : Res := accumulate (.accfAnd h f) .and true h f s

/-- ACCF.OR (R239). -/
def execAccfOr (h : Hdr) (f : AccFields) (s : State) : Res := accumulate (.accfOr h f) .or true h f s

/-- ACCF.XOR (R239). -/
def execAccfXor (h : Hdr) (f : AccFields) (s : State) : Res := accumulate (.accfXor h f) .xor true h f s

/-- ACCF.SWAP (R239). -/
def execAccfSwap (h : Hdr) (f : AccFields) (s : State) : Res := accumulate (.accfSwap h f) .swap true h f s

/-! ## CAS (R242) -/

/-- The record containers a CAS uses: compare and new value. -/
def casUsed (recw : BitVec 17) (w64 : BitVec 1) : List Nat :=
  let r := recw.toNat
  if w64 = 1#1 then [r, r + 1, r + 2, r + 3] else [r, r + 2]

/-- The value of a record field of n bytes at offset o. -/
def casField (mem : Member) (recw : BitVec 17) (o n : Nat) : Nat :=
  leNat ((List.range n).map fun i => (mem.spByte (4 * recw.toNat + o + i)).1)

/-- A CAS performed at a commit on the target at a physical address, with the values it compares with and stores, and its result record in
every replica (R242). -/
def casPerform (s : State) (t : Nat) (mem : Member) (recw : BitVec 17) (w64 : BitVec 1) (scope : BitVec 2) (pa cmp new : Nat) :
    State × Member :=
  let n := if w64 = 1#1 then 8 else 4
  let old := s.loadNat pa n
  let s1 := if old = cmp then s.wrAtomic pa mem.core scope.toNat (leBytes n new) else s
  let put := fun (m : Member) => m.putValue (4 * recw.toNat + 16) 8 old
  ((s1.dropLine pa mem.core scope.toNat).spread t mem put, put (mem.dropLine pa))

/-- The piece of a CAS at a commit. -/
def casPiece (recw : BitVec 17) (w64 : BitVec 1) (scope : BitVec 2) (tk : Task) (s : State) (mem : Member) (c : Cmd) : UnitRes :=
  let t := s.cur.task
  let n := if w64 = 1#1 then 8 else 4
  let cmp := casField mem recw 0 n
  let new := casField mem recw 8 n
  let bad := fun (m : Member) => (m.setCont (recw.toNat + 4) Container.none).setCont (recw.toNat + 5) Container.none
  if c.step = 1 then (if s.entryLeft c then ⟨.full, s, mem, c⟩ else ⟨.ok, s, mem, { c with step := 0 }⟩)
  else if (casUsed recw w64).any fun i => !(mem.cont i).valid || (mem.cont i).poison then ⟨.ok, s.spread t mem bad, bad mem, c⟩
  else atomicAt tk s mem c 0 (dBase c.desc) n new (BitVec.ofNat 64 cmp) fun s1 m1 pa => casPerform s1 t m1 recw w64 scope pa cmp new

/-- CAS (R241, R242). [DEDUCED, log 11] -/
def execCas (h : Hdr) (d : BitVec 6) (recw : BitVec 17) (w64 : BitVec 1) (scope : BitVec 2) (s : State) : Res :=
  let a := 4 * recw.toNat
  match s.cur.phase with
  | .issue =>
    issueCmd s (.cas h d recw w64 scope) h (fun _ _ => true)
      (fun tk mem =>
        let dd := mem.desc d
        let n := if w64 = 1#1 then 8 else 4
        firstTrap ([descTrap dd, if dBase dd % n = 0 then none else some ⟨cAlignment, BitVec.ofNat 64 (dBase dd), 0⟩,
            if a % 8 = 0 then none else some ⟨cAlignment, BitVec.ofNat 64 a, 0⟩, spadTrap tk a 24] ++
          ((casUsed recw w64).map fun i => poisonTrap mem (4 * i) 4) ++
          [targetTrap s tk mem (dBase dd)]))
      fun tk mem c =>
        let c1 := { c with desc := mem.desc d, bytes := if w64 = 1#1 then 8 else 4 }
        let m1 := tk.sign mem .s 3 (c1.signHead ++ leBytes 32 c1.desc.toNat ++ signConts mem a 16)
        let m2 := if tk.replicated then m1.freeze a 16 else m1
        ⟨{ m2 with lastAcc := true }, c1, .deferred⟩
  | .perform => onMember s fun _ _ => .next s

end Sys2Proof.Machine
end

