-- ==== Sys2Proof/Machine/Sha.lean ====
section
/-! DEFINITION. SHA-256 and SHA-384 (FIPS 180-4; R245, R436, R437) and the CRC-64 of the store signature (R318). -/

namespace Sys2Proof.Machine

/-! ## Byte strings, most significant byte first -/

/-- The number of a big-endian byte string. -/
def beNat (bs : List Byte) : Nat := bs.foldl (fun a b => a * 256 + b.toNat) 0

/-- The n bytes of a number, most significant first. -/
def beBytes : Nat → Nat → List Byte
  | 0, _ => []
  | n + 1, v => beBytes n (v / 256) ++ [BitVec.ofNat 8 v]

/-- A message padded to whole blocks of n bytes with a length field of f bytes. -/
def shaPad (n f : Nat) (m : List Byte) : List Byte :=
  let z := (2 * n - (m.length + 1 + f) % n) % n
  m ++ 0x80#8 :: List.replicate z 0#8 ++ beBytes f (8 * m.length)

/-- The words of a block, n of w bytes each. -/
def shaWords (w : Nat) : Nat → List Byte → List Nat
  | 0, _ => []
  | n + 1, bs => beNat (bs.take w) :: shaWords w n (bs.drop w)

/-! ## SHA-256 -/

/-- The round constants of SHA-256. -/
def sha256K : List W32 :=
  [0x428A2F98, 0x71374491, 0xB5C0FBCF, 0xE9B5DBA5, 0x3956C25B, 0x59F111F1, 0x923F82A4, 0xAB1C5ED5,
   0xD807AA98, 0x12835B01, 0x243185BE, 0x550C7DC3, 0x72BE5D74, 0x80DEB1FE, 0x9BDC06A7, 0xC19BF174] ++
  [0xE49B69C1, 0xEFBE4786, 0x0FC19DC6, 0x240CA1CC, 0x2DE92C6F, 0x4A7484AA, 0x5CB0A9DC, 0x76F988DA,
   0x983E5152, 0xA831C66D, 0xB00327C8, 0xBF597FC7, 0xC6E00BF3, 0xD5A79147, 0x06CA6351, 0x14292967] ++
  [0x27B70A85, 0x2E1B2138, 0x4D2C6DFC, 0x53380D13, 0x650A7354, 0x766A0ABB, 0x81C2C92E, 0x92722C85,
   0xA2BFE8A1, 0xA81A664B, 0xC24B8B70, 0xC76C51A3, 0xD192E819, 0xD6990624, 0xF40E3585, 0x106AA070] ++
  [0x19A4C116, 0x1E376C08, 0x2748774C, 0x34B0BCB5, 0x391C0CB3, 0x4ED8AA4A, 0x5B9CCA4F, 0x682E6FF3,
   0x748F82EE, 0x78A5636F, 0x84C87814, 0x8CC70208, 0x90BEFFFA, 0xA4506CEB, 0xBEF9A3F7, 0xC67178F2]

/-- The initial hash of SHA-256. -/
def sha256H : List W32 :=
  [0x6A09E667, 0xBB67AE85, 0x3C6EF372, 0xA54FF53A, 0x510E527F, 0x9B05688C, 0x1F83D9AB, 0x5BE0CD19]

/-- n more words of the message schedule, latest first. -/
def sha256Schedule : Nat → List W32 → List W32
  | 0, w => w
  | n + 1, w =>
    let a := w.getD 1 0
    let b := w.getD 14 0
    let s1 := a.rotateRight 17 ^^^ a.rotateRight 19 ^^^ (a >>> 10)
    let s0 := b.rotateRight 7 ^^^ b.rotateRight 18 ^^^ (b >>> 3)
    sha256Schedule n ((s1 + w.getD 6 0 + s0 + w.getD 15 0) :: w)

/-- One round with constant plus schedule word kw, on the eight working variables. -/
def sha256Round (v : List W32) (kw : W32) : List W32 :=
  match v with
  | [a, b, c, d, e, f, g, h] =>
    let t1 := h + (e.rotateRight 6 ^^^ e.rotateRight 11 ^^^ e.rotateRight 25) + ((e &&& f) ^^^ (~~~e &&& g)) + kw
    let t2 := (a.rotateRight 2 ^^^ a.rotateRight 13 ^^^ a.rotateRight 22) + ((a &&& b) ^^^ (a &&& c) ^^^ (b &&& c))
    [t1 + t2, a, b, c, d + t1, e, f, g]
  | _ => v

/-- The hash after one block of 64 bytes. -/
def sha256Block (h : List W32) (block : List Byte) : List W32 :=
  let w := (sha256Schedule 48 ((shaWords 4 16 block).map (BitVec.ofNat 32)).reverse).reverse
  List.zipWith (· + ·) h ((List.zipWith (· + ·) sha256K w).foldl sha256Round h)

/-- The hash after n blocks. -/
def sha256Blocks : Nat → List W32 → List Byte → List W32
  | 0, h, _ => h
  | n + 1, h, m => sha256Blocks n (sha256Block h (m.take 64)) (m.drop 64)

/-- The SHA-256 digest of a byte string. [PRESUMED, log 56] -/
def sha256 (m : List Byte) : List Byte :=
  let p := shaPad 64 8 m
  (sha256Blocks (p.length / 64) sha256H p).flatMap fun x => beBytes 4 x.toNat

/-! ## SHA-384 -/

/-- The round constants of SHA-384. -/
def sha512K : List W64 :=
  [0x428A2F98D728AE22, 0x7137449123EF65CD, 0xB5C0FBCFEC4D3B2F, 0xE9B5DBA58189DBBC,
   0x3956C25BF348B538, 0x59F111F1B605D019, 0x923F82A4AF194F9B, 0xAB1C5ED5DA6D8118,
   0xD807AA98A3030242, 0x12835B0145706FBE, 0x243185BE4EE4B28C, 0x550C7DC3D5FFB4E2,
   0x72BE5D74F27B896F, 0x80DEB1FE3B1696B1, 0x9BDC06A725C71235, 0xC19BF174CF692694] ++
  [0xE49B69C19EF14AD2, 0xEFBE4786384F25E3, 0x0FC19DC68B8CD5B5, 0x240CA1CC77AC9C65,
   0x2DE92C6F592B0275, 0x4A7484AA6EA6E483, 0x5CB0A9DCBD41FBD4, 0x76F988DA831153B5,
   0x983E5152EE66DFAB, 0xA831C66D2DB43210, 0xB00327C898FB213F, 0xBF597FC7BEEF0EE4,
   0xC6E00BF33DA88FC2, 0xD5A79147930AA725, 0x06CA6351E003826F, 0x142929670A0E6E70] ++
  [0x27B70A8546D22FFC, 0x2E1B21385C26C926, 0x4D2C6DFC5AC42AED, 0x53380D139D95B3DF,
   0x650A73548BAF63DE, 0x766A0ABB3C77B2A8, 0x81C2C92E47EDAEE6, 0x92722C851482353B,
   0xA2BFE8A14CF10364, 0xA81A664BBC423001, 0xC24B8B70D0F89791, 0xC76C51A30654BE30,
   0xD192E819D6EF5218, 0xD69906245565A910, 0xF40E35855771202A, 0x106AA07032BBD1B8] ++
  [0x19A4C116B8D2D0C8, 0x1E376C085141AB53, 0x2748774CDF8EEB99, 0x34B0BCB5E19B48A8,
   0x391C0CB3C5C95A63, 0x4ED8AA4AE3418ACB, 0x5B9CCA4F7763E373, 0x682E6FF3D6B2B8A3,
   0x748F82EE5DEFB2FC, 0x78A5636F43172F60, 0x84C87814A1F0AB72, 0x8CC702081A6439EC,
   0x90BEFFFA23631E28, 0xA4506CEBDE82BDE9, 0xBEF9A3F7B2C67915, 0xC67178F2E372532B] ++
  [0xCA273ECEEA26619C, 0xD186B8C721C0C207, 0xEADA7DD6CDE0EB1E, 0xF57D4F7FEE6ED178,
   0x06F067AA72176FBA, 0x0A637DC5A2C898A6, 0x113F9804BEF90DAE, 0x1B710B35131C471B,
   0x28DB77F523047D84, 0x32CAAB7B40C72493, 0x3C9EBE0A15C9BEBC, 0x431D67C49C100D4C,
   0x4CC5D4BECB3E42B6, 0x597F299CFC657E2A, 0x5FCB6FAB3AD6FAEC, 0x6C44198C4A475817]

/-- The initial hash of SHA-384. -/
def sha384H : List W64 :=
  [0xCBBB9D5DC1059ED8, 0x629A292A367CD507, 0x9159015A3070DD17, 0x152FECD8F70E5939,
   0x67332667FFC00B31, 0x8EB44A8768581511, 0xDB0C2E0D64F98FA7, 0x47B5481DBEFA4FA4]

/-- n more words of the message schedule, latest first. -/
def sha512Schedule : Nat → List W64 → List W64
  | 0, w => w
  | n + 1, w =>
    let a := w.getD 1 0
    let b := w.getD 14 0
    let s1 := a.rotateRight 19 ^^^ a.rotateRight 61 ^^^ (a >>> 6)
    let s0 := b.rotateRight 1 ^^^ b.rotateRight 8 ^^^ (b >>> 7)
    sha512Schedule n ((s1 + w.getD 6 0 + s0 + w.getD 15 0) :: w)

/-- One round with constant plus schedule word kw, on the eight working variables. -/
def sha512Round (v : List W64) (kw : W64) : List W64 :=
  match v with
  | [a, b, c, d, e, f, g, h] =>
    let t1 := h + (e.rotateRight 14 ^^^ e.rotateRight 18 ^^^ e.rotateRight 41) + ((e &&& f) ^^^ (~~~e &&& g)) + kw
    let t2 := (a.rotateRight 28 ^^^ a.rotateRight 34 ^^^ a.rotateRight 39) + ((a &&& b) ^^^ (a &&& c) ^^^ (b &&& c))
    [t1 + t2, a, b, c, d + t1, e, f, g]
  | _ => v

/-- The hash after one block of 128 bytes. -/
def sha512Block (h : List W64) (block : List Byte) : List W64 :=
  let w := (sha512Schedule 64 ((shaWords 8 16 block).map (BitVec.ofNat 64)).reverse).reverse
  List.zipWith (· + ·) h ((List.zipWith (· + ·) sha512K w).foldl sha512Round h)

/-- The hash after n blocks. -/
def sha512Blocks : Nat → List W64 → List Byte → List W64
  | 0, h, _ => h
  | n + 1, h, m => sha512Blocks n (sha512Block h (m.take 128)) (m.drop 128)

/-- The SHA-384 digest of a byte string. [PRESUMED, log 56] -/
def sha384 (m : List Byte) : List Byte :=
  let p := shaPad 128 16 m
  ((sha512Blocks (p.length / 128) sha384H p).take 6).flatMap fun x => beBytes 8 x.toNat

/-! ## CRC-64 (R318) -/

/-- n bits shifted into a CRC-64 register with the ECMA-182 polynomial. -/
def crcBits : Nat → W64 → W64
  | 0, r => r
  | n + 1, r => crcBits n (if r.getMsbD 0 then (r <<< 1) ^^^ 0x42F0E1EBA9EA3693 else r <<< 1)

/-- The CRC-64 of a byte string from a register. [PRESUMED, log 56] -/
def crc64 (r : W64) (bs : List Byte) : W64 := bs.foldl (fun a b => crcBits 8 (a ^^^ (BitVec.ofNat 64 b.toNat <<< 56))) r

end Sys2Proof.Machine
end

