-- ==== Sys2Proof/Machine/Link.lean ====
section
/-! DEFINITION. Fjostan links: the virtual channels of messages, flits, their CRC, sending and replay (R417 to R420, R424, R432). -/

namespace Sys2Proof.Machine

/-- The virtual channel of a message (R419, R424): requests on 0, answers and DATA on 1. -/
def msgVc : Msg → Nat
  | .register .. | .unregister .. | .lookup .. | .rlease .. | .rlrenew .. | .rlfree .. | .read .. => 0
  | .holders .. | .rlgrant .. | .rldeny .. | .data .. => 1

/-- The name a message concerns. -/
def msgName : Msg → Name
  | .register n _ | .unregister n _ | .lookup n _ | .holders n _ | .rlease n _ _ | .rlgrant n _ _ _ | .rldeny n _ _
  | .rlrenew n _ _ _ | .rlfree n _ _ | .read n _ _ _ _ | .data n _ _ _ _ => n

/-- The bytes of a message (R424): its layout in its flits is not given. [DESIGN CHOICE, log 62] -/
def msgBytes : Msg → List Byte
  | .register n d => Config.messageBytes 0 n [d.toNat]
  | .unregister n d => Config.messageBytes 1 n [d.toNat]
  | .lookup n d => Config.messageBytes 2 n [d.toNat]
  | .holders n ds => Config.messageBytes 3 n (ds.length :: ds.map BitVec.toNat)
  | .rlease n d t => Config.messageBytes 4 n [d.toNat, t.toNat]
  | .rlgrant n d i t => Config.messageBytes 5 n [d.toNat, i.toNat, t.toNat]
  | .rldeny n d full => Config.messageBytes 6 n [d.toNat, if full then 1 else 0]
  | .rlrenew n d i t => Config.messageBytes 7 n [d.toNat, i.toNat, t.toNat]
  | .rlfree n d i => Config.messageBytes 8 n [d.toNat, i.toNat]
  | .read n d i o l => Config.messageBytes 9 n [d.toNat, i.toNat, o, l]
  | .data n d i o bs => Config.messageBytes 10 n (d.toNat :: i.toNat :: o :: bs.map BitVec.toNat)

/-- Message bytes that a flit carries (R418). -/
def flitBody : Nat := 236

/-- A message cut into flits (R417, R418); bytes beyond its end are 0. -/
def flitsOf (vc : Nat) (dest src : BitVec 20) (bs : List Byte) : List Flit :=
  (List.range ((bs.length + flitBody - 1) / flitBody)).map fun i =>
    ⟨vc, dest, src, (List.range flitBody).map fun k => bs.getD (i * flitBody + k) 0⟩

/-- Bytes 0 to 247 of a flit with its link sequence number (R418). -/
def Flit.head (f : Flit) (seq : W32) : List Byte :=
  leBytes 2 (f.vc % 4) ++ leBytes 3 f.dest.toNat ++ leBytes 3 f.src.toNat ++ leBytes 4 seq.toNat ++
    (List.range flitBody).map fun k => f.body.getD k 0

/-- The 256 bytes of a flit: its CRC-64 stands last (R318, R418). -/
def Flit.bytes (f : Flit) (seq : W32) : List Byte := f.head seq ++ leBytes 8 (crc64 0 (f.head seq)).toNat

/-- The CRC of a flit that has arrived is right (R418). -/
def flitGood (bs : List Byte) : Bool := leNat ((bs.drop 248).take 8) == (crc64 0 (bs.take 248)).toNat && bs.length == 256

/-- The link sequence number of a flit that has arrived (R418). -/
def flitSeq (bs : List Byte) : W32 := BitVec.ofNat 32 (leNat ((bs.drop 8).take 4))

/-- A count of a port some higher, saturating (R432). -/
def bump16 (n k : Nat) : Nat := min (n + k) 65535

/-- A port in service sends the waiting flits of every channel whose stop signal is down (R419); they stay until they are taken. -/
def Port.pump (x : Port) : Port :=
  if x.state ≠ 2 then x
  else
    let go := x.waiting.filter fun f => !x.stops.contains f.vc
    { x with waiting := x.waiting.filter fun f => x.stops.contains f.vc, unacked := x.unacked ++ go
             sendSeq := x.sendSeq + BitVec.ofNat 32 go.length }

/-- The sequence number of the oldest flit sent and not yet taken. -/
def Port.firstSeq (x : Port) : W32 := x.sendSeq - BitVec.ofNat 32 x.unacked.length

/-- Flits of a port sent before a sequence number, where that number is one of those sent. -/
def Port.sentBefore (x : Port) (seq : W32) : Option Nat :=
  if (seq - x.firstSeq).toNat ≤ x.unacked.length then some (seq - x.firstSeq).toNat else none

/-- A port out of service until it trains again (R418): flits not yet taken wait for that. [DEDUCED, log 62] -/
def Port.fail (x : Port) : Port := { x with state := 3, width := 0, tries := 0 }

/-- A flit as it has arrived (R418). -/
def flitOf (bs : List Byte) : Flit :=
  ⟨leNat (bs.take 1) % 4, BitVec.ofNat 20 (leNat ((bs.drop 2).take 3)), BitVec.ofNat 20 (leNat ((bs.drop 5).take 3)), (bs.drop 12).take flitBody⟩

/-- A flit taken in order: it stands in its channel's buffers, whose stop signal goes up where they hold a round trip (R419), and its number is
returned (R418). -/
def Port.take (x : Port) (f : Flit) : Port :=
  let rx := x.rx ++ [f]
  let full := decide (Config.linkRoom ≤ (rx.filter fun g => g.vc == f.vc).length) && !x.ownStops.contains f.vc
  { x with
    nextSeq := x.nextSeq + 1, rx, ownStops := if full then f.vc :: x.ownStops else x.ownStops
    returned := x.returned ++ [.taken x.nextSeq] ++ if full then [.stop f.vc true] else [] }

/-- A flit refused: the other end is to replay from the next one in order (R418). -/
def Port.refuse (x : Port) : Port := { x with returned := x.returned ++ [.refused x.nextSeq] }

/-- What a port does when its link's other end acts (R418, R419, R432). A flit in sequence with a right CRC is taken, any other refused. A refused flit and those
after it are replayed in order; the link whose one flit has failed 16 replays leaves service. [DEDUCED, log 62] -/
def Port.link (x : Port) : LinkEvent → Port
  | .flit bs =>
    if flitGood bs && flitSeq bs == x.nextSeq then x.take (flitOf bs)
    else if flitGood bs then x.refuse else { x.refuse with crcerr := bump16 x.crcerr 1 }
  | .taken seq =>
    match x.sentBefore (seq + 1) with
    | some k => { x with unacked := x.unacked.drop k, tries := if k = 0 then x.tries else 0 }
    | none => x
  | .refused seq =>
    match x.sentBefore seq with
    | some k =>
      let n := if k = 0 then x.tries else 0
      if x.unacked.length ≤ k then x
      else if 16 ≤ n then { x with unacked := x.unacked.drop k }.fail
      else { x with unacked := x.unacked.drop k, tries := n + 1, replay := bump16 x.replay (x.unacked.length - k) }
    | none => x
  | .stop vc up => { x with stops := if up then vc :: x.stops.erase vc else x.stops.erase vc }.pump

/-- The first channel and source of which some flits hold a whole message: the message, and the flits left. -/
def wholeMessage (l : List Flit) : Option (Flit × (Nat × Name × List Nat) × List Flit) :=
  ((l.map fun f => (f.vc, f.src)).eraseDups).findSome? fun k =>
    let mine := l.filter fun f => (f.vc, f.src) == k
    (mine.head?).bind fun f => (Config.messageIn k.1 (mine.flatMap (·.body))).map fun m => (f, m, l.filter fun f => (f.vc, f.src) != k)

/-- A port with the flits in its buffers taken out of them, and its stop signals down again (R419). -/
def Port.drain (x : Port) : Port :=
  { x with rx := [], parts := x.parts ++ x.rx, ownStops := [], returned := x.returned ++ x.ownStops.map fun vc => .stop vc false }

/-- The event of a message by its number, its name and its fields, from a source: directory messages (R424), and the time message of virtual channel 2
(R419, R429). -/
def arrival (src : BitVec 20) : Nat × Name × List Nat → Option (Instr × Arg)
  | (0, n, _) => some (.register, .msg (.register n src))
  | (1, n, _) => some (.unregister, .msg (.unregister n src))
  | (2, n, _) => some (.lookup, .msg (.lookup n src))
  | (3, n, ds) => some (.holders, .msg (.holders n (ds.map (BitVec.ofNat 20))))
  | (4, n, [t]) => some (.rlease, .msg (.rlease n src (BitVec.ofNat 16 t)))
  | (5, n, [i, t]) => some (.rlgrant, .msg (.rlgrant n src (BitVec.ofNat 32 i) (BitVec.ofNat 16 t)))
  | (6, n, [full]) => some (.rldeny, .msg (.rldeny n src (full != 0)))
  | (7, n, [i, t]) => some (.rlrenew, .msg (.rlrenew n src (BitVec.ofNat 32 i) (BitVec.ofNat 16 t)))
  | (8, n, [i]) => some (.rlfree, .msg (.rlfree n src (BitVec.ofNat 32 i)))
  | (9, n, [i, o, l]) => some (.read, .msg (.read n src (BitVec.ofNat 32 i) o l))
  | (10, n, i :: o :: bs) => some (.data, .msg (.data n src (BitVec.ofNat 32 i) o (bs.map (BitVec.ofNat 8))))
  | (11, _, [ns, delay, offset]) => some (.timeMessage, .timeMsg .fjostan src ns delay offset)
  | _ => none

/-- Every whole message of a port taken out of its flits, in order, with the event it brings. [DESIGN CHOICE, log 62] -/
def Port.messages : Nat → Port → Port × List (Instr × Arg)
  | 0, x => (x, [])
  | n + 1, x => match wholeMessage x.parts with
    | none => (x, [])
    | some (f, m, rest) =>
      let r := Port.messages n { x with parts := rest }
      (r.1, (arrival f.src m).toList ++ r.2)

/-- The 64-bit status word of a port (R432). -/
def Port.word (x : Port) : W64 :=
  BitVec.ofNat 16 x.timeout ++ BitVec.ofNat 16 x.crcerr ++ BitVec.ofNat 16 x.replay ++ 0#12 ++ x.width ++ x.state

/-- A change of the Fjostan side. -/
def State.modFabric (s : State) (f : Fabric → Fabric) : State := { s with fabric := f s.fabric }

/-- A port changed. -/
def State.modPort (s : State) (p : Nat) (f : Port → Port) : State := s.modFabric fun x => { x with ports := x.ports.modify p f }

/-- Planes in service, from a plane on in ascending order modulo 16 (R420). -/
def State.planesFrom (s : State) (p : Nat) : List Nat :=
  ((List.range 16).map fun i => (p + i) % 16).filter fun i => (s.fabric.ports.getD i Port.reset).state == 2#2

/-- The plane of a name's messages: NAME[5:2], or the next plane in service (R420). [DEDUCED, log 23] -/
def State.planeOf (s : State) (n : Name) : Option Nat := (s.planesFrom (n.extractLsb' 2 4).toNat).head?

/-- A message sent to a device on a plane: its flits join the queue of its virtual channel at that port (R417 to R420). -/
def State.sendOn (s : State) (p : Nat) (dest : BitVec 20) (m : Msg) : State :=
  ({ s with fabric := { s.fabric with outbox := s.fabric.outbox ++ [(p, msgVc m, dest, m)] } }).modPort p fun x =>
    { x with waiting := x.waiting ++ flitsOf (msgVc m) dest s.regs.devid (msgBytes m) }.pump

/-- A message sent to a device; with no plane in service nothing is sent. [DEDUCED, log 23] -/
def State.send (s : State) (dest : BitVec 20) (m : Msg) : State :=
  match s.planeOf (msgName m) with
  | none => s
  | some p => s.sendOn p dest m

/-- The DATA of one READ, from an offset of the block on, spread over every plane in service (R420). [DEDUCED, log 62] -/
def State.sendData (s : State) (dest : BitVec 20) (nm : Name) (id : W32) (off : Nat) (bytes : List Byte) : State :=
  let ps := s.planesFrom (nm.extractLsb' 2 4).toNat
  let n := (bytes.length + ps.length - 1) / ps.length
  (List.range ps.length).foldl (fun st i =>
    let piece := (bytes.drop (i * n)).take n
    if piece.isEmpty then st else st.sendOn (ps.getD i 0) dest (.data nm s.regs.devid id (off + i * n) piece)) s

end Sys2Proof.Machine
end

