-- ==== Sys2Proof/Machine/Store.lean ====
section
/-! DEFINITION. The objects of the prefix store and the operations its commands are built of: names, the name home,
slots, nodes, summaries, sealing, leases, quota, room and eviction (R244 to R253, R267, R371 to R379, R420 to R425). -/

namespace Sys2Proof.Machine

/-! ## Names (R245, R246) -/

/-- The stored name of a digest: byte i in bits [8i + 7 : 8i]. -/
def digestName (d : List Byte) : Name := BitVec.ofNat 128 (leNat (d.take 16))

/-- The root name of a pair of tags. -/
def rootName (ctag mtag : W64) : Name := digestName (sha256 (leBytes 8 ctag.toNat ++ leBytes 8 mtag.toNat))

/-- Token identifiers as bytes. -/
def tokenBytes (ids : List W32) : List Byte := ids.flatMap fun i => leBytes 4 i.toNat

/-- The name of the block of some tokens after a name. -/
def blockName (nm : Name) (ids : List W32) : Name := digestName (sha256 (leBytes 16 nm.toNat ++ tokenBytes ids))

/-- n grain hashes of a token list: prev is the name before the block, or the hash before the grain. -/
def grainHashes : Nat → List Byte → List W32 → List W64
  | 0, _, _ => []
  | n + 1, prev, ids =>
    let d := (sha256 (prev ++ tokenBytes (ids.take 16))).take 8
    BitVec.ofNat 64 (leNat d) :: grainHashes n d (ids.drop 16)

/-- The grain hashes of a block after a name. -/
def blockHashes (n : Nat) (nm : Name) (ids : List W32) : List W64 := grainHashes n (leBytes 16 nm.toNat) ids

/-- A root name is on the list of a context (R246). -/
def State.permitted (s : State) (ctx : Nat) (root : Name) : Bool :=
  root != 0 && (List.range 16).any fun i => s.ctxField ctx (256 + 16 * i) 16 == root.toNat

/-! ## The name home (R421 to R425) -/

/-- The name home of a name (R423). -/
def State.homeOf (s : State) (n : Name) : BitVec 20 :=
  s.regs.devid.extractLsb' 10 10 ++ BitVec.ofNat 10 ((n.extractLsb' 64 32).toNat % s.mgmt.cfg.ndom)

/-- A device of this domain (R421). -/
def State.inDomain (s : State) (d : BitVec 20) : Bool :=
  d.extractLsb' 10 10 == s.regs.devid.extractLsb' 10 10 && decide ((d.extractLsb' 0 10).toNat < s.mgmt.cfg.ndom)

/-- A holder registered for a name at this device's name home (R423). -/
def Fabric.register (f : Fabric) (n : Name) (d : BitVec 20) : Fabric :=
  match f.homes.find? fun e => e.1 == n with
  | some e =>
    if e.2.contains d then f
    else if 8 ≤ e.2.length then { f with dropReg := f.dropReg + 1 }
    else { f with homes := f.homes.map fun k => if k.1 == n then (n, k.2 ++ [d]) else k }
  | none =>
    if Config.nameHomeEntries ≤ f.homes.length then { f with dropReg := f.dropReg + 1 }
    else { f with homes := f.homes ++ [(n, [d])] }

/-- A holder taken off a name at this device's name home (R425). -/
def Fabric.unregister (f : Fabric) (n : Name) (d : BitVec 20) : Fabric :=
  { f with homes := (f.homes.map fun k => if k.1 == n then (n, k.2.erase d) else k).filter fun k => !k.2.isEmpty }

/-- The holders this device's name home gives for a name, ascending (R424). -/
def Fabric.holdersOf (f : Fabric) (n : Name) : List (BitVec 20) :=
  match f.homes.find? fun e => e.1 == n with
  | some e => e.2.mergeSort fun a b => decide (a.toNat ≤ b.toNat)
  | none => []

/-- A node's name entered in, or taken out of, its name home (R425). -/
def State.announce (s : State) (n : Name) (enter : Bool) : State :=
  let me := s.regs.devid
  if s.homeOf n = me then
    { s with fabric := if enter then s.fabric.register n me else s.fabric.unregister n me }
  else s.send (s.homeOf n) (if enter then .register n me else .unregister n me)

/-! ## Geometry and records (R244, R247, R248, R378) -/

/-- The geometry of a slot. -/
def SeqSlot.geom (x : SeqSlot) : Geom := ⟨x.lm1 + 1, x.hm1 + 1, 16 * (x.cm1 + 1), x.kvf⟩

/-- The root name of a slot. -/
def SeqSlot.root (x : SeqSlot) : Name := rootName x.ctag x.mtag

/-- Tags and geometry of two slots are equal (R261). -/
def SeqSlot.like (a b : SeqSlot) : Bool := a.ctag == b.ctag && a.mtag == b.mtag && decide (a.geom = b.geom)

/-- The word that names no slot, node or lease. -/
def noneWord : W32 := 0xFFFFFFFF

/-- A node number as a word. -/
def nodeWord (n : Option Nat) : W32 := match n with
  | some k => BitVec.ofNat 32 k
  | none => noneWord

/-- The 64-byte record of a slot (R248). -/
def SeqSlot.record (x : SeqSlot) : Nat :=
  (nodeWord x.leaf).toNat + x.tok * 2 ^ 32 + x.tailn * 2 ^ 64 + (if x.opened then 2 ^ 80 else 0) + x.ctag.toNat * 2 ^ 96
    + x.mtag.toNat * 2 ^ 160 + x.gstate.toNat * 2 ^ 224 + x.lm1 * 2 ^ 256 + x.hm1 * 2 ^ 264 + x.cm1 * 2 ^ 268
    + (if x.kvf then 2 ^ 272 else 0)

/-- The 256-byte record of a node (R247). -/
def Node.record (n : Node) : Nat :=
  n.name.toNat + n.depth * 2 ^ 128 + (if n.kvf then 2 ^ 144 else 0) + n.evc.toNat * 2 ^ 145 + n.res.toNat * 2 ^ 147
    + n.lm1 * 2 ^ 152 + n.hm1 * 2 ^ 160 + n.cm1 * 2 ^ 164 + n.homedev.toNat * 2 ^ 168 + n.refc * 2 ^ 192 + n.lsh * 2 ^ 224
    + n.ldr * 2 ^ 240 + n.lch * 2 ^ 256 + n.lage * 2 ^ 272 + (nodeWord n.fchild).toNat * 2 ^ 288
    + (nodeWord n.nsib).toNat * 2 ^ 320 + (leNat (n.jumps.flatMap fun j => leBytes 4 (nodeWord j).toNat)) * 2 ^ 352
    + (leNat (n.gh.flatMap fun g => leBytes 8 g.toNat)) * 2 ^ 768 + n.root.toNat * 2 ^ 1792

/-- A number as n words. -/
def wordsOf : Nat → Nat → List W32
  | 0, _ => []
  | n + 1, v => BitVec.ofNat 32 v :: wordsOf n (v / 2 ^ 32)

/-! ## Slots and nodes by number -/

/-- A node replaced. -/
def State.putNode (s : State) (k : Nat) (n : Node) : State := { s with store := { s.store with nodes := s.store.nodes.put k n } }

/-- A node changed. -/
def State.modNode (s : State) (k : Nat) (f : Node → Node) : State :=
  match s.store.nodes.find k with
  | some n => s.putNode k (f n)
  | none => s

/-- A node that may be absent changed. -/
def State.modNode? (s : State) (k : Option Nat) (f : Node → Node) : State := match k with
  | some n => s.modNode n f
  | none => s

/-- A slot replaced. -/
def State.putSlot (s : State) (k : Nat) (x : SeqSlot) : State := { s with store := { s.store with slots := s.store.slots.put k x } }

/-- The open slot of a number for a context, its root permitted (R246, R261). -/
def State.slotOf (s : State) (ctx k : Nat) : Option SeqSlot :=
  match s.store.slots.find k with
  | some x => if x.opened && x.ctx == ctx && s.permitted ctx x.root then some x else none
  | none => none

/-- The node of a number for a context, its root permitted (R246). -/
def State.nodeOf (s : State) (ctx k : Nat) : Option Node :=
  match s.store.nodes.find k with
  | some n => if s.permitted ctx n.root then some n else none
  | none => none

/-- The node of a name (R247). -/
def State.nodeNamed (s : State) (nm : Name) : Option (Nat × Node) := s.store.nodes.find? fun p => p.2.name == nm

/-- The lowest number of a sorted map that is free, from lo. -/
def firstFree {α : Type} : Nat → SMap α → Nat
  | lo, [] => lo
  | lo, (i, _) :: r => if i = lo then firstFree (lo + 1) r else lo

/-- The lowest free slot (R261). -/
def State.freeSlot (s : State) : Option Nat :=
  let n := firstFree 0 (s.store.slots.filter fun p => p.2.opened)
  if n < 65536 then some n else none

/-- The lowest free node number (R247). -/
def State.freeNode (s : State) : Option Nat :=
  let n := firstFree 0 s.store.nodes
  if n < 16777216 then some n else none

/-- DEPTH of a leaf, 0 for none (R249). -/
def State.depthOf (s : State) (leaf : Option Nat) : Nat := ((leaf.bind fun k => s.store.nodes.find k).map (·.depth)).getD 0

/-- The children of a node by its chain, at most n. -/
def Store.chain (st : Store) : Nat → Option Nat → List Nat
  | 0, _ => []
  | n + 1, c =>
    match c with
    | none => []
    | some k => k :: (match st.nodes.find k with
      | some x => Store.chain st n x.nsib
      | none => [])

/-- The children of a node. -/
def State.children (s : State) (n : Node) : List Nat := s.store.chain s.store.nodes.length n.fchild

/-- The chain of a parent's children relinked. [DEDUCED, log 16] -/
def State.relink (s : State) (parent : Nat) (cs : List Nat) : State :=
  let s1 := s.modNode parent fun n => { n with fchild := cs.head? }
  (List.range cs.length).foldl (fun st i => st.modNode (cs.getD i 0) fun n => { n with nsib := cs[i + 1]? }) s1

/-- The step of the ancestor walk of R249: bit i of r, from 11 down. -/
def Store.climb (st : Store) : Nat → Nat → Option Nat → Option Nat
  | 0, _, n => n
  | i + 1, r, n => Store.climb st i r (if r.testBit i then (n.bind fun k => st.nodes.find k).bind fun x => (x.jumps[i]?).join else n)

/-- What a token position resolves to (R249). -/
inductive Place where
  | outside
  | node (n tok : Nat)
  | tail (tok : Nat)
  deriving DecidableEq, Repr

/-- Position p of a sequence with a leaf and a token count (R249). -/
def State.resolve (s : State) (leaf : Option Nat) (tok p : Nat) : Place :=
  let d := s.depthOf leaf
  if tok ≤ p then .outside
  else if p < 256 * d then
    match s.store.climb 12 (d - (p / 256 + 1)) leaf with
    | some n => .node n (p % 256)
    | none => .outside
  else .tail (p - 256 * d)

/-! ## Lease time and quota (R252, R378) -/

/-- NOW (R252). -/
def State.nowTick (s : State) : Nat := s.time.tick - s.time.base

/-- Quota of a context in a tier (R401, R402). -/
def State.quota (s : State) (ctx tier : Nat) : Nat := s.ctxField ctx (48 + 8 * tier) 8

/-- Usage of a context in a tier. -/
def State.usageOf (s : State) (ctx tier : Nat) : Nat := (s.store.usage.find (4 * ctx + tier)).getD 0

/-- A charge taken, or none where it would exceed the quota (R378). -/
def State.charge (s : State) (ctx tier n : Nat) : Option State :=
  let u := s.usageOf ctx tier + n
  if s.quota ctx tier < u then none else some { s with store := { s.store with usage := s.store.usage.put (4 * ctx + tier) u } }

/-- A charge returned. -/
def State.refund (s : State) (ctx tier n : Nat) : State :=
  { s with store := { s.store with usage := s.store.usage.put (4 * ctx + tier) (s.usageOf ctx tier - n) } }

/-! ## Blocks that go (R308, R359, R368) -/

/-- L1 lines that a test names leave every L1 (R308, R359). -/
def State.dropLines (s : State) (gone : Nat → Bool) : State :=
  let keep := fun (ls : List Line) => ls.filter fun l => !gone l.pa
  { s with
    tasks := s.tasks.map fun tk => { tk with members := tk.members.map fun m => { m with l1 := keep m.l1 } }
    cores := s.cores.map fun c => (c.1, { c.2 with l1 := keep c.2.l1 }) }

/-- The planes of a node or the tail of a slot leave the shelf. -/
def Store.unshelve (st : Store) (tail : Bool) (k : Nat) : Store :=
  { st with shelf := st.shelf.filter fun l => !(l.tail == tail && l.owner == k) }

/-- The entries of page tables that map some of the pages given: those of the bytes in memory that read as a leaf (R308, R348). [DESIGN
CHOICE, log 59] -/
def State.mapsOf (s : State) (pages : List Nat) : List (Nat × Nat) :=
  (s.mem.filter fun c => c.1 % 8 == 0).flatMap fun c => [2, 3, 4].flatMap fun lv =>
    match decodePte lv (BitVec.ofNat 64 (s.loadNat c.1 8)) with
    | .leaf l => (pages.filter fun p => within (4096 * p) l.base l.size).map fun p => (c.1, p)
    | _ => []

/-- TLB entries but those that cover a page a test names. -/
def tlbWithout (gone : List Nat) (t : List TlbEntry) : List TlbEntry :=
  t.filter fun e => !gone.any fun p => within (4096 * p) e.leaf.base e.leaf.size

/-- A member's TLB entries but those that cover some pages. -/
def Member.unmap (mem : Member) (pages : List Nat) : Member :=
  { mem with tlbC := tlbWithout pages mem.tlbC, tlbL := tlbWithout pages mem.tlbL, tlbS := tlbWithout pages mem.tlbS }

/-- Pages unmapped (R308, R368): no entry maps them before it is written again, no TLB holds them, and their lines leave every L1. [DESIGN
CHOICE, log 59] -/
def State.unmap (s : State) (pages : List Nat) : State :=
  let s1 := s.dropLines fun pa => pages.contains (pa / 4096)
  { s1 with
    unmapped := s1.unmapped ++ s.mapsOf pages
    xlat := tlbWithout pages s1.xlat
    tasks := s1.tasks.map fun tk => { tk with members := tk.members.map fun m => m.unmap pages }
    cores := s1.cores.map fun c => (c.1, { c.2 with
      tlbC := tlbWithout pages c.2.tlbC, tlbL := tlbWithout pages c.2.tlbL, tlbS := tlbWithout pages c.2.tlbS }) }

/-- A node taken out of the name table (R368): its parent loses a reference and a child, its pages are unmapped and their lines leave every
L1 (R308), and its number is free. -/
def State.removeNode (s : State) (k : Nat) : State :=
  match s.store.nodes.find k with
  | none => s
  | some n =>
    let s1 := match (n.jumps[0]?).join with
      | some p => (s.relink p ((match s.store.nodes.find p with
          | some x => s.children x
          | none => []).filter (· != k))).modNode p fun x => { x with refc := x.refc - 1 }
      | none => s
    let s2 := s1.unmap n.pages
    ({ s2 with store := { s2.store.unshelve false k with
        nodes := s2.store.nodes.del k, guards := s2.store.guards.filter fun g => g.1 != k } }).announce n.name false

/-! ## Eviction (R267, R368, R375, R376, R430) -/

/-- The node is resident in a tier. -/
def Node.inTier (n : Node) (t : Nat) : Bool := n.res.getLsbD t

/-- RES of a tier set or cleared. -/
def Node.setTier (n : Node) (t : Nat) (on : Bool) : Node :=
  let bit : BitVec 3 := 1#3 <<< t
  { n with res := if on then n.res ||| bit else n.res &&& ~~~bit }

/-- A candidate that leaves a tier is removed from the name table rather than moved (R267). -/
def State.leavesTable (s : State) (n : Node) (t : Nat) : Bool :=
  t == 2 || (t == 1 && !(s.chestOn && (n.refc != 0 || n.evc != 3#2)))

/-- The command of a piece of commit work. -/
def Work.cmd? : Work → Option Cmd
  | .cmd _ c => some c
  | _ => none

/-- The commands of a commit in progress. -/
def Commit.cmds : Commit → List Cmd
  | .step2 _ w => w.filterMap Work.cmd?
  | _ => []

/-- A BSEL, CPACT or PGATH that has started still resolves to the node: it finishes with its mapping (R258, R371). -/
def State.keptNode (s : State) (k : Nat) : Bool :=
  let names := fun (c : Cmd) => (c.kept.map fun x => x.blocks.contains (some k)).getD false
  s.tasks.any fun tk => tk.state != TaskState.done && tk.state != TaskState.failed &&
    (tk.commit.cmds.any names || tk.members.any fun m => m.cmds.any names || m.held.any fun h => names h.cmd)

/-- A read of the node is registered in a tier, or a reclaim of R430 still waits there; where the node would be removed, in any tier, or a
resolution that has begun (R267, R368, R371, R375, R430). -/
def State.inUse (s : State) (k t : Nat) (any : Bool) : Bool :=
  (s.store.readers.any fun r => r.node == k && (any || r.tier == t)) || (any && s.keptNode k) ||
    s.store.guards.any fun g => g.1 == k && (any || g.2.1 == t) && decide (s.time.ns ≤ g.2.2)

/-- candidate(n, t) of R267; a node that any lease holds is not removed. [DEDUCED, log 21] -/
def State.candidate (s : State) (k : Nat) (n : Node) (t : Nat) : Bool :=
  n.inTier t &&
    (match t with
      | 0 => n.lsh == 0
      | 1 => n.ldr == 0 && n.lsh == 0 && (n.lch == 0 || s.chestOn)
      | _ => n.lsh == 0 && n.ldr == 0 && n.lch == 0) &&
    ((s.children n).all fun c => match s.store.nodes.find c with
      | some x => !x.inTier t
      | none => true) &&
    !(s.inUse k t (s.leavesTable n t)) &&
    (t == 0 || n.refc == 0 || (t == 1 && s.chestOn)) &&
    (!(s.leavesTable n t) || (n.refc == 0 && n.lsh == 0 && n.ldr == 0 && n.lch == 0))

/-- evict_before (R267). -/
def evictBefore (a b : Nat × Node) : Bool :=
  if a.2.evc ≠ b.2.evc then decide (b.2.evc.toNat < a.2.evc.toNat)
  else if a.2.lage ≠ b.2.lage then decide (a.2.lage < b.2.lage)
  else if a.2.depth ≠ b.2.depth then decide (b.2.depth < a.2.depth)
  else decide (b.1 < a.1)

/-- The candidate of a tier that leaves first, besides the nodes passed over. [DEDUCED, log 21] -/
def State.victim (s : State) (t : Nat) (skip : List Nat) : Option (Nat × Node) :=
  s.store.nodes.foldl (fun o p =>
    if s.candidate p.1 p.2 t && !skip.contains p.1 then
      match o with
      | none => some p
      | some q => if evictBefore p q then some p else o
    else o) none

/-- Bytes of blocks and tails in a tier. [UNVERIFIED, log 55] -/
def State.bytesIn (s : State) (t : Nat) : Nat :=
  (s.store.nodes.map fun p => if p.2.inTier t then p.2.geom.block else 0).sum
    + (if t = 1 then (s.store.slots.map fun p => if p.2.opened then p.2.geom.tail else 0).sum else 0)

/-- Pages of the chest on ports in service (R434). -/
def State.chestPages (s : State) : Nat :=
  ((if s.fabric.chest0 then s.mgmt.cfg.chest0 else 0) + if s.fabric.chest1 then s.mgmt.cfg.chest1 else 0) / 4096

/-- Page n of the chest, by its physical number, on the ports in service: by turns where they interleave (R434). [DESIGN CHOICE, log 59] -/
def State.chestPage (s : State) (n : Nat) : Nat :=
  let c := s.mgmt.cfg
  let j := n % max s.chestPages 1
  Config.chestBase / 4096 +
    if c.chest0 = c.chest1 && c.interleave then
      if s.fabric.chest0 && s.fabric.chest1 then j else if s.fabric.chest0 then 2 * j else 2 * j + 1
    else if s.fabric.chest0 then j else c.chest0 / 4096 + j

/-- A block demoted takes pages of the chest that no other block has (R267, R434). [DESIGN CHOICE, log 59] -/
def State.demoted (s : State) (k : Nat) : State :=
  s.modNode k fun n =>
    { (n.setTier 1 false).setTier 2 true with
      cpages := takePages s.chestPage (s.store.nodes.flatMap fun p => p.2.cpages)
        ((List.range n.geom.pages).map (Config.chestAddr s.store.nextSerial)) }

/-- Room for some pages in the chest, made by removals in evict_before order. [UNVERIFIED, log 55] -/
def State.chestRoom (need : Nat) : Nat → State → Option State
  | 0, _ => none
  | f + 1, s =>
    if s.bytesIn 2 + 4096 * need ≤ Config.storeBytes 2 ∧
        (s.store.nodes.map fun p => if p.2.inTier 2 then p.2.geom.pages else 0).sum + need ≤ s.chestPages then some s
    else match s.victim 2 [] with
      | none => none
      | some (k, _) => State.chestRoom need f (s.removeNode k)

/-- A drawer candidate leaves (R267): to the chest where one is configured and it has a reference or class 0 to 2, else out of the
name table; none where the chest has no room (R376). [DEDUCED, log 21] -/
def State.leaveDrawer (s : State) (k : Nat) (n : Node) : Option State :=
  if s.leavesTable n 1 then some (s.removeNode k)
  else if n.inTier 2 then some (s.putNode k (n.setTier 1 false))
  else (s.chestRoom n.geom.pages (s.store.nodes.length + 1)).map fun s1 => s1.demoted k

/-- Room for some bytes in the drawer, made in evict_before order, or none (R267, R376). [UNVERIFIED, log 55] -/
def State.drawerRoom (need : Nat) : Nat → List Nat → State → Option State
  | 0, _, _ => none
  | f + 1, skip, s =>
    if s.bytesIn 1 + need ≤ Config.storeBytes 1 then some s
    else match s.victim 1 skip with
      | none => none
      | some (k, n) =>
        match s.leaveDrawer k n with
        | some s1 => State.drawerRoom need f skip s1
        | none => State.drawerRoom need f (k :: skip) s

/-- Room in the drawer while a node that the command works on keeps a reference of its own (R250, R267). -/
def State.roomFor (s : State) (need : Nat) (keep : Option Nat) : Option State :=
  ((s.modNode? keep fun n => { n with refc := n.refc + 1 }).drawerRoom need (2 * s.store.nodes.length + 2) []).map fun s1 =>
    s1.modNode? keep fun n => { n with refc := n.refc - 1 }

/-! ## The plane cache (R360, R361, R372 to R374) -/

/-- The home slice of a physical line (R360). -/
def homeSlice (pa : Nat) : Nat := (List.range 9).foldl (fun x i => x ^^^ (pa / 2 ^ (5 * i + 7) % 32)) 0

/-- Plane-cache sets of a slice (R361). -/
def State.planeSets (s : State) : Nat := Config.shelfSets / 16 * s.mgmt.cfg.pcs.val

/-- Lines of a block. -/
def Geom.lines (g : Geom) : Nat := (g.block + 127) / 128

/-- Line x of a node's planes in the plane cache (R373). [DESIGN CHOICE, log 60] -/
def State.nodeLine (s : State) (k : Nat) (n : Node) (x : Nat) : ShelfLine :=
  ⟨false, k, x, homeSlice (4096 * n.pages.getD (x / 32) 0 + 128 * (x % 32)), Config.planeSet false (n.pages.getD (x / 32) 0) (x % 32) % s.planeSets⟩

/-- The physical page of part i of the tail of a slot: in the drawer of the die of the span that opened the slot (R366). [DESIGN CHOICE, log 60] -/
def State.tailPage (s : State) (k i : Nat) : Nat := drawerPage (((s.store.slots.find k).map (·.homeDie)).getD 0) (Config.tailAddr k i)

/-- Line x of the tail of a slot in the plane cache (R372). [DESIGN CHOICE, log 60] -/
def State.tailLine (s : State) (k x : Nat) : ShelfLine :=
  ⟨true, k, x, homeSlice (4096 * s.tailPage k (x / 32) + 128 * (x % 32)), Config.planeSet true k x % s.planeSets⟩

/-- All lines of a node's planes. -/
def State.nodeLines (s : State) (k : Nat) (n : Node) : List ShelfLine := (List.range n.geom.lines).map (s.nodeLine k n)

/-- Lines of a list that lie in the set of a line. -/
def ShelfLine.sameSet (l : ShelfLine) (ls : List ShelfLine) : List ShelfLine := ls.filter fun x => x.slice == l.slice && x.set == l.set

/-- The planes of a node leave the shelf (R267). -/
def State.leaveShelf (s : State) (k : Nat) : State :=
  ({ s with store := s.store.unshelve false k }).modNode k fun n => n.setTier 0 false

/-- Room for a line of the plane cache in its set, made by tail lines of the set and then by nodes in evict_before order, or none (R267, R376).
[DESIGN CHOICE, log 60] -/
def State.shelfRoom (keep : List Nat) (l : ShelfLine) : Nat → State → Option State
  | 0, _ => none
  | f + 1, s =>
    if (l.sameSet s.store.shelf).length < Config.shelfWays then some s
    else match (l.sameSet s.store.shelf).find? (·.tail) with
      | some x => State.shelfRoom keep l f { s with store := { s.store with shelf := s.store.shelf.erase x } }
      | none => match s.victim 0 keep with
        | none => none
        | some (v, _) => State.shelfRoom keep l f (s.leaveShelf v)

/-- A line brought into the plane cache, or none where no room can be made (R361, R372). -/
def State.fillPlane (s : State) (l : ShelfLine) : Option State :=
  if s.mgmt.cfg.pcs.val = 0 then none
  else if s.store.shelf.contains l then some s
  else
    (s.shelfRoom (if l.tail then [] else [l.owner]) l (s.store.shelf.length + s.store.nodes.length + 1)).map fun s1 =>
      let s2 := { s1 with store := { s1.store with shelf := s1.store.shelf ++ [l] } }
      if l.tail then s2 else s2.modNode l.owner fun n => n.setTier 0 true

/-- Every line of a list brought into the plane cache, or none. -/
def State.fillPlanes (s : State) : List ShelfLine → Option State
  | [] => some s
  | l :: r => (s.fillPlane l).bind fun s1 => State.fillPlanes s1 r

/-- All of a node's planes brought into the plane cache, or none (R374). -/
def State.fillShelf (s : State) (k : Nat) : Option State := (s.store.nodes.find k).bind fun n => s.fillPlanes (s.nodeLines k n)

/-- Lines read from another tier: each is filled into the plane cache where it finds room (R372). -/
def State.readPlanes (s : State) (ls : List ShelfLine) : State := ls.foldl (fun st l => (st.fillPlane l).getD st) s

/-- Lines of a node that hold some bytes of its image. [DESIGN CHOICE, log 60] -/
def State.linesOf (s : State) (k : Nat) (n : Node) (from_ len : Nat) : List ShelfLine :=
  (((List.range len).map fun i => Config.planeLine (from_ + i) % n.geom.lines).eraseDups).map (s.nodeLine k n)

/-- Where row j of a layer of a node's keys or values stands in its image. -/
def Geom.rowAt (g : Geom) (vals : Bool) (l j : Nat) : Nat := ((if vals then 256 * g.l else 0) + 256 * l + j) * (g.h * g.c * g.elem)

/-- The lines of nh heads, from head h0 on, of a row of a node's keys or values, with those of the scales of an E4M3 plane (R264). -/
def State.rowLines (s : State) (k : Nat) (n : Node) (vals : Bool) (l j h0 nh : Nat) : List ShelfLine :=
  let g := n.geom
  let scales := 2 * (256 * g.l * (g.h * g.c * g.elem)) + (if vals then g.l * g.h else 0) + l * g.h + h0
  (s.linesOf k n (g.rowAt vals l j + h0 * g.c * g.elem) (nh * g.c * g.elem) ++
    if g.kvf then s.linesOf k n scales nh else []).eraseDups

/-- The lines of a node's summaries of a layer and grain. -/
def State.sumLines (s : State) (k : Nat) (n : Node) (l j : Nat) : List ShelfLine :=
  let g := n.geom
  s.linesOf k n (2 * (256 * g.l * (g.h * g.c * g.elem)) + 2 * (g.l * g.h) + (16 * l + j) * (g.h * (2 * g.c))) (g.h * (2 * g.c))

/-- The lines of a slot's tail that hold a token of a layer; summaries follow the rows. [DESIGN CHOICE, log 60] -/
def State.tailLines (s : State) (k : Nat) (x : SeqSlot) (vals : Bool) (l j : Nat) : List ShelfLine :=
  let w := 2 * x.geom.h * x.geom.c
  let a := ((if vals then 256 * x.geom.l else 0) + 256 * l + j) * w
  (List.range ((a + w - 1) / 128 + 1 - a / 128)).map fun i => s.tailLine k (a / 128 + i)

/-- The lines of a tail's summaries of a layer and grain. [DESIGN CHOICE, log 60] -/
def State.tailSumLines (s : State) (k : Nat) (x : SeqSlot) (l j : Nat) : List ShelfLine :=
  let w := 2 * x.geom.h * x.geom.c
  let a := 512 * x.geom.l * w + (16 * l + j) * w
  (List.range ((a + w - 1) / 128 + 1 - a / 128)).map fun i => s.tailLine k (a / 128 + i)

/-- The lines of a slot's tail that hold its rows (R248). -/
def State.tailRows (s : State) (k : Nat) (x : SeqSlot) : List ShelfLine :=
  ((List.range x.geom.l).flatMap fun l => (List.range (x.tail.lfill.getD l 0)).flatMap fun j =>
    s.tailLines k x false l j ++ s.tailLines k x true l j).eraseDups

/-- The tier that some lines of a node are read from (R372): the shelf where all of them stand there, else the drawer, else the chest. -/
def State.readTier (s : State) (n : Node) (ls : List ShelfLine) : Nat :=
  if n.inTier 0 && ls.all fun l => s.store.shelf.contains l then 0 else if n.inTier 1 then 1 else 2

/-- Why a node cannot be brought into the shelf (R266, R376): WAYFULL where a line's set has pinned ways alone, FULL where a node was passed
over. -/
def State.shelfStatus (s : State) (k : Nat) (n : Node) : Nat :=
  let pinned := fun (l : ShelfLine) => !l.tail && ((s.store.nodes.find l.owner).map fun x => x.lsh != 0).getD false
  let need := s.nodeLines k n
  if s.mgmt.cfg.pcs.val = 0 ∨ need.any fun l =>
      decide (Config.shelfWays < ((l.sameSet s.store.shelf).filter fun x => pinned x && x.owner != k).length + (l.sameSet need).length) then 2
  else 5

/-! ## Leases (R251 to R253, R266, R374, R377, R379) -/

/-- The lease count of a node in a tier changed. -/
def Node.count (n : Node) (t : Nat) (f : Nat → Nat) : Node :=
  match t with
  | 0 => { n with lsh := f n.lsh }
  | 1 => { n with ldr := f n.ldr }
  | _ => { n with lch := f n.lch }

/-- The lease count of a node in a tier. -/
def Node.leases (n : Node) (t : Nat) : Nat := match t with
  | 0 => n.lsh
  | 1 => n.ldr
  | _ => n.lch

/-- An identifier no lease has, from w on in steps of 4, so that its low bits name the trestle (R377). -/
def freeLease (used : List Nat) : Nat → Nat → Option Nat
  | 0, _ => none
  | f + 1, w => if used.contains w || w == 2 ^ 32 - 1 then freeLease used f ((w + 4) % 2 ^ 32) else some w

/-- An identifier for a lease of a name: a free value among those not in use (R251, R377). [DEDUCED, log 17] -/
def State.leaseId (s : State) (nm : Name) : Option Nat × State :=
  let used := s.store.leases.map (·.id)
  let tr := (nm.extractLsb' 0 2).toNat
  if 4194304 ≤ (used.filter fun u => u % 4 == tr).length then (none, s)
  else (freeLease used (used.length + 2) (s.takeFree.1.toNat % 2 ^ 30 * 4 + tr), s.takeFree.2)

/-- The shelf pin of a node would take the sixteenth way of some set (R253, R361, R374): lines another lease of the node has pinned count
once. -/
def State.wayFull (s : State) (k : Nat) (n : Node) : Bool :=
  let need := s.nodeLines k n
  let pinned := s.store.nodes.flatMap fun p => if p.2.lsh != 0 then s.nodeLines p.1 p.2 else []
  s.mgmt.cfg.pcs.val == 0 || (n.lsh == 0 &&
    need.any fun l => decide (Config.shelfWays ≤ (l.sameSet pinned).length + (l.sameSet need).length))

/-- What a lease request comes to: status, identifier and granted ticks. -/
structure Grant where
  status : Nat
  id : W32
  ticks : Nat

/-- A lease of a node for a context (none: for a device, R428) in a tier for some ticks; a shelf lease whose lines find no room is FULL (R374,
R376). [DEDUCED, log 17] -/
def State.grantLease (s : State) (ctx : Option Nat) (dev : BitVec 20) (k : Nat) (n : Node) (tier ticks : Nat) : Grant × State :=
  let way := tier == 0 && s.wayFull k n
  let t := if way then 1 else tier
  if t = 2 ∧ !s.chestOn ∨ 65535 ≤ n.leases t then (⟨5, noneWord, 0⟩, s)
  else
    match s.leaseId n.name with
    | (none, _) => (⟨5, noneWord, 0⟩, s)
    | (some id, s1) =>
      match (match ctx with
        | some c => s1.charge c t n.geom.block
        | none => some s1) with
      | none => (⟨3, noneWord, 0⟩, s)
      | some s2 =>
        match (if t = 0 then s2.fillShelf k else some s2) with
        | none => (⟨5, noneWord, 0⟩, s)
        | some s3 =>
          let e := min (s.nowTick + ticks) 65535
          let s4 := s3.modNode k fun x => { x.count t (· + 1) with lage := s.nowTick }
          (⟨if way then 2 else 0, BitVec.ofNat 32 id, e - s.nowTick⟩,
            { s4 with store := { s4.store with leases := s4.store.leases ++ [⟨id, k, t, ctx, dev, e⟩] } })

/-- A lease ended (R377): its count and its charge are returned. -/
def State.endLease (s : State) (l : Lease) : State :=
  let s1 := { s with store := { s.store with leases := s.store.leases.filter fun x => x.id != l.id } }
  let s2 := s1.modNode l.node fun n => n.count l.tier (· - 1)
  match l.ctx with
  | some c => s2.refund c l.tier (((s.store.nodes.find l.node).map fun n => n.geom.block).getD 0)
  | none => s2

/-- A lease of a context by its identifier. -/
def State.leaseOf (s : State) (ctx : Nat) (id : W32) : Option Lease :=
  s.store.leases.find? fun l => l.id == id.toNat && l.ctx == some ctx && decide (s.nowTick < l.exp)

/-! ## Summaries and sealing (R263, R264) -/

/-- a at most b, both finite. -/
def finLe (a b : FVal) : Bool :=
  match a, b with
  | .fin n1 m1 e1, .fin n2 m2 e2 => decide ((addFin n1 m1 e1 (!n2) m2 e2).1 ≤ 0)
  | _, _ => true

/-- The least (or greatest) of a list of finite values. -/
def extreme (low : Bool) : List FVal → FVal
  | [] => .fin false 0 0
  | [x] => x
  | x :: r =>
    let y := extreme low r
    if finLe x y == low then x else y

/-- lo and hi of a channel's keys (R263). -/
def channelBounds (xs : List FVal) : BitVec 8 × BitVec 8 :=
  if xs.any fun x => x.isNan || x.isInf then (0xFC#8, 0x7C#8)
  else (BitVec.ofNat 8 (roundFmt (extreme true xs) e5m2 2 false 0).1, BitVec.ofNat 8 (roundFmt (extreme false xs) e5m2 3 false 0).1)

/-- The summary of head h of some key rows (R263). -/
def summaryOf (c h : Nat) (rows : List (List FVal)) : List (BitVec 8 × BitVec 8) :=
  (List.range c).map fun i => channelBounds (rows.map fun r => r.getD (h * c + i) (.fin false 0 0))

/-- A tail row as values. -/
def tailVals (r : List (BitVec 16)) : List FVal := r.map fun x => bf16.decode x.toNat

/-- The value of a stored element (R264): a BF16, or an E4M3 times 2^se. -/
def storedVal (kvf : Bool) (se : Int) (x : BitVec 16) : FVal :=
  if kvf then
    match e4m3.decode x.toNat with
    | .fin n m e => .fin n m (e + se)
    | v => v
  else bf16.decode x.toNat

/-- The rows of a layer in a tail. -/
def layerRows (t : SMap (List (BitVec 16))) (l n : Nat) : List (List (BitVec 16)) :=
  (List.range n).map fun i => (t.find (256 * l + i)).getD []

/-- se of the values of a plane and head (R264). -/
def sealScale (xs : List FVal) : Int :=
  match maxLg xs with
  | none => -127
  | some g => min (max (g - 8) (-127)) 127

/-- An element of an E4M3 plane (R264). -/
def sealElem (se : Int) (x : BitVec 16) : BitVec 16 :=
  let v := match bf16.decode x.toNat with
    | .fin n m e => .fin n m (e - se)
    | y => y
  BitVec.ofNat 16 (roundFmt v e4m3 0 true 0).1

/-- A plane of a layer sealed: the rows as stored and the scale of each head. -/
def sealPlane (g : Geom) (rows : List (List (BitVec 16))) : List (List (BitVec 16)) × List Int :=
  if g.kvf then
    let ses := (List.range g.h).map fun h => sealScale (rows.flatMap fun r => tailVals ((r.drop (h * g.c)).take g.c))
    (rows.map fun r => (List.range r.length).map fun i => sealElem (ses.getD (i / g.c) 0) (r.getD i 0), ses)
  else (rows, List.replicate g.h 0)

/-- A list as a map from a first key on. -/
def mapFrom {α : Type} (k : Nat) (xs : List α) : SMap α := (List.range xs.length).filterMap fun i => (xs[i]?).map fun x => (k + i, x)

/-- The jumps of a child of a node (R247). -/
def State.jumpsOf (s : State) : Nat → Option Nat → List (Option Nat)
  | 0, _ => []
  | n + 1, j =>
    let i := 12 - (n + 1)
    j :: State.jumpsOf s n ((j.bind fun k => s.store.nodes.find k).bind fun x => (x.jumps[i]?).join)

/-- A node of a sealed tail before it is inserted (R264). -/
def SeqSlot.block (x : SeqSlot) (nm parent : Name) (depth : Nat) (evc : BitVec 2) (dev : BitVec 20) (now : Nat) : Node :=
  let g := x.geom
  let ids := (List.range 256).map fun i => (x.tail.ids.find i).getD 0
  let ks := (List.range g.l).map fun l => sealPlane g (layerRows x.tail.keys l 256)
  let vs := (List.range g.l).map fun l => sealPlane g (layerRows x.tail.vals l 256)
  let plane (p : List (List (List (BitVec 16)) × List Int)) : SMap (List (BitVec 16)) :=
    (List.range g.l).flatMap fun l => mapFrom (256 * l) (p.getD l ([], [])).1
  let scales (p : List (List (List (BitVec 16)) × List Int)) : SMap Int :=
    (List.range g.l).flatMap fun l => mapFrom (16 * l) (p.getD l ([], [])).2
  let sums : SMap (List (BitVec 8 × BitVec 8)) := (List.range g.l).flatMap fun l =>
    (List.range 16).flatMap fun j => (List.range g.h).map fun h =>
      let p := ks.getD l ([], [])
      ((16 * l + j) * 16 + h, summaryOf g.c h (((p.1.drop (16 * j)).take 16).map fun r =>
        (List.range r.length).map fun i => storedVal g.kvf (p.2.getD (i / g.c) 0) (r.getD i 0)))
  { pages := [], cpages := [], name := nm, depth, kvf := x.kvf, evc, res := 2#3, lm1 := x.lm1, hm1 := x.hm1, cm1 := x.cm1, homedev := dev, refc := 0
    lsh := 0, ldr := 0, lch := 0, lage := now, fchild := none, nsib := none, jumps := [], gh := blockHashes 16 parent ids
    root := x.root, ids, keys := plane ks, vals := plane vs, kscale := scales ks, vscale := scales vs, sums }

/-- A node inserted under its parent, at a place among its siblings that the spec leaves open (R247, R264). Its block takes pages of its own
in the drawer of a die (R308, R380). [DEDUCED, log 16; DESIGN CHOICE, log 59] -/
def State.insertNode (s : State) (k : Nat) (n : Node) (parent : Option Nat) (die : Nat) : State :=
  let n1 := { n with pages := s.store.newPages n.geom die, jumps := s.jumpsOf 12 parent, fchild := none, nsib := none }
  let s0 := (s.dropLines fun pa => n1.pages.contains (pa / 4096)).putNode k n1
  let s1 : State := { s0 with store := { s0.store with nextSerial := s.store.nextSerial + 1 } }
  let s2 := match parent with
    | none => s1
    | some p =>
      let cs := match s.store.nodes.find p with
        | some x => s.children x
        | none => []
      let at_ := s1.takeFree.1.toNat % (cs.length + 1)
      (s1.takeFree.2.relink p (cs.take at_ ++ k :: cs.drop at_)).modNode p fun x => { x with refc := x.refc + 1 }
  s2.announce n.name true

/-! ## Tails (R248, R263) -/

/-- An empty tail for some layers. -/
def Tail.fresh (l : Nat) : Tail := { Tail.empty with lfill := List.replicate l 0 }

/-- Summaries of a layer's grains [j0, j1) recomputed from the keys written (R263). -/
def Tail.summarise (t : Tail) (g : Geom) (l j0 j1 : Nat) : Tail :=
  let n := t.lfill.getD l 0
  { t with sums := (List.range (j1 - j0)).foldl (fun m i =>
      let j := j0 + i
      let rows := ((layerRows t.keys l n).drop (16 * j)).take 16
      (List.range g.h).foldl (fun m h => m.put ((16 * l + j) * 16 + h) (summaryOf g.c h (rows.map tailVals))) m) t.sums }

/-- TAILN of a tail. -/
def Tail.count (t : Tail) : Nat := match t.lfill with
  | [] => 0
  | x :: r => r.foldl min x

/-- A slot with a tail over its leaf (R248). -/
def State.withTail (s : State) (x : SeqSlot) (t : Tail) : SeqSlot :=
  { x with tail := t, tailn := t.count, tok := 256 * s.depthOf x.leaf + t.count }

/-- A row of tokens as PGATH and CPACT deliver it: BF16 elements (R269). -/
def bf16Row (kvf : Bool) (scales : SMap Int) (l c : Nat) (r : List (BitVec 16)) : List (BitVec 16) :=
  if kvf then
    (List.range r.length).map fun i =>
      BitVec.ofNat 16 (roundFmt (storedVal true ((scales.find (16 * l + i / c)).getD 0) (r.getD i 0)) bf16 0 false 0).1
  else r

/-- Layer l of token j of a node, keys or values, as BF16. [DESIGN CHOICE, log 22] -/
def Node.row (n : Node) (vals : Bool) (l j : Nat) : List (BitVec 16) :=
  bf16Row n.kvf (if vals then n.vscale else n.kscale) l n.geom.c (((if vals then n.vals else n.keys).find (256 * l + j)).getD [])

/-- Layer l of token j of a tail. -/
def Tail.row (t : Tail) (vals : Bool) (l j : Nat) : List (BitVec 16) := ((if vals then t.vals else t.keys).find (256 * l + j)).getD []

/-! ## Readers (R375) -/

/-- A read of a node registered in a tier for a command, once (R375). -/
def State.addReader (s : State) (k tier t m c : Nat) : State :=
  if s.store.readers.any fun r => r.node == k && r.tier == tier && r.task == t && r.member == m && r.cmd == c then s
  else { s with store := { s.store with readers := s.store.readers ++ [⟨k, tier, t, m, c⟩] } }

/-- A command has read its last byte of a node (R375). -/
def State.dropReader (s : State) (k t m c : Nat) : State :=
  { s with store := { s.store with readers := s.store.readers.filter fun r => !(r.node == k && r.task == t && r.member == m && r.cmd == c) } }

/-- Reads of a command deregistered. -/
def State.dropReaders (s : State) (t m c : Nat) : State :=
  { s with store := { s.store with readers := s.store.readers.filter fun r => !(r.task == t && r.member == m && r.cmd == c) } }

end Sys2Proof.Machine
end

