-- ==== Sys2Proof/Machine/Prefix.lean ====
section
/-! DEFINITION. The prefix-store and sparse-selection commands, rows 0x2_ and 0x3_ of the opcode map (R254 to R271). -/

namespace Sys2Proof.Machine

/-! ## Issue (R254, R255, R257, R260) -/

/-- n words from a scratchpad address. -/
def Member.words (mem : Member) (a n : Nat) : List W32 := (mem.conts a n).map (·.data)

/-- Word i of a command's parameter record, as a number. -/
def Cmd.w (c : Cmd) (i : Nat) : Nat := (c.out.getD i 0).toNat

/-- Word i of a list of words, as a number. -/
def wordAt (w : List W32) (i : Nat) : Nat := (w.getD i 0).toNat

/-- What the issue of a command of rows 0x2_ to 0x4_ looks at: words of its parameter record, bytes of its result record, the limits
of its parameters, the ranges it reads as data (whose tags are read, and which are signed), its other ranges, its byte count, and
whether a replicated task defers it, or its effect besides its result record (R291). -/
structure PrefixForm where
  prm : Nat := 4
  res : List W32 → Nat := fun _ => 16
  limits : Member → List W32 → Bool
  reads : State → Task → List W32 → List (Nat × Nat) := fun _ _ _ => []
  others : State → Task → List W32 → List (Nat × Nat) := fun _ _ _ => []
  bytes : State → Task → List W32 → Nat := fun _ _ _ => 16
  extra : State → Task → List W32 → List W32 := fun _ _ _ => []
  defers : Bool := false
  twice : Bool := false

/-- The checks of R255 in order. -/
def prefixChecks (s : State) (f : PrefixForm) (p : PrmRes) (tk : Task) (mem : Member) : Option Trap :=
  let a := 16 * p.prm.toNat
  let r := 16 * p.res.toNat
  let w := mem.words a f.prm
  let rs := f.reads s tk w
  let os := f.others s tk w
  firstTrap
    [spadTrap tk a (4 * f.prm), spadTrap tk r (f.res w), if (mem.conts a f.prm).all (·.valid) then none else some ⟨cIllegal, 0, 0⟩,
     if f.limits mem w then none else some ⟨cIllegal, 0, 0⟩,
     firstTrap ((rs ++ os).map fun x => spadTrap tk x.1 x.2), poisonTrap mem a (4 * f.prm),
     firstTrap (rs.map fun x => poisonTrap mem x.1 x.2),
     if f.defers then none else firstTrap (((r, f.res w) :: os).map fun x => frozenTrap mem x.1 x.2)]

/-- A command of rows 0x2_ to 0x4_ deferred to the commit of a replicated task: its signature record and its frozen sources (R260,
R319). -/
def deferPrefix (tk : Task) (mem : Member) (c : Cmd) (ranges : List (Nat × Nat)) : Member :=
  let body := c.signHead ++ ranges.flatMap fun r => signConts mem r.1 r.2
  ranges.foldl (fun m r => m.freeze r.1 r.2) (tk.sign mem c.stream 4 body)

/-- The issue of a command of rows 0x2_ to 0x4_; post is what else it does to the member and the command. -/
def prefixIssue (s : State) (i : Instr) (h : Hdr) (p : PrmRes) (f : PrefixForm) (legal : Task → Bool := fun _ => true)
    (post : Member → Cmd → Member × Cmd := fun m c => (m, c)) : Res :=
  issueCmd s i h (fun tk _ => legal tk) (prefixChecks s f p) fun tk mem c =>
    let a := 16 * p.prm.toNat
    let w := mem.words a f.prm
    let c1 := { c with out := w ++ f.extra s tk w, bytes := f.bytes s tk w }
    if tk.replicated && f.defers then ⟨deferPrefix tk mem c1 ((a, 4 * f.prm) :: f.reads s tk w), c1, .deferred⟩
    else if tk.replicated && f.twice then ⟨tk.sign mem c1.stream 4 (c1.signHead ++ signConts mem a (4 * f.prm)), c1, .twice⟩
    else let r := post mem c1
      ⟨r.1, r.2, .queued⟩

/-! ## Results, replay log, echoes (R256, R259, R260, R314) -/

/-- A status word (R256). -/
def statusWord (st aux second : Nat) : W32 := BitVec.ofNat 32 (st % 256 + aux % 256 * 2 ^ 8 + second % 256 * 2 ^ 16)

/-- A 16-byte result record (R256). -/
def result16 (st : Nat) (v0 v1 : W32) : List W32 := [statusWord st 0 0, v0, v1, 0]

/-- Words written as ordinary values from a scratchpad address. -/
def Member.putWords : Member → Nat → List W32 → Member
  | mem, _, [] => mem
  | mem, a, w :: r => Member.putWords (mem.setCont (a / 4) (Container.ord w)) (a + 4) r

/-- What a command does to the device: the state after it, and its result record. -/
abbrev StoreOp := State → Task → Member → Cmd → State × List W32

/-- The replay log of a stream. -/
def Member.replayOf (mem : Member) (x : Stream) : List Replay := mem.replay.filter fun r => r.stream == x

/-- The position of a stream in its replay log. -/
def Member.replayAt (mem : Member) (x : Stream) : Nat := ((mem.replayPos.find? fun p => p.1 == x).map (·.2)).getD 0

/-- The position of a stream moved on by one. -/
def Member.replayNext (mem : Member) (x : Stream) : Member :=
  { mem with replayPos := (x, mem.replayAt x + 1) :: mem.replayPos.filter fun p => p.1 != x }

/-- The logged outcome that a command matches (R259). -/
def Member.replayFor (mem : Member) (c : Cmd) (n : Nat) : Option (List W32) :=
  match (mem.replayOf c.stream)[mem.replayAt c.stream]? with
  | some r => if r.key = c.key ∧ r.prm = c.out.take n then some r.out else none
  | none => none

/-- A command entered in the log in place of the rest of it (R259). -/
def Member.replayPut (mem : Member) (c : Cmd) (n : Nat) (out : List W32) : Member :=
  let mine := (mem.replayOf c.stream).take (mem.replayAt c.stream)
  { mem with replay := (mem.replay.filter fun r => r.stream != c.stream) ++ mine ++ [⟨c.stream, c.key, c.out.take n, out⟩] }

/-- A result written into the scratchpad. -/
def resultUnit (s : State) (mem : Member) (c : Cmd) (a : Nat) (out : List W32) : UnitRes :=
  spPiece s mem c a (4 * out.length) fun m => m.putWords a out

/-- A member whose command has changed the device from s0 to s: with the L1 lines and TLB entries that the blocks removed have left it (R308, R359). -/
def State.linesLeft (s0 s : State) (mem : Member) : Member :=
  { mem.unmap ((s.unmapped.filter fun e => !s0.unmapped.contains e).map (·.2)) with l1 := ((s.member? s.cur.task s.cur.member).map (·.l1)).getD mem.l1 }

/-- A command performed, or answered from the replay log (R259): n words of parameters. -/
def replayed (s : State) (tk : Task) (mem : Member) (c : Cmd) (n : Nat) (logged : Bool) (f : StoreOp) :
    State × Member × List W32 :=
  if !logged then
    let r := f s tk mem c
    (r.1, s.linesLeft r.1 mem, r.2)
  else match mem.replayFor c n with
    | some out => (s, mem.replayNext c.stream, out)
    | none =>
      let r := f s tk mem c
      (r.1, ((s.linesLeft r.1 mem).replayPut c n r.2).replayNext c.stream, r.2)

/-- The physical address of a line of a node's planes in a tier, or of a tail (R366, R380, R434). -/
def State.lineAddr (s : State) (tier : Nat) (l : ShelfLine) : Nat :=
  128 * (l.part % 32) + 4096 *
    if l.tail then s.tailPage l.owner (l.part / 32)
    else match s.store.nodes.find l.owner with
      | some n => (if tier = 2 then n.cpages else n.pages).getD (l.part / 32) 0
      | none => 0

/-- Lines read from a tier (R332, R372, R392): those that the plane cache does not give are read from memory, and filled into it where they find
room. The physical address of the first that meets an uncorrectable error ends the read. -/
def State.readLines (tier : Nat) (fill : Bool) : List ShelfLine → State → Option Nat × State
  | [], s => (none, s)
  | l :: r, s =>
    if if l.tail then s.store.shelf.contains l else tier == 0 then State.readLines tier fill r s
    else
      let pa := s.lineAddr tier l
      let s1 := s.noteRead pa 128
      if !s.rangeOk pa 64 then (some pa, s1)
      else if !s.rangeOk (pa + 64) 64 then (some (pa + 64), s1)
      else State.readLines tier fill r (if fill then (s1.fillPlane l).getD s1 else s1)

/-- The lines of the tail that SEAL and SLFORK read: every row (R248, R332). -/
def State.wholeTail (s : State) (tk : Task) (c : Cmd) : List ShelfLine := match s.slotOf tk.ctx (c.w 0) with
  | some x => s.tailRows (c.w 0) x
  | none => []

/-- The lines of the tail that KAPP reads: the earlier rows of the grain whose summary it makes anew (R263, R332). -/
def State.grainBegun (s : State) (tk : Task) (c : Cmd) : List ShelfLine := match s.slotOf tk.ctx (c.w 0) with
  | some x => ((List.range (c.w 2 % 16)).flatMap fun i => s.tailLines (c.w 0) x false (c.w 1) (c.w 2 / 16 * 16 + i)).eraseDups
  | none => []

/-- An uncorrectable memory error that holds a command of rows 0x2_ to 0x4_ (R332). -/
def memTrap (pa : Nat) : Trap := ⟨cMemory, BitVec.ofNat 64 pa, 0⟩

/-- The performance of a command that is done in one step and reads some lines of a tail; an uncorrectable memory error holds it at mark 0
(R332). -/
def prefixPerform (p : PrmRes) (n : Nat) (logged : Bool) (f : StoreOp) (s : State)
    (lines : State → Task → Cmd → List ShelfLine := fun _ _ _ => []) : Res :=
  onMember s fun tk mem =>
    match mem.curCmd s with
    | some c =>
      match c.state with
      | .active _ =>
        match s.readLines 1 false (if logged && (mem.replayFor c n).isSome then [] else lines s tk c) with
        | (some e, s1) => afterPieces s 1 ⟨.hold (memTrap e), s1, mem, { c with mark := 0 }⟩
        | (none, s1) =>
        let r := replayed s1 tk mem c n logged f
        let u := resultUnit r.1 r.2.1 c (16 * p.res.toNat) r.2.2
        afterPieces s 1 (u.whole c)
      | _ => .next s
    | none => .next s

/-- An echoed command's result sent to the followers of a replicated task (R314). -/
def Task.echoResult (tk : Task) (mem : Member) (c : Cmd) (out : List W32) : Task :=
  if tk.replicated then tk.echo mem.rank ⟨c.stream, c.key.addr, 0, out.map Container.ord⟩ else tk

/-- The performance of an echoed command: by the lead alone, which waits while a follower has no room; a follower waits for its
echo (R260, R314). [DEDUCED, log 18] -/
def echoPerform (p : PrmRes) (n : Nat) (logged : Bool) (f : StoreOp) (s : State) : Res :=
  onMember s fun tk mem =>
    match mem.curCmd s with
    | some c =>
      match c.state with
      | .active _ =>
        if !mem.lead then .next (s.put (mem.putCmd { c with state := .waitAnswer }))
        else if tk.replicated && !tk.echoRoom mem.rank then
          .next (s.put (mem.putCmd { c with state := .active (s.cycle + 1) }))
        else
          let r := replayed s tk mem c n logged f
          let u := resultUnit r.1 r.2.1 c (16 * p.res.toNat) r.2.2
          match u.res with
          | .ok =>
            let st := match u.st.tasks[s.cur.task]? with
              | some k => u.st.putTask s.cur.task (k.echoResult u.mem c r.2.2)
              | none => u.st
            afterPieces s 1 { u with st := st, cmd := { c with mark := 1 } }
          | _ => afterPieces s 1 u
      | _ => .next s
    | none => .next s

/-! ## Slot commands (R261) -/

/-- The geometry of a GEOM word (R261). -/
def geomOfWord (g : Nat) : Geom := ⟨g % 256 + 1, g / 256 % 16 + 1, 16 * (g / 4096 % 16 + 1), g / 65536 % 2 == 1⟩

/-- The GEOM word of a geometry. -/
def Geom.word (g : Geom) : W32 :=
  BitVec.ofNat 32 (g.l - 1 + (g.h - 1) * 2 ^ 8 + (g.c / 16 - 1) * 2 ^ 12 + if g.kvf then 2 ^ 16 else 0)

/-- The GEOM word of the open slot a parameter record names, or none's word (R255). -/
def State.slotGeom (s : State) (tk : Task) (k : Nat) : W32 := match s.slotOf tk.ctx k with
  | some x => x.geom.word
  | none => noneWord

/-- A slot just opened (R248, R261). -/
def SeqSlot.fresh (ctx : Nat) (ctag mtag : W64) (g : Geom) (leaf : Option Nat) (tok : Nat) : SeqSlot :=
  { opened := true, ctx, leaf, tok, tailn := 0, ctag, mtag, gstate := 0, lm1 := g.l - 1, hm1 := g.h - 1, cm1 := g.c / 16 - 1
    kvf := g.kvf, tail := Tail.fresh g.l, stack := [], homeDie := 0, gen := 0 }

/-- The die of the core of a member (R366): of the span that opens a slot. -/
def Member.dieOf (mem : Member) : Nat := mem.core / 64

/-- A slot whose mapping is another from now on, other than by KAPP (R269, R371). -/
def SeqSlot.renew (x : SeqSlot) : SeqSlot := { x with gen := x.gen + 1 }

/-- A slot opened in the lowest free place by a member, or the status that prevents it: free slot, quota, room (R261). Its tail stands in the
drawer of the member's die (R366). -/
def State.openSlot (s : State) (ctx : Nat) (mem : Member) (x : SeqSlot) : State × List W32 :=
  match s.freeSlot with
  | none => (s, result16 5 noneWord 0)
  | some k =>
    match s.charge ctx 1 x.geom.tail with
    | none => (s, result16 3 noneWord 0)
    | some s1 =>
      match s1.roomFor x.geom.tail x.leaf with
      | none => (s, result16 5 noneWord 0)
      | some s2 =>
        let y : SeqSlot := { x with homeDie := mem.dieOf, gen := ((s2.store.slots.find k).map (·.gen)).getD 0 + 1 }
        ((s2.putSlot k y).modNode? x.leaf fun n => { n with refc := n.refc + 1 }, result16 0 (BitVec.ofNat 32 k) 0)

/-- The leaf an SLOPEN names: none where a check of R261 fails. -/
def State.openLeaf (s : State) (ctx : Nat) (c : Cmd) (root : Name) (g : Geom) : Option (Option Nat) :=
  if c.out.getD 5 0 = noneWord then some none
  else match s.nodeOf ctx (c.w 5) with
    | some n =>
      if n.root = root ∧ n.geom = g ∧ n.name.toNat = leNat ((List.range 4).flatMap fun i => leBytes 4 (c.w (6 + i))) then
        some (some (c.w 5))
      else none
    | none => none

/-- SLOPEN's effect (R261). -/
def slopenOp : StoreOp := fun s tk mem c =>
  let ctag : W64 := BitVec.ofNat 64 (c.w 0 + c.w 1 * 2 ^ 32)
  let mtag : W64 := BitVec.ofNat 64 (c.w 2 + c.w 3 * 2 ^ 32)
  let g := geomOfWord (c.w 4)
  let root := rootName ctag mtag
  if !s.permitted tk.ctx root then (s, result16 10 noneWord 0)
  else match s.openLeaf tk.ctx c root g with
    | none => (s, result16 10 noneWord 0)
    | some leaf => s.openSlot tk.ctx mem (SeqSlot.fresh tk.ctx ctag mtag g leaf (256 * s.depthOf leaf))

/-- SLOPEN's form. -/
def slopenForm : PrefixForm :=
  { prm := 12, limits := fun _ w => decide (wordAt w 4 < 2 ^ 17) && w.getD 10 0 == 0 && w.getD 11 0 == 0, defers := true }

/-- SLOPEN (R261). -/
def execSlopen (h : Hdr) (p : PrmRes) (s : State) : Res :=
  match s.cur.phase with
  | .issue => prefixIssue s (.slopen h p) h p slopenForm
  | .perform => prefixPerform p 12 true slopenOp s

/-- The words of a 16-byte parameter record from i on are 0. -/
def zeroFrom (i : Nat) (w : List W32) : Bool := (w.drop i).all (· == 0)

/-- SLFORK's effect (R261, R285). -/
def slforkOp : StoreOp := fun s tk mem c =>
  match s.slotOf tk.ctx (c.w 0) with
  | none => (s, result16 10 noneWord 0)
  | some x => s.openSlot tk.ctx mem x

/-- SLFORK (R261). -/
def execSlfork (h : Hdr) (p : PrmRes) (s : State) : Res :=
  match s.cur.phase with
  | .issue => prefixIssue s (.slfork h p) h p { limits := fun _ => zeroFrom 1, defers := true }
  | .perform => prefixPerform p 4 true slforkOp s State.wholeTail

/-- The two slots of an SLMOVE: none where a check fails (R261). -/
def State.slotPair (s : State) (ctx a b : Nat) : Option (SeqSlot × SeqSlot) :=
  match s.slotOf ctx a, s.slotOf ctx b with
  | some x, some y => if x.like y then some (x, y) else none
  | _, _ => none

/-- A slot with the leaf, tail and grammar state of another (R261). -/
def SeqSlot.take (x y : SeqSlot) : SeqSlot :=
  { x.renew with leaf := y.leaf, tok := y.tok, tailn := y.tailn, gstate := y.gstate, tail := y.tail, stack := y.stack }

/-- A slot left empty by SLMOVE (R261). -/
def SeqSlot.emptied (x : SeqSlot) : SeqSlot :=
  { x.renew with leaf := none, tok := 0, tailn := 0, gstate := 0, tail := Tail.fresh (x.lm1 + 1), stack := [] }

/-- The lines of some slots' tails leave the plane cache: their tails are others now (R371, R372). -/
def State.tailsGone (s : State) (ks : List Nat) : State := { s with store := ks.foldl (fun st k => st.unshelve true k) s.store }

/-- SLMOVE's effect without SWAP (R261, R250). -/
def slmoveOp : StoreOp := fun s tk _ c =>
  match s.slotPair tk.ctx (c.w 0) (c.w 1) with
  | some (d, x) =>
    if c.w 0 = c.w 1 then (s, result16 10 0 0)
    else
      let s1 := ((s.putSlot (c.w 0) (d.take x)).putSlot (c.w 1) x.emptied).tailsGone [c.w 0, c.w 1]
      (s1.modNode? d.leaf fun n => { n with refc := n.refc - 1 }, result16 0 0 0)
  | none => (s, result16 10 0 0)

/-- SLMOVE without SWAP (R261). -/
def execSlmove (h : Hdr) (p : PrmRes) (s : State) : Res :=
  match s.cur.phase with
  | .issue => prefixIssue s (.slmove h p) h p { limits := fun _ => zeroFrom 2, defers := true }
  | .perform => prefixPerform p 4 true slmoveOp s

/-- SLMOVE's effect with SWAP (R261). -/
def slmoveSwapOp : StoreOp := fun s tk _ c =>
  match s.slotPair tk.ctx (c.w 0) (c.w 1) with
  | some (d, x) =>
    if c.w 0 = c.w 1 then (s, result16 10 0 0)
    else (((s.putSlot (c.w 0) (d.take x)).putSlot (c.w 1) (x.take d)).tailsGone [c.w 0, c.w 1], result16 0 0 0)
  | none => (s, result16 10 0 0)

/-- SLMOVE with SWAP (R261). -/
def execSlmoveSwap (h : Hdr) (p : PrmRes) (s : State) : Res :=
  match s.cur.phase with
  | .issue => prefixIssue s (.slmoveSwap h p) h p { limits := fun _ => zeroFrom 2, defers := true }
  | .perform => prefixPerform p 4 true slmoveSwapOp s

/-- SLCLOSE's effect (R261, R250, R378). -/
def slcloseOp : StoreOp := fun s tk _ c =>
  match s.slotOf tk.ctx (c.w 0) with
  | none => (s, result16 10 0 0)
  | some x =>
    let s1 := (s.putSlot (c.w 0) { x.renew with opened := false, tail := Tail.empty }).tailsGone [c.w 0]
    ((s1.refund tk.ctx 1 x.geom.tail).modNode? x.leaf fun n => { n with refc := n.refc - 1 }, result16 0 0 0)

/-- SLCLOSE (R261). -/
def execSlclose (h : Hdr) (p : PrmRes) (s : State) : Res :=
  match s.cur.phase with
  | .issue => prefixIssue s (.slclose h p) h p { limits := fun _ => zeroFrom 1, defers := true }
  | .perform => prefixPerform p 4 true slcloseOp s

/-- SLINFO's effect (R261). -/
def slinfoOp : StoreOp := fun s tk _ c =>
  match s.slotOf tk.ctx (c.w 0) with
  | none => (s, List.replicate 16 0)
  | some x => (s, wordsOf 16 x.record)

/-- SLINFO (R261). -/
def execSlinfo (h : Hdr) (p : PrmRes) (s : State) : Res :=
  match s.cur.phase with
  | .issue =>
    prefixIssue s (.slinfo h p) h p { res := fun _ => 64, limits := fun _ => zeroFrom 1, bytes := fun _ _ _ => 64 }
  | .perform => echoPerform p 4 false slinfoOp s

/-! ## Lookup (R262, R421, R426) -/

/-- The longest chain of nodes that a token list names, at most n more blocks: the last name and node, blocks matched, and the name
of the first block that has no node. -/
def State.rxWalk (s : State) : Nat → Name → Option Nat → Nat → List W32 → Name × Option Nat × Nat × Option Name
  | 0, nm, node, b, _ => (nm, node, b, none)
  | n + 1, nm, node, b, ids =>
    let nx := blockName nm (ids.take 256)
    match s.nodeNamed nx with
    | none => (nm, node, b, some nx)
    | some (k, _) => State.rxWalk s n nx (some k) (b + 1) (ids.drop 256)

/-- Leading equal entries of two lists. -/
def commonLen : List W64 → List W64 → Nat
  | a :: r, b :: t => if a = b then commonLen r t + 1 else 0
  | _, _ => 0

/-- The grain-level partial match under a node: g and pnode (R262). -/
def State.rxPartial (s : State) (node : Nat) (nm : Name) (ids : List W32) : Nat × Option Nat :=
  let hs := blockHashes (min 15 (ids.length / 16)) nm ids
  match s.store.nodes.find node with
  | none => (0, none)
  | some n =>
    (s.children n).foldl (fun (a : Nat × Option Nat) c =>
      let gc := commonLen hs (((s.store.nodes.find c).map (·.gh)).getD [])
      if a.1 < gc ∨ (gc = a.1 ∧ 0 < gc ∧ c < a.2.getD c) then (gc, some c) else a) (0, none)

/-- The result record of RXLOOK (R262). [DEDUCED, log 18] -/
def rxRecord (st g second : Nat) (node : Option Nat) (b : Nat) (pnode : Option Nat) (lease : W32) (rtok holder : Nat)
    (nx nm : Name) : List W32 :=
  [statusWord st g second, nodeWord node, BitVec.ofNat 32 (256 * b), nodeWord pnode, lease, BitVec.ofNat 32 rtok,
   BitVec.ofNat 32 holder, 0] ++ wordsOf 4 nx.toNat ++ wordsOf 4 nm.toNat

/-- RXLOOK's effect on this device: its result record so far, and the block name a remote probe starts from. [DEDUCED, log 18] -/
def rxLocal (lse : Bool) (tier : Nat) (s : State) (tk : Task) (mem : Member) (c : Cmd) : State × List W32 × Option Name :=
  match s.slotOf tk.ctx (c.w 0) with
  | none => (s, [statusWord 10 0 255, noneWord, 0, noneWord, noneWord, 0, 0xFFFFF] ++ List.replicate 9 0, none)
  | some x =>
    let ids := mem.words (c.w 1) (c.w 2)
    let r := s.rxWalk (c.w 2 / 256) x.root none 0 ids
    let b := r.2.2.1
    let part := match r.2.1 with
      | some n => s.rxPartial n r.1 (ids.drop (256 * b))
      | none => (0, none)
    let g := match r.2.1.bind fun k => (s.store.nodes.find k).map fun n => (k, n) with
      | some (k, n) => if lse then
          let l := s.grantLease (some tk.ctx) 0 k n tier (c.w 3 % 65536)
          (l.1.status, l.1.id, l.2)
        else (255, noneWord, s)
      | none => (255, noneWord, s)
    (g.2.2, rxRecord (if b = 0 then 4 else 0) part.1 g.1 r.2.1 b part.2 g.2.1 0 0xFFFFF (r.2.2.2.getD 0) r.1, r.2.2.2)

/-- A lease was asked by the RXLOOK whose record so far is given. -/
def rxAsked (out : List W32) : Bool := (out.getD 0 0).extractLsb' 16 8 != 0xFF#8

/-- The record with the second status NOSYNC where no lease was asked (R262). -/
def rxNoSync (out : List W32) : List W32 :=
  if rxAsked out then out else out.modify 0 fun w => (w &&& 0xFF00FFFF#32) ||| 0x000B0000#32

/-- The record with the outcome of a remote probe (R426). -/
def rxRemote (out : List W32) (k : Nat) (holder : BitVec 20) : List W32 :=
  (out.set 5 (BitVec.ofNat 32 (256 * k))).set 6 (if k = 0 then 0xFFFFF else holder.zeroExtend 32)

/-- Where a remote probe stands: blocks held so far, the holder, the devices that hold them all (none before the first answer), and
the block name asked. -/
structure Probe where
  k : Nat
  holder : BitVec 20
  devs : Option (List (BitVec 20))
  name : Name

/-- What the next step of a probe is: a name to ask for, or the end. -/
inductive ProbeStep where
  | ask (p : Probe)
  | done (k : Nat) (holder : BitVec 20)

/-- A probe after an answer (R426); b blocks matched here, ids the token list. The name after block 64 is still asked for. -/
def probeAnswer (b : Nat) (ids : List W32) (p : Probe) (ans : List (BitVec 20)) : ProbeStep :=
  let devs := match p.devs with
    | none => ans
    | some d => d.filter fun x => ans.contains x
  match devs.mergeSort (fun x y => decide (x.toNat ≤ y.toNat)) with
  | [] => .done p.k p.holder
  | h :: _ =>
    let k := p.k + 1
    if 64 ≤ p.k then .done p.k p.holder
    else if ids.length < 256 * (b + k + 1) then .done k h
    else .ask ⟨k, h, some devs, blockName p.name ((ids.drop (256 * (b + k))).take 256)⟩

/-- A probe carried on as far as this device's own name home answers: the record where it ends, else the probe whose name another
device must be asked for. -/
def State.runProbe (s : State) (b : Nat) (ids : List W32) : Nat → Probe → Probe ⊕ (Nat × BitVec 20)
  | 0, p => .inr (p.k, p.holder)
  | n + 1, p =>
    if s.homeOf p.name = s.regs.devid then
      match probeAnswer b ids p (s.fabric.holdersOf p.name) with
      | .done k h => .inr (k, h)
      | .ask q => State.runProbe s b ids n q
    else .inl p

/-- A request sent to another device for a command of member m of task t, which waits for the answer (R420). -/
def State.request (s : State) (t m : Nat) (c : Cmd) (k : ReqKind) (nm : Name) (dest : BitVec 20) (msg : Msg) : State :=
  let s1 := s.send dest msg
  { s1 with fabric := { s1.fabric with reqs := s1.fabric.reqs ++ [⟨nm, k, dest, s.planeOf nm, s.time.ns, t, m, c.seq, 0⟩] } }

/-- A probe as words of a command. -/
def Probe.words (p : Probe) : List W32 :=
  [BitVec.ofNat 32 p.k, p.holder.zeroExtend 32, if p.devs.isSome then 1 else 0] ++ wordsOf 4 p.name.toNat
    ++ (p.devs.getD []).map fun d => d.zeroExtend 32

/-- The probe in a command's words from i on. -/
def Cmd.probe (c : Cmd) (i : Nat) : Probe :=
  { k := c.w i, holder := BitVec.ofNat 20 (c.w (i + 1))
    devs := if c.w (i + 2) = 1 then some ((c.out.drop (i + 7)).map fun w => w.extractLsb' 0 20) else none
    name := BitVec.ofNat 128 (leNat ((List.range 4).flatMap fun j => leBytes 4 (c.w (i + 3 + j)))) }

/-- The end of an RXLOOK of the lead or the only replica: the result record, the log, the echo (R259, R262, R314). hit says that the log
answered it. While a follower has no room for the echo, the completion is delayed with the answer kept (R314). -/
def rxFinish (s : State) (t m : Nat) (tk : Task) (mem : Member) (c : Cmd) (p : PrmRes) (hit : Bool) (out : List W32) : Res :=
  if tk.replicated && !tk.echoRoom mem.rank then
    .next (s.putMember t m (mem.putCmd { c with out := c.out.take 4 ++ out, step := 2, state := .active (s.cycle + 1) }))
  else
  let logged := match c.instr with
    | .rxlook _ _ lse .. => lse == 1#1
    | _ => false
  let m1 := if hit then mem.replayNext c.stream else if logged then (mem.replayPut c 4 out).replayNext c.stream else mem
  let s0 := { s with cur := { s.cur with task := t, member := m } }
  let u := resultUnit s0 m1 c (16 * p.res.toNat) out
  match u.res with
  | .ok => afterPieces s0 1 { u with st := u.st.putTask t (tk.echoResult u.mem c out), cmd := { c with mark := 1 } }
  | _ => afterPieces s0 1 u

/-- A probe of an RXLOOK carried on: asked of another device, or the command's end. -/
def rxProbe (s : State) (t m : Nat) (tk : Task) (mem : Member) (c : Cmd) (p : PrmRes) (b : Nat) (out : List W32) (q : Probe) : Res :=
  match s.runProbe b (mem.words (c.w 1) (c.w 2)) 66 q with
  | .inr r => rxFinish s t m tk mem c p false (rxRemote out r.1 r.2)
  | .inl q1 =>
    let s1 := s.request t m c .lookup q1.name (s.homeOf q1.name) (.lookup q1.name s.regs.devid)
    .next (s1.putMember t m (mem.putCmd { c with out := c.out.take 4 ++ out ++ q1.words, state := .waitAnswer }))

/-- The answer of a LOOKUP for an RXLOOK (R426). -/
def rxAnswered (s : State) (t m : Nat) (tk : Task) (mem : Member) (c : Cmd) (p : PrmRes) (ans : List (BitVec 20)) : Res :=
  let out := (c.out.drop 4).take 16
  let b := c.w 6 / 256
  match probeAnswer b (mem.words (c.w 1) (c.w 2)) (c.probe 20) ans with
  | .done k h => rxFinish s t m tk mem c p false (rxRemote out k h)
  | .ask q => rxProbe s t m tk mem c p b out q

/-- RXLOOK's form (R262). -/
def rxForm (lse : Bool) : PrefixForm :=
  { res := fun _ => 64, bytes := fun _ _ _ => 64
    limits := fun _ w => decide (wordAt w 1 % 4 = 0) && decide (wordAt w 2 ≤ 1048576) && decide (wordAt w 3 < 65536)
      && (!lse || decide (wordAt w 3 ≠ 0))
    reads := fun _ _ w => [(wordAt w 1, 4 * wordAt w 2)] }

/-- RXLOOK (R262). [DEDUCED, log 18] -/
def execRxlook (h : Hdr) (p : PrmRes) (lse : BitVec 1) (tier : BitVec 2) (rmt : BitVec 1) (s : State) : Res :=
  match s.cur.phase with
  | .issue => prefixIssue s (.rxlook h p lse tier rmt) h p (rxForm (lse == 1#1)) fun _ => tier != 3#2
  | .perform =>
    onMember s fun tk mem =>
      match mem.curCmd s with
      | some c =>
        match c.state with
        | .active _ =>
          let t := s.cur.task
          let m := s.cur.member
          if !mem.lead then .next (s.put (mem.putCmd { c with state := .waitAnswer }))
          else if c.step = 2 then rxFinish s t m tk mem c p false ((c.out.drop 4).take 16)
          else if tk.replicated && !tk.echoRoom mem.rank then
            .next (s.put (mem.putCmd { c with state := .active (s.cycle + 1) }))
          else
            match (if lse = 1#1 then mem.replayFor c 4 else none) with
            | some out => rxFinish s t m tk mem c p true out
            | none =>
              let r := rxLocal (lse == 1#1) tier.toNat s tk mem c
              match (if rmt = 1#1 then r.2.2 else none) with
              | none => rxFinish r.1 t m tk mem c p false r.2.1
              | some nx =>
                if !r.1.time.inSync then rxFinish r.1 t m tk mem c p false (rxNoSync r.2.1)
                else rxProbe r.1 t m tk mem c p (wordAt r.2.1 2 / 256) r.2.1 ⟨0, 0xFFFFF, none, nx⟩
        | _ => .next s
      | none => .next s

/-! ## Append, seal, compact (R263 to R265) -/

/-- n BF16 elements from a scratchpad address. -/
def Member.halves (mem : Member) (a n : Nat) : List (BitVec 16) :=
  (List.range n).map fun i => (mem.cont ((a + 2 * i) / 4)).data.extractLsb' (8 * ((a + 2 * i) % 4)) 16

/-- Every container of a range is valid. -/
def Member.allValid (mem : Member) (a len : Nat) : Bool := len == 0 || (mem.conts a ((a % 4 + len + 3) / 4)).all (·.valid)

/-- KAPP's sources: keys, values, identifiers, for a slot's geometry (R263). -/
def kappRanges (g : Option Geom) (w : List W32) : List (Nat × Nat) :=
  let n := wordAt w 3
  (match g with
    | some k => [(wordAt w 4, 2 * k.h * k.c * n), (wordAt w 5, 2 * k.h * k.c * n)]
    | none => []) ++ [(wordAt w 6, 4 * n)]

/-- KAPP's form (R263). [DEDUCED, log 19] -/
def kappForm : PrefixForm :=
  { prm := 8
    limits := fun _ w => decide (wordAt w 2 ≤ 255) && decide (1 ≤ wordAt w 3) && decide (wordAt w 3 + wordAt w 2 ≤ 256)
      && decide (wordAt w 4 % 4 = 0) && decide (wordAt w 5 % 4 = 0) && decide (wordAt w 6 % 4 = 0) && w.getD 7 0 == 0
    reads := fun s tk w => kappRanges ((s.slotOf tk.ctx (wordAt w 0)).map (·.geom)) w
    extra := fun s tk w => [s.slotGeom tk (wordAt w 0)]
    defers := true }

/-- The tail with rows of a layer and identifiers put from token P on. -/
def Tail.append (t : Tail) (l start : Nat) (ks vs : List (List (BitVec 16))) (ids : List W32) : Tail :=
  let put {α : Type} (k : Nat) (m : SMap α) (xs : List α) : SMap α :=
    (List.range xs.length).foldl (fun q i => match xs[i]? with
      | some x => q.put (k + i) x
      | none => q) m
  { t with
    keys := put (256 * l + start) t.keys ks, vals := put (256 * l + start) t.vals vs
    ids := (List.range ids.length).foldl (fun q i => match q.find (start + i), ids[i]? with
      | none, some x => q.put (start + i) x
      | _, _ => q) t.ids
    lfill := t.lfill.set l (start + ks.length) }

/-- KAPP's effect (R263). [DEDUCED, log 19] -/
def kappOp : StoreOp := fun s tk mem c =>
  match s.slotOf tk.ctx (c.w 0) with
  | none => (s, result16 10 0 0)
  | some x =>
    let g := x.geom
    let l := c.w 1
    let start := c.w 2
    let n := c.w 3
    let ids := mem.words (c.w 6) n
    let len := g.h * g.c
    if g.word ≠ c.out.getD 8 0 ∨ g.l ≤ l then (s, result16 10 0 0)
    else if start ≠ x.tail.lfill.getD l 0 then (s, result16 7 0 0)
    else if (List.range n).any fun i => match x.tail.ids.find (start + i) with
        | some y => y != ids.getD i 0
        | none => false then (s, result16 7 0 0)
    else if !((kappRanges (some g) c.out).all fun r => mem.allValid r.1 r.2) then (s, result16 10 0 0)
    else
      let rows (a : Nat) : List (List (BitVec 16)) := (List.range n).map fun i => mem.halves (a + 2 * len * i) len
      let t := (x.tail.append l start (rows (c.w 4)) (rows (c.w 5)) ids).summarise g l (start / 16) ((start + n - 1) / 16 + 1)
      (s.putSlot (c.w 0) (s.withTail x t), result16 0 0 0)

/-- KAPP (R263). -/
def execKapp (h : Hdr) (p : PrmRes) (s : State) : Res :=
  match s.cur.phase with
  | .issue => prefixIssue s (.kapp h p) h p kappForm
  | .perform => prefixPerform p 8 true kappOp s State.grainBegun

/-- A slot after its tail was sealed under a node (R264). -/
def SeqSlot.sealed (x : SeqSlot) (k tok : Nat) : SeqSlot :=
  { x.renew with leaf := some k, tail := Tail.fresh (x.lm1 + 1), tailn := 0, tok := tok }

/-- SEAL's effect (R264, R250, R380): room in the drawer first, then the existence check at the name's trestle. A status of failure
leaves the store as it was (R256). [DEDUCED, log 15] -/
def sealOp (evc : BitVec 2) : StoreOp := fun s tk _ c =>
  match s.slotOf tk.ctx (c.w 0) with
  | none => (s, result16 10 noneWord 0)
  | some x =>
    let d := s.depthOf x.leaf
    let parent := ((x.leaf.bind fun k => s.store.nodes.find k).map (·.name)).getD x.root
    if x.tail.lfill.any fun f => decide (f < 256) then (s, result16 6 noneWord 0)
    else if 4095 ≤ d then (s, result16 10 noneWord 0)
    else match s.roomFor x.geom.block none with
      | none => (s, result16 5 noneWord 0)
      | some s1 =>
        let nm := blockName parent ((List.range 256).map fun i => (x.tail.ids.find i).getD 0)
        match s1.nodeNamed nm with
        | some (e, en) =>
          if en.geom ≠ x.geom then (s, result16 8 noneWord 0)
          else
            let s2 := (s1.modNode e fun n => { n with refc := n.refc + 1 }).modNode? x.leaf fun n => { n with refc := n.refc - 1 }
            ((s2.putSlot (c.w 0) (x.sealed e (256 * (d + 1)))).tailsGone [c.w 0], result16 1 (BitVec.ofNat 32 e) 0)
        | none =>
          match s1.freeNode with
          | none => (s, result16 5 noneWord 0)
          | some k =>
            if !s1.store.dieRoom x.homeDie x.geom.pages then (s, result16 5 noneWord 0)
            else
            let n := { x.block nm parent (d + 1) evc s1.regs.devid s1.nowTick with refc := 1 }
            let s2 := (s1.insertNode k n x.leaf x.homeDie).modNode? x.leaf fun y => { y with refc := y.refc - 1 }
            ((s2.putSlot (c.w 0) (x.sealed k (256 * (d + 1)))).tailsGone [c.w 0], result16 0 (BitVec.ofNat 32 k) 0)

/-- SEAL (R264). -/
def execSeal (h : Hdr) (p : PrmRes) (evc : BitVec 2) (s : State) : Res :=
  match s.cur.phase with
  | .issue => prefixIssue s (.seal h p evc) h p { limits := fun _ => zeroFrom 1, defers := true }
  | .perform => prefixPerform p 4 true (sealOp evc) s State.wholeTail

/-! ## Store-window checks (R352) -/

/-- SWIN of a context, 0 for none (R401). -/
def State.swin (s : State) (ctx : Nat) : Nat := s.ctxField ctx 88 8

/-- The check of one grain and part of a node, by the TLB of a command's stream. -/
def windowCheck (s : State) (tk : Task) (mem : Member) (x : Stream) (node part grain : Nat) : Acc Unit :=
  let w := s.swin tk.ctx
  if w = 0 then ⟨.ok (), mem, s⟩
  else
    let va := (w + node * 0x40000 + part * 0x10000 + grain * 0x1000) % 2 ^ 57
    match s.engTranslate tk mem x va with
    | (none, m1, s1) => ⟨.error ⟨s.missCause tk.ptroot va, BitVec.ofNat 64 va, 0⟩, m1, s1⟩
    | (some l, m1, s1) =>
      if l.r && l.sealedPage then ⟨.ok (), m1, s1⟩ else ⟨.error ⟨cProtection, BitVec.ofNat 64 va, 0⟩, m1, s1⟩

/-- A read that BSEL or CPACT makes: its index, which the progress mark counts, the node with the part and grain to be checked (none of a
tail), whether the check of its grain is made here (R352), and the lines. -/
structure GrainRead where
  idx : Nat
  sealedAt : Option (Nat × Nat × Nat)
  check : Bool
  lines : List ShelfLine

/-- The node of a read. -/
def GrainRead.node (g : GrainRead) : Option Nat := g.sealedAt.map (·.1)

/-- One check covers every row of a grain and part: it is made at the first of the reads of each (R352). -/
def GrainRead.firsts : List (Nat × Nat × Nat) → List GrainRead → List GrainRead
  | _, [] => []
  | seen, g :: r => match g.sealedAt with
    | none => g :: GrainRead.firsts seen r
    | some k => { g with check := !seen.contains k } :: GrainRead.firsts (k :: seen) r

/-- The tier that a command reads a node from: chosen once, when it first reaches the node, by every line of the node that it needs (R372). The
read is registered there (R375). -/
def State.reach (s : State) (k : Nat) (n : Node) (need : List ShelfLine) (t m c : Nat) : Nat × State :=
  match s.store.readers.find? fun r => r.node == k && r.task == t && r.member == m && r.cmd == c with
  | some r => (r.tier, s)
  | none => (s.readTier n need, s.addReader k (s.readTier n need) t m c)

/-- The lines of a node that some reads need. -/
def needOf (rs : List GrainRead) (k : Nat) : List ShelfLine := ((rs.filter fun g => g.node == some k).flatMap (·.lines)).eraseDups

/-- Where a list of reads ends: read to the end, a check failed at an index, or an uncorrectable memory error. -/
inductive ReadEnd where
  | ok
  | check (idx : Nat) (e : Trap)
  | memory (idx : Nat) (e : Trap)

/-- One read: the node is reached, the grain checked, and its lines read (R332, R352, R372). -/
def readGrain (tk : Task) (c : Cmd) (all : List GrainRead) (g : GrainRead) (s : State) (mem : Member) : ReadEnd × Member × State :=
  let r := match g.sealedAt with
    | none => (1, s)
    | some (k, _, _) => match s.store.nodes.find k with
      | some n => s.reach k n (needOf all k) s.cur.task s.cur.member c.seq
      | none => (1, s)
  let a := match g.sealedAt with
    | some (k, part, grain) => if g.check then windowCheck r.2 tk mem c.stream k part grain else ⟨.ok (), mem, r.2⟩
    | none => ⟨.ok (), mem, r.2⟩
  match a.res with
  | .error e => (.check g.idx e, a.mem, a.st)
  | .ok _ => match a.st.readLines r.1 true g.lines with
    | (some pa, s1) => (.memory g.idx (memTrap pa), a.mem, s1)
    | (none, s1) => (.ok, a.mem, s1)

/-- Reads made in order; a node is left when the last of its lines has been read (R375). -/
def readGrains (tk : Task) (c : Cmd) (all : List GrainRead) : List GrainRead → State → Member → ReadEnd × Member × State
  | [], s, mem => (.ok, mem, s)
  | g :: r, s, mem =>
    match readGrain tk c all g s mem with
    | (.ok, m1, s1) =>
      let s2 := match g.node with
        | some k => if r.any fun x => x.node == some k then s1 else s1.dropReader k s.cur.task s.cur.member c.seq
        | none => s1
      readGrains tk c all r s2 m1
    | e => e

/-- The mapping of a slot that a command which reads it keeps (R371). -/
def State.mapping (s : State) (x : SeqSlot) : Kept :=
  let d := s.depthOf x.leaf
  ⟨(List.range d).map fun b => s.store.climb 12 (d - (b + 1)) x.leaf, x.tok, x.tail, x.geom.word, x.gen⟩

/-- What a position resolves to by the mapping that a command keeps (R249, R371). -/
def Kept.place (k : Kept) (p : Nat) : Place :=
  if k.tok ≤ p then .outside
  else if p < 256 * k.blocks.length then
    match (k.blocks.getD (p / 256) none) with
    | some n => .node n (p % 256)
    | none => .outside
  else .tail (p - 256 * k.blocks.length)

/-- What a command keeps that finds no slot. -/
def Kept.nothing : Kept := ⟨[], 0, Tail.empty, noneWord, 0⟩

/-- The geometry of the slot whose mapping is kept. -/
def Kept.geometry (k : Kept) : Geom := geomOfWord k.geom.toNat

/-- A slot as its kept mapping shows it, for the lines of its tail. -/
def Kept.slot (k : Kept) : SeqSlot := { SeqSlot.fresh 0 0 0 k.geometry none k.tok with tail := k.tail }

/-- CPACT's source slot and its positions, none where its status is INVALID (R265). -/
def State.cpactArgs (s : State) (tk : Task) (mem : Member) (c : Cmd) : Option (SeqSlot × List Nat) :=
  let n := c.w 3
  match s.slotPair tk.ctx (c.w 0) (c.w 1) with
  | none => none
  | some (_, x) =>
    let ps := (mem.words (c.w 2) n).map BitVec.toNat
    if mem.allValid (c.w 2) (4 * n) && ps.all fun q => decide (q < x.tok) then some (x, ps) else none

/-- A CPACT at its start: its source's mapping and its positions are kept, the positions after its parameters (R265, R371). -/
def State.cpactStart (s : State) (tk : Task) (mem : Member) (c : Cmd) : Cmd :=
  match c.kept with
  | some _ => c
  | none => match s.cpactArgs tk mem c with
    | none => c
    | some (x, ps) => { c with kept := some (s.mapping x), out := c.out.take 4 ++ ps.map fun q => BitVec.ofNat 32 q }

/-- The positions that a CPACT keeps. -/
def Cmd.positions (c : Cmd) : List Nat := (c.out.drop 4).map BitVec.toNat

/-- What CPACT reads, by listed position: every layer's keys and values (R265, R352). -/
def State.cpactReads (s : State) (c : Cmd) (k : Kept) : List GrainRead :=
  let ls := List.range k.geometry.l
  let ps := c.positions
  GrainRead.firsts [] ((List.range ps.length).flatMap fun i => match k.place (ps.getD i 0) with
    | .node n j => [false, true].map fun v =>
        ⟨i, some (n, if v then 1 else 0, j / 16), true, match s.store.nodes.find n with
          | some y => ls.flatMap fun l => s.rowLines n y v l j 0 y.geom.h
          | none => []⟩
    | .tail j => [⟨i, none, false, ls.flatMap fun l => s.tailLines (c.w 1) k.slot false l j ++ s.tailLines (c.w 1) k.slot true l j⟩]
    | .outside => [])

/-- CPACT's effect (R265), by the mapping it keeps. [DEDUCED, log 26] -/
def cpactOp : StoreOp := fun s tk _ c =>
  match c.kept, s.slotOf tk.ctx (c.w 0) with
  | some k, some d =>
    let g := k.geometry
    let places := c.positions.map k.place
    let row (vals : Bool) (l : Nat) (q : Place) : List (BitVec 16) := match q with
      | .node n j => ((s.store.nodes.find n).map fun y => y.row vals l j).getD []
      | .tail j => k.tail.row vals l j
      | .outside => []
    let ids := places.map fun q => match q with
      | .node n j => (((s.store.nodes.find n).bind fun y => y.ids[j]?)).getD 0
      | .tail j => (k.tail.ids.find j).getD 0
      | .outside => 0
    let t := (List.range g.l).foldl (fun t l =>
      (t.append l 0 (places.map (row false l)) (places.map (row true l)) ids).summarise g l 0 ((places.length + 15) / 16))
      (Tail.fresh g.l)
    ((s.tailsGone [c.w 0]).putSlot (c.w 0) (s.withTail d t).renew, result16 0 0 0)
  | _, _ => (s, result16 10 0 0)

/-- CPACT's form (R265). -/
def cpactForm : PrefixForm :=
  { limits := fun _ w => decide (wordAt w 2 % 4 = 0) && decide (wordAt w 3 ≤ 256)
    reads := fun _ _ w => [(wordAt w 2, 4 * wordAt w 3)]
    defers := true }

/-- The reads of a CPACT that is not answered by the log, from its mark on (R234, R332, R352). -/
def cpactReading (s : State) (tk : Task) (mem : Member) (c : Cmd) : ReadEnd × Member × State :=
  match mem.replayFor c 4, c.kept with
  | none, some k =>
    let all := s.cpactReads c k
    readGrains tk c all (all.filter fun g => decide (c.mark ≤ g.idx)) s mem
  | _, _ => (.ok, mem, s)

/-- CPACT (R265, R352). A failed check and a memory error hold it at the position they meet (R234, R332). [DEDUCED, log 20] -/
def execCpact (h : Hdr) (p : PrmRes) (s : State) : Res :=
  match s.cur.phase with
  | .issue => prefixIssue s (.cpact h p) h p cpactForm
  | .perform =>
    onMember s fun tk mem =>
      match mem.curCmd s with
      | some c0 =>
        match c0.state with
        | .active _ =>
          let c := s.cpactStart tk mem c0
          match cpactReading s tk mem c with
          | (.check i e, m1, s1) | (.memory i e, m1, s1) => afterPieces s 1 ⟨.hold e, s1, m1, { c with mark := i }⟩
          | (.ok, m1, s1) =>
            let r := replayed s1 tk m1 c 4 true cpactOp
            let u := resultUnit (r.1.dropReaders s.cur.task s.cur.member c.seq) r.2.1 c (16 * p.res.toNat) r.2.2
            afterPieces s 1 (u.whole { c with kept := none })
        | _ => .next s
      | none => .next s

/-! ## Leases and nodes (R266) -/

/-- LEASE's effect (R266). [DEDUCED, log 17] -/
def leaseOp : StoreOp := fun s tk _ c =>
  match s.nodeOf tk.ctx (c.w 0) with
  | none => (s, result16 10 noneWord 0)
  | some n =>
    let g := s.grantLease (some tk.ctx) 0 (c.w 0) n (c.w 1 / 65536) (c.w 1 % 65536)
    (g.2, result16 g.1.status g.1.id (BitVec.ofNat 32 g.1.ticks))

/-- LEASE (R266). [DEDUCED, log 17] -/
def execLease (h : Hdr) (p : PrmRes) (s : State) : Res :=
  match s.cur.phase with
  | .issue =>
    prefixIssue s (.lease h p) h p
      { limits := fun _ w => zeroFrom 2 w && decide (wordAt w 1 % 65536 ≠ 0) && decide (wordAt w 1 / 65536 ≤ 2), defers := true }
  | .perform => prefixPerform p 4 true leaseOp s

/-- RENEW's effect (R266). [DEDUCED, log 17] -/
def renewOp : StoreOp := fun s tk _ c =>
  match s.leaseOf tk.ctx (c.out.getD 0 0) with
  | none => (s, result16 9 0 0)
  | some l =>
    let e := min (s.nowTick + c.w 1) 65535
    let s1 := { s with store := { s.store with leases := s.store.leases.map fun (x : Lease) =>
        if x.id == l.id then { x with exp := e } else x } }
    (s1.modNode l.node fun n => { n with lage := s.nowTick }, result16 0 0 (BitVec.ofNat 32 (e - s.nowTick)))

/-- RENEW (R266). [DEDUCED, log 17] -/
def execRenew (h : Hdr) (p : PrmRes) (s : State) : Res :=
  match s.cur.phase with
  | .issue =>
    prefixIssue s (.renew h p) h p { limits := fun _ w => zeroFrom 2 w && decide (wordAt w 1 < 65536), defers := true }
  | .perform => prefixPerform p 4 true renewOp s

/-- FREE's effect (R266). -/
def freeOp : StoreOp := fun s tk _ c =>
  match s.leaseOf tk.ctx (c.out.getD 0 0) with
  | none => (s, result16 9 0 0)
  | some l => (s.endLease l, result16 0 0 0)

/-- FREE (R266). -/
def execFree (h : Hdr) (p : PrmRes) (s : State) : Res :=
  match s.cur.phase with
  | .issue => prefixIssue s (.free h p) h p { limits := fun _ => zeroFrom 1, defers := true }
  | .perform => prefixPerform p 4 true freeOp s

/-- EVCLASS's effect (R266). -/
def evclassOp : StoreOp := fun s tk _ c =>
  match s.nodeOf tk.ctx (c.w 0) with
  | none => (s, result16 10 0 0)
  | some n => (s.putNode (c.w 0) { n with evc := BitVec.ofNat 2 (c.w 1) }, result16 0 0 0)

/-- EVCLASS (R266). -/
def execEvclass (h : Hdr) (p : PrmRes) (s : State) : Res :=
  match s.cur.phase with
  | .issue =>
    prefixIssue s (.evclass h p) h p { limits := fun _ w => zeroFrom 2 w && decide (wordAt w 1 < 4), defers := true }
  | .perform => prefixPerform p 4 true evclassOp s

/-- PROMO's effect (R266, R376). -/
def promoOp : StoreOp := fun s tk _ c =>
  match s.nodeOf tk.ctx (c.w 0) with
  | none => (s, result16 10 0 0)
  | some n =>
    if c.w 1 = 0 then
      match s.fillShelf (c.w 0) with
      | some s1 => (s1, result16 0 0 0)
      | none => (s, result16 (s.shelfStatus (c.w 0) n) 0 0)
    else if n.inTier 1 then (s, result16 0 0 0)
    else match s.roomFor n.geom.block (some (c.w 0)) with
      | some s1 => (s1.modNode (c.w 0) fun x => x.setTier 1 true, result16 0 0 0)
      | none => (s, result16 5 0 0)

/-- PROMO (R266). -/
def execPromo (h : Hdr) (p : PrmRes) (s : State) : Res :=
  match s.cur.phase with
  | .issue =>
    prefixIssue s (.promo h p) h p { limits := fun _ w => zeroFrom 2 w && decide (wordAt w 1 < 2), defers := true }
  | .perform => prefixPerform p 4 true promoOp s

/-- NODEINFO's effect (R266). -/
def nodeinfoOp : StoreOp := fun s tk _ c =>
  match s.nodeOf tk.ctx (c.w 0) with
  | none => (s, List.replicate 64 0)
  | some n => (s, wordsOf 64 n.record)

/-- NODEINFO (R266). -/
def execNodeinfo (h : Hdr) (p : PrmRes) (s : State) : Res :=
  match s.cur.phase with
  | .issue =>
    prefixIssue s (.nodeinfo h p) h p { res := fun _ => 256, limits := fun _ => zeroFrom 1, bytes := fun _ _ _ => 256 }
  | .perform => echoPerform p 4 false nodeinfoOp s

/-! ## Sparse selection (R268, R269) -/

/-- The order of FP32 codes that are not NaN. -/
def f32Key (x : Nat) : Int := if x < 2 ^ 31 then x else -((x : Int) - 2 ^ 31)

/-- term(q, lo, hi) of R268, as an FP32 code. -/
def boundTerm (q lo hi : FVal) : Nat :=
  if q.isZero then 0
  else if q.isNan || q.isInf then 0x7F800000
  else
    let a := (roundFmt (mulVal q lo) fp32 3 false 0).1
    let b := (roundFmt (mulVal q hi) fp32 3 false 0).1
    if f32Key a < f32Key b then b else a

/-- bound(r, g) of R268 for one query row over a summary. -/
def boundRow (q : List FVal) (sm : List (BitVec 8 × BitVec 8)) : Nat :=
  (List.range q.length).foldl (fun b i =>
    let x := sm.getD i (0, 0)
    (farithAdd (fp32.decode b) (fp32.decode (boundTerm (q.getD i (.fin false 0 0)) (e5m2.decode x.1.toNat) (e5m2.decode x.2.toNat)))
      fp32 3 0).1) 0

/-- The fields of BSEL's parameter record (R268). -/
structure BselPrm where
  slot : Nat
  t0 : Nat
  n : Nat
  layer : Nat
  qr : Nat
  half : Bool
  mode : Bool
  query : Nat
  g : Nat
  sink : Nat
  new : Nat
  tau : Nat
  list : Nat

/-- BSEL's parameters from its words. -/
def bselPrm (w : List W32) : BselPrm :=
  let a := wordAt w 3
  let b := wordAt w 5
  { slot := wordAt w 0, t0 := wordAt w 1, n := wordAt w 2, layer := a % 65536, qr := a / 2 ^ 16 % 256
    half := a / 2 ^ 24 % 2 == 1, mode := a / 2 ^ 25 % 2 == 1, query := wordAt w 4, g := b % 65536, sink := b / 2 ^ 16 % 256
    new := b / 2 ^ 24, tau := wordAt w 6, list := wordAt w 7 }

/-- Bytes of BSEL's query rows for C channels. -/
def BselPrm.queryBytes (q : BselPrm) (c : Nat) : Nat := q.qr * c * (if q.half then 2 else 4)

/-- Bytes of BSEL's list. -/
def BselPrm.listBytes (q : BselPrm) : Nat := 4 * (1 + q.sink + q.new + q.g)

/-- BSEL's form (R268, R257). -/
def bselForm : PrefixForm :=
  { prm := 8
    limits := fun _ w =>
      let q := bselPrm w
      decide (q.t0 % 16 = 0) && decide (1 ≤ q.n) && decide (q.n ≤ 131072) && decide (1 ≤ q.qr) && decide (q.qr ≤ 16)
        && decide (wordAt w 3 / 2 ^ 24 < 4) && decide (q.query % 16 = 0) && decide (q.g ≤ 8192)
        && (decide (q.tau < 0x7F800000) || q.tau == 0x80000000) && decide (q.list % 4 = 0)
    reads := fun s tk w => match s.slotOf tk.ctx (wordAt w 0) with
      | some x => [((bselPrm w).query, (bselPrm w).queryBytes x.geom.c)]
      | none => []
    others := fun _ _ w => [((bselPrm w).list, (bselPrm w).listBytes)]
    bytes := fun _ _ w => 16 + (bselPrm w).listBytes
    extra := fun s tk w => [s.slotGeom tk (wordAt w 0)] }

/-- BSEL's slot, none where its status is INVALID (R255, R268). -/
def State.bselSlot (s : State) (tk : Task) (mem : Member) (c : Cmd) : Option SeqSlot :=
  let q := bselPrm c.out
  match s.slotOf tk.ctx q.slot with
  | none => none
  | some x =>
    let g := x.geom
    if c.out.getD 8 0 ≠ noneWord ∧ (geomOfWord (c.w 8)).c = g.c ∧ q.qr % g.h = 0 ∧ q.layer < g.l ∧ q.t0 + q.n ≤ x.tok
        ∧ mem.allValid q.query (q.queryBytes g.c) then some x else none

/-- Grains of BSEL. -/
def BselPrm.grains (q : BselPrm) : Nat := (q.n + 15) / 16

/-- A BSEL at its start: its slot's mapping is kept (R371). -/
def State.bselStart (s : State) (tk : Task) (mem : Member) (c : Cmd) : Cmd :=
  match c.kept with
  | some _ => c
  | none => { c with kept := (s.bselSlot tk mem c).map s.mapping }

/-- The summary of the grain at a position, layer l, head h. -/
def State.summaryAt (s : State) (k : Kept) (p l h : Nat) : List (BitVec 8 × BitVec 8) :=
  match k.place p with
  | .node n j => ((s.store.nodes.find n).bind fun y => y.sums.find ((16 * l + j / 16) * 16 + h)).getD []
  | .tail j => (k.tail.sums.find ((16 * l + j / 16) * 16 + h)).getD []
  | .outside => []

/-- What BSEL reads, by grain: summaries (R268, R352). -/
def State.bselReads (s : State) (k : Kept) (q : BselPrm) : List GrainRead :=
  GrainRead.firsts [] ((List.range q.grains).filterMap fun i => match k.place (q.t0 + 16 * i) with
    | .node n j => some ⟨i, some (n, 2, j / 16), true, match s.store.nodes.find n with
      | some y => s.sumLines n y q.layer (j / 16)
      | none => []⟩
    | .tail j => some ⟨i, none, false, s.tailSumLines q.slot k.slot q.layer (j / 16)⟩
    | .outside => none)

/-- The greater of two FP32 codes. -/
def f32Max (a b : Nat) : Nat := if f32Key a < f32Key b then b else a

/-- The grains BSEL selects, ascending, of the bounds given (R268). -/
def selectGrains (q : BselPrm) (bounds : List Nat) : List Nat :=
  let ng := bounds.length
  let keep := fun i => decide (i < q.sink) || decide (ng ≤ i + q.new)
  let bmax := bounds.foldl f32Max (bounds.headD 0)
  let thr := (farithAdd (fp32.decode bmax) (fp32.decode q.tau).negate fp32 2 0).1
  let cand := (List.range ng).filter fun i => !keep i && (!q.mode || decide (f32Key thr ≤ f32Key (bounds.getD i 0)))
  let sorted := cand.mergeSort fun a b =>
    decide (f32Key (bounds.getD b 0) < f32Key (bounds.getD a 0)) ||
      (decide (f32Key (bounds.getD a 0) = f32Key (bounds.getD b 0)) && decide (a ≤ b))
  let top := sorted.take q.g
  (List.range ng).filter fun i => keep i || top.contains i

/-- BSEL's list and result (R268). -/
def State.bselOut (s : State) (mem : Member) (k : Kept) (q : BselPrm) : List W32 × List W32 :=
  let g := k.geometry
  let row (r : Nat) : List FVal :=
    if q.half then tailVals (mem.halves (q.query + 2 * g.c * r) g.c)
    else (mem.words (q.query + 4 * g.c * r) g.c).map fun w => fp32.decode w.toNat
  let rows := (List.range q.qr).map row
  let bounds := (List.range q.grains).map fun i =>
    let bs := (List.range q.qr).map fun r => boundRow (rows.getD r []) (s.summaryAt k (q.t0 + 16 * i) q.layer (r * g.h / q.qr))
    bs.foldl f32Max (bs.headD 0)
  let sel := selectGrains q bounds
  (BitVec.ofNat 32 sel.length :: sel.map fun i => BitVec.ofNat 32 (q.t0 + 16 * i),
    result16 0 (BitVec.ofNat 32 sel.length) (BitVec.ofNat 32 (bounds.foldl f32Max (bounds.headD 0))))

/-- BSEL (R268). A failed check holds it at its grain (R234, R352), a memory error at mark 0 (R332). [DEDUCED, log 20] -/
def execBsel (h : Hdr) (p : PrmRes) (s : State) : Res :=
  match s.cur.phase with
  | .issue => prefixIssue s (.bsel h p) h p bselForm
  | .perform =>
    onMember s fun tk mem =>
      match mem.curCmd s with
      | some c0 =>
        match c0.state with
        | .active _ =>
          let q := bselPrm c0.out
          let c := s.bselStart tk mem c0
          match c.kept with
          | none => afterPieces s 1 { resultUnit s mem c (16 * p.res.toNat) (result16 10 0 0) with cmd := { c with mark := 1 } }
          | some k =>
            let all := s.bselReads k q
            match readGrains tk c all (all.filter fun g => decide (c.mark ≤ g.idx)) s mem with
            | (.check i e, m1, s1) => afterPieces s 1 ⟨.hold e, s1, m1, { c with mark := i }⟩
            | (.memory _ e, m1, s1) => afterPieces s 1 ⟨.hold e, s1, m1, { c with mark := 0 }⟩
            | (.ok, m1, s1) =>
              let out := s1.bselOut m1 k q
              let u := resultUnit (s1.dropReaders s.cur.task s.cur.member c.seq) m1 c q.list out.1
              let v := match u.res with
                | .ok => resultUnit u.st u.mem c (16 * p.res.toNat) out.2
                | _ => u
              afterPieces s 1 (v.whole { c with kept := none })
        | _ => .next s
      | none => .next s

/-- The fields of PGATH's parameter record (R269). -/
structure PgathPrm where
  slot : Nat
  list : Nat
  nmax : Nat
  layer : Nat
  h0 : Nat
  nh : Nat
  vals : Bool
  range : Bool
  p0 : Nat

/-- PGATH's parameters from its words. -/
def pgathPrm (w : List W32) : PgathPrm :=
  let a := wordAt w 3
  { slot := wordAt w 0, list := wordAt w 1, nmax := wordAt w 2, layer := a % 65536, h0 := a / 2 ^ 16 % 256, nh := a / 2 ^ 24
    vals := wordAt w 4 % 2 == 1, range := wordAt w 4 / 256 % 2 == 1, p0 := wordAt w 5 }

/-- PGATH's form (R269, R257). [DEDUCED, log 19] -/
def pgathForm (n : Nat) : PrefixForm :=
  { prm := 8
    limits := fun mem w =>
      let q := pgathPrm w
      let win := mem.window n
      decide (q.list % 4 = 0) && (!q.range || q.list == 0) && decide (1 ≤ q.nmax) && decide (q.nmax ≤ 8192) && decide (1 ≤ q.nh)
        && decide (q.nh ≤ 16) && decide (wordAt w 4 % 256 < 2) && decide (wordAt w 4 / 256 < 2) && decide (q.p0 % 16 = 0)
        && zeroFrom 6 w && win.opened && decide (win.filled + 16 * q.nmax ≤ win.depth)
    reads := fun _ _ w => if (pgathPrm w).range then [] else [((pgathPrm w).list, 4 * (1 + (pgathPrm w).nmax))]
    bytes := fun s tk w =>
      let q := pgathPrm w
      match s.slotOf tk.ctx q.slot with
      | some x => 16 * q.nmax * (2 * q.nh * x.geom.c)
      | none => (Config.freeWord s.free).toNat }

/-- What a PGATH finds at its start (R269): status and count, kept after its parameters. -/
def State.pgathStart (s : State) (tk : Task) (mem : Member) (c : Cmd) (r : Ring) : List W32 :=
  let q := pgathPrm c.out
  let w0 := mem.cont (q.list / 4)
  match s.slotOf tk.ctx q.slot with
  | none => [10, 0]
  | some x =>
    let g := x.geom
    if r.rows * 512 < 2 * q.nh * g.c ∨ g.l ≤ q.layer ∨ g.h < q.h0 + q.nh ∨ (q.range = false ∧ w0.valid = false) then [10, 0]
    else [0, if q.range then BitVec.ofNat 32 q.nmax else w0.data]

/-- The mapping a PGATH starts with and finishes with (R371): the blocks of its slot, its tokens and its tail. -/
def State.pgathKept (s : State) (tk : Task) (c : Cmd) : Kept :=
  match s.slotOf tk.ctx (pgathPrm c.out).slot with
  | none => Kept.nothing
  | some x => s.mapping x

/-- The position of row j of a PGATH that has started: none for an invalid row. -/
def pgathPos (mem : Member) (c : Cmd) (j : Nat) : Option Nat :=
  let q := pgathPrm c.out
  let i := j / 16
  let w := mem.cont (q.list / 4 + i + 1)
  if c.w 9 ≤ i then none
  else if q.range then some (q.p0 + 16 * i + j % 16)
  else if w.valid then some (w.data.toNat + j % 16) else none

/-- A window slot of a PGATH written, or a row made invalid. -/
def pgathPut (s : State) (mem : Member) (c : Cmd) (r : Ring) (j : Nat) (f : Nat → Member → Member) : UnitRes :=
  let u := spPiece s mem c (r.slotAddr j) (r.rows * 512) (f (r.slotAddr j))
  match u.res with
  | .ok => { u with mem := u.mem.setWindow r.w ((u.mem.window r.w).rowWritten r.gen (r.tag + j)) }
  | _ => u

/-- The bytes of BF16 elements. -/
def halfBytes (xs : List (BitVec 16)) : List (Byte × Bool) := xs.flatMap fun x => (leBytes 2 x.toNat).map fun b => (b, false)

/-- The live slot of a PGATH where KAPP alone has changed it since the start, by adding rows (R222, R258, R269). -/
def State.grownSlot (s : State) (tk : Task) (q : PgathPrm) (k : Kept) : Option SeqSlot :=
  match s.slotOf tk.ctx q.slot with
  | some x => if x.gen = k.gen ∧ k.tok < x.tok then some x else none
  | none => none

/-- A row of a tail that a KAPP has written during the PGATH: container by container the old, invalid, or the new value, as a free value
chooses (R222, R269). [DEDUCED, log 20] -/
def pgathNew (s : State) (mem : Member) (c : Cmd) (r : Ring) (j : Nat) (row : List (BitVec 16)) : UnitRes :=
  let n := row.length / 2
  let put := fun (a : Nat) (m : Member) => (List.range n).foldl (fun m i =>
    m.setCont (a / 4 + i) (if (Config.freeWord (s.free + i)).getLsbD 0 then Container.ord (row.getD (2 * i + 1) 0 ++ row.getD (2 * i) 0)
      else Container.none)) m
  pgathPut { s with free := s.free + n } mem c r j put

/-- The lines of a node that a PGATH needs from row j on. -/
def State.pgathNeed (s : State) (mem : Member) (c : Cmd) (k : Kept) (n : Nat) (y : Node) (j : Nat) : List ShelfLine :=
  let q := pgathPrm c.out
  ((List.range (16 * q.nmax)).flatMap fun b => match (if j ≤ b then (pgathPos mem c b).map k.place else none) with
    | some (.node n2 i) => if n2 = n then s.rowLines n y q.vals q.layer i q.h0 q.nh else []
    | _ => []).eraseDups

/-- Row j of a PGATH that has started (R269): a node is reached at its first row and left after its last (R372, R375), and one check covers every
row of a grain (R352). An uncorrectable memory error holds it at the row (R332). -/
def pgathRow (tk : Task) (s : State) (mem : Member) (c : Cmd) (r : Ring) (j : Nat) (k : Kept) : UnitRes :=
  let q := pgathPrm c.out
  let t := s.cur.task
  let m := s.cur.member
  if c.w 8 ≠ 0 then pgathPut s mem c r j fun a m => m.spInvalid a (r.rows * 512)
  else
    let g := k.geometry
    let rb := 2 * q.nh * g.c
    let cut (xs : List (BitVec 16)) := (xs.drop (q.h0 * g.c)).take (q.nh * g.c)
    let row (x : List (BitVec 16)) (st : State) (mm : Member) := pgathPut st mm c r j fun a m => m.spPut a false (halfBytes (cut x))
    let at_ := fun (b : Nat) => (pgathPos mem c b).map k.place
    let pos := pgathPos mem c j
    match pos.map k.place, (pos.bind fun p => (s.grownSlot tk q k).filter fun x => decide (p < x.tok)) with
    | some (.node n i), _ =>
      match s.store.nodes.find n with
      | none => pgathPut s mem c r j fun a m => m.spInvalid a rb
      | some y =>
        let s0 := s.reach n y (s.pgathNeed mem c k n y j) t m c.seq
        let seen := (List.range j).any fun b => match at_ b with
          | some (.node n2 i2) => n2 == n && i2 / 16 == i / 16
          | _ => false
        let acc := if seen then ⟨.ok (), mem, s0.2⟩ else windowCheck s0.2 tk mem c.stream n (if q.vals then 1 else 0) (i / 16)
        match acc.res with
        | .error e => ⟨.hold e, acc.st, acc.mem, c⟩
        | .ok _ =>
          match acc.st.readLines s0.1 true (s.rowLines n y q.vals q.layer i q.h0 q.nh) with
          | (some pa, s1) => ⟨.hold (memTrap pa), s1, acc.mem, c⟩
          | (none, s1) =>
            let later := (List.range (16 * q.nmax)).any fun b => decide (j < b) && (match at_ b with
              | some (.node n2 _) => n2 == n
              | _ => false)
            row (y.row q.vals q.layer i) (if later then s1 else s1.dropReader n t m c.seq) acc.mem
    | some (.tail i), _ =>
      match s.readLines 1 true (s.tailLines q.slot k.slot q.vals q.layer i) with
      | (some pa, s1) => ⟨.hold (memTrap pa), s1, mem, c⟩
      | (none, s1) => row (k.tail.row q.vals q.layer i) s1 mem
    | some .outside, some x => pgathNew s mem c r j (cut (x.tail.row q.vals q.layer (pos.getD 0 - 256 * k.blocks.length)))
    | _, _ => pgathPut s mem c r j fun a m => m.spInvalid a rb

/-- A piece of a PGATH: its start before the first row, and its result record after the last. -/
def pgathPiece (p : PrmRes) (tk : Task) (s : State) (mem : Member) (c : Cmd) (j : Nat) : UnitRes :=
  match c.ring with
  | none => ⟨.ok, s, mem, c⟩
  | some r =>
    let c1 := match c.kept with
      | some _ => c
      | none => { c with
          out := c.out.take 8 ++ s.pgathStart tk mem c r ++ [s.slotGeom tk (pgathPrm c.out).slot], kept := some (s.pgathKept tk c) }
    if j < 16 * (pgathPrm c.out).nmax then pgathRow tk s mem c1 r j (c1.kept.getD Kept.nothing)
    else
      let u := resultUnit (s.dropReaders s.cur.task s.cur.member c.seq) mem c1 (16 * p.res.toNat) (result16 (c1.w 8) 0 0)
      { u with cmd := { u.cmd with kept := none } }

/-- PGATH (R269). -/
def execPgath (h : Hdr) (p : PrmRes) (w : BitVec 4) (s : State) : Res :=
  match s.cur.phase with
  | .issue =>
    prefixIssue s (.pgath h p w) h p (pgathForm w.toNat) (post := fun mem c =>
      let win := mem.window w.toNat
      let n := 16 * (pgathPrm c.out).nmax
      (mem.setWindow w.toNat (win.advance 0 n), { c with ring := some (win.ring w.toNat win.next) }))
  | .perform => workCmd s (fun _ _ c => 16 * (pgathPrm c.out).nmax + 1) (pgathPiece p)

/-! ## Replicas of remote blocks (R270, R427) -/

/-- REPL's NAME. -/
def Cmd.replName (c : Cmd) : Name := BitVec.ofNat 128 (leNat ((List.range 4).flatMap fun i => leBytes 4 (c.w (4 + i))))

/-- REPL's form (R270). -/
def replForm : PrefixForm :=
  { prm := 8
    limits := fun _ w => decide (wordAt w 0 < 2 ^ 20) && decide (wordAt w 1 < 4) && w.getD 2 0 == 0 && w.getD 3 0 == 0 }

/-- The end of a REPL (R270, R427): its result record, the replay log, and the end of what it held. [DEDUCED, log 23] -/
def replFinish (s : State) (t m : Nat) (mem : Member) (c : Cmd) (p : PrmRes) (out : List W32) : Res :=
  let mine := fun (a b d : Nat) => a == t && b == m && d == c.seq
  let frees := s.fabric.held.filter fun l => mine l.task l.member l.cmd
  let s1 := frees.foldl (fun st l => st.send l.source (.rlfree l.name st.regs.devid l.id)) s
  let s2 := { s1 with
    cur := { s1.cur with task := t, member := m }
    fabric := { s1.fabric with
      held := s1.fabric.held.filter fun l => !mine l.task l.member l.cmd
      reqs := s1.fabric.reqs.filter fun l => !mine l.task l.member l.cmd
      copies := s1.fabric.copies.filter fun l => !mine l.task l.member l.cmd } }
  let u := resultUnit s2 ((mem.replayPut c 8 out).replayNext c.stream) c (16 * p.res.toNat) out
  afterPieces s2 1 (u.whole c)

/-- REPL (R270): asks the source for a remote lease (R427), or ends at once with MISS where it may not (R421, R430). [DEDUCED, log 23] -/
def execRepl (h : Hdr) (p : PrmRes) (s : State) : Res :=
  match s.cur.phase with
  | .issue => prefixIssue s (.repl h p) h p replForm fun tk => !tk.replicated
  | .perform =>
    onMember s fun _ mem =>
      match mem.curCmd s with
      | some c =>
        match c.state with
        | .active _ =>
          let t := s.cur.task
          let m := s.cur.member
          let dev : BitVec 20 := BitVec.ofNat 20 (c.w 0)
          match mem.replayFor c 8 with
          | some out =>
            let u := resultUnit s (mem.replayNext c.stream) c (16 * p.res.toNat) out
            afterPieces s 1 (u.whole c)
          | none =>
            if !s.inDomain dev || !s.time.inSync then replFinish s t m mem c p (result16 4 noneWord 0)
            else
              let s1 := s.request t m c .rlease c.replName dev (.rlease c.replName s.regs.devid 4096)
              .next (s1.putMember t m (mem.putCmd { c with state := .waitAnswer }))
        | _ => .next s
      | none => .next s

end Sys2Proof.Machine
end

