-- ==== Sys2Proof/Machine/Token.lean ====
section
/-! DEFINITION. The token engine and the grammar masks, row 0x4_ of the opcode map (R272 to R292). -/

namespace Sys2Proof.Machine

/-! ## Images (R274, R284) -/

/-- Why an image cannot be read: NOIMAGE (R273), or a failed read, which holds the command (R331). -/
inductive ImgErr where
  | noImage
  | held (t : Trap)
  deriving DecidableEq, Repr

/-- A piece of work of the token engine: reads of an image move the stream's TLB and the device's free values and error counts. -/
abbrev Img := ExceptT ImgErr (StateM (Member × State))

/-- A reader of n bytes at an address. [DEDUCED, log 24] -/
abbrev ImgReader := Nat → Nat → Img (List Byte)

/-- Parts of an image read in order, each within a page that grants no write permission (R274). -/
def imgParts (tk : Task) (x : Stream) : List (Nat × Nat) → Img (List Byte)
  | [] => pure []
  | (va, n) :: r => do
    let a ← get
    let w := a.2.engTranslate tk a.1 x va
    set w.2
    match w.1 with
    | none => throw (.held ⟨a.2.missCause tk.ptroot va, BitVec.ofNat 64 va, 0⟩)
    | some l =>
      if !l.r then throw (.held ⟨cProtection, BitVec.ofNat 64 va, 0⟩)
      else if l.w then throw .noImage
      else
        let pa := l.pa va
        set (w.2.1, w.2.2.noteRead pa n)
        if !w.2.2.rangeOk pa n then throw (.held ⟨cMemory, BitVec.ofNat 64 va, 0⟩)
        else
          let b := (w.2.2.noteRead pa n).weakBytes a.2.cur.task w.2.1 pa n 1
          set b.2
          return b.1 ++ (← imgParts tk x r)

/-- The reader of a command's stream. [DEDUCED, log 24] -/
def imgRead (tk : Task) (x : Stream) : ImgReader := fun va n => imgParts tk x (parts 4096 va n)

/-- The little-endian number of n bytes of a byte list from i. -/
def leAt (bs : List Byte) (i n : Nat) : Nat := leNat ((bs.drop i).take n)

/-- The header of a vocabulary image (R274). fblp is FBLP as an FP32 code. -/
structure Vocab where
  base : Nat
  ntok : Nat
  logn : Nat
  maxlen : Nat
  fblp : Nat
  fbbase : Nat
  hoff : Nat
  doff : Nat

/-- An FP16 code as an FP32 code: exact, a NaN to the canonical NaN. -/
def halfToSingle (x : Nat) : Nat := (roundFmt (fp16.decode x) fp32 0 false 0).1

/-- A vocabulary image's header read and checked (R274). -/
def vocabAt (rd : ImgReader) (base : Nat) : Img Vocab := do
  let b ← rd base 64
  let fb := fp16.decode (leAt b 6 2)
  let v : Vocab := ⟨base, leAt b 0 4, leAt b 4 1, leAt b 5 1, halfToSingle (leAt b 6 2), leAt b 8 4, leAt b 16 8, leAt b 24 8⟩
  if 256 ≤ v.ntok ∧ v.ntok ≤ 262144 ∧ 4 ≤ v.logn ∧ v.logn ≤ 22 ∧ 1 ≤ v.maxlen ∧ v.maxlen ≤ 24 ∧ fb.isNan = false
      ∧ fb.isInf = false ∧ v.fbbase + 255 < v.ntok ∧ leAt b 12 4 = 0 ∧ v.hoff % 64 = 0 ∧ v.doff % 64 = 0 ∧ leAt b 32 32 = 0 then
    return v
  else throw .noImage

/-- vhash (R275). -/
def vhash (bs : List Byte) : W64 := bs.foldl (fun h b => rng64 h (b.zeroExtend 64)) (rng64 0 (BitVec.ofNat 64 bs.length))

/-- The probes of a lookup from entry i on, at most n: identifier and score (R275). -/
def vocabProbe (rd : ImgReader) (v : Vocab) (h : W64) (k : Nat) : Nat → Nat → Img (Option (Nat × Nat))
  | 0, _ => pure none
  | n + 1, i => do
    let e := leNat (← rd (v.base + v.hoff + 16 * (i % 2 ^ v.logn)) 16)
    let id := e / 2 ^ 64 % 2 ^ 18
    let len := e / 2 ^ 82 % 32
    if len = 0 ∨ e / 2 ^ 87 % 2 = 1 ∨ e / 2 ^ 104 ≠ 0 ∨ v.ntok ≤ id then return none
    else if e % 2 ^ 64 = h.toNat ∧ len = k then return some (id, halfToSingle (e / 2 ^ 88 % 2 ^ 16))
    else vocabProbe rd v h k n (i + 1)

/-- lookup (R275): the identifier and the score, as an FP32 code, of a byte string. -/
def vocabLookup (rd : ImgReader) (v : Vocab) (bs : List Byte) : Img (Option (Nat × Nat)) :=
  if v.maxlen < bs.length then pure none
  else vocabProbe rd v (vhash bs) bs.length 8 ((vhash bs).toNat % 2 ^ v.logn)

/-! ## Segmentation (R276 to R278) -/

/-- An offset of the pending text: a boundary, its best score, and the step that reached it. -/
structure Off where
  bnd : Bool
  best : Nat
  len : Nat
  fb : Bool
  deriving DecidableEq, Repr

/-- The pending text of a run and its offsets 0 to its length. -/
structure Run where
  bytes : List Byte
  offs : List Off
  deriving DecidableEq, Repr

/-- An offset that is no boundary. -/
def Off.no : Off := ⟨false, 0, 0, false⟩

/-- The start of a run. -/
def Run.start : Run := ⟨[], [⟨true, 0, 0, false⟩]⟩

/-- Offset i of a run. -/
def Run.off (r : Run) (i : Nat) : Off := r.offs.getD i Off.no

/-- The order of scores: NaN below every number (R277). -/
def scoreLt (a b : Nat) : Bool :=
  match (fp32.decode a).isNan, (fp32.decode b).isNan with
  | true, true => false
  | true, false => true
  | false, true => false
  | false, false => decide (f32Key a < f32Key b)

/-- The sum of two scores. -/
def scoreAdd (a b : Nat) : Nat := (farithAdd (fp32.decode a) (fp32.decode b) fp32 0 0).1

/-- A candidate step: score, length, fallback. -/
abbrev Step := Nat × Nat × Bool

/-- a is preferred to b (R277). -/
def stepBetter (a b : Step) : Bool :=
  if scoreLt b.1 a.1 then true
  else if scoreLt a.1 b.1 then false
  else if a.2.1 ≠ b.2.1 then decide (b.2.1 < a.2.1)
  else !a.2.2 && b.2.2

/-- The piece candidates of boundary e from the boundaries of a list. -/
def pieceSteps (rd : ImgReader) (v : Vocab) (r : Run) (e : Nat) : List Nat → Img (List Step)
  | [] => pure []
  | i :: t => do
    match ← vocabLookup rd v ((r.bytes.drop i).take (e - i)) with
    | some p => return (scoreAdd (r.off i).best p.2, e - i, false) :: (← pieceSteps rd v r e t)
    | none => pieceSteps rd v r e t

/-- A score after k fallback bytes. -/
def fallbackScore (v : Vocab) : Nat → Nat → Nat
  | 0, f => f
  | k + 1, f => fallbackScore v k (scoreAdd f v.fblp)

/-- Boundary e settled (R277). -/
def Run.settle (rd : ImgReader) (v : Vocab) (r : Run) (e : Nat) : Img Run := do
  let before := (List.range e).filter fun i => (r.off i).bnd
  let last := before.getLastD 0
  let ps ← pieceSteps rd v r e (before.filter fun i => decide (e ≤ i + v.maxlen))
  let fb : Step := (fallbackScore v (e - last) (r.off last).best, e - last, true)
  let b := ps.foldl (fun a c => if stepBetter c a then c else a) fb
  return { r with offs := r.offs.set e ⟨true, b.1, b.2.1, b.2.2⟩ }

/-- The back chain of a boundary down to offset 0, at most n steps. -/
def Run.chain (r : Run) : Nat → Nat → List Nat
  | 0, i => [i]
  | n + 1, i => if i = 0 then [0] else i :: Run.chain r n (i - (r.off i).len)

/-- The members of F at the end of the pending text (R278). -/
def Run.front (r : Run) (v : Vocab) : List Nat :=
  (List.range (r.bytes.length + 1)).filter fun i => (r.off i).bnd && decide (r.bytes.length < i + v.maxlen)

/-- The tokens of one step (R278). -/
def stepTokens (rd : ImgReader) (v : Vocab) (fb : Bool) (bs : List Byte) : Img (List Nat) := do
  let bytes := bs.map fun b => v.fbbase + b.toNat
  if fb then return bytes
  else match ← vocabLookup rd v bs with
    | some p => return [p.1]
    | none => return bytes

/-- The tokens of the steps of a chain, given by its boundaries ascending. -/
def chainTokens (rd : ImgReader) (v : Vocab) (r : Run) : List Nat → Img (List Nat)
  | a :: b :: t => do return (← stepTokens rd v (r.off b).fb ((r.bytes.drop a).take (b - a))) ++ (← chainTokens rd v r (b :: t))
  | _ => pure []

/-- The chain to boundary c emitted, which becomes offset 0. -/
def Run.emit (rd : ImgReader) (v : Vocab) (r : Run) (c : Nat) : Img (List Nat × Run) := do
  return (← chainTokens rd v r (r.chain c c).reverse, ⟨r.bytes.drop c, r.offs.drop c⟩)

/-- The commit point (R278): the latest boundary on every chain of F. -/
def Run.commitPoint (r : Run) (v : Vocab) : Nat :=
  let cs := (r.front v).map fun i => r.chain i i
  (((List.range (r.bytes.length + 1)).filter fun i => cs.all fun c => c.contains i).getLastD 0)

/-- Boundaries of a run from j on settled again, n offsets at most. -/
def Run.resettle (rd : ImgReader) (v : Vocab) : Nat → Nat → Run → Img Run
  | 0, _, r => pure r
  | n + 1, j, r => do
    if (r.off j).bnd then Run.resettle rd v n (j + 1) (← r.settle rd v j) else Run.resettle rd v n (j + 1) r

/-- The member of F with the highest best score, the latest on equal scores (R278). [DEDUCED, log 25] -/
def Run.forcePoint (r : Run) (v : Vocab) : Nat :=
  (r.front v).foldl (fun a i => if scoreLt (r.off i).best (r.off a).best then a else i) ((r.front v).headD 0)

/-- The commit after a boundary is settled, forced where more than 64 bytes are pending (R278). [DEDUCED, log 25] -/
def Run.commit (rd : ImgReader) (v : Vocab) (r : Run) : Img (List Nat × Run) := do
  let a ← r.emit rd v (r.commitPoint v)
  if a.2.bytes.length ≤ 64 then return a
  else
    let b ← a.2.emit rd v (a.2.forcePoint v)
    let zero := { b.2 with offs := b.2.offs.modify 0 fun o => { o with best := 0, len := 0, fb := false } }
    let r3 ← Run.resettle rd v b.2.bytes.length 1 zero
    let d ← r3.emit rd v (r3.commitPoint v)
    return (a.1 ++ b.1 ++ d.1, d.2)

/-- The tokeniser between bytes: the carry, the run, the tokens emitted, the invalid bytes met, the bytes consumed (R280). -/
structure TkState where
  carry : List Byte
  run : Run
  out : List Nat
  bad : Nat
  pos : Nat

/-- The back chain of offset i ends at offset 0, in at most n steps. -/
def Run.reaches (r : Run) : Nat → Nat → Bool
  | 0, i => i == 0
  | n + 1, i => i == 0 || ((r.off i).bnd && decide ((r.off i).len ≤ i) && Run.reaches r n (i - (r.off i).len))

/-- A run after an emission: offset 0 starts no step, and a boundary whose chain does not pass it is kept no longer. Such a boundary lies before F
(R278), so no later step starts at it, and no record may hold it (R280). [DEDUCED, log 25] -/
def Run.rebase (r : Run) : Run :=
  let r0 := { r with offs := r.offs.modify 0 fun o => { o with bnd := true, len := 0, fb := false } }
  { r0 with offs := (List.range r0.offs.length).map fun i => if r0.reaches i i then r0.off i else Off.no }

/-- A valid character appended to the run (R277, R278). -/
def TkState.char (rd : ImgReader) (v : Vocab) (q : TkState) (ch : List Byte) : Img TkState := do
  let r : Run := ⟨q.run.bytes ++ ch, q.run.offs ++ List.replicate ch.length Off.no⟩
  let c ← (← r.settle rd v r.bytes.length).commit rd v
  return { q with run := c.2.rebase, out := q.out ++ c.1 }

/-- An invalid byte (R276): the run before it ends, and a new one starts after it. -/
def TkState.invalid (rd : ImgReader) (v : Vocab) (q : TkState) (x : Byte) : Img TkState := do
  let e ← q.run.emit rd v q.run.bytes.length
  return { q with run := Run.start, out := q.out ++ e.1 ++ [v.fbbase + x.toNat], bad := q.bad + 1 }

/-- Bytes of a sequence by its first byte; 0 where a byte cannot start one (R276). -/
def utf8Need (x : Byte) : Nat :=
  let n := x.toNat
  if n < 0x80 then 1 else if n < 0xC2 then 0 else if n < 0xE0 then 2 else if n < 0xF0 then 3 else if n < 0xF5 then 4 else 0

/-- A byte can continue the sequence in progress (R276). -/
def utf8Cont (seq : List Byte) (x : Byte) : Bool :=
  let n := x.toNat
  match seq with
  | [a] =>
    let lo := if a = 0xE0#8 then 0xA0 else if a = 0xF0#8 then 0x90 else 0x80
    let hi := if a = 0xED#8 then 0x9F else if a = 0xF4#8 then 0x8F else 0xBF
    decide (lo ≤ n) && decide (n ≤ hi)
  | _ => decide (0x80 ≤ n) && decide (n ≤ 0xBF)

/-- Invalid bytes in order. -/
def TkState.invalids (rd : ImgReader) (v : Vocab) : List Byte → TkState → Img TkState
  | [], q => pure q
  | x :: r, q => do TkState.invalids rd v r (← q.invalid rd v x)

/-- A byte at the start of a sequence. -/
def TkState.first (rd : ImgReader) (v : Vocab) (q : TkState) (x : Byte) : Img TkState :=
  match utf8Need x with
  | 0 => q.invalid rd v x
  | 1 => q.char rd v [x]
  | _ => pure { q with carry := [x] }

/-- One byte looked at (R276). -/
def TkState.byte (rd : ImgReader) (v : Vocab) (q : TkState) (x : Byte) : Img TkState :=
  match q.carry with
  | [] => q.first rd v x
  | a :: r =>
    if utf8Cont (a :: r) x then
      if r.length + 2 = utf8Need a then TkState.char rd v { q with carry := [] } (a :: r ++ [x])
      else pure { q with carry := a :: r ++ [x] }
    else do (← TkState.invalids rd v (a :: r) { q with carry := [] }).first rd v x

/-- Bytes looked at in order. -/
def TkState.feed (rd : ImgReader) (v : Vocab) : List Byte → TkState → Img TkState
  | [], q => pure q
  | x :: r, q => do TkState.feed rd v r (← q.byte rd v x)

/-- The input of a TKFEED: the carry bytes are looked at again before the new ones (R276, R279). -/
def TkState.input (rd : ImgReader) (v : Vocab) (q : TkState) (bs : List Byte) : Img TkState :=
  TkState.feed rd v (q.carry ++ bs) { q with carry := [], pos := q.pos + bs.length }

/-- The end of a stream (R281). -/
def TkState.drain (rd : ImgReader) (v : Vocab) (q : TkState) : Img TkState := do
  let e ← q.run.emit rd v q.run.bytes.length
  return { carry := [], run := Run.start, out := q.out ++ e.1 ++ q.carry.map (fun b => v.fbbase + b.toNat)
           bad := q.bad + q.carry.length, pos := 0 }

/-! ## State records (R280) -/

/-- Offset j of a state record: none where it breaks R280. -/
def recordOff (b : List Byte) (n j : Nat) : Option Off :=
  let best := leAt b (80 + 4 * j) 4
  let back := leAt b (340 + j) 1
  let bnd := decide (j = 0) || (decide (j ≤ n) && back / 64 % 2 == 1)
  let len := back % 32
  if back / 128 = 1 then none
  else if j = 0 then if back % 64 = 0 then some ⟨true, best, 0, false⟩ else none
  else if bnd then if len = 0 ∨ j < len then none else some ⟨true, best, len, back / 32 % 2 == 1⟩
  else if back = 0 ∧ best = 0 then some Off.no else none

/-- Every entry of a list, or none. -/
def allSome {α : Type} : List (Option α) → Option (List α)
  | [] => some []
  | none :: _ => none
  | some x :: r => (allSome r).map (x :: ·)

/-- The tokeniser of a state record, none where the record breaks R280. -/
def tkOfRecord (b : List Byte) : Option TkState :=
  let cn := leAt b 0 1
  let n := leAt b 4 1
  match allSome ((List.range 65).map (recordOff b n)) with
  | none => none
  | some offs =>
    let r : Run := ⟨(b.drop 16).take n, offs.take (n + 1)⟩
    if cn < 4 ∧ n ≤ 64 ∧ leAt b (1 + cn) (3 - cn) = 0 ∧ leAt b 5 3 = 0 ∧ leAt b (16 + n) (64 - n) = 0 ∧ leAt b 405 107 = 0
        ∧ (r.off n).bnd ∧ (List.range (n + 1)).all (fun j => !(r.off j).bnd || j == 0 || (r.off (j - (r.off j).len)).bnd) then
      some ⟨(b.drop 1).take cn, r, [], 0, leAt b 8 8⟩
    else none

/-- A list of bytes filled with zeros to n. -/
def padBytes (n : Nat) (bs : List Byte) : List Byte := bs ++ List.replicate (n - bs.length) 0

/-- BACK of offset j. -/
def Off.back (o : Off) (j : Nat) : Byte :=
  if j = 0 ∨ !o.bnd then 0 else BitVec.ofNat 8 (o.len + (if o.fb then 32 else 0) + 64)

/-- The 512 bytes of a state record. -/
def TkState.record (q : TkState) : List Byte :=
  [BitVec.ofNat 8 q.carry.length] ++ padBytes 3 q.carry ++ padBytes 4 [BitVec.ofNat 8 q.run.bytes.length]
    ++ leBytes 8 q.pos ++ padBytes 64 q.run.bytes ++ padBytes 260 (q.run.offs.flatMap fun o => leBytes 4 o.best)
    ++ padBytes 172 ((List.range q.run.offs.length).map fun j => (q.run.off j).back j)

/-! ## Performance -/

/-- What a command of the token engine comes to: its result record, and its scratchpad writes as ranges of bytes with their poison. -/
structure TokOut where
  res : List W32
  writes : List (Nat × List (Byte × Bool))

/-- Writes into the scratchpad in order; one that meets a frozen row is a fault (R243). -/
def tokWrites (s : State) (c : Cmd) : List (Nat × List (Byte × Bool)) → Member → UnitRes
  | [], mem => ⟨.ok, s, mem, c⟩
  | (a, bs) :: r, mem =>
    let u := spPiece s mem c a bs.length fun m => m.spPut a false bs
    match u.res with
    | .ok => tokWrites s c r u.mem
    | _ => u

/-- Words as bytes to be written. -/
def wordBytesOf (ws : List W32) (p : Bool) : List (Byte × Bool) := ws.flatMap fun w => (leBytes 4 w.toNat).map fun b => (b, p)

/-- What a piece of work comes to, with the member and the device after it; one that holds leaves the store as it was (R332). -/
def Img.at {α : Type} (o : Img α) (s : State) (mem : Member) : Except ImgErr α × Member × State :=
  match o.run.run (mem, s) with
  | (.error e, m, st) => (.error e, m, { st with store := s.store })
  | r => r

/-- A command of the token engine with its outcome (R273): NOIMAGE writes only the result record, a failed read holds it at mark 0. [DEDUCED, log 24] -/
def tokUnit (c : Cmd) (p : PrmRes) (o : Except ImgErr TokOut × Member × State) : UnitRes :=
  match o with
  | (.error (.held t), m, s) => ⟨.hold t, s, m, c⟩
  | (.error .noImage, m, s) => resultUnit s m c (16 * p.res.toNat) (result16 0x12 0 0)
  | (.ok r, m, s) =>
    let u := tokWrites s c r.writes m
    match u.res with
    | .ok => resultUnit u.st u.mem c (16 * p.res.toNat) r.res
    | _ => u

/-- The performance of a command of the token engine. -/
def tokPerform (p : PrmRes) (f : Task → Member → Cmd → Img TokOut) (s : State) : Res :=
  onMember s fun tk mem =>
    match mem.curCmd s with
    | some c =>
      match c.state with
      | .active _ =>
        let u := tokUnit c p ((f tk mem c).at s mem)
        afterPieces s 1 (u.whole c)
      | _ => .next s
    | none => .next s

/-- A 64-bit number of two parameter words. -/
def Cmd.w64 (c : Cmd) (i : Nat) : Nat := c.w i + c.w (i + 1) * 2 ^ 32

/-- The bytes of a range and whether one of its containers is poisoned; none where one is invalid. -/
def Member.rangeBytes (mem : Member) (a len : Nat) : Option (List Byte × Bool) :=
  let bs := (List.range len).map fun i => mem.spByte (a + i)
  if bs.all fun b => b.2.1 then some (bs.map fun b => b.1, bs.any fun b => b.2.2) else none

/-- The outcome of TKFEED and TKDRAIN (R279, R281, R282); a TKFEED of no bytes copies its state. -/
def tkOutcome (drain : Bool) (tk : Task) (mem : Member) (c : Cmd) : Img TokOut := do
  let rd := imgRead tk c.stream
  let v ← vocabAt rd (c.w64 0)
  let n := if drain then 0 else c.w 3
  let bad : TokOut := ⟨result16 10 0 0, []⟩
  match mem.rangeBytes (c.w 4) 512, mem.rangeBytes (c.w 2) n with
  | some (sb, sp), some (ib, ip) =>
    match tkOfRecord sb with
    | none => return bad
    | some q =>
      let q1 ← if drain then q.drain rd v else if n = 0 then pure q else q.input rd v ib
      let p := sp || ip
      let toks := q1.out.map (BitVec.ofNat 32)
      let rec' := if !drain && n = 0 then sb else q1.record
      return ⟨[statusWord (if q1.bad = 0 then 0 else 0x10) 0 0, BitVec.ofNat 32 toks.length, BitVec.ofNat 32 q1.bad,
          BitVec.ofNat 32 q1.run.bytes.length],
        [(c.w 6, wordBytesOf toks p), (c.w 5, rec'.map fun b => (b, p))]⟩
  | _, _ => return bad

/-- The form of TKFEED and TKDRAIN (R279, R281). -/
def tkForm (drain : Bool) : PrefixForm :=
  { prm := 8
    limits := fun _ w => decide ((wordAt w 0 + wordAt w 1 * 2 ^ 32) % 64 = 0) && decide (wordAt w 3 ≤ 65536)
      && decide (wordAt w 4 % 16 = 0) && decide (wordAt w 5 % 16 = 0) && decide (wordAt w 6 % 4 = 0) && w.getD 7 0 == 0
      && (!drain || (w.getD 2 0 == 0 && w.getD 3 0 == 0))
    others := fun _ _ w => [(wordAt w 5, 512), (wordAt w 6, if drain then 268 else 4 * (wordAt w 3 + 64))]
    bytes := fun _ _ w => if drain then 0 else wordAt w 3 }

/-- The issue of TKFEED and TKDRAIN: their input and state are in bounds too (R255). -/
def tkIssue (s : State) (i : Instr) (h : Hdr) (p : PrmRes) (drain : Bool) : Res :=
  issueCmd s i h (fun _ _ => !drain || h.so == 0#6)
    (fun tk mem =>
      let w := mem.words (16 * p.prm.toNat) 8
      let f := tkForm drain
      let inputs := (if drain then [] else [(wordAt w 2, wordAt w 3)]) ++ [(wordAt w 4, 512)]
      match prefixChecks s { f with others := fun _ _ _ => [] } p tk mem with
      | some t => if t.cause = cPoison ∨ t.cause = cSchedule then
          (match firstTrap ((inputs ++ f.others s tk w).map fun x => spadTrap tk x.1 x.2) with
            | some e => some e
            | none => some t)
        else some t
      | none => firstTrap ((inputs ++ f.others s tk w).map (fun x => spadTrap tk x.1 x.2)
          ++ (f.others s tk w).map fun x => frozenTrap mem x.1 x.2))
    fun tk mem c =>
      let w := mem.words (16 * p.prm.toNat) 8
      ⟨mem, { c with out := w, bytes := (tkForm drain).bytes s tk w }, .queued⟩

/-- TKFEED (R279). -/
def execTkfeed (h : Hdr) (p : PrmRes) (s : State) : Res :=
  match s.cur.phase with
  | .issue => tkIssue s (.tkfeed h p) h p false
  | .perform => tokPerform p (tkOutcome false) s

/-- TKDRAIN (R281). -/
def execTkdrain (h : Hdr) (p : PrmRes) (s : State) : Res :=
  match s.cur.phase with
  | .issue => tkIssue s (.tkdrain h p) h p true
  | .perform => tokPerform p (tkOutcome true) s

/-! ## Detokenisation (R283) -/

/-- The bytes of a token (R283); a LEN above 24 counts as 24. [DESIGN CHOICE, log 80] -/
def tokenPiece (rd : ImgReader) (v : Vocab) (t : Nat) : Img (List Byte) := do
  if v.fbbase ≤ t ∧ t ≤ v.fbbase + 255 then return [BitVec.ofNat 8 (t - v.fbbase)]
  else
    let b ← rd (v.base + v.doff + 32 * t) 32
    return (b.drop 1).take (min (leAt b 0 1) 24)

/-- The bytes of tokens in order. -/
def tokenPieces (rd : ImgReader) (v : Vocab) : List Nat → Img (List Byte)
  | [] => pure []
  | t :: r => do return (← tokenPiece rd v t) ++ (← tokenPieces rd v r)

/-- The outcome of TKDETOK (R283). -/
def detokOutcome (tk : Task) (mem : Member) (c : Cmd) : Img TokOut := do
  let rd := imgRead tk c.stream
  let v ← vocabAt rd (c.w64 0)
  let ids := (mem.words (c.w 2) (c.w 3)).map BitVec.toNat
  if !mem.allValid (c.w 2) (4 * c.w 3) || ids.any fun t => decide (v.ntok ≤ t) then return ⟨result16 10 0 0, []⟩
  else
    let bs ← tokenPieces rd v ids
    if c.w 5 < bs.length then return ⟨result16 5 0 0, []⟩
    else return ⟨result16 0 (BitVec.ofNat 32 bs.length) 0, [(c.w 4, bs.map fun b => (b, false))]⟩

/-- TKDETOK (R283). -/
def execTkdetok (h : Hdr) (p : PrmRes) (s : State) : Res :=
  match s.cur.phase with
  | .issue =>
    prefixIssue s (.tkdetok h p) h p
      { prm := 8
        limits := fun _ w => decide ((wordAt w 0 + wordAt w 1 * 2 ^ 32) % 64 = 0) && decide (wordAt w 2 % 4 = 0)
          && decide (wordAt w 3 ≤ 16384) && decide (wordAt w 5 ≤ 327680) && w.getD 6 0 == 0 && w.getD 7 0 == 0
        reads := fun _ _ w => [(wordAt w 2, 4 * wordAt w 3)]
        others := fun _ _ w => [(wordAt w 4, wordAt w 5)]
        bytes := fun _ _ w => wordAt w 5 }
  | .perform => tokPerform p detokOutcome s

/-! ## Grammar images (R284 to R288) -/

/-- The header of a grammar image. -/
structure Gram where
  base : Nat
  ntok : Nat
  nclass : Nat
  nsym : Nat
  nstate : Nat
  start : Nat
  cmoff : Nat
  rioff : Nat
  roff : Nat
  aoff : Nat
  rstride : Nat

/-- A grammar image's header read and checked (R284). -/
def gramAt (rd : ImgReader) (base : Nat) : Img Gram := do
  let b ← rd base 64
  let g : Gram := ⟨base, leAt b 0 4, leAt b 4 2, leAt b 6 2, leAt b 8 4, leAt b 12 2, leAt b 16 8, leAt b 24 8, leAt b 32 8,
    leAt b 40 8, leAt b 48 4⟩
  if 1 ≤ g.ntok ∧ g.ntok ≤ 262144 ∧ 1 ≤ g.nclass ∧ g.nclass ≤ 4096 ∧ 1 ≤ g.nsym ∧ g.nsym ≤ 256 ∧ 1 ≤ g.nstate
      ∧ g.nstate ≤ 65536 ∧ g.start < g.nstate ∧ leAt b 14 2 = 0 ∧ g.cmoff % 64 = 0 ∧ g.rioff % 64 = 0 ∧ g.roff % 64 = 0
      ∧ g.aoff % 64 = 0 ∧ g.rstride = (512 + 4 * g.nclass + 63) / 64 * 64 ∧ leAt b 52 12 = 0 then return g
  else throw .noImage

/-- The grammar bound to a number of a context (R286), by its image. -/
def State.gramOf (s : State) (ctx g : Nat) : Option Nat := s.store.gram.find (16 * ctx + g)

/-- Fields of GSTATE (R285). -/
def gState (x : W32) : Nat := (x.extractLsb' 0 16).toNat
def gOn (x : W32) : Bool := x.getLsbD 26
def gDead (x : W32) : Bool := x.getLsbD 27
def gNum (x : W32) : Nat := (x.extractLsb' 28 4).toNat

/-- GSTATE of its fields. -/
def gWord (state depth : Nat) (on dead : Bool) (g : Nat) : W32 :=
  BitVec.ofNat 32 (state % 2 ^ 16 + depth % 64 * 2 ^ 16 + (if on then 2 ^ 26 else 0) + (if dead then 2 ^ 27 else 0) + g % 16 * 2 ^ 28)

/-- The top of a slot's stack: symbol 0 when it is empty (R285). -/
def SeqSlot.top (x : SeqSlot) : Nat := x.stack.headD 0

/-- A bound image usable for a slot: its header; none where the slot counts as DEAD (R286). -/
def Gram.covers (g : Gram) (x : SeqSlot) : Bool := decide (gState x.gstate < g.nstate) && decide (x.top < g.nsym)

/-- The row of a slot: its number, none where no token is allowed (R284). -/
def gramRow (rd : ImgReader) (g : Gram) (x : SeqSlot) : Img (Option Nat) := do
  let b ← rd (g.base + g.rioff + 4 * (gState x.gstate * g.nsym + x.top)) 4
  return if leNat b = 2 ^ 32 - 1 then none else some (leNat b)

/-- The class of a token: none where it is never allowed. -/
def gramClass (rd : ImgReader) (g : Gram) (t : Nat) : Img (Option Nat) := do
  if g.ntok ≤ t then return none
  else
    let b ← rd (g.base + g.cmoff + 2 * t) 2
    return if leNat b < g.nclass then some (leNat b) else none

/-- Bit k of a row's class bitmap. -/
def gramBit (rd : ImgReader) (g : Gram) (row k : Nat) : Img Bool := do
  return leNat (← rd (g.base + g.roff + row * g.rstride + k / 8) 1) / 2 ^ (k % 8) % 2 == 1

/-- The mask bit of a token in a row (R287), with its class. -/
def gramAllows (rd : ImgReader) (g : Gram) (row t : Nat) : Img (Option Nat) := do
  match ← gramClass rd g t with
  | none => return none
  | some k => return if ← gramBit rd g row k then some k else none

/-- State s accepts (R284). -/
def gramAccepts (rd : ImgReader) (g : Gram) (st : Nat) : Img Bool := do
  if g.nstate ≤ st then return false else return leNat (← rd (g.base + g.aoff + st / 8) 1) / 2 ^ (st % 8) % 2 == 1

/-- The mask bits of n tokens from t on. -/
def gramMask (rd : ImgReader) (g : Gram) (row : Nat) : Nat → Nat → Img (List Bool)
  | 0, _ => pure []
  | n + 1, t => do return (← gramAllows rd g row t).isSome :: (← gramMask rd g row n (t + 1))

/-- Bits as bytes, bit t at t mod 8 of byte t div 8. -/
def bitBytes : Nat → List Bool → List Byte
  | 0, _ => []
  | n + 1, bs =>
    BitVec.ofNat 8 (((List.range 8).map fun i => if bs.getD i false then 2 ^ i else 0).sum) :: bitBytes n (bs.drop 8)

/-- The allowed-token bits of a constrained slot (R287). -/
def slotMask (rd : ImgReader) (g : Gram) (x : SeqSlot) (n : Nat) : Img (List Bool) := do
  if gDead x.gstate || !g.covers x then return List.replicate n false
  else match ← gramRow rd g x with
    | none => return List.replicate n false
    | some row => gramMask rd g row n 0

/-- The outcome of GMASK (R287). -/
def gmaskOutcome (tk : Task) (_mem : Member) (c : Cmd) : Img TokOut := do
  let s := (← get).2
  let rd := imgRead tk c.stream
  let n := c.w 2
  let out (st cnt acc : Nat) (bs : List Bool) : TokOut :=
    ⟨result16 st (BitVec.ofNat 32 cnt) (BitVec.ofNat 32 acc), [(c.w 1, (bitBytes (n / 8) bs).map fun b => (b, false))]⟩
  match s.slotOf tk.ctx (c.w 0) with
  | none => return ⟨result16 10 0 0, []⟩
  | some x =>
    if !gOn x.gstate then return out 0 n 0 (List.replicate n true)
    else match s.gramOf tk.ctx (gNum x.gstate) with
      | none => throw .noImage
      | some base =>
        let g ← gramAt rd base
        let bs ← slotMask rd g x n
        let a ← gramAccepts rd g (gState x.gstate)
        let cnt := (bs.filter id).length
        return out (if cnt = 0 then 0x11 else 0) cnt (if a then 1 else 0) bs

/-- GMASK (R287). -/
def execGmask (h : Hdr) (p : PrmRes) (s : State) : Res :=
  match s.cur.phase with
  | .issue =>
    prefixIssue s (.gmask h p) h p
      { limits := fun _ w => decide (wordAt w 1 % 512 = 0) && decide (wordAt w 2 % 4096 = 0) && decide (4096 ≤ wordAt w 2)
          && decide (wordAt w 2 ≤ 262144) && w.getD 3 0 == 0
        others := fun _ _ w => [(wordAt w 1, wordAt w 2 / 8)]
        bytes := fun _ _ w => wordAt w 2 / 8 }
  | .perform => tokPerform p gmaskOutcome s

/-- The store changed in a piece of work. -/
def Img.store (f : Store → Store) : Img Unit := modify fun a => (a.1, { a.2 with store := f a.2.store })

/-- The binding of a grammar number that GLOAD makes, or ends (R286). -/
def gloadBind (g : Nat) (tk : Task) (c : Cmd) (st : Store) : Store :=
  let key := 16 * tk.ctx + g
  { st with gram := if c.w64 0 = 0 then st.gram.del key else st.gram.put key (c.w64 0) }

/-- The check that GLOAD makes of its image, and its result record (R286). -/
def gloadCheck (tk : Task) (_mem : Member) (c : Cmd) : Img TokOut := do
  if c.w64 0 ≠ 0 then
    let _ ← gramAt (imgRead tk c.stream) (c.w64 0)
  return ⟨result16 0 0 0, []⟩

/-- What GLOAD comes to (R286). -/
def gloadOutcome (g : Nat) (tk : Task) (mem : Member) (c : Cmd) : Img TokOut := do
  let r ← gloadCheck tk mem c
  Img.store (gloadBind g tk c)
  return r

/-- GLOAD's form; an image lies at a multiple of 64 (R284). In a replicated task its binding alone is deferred and signed (R291). -/
def gloadForm : PrefixForm :=
  { limits := fun _ w => decide ((wordAt w 0 + wordAt w 1 * 2 ^ 32) % 64 = 0) && zeroFrom 2 w
    bytes := fun _ _ _ => 0, twice := true }

/-- A deferred write of a member taken back. -/
def Member.undefer (mem : Member) (seq : Nat) : Member :=
  { mem with dwq := mem.dwq.filter fun
      | .cmd d => d.seq != seq
      | .store .. => true }

/-- GLOAD as every replica performs it (R286, R291): the check and the result record; a binding refused is not made at the commit. -/
def gloadReplica (p : PrmRes) (s : State) : Res :=
  onMember s fun tk mem =>
    match mem.curCmd s with
    | some c =>
      match c.state with
      | .active _ =>
        let o := (gloadCheck tk mem c).at s mem
        let m := match o.1 with
          | .error .noImage => o.2.1.undefer c.seq
          | _ => o.2.1
        afterPieces s 1 ((tokUnit c p (o.1, m, o.2.2)).whole c)
      | _ => .next s
    | none => .next s

/-- A logged command of the token engine performed, or answered from the log (R291). -/
def tokLogged (p : PrmRes) (n : Nat) (f : Task → Member → Cmd → Img TokOut) (s : State) : Res :=
  onMember s fun tk mem =>
    match mem.curCmd s with
    | some c =>
      match c.state with
      | .active _ =>
        match mem.replayFor c n with
        | some out =>
          let u := resultUnit s (mem.replayNext c.stream) c (16 * p.res.toNat) out
          afterPieces s 1 (u.whole c)
        | none =>
          let o := (f tk mem c).at s mem
          let log := fun (res : List W32) => (o.2.1.replayPut c n res).replayNext c.stream
          let u := tokUnit c p (match o.1 with
            | .ok r => (o.1, log r.res, o.2.2)
            | .error .noImage => (o.1, log (result16 0x12 0 0), o.2.2)
            | .error (.held _) => o)
          afterPieces s 1 (u.whole c)
      | _ => .next s
    | none => .next s

/-- GLOAD (R286, R291). -/
def execGload (h : Hdr) (p : PrmRes) (g : BitVec 4) (s : State) : Res :=
  match s.cur.phase with
  | .issue => prefixIssue s (.gload h p g) h p gloadForm fun _ => h.so == 0#6
  | .perform => onMember s fun tk _ => if tk.replicated then gloadReplica p s else tokLogged p 4 (gloadOutcome g.toNat) s

/-- MODE of a GSTEP, with the grammar number of START. -/
inductive StepMode where
  | step
  | start (g : Nat)
  | off
  deriving DecidableEq, Repr

/-- A transition word applied to a slot: the slot after it, or none where the grammar dies (R284, R288). -/
def gramApply (g : Gram) (x : SeqSlot) (w : Nat) : Option SeqSlot :=
  let next := w % 2 ^ 16
  let sym := w / 2 ^ 16 % 256
  let act := w / 2 ^ 24 % 4
  if w / 2 ^ 26 ≠ 0 ∨ g.nstate ≤ next ∨ (g.nsym ≤ sym ∧ (act = 1 ∨ act = 3)) then none
  else if (2 ≤ act ∧ x.stack = []) ∨ (act = 1 ∧ x.stack.length = 63) then none
  else
    let st := match act with
      | 0 => x.stack
      | 1 => sym :: x.stack
      | 2 => x.stack.tail
      | _ => sym :: x.stack.tail
    some { x with stack := st, gstate := gWord next st.length true false (gNum x.gstate) }

/-- A slot whose grammar has died. -/
def SeqSlot.die (x : SeqSlot) : SeqSlot := { x with gstate := x.gstate ||| 0x08000000#32 }

/-- A STEP of a constrained live slot by a token (none: its container is invalid): the slot and its status (R288). -/
def gramStep (rd : ImgReader) (g : Gram) (x : SeqSlot) (tok : Option Nat) : Img (SeqSlot × Nat) := do
  if !g.covers x then return (x, 0x11)
  else match tok with
    | none => return (x.die, 0x11)
    | some t =>
      match ← gramRow rd g x with
      | none => return (x.die, 0x11)
      | some row =>
        match ← gramAllows rd g row t with
        | none => return (x.die, 0x11)
        | some k =>
          match gramApply g x (leNat (← rd (g.base + g.roff + row * g.rstride + 512 + 4 * k) 4)) with
          | some y => return (y, 0)
          | none => return (x.die, 0x11)

/-- The header of the image bound to a grammar number of a context, or NOIMAGE. -/
def boundGram (tk : Task) (rd : ImgReader) (g : Nat) : Img Gram := do
  match (← get).2.gramOf tk.ctx g with
  | none => throw .noImage
  | some base => gramAt rd base

/-- One pair of a GSTEP on its slot (R288). -/
def gramPair (tk : Task) (rd : ImgReader) (mode : StepMode) (x : SeqSlot) (tok : Option Nat) : Img (SeqSlot × Nat) := do
  match mode with
  | .off => return ({ x with gstate := 0, stack := [] }, 0)
  | .start g => return ({ x with gstate := gWord (← boundGram tk rd g).start 0 true false g, stack := [] }, 0)
  | .step =>
    if !gOn x.gstate then return (x, 0)
    else if gDead x.gstate then return (x, 0x11)
    else gramStep rd (← boundGram tk rd (gNum x.gstate)) x tok

/-- The status of one pair of a GSTEP, whose slot is changed (R288); NOIMAGE is the pair's alone. -/
def gramPairAt (tk : Task) (mem : Member) (c : Cmd) (mode : StepMode) (i : Nat) : Img W32 := do
  let a := mem.cont (c.w 0 / 4 + 2 * i)
  let b := mem.cont (c.w 0 / 4 + 2 * i + 1)
  let s := (← get).2
  match (if a.valid then s.slotOf tk.ctx a.data.toNat else none) with
  | none => return 10
  | some x =>
    let r ← tryCatch (gramPair tk (imgRead tk c.stream) mode x (if b.valid then some b.data.toNat else none)) fun e => match e with
      | .noImage => pure (x, 0x12)
      | .held t => throw (.held t)
    Img.store fun st => { st with slots := st.slots.put a.data.toNat r.1 }
    return BitVec.ofNat 32 r.2

/-- Pairs of a GSTEP from i on, n of them, in order. -/
def gramPairs (tk : Task) (mem : Member) (c : Cmd) (mode : StepMode) : Nat → Nat → Img (List W32)
  | 0, _ => pure []
  | n + 1, i => do return (← gramPairAt tk mem c mode i) :: (← gramPairs tk mem c mode n (i + 1))

/-- A GSTEP as one step on its slots (R288, R290): a read that holds it leaves them as they were, and the command is performed again in full
(R332). [DEDUCED, log 26] -/
def gstepOutcome (mode : StepMode) (tk : Task) (mem : Member) (c : Cmd) : Img TokOut := do
  return ⟨[0, 0, 0, 0] ++ (← gramPairs tk mem c mode (c.w 1) 0), []⟩

/-- GSTEP's form (R288). -/
def gstepForm : PrefixForm :=
  { res := fun w => 16 + 4 * wordAt w 1
    limits := fun _ w => decide (wordAt w 0 % 8 = 0) && decide (1 ≤ wordAt w 1) && decide (wordAt w 1 ≤ 64) && zeroFrom 2 w
    reads := fun _ _ w => [(wordAt w 0, 8 * wordAt w 1)]
    bytes := fun _ _ _ => 0, defers := true }

/-- The issue of a GSTEP: SO must be 0 (R273). -/
def gstepIssue (s : State) (i : Instr) (h : Hdr) (p : PrmRes) : Res := prefixIssue s i h p gstepForm fun _ => h.so == 0#6

/-- GSTEP with MODE STEP (R288). -/
def execGstepStep (h : Hdr) (p : PrmRes) (s : State) : Res :=
  match s.cur.phase with
  | .issue => gstepIssue s (.gstepStep h p) h p
  | .perform => tokLogged p 4 (gstepOutcome .step) s

/-- GSTEP with MODE START (R288). -/
def execGstepStart (h : Hdr) (p : PrmRes) (g : BitVec 4) (s : State) : Res :=
  match s.cur.phase with
  | .issue => gstepIssue s (.gstepStart h p g) h p
  | .perform => tokLogged p 4 (gstepOutcome (.start g.toNat)) s

/-- GSTEP with MODE OFF (R288). -/
def execGstepOff (h : Hdr) (p : PrmRes) (s : State) : Res :=
  match s.cur.phase with
  | .issue => gstepIssue s (.gstepOff h p) h p
  | .perform => tokLogged p 4 (gstepOutcome .off) s

/-! ## Performance at a commit (R260, R291, R321) -/

/-- What a deferred command of rows 0x2_ to 0x4_ comes to at a commit: done with its result record's address and words, or a read
that holds it. -/
inductive CommitOut where
  | done (s : State) (mem : Member) (addr : Nat) (out : List W32)
  | wait (s : State) (mem : Member) (c : Cmd) (t : Trap)

/-- CPACT at a commit. -/
def cpactCommit (s : State) (tk : Task) (mem : Member) (c0 : Cmd) (a : Nat) : CommitOut :=
  let c := s.cpactStart tk mem c0
  match cpactReading s tk mem c with
  | (.check i t, m1, s1) | (.memory i t, m1, s1) => .wait s1 m1 { c with mark := i } t
  | (.ok, m1, s1) =>
    let r := cpactOp s1 tk m1 c
    .done (r.1.dropReaders s.cur.task s.cur.member c.seq) m1 a r.2

/-- A token-engine command at a commit. -/
def tokCommit (s : State) (tk : Task) (mem : Member) (c : Cmd) (a : Nat) (f : Task → Member → Cmd → Img TokOut) : CommitOut :=
  match (f tk mem c).at s mem with
  | (.error (.held t), m, st) => .wait st m c t
  | (.error .noImage, m, st) => .done st m a (result16 0x12 0 0)
  | (.ok r, m, st) => .done st m a r.res

/-- A deferred command of rows 0x2_ to 0x4_ performed at a commit, none for any other command. -/
def prefixCommit (s : State) (tk : Task) (mem : Member) (c : Cmd) : Option CommitOut :=
  let op (p : PrmRes) (f : StoreOp) (lines : State → Task → Cmd → List ShelfLine := fun _ _ _ => []) : Option CommitOut :=
    match s.readLines 1 false (lines s tk c) with
    | (some e, s1) => some (.wait s1 mem c (memTrap e))
    | (none, s1) =>
      let r := f s1 tk mem c
      some (.done r.1 (s1.linesLeft r.1 mem) (16 * p.res.toNat) r.2)
  match c.instr with
  | .slopen _ p => op p slopenOp
  | .slfork _ p => op p slforkOp State.wholeTail
  | .slmove _ p => op p slmoveOp
  | .slmoveSwap _ p => op p slmoveSwapOp
  | .slclose _ p => op p slcloseOp
  | .seal _ p evc => op p (sealOp evc) State.wholeTail
  | .kapp _ p => op p kappOp State.grainBegun
  | .cpact _ p => some (cpactCommit s tk mem c (16 * p.res.toNat))
  | .lease _ p => op p leaseOp
  | .renew _ p => op p renewOp
  | .free _ p => op p freeOp
  | .evclass _ p => op p evclassOp
  | .promo _ p => op p promoOp
  | .gload _ _ g => some (.done { s with store := gloadBind g.toNat tk c s.store } mem 0 [])
  | .gstepStep _ p => some (tokCommit s tk mem c (16 * p.res.toNat) (gstepOutcome .step))
  | .gstepStart _ p g => some (tokCommit s tk mem c (16 * p.res.toNat) (gstepOutcome (.start g.toNat)))
  | .gstepOff _ p => some (tokCommit s tk mem c (16 * p.res.toNat) (gstepOutcome .off))
  | _ => none

end Sys2Proof.Machine
end

