-- ==== Sys2Proof/Machine/Commands.lean ====
section
/-! DEFINITION. The start and the completion of engine commands (R219, R220, R223, R234, R236, R257, R258). -/

namespace Sys2Proof.Machine

/-- The channels of a stream (R219). -/
def channelsOf : Stream → List Nat
  | .l => [0, 1]
  | _ => [2, 3]

/-- A command has started and not completed. -/
def Cmd.running (c : Cmd) : Bool := c.state != CmdState.queued && c.state != CmdState.deferred

/-- Channels that are not free: those of commands at work and those kept over a discard (R219, R236). -/
def Member.busyChannels (mem : Member) : List Nat :=
  (mem.cmds.filterMap fun c => if c.running then c.chan else none) ++ mem.held.filterMap fun h => h.cmd.chan

/-- The hold kept over a discard that a queued command resumes (R236). -/
def Member.resumes (mem : Member) (c : Cmd) : Option HeldCmd :=
  mem.held.find? fun h => h.cmd.stream == c.stream && h.cmd.key == c.key && h.cmd.u0 == c.u0 && h.cmd.u1 == c.u1

/-- A command waits for earlier work besides start order: a WSET for the fills of its window, a command of rows 0x2_ to 0x4_ for
the one before it in its stream (R222, R227, R258, R272). A command of rows 0x2_ and 0x3_ that holds its channel lets the next one start (R459,
R461), but for two that join the replay log, which keeps them in issue order (R259, R291). [DEDUCED, log 20] -/
def Member.behind (mem : Member) (c : Cmd) : Bool :=
  mem.cmds.any fun k =>
    k.running && k.stream == c.stream &&
      ((match c.instr with
        | .wset .. => k.fills.isSome && k.fills == c.fills
        | _ => false) ||
       (prefixRow c.instr && prefixRow k.instr && !k.isHeld) || (joinsLog c.instr && joinsLog k.instr) ||
         (tokenRow c.instr && tokenRow k.instr))

/-- The channel a command starts on: some none for a command that uses none, none where it cannot start (R219, R236). -/
def Member.channelFor (mem : Member) (c : Cmd) : Option (Option Nat) :=
  match mem.resumes c with
  | some h => if h.released then some h.cmd.chan else none
  | none =>
    if usesChannel c.instr then
      ((channelsOf c.stream).find? fun k => !(mem.busyChannels.contains k)).map some
    else some none

/-- The command of a stream that starts in a cycle, with its channel: the first one queued, unless it is a WAITB (R219, R223). -/
def Member.startable (mem : Member) (x : Stream) (cycle : Nat) : Option (Cmd × Option Nat) :=
  match mem.cmds.find? fun c => c.stream == x && c.state == CmdState.queued with
  | none => none
  | some c =>
    match c.instr with
    | .waitb .. => none
    | _ =>
      if decide (cycle ≤ c.issued) || mem.behind c then none else (mem.channelFor c).map fun k => (c, k)

/-- COMMAND_START (R219, R236): a command at the head of its stream's queue starts; one that resumes a hold takes the hold's
registered reads and side-log entries with it. -/
def execCommandStart (s : State) : Res :=
  onMember s fun _ mem =>
    match mem.startable s.cur.stream s.cycle with
    | none => .next s
    | some (c, k) =>
      let due := s.cycle + Config.engineCycles (c.timeKey s)
      let m1 := mem.putCmd { c with chan := k, state := .active due }
      match mem.resumes c with
      | none => .next (s.put m1)
      | some h =>
        let mine := fun (r : Reader) => r.task == s.cur.task && r.member == s.cur.member && r.cmd == h.cmd.seq
        let entry := fun (e : LogEntry) => e.task == s.cur.task && e.member == s.cur.member && e.cmd == some h.cmd.seq
        let s1 := { s with
          slog := s.slog.map fun e => if entry e then { e with cmd := some c.seq } else e
          store := { s.store with readers := s.store.readers.map fun r => if mine r then { r with cmd := c.seq } else r } }
        .next (s1.put { m1 with held := mem.held.erase h })

/-- A command is complete in a cycle: its last byte written, its window rows present and its follow-on step ended (R215, R220, R225, R226), or
a WAITB with few enough batches outstanding (R223). -/
def Member.complete (mem : Member) (c : Cmd) (cycle : Nat) : Bool :=
  match c.state with
  | .moved d => decide (d ≠ 0) && decide (d ≤ cycle) && mem.fillPresent c
  | .queued =>
    match c.instr with
    | .waitb _ n => decide (c.issued < cycle) && decide (outstandingBatches mem c ≤ n.toNat)
    | _ => false
  | _ => false

/-- COMMAND_COMPLETION (R220, R257, R375): the queue entry is freed, the semaphore signalled, the byte count added, and the reads
of its nodes deregistered. -/
def execCommandCompletion (s : State) : Res :=
  onMember s fun tk mem =>
    match mem.curCmd s with
    | none => .next s
    | some c =>
      if mem.complete c s.cycle then
        let m1 := { mem with cmds := mem.cmds.filter fun k => k.seq != c.seq }.signal c
        let r := (s.dropReaders s.cur.task s.cur.member c.seq).addBytes s.cur.task s.cur.member tk m1 c c.bytes
        .next (r.2.put r.1)
      else .next s

end Sys2Proof.Machine
end

