-- ==== Sys2Proof/Machine/VecFloat.lean ====
section
/-! DEFINITION. Floating-point operations of st2 and st3 (R168 to R173). -/

namespace Sys2Proof.Machine

/-- A rounding operation of A and T. -/
def fltBin (o : VArgs) (tk : Task) (mem : Member) (key : RngKey) (l : Latches)
    (f : FVal → FVal → Fmt → Nat → Nat → Nat × KFlags) : OpOut :=
  let fm := fltFmt o.ty
  let bits := opBits tk mem key
  mapRow fm.w [l.a, l.t] fun i =>
    f (fm.decode (elemOf fm.w l.a i)) (fm.decode (elemOf fm.w l.t i)) fm (rmOf o) (bits i)

/-- A fused operation of A, T and B. -/
def fltTern (o : VArgs) (tk : Task) (mem : Member) (key : RngKey) (l : Latches)
    (f : FVal → FVal → FVal → Fmt → Nat → Nat → Nat × KFlags) : OpOut :=
  let fm := fltFmt o.ty
  let bits := opBits tk mem key
  mapRow fm.w [l.a, l.b, l.t] fun i =>
    f (fm.decode (elemOf fm.w l.a i)) (fm.decode (elemOf fm.w l.t i)) (fm.decode (elemOf fm.w l.b i)) fm (rmOf o) (bits i)

/-- VFADD (R168). -/
def execVfadd (o : VArgs) (s : State) : Res :=
  opStart o 0x0#4 (fun tk mem key l => fltBin o tk mem key l farithAdd) s

/-- VFSUB (R168). -/
def execVfsub (o : VArgs) (s : State) : Res :=
  opStart o 0x1#4 (fun tk mem key l => fltBin o tk mem key l fun a t => farithAdd a t.negate) s

/-- VFMUL (R168). -/
def execVfmul (o : VArgs) (s : State) : Res :=
  opStart o 0x2#4 (fun tk mem key l => fltBin o tk mem key l farithMul) s

/-- VFMA (R168). -/
def execVfma (o : VArgs) (s : State) : Res :=
  opStart o 0x3#4 (fun tk mem key l => fltTern o tk mem key l farithFma) s

/-- VFMS (R168). -/
def execVfms (o : VArgs) (s : State) : Res :=
  opStart o 0x4#4 (fun tk mem key l => fltTern o tk mem key l fun a t b => farithFma a t b.negate) s

/-- VFNMA (R168). -/
def execVfnma (o : VArgs) (s : State) : Res :=
  opStart o 0x5#4 (fun tk mem key l => fltTern o tk mem key l fun a t b => farithFma a.negate t b) s

/-- The numeric order of two values neither of which is NaN: a at most b. -/
def FVal.le (a b : FVal) : Bool :=
  match a, b with
  | .inf n, .inf k => n || !k
  | .inf n, _ => n
  | _, .inf k => !k
  | .fin n1 m1 e1, .fin n2 m2 e2 => decide ((addFin n1 m1 e1 (!n2) m2 e2).1 ≤ 0)
  | _, _ => false

/-- a is no later than b in f_order (R169). -/
def fOrderLe (a b : FVal) : Bool :=
  if a.isNan then true
  else if b.isNan then false
  else if a.isZero && b.isZero then a.neg || !b.neg
  else a.le b

/-- A code with a NaN made canonical (R70). -/
def Fmt.canon (f : Fmt) (code : Nat) : Nat := if (f.decode code).isNan then f.nanCode else code

/-- An exact choice or change of codes of A and T. -/
def fltExact (o : VArgs) (l : Latches) (f : Fmt → Nat → Nat → Nat) : OpOut :=
  let fm := fltFmt o.ty
  mapRow fm.w [l.a, l.t] fun i => (f fm (elemOf fm.w l.a i) (elemOf fm.w l.t i), 0)

/-- VFMIN (R169). -/
def execVfmin (o : VArgs) (s : State) : Res :=
  opStart o 0x6#4 (fun _ _ _ l => fltExact o l fun f a t => f.canon (if fOrderLe (f.decode a) (f.decode t) then a else t)) s

/-- VFMAX (R169). -/
def execVfmax (o : VArgs) (s : State) : Res :=
  opStart o 0x7#4 (fun _ _ _ l => fltExact o l fun f a t => f.canon (if fOrderLe (f.decode a) (f.decode t) then t else a)) s

/-- An operation of T alone. -/
def fltUn (o : VArgs) (l : Latches) (f : Fmt → Nat → Nat × KFlags) : OpOut :=
  let fm := fltFmt o.ty
  mapRow fm.w [l.t] fun i => f fm (elemOf fm.w l.t i)

/-- VFABS (R170). -/
def execVfabs (o : VArgs) (s : State) : Res :=
  opStart o 0x8#4 (fun _ _ _ l => fltUn o l fun f t => (f.canon (t % 2 ^ (f.w - 1)), 0)) s

/-- VFNEG (R170). -/
def execVfneg (o : VArgs) (s : State) : Res :=
  opStart o 0x9#4 (fun _ _ _ l => fltUn o l fun f t => (f.canon ((t + 2 ^ (f.w - 1)) % 2 ^ f.w), 0)) s

/-- The predicates of VFCMP (R173). -/
def fcmp (p : Nat) (a t : FVal) : Bool :=
  let ord := !a.isNan && !t.isNan
  match p with
  | 0 => ord && a.le t && t.le a
  | 1 => !(ord && a.le t && t.le a)
  | 2 => ord && !(t.le a)
  | 3 => ord && a.le t
  | 4 => ord && !(a.le t)
  | 5 => ord && t.le a
  | 6 => !ord
  | _ => ord

/-- VFCMP (R173). -/
def execVfcmp (o : VArgs) (s : State) : Res :=
  opStart o 0xA#4 (fun _ _ _ l => fltExact o l fun f a t =>
    if fcmp (rmOf o) (f.decode a) (f.decode t) then 2 ^ f.w - 1 else 0) s

/-- VFSCALE (R171). -/
def execVfscale (o : VArgs) (s : State) : Res :=
  opStart o 0xB#4 (fun tk mem key l =>
    let fm := fltFmt o.ty
    let bits := opBits tk mem key
    mapRow fm.w [l.a, l.t] fun i =>
      scale2 (fm.decode (elemOf fm.w l.a i)) (toS fm.w (elemOf fm.w l.t i)) fm (rmOf o) (bits i)) s

/-- VFEXPO (R172): the exponent clamped to the integer of the type's width, which only zeros, infinities and NaNs reach. -/
def execVfexpo (o : VArgs) (s : State) : Res :=
  opStart o 0xC#4 (fun _ _ _ l => fltUn o l fun f t =>
    let e := expo (f.decode t)
    (wrapTo f.w (satInt e.1 f.w true), e.2)) s

/-- VFMANT (R172). -/
def execVfmant (o : VArgs) (s : State) : Res :=
  opStart o 0xD#4 (fun _ _ _ l => fltUn o l fun f t =>
    match f.decode t with
    | .fin neg m e => if m = 0 then (t, 0) else ((roundFmt (.fin neg m (e - lg m e)) f 0 false 0).1, 0)
    | _ => (f.canon t, 0)) s

end Sys2Proof.Machine
end

