-- ==== Sys2Proof/Machine/Convert.lean ====
section
/-! DEFINITION. Conversions, packing, MX blocking and random numbers of st6 (R176, R187 to R191). -/

namespace Sys2Proof.Machine

/-- The part selector's part number and scale mode (R176). -/
def partOf (l : Latches) : Nat := scal l.b % 8
def scaleMode (l : Latches) : Bool := scal l.b / 8 % 2 == 1

/-- cv (R187) of a value into a type, for result element i: the code and the flags. [DEDUCED, log 7] -/
def convVal (ty : ElTy) (rm : Nat) (sat : Bool) (bits : Nat → Nat) (x : FVal) (i : Nat) : Nat × KFlags :=
  match ty with
  | .flt f => roundFmt x f rm sat (bits i)
  | .int w sg =>
    let r := roundInt x w sg rm (bits i)
    (wrapTo w r.1, r.2)

/-- VCVT into a target type (R187): a conversion of one width, a widening part, or a narrowing into A. [DEDUCED, log 7] -/
def vcvt (target : ElTy) (o : VArgs) (tk : Task) (mem : Member) (key : RngKey) (l : Latches) : OpOut :=
  let src := convTy o.ty
  let ws := src.w
  let wr := target.w
  let bits := opBits tk mem key
  let cv := fun code i => convVal target (rmOf o) (satOf o) bits (src.value code) i
  let p := partOf l
  if ws = wr then
    mapRow wr [l.t] fun j =>
      let code := elemOf ws l.t j
      if src = target then (match src with
        | .flt f => f.canon code
        | .int _ _ => code, 0)
      else cv code j
  else if ws < wr then
    let n := wr / ws
    if n ≤ p then invalidOut
    else
      { buildRow wr (fun c => joinTags [rowC l.t c, rowC l.b 0]) (fun j => cv (elemOf ws l.t (n * j + p)) j) with
        mark := some (p, n) }
  else
    let n := ws / wr
    if n ≤ p then invalidOut
    else buildRow wr (fun c => joinTags [rowC l.t c, rowC l.a c, rowC l.b 0]) fun i =>
      if i % n = p then cv (elemOf ws l.t (i / n)) i else (elemOf wr l.a i, 0)

/-- VCVT to .F32 (R187). -/
def execVcvtF32 (o : VArgs) (s : State) : Res := opStart o 0x0#4 (vcvt (convTy 0#3) o) s
/-- VCVT to .F16 (R187). -/
def execVcvtF16 (o : VArgs) (s : State) : Res := opStart o 0x1#4 (vcvt (convTy 1#3) o) s
/-- VCVT to .BF16 (R187). -/
def execVcvtBf16 (o : VArgs) (s : State) : Res := opStart o 0x2#4 (vcvt (convTy 2#3) o) s
/-- VCVT to .E4M3 (R187). -/
def execVcvtE4m3 (o : VArgs) (s : State) : Res := opStart o 0x3#4 (vcvt (convTy 3#3) o) s
/-- VCVT to .E5M2 (R187). -/
def execVcvtE5m2 (o : VArgs) (s : State) : Res := opStart o 0x4#4 (vcvt (convTy 4#3) o) s
/-- VCVT to .S32 (R187). -/
def execVcvtS32 (o : VArgs) (s : State) : Res := opStart o 0x5#4 (vcvt (convTy 5#3) o) s
/-- VCVT to .S16 (R187). -/
def execVcvtS16 (o : VArgs) (s : State) : Res := opStart o 0x6#4 (vcvt (convTy 6#3) o) s
/-- VCVT to .S8 (R187). -/
def execVcvtS8 (o : VArgs) (s : State) : Res := opStart o 0x7#4 (vcvt (convTy 7#3) o) s

/-- nar (R188). -/
def narrowVal (wr : Nat) (sg wrap : Bool) (v : Int) : Nat := wrapTo wr (if wrap then v else satInt v wr sg)

/-- VWIDEN (R188). -/
def execVwiden (o : VArgs) (s : State) : Res :=
  opStart o 0xB#4 (fun _ _ _ l =>
    let w := intW o.ty
    let n := if xBit o 0 then 4 else 2
    let p := partOf l
    if n ≤ p then invalidOut
    else
      { buildRow (n * w) (fun c => joinTags [rowC l.t c, rowC l.b 0]) (fun j =>
          (wrapTo (n * w) (toI w (intSg o.ty) (elemOf w l.t (n * j + p))), 0)) with
        mark := some (p, n) }) s

/-- VNARROW (R188). -/
def execVnarrow (o : VArgs) (s : State) : Res :=
  opStart o 0xC#4 (fun _ _ _ l =>
    let w := intW o.ty
    let n := if xBit o 0 then 4 else 2
    let wr := w / n
    let p := partOf l
    if n ≤ p then invalidOut
    else buildRow wr (fun c => joinTags [rowC l.t c, rowC l.a c, rowC l.b 0]) fun i =>
      (if i % n = p then narrowVal wr (intSg o.ty) (xBit o 1) (toI w (intSg o.ty) (elemOf w l.t (i / n)))
       else elemOf wr l.a i, 0)) s

/-- VPACK (R188). -/
def execVpack (o : VArgs) (s : State) : Res :=
  opStart o 0xA#4 (fun _ _ _ l =>
    let w := intW o.ty
    let wr := w / 2
    let half := 4096 / w
    buildRow wr (fun c => if c < 64 then joinTags [rowC l.a (2 * c), rowC l.a (2 * c + 1)]
        else joinTags [rowC l.t (2 * (c - 64)), rowC l.t (2 * (c - 64) + 1)]) fun i =>
      (narrowVal wr (intSg o.ty) (xBit o 1)
        (toI w (intSg o.ty) (if i < half then elemOf w l.a i else elemOf w l.t (i - half))), 0)) s

/-- The quantised block b of T (R189). -/
def mxBlock (o : VArgs) (bits : Nat → Nat) (l : Latches) (p b : Nat) : Nat × List Nat × KFlags :=
  mxQuant ((List.range 32).map fun k => fp32.decode (elemOf 32 l.t (32 * b + k))) (mxFmt o.ty) (rmOf o) (satOf o)
    fun k => bits (128 * p + 32 * b + k)

/-- The containers of T that form block b. -/
def blockConts (l : Latches) (b : Nat) : List Container := (List.range 32).map fun k => rowC l.t (32 * b + k)

/-- VMXQ (R189). -/
def execVmxq (o : VArgs) (s : State) : Res :=
  opStart o 0x8#4 (fun tk mem key l =>
    let w := mxW o.ty
    let p := partOf l
    let blocks := (List.range 4).map (mxBlock o (opBits tk mem key) l p)
    let n := if scaleMode l || w == 4 then 8 else 4
    if n ≤ p then invalidOut
    else if scaleMode l then
      let tag := joinTags (rowC l.b 0 :: l.t)
      buildRow 8 (fun c => if c = p then tag else joinTags [rowC l.a c, rowC l.b 0]) fun i =>
        (if i / 4 = p then (blocks.getD (i % 4) (0, [], 0)).1 else elemOf 8 l.a i, 0)
    else
      let per := 32 / w
      buildRow w (fun c =>
          let e := c * per
          if 128 * p ≤ e ∧ e < 128 * p + 128 then joinTags (rowC l.b 0 :: blockConts l ((e - 128 * p) / 32))
          else joinTags [rowC l.a c, rowC l.b 0]) fun i =>
        if 128 * p ≤ i ∧ i < 128 * p + 128 then
          let k := i - 128 * p
          let bl := blocks.getD (k / 32) (0, [], 0)
          (bl.2.1.getD (k % 32) 0, bl.2.2)
        else (elemOf w l.a i, 0)) s

/-- VMXDQ (R190). -/
def execVmxdq (o : VArgs) (s : State) : Res :=
  opStart o 0x9#4 (fun tk mem key l =>
    let w := mxW o.ty
    let f := mxFmt o.ty
    let p := partOf l
    let bits := opBits tk mem key
    if (if w = 4 then 8 else 4) ≤ p then invalidOut
    else buildRow 32
      (fun j => joinTags [rowC l.t (contOf w (128 * p + j)), rowC l.a ((128 * p + j) / 128), rowC l.b 0]) fun j =>
        let sc := elemOf 8 l.a ((128 * p + j) / 32)
        match decodeE8M0 sc, f.decode (elemOf w l.t (128 * p + j)) with
        | .fin _ _ e, .fin n m k => roundFmt (.fin n m (k + e)) fp32 (rmOf o) false (bits j)
        | .fin _ _ _, x => roundFmt x fp32 (rmOf o) false (bits j)
        | _, _ => (fp32.nanCode, 0)) s

/-- VRNG (R191). -/
def execVrng (o : VArgs) (s : State) : Res :=
  opStart o 0xD#4 (fun tk _ _ l =>
    mapRow 32 [l.a, l.t] fun i =>
      let x := (rng64 tk.seed (BitVec.ofNat 64 (elemOf 32 l.a i * 2 ^ 32 + elemOf 32 l.t i))).toNat
      if o.ty = 0#3 then (x / 2 ^ 32, 0) else (roundFmt (.fin false (2 * (x / 2 ^ 41) + 1) (-24)) fp32 0 false 0)) s

end Sys2Proof.Machine
end

