-- ==== Sys2Proof/Machine/Sync.lean ====
section
/-! DEFINITION. Sync objects (R139 to R146), fences and region ends (R147, R148, R150), TSPAWN (R149), state registers, clocks,
traps and fault injection (R151 to R154), and the resumption of stalled C words (R137, R143, R146). -/

namespace Sys2Proof.Machine

/-! ## Locks (R143, R144) -/

/-- OWNER of the lock object at a physical address. -/
def State.lockOwner (s : State) (pa : Nat) : Nat := s.loadNat (pa + 8) 8

/-- The holder identifier of a task (R139). -/
def Task.holderId (tk : Task) : Nat := tk.seq % 2 ^ 63 + 2 ^ 63

/-- The tasks that wait for an object, in order of arrival. -/
def State.lockWaiters (s : State) (pa : Nat) : List Nat := (s.lockq.filter fun r => r.obj == pa).map (·.task)

/-- A task after an acquire, which is its whole crew's (R302). -/
def Task.acquire (tk : Task) (s : State) : Task := { tk with members := tk.members.map fun m => m.acquire s }

/-- The lock of a handle granted to the current task: OWNER, HELD, and the invalidation of R143; the lead's grant is echoed. The
word then completes. -/
def grantLock (s : State) (so : BitVec 6) (pa : Nat) (tk : Task) (mem : Member) : Res :=
  let h := tk.handle so
  if tk.replicated && !tk.echoRoom mem.rank then cStall s mem (.acq so)
  else
    let tk1 := (tk.setHandle so { h with held := true }).invalidate h.ids
    let tk2 := if tk.replicated then tk1.echo mem.rank ⟨.c, s.cur.pc, 1, []⟩ else tk1
    let s1 := s.wrDev (pa + 8) (leBytes 8 tk.holderId)
    let s2 := { s1 with lockq := s1.lockq.filter fun r => !(r.obj == pa && r.task == s.cur.task) }
    let mem1 := { mem with l1 := mem.l1.filter (fun l => !h.ids.contains l.leaf.bind), stall := none }
    .next (s2.putBoth (tk2.acquire s2) ((mem1.acquire s2).cNext s.cycle))

/-- An ACQ tried: complete where the lock is held, grant where it is free and no earlier request waits, else wait. -/
def tryAcquire (s : State) (so : BitVec 6) (tk : Task) (mem : Member) : Res :=
  let h := tk.handle so
  if h.kind ≠ SoKind.lock then raiseIllegal s mem
  else
    match mem.takeEcho .c with
    | some (e, m1) =>
      if h.held && e.addr == s.cur.pc && !mem.lead then cDone s { m1 with stall := none }
      else if h.held then cDone s { mem with stall := none }
      else cStall s mem (.acq so)
    | none =>
      if h.held then cDone s { mem with stall := none }
      else if tk.replicated && !mem.lead then cStall s mem (.acq so)
      else
        let r := objectPa s tk mem (BitVec.ofNat 64 h.addr)
        match r.res with
        | .error t => raiseTrap r.st r.mem t
        | .ok pa =>
          let first := match r.st.lockWaiters pa with
            | [] => true
            | t :: _ => t == s.cur.task
          let passed := r.st.lockq.any fun q => q.obj == pa && q.task == s.cur.task && q.granted
          if passed || (first && r.st.lockOwner pa == 0) then grantLock r.st so pa tk r.mem
          else
            let s1 := if (r.st.lockWaiters pa).contains s.cur.task then r.st
              else { r.st with lockq := r.st.lockq ++ [⟨pa, s.cur.task, false⟩] }
            cStall s1 r.mem (.acq so)

/-- ACQ (R143). [DEDUCED, log 52] -/
def execAcq (so : BitVec 6) (s : State) : Res := onMember s fun tk mem => tryAcquire s so tk mem

/-- LOCK_GRANT (R143): a waiting ACQ is tried at the home slice; anything else it leaves alone. [DESIGN CHOICE, log 49] -/
def execLockGrant (s : State) : Res :=
  onMember s fun tk mem =>
    match mem.stall with
    | some (.acq so) => tryAcquire s so tk mem
    | _ => .next s

/-- The release record of a handle (R319). -/
def soRecord (so : BitVec 6) (h : Handle) : List Byte := leBytes 1 so.toNat ++ leBytes 8 h.addr

/-- REL (R144): marks the release; it is performed in step 2 of the commit. -/
def execRel (so : BitVec 6) (s : State) : Res :=
  onMember s fun tk mem =>
    let h := tk.handle so
    if h.kind ≠ SoKind.lock || !h.held || mem.rels.contains so.toNat then raiseIllegal s mem
    else cDone s (tk.sign { mem with rels := mem.rels ++ [so.toNat] } .c 6 (soRecord so h))

/-- The kind that a SOBIND names, none where the field is not allowed (R90). -/
def bindKind (kind : BitVec 2) : Option SoKind :=
  if kind = 1#2 then some .lock else if kind = 2#2 then some .barrier else none

/-- SOBIND (R142, R298, R354): the object is read as a C load of its 64 bytes (R478). -/
def execSobind (so : BitVec 6) (kind : BitVec 2) (rs : BitVec 5) (s : State) : Res :=
  onMember s fun tk mem =>
    let g := mem.rd rs
    let h := tk.handle so
    match bindKind kind with
    | none => raiseIllegal s mem
    | some k =>
      if g.poison then raise s mem cPoison 0 0
      else if g.val.toNat % 64 ≠ 0 then raise s mem cAlignment g.val 0
      else if h.kind = k ∧ h.addr = g.val.toNat then cDone s mem
      else if h.held || h.arm then raiseIllegal s mem
      else
        let r := readC s tk mem g.val 64
        match r.res with
        | .error t => raiseTrap r.st r.mem t
        | .ok (b, _) =>
          if leNat (b.take 1) ≠ kind.toNat then raiseIllegal r.st r.mem
          else
            let barrier := k == SoKind.barrier
            let phase : BitVec 32 := if barrier then BitVec.ofNat 32 (leNat ((b.drop 24).take 4)) else 0
            let h1 : Handle := ⟨k, g.val.toNat, false, phase, false, r.st.bindIds tk.btab g.val.toNat, barrier⟩
            .next (r.st.putBoth (tk.setHandle so h1) (r.mem.cNext s.cycle))

/-- BOARM (R145). -/
def execBoarm (so : BitVec 6) (rs : BitVec 5) (s : State) : Res :=
  onMember s fun tk mem =>
    let g := mem.rd rs
    let h := tk.handle so
    if g.poison then raise s mem cPoison 0 0
    else if h.kind ≠ SoKind.barrier then raiseIllegal s mem
    else
      let m1 := tk.sign { mem with arms := mem.arms ++ [(so.toNat, g.val)] } .c 7 (soRecord so h ++ leBytes 8 g.val.toNat)
      .next (s.putBoth (tk.setHandle so { h with arm := true }) (m1.cNext s.cycle))

/-- A BOWAIT tried: complete where the object's phase differs from the handle's, else wait (R146, R298). -/
def tryBowait (s : State) (so : BitVec 6) (tk : Task) (mem : Member) : Res :=
  let h := tk.handle so
  if h.kind ≠ SoKind.barrier || h.arm then raiseIllegal s mem
  else
    let r := objectPa s tk mem (BitVec.ofNat 64 h.addr)
    match r.res with
    | .error t => raiseTrap r.st r.mem t
    | .ok pa =>
      if r.st.loadNat (pa + 24) 4 = h.phase.toNat then cStall r.st r.mem (.bowait so)
      else
        let tk1 := (tk.setHandle so { h with holds := true }).invalidate h.ids
        let m1 := { r.mem with
          l1 := r.mem.l1.filter (fun l => !h.ids.contains l.leaf.bind), stall := none
          bowaits := if r.mem.bowaits.contains so.toNat then r.mem.bowaits else r.mem.bowaits ++ [so.toNat] }
        .next (r.st.putBoth (tk1.acquire r.st) ((m1.acquire r.st).cNext s.cycle))

/-- BOWAIT (R146). [DEDUCED, log 52] -/
def execBowait (so : BitVec 6) (s : State) : Res := onMember s fun tk mem => tryBowait s so tk mem

/-- BARRIER_PHASE_SEEN (R146): a waiting BOWAIT looks at the phase again. [DESIGN CHOICE, log 49] -/
def execBarrierPhaseSeen (s : State) : Res :=
  onMember s fun tk mem =>
    match mem.stall with
    | some (.bowait so) => tryBowait s so tk mem
    | _ => .next s

/-! ## FENCE (R147) -/

/-- The FENCE mask bit an engine command's accesses fall under (R90): 2 engine reads (er), 3 engine writes (ew), 6 prefix-store commands; none
for what makes no such access. A command that reads or writes memory falls under the bit of that access; a fill of the scratchpad (FILL in L)
counts as a write and a peer copy as a read; the spec does not say under which of the two a command's scratchpad accesses fall. [DESIGN CHOICE,
log 66] -/
def fenceBit : Instr → Option Nat
  | .wset .. | .wadv .. | .gath .. | .gathTowin .. | .pref .. | .peerCopy .. => some 2
  | .tkfeed .. | .tkdrain .. | .tkdetok .. | .gload .. | .gmask .. | .gstepStep .. | .gstepStart .. | .gstepOff .. => some 2
  | .scat .. | .fill .. => some 3
  | .slopen .. | .slfork .. | .slmove .. | .slmoveSwap .. | .slclose .. | .slinfo .. | .rxlook .. | .seal .. | .kapp ..
  | .cpact .. | .repl .. | .lease .. | .renew .. | .free .. | .evclass .. | .promo .. | .nodeinfo .. | .bsel .. | .pgath .. =>
    some 6
  | _ => none

/-- The FENCE bit of a command, which for COPY depends on its stream (R228). -/
def Cmd.fenceBit (c : Cmd) : Option Nat :=
  match c.instr with
  | .copy .. => if c.stream == Stream.l then some 2 else some 3
  | i => Sys2Proof.Machine.fenceBit i

/-- An accumulate in the scratchpad (DMODE 2): it reads and writes there, and so falls under er and ew (R147, R238). [DESIGN CHOICE, log 66] -/
def spadAcc : Instr → Bool
  | .accAddS32 _ f | .accAddF32 _ f | .accAddBf16 _ f | .accMinS32 _ f | .accMaxS32 _ f | .accMinZ32 _ f | .accMaxZ32 _ f
  | .accAnd _ f | .accOr _ f | .accXor _ f | .accSwap _ f
  | .accfAddS32 _ f | .accfAddF32 _ f | .accfAddBf16 _ f | .accfMinS32 _ f | .accfMaxS32 _ f | .accfMinZ32 _ f | .accfMaxZ32 _ f
  | .accfAnd _ f | .accfOr _ f | .accfXor _ f | .accfSwap _ f => f.dmode == 2#2
  | _ => false

/-- A matrix word still has scratchpad reads to make in cycle c: MLDACC and the multiplies read to the end of their busy cycles, which for a
remote operand lie 12 cycles earlier (R16, R211, R213). -/
def Job.reading (j : Job) (c : Nat) : Bool :=
  match j.mop with
  | 5 | 7 => false
  | 6 => decide (c < j.start + j.busy)
  | _ => decide (c < max j.readA j.readB + j.busy)

/-- An MDRAIN still has rows to write. -/
def Job.draining (j : Job) : Bool := j.mop == 7

/-- Some access of a kind in a FENCE mask is outstanding on the member's core (R147). An accumulate or a CAS that is deferred to the commit is not waited
for, in an unreplicated task either. [DESIGN CHOICE, log 75] -/
def fenceBlocked (s : State) (mem : Member) (pred : BitVec 7) : Bool :=
  let engine (b : Nat) : Bool := mem.cmds.any fun c => c.state != CmdState.deferred && (c.fenceBit == some b || (b != 6 && spadAcc c.instr))
  let mine := s.slog.filter fun e => e.task == s.cur.task && e.member == s.cur.member && (e.act == LogAct.write || e.act == LogAct.record)
  let logged := mine.any fun e => e.cmd.isNone && e.act == LogAct.write
  let engLogged := mine.any fun e => e.cmd.isSome
  (pred.getLsbD 1 && (!mem.stores.isEmpty || logged)) || (pred.getLsbD 2 && engine 2)
    || (pred.getLsbD 3 && (engine 3 || engLogged)) || (pred.getLsbD 4 && mem.jobs.any fun j => j.reading s.cycle) || (pred.getLsbD 5 && mem.jobs.any Job.draining)
    || (pred.getLsbD 6 && engine 6)

/-- FENCE (R147). -/
def execFence (pred succ : BitVec 7) (s : State) : Res :=
  onMember s fun _ mem => if fenceBlocked s mem pred then cStall s mem (.fence pred succ) else cDone s mem

/-! ## Region ends (R148, R150, R134) -/

/-- A region end on C: the stream waits, with the commit to follow (REGION_COMMIT). -/
def regionEnd (i : Instr) (s : State) : Res :=
  onMember s fun _ mem =>
    let x := mem.str .c
    if x.lc0.count ≠ 0 ∨ x.lc1.count ≠ 0 then raiseIllegal s mem else cStall s mem i

/-- CLOSE (R148). [DEDUCED, log 52] -/
def execClose (s : State) : Res := regionEnd .close s

/-- TDONE (R150). [DEDUCED, log 52] -/
def execTdone (s : State) : Res := regionEnd .tdone s

/-! ## TSPAWN (R149) -/

/-- TSPAWN: the lead reserves and echoes 1 or 0 to the followers, which wait for it. -/
def execTspawn (rd rs rt : BitVec 5) (s : State) : Res :=
  onMember s fun tk mem =>
    let a := mem.rd rs
    let b := mem.rd rt
    let q := (s.queues.find tk.queue).getD Queue.reset
    if a.poison || b.poison then raise s mem cPoison 0 0
    else if tk.replicated && (!mem.lead || !tk.echoRoom mem.rank) then cStall s mem (.tspawn rd rs rt)
    else
      let ok := q.room
      let tk1 := if tk.replicated then tk.echo mem.rank ⟨.c, s.cur.pc, if ok then 1 else 0, []⟩ else tk
      let s1 := s.putTask s.cur.task tk1
      if ok && decide (mem.spawns.length ≥ 16) then raiseIllegal s1 mem
      else
        let m1 := tk.sign mem .c 5 (leBytes 8 a.val.toNat ++ leBytes 8 b.val.toNat)
        if ok then
          let s2 := s1.modQueue tk.queue fun x => { x with
            entries := x.entries ++ [⟨none, .task s.cur.task, some (mem.rank, m1.spawns.length), none⟩] }
          cWrite s2 { m1 with spawns := m1.spawns ++ [⟨m1.spawns.length, tk.queue, a.val, b.val⟩], stall := none } rd ⟨1, false⟩
        else cWrite s1 { m1 with stall := none } rd ⟨0, false⟩

/-! ## State registers, clocks (R151, R152, R63 to R65) -/

/-- SR.TASK (R64). -/
def srTask (tk : Task) : W64 := BitVec.ofNat 64 (tk.node % 2 ^ 16 + (tk.queue % 2 ^ 15) * 2 ^ 16 + (tk.seq % 2 ^ 32) * 2 ^ 32)

/-- SR.CYC: cycles since the region's origin (R64). -/
def srCyc (s : State) (tk : Task) (mem : Member) : W64 := BitVec.ofNat 64 (s.cycle - tk.originOf mem.replica)

/-- The value of state register n, 0 to 10 (R63, R64). -/
def srValue (s : State) (tk : Task) (mem : Member) (n : Nat) : W64 :=
  match n with
  | 0 => srTask tk
  | 1 => BitVec.ofNat 64 mem.rank
  | 2 => BitVec.ofNat 64 (tk.crew + 16 * (tk.hdr.extractLsb' 352 2).toNat)
  | 3 => BitVec.ofNat 64 (mem.replica + 4 * tk.repl + 16 * (tk.attempt % 4))
  | 4 => BitVec.ofNat 64 tk.ctx
  | 5 => BitVec.ofNat 64 ((if tk.tolerant then 1 else 0) + (if tk.pre && decide (tk.discards < 3) then 2 else 0) + 4 * tk.prio)
  | 6 => BitVec.ofNat 64 ((tk.budget - tk.chargeOf mem.replica) % 2 ^ 40)
  | 7 => srCyc s tk mem
  | 8 => tk.seed
  | 9 => (tk.stickyOf mem.replica ||| mem.kf).zeroExtend 64
  | _ =>
    match tk.replicas[mem.replica]? with
    | some r => BitVec.ofNat 64 (r.fault.cause % 256 + r.fault.count * 256 + r.fault.seq * 2 ^ 32)
    | none => 0

/-- SRRD (R151): SR.BUDGET and SR.CYC are echoed (R63). -/
def execSrrd (rd : BitVec 5) (idx : BitVec 8) (s : State) : Res :=
  onMember s fun tk mem =>
    let v := srValue s tk mem idx.toNat
    if idx.toNat > 10 then raiseIllegal s mem
    else if idx.toNat = 6 ∨ idx.toNat = 7 then echoed (.srrd rd idx) rd v s tk mem
    else cWrite s mem rd ⟨v, false⟩

/-- SRWR (R151, R65, R336): clears both copies of SR.FAULT. -/
def execSrwr (rs : BitVec 5) (idx : BitVec 8) (s : State) : Res :=
  onMember s fun tk mem =>
    if idx.toNat ≠ 10 then raiseIllegal s mem
    else if (mem.rd rs).poison then raise s mem cPoison 0 0
    else
      let zero : FaultSt := ⟨0, 0, 0⟩
      let tk1 := { tk with
        faultLive := zero
        replicas := tk.replicas.modify mem.replica fun r => { r with fault := zero } }
      .next (s.putBoth tk1 (mem.cNext s.cycle))

/-- Device time as TIME reads it (R152). -/
def State.timeWord (s : State) : W64 := BitVec.ofNat 64 (s.time.ns % 2 ^ 63 + if s.time.inSync then 0 else 2 ^ 63)

/-- TIME (R152). -/
def execTime (rd : BitVec 5) (s : State) : Res := onMember s fun tk mem => echoed (.time rd) rd s.timeWord s tk mem

/-- CYC (R152). -/
def execCyc (rd : BitVec 5) (s : State) : Res := onMember s fun tk mem => echoed (.cyc rd) rd (srCyc s tk mem) s tk mem

/-- RNG (R152): the entropy bits are a free value; the time the word waits for them is part of what R119 leaves open. [DESIGN CHOICE, log 4] -/
def execRng (rd : BitVec 5) (s : State) : Res :=
  onMember s fun tk mem =>
    if tk.replicated && (!mem.lead || !tk.echoRoom mem.rank) then cStall s mem (.rng rd)
    else echoed (.rng rd) rd s.takeFree.1 s.takeFree.2 tk mem

/-! ## Traps, fault injection, no-op (R153, R154) -/

/-- TRAP (R153): a software trap, always taken. -/
def execTrap (rs : BitVec 5) (s : State) : Res := onMember s fun _ mem => raise s mem cTrap (mem.rd rs).val 0

/-- Bit t of a row's data inverted, tags unchanged. -/
def flipRow (r : Row) (t : Nat) : Row := r.modify (t / 32) fun c => { c with data := c.data ^^^ (1#32 <<< (t % 32)) }

/-- What a FLTINJ changes in the replica it names, none where nothing changes (R153). -/
def injected (tk : Task) (mem : Member) (kind : Nat) (reg : BitVec 5) (t : Nat) : Option Member :=
  match kind with
  | 0 => if reg = 0#5 then none else some (mem.wr reg { mem.rd reg with val := (mem.rd reg).val ^^^ (1#64 <<< t) })
  | 1 => some { mem with v := mem.v.set reg.toNat (flipRow (mem.v[reg.toNat]'(reg.isLt)) t) reg.isLt }
  | _ => if tk.replicated then some { mem with flips := mem.flips ++ [t] } else none

/-- FLTINJ (R153): allowed where the signed record enables it for the context. [DEDUCED, log 40] -/
def execFltinj (rs rt : BitVec 5) (s : State) : Res :=
  onMember s fun tk mem =>
    let a := mem.rd rs
    let b := mem.rd rt
    let kind := (a.val.extractLsb' 2 2).toNat
    let rep := (a.val.extractLsb' 0 2).toNat
    let t := b.val.toNat
    if !s.mgmt.cfg.finj.contains tk.ctx then raise s mem cPrivilege 0 0
    else if a.poison || b.poison then raise s mem cPoison 0 0
    else if kind = 3 ∨ rep = 3 ∨ a.val.toNat ≥ 512 ∨ t ≥ (if kind = 1 then 4096 else 64) then raiseIllegal s mem
    else if rep ≠ mem.replica then cDone s mem
    else
      match injected tk mem kind (a.val.extractLsb' 4 5) t with
      | none => cDone s mem
      | some m1 => cDone (s.recordFault s.cur.task (s.info mem cInjected 3 a.val (t % 65536))) m1

/-- NOP (R154). -/
def execNop (s : State) : Res := onMember s fun _ mem => cDone s mem

/-! ## Resumption of stalled words -/

/-- STALLED_WORD_RESUME (R137): the stalled C word is tried again; it stalls again where its condition does not hold yet. A word
that waits for its lock, its barrier, its commit or its echo is resumed by their own events. [DESIGN CHOICE, log 49; DEDUCED, log 52] -/
def execStalledWordResume (s : State) : Res :=
  onMember s fun _ mem =>
    let m1 := { mem with stall := none }
    let s1 := s.put m1
    match mem.stall with
    | some (.tsig str tag n) => execTsig str tag n s1
    | some (.twait str n) => execTwait str n s1
    | some (.twaitb str off) => execTwaitb str off s1
    | some (.semw sem cnt) => execSemw sem cnt s1
    | some (.fence p q) => execFence p q s1
    | some (.stb rt rs imm) => storeWord (.stb rt rs imm) rt rs imm 1 s1
    | some (.sth rt rs imm) => storeWord (.sth rt rs imm) rt rs imm 2 s1
    | some (.stw rt rs imm) => storeWord (.stw rt rs imm) rt rs imm 4 s1
    | some (.std rt rs imm) => storeWord (.std rt rs imm) rt rs imm 8 s1
    | some (.time rd) => if mem.lead then execTime rd s1 else .next s
    | some (.cyc rd) => if mem.lead then execCyc rd s1 else .next s
    | some (.rng rd) => if mem.lead then execRng rd s1 else .next s
    | some (.srrd rd idx) => if mem.lead then execSrrd rd idx s1 else .next s
    | some (.tspawn rd rs rt) => if mem.lead then execTspawn rd rs rt s1 else .next s
    | _ => .next s

end Sys2Proof.Machine
end

