-- ==== Sys2Proof/Machine/Launch.lean ====
section
/-! DEFINITION. Launch ports, queues and records (R395 to R411, R415, R416), task graphs (R10 to R12), completion records, and how a
task ends (R37, R342, R408). -/

namespace Sys2Proof.Machine

/-! ## A context's memory as the dispatcher reaches it -/

/-- n bytes at a virtual address of a context, none where a page of them cannot be read or a line of them fails (R385, R392). -/
def State.ctxRead (s : State) (c va n : Nat) : Option (List Byte) :=
  if 2 ^ 57 < va + n then none
  else (parts 4096 va n).foldr (fun p acc => match s.ctxPa c p.1 false, acc with
    | some pa, some r => if s.rangeOk pa p.2 then some (s.load pa p.2 ++ r) else none
    | _, _ => none) (some [])

/-- The cause and the address of the first failure of a range that ctxRead cannot read. -/
def State.ctxFails (s : State) (c va n : Nat) : Option (Nat × Nat) :=
  if 2 ^ 57 < va + n then some (cTranslation, va % 2 ^ 64)
  else (parts 4096 va n).findSome? fun p => match s.ctxPa c p.1 false with
    | none => some (cTranslation, p.1)
    | some pa => if s.rangeOk pa p.2 then none else some (cMemory, p.1)

/-- The number of n bytes at a virtual address of a context. -/
def State.ctxNat (s : State) (c va n : Nat) : Option Nat := (s.ctxRead c va n).map leNat

/-- Bytes written at a virtual address of a context, none where a page of them cannot be written. -/
def State.ctxWrite (s : State) (c va : Nat) (bytes : List Byte) : Option State :=
  if 2 ^ 57 < va + bytes.length then none
  else
    let ps := (parts 4096 va bytes.length).map fun p => (s.ctxPa c p.1 true, p.1 - va, p.2)
    if ps.any fun p => (p.1.map fun pa => s.canWrite pa p.2.2).getD false = false then none
    else some (ps.foldl (fun st p => st.wrDev (p.1.getD 0) ((bytes.drop p.2.1).take p.2.2)) s)

/-! ## Records (R403 to R405) -/

/-- KIND of a record. -/
def recKind (r : BitVec 512) : Nat := (r.extractLsb' 0 4).toNat
/-- IRQ of a record. -/
def recIrq (r : BitVec 512) : Bool := r.getLsbD 4
/-- TAG of a record. -/
def recTag (r : BitVec 512) : BitVec 32 := r.extractLsb' 32 32
/-- Bytes 8i to 8i + 7 of a record. -/
def recWord (r : BitVec 512) (i : Nat) : Nat := (r.extractLsb' (64 * i) 64).toNat
/-- Bytes 32 to 63 of a record. -/
def recTail (r : BitVec 512) : Nat := (r.extractLsb' 256 256).toNat

/-- Owning context of a queue (R398). -/
def Queue.ctx (q : Queue) : Nat := (q.cfg.extractLsb' 1 12).toNat
/-- MSI-X vector of a queue. -/
def Queue.vec (q : Queue) : Nat := (q.cfg.extractLsb' 27 11).toNat
/-- Dispatch weight of a queue: 0 acts as 1. -/
def Queue.weight (q : Queue) : Nat :=
  let w := (q.cfg.extractLsb' 19 8).toNat
  if w = 0 then 1 else w

/-- The control block of queue q. -/
def State.queueAt (s : State) (q : Nat) : Queue := (s.queues.find q).getD Queue.reset

/-- A queue without its head entry. -/
def Queue.pop (x : Queue) : Queue := { x with entries := x.entries.drop 1, hwait := false }

/-- The head of queue q taken. -/
def State.popHead (s : State) (q : Nat) : State := s.modQueue q Queue.pop

/-- The head of queue q waits (R405). -/
def State.waitHead (s : State) (q : Nat) : State := s.modQueue q fun x => { x with hwait := true }

/-- An MSI-X interrupt of queue q, where a record asks for one (R403). -/
def State.interrupt (s : State) (q : Nat) (irq : Bool) : State :=
  if irq then { s with irqs := s.irqs ++ [(s.queueAt q).vec] } else s

/-! ## The time-triggered table (R415, R416) -/

/-- The address of entry i. -/
def State.ttAddr (s : State) (i : Nat) : Nat := s.regs.ttbase.toNat + 32 * i

/-- Bit b of entry i. -/
def State.ttBit (s : State) (i b : Nat) : Bool := (s.loadNat (s.ttAddr i) 8).testBit b

/-- Bit b of entry i, 0 to 3, set or cleared. -/
def State.ttSet (s : State) (i b : Nat) (on : Bool) : State :=
  let v := s.loadNat (s.ttAddr i) 1
  s.wrMem (s.ttAddr i) (leBytes 1 (if v.testBit b == on then v else if on then v + 2 ^ b else v - 2 ^ b))

/-- SKIP of entry i counts n more, saturating. -/
def State.ttSkip (s : State) (i n : Nat) : State :=
  s.wrMem (s.ttAddr i + 14) (leBytes 2 (min (s.loadNat (s.ttAddr i + 14) 2 + n) 65535))

/-- QUEUE of entry i. -/
def State.ttQueue (s : State) (i : Nat) : Nat := s.loadNat (s.ttAddr i) 8 / 16 % 2 ^ 15

/-- A firing of entry i (R416). -/
def State.ttFire (s : State) (i : Nat) : State :=
  let q := s.ttQueue i
  if s.ttBit i 3 then (if s.ttBit i 1 && !s.ttBit i 2 then s.ttSet i 2 true else s.ttSkip i 1)
  else
    match s.ctxRead (s.queueAt q).ctx (s.loadNat (s.ttAddr i + 24) 8) 64 with
    | none => (s.modQueue q Queue.countBad).ttSkip i 1
    | some bs =>
      let r := BitVec.ofNat 512 (leNat bs)
      if recKind r ≠ 1 ∧ recKind r ≠ 2 then (s.modQueue q Queue.countBad).ttSkip i 1
      else if (s.queueAt q).cfg.getLsbD 0 && (s.queueAt q).room then
        (s.modQueue q fun x => x.write r .host (some i)).ttSet i 3 true
      else (s.modQueue q Queue.countDrop).ttSkip i 1

/-- The launch of an entry has completed (R416). [DEDUCED, log 30] -/
def State.ttEnd (s : State) (tt : Option Nat) : State := match tt with
  | none => s
  | some i =>
    let s1 := s.ttSet i 3 false
    if s1.ttBit i 2 then (s1.ttSet i 2 false).ttFire i else s1

/-- The head of queue q discarded as malformed or not permitted (R405); a launch of the time-triggered table ends with it. [DEDUCED, log 30] -/
def State.discardHead (s : State) (q : Nat) : State :=
  let tt := ((s.queueAt q).entries.head?).bind (·.tt)
  (s.modQueue q fun x => x.pop.countBad).ttEnd tt

/-- An event for the head record of the queue that the event's operand names: nothing where it is not of the kind, discarded where
R405 says so. [DEDUCED, log 57] -/
def onHead (s : State) (kind : Nat) (ok : Queue → QEntry → BitVec 512 → Bool)
    (f : Nat → Queue → QEntry → BitVec 512 → State) : Res :=
  match s.arg with
  | .num q =>
    match (s.queueAt q).entries.head? with
    | some e =>
      match e.record with
      | some r =>
        if recKind r ≠ kind then .next s
        else if r.extractLsb' 5 27 != 0#27 || !ok (s.queueAt q) e r || !s.ctxEn (s.queueAt q).ctx then .next (s.discardHead q)
        else .next (f q (s.queueAt q) e r)
      | none => .next s
    | none => .next s
  | _ => .next s

/-! ## Notices and refusals without a running task -/

/-- What the dispatcher reports (R334): STREAM 4, UNIT 13, PC 0. -/
def dispatchInfo (cause cls : Nat) (addr : Nat) : FaultInfo :=
  { cause, cls, stream := 4, rank := 0, replica := 0, unit := 13, pc := 0, word := 0, mark := 0, addr := BitVec.ofNat 64 addr
    aux := 0 }

/-- A record of the dispatcher about a launch that is no task. -/
def State.recordLaunch (s : State) (ctx seq : Nat) (f : FaultInfo) : State :=
  (s.stamp (.faultRecord f.cause)).queueRecord ctx (f.record (seq % 2 ^ 32) s.nextSeq)

/-! ## Completion (R23, R408) -/

/-- What a completion record reports of the work done. -/
structure Account where
  charge : Nat
  waitL : Nat
  waitS : Nat
  waitK : Nat
  flags : BitVec 6

/-- The waits of a stream over the members of replica k, saturating. [DEDUCED, log 32] -/
def Task.waits (tk : Task) (k : Nat) (x : Stream) : Nat :=
  min ((tk.members.filter fun m => m.replica == k).map fun m => (m.str x).waits).sum (2 ^ 32 - 1)

/-- The account of a task, from replica k. -/
def Task.account (tk : Task) (k : Nat) : Account :=
  ⟨tk.chargeOf k, tk.waits k .l, tk.waits k .s, tk.waits k .k, tk.stickyOf k⟩

/-- A completion record (R408). [DEDUCED, log 32] -/
def completionRecord (status node : Nat) (tag : BitVec 32) (launch seq : Nat) (a : Account) : BitVec 512 :=
  0#154 ++ a.flags ++ BitVec.ofNat 32 a.waitK ++ BitVec.ofNat 32 a.waitS ++ BitVec.ofNat 32 a.waitL ++ 0#24
    ++ BitVec.ofNat 40 (min a.charge (2 ^ 40 - 1)) ++ BitVec.ofNat 64 seq ++ BitVec.ofNat 64 launch ++ tag ++ 0#8
    ++ BitVec.ofNat 16 node ++ BitVec.ofNat 8 status

/-- STATUS of an ending. -/
def Ending.status : Ending → Nat
  | .done => 0
  | .failed => 1
  | .refused => 2
  | .terminated => 3

/-- A notice about a launch, with its REPLICA: 3 where the launch is a replicated task (R334). -/
def State.launchNotice (s : State) (launch : Nat) (f : FaultInfo) : FaultInfo :=
  match s.tasks.find? fun k => k.seq == launch && k.graph.isNone with
  | some k => f.ofTask k
  | none => f

/-- The completion of a launch: its event, its record at the completion address, its interrupt, its table entry. -/
def State.complete (s : State) (q ctx launch node : Nat) (tag : BitVec 32) (irq : Bool) (compl : Nat) (tt : Option Nat)
    (e : Ending) (a : Account) : State :=
  let seq := s.nextSeq
  let s1 := s.stamp (.completion launch)
  let s2 := if compl = 0 then s1
    else match s1.ctxWrite ctx compl (leBytes 64 (completionRecord e.status node tag launch seq a).toNat) with
      | some s3 => s3
      | none => s1.recordLaunch ctx launch (s.launchNotice launch (dispatchInfo cTranslation 3 compl))
  (s2.interrupt q irq).ttEnd tt

/-! ## Graphs (R10 to R12, R409, R410) -/

/-- The header of a graph image. -/
structure GraphImage where
  nnode : Nat
  nedge : Nat
  nodeoff : Nat
  edgeoff : Nat
  parea : Nat
  psz : Nat
  gen : Nat

/-- The header of a graph image of a context: none where it cannot be read; the Bool says that it is within R409's limits. -/
def State.graphImage (s : State) (c va : Nat) : Option (GraphImage × Bool) :=
  (s.ctxRead c va 64).map fun b =>
    let f (o n : Nat) : Nat := leNat ((b.drop o).take n)
    let g : GraphImage := ⟨f 0 4, f 4 4, f 8 8, f 16 8, f 24 8, f 32 4, f 36 4⟩
    (g, decide (1 ≤ g.nnode) && decide (g.nnode ≤ 65535) && decide (g.nedge ≤ 1048575) && g.nodeoff % 64 == 0 &&
      g.edgeoff % 64 == 0 && g.parea % 16 == 0 && g.psz % 16 == 0 && decide (g.psz ≤ 2 ^ 24) && decide (g.gen ≤ 1) && f 40 24 == 0)

/-- The edges of an image, none where they cannot be read. -/
def State.graphEdges (s : State) (c va : Nat) (g : GraphImage) : Option (List (Nat × Nat)) :=
  (s.ctxRead c (va + g.edgeoff) (4 * g.nedge)).map fun b =>
    (List.range g.nedge).map fun i => (leNat ((b.drop (4 * i)).take 2), leNat ((b.drop (4 * i + 2)).take 2))

/-- Nodes left after taking away, n times, every node without a predecessor left. -/
def peel (edges : List (Nat × Nat)) : Nat → List Nat → List Nat
  | 0, left => left
  | n + 1, left =>
    let keep := left.filter fun v => edges.any fun e => e.2 == v && left.contains e.1
    if keep.length = left.length then left else peel edges n keep

/-- The edges name nodes of the graph and form no cycle (R10). -/
def graphSound (nnode : Nat) (edges : List (Nat × Nat)) : Bool :=
  (edges.all fun e => decide (e.1 < nnode) && decide (e.2 < nnode)) && (peel edges nnode (List.range nnode)).isEmpty

/-- Node n of an image: header address, POFF, and whether its reserved bits are 0. -/
def State.graphNode (s : State) (c va nodeoff n : Nat) : Option (Nat × Nat × Bool) :=
  (s.ctxRead c (va + nodeoff + 16 * n) 16).map fun b =>
    (leNat (b.take 8), leNat ((b.drop 8).take 4), leNat (b.drop 12) == 0)

/-- Node n of graph number gi becomes READY (R11). -/
def State.launchNode (s : State) (gi : Nat) (g : Graph) (n : Nat) : State :=
  let hdr := match (s.graphImage g.ctx g.image).bind fun i => s.graphNode g.ctx g.image i.1.nodeoff n with
    | some x => x.1
    | none => 0
  { s with tasks := s.tasks ++ [{ Task.launch g.seq n g.queue g.ctx g.tag false 0 (BitVec.ofNat 64 hdr) 0 (some gi) none s.time.ns with
      state := .ready }] }

/-- Nodes that have become ready by the completion of node n. -/
def Graph.nowReady (g : Graph) (n : Nat) : List Nat :=
  ((g.edges.filter fun e => e.1 == n).map (·.2)).eraseDups.filter fun v =>
    !g.failedNodes.contains v && g.edges.all fun e => e.2 != v || g.doneNodes.contains e.1

/-- The nodes of a list become READY. -/
def State.launchNodes (s : State) (gi : Nat) (g : Graph) (ns : List Nat) : State :=
  let s1 := { s with graphs := s.graphs.set gi { g with liveNodes := g.liveNodes ++ ns } }
  ns.foldl (fun st n => st.launchNode gi g n) s1

/-- The account of a graph. -/
def Graph.account (g : Graph) : Account := ⟨g.charge, g.waitL, g.waitS, g.waitK, g.flags⟩

/-- A graph with no live node left ends (R12) and retires (R410). -/
def State.retireGraph (s : State) (gi : Nat) : State :=
  match s.graphs[gi]? with
  | none => s
  | some g =>
    if g.retired || !g.liveNodes.isEmpty then s
    else
      let s1 := { s with graphs := s.graphs.set gi { g with retired := true } }
      let e : Ending := if g.refused then .refused else if g.failedNodes.isEmpty then .done else .failed
      let lowest := g.failedNodes.foldl min 0xFFFF
      s1.complete g.queue g.ctx g.seq lowest g.tag g.irq g.compl.toNat g.tt e g.account

/-- A node of a graph has ended: what it adds to the graph's account, and its successors (R11, R12). -/
def State.nodeEnded (s : State) (gi n : Nat) (e : Ending) (a : Account) : State :=
  match s.graphs[gi]? with
  | none => s
  | some g =>
    let cap := 2 ^ 32 - 1
    let g1 := { g with
      liveNodes := g.liveNodes.erase n
      doneNodes := if e = .done then g.doneNodes ++ [n] else g.doneNodes
      failedNodes := if e = .done then g.failedNodes else g.failedNodes ++ [n]
      charge := min (g.charge + a.charge) (2 ^ 40 - 1), waitL := min (g.waitL + a.waitL) cap
      waitS := min (g.waitS + a.waitS) cap, waitK := min (g.waitK + a.waitK) cap, flags := g.flags ||| a.flags }
    (s.launchNodes gi g1 (if e = .done then g1.nowReady n else [])).retireGraph gi

/-! ## The end of a task (R37, R67, R150, R342, R356) -/

/-- Task t ends: its state, handles and cores, the ownership of its pages, then its completion or its graph's progress. k is the
replica whose account it gives (R328). -/
def State.endTask (s : State) (t : Nat) (e : Ending) (k : Nat) : State :=
  match s.tasks[t]? with
  | none => s
  | some tk =>
    let s1 := (s.presentFor t).leaveCores tk
    let s2 := { s1.releaseOwn t with reserve := match s1.reserve with
      | some r => if r.task = t then none else some r
      | none => none }
    let s3 := s2.modTask t fun x => { x with
      state := if e = .done then .done else .failed, ending := some e, so := Vector.replicate 64 Handle.unbound
      commit := .none, commitPending := false, before := none
      replicas := x.replicas.map fun r => { r with holding := false, atBarrier := false }
      members := x.members.map fun m => { m with spad := [], savedPieces := [], held := [], replay := [], cmds := [] } }
    match tk.graph with
    | some gi => s3.nodeEnded gi tk.node e (tk.account k)
    | none => s3.complete tk.queue tk.ctx tk.seq 0xFFFF tk.tag tk.irq tk.compl.toNat tk.fromTT e (tk.account k)


/-- The entry that a TSPAWN of task t reserved, by the rank and number of the reservation, filled with its launch (R149, R399). [DEDUCED,
log 32] -/
def fillReserved (t : Nat) (slot : Nat × Nat) (rec : BitVec 512) : List QEntry → List QEntry
  | [] => []
  | e :: r =>
    if e.record.isNone && e.writer == Writer.task t && e.slot == some slot then { e with record := some rec } :: r
    else e :: fillReserved t slot rec r

/-- The TASK record of a TSPAWN (R149, R404). [DEDUCED, log 32] -/
def spawnRecord (sp : Spawn) : BitVec 512 := 0#320 ++ sp.param ++ sp.hdr ++ 1#64

/-- The virtual address of piece p of a member in its save area, in the pool its task context was allocated in (R36, R402). [DESIGN CHOICE, log
47] -/
def Task.saveVA (tk : Task) (m p : Nat) : Nat := tk.tcpool + Config.saveOffset tk.seq m p

/-! ## Accepting TASK and GRAPH (R402, R405) -/

/-- Bytes a task's context takes from its pool, by its header (R402). [DEDUCED, log 29] -/
def poolNeed (hdr : Nat) : Nat :=
  16384 + 2 ^ (hdr / 2 ^ 352 % 4) * (hdr / 2 ^ 356 % 4 + 1) * ((hdr / 2 ^ 336 % 128 + 1) * 4096)

/-- Bytes of a context's pool in use. [DEDUCED, log 29] -/
def State.poolUsed (s : State) (c : Nat) : Nat :=
  (s.tasks.map fun k => if k.ctx == c && k.ending.isNone then k.poolBytes else 0).sum

/-- The pool of a context has room. [DEDUCED, log 29] -/
def State.poolRoom (s : State) (c need : Nat) : Bool := decide (s.poolUsed c + need ≤ s.ctxField c 80 8)

/-- The limits of a TASK record (R404). -/
def taskRecOk (r : BitVec 512) : Bool :=
  recWord r 1 % 128 == 0 && recWord r 2 % 16 == 0 && recWord r 3 % 64 == 0 && recTail r == 0

/-- TASK (R404, R405): accepted, QUEUED and then READY; it waits where no task context is left. [DEDUCED, log 29] -/
def execTask (s : State) : Res :=
  onHead s 1 (fun _ _ r => taskRecOk r) fun q x e r =>
    let need := poolNeed ((s.ctxNat x.ctx (recWord r 1) 128).getD 0)
    if s.poolRoom x.ctx need then
      let s1 := (s.popHead q).stamp (.accept 1 q)
      let tk := Task.launch s.nextSeq 0xFFFF q x.ctx (recTag r) (recIrq r) (BitVec.ofNat 64 (recWord r 3))
        (BitVec.ofNat 64 (recWord r 1)) (BitVec.ofNat 64 (recWord r 2)) none e.tt s.time.ns
      { s1 with tasks := s1.tasks ++ [{ tk with state := .ready, poolBytes := need, tcpool := s.ctxField x.ctx 72 8 }] }
    else s.waitHead q

/-- A graph refused before any node runs (R10). -/
def State.refuseGraph (s : State) (g : Graph) (cause addr : Nat) : State :=
  let s1 := s.recordLaunch g.ctx g.seq (dispatchInfo cause 0 addr)
  let g1 := { g with refused := true }
  ({ s1 with graphs := s1.graphs ++ [g1] }).retireGraph s1.graphs.length

/-- Images of a context with unretired replays (R410). -/
def State.liveImages (s : State) : List (Nat × Nat) :=
  ((s.graphs.filter fun g => !g.retired).map fun g => (g.ctx, g.image)).eraseDups

/-- GRAPH (R10, R404, R405, R409, R410): accepted, its nodes without predecessors READY; it waits where the graph table or the pool
has no room. [DEDUCED, log 29; DEDUCED, log 30] -/
def execGraph (s : State) : Res :=
  onHead s 2 (fun _ _ r => recWord r 1 % 64 == 0 && recWord r 2 == 0 && recWord r 3 % 64 == 0 && recTail r == 0)
    fun q x e r =>
    let va := recWord r 1
    let live := s.liveImages
    if (!live.contains (x.ctx, va) && decide (Config.graphTable ≤ live.length)) || !s.poolRoom x.ctx (poolNeed 0) then s.waitHead q
    else
      let s1 := (s.popHead q).stamp (.accept 2 q)
      let blank : Graph :=
        { seq := s.nextSeq, queue := q, ctx := x.ctx, tag := recTag r, irq := recIrq r, image := va
          compl := BitVec.ofNat 64 (recWord r 3), gen := 0, nnode := 0, edges := [], failedNodes := [], doneNodes := []
          liveNodes := [], charge := 0, waitL := 0, waitS := 0, waitK := 0, flags := 0, retired := false, refused := false
          tt := e.tt }
      match s1.graphImage x.ctx va with
      | none =>
        let f := (s1.ctxFails x.ctx va 64).getD (cTranslation, va)
        s1.refuseGraph blank f.1 f.2
      | some (g, ok) =>
        if !ok then s1.refuseGraph blank cIllegal 0
        else match s1.graphEdges x.ctx va g with
          | none =>
            let at0 := va + g.edgeoff
            let f := (s1.ctxFails x.ctx at0 (4 * g.nedge)).getD (cTranslation, at0)
            s1.refuseGraph blank f.1 f.2
          | some es =>
            if !graphSound g.nnode es then s1.refuseGraph blank cIllegal 0
            else
              let g1 := { blank with gen := g.gen, nnode := g.nnode, edges := es }
              let roots := (List.range g.nnode).filter fun v => es.all fun d => d.2 != v
              ({ s1 with graphs := s1.graphs ++ [g1] }).launchNodes s1.graphs.length g1 roots

/-- PATCH (R410): it waits for the replays of the other generation, then copies the area and flips GEN; one whose memory cannot be
reached is discarded. [DEDUCED, log 30] -/
def execPatch (s : State) : Res :=
  onHead s 3 (fun _ _ r => recWord r 1 % 64 == 0 && recWord r 2 % 16 == 0 && recWord r 3 == 0 && recTail r == 0) fun q x _ r =>
    let va := recWord r 1
    match s.graphImage x.ctx va with
    | some (g, true) =>
      let other := 1 - g.gen
      if s.graphs.any fun k => !k.retired && k.ctx == x.ctx && k.image == va && k.gen == other then s.waitHead q
      else match s.ctxRead x.ctx (recWord r 2) g.psz with
        | none => s.discardHead q
        | some bs =>
          match (s.ctxWrite x.ctx (va + g.parea + other * g.psz) bs).bind fun s1 => s1.ctxWrite x.ctx (va + 36) (leBytes 4 other) with
          | none => s.discardHead q
          | some s1 => ((s1.popHead q).stamp (.accept 3 q)).interrupt q (recIrq r)
    | _ => s.discardHead q

/-! ## FENCE and SIGNAL (R350, R359, R406, R407) -/

/-- The translations used in a context since its last invalidation that its page tables no longer give (R350). -/
def State.staleXlat (s : State) (c : Nat) : List TlbEntry :=
  s.xlat.filter fun e => e.ctx == c && s.leafOf (s.ctxRoot c) e.va != some e.leaf

/-- A TLB invalidation of a context: its entries on every core, the L1 lines filled through them (R406), and in every L1 the physical lines of
pages whose translation has changed, whether or not their entries are still held (R350, R359). [DEDUCED, log 28] -/
def State.invalidateCtx (s : State) (c : Nat) : State :=
  let gone := s.staleXlat c
  let keep := fun (t : List TlbEntry) => t.filter fun e => e.ctx != c
  let lines := fun (ls : List Line) => ls.filter fun l => l.ctx != c && !(gone.any fun e => within l.pa e.leaf.base e.leaf.size)
  { s with
    xlat := s.xlat.filter fun e => !gone.contains e
    tasks := s.tasks.map fun k => { k with members := k.members.map fun m =>
      { m with tlbC := keep m.tlbC, tlbL := keep m.tlbL, tlbS := keep m.tlbS, l1 := lines m.l1 } }
    cores := s.cores.map fun k =>
      (k.1, { k.2 with tlbC := keep k.2.tlbC, tlbL := keep k.2.tlbL, tlbS := keep k.2.tlbS, l1 := lines k.2.l1 }) }

/-- The fields of a context record that a dispatch reads (R402). [DEDUCED, log 28] -/
def Task.readCtx (tk : Task) (s : State) : Task :=
  let f := s.ctxField tk.ctx 0 1
  { tk with ptroot := s.ctxField tk.ctx 8 8, btab := s.ctxField tk.ctx 16 8, hint := s.ctxField tk.ctx 24 8, part := f / 2 % 16
            rpol := f / 32 % 2 == 1, qbase := s.ctxField tk.ctx 32 8 }

/-- An earlier launch of a queue has not completed (R406). -/
def State.launching (s : State) (q : Nat) : Bool :=
  (s.tasks.any fun k => k.queue == q && k.graph.isNone && k.ending.isNone) || s.graphs.any fun g => g.queue == q && !g.retired

/-- FENCE record (R406): every host write that reached the device has been performed, since each is performed in its own step; INV
also makes the placed tasks of the context use the record's fields anew (R402). [DEDUCED, log 28] -/
def execFenceRecord (s : State) : Res :=
  onHead s 4 (fun _ _ r => decide (recWord r 1 < 4) && recWord r 2 == 0 && recWord r 3 == 0 && recTail r == 0) fun q x _ r =>
    if (recWord r 1).testBit 1 && s.launching q then s.waitHead q
    else
      let s1 := if (recWord r 1).testBit 0 then
          let s2 := s.invalidateCtx x.ctx
          { s2 with tasks := s2.tasks.map fun k => if k.ctx == x.ctx && k.placedOnce then k.readCtx s else k }
        else s
      ((s1.popHead q).stamp (.accept 4 q)).interrupt q (recIrq r)

/-- SIGNAL (R407): barrier_add on a barrier object that can be written; any other is discarded, and one that meets an uncorrectable memory error
(R385). [DEDUCED, log 28] -/
def execSignal (s : State) : Res :=
  onHead s 6 (fun _ _ r => recWord r 1 % 64 == 0 && recWord r 3 == 0 && recTail r == 0) fun q x _ r =>
    match s.ctxPa x.ctx (recWord r 1) true with
    | none => s.discardHead q
    | some pa =>
      if s.objectOk pa && s.loadNat pa 1 == 2 then (((s.popHead q).stamp (.accept 6 q)).barrierAdd pa (recWord r 2)).interrupt q (recIrq r)
      else s.discardHead q

/-! ## TIMED and its slots (R415, R416) -/

/-- TIMED (R415): writes an entry whose queue belongs to the context; its slots count from now on. -/
def execTimed (s : State) : Res :=
  onHead s 5 (fun x _ r =>
      decide (recWord r 1 < 4096) && recWord r 2 == 0 && recWord r 3 == 0 && recWord r 4 / 2 ^ 19 == 0 && recWord r 7 % 64 == 0 &&
        (s.queueAt (recWord r 4 / 16 % 2 ^ 15)).ctx == x.ctx) fun q _ _ r =>
    let i := recWord r 1
    let w0 := recWord r 4 / 16 * 16 + recWord r 4 % 4
    let w1 := recWord r 5 % 2 ^ 48
    let s1 := s.wrMem (s.ttAddr i) (leBytes 8 w0 ++ leBytes 8 w1 ++ leBytes 8 (recWord r 6) ++ leBytes 8 (recWord r 7))
    (({ s1 with ttNext := s1.ttNext.put i s.time.ns }.popHead q).stamp (.accept 5 q)).interrupt q (recIrq r)

/-- Slots of entry i in device times [a, b], of a period and phase. -/
def slotsIn (period phase a b : Nat) : Nat :=
  let d (x : Nat) : Int := ((x : Int) - phase) / period
  if b < a then 0 else (d b - d a + if ((a : Int) - phase) % period = 0 then 1 else 0).toNat

/-- Slots of entry i that device time has reached and that have not fired yet. -/
def State.ttDue (s : State) (i : Nat) : Nat :=
  match s.ttNext.find i with
  | none => 0
  | some a =>
    let period := s.loadNat (s.ttAddr i + 8) 6
    if s.ttBit i 0 && decide (1000 ≤ period) then slotsIn period (s.loadNat (s.ttAddr i + 16) 8) a s.time.ns else 0

/-- TIMED_SLOT_FIRE (R416): of the slots device time has passed, the last fires and SKIP counts the others. -/
def execTimedSlotFire (s : State) : Res :=
  match s.arg with
  | .num i =>
    let n := s.ttDue i
    if n = 0 then .next s
    else
      let s1 := { s with ttNext := s.ttNext.put i (s.time.ns + 1) }
      .next ((if n = 1 then s1 else s1.ttSkip i (n - 1)).ttFire i)
  | _ => .next s

/-! ## Host writes (R397 to R400, R411) -/

/-- LAUNCH_PORT_WRITE (R397, R398): the operand's record enters its queue; a write of another size or place is discarded and
counted. [DEDUCED, log 57] -/
def execLaunchPortWrite (s : State) : Res :=
  match s.arg with
  | .portWrite q whole rec =>
    .next (s.modQueue (q % 2 ^ 15) fun x => if whole then x.write rec .host none else x.countBad)
  | _ => .next s

/-- QSTAT_WRITE (R398): DROPS and BAD are cleared. -/
def execQstatWrite (s : State) : Res :=
  match s.arg with
  | .num q => .next (s.modQueue (q % 2 ^ 15) fun x => { x with drops := 0, bad := 0 })
  | _ => .next s

/-- Some queue is enabled. -/
def State.anyEnabled (s : State) : Bool := s.queues.any fun q => q.2.cfg.getLsbD 0

/-- A write of QCFG or QSPILL (R398): reserved bits stay 0, and no queue is enabled before the boot has ended (R436). [DEDUCED, log 31] -/
def State.writeQueueReg (s : State) (off : Nat) (val : W64) : State :=
  let q := off / 32
  match off % 32 with
  | 0 =>
    let v := val &&& 0x3FFFFFFFFF#64
    s.modQueue q fun x => { x with cfg := if s.mgmt.boot = .ready then v else v &&& ~~~1#64 }
  | 8 => s.modQueue q fun x => { x with spill := val &&& 0xFFFFFFFFFFFFF#64 }
  | 16 => s.modQueue q fun x => { x with drops := 0, bad := 0 }
  | _ => s

/-- A write of a global register (R400): CTXBASE and TTBASE only while no queue is enabled. [DEDUCED, log 31] -/
def State.writeGlobal (s : State) (off : Nat) (val : W64) : State :=
  match off with
  | 0x00 => if s.anyEnabled then s else { s with regs := { s.regs with ctxbase := val } }
  | 0x08 => if s.anyEnabled then s else { s with regs := { s.regs with ttbase := val } }
  | 0x10 => { s with regs := { s.regs with agep := val.extractLsb' 0 32 } }
  | 0x18 => { s with regs := { s.regs with pdelay := val.extractLsb' 0 32 } }
  | _ => s

/-- REGISTER_WRITE (R398, R400): a write to BAR2. [DEDUCED, log 31] -/
def execRegisterWrite (s : State) : Res :=
  match s.arg with
  | .reg off val =>
    .next (if within off 0x100000 0x100000 then s.writeQueueReg (off - 0x100000) val else s.writeGlobal off val)
  | _ => .next s

/-- Memory the host reaches: the usable drawer, and its own (R395, R396). [DEDUCED, log 31] -/
def hostReach (pa : Nat) : Bool :=
  (decide (pa / 2 ^ 36 < 12) && decide (pa % 2 ^ 36 < Config.stackBytes)) || (decide (2 ^ 51 ≤ pa) && decide (pa < 2 ^ 52))

/-- HOST_MEMORY_WRITE (R295, R310, R411): performed when it reaches the home slice; in a stack that has failed it meets an uncorrectable memory
error and is not performed (R389). [DEDUCED, log 31] -/
def execHostMemoryWrite (s : State) : Res :=
  match s.arg with
  | .hostWrite pa bytes => .next (if ((List.range bytes.length).all fun i => hostReach (pa + i)) && s.canWrite pa bytes.length then s.wrMem pa bytes else s)
  | _ => .next s

end Sys2Proof.Machine
end

