-- ==== Sys2Proof/Machine/Regions.lean ====
section
/-! DEFINITION. Region ends and commits (R26 to R29, R34, R37, R301, R304), the deferred work of a commit (R129, R240, R243, R260,
R478), the side log (R364), alignment barriers (R18, R336), echoes (R314, R315), signatures, decisions, votes and transplants (R318 to
R327), deadlines (R25, R26, R328), pre-emption discards (R33 to R35), and C stores as they are performed (R295). -/

namespace Sys2Proof.Machine

/-! ## C stores (R295) -/

/-- The member's own C stores that wait in the side log for a line, made before a store (R130). -/
def State.behindLog (s : State) (t m : Nat) (p : PStore) : Bool :=
  s.slog.any fun e => e.task == t && e.member == m && e.cmd.isNone && e.act == LogAct.write && e.va == p.va / 128 * 128
    && decide (e.id < p.logMark)

/-- The first store of a list that may be performed in a cycle: none issued before it to its line is left, on its way or in the side log
(R130, R295). [DEDUCED, log 34] -/
def State.dueStore (s : State) (t m : Nat) : List Nat → List PStore → Option PStore
  | _, [] => none
  | lines, p :: r =>
    if decide (p.due ≤ s.cycle) && !lines.contains (p.pa / 128) && !s.behindLog t m p then some p
    else State.dueStore s t m (p.pa / 128 :: lines) r

/-- A C store of a member of task t performed; where its line has come to fail meanwhile it is dropped with a logged record (R389, R392). [DEDUCED,
log 61] -/
def State.storeDone (s : State) (t : Nat) (mem : Member) (p : PStore) : State :=
  if s.canWrite p.pa p.bytes.length then (s.wrDev p.pa p.bytes).writtenBy s t mem.rank false
  else s.recordFault t { dispatchInfo cMemory 2 p.va with rank := mem.rank, replica := mem.replica, unit := 12 }

/-- C_STORE_PERFORMED (R295): a store of the member takes its place in the write order. [DEDUCED, log 34] -/
def execCStorePerformed (s : State) : Res :=
  onMember s fun _ mem =>
    match s.dueStore s.cur.task s.cur.member [] mem.stores with
    | none => .next s
    | some p => .next ((s.storeDone s.cur.task mem p).put { mem with stores := mem.stores.erase p })

/-! ## Locks passed on (R144) -/

/-- The lock at a physical address goes to the next waiting request, or becomes free. -/
def State.passLock (s : State) (pa : Nat) : State :=
  match s.lockq.find? fun r => r.obj == pa && !r.granted with
  | some r =>
    let owner := ((s.tasks[r.task]?).map Task.holderId).getD 0
    let s1 := s.wrDev (pa + 8) (leBytes 8 owner)
    { s1 with lockq := s1.lockq.map fun q => if q = r then { q with granted := true } else q }
  | none => s.wrDev (pa + 8) (leBytes 8 0)

/-- A handle of task t changed. -/
def State.modHandle (s : State) (t so : Nat) (f : Handle → Handle) : State :=
  s.modTask t fun k => { k with so := setVec k.so so (f (k.so.toList.getD so Handle.unbound)) }

/-- No handle of the task holds the barrier object at an address any longer (R298). -/
def Task.unholdAt (tk : Task) (addr : Nat) : Task :=
  { tk with so := tk.so.map fun h => if h.kind = SoKind.barrier ∧ h.addr = addr then { h with holds := false } else h }

/-- The address of the object that a handle of a task is bound to. -/
def Task.objectOf (tk : Task) (so : Nat) : Nat := (tk.so.toList.getD so Handle.unbound).addr

/-- What an operation on a sync object does at its home slice: a release, an arrival of some units, after which no handle of the task holds
the object (R298), or an addition. [DEDUCED, log 33] -/
def State.objectAct (s : State) (t pa : Nat) : LogAct → State
  | .release so => ((s.noteRead pa 64).passLock pa).modHandle t so fun h => { h with held := false }
  | .arrive so units => (s.barrierAdd pa units).modTask t fun k => k.unholdAt (k.objectOf so)
  | .add units => s.barrierAdd pa units
  | _ => s

/-! ## The side log (R364) -/

/-- Task t has entries in a side log. -/
def State.logged (s : State) (t : Nat) : Bool := s.slog.any fun e => e.task == t

/-- What a record about a side-log entry names besides its cause and address. [DEDUCED, log 33] -/
def logInfo (mem : Member) (cause addr : Nat) : FaultInfo :=
  { dispatchInfo cause 2 addr with rank := mem.rank, replica := mem.replica, unit := 12 }

/-- An entry left the log; the byte count of its command is added with its last entry (R235), or takes the entry's place in the log where the
object's page has no translation (R478). -/
def State.logDone (s : State) (e : LogEntry) (mem : Member) : State :=
  let s1 := { s with slog := s.slog.filter fun x => x.id != e.id }
  if e.so ≠ 0 ∧ (s1.slog.any fun x => x.task == e.task && x.member == e.member && x.cmd == e.cmd) = false then
    match s1.tasks[e.task]? with
    | some tk => s1.addObject e.task e.member tk { mem with core := e.core } (tk.objectOf e.so) e.units (logInfo mem 0 0)
    | none => s1
  else s1

/-- The bytes of an entry as they lie in its line. -/
def LogEntry.line (e : LogEntry) : List (Option Byte) := (List.range 128).map fun i => (e.bytes.find? fun b => b.1 == i).map (·.2)

/-- The place in its line of the first byte of an entry. -/
def LogEntry.offset (e : LogEntry) : Nat := (e.bytes.head?.map (·.1)).getD 0

/-- The bytes of an entry in their order. -/
def LogEntry.data (e : LogEntry) : List Byte := e.bytes.map (·.2)

/-- A C store of the side log performed on a line: the core that made it sees it in its own copy of the line, in every replica (R129, R295). -/
def State.logStore (s : State) (e : LogEntry) (mem : Member) (pa : Nat) : State :=
  let upd := fun (m : Member) => (runs 0 e.line).foldl (fun x r => x.updateLine (pa + r.1) r.2) m
  let s1 := s.writeRuns pa (runs 0 e.line)
  if e.cmd.isSome then s1 else (s1.modMember e.task e.member upd).spread e.task mem upd

/-- The effect of an entry on a line or object at a physical address that passed its checks: a write of bytes, the record that a COPY leaves in
a launch port (R397), an accumulate or a CAS with the data the entry holds (R240), or an operation on a sync object. -/
def State.logPerform (s : State) (e : LogEntry) (mem : Member) (pa : Nat) : State :=
  let at_ := pa + e.offset
  let data := leNat e.data
  match e.act with
  | .write => s.logStore e mem pa
  | .record => if inPorts at_ then s.portCopy at_ e.task e.ctx (BitVec.ofNat 512 data) else s.logStore e mem pa
  | .acc c j old =>
    let r := match c.instr with
      | .cas _ _ recw w64 scope => casPerform s e.task mem recw w64 scope at_ old.toNat data
      | i => match accOf i with
        | some (a, fetch, _, f) => accPerform s e.task mem a fetch f j at_ data
        | none => (s, mem)
    r.1.putMember e.task e.member r.2
  | act => s.objectAct e.task pa act

/-- An entry is a write of memory, which takes ownership; the others act on sync objects. -/
def LogEntry.writes (e : LogEntry) : Bool := match e.act with
  | .write | .record | .acc .. => true
  | _ => false

/-- The bytes of the target of an entry, from the line's or object's physical address on. -/
def LogEntry.span (e : LogEntry) : Nat := if e.writes then e.offset + e.bytes.length else 64

/-- The C stores that a member made before an entry of its own, to the entry's line, performed ahead of it (R130). -/
def State.drainBefore (s : State) (e : LogEntry) (mem : Member) : State :=
  let older := fun (p : PStore) => e.cmd.isNone && e.act == LogAct.write && p.va / 128 * 128 == e.va && decide (p.logMark ≤ e.id)
  if mem.stores.any older then
    ((mem.stores.filter older).foldl (fun st p => st.storeDone e.task mem p) s).modMember e.task e.member fun m =>
      { m with stores := m.stores.filter fun p => !older p }
  else s

/-- An entry dropped unperformed with a logged record (R332, R364). -/
def State.logDrop (s : State) (e : LogEntry) (mem : Member) (cause : Nat) : State :=
  (s.recordFault e.task (logInfo mem cause (e.va + e.offset))).logDone e mem

/-- An uncorrectable error at the target of an entry: the entry is dropped with a logged record (R332, R385); in step 2 of a replicated task the
committer has met it, which fails the task (R327). [DEDUCED, log 33] -/
def State.logFail (s : State) (tk : Task) (e : LogEntry) (mem : Member) : State :=
  match tk.commit with
  | .step2 k _ =>
    if tk.replicated then
      { s with slog := s.slog.filter fun x => x.id != e.id }.modTask e.task fun x => { x with commit := .step2 k [.failed] }
    else s.logDrop e mem cMemory
  | _ => s.logDrop e mem cMemory

/-- An entry tried (R364): performed, dropped with a logged record, or none where its page is still unmapped. A target that does not exist or
cannot be read meets an uncorrectable memory error (R332, R385). [DEDUCED, log 33] -/
def State.logTry (s : State) (e : LogEntry) : Option State :=
  match s.tasks[e.task]?, s.member? e.task e.member with
  | some tk, some mem =>
    match s.walk tk.ptroot e.va with
    | none => if s.missCause tk.ptroot e.va = cMemory then some (s.logFail tk e mem) else none
    | some l =>
      let pa := l.pa e.va
      if !l.w then some (s.logDrop e mem cProtection)
      else if !s.canWrite pa e.span || (e.act != LogAct.write && e.act != LogAct.record && !s.rangeOk pa e.span) then
        some (s.logFail tk e mem)
      else match (if e.writes && l.owned pa then s.takeOwn ⟨e.task, mem.rank⟩ pa else some s) with
        | none => some ((s.splitOwn pa).logDrop e mem cSharing)
        | some s1 => some ((((s1.drainBefore e mem).logPerform e mem pa).writtenBy s1 e.task mem.rank tk.replicated).logDone e mem)
  | _, _ => some { s with slog := s.slog.filter fun x => x.id != e.id }

/-- Entries tried in entry order; one that has to wait blocks the later ones of its task, which the list names (R341, R364). [DEDUCED, log 33] -/
def State.logRun (s : State) : List Nat → List LogEntry → State
  | _, [] => s
  | blocked, e :: r =>
    if blocked.contains e.task then State.logRun s blocked r
    else match s.logTry e with
      | some s1 => State.logRun s1 blocked r
      | none => State.logRun s (e.task :: blocked) r

/-- Every entry of a core tried again, in entry order; an entry whose byte count has come since is the one in the log (R340, R341, R364). [DEDUCED,
log 33] -/
def State.retryCore (s : State) (core : Nat) : State := s.logRun [] (s.slog.filter fun e => e.core == core)

/-- SIDE_LOG_RETRY (R364): the entries of every core are tried again. [DEDUCED, log 33] -/
def execSideLogRetry (s : State) : Res := .next (((s.slog.map (·.core)).eraseDups).foldl State.retryCore s)

/-! ## Deferred work of step 2 (R26, R301) -/

/-- The C word a member stands at, as the actor of its commit. -/
def endActor (t m : Nat) (mem : Member) : Actor :=
  let w : BitVec 192 := match mem.stall.bind encode with
    | some (.c w) => w.zeroExtend 192
    | _ => 0
  ⟨t, m, .c, .issue, 0, (mem.str .c).pc, w⟩

/-- A logged record of a commit's work (R243, R478). [DEDUCED, log 27] -/
def State.commitRecord (s : State) (t : Nat) (mem : Member) (cause addr : Nat) : State :=
  s.recordFault t { s.info mem cause 2 (BitVec.ofNat 64 addr) 0 with unit := 12 }

/-- What a piece of step 2's work comes to: done, a wait with what is left of it, or an uncorrectable error that fails a replicated task
(R327). -/
inductive WorkEnd where
  | done
  | wait (w : Work)
  | fail

/-- A deferred C store performed (R129, R295, R355): one whose translation is missing, or was when it was executed, is moved to the side log,
and waits where that has no room. -/
def State.commitStore (s : State) (t m : Nat) (tk : Task) (mem : Member) (a : Nat) (bytes : List Byte) (missing : Bool) :
    State × WorkEnd :=
  match s.translateFor tk mem .c a, missing with
  | (some l, m1, s1), false =>
    let pa := l.pa a
    if !l.w then (s1.commitRecord t m1 cProtection a, .done)
    else if !s1.canWrite pa bytes.length then (s1, .fail)
    else match (if l.owned pa then s1.takeOwn ⟨t, m1.rank⟩ pa else some s1) with
      | none => ((s1.splitOwn pa).commitRecord t m1 cSharing a, .done)
      | some s2 => (((s2.wrDev pa bytes).putMember t m (m1.updateLine pa bytes)).spread t m1 fun x => x.updateLine pa bytes, .done)
  | (l, m1, s1), _ =>
    if l.isNone && decide (s.missCause tk.ptroot a = cMemory) then (s1, .fail)
    else if !s1.logRoom m1.core then (s1, .wait (.store m a bytes missing))
    else ((s1.logWrite t m tk m1 a bytes .write none).commitRecord t m1 cTranslation a, .done)

/-- The pieces of a deferred command that writes or changes memory. -/
def commitPieces (tk : Task) (c : Cmd) : Option (Nat × (State → Member → Cmd → Nat → UnitRes)) :=
  match c.instr with
  | .copy _ _ spa i0 cntm1 _ => some (atoms c.desc (cntm1.toNat + 1), copyOutPiece true spa.toNat i0.toNat (cntm1.toNat + 1) tk)
  | .scat _ _ src idx nm1 => some (nm1.toNat + 1, scatPiece true src.toNat idx.toNat tk)
  | .fill _ (.mem _ val vm i0 cntm1) => some (atoms c.desc (cntm1.toNat + 1), fillOutPiece true val vm i0.toNat tk)
  | .cas _ _ recw w64 scope => some (1, fun s mem k _ => casPiece recw w64 scope tk s mem k)
  | i => (accOf i).map fun x => (x.2.2.2.nm1.toNat + 1, accPiece x.1 x.2.1 x.2.2.2 tk)

/-- The byte count of a command added inside the commit, once nothing of the task is left in the side log (R235, R301, R321). [DEDUCED, log 27] -/
def State.commitCount (s : State) (t m : Nat) (tk : Task) (mem : Member) (c : Cmd) : State × WorkEnd :=
  if c.so = 0 then (s, .done)
  else if tk.replicated && s.objectBad tk mem (c.object tk) then (s, .fail)
  else if s.logged t || !s.objectRoom tk mem (c.object tk) then (s, .wait (.count m c))
  else (s.addObject t m tk mem (c.object tk) c.bytes (c.info mem ⟨0, 0, 0⟩ 2 12 0), .done)

/-- A deferred command met a failure that holds it: a record, and the commit waits until the hold is released (R332, R340, R341); an
uncorrectable error fails a replicated task (R327). [DEDUCED, log 27] -/
def State.commitHold (s : State) (t m : Nat) (tk : Task) (mem : Member) (c : Cmd) (e : Trap) : State × WorkEnd :=
  if tk.replicated && e.cause == cMemory then (s, .fail)
  else (s.recordFault t (c.info mem e 1 c.unit c.progress), .wait (.cmd m { c with state := .held e.cause }))

/-- A deferred command performed, or as it stands where it has to wait (R240, R243, R260). -/
def State.commitCmd (s : State) (t m : Nat) (tk : Task) (mem : Member) (c : Cmd) : State × WorkEnd :=
  let s0 := { s with cur := ⟨t, m, c.stream, .perform, c.seq, c.key.addr, c.u1 ++ c.u0⟩ }
  if c.isHeld then (s, .wait (.cmd m c))
  else match commitPieces tk c with
  | some (total, f) =>
    let r := runPieces f total total s0 mem c
    let s1 := r.st.putMember t m r.mem
    match r.res with
    | .full => (s1, .wait (.cmd m r.cmd))
    | .hold e => s1.commitHold t m tk r.mem r.cmd e
    | _ => s1.commitCount t m tk r.mem r.cmd
  | none =>
    match prefixCommit s0 tk mem c with
    | none => (s, .done)
    | some (.wait s1 m1 c1 e) => (s1.putMember t m m1).commitHold t m tk m1 c1 e
    | some (.done s1 m1 addr out) =>
      let put := fun (x : Member) => if x.rank = mem.rank then x.putWords addr out else x
      ((s1.putMember t m m1).modTask t fun k => { k with members := k.members.map put }).commitCount t m tk m1 c

/-- A release or arrival of member m's commit on the object of handle so (R478): it enters the side log where its page has no translation, and
waits where that has no room; one on memory that cannot be reached is dropped with a record (R385). [DEDUCED, log 33] -/
def State.commitObject (s : State) (t m : Nat) (tk : Task) (mem : Member) (w : Work) (so : Nat) (act : LogAct) : State × WorkEnd :=
  let a := tk.objectOf so
  match s.translateFor tk mem .c a with
  | (none, m1, s1) =>
    if s.missCause tk.ptroot a = cMemory then (if tk.replicated then (s1, .fail) else (s1.commitRecord t m1 cMemory a, .done))
    else if !s1.logRoom m1.core then (s1, .wait w)
    else
      let s2 := s1.addLog { id := 0, core := m1.core, ctx := tk.ctx, task := t, member := m, va := a, bytes := [], act, cmd := none
                            so := 0, units := 0 }
      (s2.commitRecord t m1 cTranslation a, .done)
  | (some l, m1, s1) =>
    if !l.w then (s1.commitRecord t m1 cProtection a, .done)
    else if s1.objectOk (l.pa a) then (s1.objectAct t (l.pa a) act, .done)
    else if tk.replicated then (s1, .fail)
    else (s1.commitRecord t m1 cMemory a, .done)

/-- One piece of step 2's work by committer k. -/
def State.performWork (s : State) (t k : Nat) (w : Work) : State × WorkEnd :=
  match s.tasks[t]? with
  | none => (s, .done)
  | some tk =>
    let on (m : Nat) (f : State → Member → State × WorkEnd) : State × WorkEnd :=
      match tk.members[m]? with
      | some mem =>
        let r := f { s with cur := endActor t m mem } mem
        (r.1.writtenBy s t mem.rank true, r.2)
      | none => (s, .done)
    match w with
    | .store m a bytes missing => on m fun s0 mem => s0.commitStore t m tk mem a bytes missing
    | .cmd m c => on m fun s0 mem => s0.commitCmd t m tk mem c
    | .count m c => on m fun s0 mem => s0.commitCount t m tk mem c
    | .release so => on (tk.index k 0) fun s0 mem => s0.commitObject t (tk.index k 0) tk mem w so (.release so)
    | .arrival m so units => on m fun s0 mem => s0.commitObject t m tk mem w so (.arrive so units.toNat)
    | .spawn m sp => on m fun s0 mem =>
        (s0.modQueue sp.q fun x => { x with entries := fillReserved t (mem.rank, sp.num) (spawnRecord sp) x.entries }, .done)
    | .failed => (s, .fail)

/-- Step 2 carried on until its work is done, or waits (R26: every entry of the side log comes first), or fails the task (the Bool). -/
def State.commitWork (s : State) (t k : Nat) : List Work → State × List Work × Bool
  | [] => (s, [], false)
  | w :: r =>
    if s.logged t && w != .failed then (s, w :: r, false)
    else match s.performWork t k w with
      | (s1, .done) => State.commitWork s1 t k r
      | (s1, .wait w1) => (s1, w1 :: r, false)
      | (s1, .fail) => (s1, w :: r, true)

/-- The members of replica k with their indexes, in ascending rank. -/
def Task.crewOf (tk : Task) (k : Nat) : List (Nat × Member) :=
  (List.range tk.crew).filterMap fun r => (tk.members[tk.index k r]?).map fun m => (tk.index k r, m)

/-- A command that accumulates in memory, or a CAS (R240). -/
def isAtomic : Instr → Bool
  | .cas .. => true
  | i => (accOf i).isSome

/-- The deferred work of a member that a test selects. -/
def deferredOf (p : Nat × Member) (keep : Instr → Bool) : List Work :=
  p.2.dwq.filterMap fun d => match d with
    | .cmd c => if keep c.instr then some (.cmd p.1 c) else none
    | .store .. => none

/-- Deferred writes of a member: C stores and S commands, in queue order. -/
def deferredWrites (p : Nat × Member) : List Work :=
  p.2.dwq.filterMap fun d => match d with
    | .store a bs missing => some (.store p.1 a bs missing)
    | .cmd c => if isAtomic c.instr || prefixRow c.instr || tokenRow c.instr then none else some (.cmd p.1 c)

/-- Handles of held locks. -/
def Task.heldLocks (tk : Task) : List Nat :=
  (List.range 64).filter fun i =>
    let h := tk.so.toList.getD i Handle.unbound
    h.kind == SoKind.lock && h.held

/-- The work of step 2 by replica k, in the order of R301; at TDONE every lock still held is released (R150). The byte counts of L commands
come before the releases (R301, R321). [DEDUCED, log 27] -/
def Task.commitList (tk : Task) (k : Nat) : List Work :=
  let ms := tk.crewOf k
  let rels := if tk.commitFinal then tk.heldLocks else (ms.flatMap fun p => p.2.rels).eraseDups
  ms.flatMap deferredWrites ++ (ms.flatMap fun p => deferredOf p isAtomic) ++
    (ms.flatMap fun p => deferredOf p fun i => prefixRow i || tokenRow i) ++ (ms.flatMap fun p => p.2.counts.map (Work.count p.1)) ++
    rels.map Work.release ++
    (ms.flatMap fun p => p.2.arms.map fun a => Work.arrival p.1 a.1 a.2) ++
    ms.flatMap fun p => p.2.spawns.map fun sp => Work.spawn p.1 sp

/-! ## Steps 3 to 7 and the end of a commit (R27, R304, R324, R357) -/

/-- The checkpoint a member's region end leaves (R27, steps 4 to 6). -/
def Member.checkpoint (mem : Member) : Ckpt :=
  let xs := [mem.str .c, mem.str .l, mem.str .s, mem.str .k]
  { g := mem.g, v := mem.v, mb := mem.mb, d := mem.d, lcs := xs.map fun x => (x.lc0, x.lc1)
    pcs := [(mem.str .c).pc + 4, (mem.str .l).pc, (mem.str .s).pc, (mem.str .k).pc] }

/-- Identifiers whose object the task holds (R304). -/
def Task.heldIds (tk : Task) : List Nat :=
  tk.so.toList.flatMap fun h =>
    if (h.kind == SoKind.lock && h.held) || (h.kind == SoKind.barrier && h.holds) then h.ids else []

/-- Steps 3 to 7 (R27): flags, descriptors, checkpoint, entry addresses, discard count; ATTEMPT returns to 0 (R323). -/
def Task.settle (tk : Task) : Task :=
  { tk with
    replicas := (List.range tk.replicas.length).filterMap fun k => (tk.replicas[k]?).map fun r =>
      { r with sticky := (tk.members.filter fun m => m.replica == k).foldl (fun f m => f ||| m.kf) r.sticky }
    members := tk.members.map fun m => { m with ckpt := m.checkpoint }
    discards := 0, attempt := 0 }

/-- What step 2 leaves in the handles and members once its work is done: phases advance (R146), arms return to 0 (R145), held commands
without a match are dropped (R236), replay logs are cleared (R259), lines of held objects are invalidated (R304). -/
def Task.endStep2 (tk : Task) : Task :=
  let seen := (tk.members.flatMap fun m => m.bowaits).eraseDups
  let so := Vector.ofFn fun (i : Fin 64) =>
    let h := tk.so[i]
    { h with arm := false, phase := if seen.contains i.val then h.phase + 1 else h.phase }
  let ids := tk.heldIds
  { tk with
    so := so
    members := tk.members.map fun m =>
      { m with held := [], replay := [], bowaits := [], l1 := m.l1.filter fun l => !ids.contains l.leaf.bind } }

/-- The outvoted replica's state made equal to the committer's (R324). -/
def Task.transplant (tk : Task) (k o : Nat) : Task :=
  { tk with
    replicas := match tk.replicas[k]? with
      | some r => tk.replicas.modify o fun x => { x with sticky := r.sticky }
      | none => tk.replicas
    members := tk.members.map fun m =>
      if m.replica = o then
        match tk.members[tk.index k m.rank]? with
        | some src => { m with ckpt := src.ckpt, spad := src.spad, savedPieces := src.savedPieces }
        | none => m
      else m }

/-- The physical unit lies in an MU range of the task, by a translation its context has used (R357). [DEDUCED, log 36] -/
def State.muUnit (s : State) (tk : Task) (u : Nat) : Bool :=
  s.xlat.any fun e =>
    e.ctx == tk.ctx && decide (e.leaf.base < 65536 * u + 65536) && decide (65536 * u < e.leaf.base + e.leaf.size) &&
      tk.mu.any fun r => within (e.va + (65536 * u - e.leaf.base)) r.1 r.2

/-- Whole units of MU ranges given up at a commit of their owner (R357). [DEDUCED, log 36] -/
def State.releaseMu (s : State) (t : Nat) (tk : Task) : State :=
  if tk.mu.isEmpty then s
  else { s with own := s.own.filter fun u => match u.2 with
    | .whole o _ => !(o.task == t && s.muUnit tk u.1)
    | .split _ => true }

/-! ## Decision records and suspects (R325, R326) -/

/-- The signature of a rank in a replica, 0 where it diverged. -/
def Replica.sigOf (r : Replica) (rank : Nat) : W64 := match r.sigs with
  | some s => s.1.getD rank 0
  | none => 0

/-- Signatures of two replicas differ at a rank; a diverged replica differs from every other. -/
def sigDiffer (a b : Replica) (rank : Nat) : Bool := a.sigs.isNone || b.sigs.isNone || a.sigOf rank != b.sigOf rank

/-- Some two replicas differ at a rank (DIFF). -/
def Task.differ (tk : Task) (rank : Nat) : Bool :=
  (List.range tk.replicas.length).any fun i => (List.range i).any fun j =>
    match tk.replicas[i]?, tk.replicas[j]? with
    | some a, some b => sigDiffer a b rank
    | _, _ => false

/-- Two replicas agree: the signatures of every rank are equal (R321). -/
def Task.agree (tk : Task) (i j : Nat) : Bool :=
  match tk.replicas[i]?, tk.replicas[j]? with
  | some a, some b => (List.range tk.crew).all fun r => !sigDiffer a b r
  | _, _ => false

/-- The member whose region end a decision record names: rank 0 of the lead, or of the first replica that sent signatures. -/
def Task.decider (tk : Task) : Nat :=
  tk.index (((List.range tk.replicas.length).find? fun k => ((tk.replicas[k]?).map fun r => r.sigs.isSome).getD false).getD 0) 0

/-- The lead's record count at the lowest differing rank, none where the lead diverged and sent no trailer. [DEDUCED, log 35] -/
def Task.leadRecords (tk : Task) : Option Nat :=
  let rank := ((List.range tk.crew).find? tk.differ).getD 0
  (tk.replicas[0]?).bind fun r => r.sigs.map fun x => x.2.getD rank 0

/-- Bytes 32 to 63 of a decision record (R325); attempt is that of the compared run. -/
def Task.decisionTail (tk : Task) (kind win attempt nrec : Nat) : BitVec 256 :=
  let rank := ((List.range tk.crew).find? tk.differ).getD 0
  let sig (k : Nat) : W64 := ((tk.replicas[k]?).map fun r => r.sigOf rank).getD 0
  let diff : Nat := ((List.range tk.crew).map fun r => if tk.differ r then 2 ^ r else 0).sum
  let div := tk.replicas.any fun r => r.sigs.isNone
  BitVec.ofNat 32 nrec ++ 0#12 ++ (if div then 1#1 else 0#1) ++ BitVec.ofNat 2 kind ++ BitVec.ofNat 2 win ++ BitVec.ofNat 2 tk.retry
    ++ BitVec.ofNat 2 attempt ++ BitVec.ofNat 3 rank ++ BitVec.ofNat 8 diff ++ sig 2 ++ sig 1 ++ sig 0

/-- A mismatch, vote or replica-failure record (R325); single is the outvoted or diverged replica, 3 for none. What the rule leaves
open is free: the address and word of a region end that no replica reached, the count of a lead that sent no trailer. attempt is the ATTEMPT of the
compared run. [DEDUCED, log 35] -/
def State.decisionRecord (s : State) (t cause kind win single attempt : Nat) : State :=
  match s.tasks[t]? with
  | none => s
  | some tk =>
    match tk.members[tk.decider]? with
    | none => s
    | some mem =>
      let a := endActor t tk.decider mem
      let reached := tk.replicas.any fun r => r.sigs.isSome
      let pc := if reached then a.pc else Config.freeWord s.free
      let word := if reached then a.word else (Config.freeWord (s.free + 1)).setWidth 192
      let nrec := tk.leadRecords.getD (Config.freeWord (s.free + 2)).toNat
      let f : FaultInfo :=
        { cause, cls := 4, stream := 0, rank := 0, replica := single, unit := 14, pc, word, mark := 0, addr := 0, aux := 0 }
      let s1 : State := { s with free := s.free + 3 }
      s1.recordRaw ⟨t, f, some (tk.decisionTail kind win attempt nrec)⟩

/-- The physical core behind a logical core (R2, R439). [DEDUCED, log 58] -/
def State.physical (s : State) (core : Nat) : Nat :=
  let p := 9 * (core / 8) + core % 8
  if s.mgmt.repair.spares.find (core / 8) = some p then 9 * (core / 8) + 8 else p

/-- A physical core marked suspect; at three marks it is to be retired (R326, R440). -/
def State.suspect (s : State) (p : Nat) : State :=
  let r := s.mgmt.repair
  let n := (r.suspects.find p).getD 0 + 1
  let r1 := { r with
    suspects := r.suspects.put p n
    retiring := if 3 ≤ n ∧ r.retiring.contains p = false ∧ r.retired.contains p = false then r.retiring ++ [p] else r.retiring }
  { s with mgmt := { s.mgmt with repair := r1 } }

/-- The cores a vote against replica o marks (R326). -/
def Task.suspects (tk : Task) (o : Nat) : List Nat :=
  match tk.replicas[o]? with
  | none => []
  | some r =>
    match r.stopped with
    | some f => ((tk.members[tk.index o f.rank]?).map (·.core)).toList
    | none => (tk.members.filter fun m => m.replica == o && tk.differ m.rank).map (·.core)

/-! ## Commits (R26, R27, R37, R321) -/

/-- The cycle in which replica k passes the next alignment barrier, which the replicas need not do together (R18, R321). -/
def State.barrierDue (s : State) (tk : Task) (k : Nat) : Nat := s.cycle + 1 + Config.barrierDelay (4 * (tk.seq + 2 ^ 20 * s.cycle) + k)

/-- The replicas of a task before their alignment barriers, each with the cycle of its own. -/
def State.barriers (s : State) (tk : Task) (holding : Bool) : List Replica :=
  tk.replicas.zipIdx.map fun r => { r.1 with atBarrier := true, holding, origin := s.barrierDue tk r.2 }

/-- Task t stands before the alignment barrier of its next region. -/
def State.toBarrier (s : State) (t : Nat) : State :=
  s.modTask t fun k => { k with
    commit := .none, commitFinal := false, commitPending := false, vote := none
    replicas := (s.barriers k true).map fun r => { r with sigs := none, stopped := none, more := [] }
    members := k.members.map Member.rerun }

/-- Reads registered for commands of task t that are held no longer end (R375). -/
def State.dropTaskReaders (s : State) (t : Nat) : State :=
  { s with store := { s.store with readers := s.store.readers.filter fun r => r.task != t } }

/-- A request of task t that a release has passed the lock to, and that no ACQ will complete: the lock goes on to the next (R144). -/
def State.dropRequests (s : State) (t : Nat) : State :=
  let mine := s.lockq.filter fun r => r.task == t
  let s1 := { s with lockq := s.lockq.filter fun r => r.task != t }
  (mine.filter fun r => r.granted).foldl (fun st r => st.passLock r.obj) s1

/-- The releases of an ended task that still wait for room in a side log (R342, R364): the task keeps the handles they name, and performs them
as a commit does. [DEDUCED, log 39] -/
def State.leaveReleases (s : State) (t : Nat) (tk : Task) (w : List Work) : State :=
  if w.isEmpty then s
  else
    let left := fun (i : Nat) => w.any fun x => x == Work.release i
    s.modTask t fun k => { k with
      commit := .step2 0 w
      so := Vector.ofFn fun i : Fin 64 => if left i.val then tk.so[i] else k.so[i] }

/-- Task t moved to FAILED (R342): deferred writes, side-log entries, holds, reservations and armed arrivals are dropped, held locks
released as at TDONE (R150), into the side log where their pages are unmapped, and it ends. e says whether it was terminated or failed as a
replica (R323). [DEDUCED, log 39] -/
def State.failTask (s : State) (t : Nat) (e : Ending) : State :=
  match s.tasks[t]? with
  | none => s
  | some tk =>
    let s1 := ({ s with slog := s.slog.filter fun x => x.task != t }.dropRequests t).dropSpawns t
    let r := tk.heldLocks.foldl (fun (acc : State × List Work) so => match acc.1.performWork t 0 (.release so) with
      | (st, .wait w) => (st, acc.2 ++ [w])
      | (st, _) => (st, acc.2)) (s1, [])
    ((r.1.dropTaskReaders t).endTask t e 0).leaveReleases t tk r.2

/-- A task failed by an uncorrectable error that its committer met in step 2 (R327). -/
def State.failReplica (s : State) (t : Nat) : State :=
  match s.tasks[t]? with
  | none => s
  | some tk => ((s.decisionRecord t 0x12 2 0 3 tk.attempt).discard t).failTask t .failed

/-- The end of a commit whose step 2 is done, by committer k. [DEDUCED, log 53] -/
def State.commitFinish (s : State) (t k : Nat) : State :=
  match s.tasks[t]? with
  | none => s
  | some tk0 =>
    let tk1 := (if tk0.commitPending then tk0 else tk0.settle).endStep2
    let s1 := (s.putTask t tk1).dropTaskReaders t
    let s2 := match tk0.vote with
      | none => s1
      | some o =>
        let s3 := ((s1.putTask t tk0).decisionRecord t 0x11 1 k o.replica o.attempt).putTask t (tk1.transplant k o.replica)
        o.cores.foldl State.suspect s3
    if tk0.commitFinal then s2.endTask t .done k
    else if tk0.termReq then s2.failTask t .terminated
    else (s2.releaseMu t tk1).toBarrier t

/-- A task that finishes a pended commit on its cores leaves PLACING for RUNNING, and its turn comes again (R67). [DEDUCED, log 46] -/
def State.toRunning (s : State) (t : Nat) (i : Instr) : State :=
  { s.modTask t fun k => { k with state := .running } with agenda := .event ⟨t, 0, .c, .issue, 0, 0, 0⟩ .none i :: s.agenda }

/-- Step 2 of task t's commit carried on; at its end the commit ends. A termination that waited for the commit does not wait where the commit
does (R342); an ended task only performs its releases. [DEDUCED, log 27; DEDUCED, log 53] -/
def State.commitStep2 (s : State) (t : Nat) : State :=
  match s.tasks[t]? with
  | none => s
  | some tk =>
    match tk.commit with
    | .step2 k w =>
      let r := s.commitWork t k w
      let done := r.2.1.isEmpty && !r.1.logged t
      if tk.ending.isSome then
        r.1.modTask t fun x => if done then { x with commit := .none, so := Vector.replicate 64 Handle.unbound } else { x with commit := .step2 k r.2.1 }
      else if tk.state = .placing ∧ (r.2.2 ∨ (done ∧ tk.commitFinal)) then
        (r.1.modTask t fun x => { x with commit := .step2 k r.2.1 }).toRunning t .regionCommit
      else if r.2.2 then r.1.failReplica t
      else if done then r.1.commitFinish t k
      else if tk.termReq then (r.1.discard t).failTask t .terminated
      else r.1.modTask t fun x => { x with commit := .step2 k r.2.1 }
    | _ => s

/-- Step 1 (R27): every C store performed and the side log drained. -/
def State.drained (s : State) (t : Nat) (ms : List Member) : Bool := (ms.all fun m => m.stores.isEmpty) && !s.logged t

/-- Step 1 of an unreplicated task's commit, then step 2. [DEDUCED, log 27; DEDUCED, log 53] -/
def State.commitStep1 (s : State) (t : Nat) : State :=
  match s.tasks[t]? with
  | none => s
  | some tk =>
    if tk.commit = .step1 ∧ tk.replicated = false then
      if s.drained t tk.members then s.putTask t { tk with commit := .step2 0 (tk.commitList 0) }
      else if tk.termReq ∧ s.logged t then (s.discard t).failTask t .terminated
      else s
    else s

/-- Every move and operation of the K stream has written its destination and result, and every matrix word its tile or last row
(R160, R212). -/
def Member.kSettled (mem : Member) : Bool :=
  mem.moves.isEmpty && mem.starts.isEmpty && mem.chains.isEmpty && mem.results.isEmpty && mem.jobs.all fun j => j.cmd.isSome

/-- A member's C stream stands at CLOSE (or at TDONE where final) with the other streams at the boundary (R27, R37). -/
def Member.atEnd (mem : Member) (final : Bool) : Bool :=
  let all (x : StreamStatus) : Bool := mem.kSettled && [Stream.l, Stream.s, Stream.k].all fun y => (mem.str y).status == x
  match mem.stall with
  | some .close => !final && all .closed
  | some .tdone => final && all .halted
  | _ => false

/-- The members of a list have all reached their region end with nothing outstanding, the byte counts of an unreplicated task among it; a
semaphore signal of this cycle that overflows keeps the commit from beginning (R27, R48). -/
def endReached (repl : Bool) (ms : List Member) (final : Bool) : Bool :=
  ms.all fun m => m.atEnd final && m.cmds.isEmpty && (repl || m.counts.isEmpty) && m.semEnd.2.isEmpty

/-- Replica k has begun its commit: every member stands at its region end (R27). -/
def Task.begun (tk : Task) (k : Nat) : Bool :=
  ((tk.replicas[k]?).map fun r => !r.atBarrier && (r.sigs.isSome ||
    (r.stopped.isNone && (endReached tk.replicated ((tk.crewOf k).map (·.2)) false || endReached tk.replicated ((tk.crewOf k).map (·.2)) true)))).getD false

/-- The signature of a member (R318 to R320). -/
def Member.signature (mem : Member) : W64 :=
  let trailer := BitVec.ofNat 8 8 :: (mem.recCounts.flatMap fun n => leBytes 4 n)
  crc64 0 (mem.sigC ++ mem.sigL ++ mem.sigS ++ trailer)

/-- Replica k sends its signatures once its members have done step 1 (R321). -/
def State.sendSigs (s : State) (t k : Nat) : State :=
  match s.tasks[t]? with
  | none => s
  | some tk =>
    let ms := (tk.crewOf k).map (·.2)
    match tk.replicas[k]? with
    | none => s
    | some r =>
      let go (final : Bool) : State := s.putTask t { (tk.putReplica k { r with
        sigs := some (ms.map Member.signature, ms.map fun m => m.recCounts.sum) }) with commitFinal := final }
      if r.sigs.isSome || r.stopped.isSome || r.atBarrier || (ms.all fun m => m.stores.isEmpty) == false || s.logged t then s
      else if endReached true ms false then go false
      else if endReached true ms true then go true
      else s

/-- The members at their region end with a token queue that is not empty, in the replica of the first of them (R28, R35). -/
def Task.strayTokens (tk : Task) : List (Nat × Member) :=
  let bad := ((List.range tk.members.length).filterMap fun i => (tk.members[i]?).map fun m => (i, m)).filter fun p =>
    ((tk.replicas[p.2.replica]?).map fun r => r.stopped.isNone).getD false && (p.2.atEnd false || p.2.atEnd true) &&
      p.2.tq.toList.any fun q => !q.isEmpty
  bad.filter fun p => some p.2.replica == bad.head?.map (·.2.replica)

/-- The compare point of a replicated task (R321): it begins once every replica that has not stopped has begun its commit (R26), and is decided
once all of those have sent their signatures. -/
def State.comparePoint (s : State) (t : Nat) : State :=
  let s0 := s.modTask t fun k =>
    let all := (List.range k.replicas.length).all fun i => k.begun i || ((k.replicas[i]?).map fun r => r.stopped.isSome).getD false
    if k.commit = .none ∧ all then { k with commit := .step1 } else k
  match s0.tasks[t]? with
  | none => s
  | some tk =>
    ((List.range tk.replicas.length).foldl (fun st k => st.sendSigs t k) s0).modTask t fun k =>
      if k.replicas.all fun r => r.sigs.isSome || r.stopped.isSome then { k with commit := .deciding } else k

/-- The commit of a running task begins where its members have reached their ends. [DEDUCED, log 53] -/
def State.commitBegin (s : State) (t : Nat) : State :=
  match s.tasks[t]? with
  | none => s
  | some tk =>
    if (tk.commit ≠ .none ∧ ¬ (tk.replicated ∧ tk.commit = .step1)) ∨ tk.state ≠ .running then s
    else match tk.strayTokens with
      | p :: r => (p :: r).foldl (fun st x =>
          let s0 := { st with cur := endActor t x.1 x.2 }
          s0.raiseFor t (s0.info x.2 cSchedule 0 0 8)) s
      | [] =>
        if tk.replicated then s.comparePoint t
        else if (tk.replicas.any fun r => r.atBarrier) then s
        else if endReached false tk.members false then s.putTask t { tk with commit := .step1, commitFinal := false }
        else if endReached false tk.members true then s.putTask t { tk with commit := .step1, commitFinal := true }
        else s

/-- REGION_COMMIT (R27): the commit of the actor's task as far as it goes. [DEDUCED, log 53] -/
def execRegionCommit (s : State) : Res :=
  let t := s.cur.task
  .next (((s.commitBegin t).commitStep1 t).commitStep2 t)

/-! ## Alignment barriers (R18, R29, R34, R336) -/

/-- A member's streams start at the origin of a region. -/
def Member.startAt (mem : Member) (origin : Nat) : Member :=
  { mem with streams := mem.streams.map fun x => { x with base := origin } }

/-- A replica passes its alignment barrier: the next cycle is the origin. [DEDUCED, log 40] -/
def Replica.pass (r : Replica) (origin : Nat) (f : FaultSt) : Replica :=
  { r with atBarrier := false, holding := true, origin, chargeOrigin := r.charge, fault := f }

/-- Task t leaves its cores without a discard (R34). -/
def State.takeOff (s : State) (t : Nat) : State :=
  match s.tasks[t]? with
  | none => s
  | some tk =>
    ((s.leaveCores tk).releaseOwn t).modTask t fun k => { k with
      state := .ready, preemptReq := false, readySince := s.time.ns, unplaced := s.time.ns
      replicas := k.replicas.map fun r => { r with holding := false, atBarrier := false } }

/-- ALIGNMENT_BARRIER (R18): the replicas of the actor's task whose barrier is due pass it; a crew that is to be pre-empted is taken
instead (R34). A task whose context could not be read back takes its fatal fault there (R332). -/
def execAlignmentBarrier (s : State) : Res :=
  let t := s.cur.task
  match s.tasks[t]? with
  | none => .next s
  | some tk =>
    let due := fun (r : Replica) => r.atBarrier && decide (r.origin ≤ s.cycle)
    if tk.commit ≠ .none ∨ (tk.state ≠ .running ∧ tk.state ≠ .placing) ∨ tk.replicas.any due = false then .next s
    else if tk.preemptReq ∧ tk.state = .running then .next (s.takeOff t)
    else
      let passing := fun (m : Member) => ((tk.replicas[m.replica]?).map due).getD false
      let s1 := s.putTask t { tk with
        state := .running, placedOnce := true
        replicas := tk.replicas.map fun r => if due r then r.pass (s.cycle + 1) tk.faultLive else r
        members := tk.members.map fun m => if passing m then m.startAt (s.cycle + 1) else m }
      let f : FaultInfo := { dispatchInfo cMemory 0 (tk.saveVA tk.members.length 0) with aux := 1 }
      if tk.fatal then .next ((s1.recordFault t (f.ofTask tk)).halt t)
      else .next s1

/-! ## Echoes (R314, R315) -/

/-- A follower's echo timeout (R315): its record, and its replica stops (R327). -/
def State.echoTimeout (s : State) (t : Nat) (f : FaultInfo) : State :=
  (s.recordFault t f).modTask t fun k =>
    { k with replicas := k.replicas.modify f.replica fun r => if r.stopped.isSome then r else r.stop f s.cycle }

/-- The lead's member of a rank has executed its CLOSE or TDONE; idle says that its L stream is at its end and its commands have completed too
(R27, R315). -/
def Task.leadEnded (tk : Task) (rank : Nat) (idle : Bool) : Bool :=
  match tk.members[tk.index 0 rank]? with
  | none => false
  | some m => (m.stall == some .close || m.stall == some .tdone) && (!idle || (m.cmds.isEmpty && (m.str .l).status != StreamStatus.running))

/-- The stalled C word of a follower completes with the lead's value. -/
def echoWord (s : State) (tk : Task) (mem : Member) (v : W64) : Res :=
  let m1 := { mem with stall := none }
  match mem.stall with
  | some (.time rd) | some (.cyc rd) | some (.rng rd) | some (.srrd rd _) => cWrite s m1 rd ⟨v, false⟩
  | some (.tspawn rd rs rt) =>
    if v = 1 ∧ 16 ≤ mem.spawns.length then raiseIllegal s mem
    else
      let m2 := tk.sign m1 .c 5 (leBytes 8 (mem.rd rs).val.toNat ++ leBytes 8 (mem.rd rt).val.toNat)
      let m3 := if v = 1 then { m2 with spawns := m2.spawns ++ [⟨m2.spawns.length, tk.queue, (mem.rd rs).val, (mem.rd rt).val⟩] } else m2
      cWrite s m3 rd ⟨v, false⟩
  | some (.acq _) => cDone s m1
  | _ => .next s

/-- The stalled C word waits for an echo. -/
def echoStall (mem : Member) : Bool :=
  match mem.stall with
  | some (.time _) | some (.cyc _) | some (.rng _) | some (.srrd ..) | some (.tspawn ..) | some (.acq _) => !mem.lead
  | _ => false

/-- The first command of L that waits for its echo. -/
def echoCmd (mem : Member) : Option Cmd :=
  mem.cmds.find? fun c => c.state == CmdState.waitAnswer && !mem.lead && (match c.instr with
    | .rxlook .. | .slinfo .. | .nodeinfo .. => true
    | _ => false)

/-- The result record's address of an echoed command. -/
def echoRes : Instr → Nat
  | .rxlook _ p .. | .slinfo _ p | .nodeinfo _ p => 16 * p.res.toNat
  | _ => 0

/-- Containers written from a scratchpad address. -/
def Member.putConts : Member → Nat → List Container → Member
  | mem, _, [] => mem
  | mem, a, c :: r => Member.putConts (mem.setCont (a / 4) c) (a + 4) r

/-- The echo of an L command of a follower. -/
def echoForCmd (s : State) (tk : Task) (mem : Member) (c : Cmd) : Res :=
  let s0 := { s with cur := { s.cur with stream := c.stream, cmd := c.seq, pc := c.key.addr, word := c.u1 ++ c.u0 } }
  let fail := fun (m : Member) => .next ((s0.put m).echoTimeout s0.cur.task (c.info m ⟨cEcho, c.key.addr, 0⟩ 4 c.unit 0))
  match mem.takeEcho c.stream with
  | some (e, m1) =>
    if e.addr ≠ c.key.addr then fail m1
    else
      let a := echoRes c.instr
      afterPieces s0 1 { (spPiece s0 m1 c a (4 * e.data.length) fun m => m.putConts a e.data) with cmd := { c with mark := 1 } }
  | none => if tk.leadEnded mem.rank true then fail mem else .next s

/-- ECHO_ARRIVAL (R314, R315): an echo completes a follower's C word, or its L command; one that does not match, or that will never
come, is a timeout. -/
def execEchoArrival (s : State) : Res :=
  onMember s fun tk mem =>
    if echoStall mem then
      let s0 := { s with cur := endActor s.cur.task s.cur.member mem }
      let fail := fun (m : Member) => .next ((s0.put m).echoTimeout s0.cur.task (s0.info m cEcho 4 s0.cur.pc 0))
      match mem.takeEcho .c with
      | some (e, m1) => if e.addr = s0.cur.pc then echoWord s0 tk m1 e.val else fail m1
      | none =>
        if tk.leadEnded mem.rank false then fail mem
        else match echoCmd mem with
          | some c => echoForCmd s tk mem c
          | none => .next s
    else match echoCmd mem with
      | some c => echoForCmd s tk mem c
      | none => .next s

/-! ## Deadlines (R25, R26, R328) and pre-emption (R33 to R35) -/

/-- The highest charge of the replicas. -/
def Task.maxCharge (tk : Task) : Nat := (tk.replicas.map (·.charge)).foldl max 0

/-- The deadline record of a task (R330, R334). -/
def Task.deadlineInfo (tk : Task) : FaultInfo :=
  { dispatchInfo cDeadline 0 tk.maxCharge with
    replica := ((List.range tk.replicas.length).find? fun k => decide (tk.budget < tk.chargeOf k)).getD 0 }

/-- A commit that waits on the side log is left pending (R26): steps 3 to 7 go into the context, which keeps what is left of steps 1 and 2, and the
task is suspended. -/
def State.pendCommit (s : State) (t : Nat) : State :=
  match s.tasks[t]? with
  | none => s
  | some tk =>
    let tk1 := if tk.commitPending then tk else tk.settle
    (((s.leaveCores tk).recordFault t tk.deadlineInfo).releaseOwn t).putTask t { tk1 with
      state := .suspended, commitPending := true, preemptReq := false
      replicas := tk1.replicas.map fun r => { r with holding := false, atBarrier := false } }

/-- The commit of task t waits on the side log: in step 1, or in step 2 (R26). -/
def State.commitWaits (s : State) (t : Nat) : Bool :=
  ((s.tasks[t]?).map fun (k : Task) => match k.commit with
    | .step1 => s.logged t && !k.replicated
    | .step2 _ _ => k.ending.isNone
    | _ => false).getD false

/-- DEADLINE_FAULT (R25): the actor's task, where some replica's charge exceeds the budget; no word of it issues in this cycle. A commit that
waits on the side log is left pending (R26); any other commit, and an alignment barrier, come to their end first. Of a task that another fault
has suspended in this cycle the deadline fault is recorded too (R35). [DEDUCED, log 27] -/
def execDeadlineFault (s : State) : Res :=
  let t := s.cur.task
  match s.tasks[t]? with
  | none => .next s
  | some tk =>
    if tk.maxCharge ≤ tk.budget then .next s
    else if tk.before.isSome then .next ((s.recordFault t tk.deadlineInfo).putTask t { tk with before := none })
    else if (tk.state ≠ .running ∧ tk.state ≠ .placing) ∨ (tk.replicas.any fun r => r.holding) = false then .next s
    else match tk.commit with
      | .none =>
        if (tk.replicas.any fun r => !r.atBarrier && decide (tk.budget < r.charge)) = false ∨ tk.state ≠ .running then .next s
        else .next ((s.recordDiscard t tk tk.deadlineInfo).halt t)
      | .deciding => .next s
      | _ =>
        let s1 := s.commitStep2 t
        if s1.commitWaits t = false then .next s1
        else if tk.state = .placing then .next (s1.toRunning t .deadlineFault)
        else .next (s1.pendCommit t)

/-- PREEMPTION_DISCARD (R33, R34): the running region of the actor's task is discarded where it may be; during a commit (begun in any
replica), or before the alignment barriers of all replicas, the crew is taken at the next origin. The charge of the region is removed (R24). -/
def execPreemptionDiscard (s : State) : Res :=
  let t := s.cur.task
  match s.tasks[t]? with
  | none => .next s
  | some tk =>
    if tk.state ≠ .running ∨ tk.pre = false ∨ 3 ≤ tk.discards then .next s
    else if tk.commit ≠ .none ∨ (tk.replicas.all fun r => r.atBarrier) ∨ (List.range tk.replicas.length).any tk.begun then .next (s.putTask t { tk with preemptReq := true })
    else
      .next ((s.discard t).takeOff t |>.modTask t fun k => { k with
        discards := tk.discards + 1
        replicas := k.replicas.map fun r => { r with charge := r.chargeOrigin } })

end Sys2Proof.Machine
end

