-- ==== Sys2Proof/Machine/Dispatcher.lean ====
section
/-! DEFINITION. The dispatcher (R7 to R9, R36, R312, R345, R402, R412 to R414), the parapet's decisions (R322, R323, R327), recovery
records (R339 to R343) and power states (R441). -/

namespace Sys2Proof.Machine

/-! ## Reading a task's header (R7 to R9, R357, R409, R476) -/

/-- The limits of R9 that the header alone decides: reserved fields, ranges, alignment. -/
def headerOk (h : BitVec 1024) : Bool :=
  let f (lo n : Nat) : Nat := (h.extractLsb' lo n).toNat
  f 343 1 == 0 && f 351 1 == 0 && f 363 21 == 0 && f 424 24 == 0 && f 583 441 == 0 && f 356 2 != 3 &&
    decide (f 336 7 ≤ 80) && decide (f 344 7 ≤ f 336 7) && f 384 40 != 0 && decide (f 576 7 ≤ 64) &&
    f 0 64 % 4 == 0 && f 64 64 % 16 == 0 && f 128 64 % 16 == 0 && f 192 64 % 16 == 0 && f 256 64 % 16 == 0 && f 512 64 % 32 == 0

/-- What names a launch's header and parameter block: the header's address, the parameter block's where it is not PARAMB, and the bytes
the block may take. -/
structure LaunchPlace where
  hdr : Nat
  param : Option Nat
  limit : Nat

/-- The header and parameter block of a launch record, or of a graph node with its generation (R404, R409). -/
def State.launchPlace (s : State) (tk : Task) : Except (Nat × Nat) LaunchPlace :=
  match tk.graph.bind fun gi => s.graphs[gi]? with
  | none => .ok ⟨tk.hdrVA.toNat, if tk.param = 0 then none else some tk.param.toNat, 2 ^ 16⟩
  | some g =>
    match s.graphImage g.ctx g.image with
    | none => .error (cTranslation, g.image)
    | some (im, _) =>
      match s.graphNode g.ctx g.image im.nodeoff tk.node with
      | none => .error (cTranslation, g.image + im.nodeoff + 16 * tk.node)
      | some (hdr, poff, ok) =>
        if !ok || hdr % 128 ≠ 0 then .error (cIllegal, 0)
        else if poff = 2 ^ 32 - 1 then .ok ⟨hdr, none, 2 ^ 16⟩
        else if poff % 16 ≠ 0 then .error (cIllegal, 0)
        else .ok ⟨hdr, some (g.image + im.parea + g.gen * im.psz + poff), im.psz - poff⟩

/-- The descriptors of an image, 0 beyond it (R8). -/
def descImage (bytes : List Byte) : Vector (BitVec 256) 64 :=
  Vector.ofFn fun i : Fin 64 => BitVec.ofNat 256 (leNat ((bytes.drop (32 * i.val)).take 32))

/-- The members of a task at its first dispatch (R29): no core yet. -/
def firstMembers (h : BitVec 1024) (param : W64) (d : Vector (BitVec 256) 64) : List Member :=
  let f (lo n : Nat) : Nat := (h.extractLsb' lo n).toNat
  let ck := Ckpt.first param (h.extractLsb' 320 16 |>.zeroExtend 64) d
    [h.extractLsb' 0 64, h.extractLsb' 64 64, h.extractLsb' 128 64, h.extractLsb' 192 64]
  (List.range (f 356 2 + 1)).flatMap fun k => (List.range (2 ^ f 352 2)).map fun r => Member.place 0 r k ck

/-- A first dispatch (R7, R9, R476): header, parameter block, descriptor image and constant pool read, or the cause and address of the
refusal. [DEDUCED, log 46] -/
def State.firstDispatch (s : State) (tk : Task) : Except (Nat × Nat) Task :=
  match s.launchPlace tk with
  | .error c => .error c
  | .ok p =>
    match s.ctxRead tk.ctx p.hdr 128 with
    | none => .error ((s.ctxFails tk.ctx p.hdr 128).getD (cTranslation, p.hdr))
    | some hb =>
      let h := BitVec.ofNat 1024 (leNat hb)
      let f (lo n : Nat) : Nat := (h.extractLsb' lo n).toNat
      let param := p.param.getD (f 256 64)
      let psize := f 320 16
      let dlen := if f 512 64 = 0 then 0 else 32 * f 576 7
      if !headerOk h || (p.param.isSome && decide (p.limit < psize)) then .error (cIllegal, 0)
      else
        let pool := (f 192 64 + 2 ^ 64 - 128) % 2 ^ 64
        match s.ctxRead tk.ctx param psize, s.ctxRead tk.ctx (f 512 64) dlen, s.ctxRead tk.ctx pool 128 with
        | some _, some db, some cb =>
          .ok { tk with
            hdrVA := BitVec.ofNat 64 p.hdr, param := BitVec.ofNat 64 param, hdr := h, budget := f 384 40
            pool := (List.range 32).map fun i => BitVec.ofNat 32 (leNat ((cb.drop (4 * i)).take 4))
            members := (firstMembers h (BitVec.ofNat 64 param) (descImage db)).map fun m => m.acquire s
            began := s.past.length
            replicas := List.replicate (f 356 2 + 1) Replica.blank
            poolBytes := if tk.poolBytes = 0 then poolNeed (leNat hb) else tk.poolBytes
            tcpool := if tk.poolBytes = 0 then s.ctxField tk.ctx 72 8 else tk.tcpool }
        | _, _, _ =>
          let bad := [(param, psize), (f 512 64, dlen), (pool, 128)].findSome? fun x => s.ctxFails tk.ctx x.1 x.2
          .error (bad.getD (cTranslation, 0))

/-- A range of the hint table: its first address and bytes, MU, and the cores that keep its translations (R357). -/
structure HintRange where
  va : Nat
  len : Nat
  mu : Bool
  cores : List Nat

/-- The ranges of a hint table from a record on (R357), none where a record is malformed. -/
def State.hintFrom (s : State) : Nat → Nat → Nat → Option (List HintRange)
  | 0, _, _ => some []
  | n + 1, a, low =>
    let r := BitVec.ofNat 256 (s.loadNat a 32)
    let f (lo k : Nat) : Nat := (r.extractLsb' lo k).toNat
    let len := f 64 32 * 4096
    let keeps := [f 112 9, f 121 9, f 130 9, f 139 9].filter fun c => decide (c ≠ 0x1FF)
    if len = 0 then some []
    else if f 57 7 ≠ 0 ∨ f 103 9 ≠ 0 ∨ f 148 108 ≠ 0 ∨ f 0 57 % 4096 ≠ 0 ∨ f 0 57 < low ∨ (f 96 2 = 3 ∧ 12 ≤ f 98 4) then none
    else (State.hintFrom s n (a + 32) (f 0 57 + len)).map fun x => ⟨f 0 57, len, f 102 1 == 1, keeps⟩ :: x

/-- The ranges of the table at a physical address: a malformed table is ignored in full (R357). -/
def State.hintRanges (s : State) (a : Nat) : List HintRange :=
  if a = 0 ∨ a % 64 ≠ 0 then [] else (s.hintFrom 1024 a 0).getD []

/-- A task with what the hint table of its context says at a dispatch: MU ranges, and KEEP ranges with their cores (R357). -/
def Task.withHints (tk : Task) (h : List HintRange) : Task :=
  { tk with
    mu := (h.filter (·.mu)).map fun r => (r.va, r.len)
    keep := h.flatMap fun r => r.cores.map fun c => (r.va, r.len, c) }

/-! ## Cores and pieces a placement may take (R2, R36, R61, R413, R439, R440) -/

/-- The core has not been retired. [DEDUCED, log 58] -/
def State.healthy (s : State) (core : Nat) : Bool := !s.mgmt.repair.retired.contains (s.physical core)

/-- A span in service: four healthy cores or more (R439). [DEDUCED, log 58] -/
def State.spanServes (s : State) (span : Nat) : Bool :=
  decide (4 ≤ ((List.range 8).filter fun i => s.healthy (8 * span + i)).length)

/-- A task other than t runs on the core. -/
def State.busyFor (s : State) (t core : Nat) : Bool :=
  (List.range s.tasks.length).any fun u => u != t && ((s.tasks[u]?).map fun k =>
    k.placed && k.members.any fun m => m.core == core).getD false

/-- The core is reserved for a task other than t (R414). -/
def State.reservedFrom (s : State) (t core : Nat) : Bool := match s.reserve with
  | some r => r.task != t && r.cores.contains core
  | none => false

/-- Pieces of a member's allocation of n pieces that stand on its core. -/
def Member.piecesHere (mem : Member) (n : Nat) : List Nat :=
  (List.range n).filter fun p => !(mem.savedPieces.map (·.1)).contains p

/-- Pieces of waiting tasks other than t on a core: task, member, piece. -/
def State.piecesOn (s : State) (t core : Nat) : List (Nat × Nat × Nat) :=
  (List.range s.tasks.length).flatMap fun u =>
    match s.tasks[u]? with
    | none => []
    | some k =>
      if u == t || k.placed || k.ending.isSome then []
      else (List.range k.members.length).flatMap fun m =>
        match k.members[m]? with
        | none => []
        | some mem => if mem.core == core then (mem.piecesHere k.spadN).map fun p => (u, m, p) else []

/-- A piece whose save has failed counts as occupied (R345). -/
def State.isStuck (s : State) (x : Nat × Nat × Nat) : Bool :=
  ((s.member? x.1 x.2.1).map fun m => m.stuck.contains x.2.2).getD true

/-- The pieces that an allocation of n pieces on a core claims from others, none where it has no room: ten pieces to a bank, the task's
own apart (R36, R61). [DESIGN CHOICE, log 47] -/
def State.claims (s : State) (t core n : Nat) : Option (List (Nat × Nat × Nat)) :=
  let here := s.piecesOn t core
  (List.range 8).foldr (fun b acc =>
    let mine := here.filter fun x => x.2.2 % 8 == b
    let excess := (n + 7 - b) / 8 + mine.length - 10
    let free := mine.filter fun x => !s.isStuck x
    if free.length < excess then none else acc.map fun l => free.take excess ++ l) (some [])

/-- The task has pieces of its own on the core. -/
def Task.ownOn (tk : Task) (core : Nat) : Bool := tk.members.any fun m => m.core == core && !(m.piecesHere tk.spadN).isEmpty

/-! ## Choosing a placement (R312, R413) -/

/-- A crew's place in a span: how many of its cores hold the task's own pieces, how many pieces it claims, and its cores. -/
structure Site where
  own : Nat
  claimed : Nat
  span : Nat
  cores : List Nat

/-- The best place in a span for a crew of task tk (R413); ignore leaves running tasks out of account (R414). -/
def State.siteIn (s : State) (t : Nat) (tk : Task) (ignore : Bool) (span : Nat) : Option Site :=
  let ok := fun (core : Nat) => s.healthy core && !s.mgmt.repair.retiring.contains (s.physical core) &&
    !s.reservedFrom t core && (ignore || !s.busyFor t core)
  let cands := (((List.range 8).map (8 * span + ·)).filter ok).filterMap fun core => (s.claims t core tk.spadN).map fun c =>
    ([if tk.ownOn core then 0 else 1, c.length, core], core)
  if !s.spanServes span || decide (cands.length < tk.crew) then none
  else
    let best := (sortKeyed cands).take tk.crew
    some { own := (best.filter fun x => x.1.head? == some 0).length
           claimed := (best.map fun x => x.1.getD 1 0).sum, span, cores := best.map (·.2) }

/-- The key of a list of sites: most own pieces, fewest claimed, lowest spans (R413). -/
def sitesKey (l : List Site) : List Nat := (100 - (l.map (·.own)).sum) :: (l.map (·.claimed)).sum :: l.map (·.span)

/-- The best place on a die. [DEDUCED, log 58] -/
def State.siteOnDie (s : State) (t : Nat) (tk : Task) (ignore : Bool) (die : Nat) : Option Site :=
  ((sortKeyed ((List.range 8).filterMap fun i => (s.siteIn t tk ignore (8 * die + i)).map fun x => (sitesKey [x], x))).head?).map (·.2)

/-- The sets of dies that the replicas may stand on, class by class in the order of preference (R312). -/
def dieSets : Nat → List (List (List Nat))
  | 0 => [[[0], [1], [2], [3]]]
  | 1 => [[[0, 2], [1, 3]], [[0, 1], [0, 3], [1, 2], [2, 3]]]
  | _ => [[[0, 1, 2], [0, 1, 3], [0, 2, 3], [1, 2, 3]]]

/-- The placement of every replica of task tk: the cores by replica, in ascending die. -/
def State.placement (s : State) (t : Nat) (tk : Task) (ignore : Bool) : Option (List (List Nat)) :=
  let on (dies : List Nat) : Option (List Site) :=
    dies.foldr (fun d acc => match s.siteOnDie t tk ignore d, acc with
      | some x, some l => some (x :: l)
      | _, _ => none) (some [])
  let class_ (sets : List (List Nat)) : Option (List Site) :=
    ((sortKeyed ((sets.filterMap on).map fun l => (sitesKey l, l))).head?).map (·.2)
  ((dieSets tk.repl).filterMap class_).head?.map fun l => l.map (·.cores)

/-- What the dispatcher's attempt at a task comes to. -/
inductive Attempt where
  | refuse (cause addr : Nat)
  | wait
  | go (tk : Task) (cores : List (List Nat))

/-- An attempt to place task t: its first dispatch is refused, or it has to wait, or it can be placed (R9, R402, R413). [DEDUCED, log 46] -/
def State.attempt (s : State) (t : Nat) (ignore : Bool) : Attempt :=
  match s.tasks[t]? with
  | none => .wait
  | some tk0 =>
    let tk1 := tk0.readCtx s
    match (if tk1.members.isEmpty then s.firstDispatch tk1 else .ok tk1) with
    | .error c => .refuse c.1 c.2
    | .ok tk =>
      if tk0.poolBytes = 0 ∧ s.poolRoom tk.ctx tk.poolBytes = false then .wait
      else match s.placement t tk ignore with
        | none => .wait
        | some cores => .go (tk.withHints (s.hintRanges tk.hint)) cores

/-! ## Saving and reading back pieces (R36, R345) -/

/-- A piece taken out of a scratchpad: its containers, and the others. -/
def Member.takePiece (mem : Member) (p : Nat) : Member :=
  let mine := fun (x : Nat × Container) => pieceOf (4 * x.1) == p
  { mem with spad := mem.spad.filter fun x => !mine x, savedPieces := mem.savedPieces ++ [(p, mem.spad.filter mine)] }

/-- An uncorrectable error waits in a container of a piece of a task that does not run (R332, R345). -/
def State.spoilt (s : State) (t m p : Nat) (e : Nat × SoftError) : Bool := match e.2 with
  | .spad t1 m1 ci => t1 == t && m1 == m && decide (e.1 ≤ s.cycle) && pieceOf (4 * ci) == p
  | _ => false

/-- The containers of a piece that meet an uncorrectable error while it is saved: those with an error of their own, and those whose bytes cannot
be written (R345). -/
def State.saveBad (s : State) (t m p pa : Nat) (x : Nat × Container) : Bool :=
  (s.errors.any fun e => s.spoilt t m p e && (match e.2 with
    | .spad _ _ ci => ci == x.1
    | _ => false)) || !s.canWrite (pa + x.1 * 4 % 4096) 4

/-- Some container of a piece, an invalid one too, meets an uncorrectable error while the piece is saved (R345). -/
def State.saveSpoilt (s : State) (t m p pa : Nat) : Bool := (s.errors.any fun e => s.spoilt t m p e) || !s.canWrite pa 4096

/-- A claimed piece written to its save area; where the write fails translation it stays, with a notice against its task; containers that meet an
uncorrectable error are lost, with a notice (R36, R345). [DESIGN CHOICE, log 47] -/
def State.savePiece (s : State) (x : Nat × Nat × Nat) : State × Bool :=
  match s.tasks[x.1]?, s.member? x.1 x.2.1 with
  | some tk, some mem =>
    let va := tk.saveVA x.2.1 x.2.2
    let notice := fun (cause : Nat) => { dispatchInfo cause 3 va with rank := mem.rank, replica := mem.replica }
    match s.ctxPa tk.ctx va true with
    | some pa =>
      let bad := s.saveBad x.1 x.2.1 x.2.2 pa
      let m1 := { mem with spad := mem.spad.filter fun c => !(pieceOf (4 * c.1) == x.2.2 && bad c) }
      let s1 := if s.saveSpoilt x.1 x.2.1 x.2.2 pa then s.recordFault x.1 (notice cMemory) else s
      ({ s1.putMember x.1 x.2.1 (m1.takePiece x.2.2) with errors := s.errors.filter fun e => !s.spoilt x.1 x.2.1 x.2.2 e }, true)
    | none =>
      ((s.recordFault x.1 (notice cTranslation)).putMember x.1 x.2.1 { mem with stuck := mem.stuck ++ [x.2.2] }, false)
  | _, _ => (s, true)

/-- Every piece of a list saved; false where one of them could not be. -/
def State.savePieces (s : State) (l : List (Nat × Nat × Nat)) : State × Bool :=
  l.foldl (fun r x => let q := r.1.savePiece x
    (q.1, r.2 && q.2)) (s, true)

/-- A saved piece as it is read back: containers whose bytes meet an uncorrectable error come back invalid; the Bool says that the piece met
one (R345). -/
def State.readPiece (s : State) (pa : Option Nat) (conts : SMap Container) : SMap Container × Bool :=
  match pa with
  | none => (conts, false)
  | some a =>
    let bad := fun (x : Nat × Container) => !s.rangeOk (a + x.1 * 4 % 4096) 4
    (conts.filter fun x => !bad x, !s.rangeOk a 4096)

/-- The saved pieces of member m read back (R36, R345). -/
def State.readBack (s : State) (t m : Nat) : State :=
  match s.tasks[t]?, s.member? t m with
  | some tk, some mem =>
    mem.savedPieces.foldl (fun st p =>
      let va := tk.saveVA m p.1
      let r := st.readPiece (st.ctxPa tk.ctx va false) p.2
      let st1 := if r.2 then st.recordFault t { dispatchInfo cMemory 3 va with rank := mem.rank, replica := mem.replica } else st
      st1.modMember t m fun x => { x with spad := r.1.foldl (fun a c => a.put c.1 c.2) x.spad })
      (s.modMember t m fun x => { x with savedPieces := [], stuck := [] })
  | _, _ => s

/-- How many physical pieces of bank b of a core a context has had (R61, R62). -/
def State.piecesHad (s : State) (ctx core b : Nat) : Nat := (((s.cores.find core).bind fun c => c.ctxs.find ctx).bind fun l => l[b]?).getD 0

/-- Pieces of bank b of a core that tasks of a context, one member apart, hold there now (R62). -/
def State.piecesHeld (s : State) (ctx t m core b : Nat) : Nat :=
  ((s.tasks.zipIdx.filter fun k => k.1.ctx == ctx && k.1.ending.isNone).flatMap fun k =>
    (k.1.members.zipIdx.filter fun x => x.1.core == core && !(k.2 == t && x.2 == m)).map fun x =>
      ((x.1.piecesHere k.1.spadN).filter fun p => p % 8 == b).length).sum

/-- Which of some pieces of a bank stand on physical pieces that the context has had: as many as are left of those, which ones is a free value
(R62). -/
def reusedPieces (s : State) : Nat → Nat → List Nat → List Nat
  | _, 0, _ => []
  | _, _, [] => []
  | i, k + 1, p :: r =>
    if (Config.freeWord (s.free + i)).getLsbD 0 then p :: reusedPieces s (i + 1) k r else reusedPieces s (i + 1) (k + 1) r

/-- The pieces of an allocation of n pieces of member m of task t on a core, bank by bank, that stand on physical pieces its context has had
(R62), and the state past the free values. [DESIGN CHOICE, log 4; DESIGN CHOICE, log 47] -/
def State.reused (s : State) (ctx t m core n : Nat) : List (List Nat) × State :=
  ((List.range 8).map fun b =>
      reusedPieces s (10 * b) (s.piecesHad ctx core b - s.piecesHeld ctx t m core b) ((List.range n).filter fun p => p % 8 == b),
    { s with free := s.free + 80 })

/-- The first contents of an allocation (R62): a piece that the context has not had on the core reads as zero with valid clear, the others hold free
values. [DESIGN CHOICE, log 4; DESIGN CHOICE, log 47] -/
def State.firstSpad (s : State) (had : List Nat) : SMap Container × State :=
  if had.isEmpty then ([], s)
  else
    let cells := (List.range 81920).filter fun i => had.contains (pieceOf (4 * i))
    let cont (i : Nat) : Container :=
      let w := Config.freeWord (s.free + i)
      ⟨w.extractLsb' 0 32, w.getLsbD 32, w.getLsbD 33⟩
    ((cells.map fun i => (i, cont i)).filter fun x => decide (x.2 ≠ Container.none), { s with free := s.free + 81920 })

/-- How many physical pieces of every bank of a core a context has had once an allocation of n pieces stands there, of which some are reused
(R61, R62). -/
def State.hadNow (s : State) (ctx core n : Nat) (reused : List (List Nat)) : List Nat :=
  (List.range 8).map fun b => min 10 (s.piecesHad ctx core b + ((List.range n).filter fun p => p % 8 == b).length - (reused.getD b []).length)

/-! ## Placing a task -/

/-- The cores of a replica's ranks: a rank keeps a core that holds its pieces, the others take the rest in ascending order. -/
def Task.coresByRank (tk : Task) (k : Nat) (cores : List Nat) : List Nat :=
  let keeps (r : Nat) : Option Nat :=
    match tk.members[tk.index k r]? with
    | some m => if cores.contains m.core && !(m.piecesHere tk.spadN).isEmpty then some m.core else none
    | none => none
  let kept := (List.range tk.crew).filterMap keeps
  let rest := (sortKeyed ((cores.filter fun c => !kept.contains c).map fun c => ([c], c))).map (·.2)
  ((List.range tk.crew).foldl (fun acc r => match keeps r with
    | some c => (acc.1 ++ [c], acc.2)
    | none => (acc.1 ++ acc.2.take 1, acc.2.drop 1)) (([] : List Nat), rest)).1

/-- Member m of task t put on a core: what the core kept is there for it (R302, R351), and its pieces are (R36, R62). -/
def State.putOnCore (s : State) (t m core : Nat) (first : Bool) : State :=
  match s.tasks[t]?, s.member? t m with
  | some tk, some mem =>
    let c : CoreSave := (s.cores.find core).getD ⟨[], [], [], [], []⟩
    let stays := !first && mem.core == core && mem.savedPieces.isEmpty
    let reused := if stays then ((List.range 8).map fun b => (List.range tk.spadN).filter fun p => p % 8 == b, s)
      else s.reused tk.ctx t m core tk.spadN
    let init := if first then reused.2.firstSpad reused.1.flatten else (mem.spad, reused.2)
    let s1 := init.2.putMember t m
      { mem with core := core, spad := init.1, l1 := c.l1, tlbC := c.tlbC, tlbL := c.tlbL, tlbS := c.tlbS }
    let c1 : CoreSave := { c with ctxs := c.ctxs.put tk.ctx (s.hadNow tk.ctx core tk.spadN reused.1) }
    let s2 : State := { s1 with cores := s1.cores.put core c1 }
    s2.readBack t m
  | _, _ => s

/-- Reading a task's context back from its pool meets an uncorrectable error (R66, R332): 16 KiB, and 4 KiB for each member (R402). [DESIGN CHOICE,
log 47] -/
def State.contextBad (s : State) (tk : Task) : Bool :=
  (List.range (4 + tk.members.length)).any fun i => match s.ctxPa tk.ctx (tk.saveVA tk.members.length i) false with
    | some pa => !s.rangeOk pa 4096
    | none => false

/-- Task t, as it has been loaded, put on its cores (R24, R26, R67): PLACING until its alignment barrier is passed. A task with a commit
pending finishes that first, for which it is charged; it becomes RUNNING at its barrier, or before where the pended commit ends the task or comes
to a deadline again (R67). [DEDUCED, log 46] -/
def State.putOnCores (s : State) (t : Nat) (tk : Task) (cores : List (List Nat)) : State :=
  let first := ((s.tasks[t]?).map fun k => k.members.isEmpty).getD false
  let where_ := (List.range cores.length).flatMap fun k => (tk.coresByRank k (cores.getD k [])).zipIdx.map fun c =>
    (tk.index k c.2, c.1)
  let tk1 := { tk with
    state := .placing, before := none, preemptReq := false, fatal := tk.fatal || (!first && s.contextBad tk)
    replicas := if tk.commitPending then tk.replicas.map fun r => { r with holding := true, atBarrier := false } else s.barriers tk false }
  let s1 := { s.putTask t tk1 with reserve := match s.reserve with
    | some r => if r.task = t then none else some r
    | none => none }
  where_.foldl (fun st x => st.putOnCore t x.1 x.2 first) s1

/-- The pieces that a placement claims. [DESIGN CHOICE, log 47] -/
def State.claimsOf (s : State) (t : Nat) (tk : Task) (cores : List (List Nat)) : List (Nat × Nat × Nat) :=
  cores.flatten.flatMap fun c => (s.claims t c tk.spadN).getD []

/-! ## The order of placements (R412) -/

/-- PRIO of a task: its header's, read from memory before its first dispatch. -/
def State.prioOf (s : State) (tk : Task) : Nat :=
  if tk.members.isEmpty then
    match s.launchPlace tk with
    | .ok p => ((s.ctxNat tk.ctx p.hdr 128).getD 0) / 2 ^ 360 % 8
    | .error _ => 0
  else tk.prio

/-- The effective priority of a READY task. -/
def State.effPrio (s : State) (tk : Task) : Nat :=
  let agep := s.regs.agep.toNat
  min 7 (s.prioOf tk + if agep = 0 then 0 else (s.time.ns - tk.readySince) / 1000 / agep)

/-- The READY tasks of a level: queue, and place in the queue's order. -/
def State.readyAt (s : State) (p : Nat) : List (Nat × List Nat × Nat) :=
  (List.range s.tasks.length).filterMap fun t => match s.tasks[t]? with
    | some k => if k.state == TaskState.ready && s.effPrio k == p then some (k.queue, [k.seq, k.node], t) else none
    | none => none

/-- The credit of a queue at a level. -/
def State.credit (s : State) (p q : Nat) : Int := ((s.credits.find? fun c => c.1 == p && c.2.1 == q).map (·.2.2)).getD 0

/-- The queues of a level by descending credit and weight, the lowest first on equal values. -/
def State.queueOrder (s : State) (p : Nat) (qs : List Nat) : List Nat :=
  let w (q : Nat) : Int := s.credit p q + (s.queueAt q).weight
  let rank (q : Nat) : Nat := (qs.filter fun r => decide (w q < w r)).length
  (sortKeyed (qs.map fun q => ([rank q, q], q))).map (·.2)

/-- The READY tasks of a level in the order of place_next. -/
def State.levelOrder (s : State) (p : Nat) : List Nat :=
  let ready := s.readyAt p
  (s.queueOrder p (ready.map (·.1)).eraseDups).flatMap fun q =>
    (sortKeyed ((ready.filter fun x => x.1 == q).map (·.2))).map (·.2)

/-- Every READY task in the order in which the dispatcher tries them, with its level. -/
def State.dispatchOrder (s : State) : List (Nat × Nat) :=
  ([7, 6, 5, 4, 3, 2, 1, 0] : List Nat).flatMap fun p => (s.levelOrder p).map fun t => (p, t)

/-- The credits after a placement of a task of queue q at level p. -/
def State.creditPlacement (s : State) (p q : Nat) : State :=
  let qs := ((s.readyAt p).map (·.1)).eraseDups
  let total : Int := (qs.map fun r => ((s.queueAt r).weight : Int)).sum
  let new (r : Nat) : Int := s.credit p r + (s.queueAt r).weight - if r = q then total else 0
  { s with credits := (s.credits.filter fun c => !(c.1 == p && qs.contains c.2.1)) ++ qs.map fun r => (p, r, new r) }

/-- The tasks other than t that could have been placed count as placeable up to now (R414). -/
def State.notePlaceable (s : State) (t : Nat) : State :=
  let can (u : Nat) : Bool := match s.attempt u false with
    | .go _ _ => true
    | _ => false
  (s.dispatchOrder.map (·.2)).foldl (fun st u => if u != t && can u then st.modTask u fun k => { k with unplaced := s.time.ns } else st) s

/-- The first task in order that need not wait. -/
def State.firstAttempt (s : State) : Option (Nat × Nat × Attempt) :=
  s.dispatchOrder.findSome? fun x => match s.attempt x.2 false with
    | .wait => none
    | a => some (x.1, x.2, a)

/-- REPL of a task is not 0: by its header, read from memory where it has not been loaded. -/
def State.replHeader (s : State) (tk : Task) : Bool :=
  if tk.members.isEmpty then
    match s.launchPlace tk with
    | .ok p => ((s.ctxNat tk.ctx p.hdr 128).getD 0) / 2 ^ 356 % 4 != 0
    | .error _ => false
  else tk.replicated

/-- Task t refused before T0 (R9): one record, and it ends as failed. -/
def State.refuseTask (s : State) (t cause addr : Nat) : State :=
  let wide := ((s.tasks[t]?).map s.replHeader).getD false
  (s.recordFault t { dispatchInfo cause 0 addr with replica := if wide then 3 else 0 }).endTask t .refused 0

/-- TASK_PLACEMENT (R7, R9, R412, R413): the first task in order that can be placed is; one whose dispatch is refused ends. A placement
whose claimed pieces cannot be saved does not take place (R345). -/
def execTaskPlacement (s : State) : Res :=
  match s.firstAttempt with
  | some (_, t, .refuse c a) => .next (s.refuseTask t c a)
  | some (p, t, .go tk cores) =>
    let r := s.savePieces (s.claimsOf t tk cores)
    if r.2 then .next (((r.1.notePlaceable t).creditPlacement p tk.queue).putOnCores t tk cores) else .next r.1
  | _ => .next s

/-- PLACEMENT_RESERVATION (R414): the first task in order that has been unplaceable for PDELAY reserves the placement it would have if
nothing ran. -/
def execPlacementReservation (s : State) : Res :=
  if s.reserve.isSome then .next s
  else
    let late (t : Nat) : Option Reserve :=
      match s.tasks[t]?, s.attempt t false, s.attempt t true with
      | some k, .wait, .go _ cores => if k.unplaced + s.regs.pdelay.toNat ≤ s.time.ns then some ⟨t, cores.flatten⟩ else none
      | _, _, _ => none
    match s.dispatchOrder.findSome? fun x => late x.2 with
    | some r => .next { s with reserve := some r }
    | none => .next s

/-! ## The parapet (R321 to R323, R327) -/

/-- What the replicas' signatures come to (R322, R327). -/
inductive Verdict where
  | fault
  | commit (k : Nat) (out : Option Nat)
  | mismatch

/-- The decision table. [DEDUCED, log 35] -/
def Task.verdict (tk : Task) : Verdict :=
  match tk.replicas.head?.bind (·.stopped) with
  | some f =>
    if tk.replicas.all fun r => (r.stopped.map f.alike).getD false then .fault
    else if tk.repl = 2 && tk.agree 1 2 then .commit 1 (some 0) else .mismatch
  | none =>
    if tk.repl = 1 then (if tk.agree 0 1 then .commit 0 none else .mismatch)
    else if tk.agree 0 1 then .commit 0 (if tk.agree 0 2 then none else some 2)
    else if tk.agree 0 2 then .commit 0 (some 1)
    else if tk.agree 1 2 then .commit 1 (some 0)
    else .mismatch

/-- The one replica that diverged, 3 where not exactly one did (R325). -/
def Task.diverged (tk : Task) : Nat :=
  match (List.range tk.replicas.length).filter fun k => ((tk.replicas[k]?).map fun r => r.stopped.isSome).getD false with
  | [k] => k
  | _ => 3

/-- A task whose region ran into a mismatch placed anew, or left on its cores where no other placement can be had (R67, R323). [DEDUCED, log 46] -/
def State.replace (s : State) (t : Nat) : State :=
  match s.tasks[t]? with
  | none => s
  | some tk =>
    let stay := (List.range tk.nrepl).map fun k => (tk.crewOf k).map fun p => p.2.core
    match s.placement t tk false with
    | none => s.putOnCores t tk stay
    | some cores =>
      let r := s.savePieces (s.claimsOf t tk cores)
      r.1.putOnCores t tk (if r.2 then cores else stay)

/-- A mismatch (R323): a record, then a retry, a suspension or the end of the task. [DEDUCED, log 46] -/
def State.mismatch (s : State) (t : Nat) : State :=
  match s.tasks[t]? with
  | none => s
  | some tk =>
    if tk.attempt < tk.retry then
      let s1 := ((s.decisionRecord t 0x10 0 0 tk.diverged tk.attempt).discard t).releaseOwn t
      (s1.modTask t fun k => { k with attempt := tk.attempt + 1 }).replace t
    else if tk.rpol then
      ((s.decisionRecord t 0x10 0 0 tk.diverged tk.attempt).halt t).modTask t fun k => { k with attempt := 0 }
    else (s.decisionRecord t 0x12 2 0 tk.diverged tk.attempt).failTask t .failed

/-- The faults of a cycle in which every replica has stopped, one for those that replicas raised alike (R35, R327); one raised by every replica
singles none out (R334). -/
def Task.sharedFaults (tk : Task) : List FaultInfo :=
  let all := tk.replicas.flatMap fun r => r.stopped.toList ++ r.more
  let once := all.foldl (fun acc f => if acc.any fun g => g.replica != f.replica && g.alike f then acc else acc ++ [f]) []
  once.map fun f => if tk.replicas.all fun r => (r.stopped.toList ++ r.more).any f.alike then { f with replica := 3 } else f

/-- A fault that every replica raised alike: one record, with the other faults of its cycle (R35, R327), and the task is suspended. -/
def State.sharedFault (s : State) (t : Nat) (tk : Task) : State := (tk.sharedFaults.foldl (fun st f => st.recordFault t f) s).halt t

/-- PARAPET_DECISION (R322, R323, R327): the decision on the region of the actor's task, once every replica has sent its signatures or
stopped. A commit begins its step 2 at once; a vote keeps what its record and its marks will need (R325, R326). -/
def execParapetDecision (s : State) : Res :=
  let t := s.cur.task
  match s.tasks[t]? with
  | none => .next s
  | some tk =>
    if tk.state ≠ .running ∨ tk.commit ≠ .deciding then .next s
    else match tk.verdict with
      | .commit k out =>
        let vote := out.map fun o => Vote.mk o tk.attempt ((tk.suspects o).map s.physical)
        .next ((s.putTask t { tk with commit := .step2 k (tk.commitList k), vote }).commitStep2 t)
      | v =>
        if tk.termReq then .next ((s.discard t).failTask t .terminated)
        else match v with
          | .fault => .next (s.sharedFault t tk)
          | _ => .next (s.mismatch t)

/-! ## Recovery records (R339 to R343) -/

/-- The task a recovery record names: by its arbiter number and node, in a context. -/
def State.target (s : State) (ctx seq node : Nat) : Option Nat :=
  (List.range s.tasks.length).find? fun t => ((s.tasks[t]?).map fun k => k.seq == seq && k.node == node && k.ctx == ctx).getD false

/-- A recovery record taken from its queue and performed where its writer may (R339): one of another task is refused with a notice. -/
def State.recovery (s : State) (q : Nat) (x : Queue) (e : QEntry) (r : BitVec 512) (f : State → State) : State :=
  let s1 := (s.popHead q).stamp (.accept (recKind r) q)
  let svc := s.ctxField x.ctx 40 8
  let s2 := match e.writer with
    | .host => f s1
    | .task w =>
      if ((s.tasks[w]?).map fun (k : Task) => svc != 0 && k.hdrVA.toNat == svc).getD false then f s1
      else ((s1.tasks[w]?).map fun k => s1.recordFault w ((dispatchInfo cPrivilege 3 0).ofTask k)).getD s1
  s2.interrupt q (recIrq r)

/-- Every hold of a member released (R236). -/
def Member.releaseAll (mem : Member) : Member := { mem with held := mem.held.map fun h => { h with released := true } }

/-- The commands of a commit's step 2 that hold and that a test selects go on: they are performed again in full (R332, R340, R341). -/
def Task.releaseWork (tk : Task) (f : Nat → Cmd → Bool) : Task :=
  match tk.commit with
  | .step2 k w =>
    let go := fun (x : Work) => match x with
      | .cmd m c => if c.isHeld && f m c then Work.cmd m { c with state := .deferred } else x
      | _ => x
    { tk with commit := .step2 k (w.map go) }
  | _ => tk

/-- RESUME (R340): a SUSPENDED task gets its budget, its holds are released, its side log is tried, and it is READY. [DEDUCED, log 48] -/
def execResume (s : State) : Res :=
  onHead s 7 (fun _ _ r => decide (recWord r 2 < 2 ^ 16) && decide (recWord r 3 < 2 ^ 40) && recTail r == 0) fun q x e r =>
    s.recovery q x e r fun s1 =>
      match s1.target x.ctx (recWord r 1) (recWord r 2) with
      | none => s1
      | some t =>
        match s1.tasks[t]? with
        | none => s1
        | some tk =>
          if tk.state ≠ .suspended ∨ tk.fatal then s1
          else
            let s2 := s1.putTask t { tk.releaseWork fun _ _ => true with
              budget := if recWord r 3 = 0 then tk.budget else recWord r 3, members := tk.members.map Member.releaseAll }
            (((tk.members.map (·.core)).eraseDups).foldl State.retryCore s2).resumeTask t

/-- A command holds in the unit that a RESUME-CHANNEL names. -/
def heldIn (u : Nat) (c : Cmd) : Bool := c.isHeld && c.unit == u

/-- The hold of a unit released: a running command goes on at once; one held over a discard at its re-run. -/
def Member.releaseUnit (mem : Member) (u cycle : Nat) : Member :=
  { mem with
    cmds := mem.cmds.map fun c => if heldIn u c then { c with state := .active cycle } else c
    held := mem.held.map fun h => if h.cmd.unit == u then { h with released := true } else h }

/-- The unit of a member holds; a hold released already, which only awaits its command, does not count. -/
def Member.unitHeld (mem : Member) (u : Nat) : Bool := (mem.cmds.any (heldIn u)) || mem.held.any fun h => h.cmd.unit == u && !h.released

/-- A command of the commit's step 2 holds in a unit of a rank. -/
def Task.workHeld (tk : Task) (rank u : Nat) : Bool :=
  match tk.commit with
  | .step2 _ w => w.any fun x => match x with
    | .cmd m c => heldIn u c && ((tk.members[m]?).map (·.rank)) == some rank
    | _ => false
  | _ => false

/-- A hold of the units of a rank released in every replica, or its side logs tried again; a suspended task is READY then (R341). -/
def State.releaseChannel (s : State) (t rank u : Nat) : State :=
  match s.tasks[t]? with
  | none => s
  | some tk =>
    let ms := tk.members.filter fun m => m.rank == rank
    if u = 12 then
      if ms.any fun m => s.slog.any fun e => e.core == m.core then
        (((ms.map (·.core)).eraseDups).foldl State.retryCore s).resumeTask t
      else s
    else if 5 ≤ u ∧ u ≤ 11 ∧ (ms.any (·.unitHeld u) ∨ tk.workHeld rank u) then
      let tk1 := tk.releaseWork fun m c => c.unit == u && ((tk.members[m]?).map (·.rank)) == some rank
      (s.putTask t { tk1 with members := tk.members.map fun m => if m.rank = rank then m.releaseUnit u s.cycle else m }).resumeTask t
    else s

/-- RESUME-CHANNEL (R341). [DEDUCED, log 48] -/
def execResumeChannel (s : State) : Res :=
  onHead s 8 (fun _ _ r => decide (recWord r 2 < 2 ^ 23) && recWord r 3 == 0 && recTail r == 0) fun q x e r =>
    s.recovery q x e r fun s1 =>
      let w := recWord r 2
      match s1.target x.ctx (recWord r 1) (w % 2 ^ 16) with
      | none => s1
      | some t =>
        let fatal := ((s1.tasks[t]?).map (·.fatal)).getD false
        if fatal then s1 else s1.releaseChannel t (w / 2 ^ 16 % 8) (w / 2 ^ 19 % 16)

/-- A node of a graph that has not been launched is moved to FAILED (R12, R342). [DEDUCED, log 48] -/
def State.failNode (s : State) (ctx seq node : Nat) : State :=
  { s with graphs := s.graphs.map fun g =>
      if g.ctx == ctx && g.seq == seq && !g.retired && decide (node < g.nnode) && !g.doneNodes.contains node &&
          !g.liveNodes.contains node && !g.failedNodes.contains node then { g with failedNodes := g.failedNodes ++ [node] }
      else g }

/-- The commit of a task is in progress, does not wait, and completes before a termination (R34, R342). -/
def State.commitEnds (s : State) (t : Nat) (tk : Task) : Bool :=
  tk.state == TaskState.running && match tk.commit with
    | .deciding => true
    | .step1 => !s.logged t
    | _ => false

/-- Task t terminated (R342): at once, or after the commit in progress. Step 2 is carried on first: where it does not wait, its commit completes
and its effects stand; where it waits, on the side log or otherwise, the rest of it is dropped. [DEDUCED, log 48] -/
def State.terminate (s : State) (t : Nat) : State :=
  let s1 := if ((s.tasks[t]?).map fun k => k.ending.isNone && k.state == TaskState.running).getD false then s.commitStep2 t else s
  match s1.tasks[t]? with
  | none => s1
  | some tk =>
    if tk.ending.isSome then s1
    else if s1.commitEnds t tk then s1.putTask t { tk with termReq := true }
    else (s1.discard t).failTask t .terminated

/-- TERMINATE (R342). [DEDUCED, log 48] -/
def execTerminate (s : State) : Res :=
  onHead s 9 (fun _ _ r => decide (recWord r 2 < 2 ^ 16) && recWord r 3 == 0 && recTail r == 0) fun q x e r =>
    s.recovery q x e r fun s1 =>
      match s1.target x.ctx (recWord r 1) (recWord r 2) with
      | none => s1.failNode x.ctx (recWord r 1) (recWord r 2)
      | some t => s1.terminate t

/-! ## Power (R441) -/

/-- No core of a span runs a task. -/
def State.spanIdle (s : State) (span : Nat) : Bool :=
  !s.tasks.any fun k => k.placed && k.members.any fun m => m.core / 8 == span

/-- POWER (R404, R405, R441): only the host may write it, to a queue with ADMIN; the state is accepted, and IRQ waits for the spans.
Those on which nothing runs change at once, before anything is placed. -/
def execPower (s : State) : Res :=
  onHead s 10 (fun x e r => (e.writer == Writer.host) && x.cfg.getLsbD 13 && decide (recWord r 1 < 8) && recWord r 2 == 0 &&
      recWord r 3 == 0 && recTail r == 0) fun q _ _ r =>
    let s1 := (s.popHead q).stamp (.accept 10 q)
    let irqs := if recIrq r then s1.power.irqs ++ [q] else s1.power.irqs
    let s2 : State := { s1 with power := { s1.power with accepted := recWord r 1, irqs } }
    if s2.power.spans.all fun x => x == recWord r 1 then
      irqs.foldl (fun st v => st.interrupt v true) { s2 with power := { s2.power with irqs := [] } }
    else
      let idle := (List.range s2.power.spans.length).filter fun i => s2.spanIdle i
      { s2 with agenda := (idle.map fun i => Turn.event ⟨0, 0, .c, .issue, 0, 0, 0⟩ (.num i) .spanPowerChange) ++ s2.agenda }

/-- SPAN_POWER_CHANGE (R6, R441): an idle span takes the state accepted last; the interrupts waiting for the spans are sent when every
span has changed. [DEDUCED, log 37] -/
def execSpanPowerChange (s : State) : Res :=
  match s.arg with
  | .num span =>
    if s.spanIdle span then
      let spans := s.power.spans.set span s.power.accepted
      let s1 : State := { s with power := { s.power with spans } }
      if spans.all fun x => x == s.power.accepted then
        .next (s.power.irqs.foldl (fun st v => st.interrupt v true) { s1 with power := { s1.power with irqs := [] } })
      else .next s1
    else .next s
  | _ => .next s

end Sys2Proof.Machine
end

