-- ==== Sys2Proof/Machine/Leases.lean ====
section
/-! DEFINITION. Device time and the lease tick count (R252, R362, R377, R429, R430). -/

namespace Sys2Proof.Machine

/-- Device time set, in nanoseconds. -/
def State.setTime (s : State) (ns : Nat) : State := { s with time := { s.time with ns := ns } }

/-- The tick count that device time calls for: it never falls (R362). [DEDUCED, log 44] -/
def State.dueTick (s : State) : Nat := max s.time.tick (s.time.ns / 1024)

/-- The base of the offsets that a tick count belongs to. -/
def tickBase (k : Nat) : Nat := k / 32768 * 32768

/-- The base advanced, and every EXP and LAGE reduced by as much, clamped at 0 (R252). -/
def State.rebaseTo (s : State) (base : Nat) : State :=
  let d := base - s.time.base
  { s with
    time := { s.time with base := base, tick := max s.time.tick base }
    store := { s.store with
      leases := s.store.leases.map fun l => { l with exp := l.exp - d }
      nodes := s.store.nodes.map fun p => (p.1, { p.2 with lage := p.2.lage - d }) } }

/-- A lease that expired ends (R377); room that waits on a lease of another device waits 4,000 ns longer (R430). [DEDUCED, log 44] -/
def State.expire (s : State) (l : Lease) : State :=
  let s1 := s.endLease l
  if l.ctx.isSome then s1
  else { s1 with store := { s1.store with
    guards := s1.store.guards ++ [(l.node, l.tier, (s.time.base + l.exp) * 1024 + Config.guardBand)] } }

/-- A tick boundary: the count, then the end of every lease whose EXP is at or below NOW (R377). [DEDUCED, log 44] -/
def State.tickTo (s : State) (k : Nat) : State :=
  let s1 := { s with time := { s.time with tick := k } }
  (s1.store.leases.filter fun l => decide (l.exp ≤ s1.nowTick)).foldl State.expire s1

/-- The tick count follows device time: every rebase it passes, then expiry (R362). -/
def State.followTicks (s : State) : State :=
  let k := s.dueTick
  ((if s.time.base < tickBase k then s.rebaseTo (tickBase k) else s).tickTo k)

/-- LEASE_REBASE (R252, R362): at the tick boundary the base advances by 32,768. -/
def execLeaseRebase (s : State) : Res :=
  .next (if s.time.base + 32768 ≤ s.dueTick then s.rebaseTo (s.time.base + 32768) else s)

/-- LEASE_EXPIRY (R377): at the tick boundary, once every rebase has been performed. -/
def execLeaseExpiry (s : State) : Res := .next (if s.time.base < tickBase s.dueTick then s else s.tickTo s.dueTick)

/-- DEVICE_TIME_STEP (R362): device time steps forward or back, and the tick count follows. -/
def execDeviceTimeStep (s : State) : Res :=
  match s.arg with
  | .delta d => .next ((s.setTime ((s.time.ns : Int) + d).toNat).followTicks)
  | _ => .next s

end Sys2Proof.Machine
end

