-- ==== Sys2Proof/Machine/Fabric.lean ====
section
/-! DEFINITION. Fjostan links, the block directory, remote leases and copies, time messages and far-memory ports (R417 to R434). -/

namespace Sys2Proof.Machine

/-- An event that a message brings. [DEDUCED, log 57] -/
def onMsg (s : State) (f : Msg → Option State) : Res :=
  match s.arg with
  | .msg m => .next ((f m).getD s)
  | _ => .next s

/-! ## The name home (R423 to R425) -/

/-- This device is the name home of a name. -/
def State.homeHere (s : State) (n : Name) : Bool := s.homeOf n == s.regs.devid

/-- REGISTER at the name home (R423, R425). -/
def execRegister (s : State) : Res :=
  onMsg s fun m => match m with
    | .register n d => if s.homeHere n then some (s.modFabric fun f => f.register n d) else none
    | _ => none

/-- UNREGISTER at the name home (R425). -/
def execUnregister (s : State) : Res :=
  onMsg s fun m => match m with
    | .unregister n d => if s.homeHere n then some (s.modFabric fun f => f.unregister n d) else none
    | _ => none

/-- LOOKUP at the name home: answered with the holders (R424). -/
def execLookup (s : State) : Res :=
  onMsg s fun m => match m with
    | .lookup n asker => some (s.send asker (.holders n (s.fabric.holdersOf n)))
    | _ => none

/-! ## Requests and the commands they serve (R420, R426, R427) -/

/-- The command a request serves, with its task and member; none where its region has been discarded. -/
def State.servedBy (s : State) (t m seq : Nat) : Option (Task × Member × Cmd) :=
  match s.tasks[t]?, s.member? t m with
  | some tk, some mem => (mem.cmds.find? fun c => c.seq == seq).map fun c => (tk, mem, c)
  | _, _ => none

/-- A request taken off the list. -/
def State.dropReq (s : State) (r : Request) : State := s.modFabric fun f => { f with reqs := f.reqs.erase r }

/-- The remote business of a command that is gone ends: its leases are freed (R427). -/
def State.forgetRemote (s : State) (t m seq : Nat) : State :=
  let mine := fun (a b d : Nat) => a == t && b == m && d == seq
  let s1 := (s.fabric.held.filter fun l => mine l.task l.member l.cmd).foldl
    (fun st l => st.send l.source (.rlfree l.name st.regs.devid l.id)) s
  s1.modFabric fun f => { f with
    held := f.held.filter fun l => !mine l.task l.member l.cmd
    reqs := f.reqs.filter fun l => !mine l.task l.member l.cmd
    copies := f.copies.filter fun l => !mine l.task l.member l.cmd }

/-- A REPL ends with a status and a node (R256, R270, R427). -/
def State.endRepl (s : State) (t m seq status : Nat) (node : W32) : Res :=
  match s.servedBy t m seq with
  | some (_, mem, c) =>
    match c.instr with
    | .repl _ p => replFinish s t m mem c p (result16 status node 0)
    | _ => .next (s.forgetRemote t m seq)
  | none => .next (s.forgetRemote t m seq)

/-- A LOOKUP answered with a list of holders (R426). [DESIGN CHOICE, log 43] -/
def State.answerLookup (s : State) (r : Request) (devs : List (BitVec 20)) : Res :=
  let s1 := s.dropReq r
  match s1.servedBy r.task r.member r.cmd with
  | some (tk, mem, c) =>
    match c.instr with
    | .rxlook _ p .. => rxAnswered s1 r.task r.member tk mem c p devs
    | _ => .next s1
  | none => .next s1

/-- A request of some kinds to a device, under a name. -/
def Request.fits (r : Request) (kinds : List ReqKind) (nm : Name) (src : Option (BitVec 20)) : Bool :=
  kinds.contains r.kind && r.name == nm && (src.map fun d => r.dest == d).getD true

/-- The request an answer of some kinds is for: one of the same name, else any of its sender's. The answers of a plane come in the order of their
requests, so that one under the name of a request given up as unanswered is that one's, and comes too late (R420). [DESIGN CHOICE, log 43] -/
def State.requestFor (s : State) (kinds : List ReqKind) (nm : Name) (src : Option (BitVec 20)) : Option Request :=
  if s.fabric.late.any fun r => r.fits kinds nm src then none
  else match s.fabric.reqs.find? fun r => r.fits kinds nm src with
    | some r => some r
    | none => s.fabric.reqs.find? fun r => r.fits kinds r.name src

/-- An answer that came too late leaves the list of those awaited no longer. [DESIGN CHOICE, log 43] -/
def State.dropLate (s : State) (kinds : List ReqKind) (nm : Name) (src : Option (BitVec 20)) : State :=
  s.modFabric fun f => { f with late := match f.late.find? fun r => r.fits kinds nm src with
    | some r => f.late.erase r
    | none => f.late }

/-- The request under a lease that a message names (R427). -/
def State.underLease (s : State) (kind : ReqKind) (src : BitVec 20) (id : W32) : Option Request :=
  s.fabric.reqs.find? fun r => r.kind == kind && r.dest == src && r.lease == id

/-- A message under a lease whose request has been given up comes too late (R420). -/
def State.dropLease (s : State) (kind : ReqKind) (src : BitVec 20) (id : W32) : State :=
  s.modFabric fun f => { f with late := f.late.filter fun r => !(r.kind == kind && r.dest == src && r.lease == id) }

/-- HOLDERS (R426): an answer of another name counts as an empty list. -/
def execHolders (s : State) : Res :=
  match s.arg with
  | .msg (.holders n devs) =>
    match s.requestFor [.lookup] n none with
    | some r => s.answerLookup r (if r.name = n then devs else [])
    | none => .next (s.dropLate [.lookup] n none)
  | _ => .next s

/-! ## The image of a block (R427): the record, then the parent's name, the identifiers, the planes, the scales and the summaries. The
order is the model's own (notes/assumptions) -/

/-- Bytes of the image before its planes. -/
def imageHead : Nat := 256 + 16 + 1024

/-- Bytes of the image of a block. [DESIGN CHOICE, log 43] -/
def imageSize (g : Geom) : Nat := imageHead + 2 * (g.l * 256 * (g.h * g.c * g.elem)) + 2 * (g.l * g.h) + g.l * 16 * g.h * (2 * g.c)

/-- The name of a node's parent: name(0) of its chain for the first block. -/
def State.parentName (s : State) (n : Node) : Name :=
  (((n.jumps[0]?).join.bind fun k => s.store.nodes.find k).map (·.name)).getD n.root

/-- The image of a node. [DESIGN CHOICE, log 43] -/
def State.image (s : State) (n : Node) : List Byte :=
  leBytes 256 n.record ++ leBytes 16 (s.parentName n).toNat ++ n.ids.flatMap (fun w => leBytes 4 w.toNat) ++ n.body

/-- Bytes [o, o + n) of a list. -/
def slice (b : List Byte) (o n : Nat) : List Byte := (b.drop o).take n

/-- A plane of an image from offset o. -/
def readPlane (g : Geom) (b : List Byte) (o : Nat) : SMap (List (BitVec 16)) :=
  let w := g.h * g.c * g.elem
  mapFrom 0 ((List.range (256 * g.l)).map fun i => (List.range (g.h * g.c)).map fun e =>
    BitVec.ofNat 16 (leNat (slice b (o + i * w + e * g.elem) g.elem)))

/-- Scales of an image from offset o. -/
def readScales (g : Geom) (b : List Byte) (o : Nat) : SMap Int :=
  (List.range g.l).flatMap fun l => mapFrom (16 * l) ((List.range g.h).map fun h => (b.getD (o + l * g.h + h) 0).toInt)

/-- Summaries of an image from offset o. -/
def readSums (g : Geom) (b : List Byte) (o : Nat) : SMap (List (BitVec 8 × BitVec 8)) :=
  (List.range (16 * g.l)).flatMap fun i => mapFrom (16 * i) ((List.range g.h).map fun h => (List.range g.c).map fun e =>
    let a := o + ((i * g.h + h) * g.c + e) * 2
    (b.getD a 0, b.getD (a + 1) 0))

/-- The geometry that an image's record gives. -/
def imageGeom (b : List Byte) : Geom :=
  let r := BitVec.ofNat 2048 (leNat (slice b 0 256))
  let f (lo n : Nat) : Nat := (r.extractLsb' lo n).toNat
  ⟨f 152 8 + 1, f 160 4 + 1, 16 * (f 164 4 + 1), f 144 1 == 1⟩

/-- The node of an image as a REPL inserts it (R250, R270), with the name of its parent. [DESIGN CHOICE, log 43] -/
def nodeOfImage (b : List Byte) (evc : BitVec 2) (now : Nat) : Node × Name :=
  let r := BitVec.ofNat 2048 (leNat (slice b 0 256))
  let g := imageGeom b
  let plane := g.l * 256 * (g.h * g.c * g.elem)
  let sc := imageHead + 2 * plane
  ({ pages := [], cpages := [], name := r.extractLsb' 0 128, depth := (r.extractLsb' 128 12).toNat, kvf := g.kvf, evc, res := 2#3, lm1 := g.l - 1, hm1 := g.h - 1
     cm1 := (r.extractLsb' 164 4).toNat, homedev := r.extractLsb' 168 20, refc := 0, lsh := 0, ldr := 0, lch := 0, lage := now
     fchild := none, nsib := none, jumps := [], gh := (List.range 16).map fun j => r.extractLsb' (768 + 64 * j) 64
     root := r.extractLsb' 1792 128, ids := (List.range 256).map fun i => BitVec.ofNat 32 (leNat (slice b (272 + 4 * i) 4))
     keys := readPlane g b imageHead, vals := readPlane g b (imageHead + plane), kscale := readScales g b sc
     vscale := readScales g b (sc + g.l * g.h), sums := readSums g b (sc + 2 * (g.l * g.h)) },
   BitVec.ofNat 128 (leNat (slice b 256 16)))

/-! ## The source (R428) -/

/-- The tier from which another device is served: the drawer, else the chest, none for a node of the shelf alone. -/
def Node.remoteTier (n : Node) : Option Nat := if n.inTier 1 then some 1 else if n.inTier 2 then some 2 else none

/-- RLEASE at the source (R428). -/
def execRlease (s : State) : Res :=
  onMsg s fun m => match m with
    | .rlease nm reader ticks =>
      let me := s.regs.devid
      match s.nodeNamed nm with
      | none => some (s.send reader (.rldeny nm me false))
      | some (k, n) =>
        match n.remoteTier with
        | none => some (s.send reader (.rldeny nm me false))
        | some t =>
          let r := s.grantLease none reader k n t ticks.toNat
          if r.1.status = 0 then some (r.2.send reader (.rlgrant nm me r.1.id (BitVec.ofNat 16 r.1.ticks)))
          else some (r.2.send reader (.rldeny nm me true))
    | _ => none

/-- A live lease that another device holds on a name. -/
def State.remoteLease (s : State) (nm : Name) (reader : BitVec 20) (id : W32) : Option (Lease × Node) :=
  (s.store.leases.find? fun l => l.id == id.toNat && l.ctx.isNone && l.dev == reader && decide (s.nowTick < l.exp)).bind fun l =>
    (s.store.nodes.find l.node).bind fun n => if n.name = nm then some (l, n) else none

/-- RLRENEW at the source (R427). -/
def execRlrenew (s : State) : Res :=
  onMsg s fun m => match m with
    | .rlrenew nm reader id ticks =>
      let me := s.regs.devid
      match s.remoteLease nm reader id with
      | none => some (s.send reader (.rldeny nm me false))
      | some (l, _) =>
        let e := min (s.nowTick + ticks.toNat) 65535
        let s1 := { s with store := { s.store with leases := s.store.leases.map fun x => if x = l then { x with exp := e } else x } }
        some ((s1.modNode l.node fun n => { n with lage := s.nowTick }).send reader (.rlgrant nm me id (BitVec.ofNat 16 (e - s.nowTick))))
    | _ => none

/-- RLFREE at the source (R428). -/
def execRlfree (s : State) : Res :=
  onMsg s fun m => match m with
    | .rlfree nm reader id => (s.remoteLease nm reader id).map fun l => s.endLease l.1
    | _ => none

/-- The lines of a node's planes that hold bytes [off, off + len) of its image. [DESIGN CHOICE, log 60] -/
def State.imageLines (s : State) (k : Nat) (n : Node) (off len : Nat) : List ShelfLine :=
  s.linesOf k n (off - imageHead) (off + len - max off imageHead)

/-- READ at the source: bytes only while the lease is live, spread over the planes in service (R372, R420, R427). -/
def execRead (s : State) : Res :=
  onMsg s fun m => match m with
    | .read nm reader id off len =>
      let me := s.regs.devid
      match s.remoteLease nm reader id with
      | none => some (s.send reader (.rldeny nm me false))
      | some (l, n) => some ((s.readPlanes (s.imageLines l.node n off len)).sendData reader nm id off (slice (s.image n) off len))
    | _ => none

/-! ## The reader (R270, R427, R430) -/

/-- The moment until which a remote lease may be used (R430). -/
def RemoteLease.lastUse (l : RemoteLease) : Nat := l.sent + l.ticks * 1024 - Config.guardBand

/-- A remote lease may be used. -/
def State.usable (s : State) (l : RemoteLease) : Bool := s.time.inSync && decide (s.time.ns ≤ l.lastUse)

/-- The lease and the copy of a command. -/
def State.heldFor (s : State) (t m seq : Nat) : Option RemoteLease :=
  s.fabric.held.find? fun l => l.task == t && l.member == m && l.cmd == seq
def State.copyFor (s : State) (t m seq : Nat) : Option RemoteCopy :=
  s.fabric.copies.find? fun l => l.task == t && l.member == m && l.cmd == seq

/-- A READ for bytes [off, off + len) of the block a command copies. -/
def State.askBytes (s : State) (r : Request) (l : RemoteLease) (off len : Nat) : State :=
  let s1 := s.send l.source (.read l.name s.regs.devid l.id off len)
  s1.modFabric fun f => { f with reqs := f.reqs ++ [{ r with name := l.name, kind := .read, dest := l.source, plane := s.planeOf l.name, sent := s.time.ns, lease := l.id }] }

/-- RLGRANT (R427, R430): the answer of an RLEASE starts the copy; that of an RLRENEW extends the lease. One of another name is a
miss. -/
def execRlgrant (s : State) : Res :=
  match s.arg with
  | .msg (.rlgrant nm src id ticks) =>
    let late := s.fabric.late.any fun r => r.kind == ReqKind.rlrenew && r.dest == src && r.lease == id
    match (s.underLease .rlrenew src id).or (if late then none else s.requestFor [.rlease] nm (some src)) with
    | none => .next (if late then s.dropLease .rlrenew src id else s.dropLate [.rlease] nm (some src))
    | some r =>
      if r.name ≠ nm then s.endRepl r.task r.member r.cmd 4 noneWord
      else
        let s1 := s.dropReq r
        match r.kind with
        | .rlrenew => .next (s1.modFabric fun f => { f with held := f.held.map fun l =>
            if l.task = r.task ∧ l.member = r.member ∧ l.cmd = r.cmd then { l with sent := r.sent, ticks := ticks.toNat } else l })
        | _ =>
          let l : RemoteLease :=
            { name := nm, source := src, id, sent := r.sent, ticks := ticks.toNat, task := r.task, member := r.member, cmd := r.cmd }
          let s2 := s1.modFabric fun f => { f with
            held := f.held ++ [l], copies := f.copies ++ [⟨nm, r.task, r.member, r.cmd, [], imageHead⟩] }
          match s2.servedBy r.task r.member r.cmd with
          | none => .next (s2.forgetRemote r.task r.member r.cmd)
          | some _ =>
            if s2.usable l then .next (s2.askBytes r l 0 imageHead) else s2.endRepl r.task r.member r.cmd 4 noneWord
  | _ => .next s

/-- RLDENY (R427): the command misses. [DESIGN CHOICE, log 43] -/
def execRldeny (s : State) : Res :=
  match s.arg with
  | .msg (.rldeny nm src _) =>
    match s.requestFor [.rlease, .rlrenew, .read] nm (some src) with
    | none => .next (s.dropLate [.rlease, .rlrenew, .read] nm (some src))
    | some r => s.endRepl r.task r.member r.cmd 4 noneWord
  | _ => .next s

/-- The block of a REPL inserted as SEAL inserts (R270, R380): the local parent, which the room made for the block does not take, its root,
room in the drawer, then the existence check at the name's trestle. A status other than OK and DEDUP changes nothing (R256). [DEDUCED, log 23] -/
def State.insertCopy (s : State) (t m : Nat) (ctx : Nat) (c : Cmd) (bytes : List Byte) : Res :=
  let x := nodeOfImage bytes (BitVec.ofNat 2 (c.w 1)) s.nowTick
  match s.nodeNamed x.2 with
  | none => s.endRepl t m c.seq 12 noneWord
  | some (p, pn) =>
    if !s.permitted ctx pn.root then s.endRepl t m c.seq 10 noneWord
    else match s.roomFor x.1.geom.block (some p) with
      | none => s.endRepl t m c.seq 5 noneWord
      | some s1 =>
        match s1.nodeNamed x.1.name with
        | some (e, en) =>
          if en.geom ≠ x.1.geom then s.endRepl t m c.seq 8 noneWord else s1.endRepl t m c.seq 1 (BitVec.ofNat 32 e)
        | none =>
          match s1.freeNode with
          | none => s.endRepl t m c.seq 5 noneWord
          | some k =>
            let die := ((s.member? t m).map (·.dieOf)).getD 0
            if !s1.store.dieRoom die x.1.geom.pages then s.endRepl t m c.seq 5 noneWord
            else (s1.insertNode k x.1 (some p) die).endRepl t m c.seq 0 (BitVec.ofNat 32 k)

/-- DATA (R427, R430): bytes of the block under the lease of a READ, taken while the lease may be used; its last byte ends the copy. [DESIGN CHOICE,
log 43] -/
def execData (s : State) : Res :=
  match s.arg with
  | .msg (.data nm src id off bytes) =>
    match s.underLease .read src id with
    | none => .next (s.dropLease .read src id)
    | some r =>
      let t := r.task
      let m := r.member
      match s.heldFor t m r.cmd, s.copyFor t m r.cmd, s.servedBy t m r.cmd with
      | some l, some y, some (tk, _, c) =>
        if r.name ≠ nm ∨ s.usable l = false then s.endRepl t m r.cmd 4 noneWord
        else
          let put := (List.range bytes.length).foldl (fun acc i =>
            if off + i < y.size then SMap.put acc (off + i) (bytes.getD i 0) else acc) y.bytes
          let s1 := s.dropReq r
          let keep (st : State) (z : RemoteCopy) : State := st.modFabric fun f => { f with copies := f.copies.map fun w => if w = y then z else w }
          if put.length < y.size then
            .next ((keep s { y with bytes := put }).modFabric fun f => { f with
              reqs := f.reqs.map fun q => if q = r then { r with sent := s.time.ns } else q })
          else
            let all := put.map (·.2)
            let size := imageSize (imageGeom all)
            if y.size < size then .next ((keep s1 { y with bytes := put, size := size }).askBytes r l y.size (size - y.size))
            else if (BitVec.ofNat 128 (leNat (slice all 0 16)) : Name) ≠ nm then s1.endRepl t m r.cmd 4 noneWord
            else s1.insertCopy t m tk.ctx c all
      | _, _, _ => .next (s.forgetRemote t m r.cmd)
  | _ => .next s

/-- A lease is due for renewal: less than half of its granted time remains, and no renewal is on its way (R427). -/
def State.renewDue (s : State) (l : RemoteLease) : Bool :=
  decide (l.sent + l.ticks * 1024 < s.time.ns + l.ticks * 512) &&
    !(s.fabric.reqs.any fun r => r.kind == ReqKind.rlrenew && r.task == l.task && r.member == l.member && r.cmd == l.cmd)

/-- REMOTE_LEASE_RENEW (R427): the first lease that is due is renewed for 4,096 ticks. -/
def execRemoteLeaseRenew (s : State) : Res :=
  match s.fabric.held.find? s.renewDue with
  | none => .next s
  | some l =>
    let s1 := s.send l.source (.rlrenew l.name s.regs.devid l.id 4096)
    .next (s1.modFabric fun f => { f with
      reqs := f.reqs ++ [⟨l.name, .rlrenew, l.source, s.planeOf l.name, s.time.ns, l.task, l.member, l.cmd, l.id⟩] })

/-- REMOTE_LEASE_HOLDER_EXPIRY (R430): the first lease that may be used no longer; its command misses. -/
def execRemoteLeaseHolderExpiry (s : State) : Res :=
  match s.fabric.held.find? fun l => decide (l.lastUse < s.time.ns) with
  | none => .next s
  | some l => s.endRepl l.task l.member l.cmd 4 noneWord

/-! ## Unanswered requests, ports and links (R417, R418, R420, R432, R434) -/

/-- DIRECTORY_TIMEOUT (R420): the first request unanswered for DIRTO counts as a miss, and in the status of the plane it
was sent on (R432). -/
def execDirectoryTimeout (s : State) : Res :=
  match s.fabric.reqs.find? fun r => decide (r.sent + Config.dirTimeout ≤ s.time.ns) with
  | none => .next s
  | some r =>
    let s1 := match r.plane with
      | some p => s.modPort p fun x => { x with timeout := bump16 x.timeout 1 }
      | none => s
    let s2 := s1.modFabric fun f => { f with late := f.late ++ [r] }
    match r.kind with
    | .lookup => s2.answerLookup r []
    | _ => s2.endRepl r.task r.member r.cmd 4 noneWord

/-- LINK_REPLAY (R418, R419, R432): what the other end of a port's link does: a flit that arrives, and on virtual channel 3 the highest sequence
number it has taken, a refusal that makes this device replay, or a stop signal. [DEDUCED, log 62] -/
def execLinkReplay (s : State) : Res :=
  match s.arg with
  | .link p e => .next (s.modPort p fun x => x.link e)
  | _ => .next s

/-- What the ports have taken since the last cycle: the buffers are emptied, and every message that is whole by now is to be acted on (R418,
R419). [DESIGN CHOICE, log 62] -/
def State.takeFlits (s : State) : State × List (Instr × Arg) :=
  let l := s.fabric.ports.map fun x => if x.rx.isEmpty then (x, []) else Port.messages (x.parts.length + x.rx.length) x.drain
  (s.modFabric fun f => { f with ports := l.map (·.1) }, l.flatMap (·.2))

/-- FJOSTAN_PORT_STATE_CHANGE (R417, R432): a port goes down, trains at 8 or 4 lanes, enters service, where its waiting flits go out, or leaves
it. -/
def execFjostanPortStateChange (s : State) : Res :=
  match s.arg with
  | .portState p st w =>
    if st = 2 ∧ w ≠ 1 ∧ w ≠ 2 then .next s
    else .next (s.modPort p fun x =>
      { x with state := st, width := if st = 2 then w else 0, tries := if st = 2 then 0 else x.tries }.pump)
  | _ => .next s

/-- FAR_MEMORY_PORT_STATE_CHANGE (R434): a far-memory port goes out of service or returns. -/
def execFarMemoryPortStateChange (s : State) : Res :=
  match s.arg with
  | .farPort p up => .next (s.modFabric fun f => if p = 0 then { f with chest0 := up } else if p = 1 then { f with chest1 := up } else f)
  | _ => .next s

/-- PORT_STATUS_WRITE (R432): REPLAY, CRCERR and TIMEOUT are cleared together. -/
def execPortStatusWrite (s : State) : Res :=
  match s.arg with
  | .num p => .next (s.modPort p fun x => { x with replay := 0, crcerr := 0, timeout := 0 })
  | _ => .next s

/-! ## Time (R429, R431) -/

/-- TIME_MESSAGE (R429): a message of the configured reference, from a device of the domain where that is the Fjostan, sets device time, with
the measured link delay added, and the offset estimate, and may bring the unit in sync. [DEDUCED, log 44] -/
def execTimeMessage (s : State) : Res :=
  match s.arg with
  | .timeMsg ref sender ns delay offset =>
    if s.mgmt.cfg.timeRef ≠ ref ∨ (ref = .fjostan ∧ s.inDomain sender = false) then .next s
    else
      let at_ := if ref = .fjostan then ns + delay else ns
      let s1 := (s.setTime at_).followTicks
      .next { s1 with time := { s1.time with lastSync := at_, offset, inSync := s1.time.inSync || decide (offset < 1000) } }
  | _ => .next s

/-- The unit is to leave sync: its offset, or the age of its last synchronisation (R429). -/
def State.syncLost (s : State) : Bool :=
  s.time.inSync && (decide (1000 ≤ s.time.offset) || decide (s.time.lastSync + 2 * s.mgmt.cfg.syncInt ≤ s.time.ns))

/-- A remote lease voided: its command misses, and RLFREE is sent (R431). [DEDUCED, log 44] -/
def State.voidLease (s : State) (l : RemoteLease) : State :=
  match s.endRepl l.task l.member l.cmd 4 noneWord with
  | .next s1 => s1
  | _ => s

/-- The notice of a context whose leases were voided. [DEDUCED, log 44] -/
def State.noticeVoided (s : State) (held : List RemoteLease) (ctx : Nat) : State :=
  let mine := held.filter fun l => ((s.tasks[l.task]?).map (·.ctx)) == some ctx
  match mine with
  | [] => s
  | l :: _ => ((s.tasks[l.task]?).map fun k => s.recordFault l.task ((dispatchInfo cLeaseLost 3 mine.length).ofTask k)).getD s

/-- SYNC_LOSS (R429, R431): every remote lease held is voided, with one notice to each context concerned. -/
def execSyncLoss (s : State) : Res :=
  if !s.syncLost then .next s
  else
    let held := s.fabric.held
    let s1 := held.foldl State.voidLease { s with time := { s.time with inSync := false } }
    let ctxs := (held.filterMap fun l => (s.tasks[l.task]?).map (·.ctx)).eraseDups
    .next (ctxs.foldl (fun st c => st.noticeVoided held c) s1)

/-- The status word of Fjostan port p, read through the management interface (R432, R435). -/
def State.portWord (s : State) (p : Nat) : Option W64 := (s.fabric.ports[p]?).map Port.word

end Sys2Proof.Machine
end

