-- ==== Sys2Proof/Machine/Management.lean ====
section
/-! DEFINITION. The management core (R435 to R442): boot, measurements, SPDM, the configuration record, spares, retirement, thermal
clamps; the HBM stacks (R386 to R394), soft errors (R332), and the status words and registers that are read (R394, R400). -/

namespace Sys2Proof.Machine

/-- The management part changed. -/
def State.modMgmt (s : State) (f : Mgmt → Mgmt) : State := { s with mgmt := f s.mgmt }

/-- A management event (R311, R435); what is the model's own number for its sort. -/
def State.manage (s : State) (what value : Nat) : State := s.stamp (.management what value)

/-- The sorts of management events. [DESIGN CHOICE, log 41] -/
def evTested : Nat := 1
def evTestSkipped : Nat := 2
def evBankParked : Nat := 3
def evScrub : Nat := 4
def evRetired : Nat := 5
def evClamped : Nat := 6
def evReleased : Nat := 7
def evStackFailed : Nat := 8
def evRepairLost : Nat := 9

/-! ## Boot (R436, R439) -/

/-- A digest as bytes, the first one first. -/
def digestBytes (d : BitVec 384) : List Byte := beBytes 48 d.toNat

/-- An extend: M := SHA-384(M ‖ digest) (R437). -/
def extended (m digest : BitVec 384) : BitVec 384 := BitVec.ofNat 384 (beNat (sha384 (digestBytes m ++ digestBytes digest)))

/-- Register i of the measurement registers extended. -/
def Mgmt.extend (g : Mgmt) (i : Nat) (d : BitVec 384) : Mgmt :=
  if h : i < 16 then { g with meas := g.meas.set i (extended g.meas[i] d) } else g

/-- The registers that a boot extends, with their digests (R436): register 0 with the first-stage image's, 1 to 7 with those of the later images, and
8 with the configuration record's, which stands last. A boot that fails at a step (0: none fails) has taken those checked before it; one that fails
at step 3 leaves at least one image unchecked. -/
def bootDigests (step : Nat) (ds : List (BitVec 384)) : List (Nat × BitVec 384) :=
  let images := fun (l : List (BitVec 384)) => ((ds.take 1 ++ l).zipIdx).map fun p => (p.2, p.1)
  match step with
  | 1 | 2 => []
  | 3 => images ((ds.drop 1).take 6)
  | 4 => images ((ds.drop 1).take 7)
  | _ => images (((ds.drop 1).dropLast).take 7) ++ (ds.getLast?.map fun d => (8, d)).toList

/-- Measurement registers extended with some digests, in order. -/
def Mgmt.extendAll (g : Mgmt) (l : List (Nat × BitVec 384)) : Mgmt := l.foldl (fun m p => m.extend p.1 p.2) g

/-- A chain can run so (R436): a step that fails is one of the eight, and one that passes step 4 has the digests of a first image and a record, and of
at most seven images between them. [DEDUCED, log 45] -/
def bootSound (fail : Option Nat) (ds : List (BitVec 384)) : Bool :=
  (match fail with
    | none => true
    | some k => decide (1 ≤ k) && decide (k ≤ 8)) &&
  (decide (1 ≤ fail.getD 0 ∧ fail.getD 0 ≤ 4) || (decide (2 ≤ ds.length) && decide (ds.length ≤ 9)))

/-- The spare of a span takes the logical number of its first core that is out of service, where it is still free and sound (R439). -/
def Repair.assign (r : Repair) (span : Nat) : Repair :=
  if (r.spares.find span).isSome || r.retired.contains (9 * span + 8) then r
  else match (List.range 8).find? fun i => r.retired.contains (9 * span + i) with
    | some i => { r with spares := r.spares.put span (9 * span + i) }
    | none => r

/-- Cores that fail built-in test are out of service with the retired ones, and spares are assigned (step 5). -/
def Repair.builtInTest (r : Repair) (bad : List Nat) : Repair :=
  (List.range 32).foldl Repair.assign { r with retired := (r.retired ++ bad).eraseDups, retiring := r.retiring.filter fun p => !bad.contains p }

/-- An answer put into the mailbox. [DEDUCED, log 45] -/
def State.answer (s : State) (a : MailAnswer) : State := s.modMgmt fun g => { g with mailbox := g.mailbox ++ [a] }

/-- A stack after its boot training, which has succeeded or failed three times, with what the configuration record gives it (R389, R394). -/
def Stack.boot (st : Stack) (donate ok : Bool) : Stack := { st with mode := if ok then 2 else 5, donate := donate }

/-- The usable drawer: the windows of the stacks that have not failed (R385, R389). -/
def State.capacity (s : State) : Nat := (s.hbm.filter fun st => st.mode != 5).length * Config.stackBytes

/-- The event of a stack that has failed, and the new total (R389, R391). -/
def State.stackFailed (s : State) (i : Nat) : State := (s.manage evStackFailed i).answer (.capacity s.capacity)

/-- What a stack keeps over a reset: the repairs the configuration record holds, the banks parked for good, and the memory's own errors (R391 to
R393). -/
def Stack.kept (st : Stack) : Stack :=
  { Stack.reset with
    ppr := st.ppr, remap := st.remap, used := st.used, hard := st.hard, area := st.area, parked := st.parked
    softLines := st.softLines, badLines := st.badLines }

/-- The device after another reset: what the configuration record and the memories keep stays, all else is as after the first
(R436, R438). -/
def State.warmReset (s : State) : State :=
  { State.reset with
    mem := s.mem
    hbm := s.hbm.map Stack.kept
    mgmt := { State.reset.mgmt with cfg := s.mgmt.cfg, nextCfg := s.mgmt.nextCfg, repair := s.mgmt.repair }
    fabric := { State.reset.fabric with chestBad := s.fabric.chestBad }
    cycle := s.cycle, free := s.free, agenda := s.agenda, inputs := s.inputs, errors := s.errors }

/-- The repair part discarded where its HMAC fails: the device boots with no repairs (R438). -/
def State.loseRepairs (s : State) : State :=
  let hbm := s.hbm.map fun st => { st with ppr := 0, remap := 0, used := [], hard := [], area := [] }
  ({ s with hbm, mgmt := { s.mgmt with repair := ⟨[], [], [], []⟩ } } : State).manage evRepairLost 0

/-- The boot chain on a device just reset (R436): digests of the images and of the record, the step that fails (0: none), the cores
that fail built-in test, the stacks whose training fails, and whether the repair part's HMAC holds. -/
def State.bootChain (s : State) (ds : List (BitVec 384)) (fail : Nat) (bad badStacks : List Nat) (repairOk : Bool) : State :=
  let past (step : Nat) : Bool := fail == 0 || decide (step < fail)
  let cfg := s.mgmt.nextCfg.getD s.mgmt.cfg
  let s1 := s.modMgmt fun g => g.extendAll (bootDigests fail ds)
  let s2 := if past 4 then
      let s0 := { s1.modMgmt fun g => { g with cfg := cfg, nextCfg := none } with regs := { s1.regs with devid := cfg.devid } }
      if repairOk then s0 else s0.loseRepairs
    else s1
  let s3 := if past 5 then s2.modMgmt fun g => { g with repair := g.repair.builtInTest bad } else s2
  let s4 := if past 6 then { s3 with hbm := s3.hbm.zipIdx.map fun p => p.1.boot cfg.donate (!badStacks.contains p.2) } else s3
  let s5 := if past 6 then (badStacks.filter fun i => decide (i < s4.hbm.length)).foldl State.stackFailed s4 else s4
  s5.modMgmt fun g => { g with boot := if fail = 0 then .ready else .failed fail }

/-- BOOT (R436): the chain after a reset; on a device that has booted, it follows another reset. No other chain can run. -/
def execBoot (s : State) : Res :=
  match s.arg with
  | .boot ds fail bad badStacks repairOk =>
    .next (if bootSound fail ds then (match s.mgmt.boot with
      | .off => s
      | _ => s.warmReset).bootChain ds (fail.getD 0) bad badStacks repairOk
    else s)
  | _ => .next s

/-! ## The mailbox (R437, R438) -/

/-- A request is answered once the boot is done. [DEDUCED, log 45] -/
def mailRequest (s : State) (f : State → State) : Res := .next (if s.mgmt.boot = .ready then f s else s)

/-- MEASUREMENT_EXTEND (R437): registers 9 to 15 only. [DEDUCED, log 45] -/
def execMeasurementExtend (s : State) : Res :=
  match s.arg with
  | .measure i d => mailRequest s fun st => if 9 ≤ i ∧ i ≤ 15 then st.modMgmt fun g => g.extend i d else st.answer .error
  | _ => .next s

/-- CONFIG_RECORD_REPLACE (R438): a signed operator part takes effect at the next reset. [DEDUCED, log 45] -/
def execConfigRecordReplace (s : State) : Res :=
  match s.arg with
  | .config signed part =>
    .next ((if signed then s.modMgmt fun g => { g with nextCfg := some part } else s).answer (.config signed))
  | _ => .next s

/-- GET_VERSION (R437): SPDM 1.3. -/
def execGetVersion (s : State) : Res := mailRequest s fun st => st.answer (.version 1 3)

/-- GET_CAPABILITIES (R437): challenge, certificates, measurements. -/
def execGetCapabilities (s : State) : Res := mailRequest s fun st => st.answer (.capabilities true true true)

/-- NEGOTIATE_ALGORITHMS (R437): SHA-384 and ECDSA P-384 only. -/
def execNegotiateAlgorithms (s : State) : Res :=
  match s.arg with
  | .algorithms sha p => mailRequest s fun st => st.answer (if sha && p then .algorithms true true else .error)
  | _ => .next s

/-- GET_DIGESTS (R437): the digest of the one slot's chain. -/
def execGetDigests (s : State) : Res :=
  mailRequest s fun st => st.answer (.digests [BitVec.ofNat 384 (beNat (sha384 Config.identityChain))])

/-- GET_CERTIFICATE (R437): the device identity chain, of the one slot, slot 0. [DEDUCED, log 45] -/
def execGetCertificate (s : State) : Res :=
  match s.arg with
  | .num (_ + 1) => mailRequest s fun st => st.answer .error
  | _ => mailRequest s fun st => st.answer (.certificate Config.identityChain)

/-- CHALLENGE (R437): a signature over the nonce and the measurements. -/
def execChallenge (s : State) : Res :=
  match s.arg with
  | .nonce n => mailRequest s fun st =>
      st.answer (.challenge n (Config.challengeSignature (leBytes 32 n.toNat ++ st.mgmt.meas.toList.flatMap digestBytes)))
  | _ => .next s

/-- GET_MEASUREMENTS (R437): index i + 1 returns register i; a request that names no index has all of them. [DEDUCED, log 45] -/
def execGetMeasurements (s : State) : Res :=
  match s.arg with
  | .num i => mailRequest s fun st => st.answer (match (if i = 0 then none else st.mgmt.meas.toList[i - 1]?) with
      | some m => .measurements [(i, m)]
      | none => .error)
  | _ => mailRequest s fun st => st.answer (.measurements (st.mgmt.meas.toList.zipIdx.map fun p => (p.2 + 1, p.1)))

/-! ## Retirement and thermal clamps (R440, R442) -/

/-- The logical core that a physical core runs as, none for a core out of use. [DEDUCED, log 58] -/
def State.logicalOf (s : State) (p : Nat) : Option Nat := (List.range 256).find? fun c => s.physical c == p

/-- A task stands on a physical core. -/
def State.coreInUse (s : State) (p : Nat) : Bool :=
  match s.logicalOf p with
  | none => false
  | some c => s.tasks.any fun k => k.placed && k.members.any fun m => m.core == c

/-- CORE_RETIREMENT (R440): a core with three marks on which no task runs is retired, and the spare takes its number. [DEDUCED, log 58] -/
def execCoreRetirement (s : State) : Res :=
  match s.arg with
  | .num p =>
    if s.mgmt.repair.retiring.contains p && !s.coreInUse p then
      .next ((s.modMgmt fun g => { g with repair := ({ g.repair with
        retiring := g.repair.retiring.erase p, retired := g.repair.retired ++ [p] }).assign (p / 9) }).manage evRetired p)
    else .next s
  | _ => .next s

/-- THERMAL_CLAMP_ENGAGE (R442): one of the four dies; cycle counts do not change. [DEDUCED, log 37] -/
def execThermalClampEngage (s : State) : Res :=
  match s.arg with
  | .num die =>
    if s.power.clamped.contains die || decide (4 ≤ die) then .next s
    else .next ({ s with power := { s.power with clamped := s.power.clamped ++ [die] } }.manage evClamped die)
  | _ => .next s

/-- THERMAL_CLAMP_RELEASE (R442). -/
def execThermalClampRelease (s : State) : Res :=
  match s.arg with
  | .num die =>
    if s.power.clamped.contains die then
      .next ({ s with power := { s.power with clamped := s.power.clamped.erase die } }.manage evReleased die)
    else .next s
  | _ => .next s

/-! ## HBM stacks (R389 to R394) -/

/-- Stack i changed. -/
def State.modStack (s : State) (i : Nat) (f : Stack → Stack) : State := { s with hbm := s.hbm.modify i f }

/-- A mode entered: the write queue has emptied first (R390). -/
def Stack.enter (st : Stack) (mode : Nat) : Stack := { st with mode := mode, wq := [] }

/-- A retraining, which ends in the mode of the bank test under way, else in SERVICE; one that fails three times takes the stack out until
the next boot (R389). [DEDUCED, log 45] -/
def Stack.train (st : Stack) (ok : Bool) : Stack :=
  let st1 := { st with trains := (st.trains + 1) % 256 }
  let back := match st.test with
    | none => 2
    | some x => if x.phase = .march then 4 else 3
  if ok then st1.enter back else { st1.enter 5 with test := none }

/-- HBM_RETRAINING (R389): a stack that serves accesses trains, between windows; its accesses wait and are not lost. -/
def execHbmRetraining (s : State) : Res :=
  match s.arg with
  | .retrain i ok =>
    match s.hbm[i]? with
    | none => .next s
    | some st =>
      if st.mode = 2 ∨ st.mode = 3 ∨ st.mode = 4 then
        let s1 := s.modStack i fun x => x.train ok
        .next (if ok then s1 else s1.stackFailed i)
      else .next s
  | _ => .next s

/-- HBM_INTERFACE_ERROR (R389): a stack in SERVICE, or in TEST, goes to DRAIN. -/
def execHbmInterfaceError (s : State) : Res :=
  match s.arg with
  | .num i => .next (s.modStack i fun st => if st.mode = 2 ∨ st.mode = 4 then st.enter 3 else st)
  | _ => .next s

/-- Rows of a bank to repair: those that fail the march, and its candidates (R391, R392). -/
def Stack.toRepair (st : Stack) (bank : Nat) (bad : List Nat) : List Nat :=
  (bad ++ (st.candidates.filter fun c => c.1 == bank).map (·.2)).eraseDups

/-- Rows of a parked bank repaired: the bank's hard spares first, then the repair area; none where they do not suffice (R393). [DEDUCED, log
61] -/
def Stack.repair (st : Stack) (b : Nat) (rows : List Nat) : Option Stack :=
  let used := (st.used.find b).getD 0
  let hard := rows.take (Config.hardSpares - used)
  let rest := rows.drop (Config.hardSpares - used)
  if Config.repairRows < st.area.length + rest.length then none
  else some { st with
    ppr := min (st.ppr + hard.length) 255, remap := min (st.remap + rest.length) 255
    used := st.used.put b (used + hard.length)
    hard := st.hard ++ hard.map fun r => (b, r)
    area := st.area ++ rest.map fun r => (b, r)
    candidates := st.candidates.filter fun c => c.1 != b }

/-- A bank test begins: the stack enters DRAIN and copies the bank's rows to the parking area (R391). -/
def Stack.park (st : Stack) (pc bank now : Nat) (bad : List Nat) : Stack :=
  { st with mode := 3, tpc := BitVec.ofNat 6 pc, tbank := BitVec.ofNat 6 bank, test := some ⟨pc, bank, .parking 0, now, bad⟩ }

/-- The next phase of a bank test (R391): a row parked, then the march in TEST, then the repair, then the rows copied back in reverse and the
return to SERVICE. A bank that cannot be repaired stays parked, and no test follows. The Bool says that the test has ended. [DEDUCED, log 61] -/
def Stack.testStep (st : Stack) (now : Nat) : Stack × Bool :=
  match st.test with
  | none => (st, false)
  | some x =>
    let b := 64 * x.pc + x.bank
    match x.phase with
    | .parking r =>
      if r + 1 < Config.bankRows then ({ st with test := some { x with phase := .parking (r + 1), due := now + Config.testCycles now } }, false)
      else ({ st.enter 4 with test := some { x with phase := .march, due := now + Config.testCycles now } }, false)
    | .march =>
      match st.repair b (st.toRepair b x.bad) with
      | some st1 => ({ st1.enter 3 with test := some { x with phase := .returning (Config.bankRows - 1), due := now + Config.testCycles now } }, false)
      | none => ({ st.enter 2 with test := none, parked := (st.parked ++ [(x.pc, x.bank)]).eraseDups, barred := true }, true)
    | .returning r =>
      if r = 0 then ({ st.enter 2 with test := none }, true)
      else ({ st with test := some { x with phase := .returning (r - 1), due := now + Config.testCycles now } }, false)

/-- Where a row's accesses go (R391, R393). -/
inductive RowPlace where
  | bank
  | parking
  | spare
  | area (n : Nat)
  deriving DecidableEq, Repr

/-- A row of the bank under test has been copied to the parking area, and not back (R391). -/
def BankTest.moved (x : BankTest) (row : Nat) : Bool :=
  match x.phase with
  | .parking r => decide (row < r)
  | .march => true
  | .returning r => decide (row ≤ r)

/-- The place that serves a row of a stack: its parked copy, a hard spare, a row of the repair area, or the bank itself. A row keeps its physical
address wherever it is served (R391, R393). -/
def Stack.placeOf (st : Stack) (b row : Nat) : RowPlace :=
  let parked := (st.parked.any fun p => 64 * p.1 + p.2 == b) || st.test.any fun x => 64 * x.pc + x.bank == b && x.moved row
  if parked then .parking
  else match st.area.findIdx? (· == (b, row)) with
    | some n => .area n
    | none => if st.hard.contains (b, row) then .spare else .bank

/-- The slot table has a FREE entry (R387). -/
def State.freeEntry (s : State) : Bool := s.mgmt.cfg.slots.any (·.isNone)

/-- A bank test of stack i begun where it may be: in SERVICE, without an earlier test that failed; without a FREE slot it is skipped (R391). -/
def State.startTest (s : State) (i pc bank : Nat) (bad : List Nat) : State :=
  match s.hbm[i]? with
  | none => s
  | some st =>
    if st.mode ≠ 2 ∨ st.barred ∨ 64 ≤ pc ∨ 64 ≤ bank then s
    else if s.freeEntry then s.modStack i fun x => x.park pc bank s.cycle bad
    else s.manage evTestSkipped i

/-- The bank test of stack i goes on (R391). -/
def State.goOnTest (s : State) (i : Nat) : State :=
  match s.hbm[i]? with
  | none => s
  | some st =>
    let r := st.testStep s.cycle
    let s1 := s.modStack i fun _ => r.1
    if r.2 then s1.manage (if r.1.barred then evBankParked else evTested) i else s1

/-- The tests of a period: one bank of every stack, the next one each time; the rows that will fail are free (R391). [DESIGN CHOICE, log 61] -/
def State.periodicTest (s : State) : State :=
  let k := s.mgmt.nextBank
  let s1 := (List.range 12).foldl (fun st i => st.startTest i (k / 64 % 64) (k % 64) (Config.marchFails (s.free + i))) s
  { s1.modMgmt fun g => { g with lastTest := s.time.ns, nextBank := (k + 1) % 4096 } with free := s.free + 12 }

/-- BANK_TEST (R391): the host asks for the test of a bank; a test under way goes on; or the period has come. -/
def execBankTest (s : State) : Res :=
  match s.arg with
  | .bankTest i pc bank bad => .next (s.startTest i pc bank bad)
  | .num i => .next (s.goOnTest i)
  | .none => .next s.periodicTest
  | _ => .next s

/-- Stacks whose bank test is to go on. -/
def State.testsDue (s : State) : List Nat :=
  (List.range s.hbm.length).filter fun i => ((s.hbm[i]?).bind (·.test)).any fun x => decide (x.due ≤ s.cycle)

/-- The period of the bank tests has come (R391). [DESIGN CHOICE, log 61] -/
def State.testDue (s : State) : Bool :=
  s.mgmt.boot == BootState.ready && s.mgmt.cfg.testPeriod != 0 && decide (s.mgmt.lastTest + s.mgmt.cfg.testPeriod ≤ s.time.ns)

/-- Lines of stack i that a scrub could not correct: counted, and each reported as an event (R392). -/
def State.reportBad (s : State) (i : Nat) (bad : List Nat) : State :=
  bad.foldl (fun st l => st.manage evScrub l) (s.modStack i fun st => { st with
    ue := min (st.ue + bad.length) 255, badLines := (st.badLines ++ bad.filter fun l => l / 2 ^ 30 == i).eraseDups })

/-- The corrected lines of stack i counted (R332, R392, R435). -/
def State.countCorrected (s : State) (i : Nat) (lines : List Nat) : State :=
  (s.modStack i fun st => st.correct lines).modMgmt fun g => { g with corrected := g.corrected + lines.length }

/-- A pass of the patrol scrub over every stack that serves, which begins a new scrub period (R392). -/
def State.scrubAll (s : State) : State :=
  let s1 := (List.range s.hbm.length).foldl (fun (st : State) i => match st.hbm[i]? with
    | none => st
    | some x =>
      if x.mode = 2 ∨ x.mode = 3 ∨ x.mode = 4 then
        ((st.countCorrected i x.softLines).reportBad i x.badLines).modStack i fun y => { y with corrected := [] }
      else st) s
  s1.modMgmt fun g => { g with lastScrub := s.time.ns }

/-- PATROL_SCRUB (R332, R392): the device's own pass every 24 hours in FREE slots, or what a pass over a stack has corrected and could not
correct. -/
def execPatrolScrub (s : State) : Res :=
  match s.arg with
  | .scrub i corrected bad =>
    match s.hbm[i]? with
    | none => .next s
    | some _ => .next ((s.countCorrected i corrected).reportBad i bad)
  | .none => .next s.scrubAll
  | _ => .next s

/-- The 24 hours of the patrol scrub have passed (R392); it runs in FREE slots. -/
def State.scrubDue (s : State) : Bool :=
  s.mgmt.boot == BootState.ready && s.freeEntry && decide (s.mgmt.lastScrub + Config.scrubPeriod ≤ s.time.ns)

/-! ## Slots and partitions (R386 to R388) -/

/-- What a slot of a window serves. -/
inductive SlotUse where
  | partition (p : Nat)
  | maintenance
  | idle
  deriving DecidableEq, Repr

/-- The use of slot i of a window (R388): queued says which partitions have a request waiting, work whether maintenance work waits. -/
def slotServes (table : Vector (Option (BitVec 4)) 64) (donate : Bool) (i : Nat) (queued : Nat → Bool) (work : Bool) : SlotUse :=
  let owner := (table.toList.getD i none).map (·.toNat)
  let given := fun (start : Nat) => ((List.range 16).map fun k => (start + k) % 16).find? queued
  match owner with
  | some p =>
    if queued p then .partition p
    else if donate then ((given (p + 1)).map SlotUse.partition).getD .idle
    else .idle
  | none =>
    if work then .maintenance
    else if donate then ((given 0).map SlotUse.partition).getD .idle
    else .idle

/-- The partition of the accesses made for a task (R386). -/
def Task.partition (tk : Task) : Nat := tk.part % 16

/-! ## Status words and registers that are read (R394, R398, R400) -/

/-- The status word of a stack (R394). -/
def Stack.word (st : Stack) : W64 :=
  BitVec.ofNat 64 (st.mode % 8 + (if st.donate then 8 else 0) + st.tpc.toNat * 2 ^ 4 + st.tbank.toNat * 2 ^ 10 + st.ce % 2 ^ 16 * 2 ^ 16
    + st.ue % 2 ^ 8 * 2 ^ 32 + st.ppr % 2 ^ 8 * 2 ^ 40 + st.remap % 2 ^ 8 * 2 ^ 48 + st.trains % 2 ^ 8 * 2 ^ 56)

/-- The word that a read of the management interface returns for stack i (R394, R435). -/
def State.stackWord (s : State) (i : Nat) : Option W64 := (s.hbm[i]?).map Stack.word

/-- The value that a read of BAR2 at an offset returns (R398, R400). -/
def State.readRegister (s : State) (off : Nat) : W64 :=
  if within off 0x100000 0x100000 then
    let q := s.queueAt ((off - 0x100000) / 32)
    match off % 32 with
    | 0 => q.cfg
    | 8 => q.spill
    | 16 => BitVec.ofNat 64 (s.qstat ((off - 0x100000) / 32))
    | _ => 0
  else match off with
    | 0x00 => s.regs.ctxbase
    | 0x08 => s.regs.ttbase
    | 0x10 => s.regs.agep.zeroExtend 64
    | 0x18 => s.regs.pdelay.zeroExtend 64
    | 0x20 => s.regs.devid.zeroExtend 64
    | 0x28 => s.timeWord
    | _ => 0

/-- HBM_STATUS_WRITE (R394): CE and UE are cleared together. -/
def execHbmStatusWrite (s : State) : Res :=
  match s.arg with
  | .num i => .next (s.modStack i fun st => { st with ce := 0, ue := 0 })
  | _ => .next s

/-! ## Soft errors (R327, R332) -/

/-- The device reports an uncorrectable error in a core's own state against the member, with no word. [DESIGN CHOICE, log 72] -/
def softInfo (mem : Member) (addr aux : Nat) : FaultInfo :=
  { dispatchInfo cMemory 0 addr with rank := mem.rank, replica := mem.replica, unit := 0, aux }

/-- What an uncorrectable error in the state of member m of task t comes to: gone with its task; found later, while the task does not run or its
commit is under way, but for an error that the committer meets in step 2, which fails the task (R327); or a precise fault, or the divergence of
its replica. The Bool says that the error has been met. [DESIGN CHOICE, log 72] -/
def State.coreError (s : State) (t m addr aux : Nat) (f : Member → Member) : State × Bool :=
  match s.tasks[t]?, s.member? t m with
  | some tk, some mem =>
    if tk.ending.isSome then (s, true)
    else if tk.state ≠ .running then (s, false)
    else match tk.commit with
      | .none => ((s.modMember t m f).raiseFor t (softInfo mem addr aux), true)
      | .step1 => if tk.replicated then ((s.modMember t m f).raiseFor t (softInfo mem addr aux), true) else (s, false)
      | .step2 k _ => if tk.replicated && mem.replica == k then (s.failReplica t, true) else (s, false)
      | _ => (s, false)
  | _, _ => (s, true)

/-- A soft error whose time has come (R332): a line of HBM has an error from now on; a line of the chest fails or no longer does (R434); an entry of the side log is dropped with a record; an error in
registers or a scratchpad container is met, or waits; one in a checkpoint bank or a descriptor copy leaves a task that only TERMINATE ends; the
management core counts one that is corrected. Registers of a task that does not run are not on a core. [DESIGN CHOICE, log 72] -/
def State.softError (s : State) (e : Nat × SoftError) : State × Bool :=
  match e.2 with
  | .hbm line correctable =>
    (s.modStack (line / 2 ^ 30) fun st =>
      if correctable then { st with softLines := (st.softLines ++ [line]).eraseDups } else { st with badLines := (st.badLines ++ [line]).eraseDups }, true)
  | .chest line bad =>
    (s.modFabric fun x => { x with chestBad := (x.chestBad.filter fun b => b.1 != line) ++ (bad.map fun e => (line, e)).toList }, true)
  | .logEntry id =>
    (((s.slog.find? fun x => x.id == id).bind fun x => (s.member? x.task x.member).map fun mem => s.logDrop x mem cMemory).getD s, true)
  | .core t m =>
    let r := s.coreError t m 0 0 id
    (r.1, r.2 || ((s.tasks[t]?).map fun k => k.state != TaskState.running).getD true)
  | .bank t m =>
    let r := s.coreError t m 0 1 id
    (r.1.modTask t fun k => { k with fatal := k.fatal || (r.2 && !k.replicated) }, r.2)
  | .corrected => ({ s with mgmt := { s.mgmt with corrected := s.mgmt.corrected + 1 } }, true)
  | .spad t m ci => s.coreError t m (4 * ci) 0 fun x => x.setCont ci Container.none

/-- The soft errors of this cycle (R332). -/
def State.softErrors (s : State) : State :=
  (s.errors.filter fun e => decide (e.1 ≤ s.cycle)).foldl (fun st e =>
    let r := st.softError e
    if r.2 then { r.1 with errors := r.1.errors.erase e } else r.1) s

end Sys2Proof.Machine
end

