-- ==== Sys2Proof/Machine/Permute.lean ====
section
/-! DEFINITION. Permutes, packed dot products and selection of st7 (R192 to R194). -/

namespace Sys2Proof.Machine

/-- Where an element of a permute comes from. -/
inductive Pick where
  | a (i : Nat)
  | b (i : Nat)
  | t (i : Nat)
  deriving DecidableEq, Repr

/-- The latch and index of a pick. -/
def Pick.row (l : Latches) : Pick → Row × Nat
  | .a i => (l.a, i)
  | .b i => (l.b, i)
  | .t i => (l.t, i)

/-- A permute: each element picked, each container fed by the picked elements' containers and the extra ones (R192). -/
def permute (w : Nat) (l : Latches) (extra : Nat → List Container) (pick : Nat → Pick) : OpOut :=
  let per := 32 / w
  buildRow w (fun c => joinTags (extra c ++ (List.range per).map fun j =>
      let p := (pick (c * per + j)).row l
      rowC p.1 (contOf w p.2))) fun i =>
    let p := (pick i).row l
    (elemOf w p.1 p.2, 0)

/-- VPERM (R192). -/
def execVperm (o : VArgs) (s : State) : Res :=
  opStart o 0x0#4 (fun _ _ _ l =>
    let w := intW o.ty
    let n := 4096 / w
    permute w l (fun c => [rowC l.a c]) fun i =>
      let k := elemOf w l.a i % (2 * n)
      if k < n then .t k else .b (k - n)) s

/-- Element i of U, A followed by T. -/
def uAT (n i : Nat) : Pick := if i < n then .a i else .t (i - n)

/-- VSHUF (R192). -/
def execVshuf (o : VArgs) (s : State) : Res :=
  opStart o 0x1#4 (fun _ _ _ l =>
    let w := intW o.ty
    let n := 4096 / w
    permute w l (fun _ => []) fun i =>
      match rmOf o with
      | 0 => if i % 2 = 0 then .a (i / 2) else .t (i / 2)
      | 1 => if i % 2 = 0 then .a (n / 2 + i / 2) else .t (n / 2 + i / 2)
      | 2 => uAT n (2 * i)
      | 3 => uAT n (2 * i + 1)
      | _ => .t (n - 1 - i)) s

/-- VBCAST (R192). -/
def execVbcast (o : VArgs) (s : State) : Res :=
  opStart o 0x2#4 (fun _ _ _ l =>
    let w := intW o.ty
    permute w l (fun _ => [rowC l.a 0]) fun _ => .t (scal l.a % (4096 / w))) s

/-- VEXTR (R192). -/
def execVextr (o : VArgs) (s : State) : Res :=
  opStart o 0x3#4 (fun _ _ _ l =>
    let w := intW o.ty
    let n := 4096 / w
    permute w l (fun _ => [rowC l.b 0]) fun i =>
      let k := i + scal l.b % n
      if k < n then .t k else .a (k - n)) s

/-- VINS (R192): container c0 is fed by A and B, and by T where T gives it another element. [DEDUCED, log 9] -/
def execVins (o : VArgs) (s : State) : Res :=
  opStart o 0x4#4 (fun _ _ _ l =>
    let w := intW o.ty
    let n := 4096 / w
    let k := scal l.b % n
    let c0 := contOf w k
    buildRow w (fun c => if c = c0 then joinTags ((if w = 32 then [] else [rowC l.t c]) ++ [rowC l.a 0, rowC l.b 0]) else joinTags [rowC l.t c]) fun i =>
      (if i = k then elemOf w l.a 0 else elemOf w l.t i, 0)) s

/-- VROT (R192). -/
def execVrot (o : VArgs) (s : State) : Res :=
  opStart o 0x5#4 (fun _ _ _ l =>
    let w := intW o.ty
    let n := 4096 / w
    permute w l (fun _ => [rowC l.a 0]) fun i => .t ((i + scal l.a % n) % n)) s

/-- sat_dot of every container (R193, R83). -/
def dotRow (o : VArgs) (l : Latches) : OpOut :=
  let w := intW o.ty
  let sg := intSg o.ty
  let per := 32 / w
  mapRow 32 [l.a, l.b, l.t] fun c =>
    let ps := (List.range per).map fun j => toI w sg (elemOf w l.a (c * per + j)) * toI w sg (elemOf w l.t (c * per + j))
    (wrapTo 32 (satInt (toI 32 sg (elemOf 32 l.b c) + ps.sum) 32 sg), 0)

/-- VDOT4S (R193). -/
def execVdot4s (o : VArgs) (s : State) : Res := opStart o 0x6#4 (fun _ _ _ l => dotRow o l) s

/-- VDOT8S (R193). -/
def execVdot8s (o : VArgs) (s : State) : Res := opStart o 0x7#4 (fun _ _ _ l => dotRow o l) s

/-- The A container that holds the selection of position i (R194). -/
def selCont (o : VArgs) (l : Latches) (i : Nat) : Container :=
  if xBit o 0 then rowC l.a ((scal l.b + i) % 4096 / 32) else rowC l.a (contOf (intW o.ty) i)

/-- sel(i) (R194). -/
def selected (o : VArgs) (l : Latches) (i : Nat) : Bool :=
  (selCont o l i).valid &&
    (if xBit o 0 then elemOf 1 l.a ((scal l.b + i) % 4096) == 1 else elemOf (intW o.ty) l.a i != 0)

/-- A container is valid and poisoned. -/
def Container.tainted (c : Container) : Bool := c.valid && c.poison

/-- Positions whose selections decide a container are poisoned: those of a list. -/
def selPoison (o : VArgs) (l : Latches) (is : List Nat) : Bool := is.any fun i => Container.tainted (selCont o l i)

/-- What the scalar adds: its validity and poison, with mask=BIT (R194). [DEDUCED, log 8] -/
def selScalar (o : VArgs) (l : Latches) : Bool × Bool :=
  if xBit o 0 then ((rowC l.b 0).valid, Container.tainted (rowC l.b 0)) else (true, false)

/-- Selected elements of T kept in place (R194, inplace=1). -/
def selInPlace (o : VArgs) (l : Latches) : OpOut :=
  let w := intW o.ty
  let per := 32 / w
  let sc := selScalar o l
  buildRow w (fun c =>
      let is := (List.range per).map fun j => c * per + j
      let t := rowC l.t c
      (sc.1 && is.any (selected o l) && t.valid, sc.2 || t.poison || selPoison o l is)) fun i =>
    (if selected o l i then elemOf w l.t i else 0, 0)

/-- VCOMPACT with inplace=0 (R194). -/
def compact (o : VArgs) (l : Latches) : OpOut :=
  let w := intW o.ty
  let per := 32 / w
  let sc := selScalar o l
  let ks := (List.range (4096 / w)).filter fun i => selected o l i && (rowC l.t (contOf w i)).valid
  buildRow w (fun c =>
      let mine := (ks.drop (c * per)).take per
      let hi := mine.getLastD 0
      (sc.1 && !mine.isEmpty,
       sc.2 || (mine.any fun i => Container.tainted (rowC l.t (contOf w i))) || selPoison o l (List.range (hi + 1)))) fun j =>
    (match ks[j]? with
      | some i => elemOf w l.t i
      | none => 0, 0)

/-- Selected positions below i. -/
def rankOf (ks : List Nat) (i : Nat) : Nat := (ks.takeWhile fun k => k < i).length

/-- VEXPAND with inplace=0 (R194). -/
def expand (o : VArgs) (l : Latches) : OpOut :=
  let w := intW o.ty
  let sc := selScalar o l
  let ks := (List.range (4096 / w)).filter (selected o l)
  buildRow w (fun c =>
      let mine := ks.filter fun i => contOf w i == c
      let srcs := mine.map fun i => rowC l.t (contOf w (rankOf ks i))
      (sc.1 && !mine.isEmpty && srcs.all (·.valid),
       sc.2 || srcs.any Container.tainted || selPoison o l (List.range (mine.getLastD 0 + 1)))) fun i =>
    (if ks.contains i then elemOf w l.t (rankOf ks i) else 0, 0)

/-- VCOMPACT (R194). -/
def execVcompact (o : VArgs) (s : State) : Res :=
  opStart o 0x8#4 (fun _ _ _ l => if xBit o 1 then selInPlace o l else compact o l) s

/-- VEXPAND (R194). -/
def execVexpand (o : VArgs) (s : State) : Res :=
  opStart o 0x9#4 (fun _ _ _ l => if xBit o 1 then selInPlace o l else expand o l) s

end Sys2Proof.Machine
end

