-- ==== Sys2Proof/Machine/Reduce.lean ====
section
/-! DEFINITION. Reductions and order operations of st5 (R180 to R186). Invalid containers are absent from their input. -/

namespace Sys2Proof.Machine

/-- Element count of a type. -/
def ElTy.count (ty : ElTy) : Nat := 4096 / ty.w

/-- The indices of the valid elements of a row, ascending. -/
def validIdx (w : Nat) (r : Row) : List Nat := (List.range (4096 / w)).filter fun i => (rowC r (contOf w i)).valid

/-- Some valid container of a row is poisoned (R180). -/
def anyPoison (r : Row) : Bool := r.any fun c => c.valid && c.poison

/-- The order of two values by okey: a at most b (R181). -/
def okeyLe (ty : ElTy) (a b : Nat) : Bool :=
  match ty with
  | .int w sg => decide (toI w sg a ≤ toI w sg b)
  | .flt f =>
    let x := f.decode a
    let y := f.decode b
    x.isNan || (!y.isNan && x.le y)

/-- above (R181) of codes with their indices. -/
def above (ty : ElTy) (a : Nat × Nat) (b : Nat × Nat) : Bool :=
  !(okeyLe ty a.1 b.1) || (okeyLe ty b.1 a.1 && decide (a.2 < b.2))

/-- A code as it is delivered: a NaN canonical (R181). -/
def ElTy.deliver (ty : ElTy) (code : Nat) : Nat :=
  match ty with
  | .flt f => f.canon code
  | .int _ _ => code

/-- A list in order: before a b says that a stands before b. Elements neither of which precedes the other keep their order. -/
def sortBy {α : Type} (before : α → α → Bool) (l : List α) : List α :=
  l.foldl (fun acc a =>
    let k := acc.findIdx fun b => before a b
    acc.take k ++ a :: acc.drop k) []

/-- VSUM (R182). -/
def execVsum (o : VArgs) (s : State) : Res :=
  opStart o 0x0#4 (fun tk mem key l =>
    let ty := orderTy o.ty
    let has := l.t.any (·.valid)
    let tag := fun _ => (has, anyPoison l.t)
    match ty with
    | .flt f =>
      let xs := (List.range ty.count).map fun i =>
        if (rowC l.t (contOf f.w i)).valid then elemOf f.w l.t i else 2 ^ (f.w - 1)
      let r := treeSum f (rmOf o) (srKey tk.seed mem.rank key) 10 1 xs
      { buildRow f.w tag (fun _ => (r.1, 0)) with flags := if has then r.2 else 0 }
    | .int w sg =>
      let v := ((validIdx w l.t).map fun i => toI w sg (elemOf w l.t i)).sum
      buildRow 32 tag fun _ => (wrapTo 32 (satInt v 32 sg), 0)) s

/-- The running floating sums of a VSCAN from element i with the last sum, none before element 0. -/
def scanFlt (f : Fmt) (rm : Nat) (bits : Nat → Nat) : Nat → Option Nat → List Nat → List (Nat × KFlags)
  | _, _, [] => []
  | i, none, x :: r => (f.canon x, 0) :: scanFlt f rm bits (i + 1) (some (f.canon x)) r
  | i, some p, x :: r =>
    let z := farithAdd (f.decode p) (f.decode x) f rm (bits i)
    z :: scanFlt f rm bits (i + 1) (some z.1) r

/-- The running integer sums of a VSCAN. -/
def scanInt (w : Nat) : Nat → List Nat → List Nat
  | _, [] => []
  | p, x :: r => (p + x) % 2 ^ w :: scanInt w ((p + x) % 2 ^ w) r

/-- VSCAN (R182). -/
def execVscan (o : VArgs) (s : State) : Res :=
  opStart o 0x4#4 (fun tk mem key l =>
    let ty := orderTy o.ty
    let w := ty.w
    let p := anyPoison l.t
    let tag := fun c => ((rowC l.t c).valid, p)
    let at_ := fun i absent => if (rowC l.t (contOf w i)).valid then elemOf w l.t i else absent
    match ty with
    | .flt f =>
      let rs := scanFlt f (rmOf o) (opBits tk mem key) 0 none ((List.range ty.count).map fun i => at_ i (2 ^ (w - 1)))
      buildRow w tag fun i => rs.getD i (0, 0)
    | .int _ _ =>
      let rs := scanInt w 0 ((List.range ty.count).map fun i => at_ i 0)
      buildRow w tag fun i => (rs.getD i 0, 0)) s

/-- Value and index pairs in containers 2k and 2k + 1 (R183): values are repeated over their container; an absent pair is
invalid with index data all ones. -/
def pairRow (w : Nat) (poison : Bool) (pairs : List (Option (Nat × Nat))) : OpOut :=
  let rep := fun v => packCodes w (List.replicate (32 / w) v)
  ⟨pairs.flatMap fun p => match p with
    | some (v, i) => [taggedC (true, poison) (rep v), taggedC (true, poison) i]
    | none => [Container.none, ⟨0xFFFFFFFF#32, false, false⟩], 0, none⟩

/-- The element of a row that a test prefers to every other, lowest index first. -/
def bestOf (better : Nat × Nat → Nat × Nat → Bool) : List (Nat × Nat) → Option (Nat × Nat)
  | [] => none
  | a :: r => some (r.foldl (fun b x => if better x b then x else b) a)

/-- The valid elements of a row with their indices. -/
def validElems (w : Nat) (r : Row) : List (Nat × Nat) := (validIdx w r).map fun i => (elemOf w r i, i)

/-- VRMAX (R183). -/
def execVrmax (o : VArgs) (s : State) : Res :=
  opStart o 0x1#4 (fun _ _ _ l =>
    let ty := orderTy o.ty
    let b := (bestOf (above ty) (validElems ty.w l.t)).map fun p => (ty.deliver p.1, p.2)
    pairRow ty.w (anyPoison l.t) (List.replicate 64 b)) s

/-- VRMIN (R183). -/
def execVrmin (o : VArgs) (s : State) : Res :=
  opStart o 0x2#4 (fun _ _ _ l =>
    let ty := orderTy o.ty
    let b := (bestOf (fun x y => !(okeyLe ty y.1 x.1)) (validElems ty.w l.t)).map fun p => (ty.deliver p.1, p.2)
    pairRow ty.w (anyPoison l.t) (List.replicate 64 b)) s

/-- VEMAX (R184, R86). -/
def execVemax (o : VArgs) (s : State) : Res :=
  opStart o 0x3#4 (fun _ _ _ l =>
    let f := fltFmt o.ty
    let es := (validElems f.w l.t).map fun p => expo (f.decode p.1)
    let m := es.foldl (fun a e => max a e.1) (-2147483648)
    { buildRow 32 (fun _ => (!es.isEmpty, anyPoison l.t)) (fun _ => (wrapTo 32 m, 0)) with
      flags := es.foldl (fun a e => a ||| e.2) 0 }) s

/-- An element counts as zero (R184). -/
def ElTy.isZero (ty : ElTy) (code : Nat) : Bool :=
  match ty with
  | .flt f => code % 2 ^ (f.w - 1) == 0
  | .int _ _ => code == 0

/-- VCOUNT (R184). -/
def execVcount (o : VArgs) (s : State) : Res :=
  opStart o 0x8#4 (fun _ _ _ l =>
    let ty := orderTy o.ty
    let n := ((validElems ty.w l.t).filter fun p => xBit o 0 || !ty.isZero p.1).length
    buildRow 32 (fun _ => (true, anyPoison l.t)) fun _ => (n, 0)) s

/-- VSORT (R185). -/
def execVsort (o : VArgs) (s : State) : Res :=
  opStart o 0x5#4 (fun _ _ _ l =>
    let ty := orderTy o.ty
    let es := validElems ty.w l.t
    let before := fun (a b : Nat × Nat) => if xBit o 0 then !(okeyLe ty b.1 a.1) else !(okeyLe ty a.1 b.1)
    let sorted := sortBy before es
    buildRow ty.w (fun c => (decide (c * (32 / ty.w) < es.length), anyPoison l.t)) fun i =>
      let e := sorted.getD i (0, 0)
      (if xBit o 1 then e.2 else ty.deliver e.1, 0)) s

/-- The first 64 of candidates by rank, as pairs (R186). -/
def topPairs (ty : ElTy) (poison : Bool) (cands : List (Nat × Nat)) : OpOut :=
  let top := (sortBy (above ty) cands).take 64
  pairRow 32 poison ((List.range 64).map fun k => (top[k]?).map fun p => (ty.deliver p.1, p.2))

/-- VTOPK (R186): an invalid scalar makes the whole result invalid (R175). [DEDUCED, log 8] -/
def execVtopk (o : VArgs) (s : State) : Res :=
  opStart o 0x6#4 (fun _ _ _ l =>
    let ty := orderTy o.ty
    if !(rowC l.a 0).valid then invalidOut
    else topPairs ty (anyPoison l.t || (rowC l.a 0).poison)
      ((validElems 32 l.t).map fun p => (p.1, (scal l.a + p.2) % 2 ^ 32))) s

/-- The valid pairs of a row in pair layout. -/
def pairsOf (r : Row) : List (Nat × Nat) :=
  ((List.range 64).filter fun k => (rowC r (2 * k)).valid).map fun k => (elemOf 32 r (2 * k), elemOf 32 r (2 * k + 1))

/-- A valid pair of a row has an invalid index (R186). -/
def badPair (r : Row) : Bool := (List.range 64).any fun k => (rowC r (2 * k)).valid && !(rowC r (2 * k + 1)).valid

/-- VTOPKM (R186). -/
def execVtopkm (o : VArgs) (s : State) : Res :=
  opStart o 0x7#4 (fun _ _ _ l =>
    if badPair l.a || badPair l.t then invalidOut
    else topPairs (orderTy o.ty) (anyPoison l.a || anyPoison l.t) (pairsOf l.a ++ pairsOf l.t)) s

end Sys2Proof.Machine
end

