-- ==== Sys2Proof/Machine/Scalar.lean ====
section
/-! DEFINITION. The scalar words of the C stream: arithmetic, logic, compares, immediates, loads and stores (R122 to R130). -/

namespace Sys2Proof.Machine

/-- A word of two source registers (R122): the result is poisoned when an operand is (R41). -/
def aluOp (rd rs rt : BitVec 5) (f : W64 → W64 → W64) (s : State) : Res :=
  onMember s fun _ mem =>
    let a := mem.rd rs
    let b := mem.rd rt
    cWrite s mem rd ⟨f a.val b.val, a.poison || b.poison⟩

/-- A word of one source register. -/
def unOp (rd rs : BitVec 5) (f : W64 → W64) (s : State) : Res :=
  onMember s fun _ mem =>
    let a := mem.rd rs
    cWrite s mem rd ⟨f a.val, a.poison⟩

/-- A compare of two registers (R125): a poisoned operand is a poison-use fault. -/
def cmpOp (rd rs rt : BitVec 5) (f : W64 → W64 → Bool) (s : State) : Res :=
  onMember s fun _ mem =>
    let a := mem.rd rs
    let b := mem.rd rt
    if a.poison || b.poison then raise s mem cPoison 0 0
    else cWrite s mem rd ⟨if f a.val b.val then 1 else 0, false⟩

/-- Quotient and remainder of div_s (R123). -/
def divS (a b : W64) : W64 × W64 :=
  if b = 0 then (BitVec.allOnes 64, a)
  else (BitVec.ofInt 64 (Int.tdiv a.toInt b.toInt), BitVec.ofInt 64 (Int.tmod a.toInt b.toInt))

/-- Quotient and remainder of div_z (R123). -/
def divZ (a b : W64) : W64 × W64 := if b = 0 then (BitVec.allOnes 64, a) else (a / b, a % b)

/-- Leading zero bits of a word, from bit n - 1 down. -/
def clzFrom (a : W64) : Nat → Nat
  | 0 => 0
  | n + 1 => if a.getLsbD n then 0 else clzFrom a n + 1

/-- One bits of a word below bit n. -/
def popcBelow (a : W64) : Nat → Nat
  | 0 => 0
  | n + 1 => (if a.getLsbD n then 1 else 0) + popcBelow a n

/-- ADD (R122). -/
def execAdd (rd rs rt : BitVec 5) (s : State) : Res := aluOp rd rs rt (· + ·) s
/-- SUB (R122). -/
def execSub (rd rs rt : BitVec 5) (s : State) : Res := aluOp rd rs rt (· - ·) s
/-- MUL (R122). -/
def execMul (rd rs rt : BitVec 5) (s : State) : Res := aluOp rd rs rt (· * ·) s
/-- MULH (R122). -/
def execMulh (rd rs rt : BitVec 5) (s : State) : Res :=
  aluOp rd rs rt (fun a b => BitVec.ofInt 64 (a.toInt * b.toInt / 2 ^ 64)) s
/-- MULHZ (R122). -/
def execMulhz (rd rs rt : BitVec 5) (s : State) : Res :=
  aluOp rd rs rt (fun a b => BitVec.ofNat 64 (a.toNat * b.toNat / 2 ^ 64)) s
/-- DIV (R123). -/
def execDiv (rd rs rt : BitVec 5) (s : State) : Res := aluOp rd rs rt (fun a b => (divS a b).1) s
/-- DIVZ (R123). -/
def execDivz (rd rs rt : BitVec 5) (s : State) : Res := aluOp rd rs rt (fun a b => (divZ a b).1) s
/-- REM (R123). -/
def execRem (rd rs rt : BitVec 5) (s : State) : Res := aluOp rd rs rt (fun a b => (divS a b).2) s
/-- REMZ (R123). -/
def execRemz (rd rs rt : BitVec 5) (s : State) : Res := aluOp rd rs rt (fun a b => (divZ a b).2) s
/-- AND (R122). -/
def execAnd (rd rs rt : BitVec 5) (s : State) : Res := aluOp rd rs rt (· &&& ·) s
/-- OR (R122). -/
def execOr (rd rs rt : BitVec 5) (s : State) : Res := aluOp rd rs rt (· ||| ·) s
/-- XOR (R122). -/
def execXor (rd rs rt : BitVec 5) (s : State) : Res := aluOp rd rs rt (· ^^^ ·) s
/-- SHL (R122). -/
def execShl (rd rs rt : BitVec 5) (s : State) : Res := aluOp rd rs rt (fun a b => a <<< (b.toNat % 64)) s
/-- SHR (R122). -/
def execShr (rd rs rt : BitVec 5) (s : State) : Res := aluOp rd rs rt (fun a b => a >>> (b.toNat % 64)) s
/-- SRA (R122). -/
def execSra (rd rs rt : BitVec 5) (s : State) : Res := aluOp rd rs rt (fun a b => a.sshiftRight (b.toNat % 64)) s
/-- MIN (R122). -/
def execMin (rd rs rt : BitVec 5) (s : State) : Res := aluOp rd rs rt (fun a b => if a.toInt < b.toInt then a else b) s
/-- MAX (R122). -/
def execMax (rd rs rt : BitVec 5) (s : State) : Res := aluOp rd rs rt (fun a b => if a.toInt < b.toInt then b else a) s
/-- MINZ (R122). -/
def execMinz (rd rs rt : BitVec 5) (s : State) : Res := aluOp rd rs rt (fun a b => if a.toNat < b.toNat then a else b) s
/-- MAXZ (R122). -/
def execMaxz (rd rs rt : BitVec 5) (s : State) : Res := aluOp rd rs rt (fun a b => if a.toNat < b.toNat then b else a) s
/-- CLZ (R122). -/
def execClz (rd rs : BitVec 5) (s : State) : Res := unOp rd rs (fun a => BitVec.ofNat 64 (clzFrom a 64)) s
/-- POPC (R122). -/
def execPopc (rd rs : BitVec 5) (s : State) : Res := unOp rd rs (fun a => BitVec.ofNat 64 (popcBelow a 64)) s
/-- SEQ (R125). -/
def execSeq (rd rs rt : BitVec 5) (s : State) : Res := cmpOp rd rs rt (fun a b => a == b) s
/-- SLT (R125). -/
def execSlt (rd rs rt : BitVec 5) (s : State) : Res := cmpOp rd rs rt (fun a b => decide (a.toInt < b.toInt)) s
/-- SLTZ (R125). -/
def execSltz (rd rs rt : BitVec 5) (s : State) : Res := cmpOp rd rs rt (fun a b => decide (a.toNat < b.toNat)) s
/-- LEA (R122). -/
def execLea (rd rs rt : BitVec 5) (sc : BitVec 2) (s : State) : Res := aluOp rd rs rt (fun a b => a + (b <<< sc.toNat)) s

/-- ADDI (R124). -/
def execAddi (rd rs : BitVec 5) (imm : BitVec 16) (s : State) : Res := unOp rd rs (fun a => a + imm.signExtend 64) s
/-- ANDI (R124). -/
def execAndi (rd rs : BitVec 5) (imm : BitVec 16) (s : State) : Res := unOp rd rs (fun a => a &&& imm.zeroExtend 64) s
/-- ORI (R124). -/
def execOri (rd rs : BitVec 5) (imm : BitVec 16) (s : State) : Res := unOp rd rs (fun a => a ||| imm.zeroExtend 64) s
/-- XORI (R124). -/
def execXori (rd rs : BitVec 5) (imm : BitVec 16) (s : State) : Res := unOp rd rs (fun a => a ^^^ imm.zeroExtend 64) s
/-- SLTI (R124, R125). -/
def execSlti (rd rs : BitVec 5) (imm : BitVec 16) (s : State) : Res :=
  onMember s fun _ mem =>
    let a := mem.rd rs
    if a.poison then raise s mem cPoison 0 0
    else cWrite s mem rd ⟨if a.val.toInt < imm.toInt then 1 else 0, false⟩
/-- LIH (R124). -/
def execLih (rd rs : BitVec 5) (imm : BitVec 16) (s : State) : Res :=
  unOp rd rs (fun a => (a <<< 16) ||| imm.zeroExtend 64) s
/-- SHLI (R124). -/
def execShli (rd rs : BitVec 5) (sh : BitVec 6) (s : State) : Res := unOp rd rs (fun a => a <<< sh.toNat) s
/-- SHRI (R124). -/
def execShri (rd rs : BitVec 5) (sh : BitVec 6) (s : State) : Res := unOp rd rs (fun a => a >>> sh.toNat) s
/-- SRAI (R124). -/
def execSrai (rd rs : BitVec 5) (sh : BitVec 6) (s : State) : Res := unOp rd rs (fun a => a.sshiftRight sh.toNat) s

/-- Zero extension of a loaded number (R126). -/
def zext (v : Nat) : W64 := BitVec.ofNat 64 v

/-- Sign extension of a loaded number of n bytes (R126). -/
def sext (n v : Nat) : W64 := (BitVec.ofNat (8 * n) v).signExtend 64

/-- LDB (R126). -/
def execLdb (rd rs : BitVec 5) (imm : BitVec 16) (s : State) : Res := loadWord rd rs imm 1 zext s
/-- LDBS (R126). -/
def execLdbs (rd rs : BitVec 5) (imm : BitVec 16) (s : State) : Res := loadWord rd rs imm 1 (sext 1) s
/-- LDH (R126). -/
def execLdh (rd rs : BitVec 5) (imm : BitVec 16) (s : State) : Res := loadWord rd rs imm 2 zext s
/-- LDHS (R126). -/
def execLdhs (rd rs : BitVec 5) (imm : BitVec 16) (s : State) : Res := loadWord rd rs imm 2 (sext 2) s
/-- LDW (R126). -/
def execLdw (rd rs : BitVec 5) (imm : BitVec 16) (s : State) : Res := loadWord rd rs imm 4 zext s
/-- LDWS (R126). -/
def execLdws (rd rs : BitVec 5) (imm : BitVec 16) (s : State) : Res := loadWord rd rs imm 4 (sext 4) s
/-- LDD (R126). -/
def execLdd (rd rs : BitVec 5) (imm : BitVec 16) (s : State) : Res := loadWord rd rs imm 8 zext s
/-- STB (R126, R129). -/
def execStb (rt rs : BitVec 5) (imm : BitVec 16) (s : State) : Res := storeWord (.stb rt rs imm) rt rs imm 1 s
/-- STH (R126, R129). -/
def execSth (rt rs : BitVec 5) (imm : BitVec 16) (s : State) : Res := storeWord (.sth rt rs imm) rt rs imm 2 s
/-- STW (R126, R129). -/
def execStw (rt rs : BitVec 5) (imm : BitVec 16) (s : State) : Res := storeWord (.stw rt rs imm) rt rs imm 4 s
/-- STD (R126, R129). -/
def execStd (rt rs : BitVec 5) (imm : BitVec 16) (s : State) : Res := storeWord (.std rt rs imm) rt rs imm 8 s

end Sys2Proof.Machine
end

