-- ==== Sys2Proof/Machine/Special.lean ====
section
/-! DEFINITION. Special functions of st4 (R177 to R179). -/

namespace Sys2Proof.Machine

/-- A rounding operation of T alone. -/
def spUn (o : VArgs) (tk : Task) (mem : Member) (key : RngKey) (l : Latches) (f : FVal → Fmt → Nat → Nat → Nat × KFlags) :
    OpOut :=
  let fm := fltFmt o.ty
  let bits := opBits tk mem key
  mapRow fm.w [l.t] fun i => f (fm.decode (elemOf fm.w l.t i)) fm (rmOf o) (bits i)

/-- VDIV (R177, R85). -/
def execVdiv (o : VArgs) (s : State) : Res := opStart o 0x0#4 (fun tk mem key l => fltBin o tk mem key l spDiv) s

/-- VRCP (R177, R85): 1 / T. -/
def execVrcp (o : VArgs) (s : State) : Res :=
  opStart o 0x1#4 (fun tk mem key l => spUn o tk mem key l fun t => spDiv (.fin false 1 0) t) s

/-- VSQRT (R177, R85). -/
def execVsqrt (o : VArgs) (s : State) : Res := opStart o 0x2#4 (fun tk mem key l => spUn o tk mem key l spSqrt) s

/-- VSQRTC (R178). -/
def execVsqrtc (o : VArgs) (s : State) : Res := opStart o 0x3#4 (fun tk mem key l => spUn o tk mem key l spSqrtc) s

/-- VRSQRT (R177, R85). -/
def execVrsqrt (o : VArgs) (s : State) : Res := opStart o 0x4#4 (fun tk mem key l => spUn o tk mem key l spRsqrt) s

/-- VEXP2 (R177, R85). -/
def execVexp2 (o : VArgs) (s : State) : Res := opStart o 0x5#4 (fun tk mem key l => spUn o tk mem key l spExp2) s

/-- VLOG2 (R177, R85). -/
def execVlog2 (o : VArgs) (s : State) : Res := opStart o 0x6#4 (fun tk mem key l => spUn o tk mem key l spLog2) s

/-- VGUMB (R179). -/
def execVgumb (o : VArgs) (s : State) : Res := opStart o 0x7#4 (fun tk mem key l => spUn o tk mem key l spGumb) s

end Sys2Proof.Machine
end

