-- ==== Sys2Proof/Machine/VecInt.lean ====
section
/-! DEFINITION. Integer and logic operations of st0 and st1 (R163 to R167). -/

namespace Sys2Proof.Machine

/-- A binary operation of A and T on codes of the type's width. -/
def intBin (o : VArgs) (l : Latches) (f : Nat → Nat → Nat) : OpOut :=
  let w := intW o.ty
  mapRow w [l.a, l.t] fun i => (f (elemOf w l.a i) (elemOf w l.t i), 0)

/-- A unary operation of T. -/
def intUn (o : VArgs) (l : Latches) (f : Nat → Nat) : OpOut :=
  let w := intW o.ty
  mapRow w [l.t] fun i => (f (elemOf w l.t i), 0)

/-- A binary operation on the integers the type names. -/
def intBinI (o : VArgs) (l : Latches) (f : Int → Int → Int) : OpOut :=
  let w := intW o.ty
  let sg := intSg o.ty
  intBin o l fun a t => wrapTo w (f (toI w sg a) (toI w sg t))

/-- All ones of the type for true (R165). -/
def allOnes (w : Nat) (b : Bool) : Nat := if b then 2 ^ w - 1 else 0

/-- VADD (R163). -/
def execVadd (o : VArgs) (s : State) : Res := opStart o 0x0#4 (fun _ _ _ l => intBinI o l fun a t => a + t) s

/-- VSUB (R163). -/
def execVsub (o : VArgs) (s : State) : Res := opStart o 0x1#4 (fun _ _ _ l => intBinI o l fun a t => a - t) s

/-- VADDS (R163, R76). -/
def execVadds (o : VArgs) (s : State) : Res :=
  opStart o 0x2#4 (fun _ _ _ l => intBinI o l fun a t => satInt (a + t) (intW o.ty) (intSg o.ty)) s

/-- VSUBS (R163, R76). -/
def execVsubs (o : VArgs) (s : State) : Res :=
  opStart o 0x3#4 (fun _ _ _ l => intBinI o l fun a t => satInt (a - t) (intW o.ty) (intSg o.ty)) s

/-- VMIN (R163). -/
def execVmin (o : VArgs) (s : State) : Res := opStart o 0x4#4 (fun _ _ _ l => intBinI o l min) s

/-- VMAX (R163). -/
def execVmax (o : VArgs) (s : State) : Res := opStart o 0x5#4 (fun _ _ _ l => intBinI o l max) s

/-- VMINZ (R163). -/
def execVminz (o : VArgs) (s : State) : Res := opStart o 0x6#4 (fun _ _ _ l => intBin o l Nat.min) s

/-- VMAXZ (R163). -/
def execVmaxz (o : VArgs) (s : State) : Res := opStart o 0x7#4 (fun _ _ _ l => intBin o l Nat.max) s

/-- VAND (R163). -/
def execVand (o : VArgs) (s : State) : Res := opStart o 0x8#4 (fun _ _ _ l => intBin o l Nat.land) s

/-- VOR (R163). -/
def execVor (o : VArgs) (s : State) : Res := opStart o 0x9#4 (fun _ _ _ l => intBin o l Nat.lor) s

/-- VXOR (R163). -/
def execVxor (o : VArgs) (s : State) : Res := opStart o 0xA#4 (fun _ _ _ l => intBin o l Nat.xor) s

/-- VNOT (R163). -/
def execVnot (o : VArgs) (s : State) : Res := opStart o 0xB#4 (fun _ _ _ l => intUn o l fun t => 2 ^ intW o.ty - 1 - t) s

/-- VSHL (R164). -/
def execVshl (o : VArgs) (s : State) : Res :=
  opStart o 0xC#4 (fun _ _ _ l => intBin o l fun a n => if intW o.ty ≤ n then 0 else a * 2 ^ n % 2 ^ intW o.ty) s

/-- VSHR (R164). -/
def execVshr (o : VArgs) (s : State) : Res :=
  opStart o 0xD#4 (fun _ _ _ l => intBin o l fun a n => if intW o.ty ≤ n then 0 else a / 2 ^ n) s

/-- VSRA (R164). -/
def execVsra (o : VArgs) (s : State) : Res :=
  opStart o 0xE#4 (fun _ _ _ l => intBin o l fun a n =>
    let w := intW o.ty
    let v := toS w a
    if w ≤ n then allOnes w (decide (v < 0)) else wrapTo w (v / 2 ^ n)) s

/-- VMOV (R163). -/
def execVmov (o : VArgs) (s : State) : Res := opStart o 0xF#4 (fun _ _ _ l => intUn o l id) s

/-- VCEQ (R165). -/
def execVceq (o : VArgs) (s : State) : Res :=
  opStart o 0x0#4 (fun _ _ _ l => intBin o l fun a t => allOnes (intW o.ty) (a == t)) s

/-- VCLT (R165). -/
def execVclt (o : VArgs) (s : State) : Res :=
  opStart o 0x1#4 (fun _ _ _ l => intBin o l fun a t =>
    allOnes (intW o.ty) (decide (toS (intW o.ty) a < toS (intW o.ty) t))) s

/-- VCLTZ (R165). -/
def execVcltz (o : VArgs) (s : State) : Res :=
  opStart o 0x2#4 (fun _ _ _ l => intBin o l fun a t => allOnes (intW o.ty) (decide (a < t))) s

/-- The tags of container c of a VSEL (R166). -/
def selTags (w : Nat) (l : Latches) (c : Nat) : Bool × Bool :=
  let b := rowC l.b c
  if !b.valid then (false, false)
  else
    let picks := (List.range (32 / w)).map fun j => elemOf w l.b (c * (32 / w) + j) != 0
    let src := (if picks.any id then [rowC l.a c] else []) ++ (if picks.all id then [] else [rowC l.t c])
    ((joinTags src).1, b.poison || (joinTags src).2)

/-- VSEL (R165, R166). -/
def execVsel (o : VArgs) (s : State) : Res :=
  opStart o 0x3#4 (fun _ _ _ l =>
    let w := intW o.ty
    buildRow w (selTags w l) fun i => (if elemOf w l.b i ≠ 0 then elemOf w l.a i else elemOf w l.t i, 0)) s

/-- VVALID (R165, R167). -/
def execVvalid (o : VArgs) (s : State) : Res :=
  opStart o 0x4#4 (fun _ _ _ l =>
    let w := intW o.ty
    buildRow w (fun _ => (true, false)) fun i => (allOnes w (rowC l.t (contOf w i)).valid, 0)) s

/-- VIOTA (R165). -/
def execViota (o : VArgs) (s : State) : Res :=
  opStart o 0x5#4 (fun _ _ _ l =>
    let w := intW o.ty
    mapRow w [l.a, l.t] fun i => ((elemOf w l.a i + i * elemOf w l.t i) % 2 ^ w, 0)) s

/-- VABS (R165). -/
def execVabs (o : VArgs) (s : State) : Res :=
  opStart o 0x6#4 (fun _ _ _ l => intUn o l fun t => wrapTo (intW o.ty) |toS (intW o.ty) t|) s

/-- VNEG (R165). -/
def execVneg (o : VArgs) (s : State) : Res :=
  opStart o 0x7#4 (fun _ _ _ l => intUn o l fun t => wrapTo (intW o.ty) (-(toI (intW o.ty) (intSg o.ty) t))) s

end Sys2Proof.Machine
end

