-- ==== Sys2Proof/Machine/Dispatch.lean ====
section
/-! DEFINITION. The one match over the instruction: every arm is a direct call of that instruction's meaning. -/

namespace Sys2Proof.Machine

open Sys2Proof

def exec (i : Instr) (s : State) : Host.Outcome State Fault Refusal :=
  match i with
  | .add rd rs rt => Sys2Proof.Machine.execAdd rd rs rt s
  | .sub rd rs rt => Sys2Proof.Machine.execSub rd rs rt s
  | .mul rd rs rt => Sys2Proof.Machine.execMul rd rs rt s
  | .mulh rd rs rt => Sys2Proof.Machine.execMulh rd rs rt s
  | .mulhz rd rs rt => Sys2Proof.Machine.execMulhz rd rs rt s
  | .div_ rd rs rt => Sys2Proof.Machine.execDiv rd rs rt s
  | .divz rd rs rt => Sys2Proof.Machine.execDivz rd rs rt s
  | .rem_ rd rs rt => Sys2Proof.Machine.execRem rd rs rt s
  | .remz rd rs rt => Sys2Proof.Machine.execRemz rd rs rt s
  | .and_ rd rs rt => Sys2Proof.Machine.execAnd rd rs rt s
  | .or_ rd rs rt => Sys2Proof.Machine.execOr rd rs rt s
  | .xor_ rd rs rt => Sys2Proof.Machine.execXor rd rs rt s
  | .shl rd rs rt => Sys2Proof.Machine.execShl rd rs rt s
  | .shr rd rs rt => Sys2Proof.Machine.execShr rd rs rt s
  | .sra rd rs rt => Sys2Proof.Machine.execSra rd rs rt s
  | .min rd rs rt => Sys2Proof.Machine.execMin rd rs rt s
  | .max rd rs rt => Sys2Proof.Machine.execMax rd rs rt s
  | .minz rd rs rt => Sys2Proof.Machine.execMinz rd rs rt s
  | .maxz rd rs rt => Sys2Proof.Machine.execMaxz rd rs rt s
  | .clz rd rs => Sys2Proof.Machine.execClz rd rs s
  | .popc rd rs => Sys2Proof.Machine.execPopc rd rs s
  | .seq rd rs rt => Sys2Proof.Machine.execSeq rd rs rt s
  | .slt rd rs rt => Sys2Proof.Machine.execSlt rd rs rt s
  | .sltz rd rs rt => Sys2Proof.Machine.execSltz rd rs rt s
  | .lea rd rs rt sc => Sys2Proof.Machine.execLea rd rs rt sc s
  | .addi rd rs imm => Sys2Proof.Machine.execAddi rd rs imm s
  | .andi rd rs imm => Sys2Proof.Machine.execAndi rd rs imm s
  | .ori rd rs imm => Sys2Proof.Machine.execOri rd rs imm s
  | .xori rd rs imm => Sys2Proof.Machine.execXori rd rs imm s
  | .slti rd rs imm => Sys2Proof.Machine.execSlti rd rs imm s
  | .lih rd rs imm => Sys2Proof.Machine.execLih rd rs imm s
  | .shli rd rs sh => Sys2Proof.Machine.execShli rd rs sh s
  | .shri rd rs sh => Sys2Proof.Machine.execShri rd rs sh s
  | .srai rd rs sh => Sys2Proof.Machine.execSrai rd rs sh s
  | .ldb rd rs imm => Sys2Proof.Machine.execLdb rd rs imm s
  | .ldbs rd rs imm => Sys2Proof.Machine.execLdbs rd rs imm s
  | .ldh rd rs imm => Sys2Proof.Machine.execLdh rd rs imm s
  | .ldhs rd rs imm => Sys2Proof.Machine.execLdhs rd rs imm s
  | .ldw rd rs imm => Sys2Proof.Machine.execLdw rd rs imm s
  | .ldws rd rs imm => Sys2Proof.Machine.execLdws rd rs imm s
  | .ldd rd rs imm => Sys2Proof.Machine.execLdd rd rs imm s
  | .stb rt rs imm => Sys2Proof.Machine.execStb rt rs imm s
  | .sth rt rs imm => Sys2Proof.Machine.execSth rt rs imm s
  | .stw rt rs imm => Sys2Proof.Machine.execStw rt rs imm s
  | .std rt rs imm => Sys2Proof.Machine.execStd rt rs imm s
  | .beq rs rt off => Sys2Proof.Machine.execBeq rs rt off s
  | .bne rs rt off => Sys2Proof.Machine.execBne rs rt off s
  | .blt rs rt off => Sys2Proof.Machine.execBlt rs rt off s
  | .bge rs rt off => Sys2Proof.Machine.execBge rs rt off s
  | .blo rs rt off => Sys2Proof.Machine.execBlo rs rt off s
  | .bhs rs rt off => Sys2Proof.Machine.execBhs rs rt off s
  | .jal rd off => Sys2Proof.Machine.execJal rd off s
  | .jalr rd rs imm => Sys2Proof.Machine.execJalr rd rs imm s
  | .loop lc rs stop => Sys2Proof.Machine.execLoop lc rs stop s
  | .loopi lc count stop => Sys2Proof.Machine.execLoopi lc count stop s
  | .dset dn q g => Sys2Proof.Machine.execDset dn q g s
  | .dget dn q g => Sys2Proof.Machine.execDget dn q g s
  | .mbw mb rs => Sys2Proof.Machine.execMbw mb rs s
  | .tsig str tag nm1 => Sys2Proof.Machine.execTsig str tag nm1 s
  | .twait str nm1 => Sys2Proof.Machine.execTwait str nm1 s
  | .twaitb str off => Sys2Proof.Machine.execTwaitb str off s
  | .semw sem cnt => Sys2Proof.Machine.execSemw sem cnt s
  | .sems sem cnt => Sys2Proof.Machine.execSems sem cnt s
  | .semr rd sem => Sys2Proof.Machine.execSemr rd sem s
  | .acq so => Sys2Proof.Machine.execAcq so s
  | .rel so => Sys2Proof.Machine.execRel so s
  | .sobind so kind rs => Sys2Proof.Machine.execSobind so kind rs s
  | .boarm so rs => Sys2Proof.Machine.execBoarm so rs s
  | .bowait so => Sys2Proof.Machine.execBowait so s
  | .fence pred succ => Sys2Proof.Machine.execFence pred succ s
  | .tspawn rd rs rt => Sys2Proof.Machine.execTspawn rd rs rt s
  | .srrd rd idx => Sys2Proof.Machine.execSrrd rd idx s
  | .srwr rs idx => Sys2Proof.Machine.execSrwr rs idx s
  | .time rd => Sys2Proof.Machine.execTime rd s
  | .cyc rd => Sys2Proof.Machine.execCyc rd s
  | .rng rd => Sys2Proof.Machine.execRng rd s
  | .trap rs => Sys2Proof.Machine.execTrap rs s
  | .fltinj rs rt => Sys2Proof.Machine.execFltinj rs rt s
  | .loopk idle lc stop count => Sys2Proof.Machine.execLoopk idle lc stop count s
  | .jmpk idle off => Sys2Proof.Machine.execJmpk idle off s
  | .twaitTimed idle q => Sys2Proof.Machine.execTwaitTimed idle q s
  | .twaitbTimed idle q off => Sys2Proof.Machine.execTwaitbTimed idle q off s
  | .tsigTimed idle q tag => Sys2Proof.Machine.execTsigTimed idle q tag s
  | .closeTimed idle => Sys2Proof.Machine.execCloseTimed idle s
  | .halt idle => Sys2Proof.Machine.execHalt idle s
  | .bundle idle s0 s1 s2 => Sys2Proof.Machine.execBundle idle s0 s1 s2 s
  | .vadd o => Sys2Proof.Machine.execVadd o s
  | .vsub o => Sys2Proof.Machine.execVsub o s
  | .vadds o => Sys2Proof.Machine.execVadds o s
  | .vsubs o => Sys2Proof.Machine.execVsubs o s
  | .vmin o => Sys2Proof.Machine.execVmin o s
  | .vmax o => Sys2Proof.Machine.execVmax o s
  | .vminz o => Sys2Proof.Machine.execVminz o s
  | .vmaxz o => Sys2Proof.Machine.execVmaxz o s
  | .vand o => Sys2Proof.Machine.execVand o s
  | .vor o => Sys2Proof.Machine.execVor o s
  | .vxor o => Sys2Proof.Machine.execVxor o s
  | .vnot o => Sys2Proof.Machine.execVnot o s
  | .vshl o => Sys2Proof.Machine.execVshl o s
  | .vshr o => Sys2Proof.Machine.execVshr o s
  | .vsra o => Sys2Proof.Machine.execVsra o s
  | .vmov o => Sys2Proof.Machine.execVmov o s
  | .vceq o => Sys2Proof.Machine.execVceq o s
  | .vclt o => Sys2Proof.Machine.execVclt o s
  | .vcltz o => Sys2Proof.Machine.execVcltz o s
  | .vsel o => Sys2Proof.Machine.execVsel o s
  | .vvalid o => Sys2Proof.Machine.execVvalid o s
  | .viota o => Sys2Proof.Machine.execViota o s
  | .vabs o => Sys2Proof.Machine.execVabs o s
  | .vneg o => Sys2Proof.Machine.execVneg o s
  | .vfadd o => Sys2Proof.Machine.execVfadd o s
  | .vfsub o => Sys2Proof.Machine.execVfsub o s
  | .vfmul o => Sys2Proof.Machine.execVfmul o s
  | .vfma o => Sys2Proof.Machine.execVfma o s
  | .vfms o => Sys2Proof.Machine.execVfms o s
  | .vfnma o => Sys2Proof.Machine.execVfnma o s
  | .vfmin o => Sys2Proof.Machine.execVfmin o s
  | .vfmax o => Sys2Proof.Machine.execVfmax o s
  | .vfabs o => Sys2Proof.Machine.execVfabs o s
  | .vfneg o => Sys2Proof.Machine.execVfneg o s
  | .vfcmp o => Sys2Proof.Machine.execVfcmp o s
  | .vfscale o => Sys2Proof.Machine.execVfscale o s
  | .vfexpo o => Sys2Proof.Machine.execVfexpo o s
  | .vfmant o => Sys2Proof.Machine.execVfmant o s
  | .vdiv o => Sys2Proof.Machine.execVdiv o s
  | .vrcp o => Sys2Proof.Machine.execVrcp o s
  | .vsqrt o => Sys2Proof.Machine.execVsqrt o s
  | .vsqrtc o => Sys2Proof.Machine.execVsqrtc o s
  | .vrsqrt o => Sys2Proof.Machine.execVrsqrt o s
  | .vexp2 o => Sys2Proof.Machine.execVexp2 o s
  | .vlog2 o => Sys2Proof.Machine.execVlog2 o s
  | .vgumb o => Sys2Proof.Machine.execVgumb o s
  | .vsum o => Sys2Proof.Machine.execVsum o s
  | .vscan o => Sys2Proof.Machine.execVscan o s
  | .vrmax o => Sys2Proof.Machine.execVrmax o s
  | .vrmin o => Sys2Proof.Machine.execVrmin o s
  | .vemax o => Sys2Proof.Machine.execVemax o s
  | .vcount o => Sys2Proof.Machine.execVcount o s
  | .vsort o => Sys2Proof.Machine.execVsort o s
  | .vtopk o => Sys2Proof.Machine.execVtopk o s
  | .vtopkm o => Sys2Proof.Machine.execVtopkm o s
  | .vcvtF32 o => Sys2Proof.Machine.execVcvtF32 o s
  | .vcvtF16 o => Sys2Proof.Machine.execVcvtF16 o s
  | .vcvtBf16 o => Sys2Proof.Machine.execVcvtBf16 o s
  | .vcvtE4m3 o => Sys2Proof.Machine.execVcvtE4m3 o s
  | .vcvtE5m2 o => Sys2Proof.Machine.execVcvtE5m2 o s
  | .vcvtS32 o => Sys2Proof.Machine.execVcvtS32 o s
  | .vcvtS16 o => Sys2Proof.Machine.execVcvtS16 o s
  | .vcvtS8 o => Sys2Proof.Machine.execVcvtS8 o s
  | .vmxq o => Sys2Proof.Machine.execVmxq o s
  | .vmxdq o => Sys2Proof.Machine.execVmxdq o s
  | .vpack o => Sys2Proof.Machine.execVpack o s
  | .vwiden o => Sys2Proof.Machine.execVwiden o s
  | .vnarrow o => Sys2Proof.Machine.execVnarrow o s
  | .vrng o => Sys2Proof.Machine.execVrng o s
  | .vperm o => Sys2Proof.Machine.execVperm o s
  | .vshuf o => Sys2Proof.Machine.execVshuf o s
  | .vbcast o => Sys2Proof.Machine.execVbcast o s
  | .vextr o => Sys2Proof.Machine.execVextr o s
  | .vins o => Sys2Proof.Machine.execVins o s
  | .vrot o => Sys2Proof.Machine.execVrot o s
  | .vdot4s o => Sys2Proof.Machine.execVdot4s o s
  | .vdot8s o => Sys2Proof.Machine.execVdot8s o s
  | .vcompact o => Sys2Proof.Machine.execVcompact o s
  | .vexpand o => Sys2Proof.Machine.execVexpand o s
  | .vchain f => Sys2Proof.Machine.execVchain f s
  | .mma f => Sys2Proof.Machine.execMma f s
  | .mmaz f => Sys2Proof.Machine.execMmaz f s
  | .mmas f => Sys2Proof.Machine.execMmas f s
  | .mima f => Sys2Proof.Machine.execMima f s
  | .mzero f => Sys2Proof.Machine.execMzero f s
  | .mldacc f => Sys2Proof.Machine.execMldacc f s
  | .mdrain f => Sys2Proof.Machine.execMdrain f s
  | .wset h w d f => Sys2Proof.Machine.execWset h w d f s
  | .wadv h w ret fetch => Sys2Proof.Machine.execWadv h w ret fetch s
  | .wclose h w => Sys2Proof.Machine.execWclose h w s
  | .copy h d spa i0 cntm1 fo => Sys2Proof.Machine.execCopy h d spa i0 cntm1 fo s
  | .peerCopy h spa prank rowsm1 fo => Sys2Proof.Machine.execPeerCopy h spa prank rowsm1 fo s
  | .gath h d dst idx nm1 => Sys2Proof.Machine.execGath h d dst idx nm1 s
  | .gathTowin h w d idx nm1 => Sys2Proof.Machine.execGathTowin h w d idx nm1 s
  | .scat h d src idx nm1 => Sys2Proof.Machine.execScat h d src idx nm1 s
  | .fill h f => Sys2Proof.Machine.execFill h f s
  | .pref h d tier i0 cntm1 => Sys2Proof.Machine.execPref h d tier i0 cntm1 s
  | .accAddS32 h f => Sys2Proof.Machine.execAccAddS32 h f s
  | .accAddF32 h f => Sys2Proof.Machine.execAccAddF32 h f s
  | .accAddBf16 h f => Sys2Proof.Machine.execAccAddBf16 h f s
  | .accMinS32 h f => Sys2Proof.Machine.execAccMinS32 h f s
  | .accMaxS32 h f => Sys2Proof.Machine.execAccMaxS32 h f s
  | .accMinZ32 h f => Sys2Proof.Machine.execAccMinZ32 h f s
  | .accMaxZ32 h f => Sys2Proof.Machine.execAccMaxZ32 h f s
  | .accAnd h f => Sys2Proof.Machine.execAccAnd h f s
  | .accOr h f => Sys2Proof.Machine.execAccOr h f s
  | .accXor h f => Sys2Proof.Machine.execAccXor h f s
  | .accSwap h f => Sys2Proof.Machine.execAccSwap h f s
  | .accfAddS32 h f => Sys2Proof.Machine.execAccfAddS32 h f s
  | .accfAddF32 h f => Sys2Proof.Machine.execAccfAddF32 h f s
  | .accfAddBf16 h f => Sys2Proof.Machine.execAccfAddBf16 h f s
  | .accfMinS32 h f => Sys2Proof.Machine.execAccfMinS32 h f s
  | .accfMaxS32 h f => Sys2Proof.Machine.execAccfMaxS32 h f s
  | .accfMinZ32 h f => Sys2Proof.Machine.execAccfMinZ32 h f s
  | .accfMaxZ32 h f => Sys2Proof.Machine.execAccfMaxZ32 h f s
  | .accfAnd h f => Sys2Proof.Machine.execAccfAnd h f s
  | .accfOr h f => Sys2Proof.Machine.execAccfOr h f s
  | .accfXor h f => Sys2Proof.Machine.execAccfXor h f s
  | .accfSwap h f => Sys2Proof.Machine.execAccfSwap h f s
  | .cas h d recw w64 scope => Sys2Proof.Machine.execCas h d recw w64 scope s
  | .bclose f => Sys2Proof.Machine.execBclose f s
  | .waitb h n => Sys2Proof.Machine.execWaitb h n s
  | .slopen h p => Sys2Proof.Machine.execSlopen h p s
  | .slfork h p => Sys2Proof.Machine.execSlfork h p s
  | .slmove h p => Sys2Proof.Machine.execSlmove h p s
  | .slmoveSwap h p => Sys2Proof.Machine.execSlmoveSwap h p s
  | .slclose h p => Sys2Proof.Machine.execSlclose h p s
  | .slinfo h p => Sys2Proof.Machine.execSlinfo h p s
  | .rxlook h p lse tier rmt => Sys2Proof.Machine.execRxlook h p lse tier rmt s
  | .seal h p evc => Sys2Proof.Machine.execSeal h p evc s
  | .kapp h p => Sys2Proof.Machine.execKapp h p s
  | .cpact h p => Sys2Proof.Machine.execCpact h p s
  | .repl h p => Sys2Proof.Machine.execRepl h p s
  | .lease h p => Sys2Proof.Machine.execLease h p s
  | .renew h p => Sys2Proof.Machine.execRenew h p s
  | .free h p => Sys2Proof.Machine.execFree h p s
  | .evclass h p => Sys2Proof.Machine.execEvclass h p s
  | .promo h p => Sys2Proof.Machine.execPromo h p s
  | .nodeinfo h p => Sys2Proof.Machine.execNodeinfo h p s
  | .bsel h p => Sys2Proof.Machine.execBsel h p s
  | .pgath h p w => Sys2Proof.Machine.execPgath h p w s
  | .tkfeed h p => Sys2Proof.Machine.execTkfeed h p s
  | .tkdrain h p => Sys2Proof.Machine.execTkdrain h p s
  | .tkdetok h p => Sys2Proof.Machine.execTkdetok h p s
  | .gload h p g => Sys2Proof.Machine.execGload h p g s
  | .gmask h p => Sys2Proof.Machine.execGmask h p s
  | .gstepStep h p => Sys2Proof.Machine.execGstepStep h p s
  | .gstepStart h p g => Sys2Proof.Machine.execGstepStart h p g s
  | .gstepOff h p => Sys2Proof.Machine.execGstepOff h p s
  | .close => Sys2Proof.Machine.execClose s
  | .tdone => Sys2Proof.Machine.execTdone s
  | .nop => Sys2Proof.Machine.execNop s
  | .stalledWordResume => Sys2Proof.Machine.execStalledWordResume s
  | .lockGrant => Sys2Proof.Machine.execLockGrant s
  | .barrierPhaseSeen => Sys2Proof.Machine.execBarrierPhaseSeen s
  | .cStorePerformed => Sys2Proof.Machine.execCStorePerformed s
  | .moveArrival => Sys2Proof.Machine.execMoveArrival s
  | .unitResult => Sys2Proof.Machine.execUnitResult s
  | .followOnStep => Sys2Proof.Machine.execFollowOnStep s
  | .commandStart => Sys2Proof.Machine.execCommandStart s
  | .commandCompletion => Sys2Proof.Machine.execCommandCompletion s
  | .regionCommit => Sys2Proof.Machine.execRegionCommit s
  | .alignmentBarrier => Sys2Proof.Machine.execAlignmentBarrier s
  | .echoArrival => Sys2Proof.Machine.execEchoArrival s
  | .parapetDecision => Sys2Proof.Machine.execParapetDecision s
  | .deadlineFault => Sys2Proof.Machine.execDeadlineFault s
  | .sideLogRetry => Sys2Proof.Machine.execSideLogRetry s
  | .taskPlacement => Sys2Proof.Machine.execTaskPlacement s
  | .preemptionDiscard => Sys2Proof.Machine.execPreemptionDiscard s
  | .placementReservation => Sys2Proof.Machine.execPlacementReservation s
  | .launchPortWrite => Sys2Proof.Machine.execLaunchPortWrite s
  | .task => Sys2Proof.Machine.execTask s
  | .graph => Sys2Proof.Machine.execGraph s
  | .patch => Sys2Proof.Machine.execPatch s
  | .fenceRecord => Sys2Proof.Machine.execFenceRecord s
  | .timed => Sys2Proof.Machine.execTimed s
  | .signal => Sys2Proof.Machine.execSignal s
  | .resume => Sys2Proof.Machine.execResume s
  | .resumeChannel => Sys2Proof.Machine.execResumeChannel s
  | .terminate => Sys2Proof.Machine.execTerminate s
  | .power => Sys2Proof.Machine.execPower s
  | .spanPowerChange => Sys2Proof.Machine.execSpanPowerChange s
  | .timedSlotFire => Sys2Proof.Machine.execTimedSlotFire s
  | .qstatWrite => Sys2Proof.Machine.execQstatWrite s
  | .registerWrite => Sys2Proof.Machine.execRegisterWrite s
  | .hostMemoryWrite => Sys2Proof.Machine.execHostMemoryWrite s
  | .leaseExpiry => Sys2Proof.Machine.execLeaseExpiry s
  | .leaseRebase => Sys2Proof.Machine.execLeaseRebase s
  | .deviceTimeStep => Sys2Proof.Machine.execDeviceTimeStep s
  | .register => Sys2Proof.Machine.execRegister s
  | .unregister => Sys2Proof.Machine.execUnregister s
  | .lookup => Sys2Proof.Machine.execLookup s
  | .holders => Sys2Proof.Machine.execHolders s
  | .rlease => Sys2Proof.Machine.execRlease s
  | .rlgrant => Sys2Proof.Machine.execRlgrant s
  | .rldeny => Sys2Proof.Machine.execRldeny s
  | .rlrenew => Sys2Proof.Machine.execRlrenew s
  | .rlfree => Sys2Proof.Machine.execRlfree s
  | .read => Sys2Proof.Machine.execRead s
  | .data => Sys2Proof.Machine.execData s
  | .remoteLeaseRenew => Sys2Proof.Machine.execRemoteLeaseRenew s
  | .directoryTimeout => Sys2Proof.Machine.execDirectoryTimeout s
  | .linkReplay => Sys2Proof.Machine.execLinkReplay s
  | .timeMessage => Sys2Proof.Machine.execTimeMessage s
  | .syncLoss => Sys2Proof.Machine.execSyncLoss s
  | .boot => Sys2Proof.Machine.execBoot s
  | .measurementExtend => Sys2Proof.Machine.execMeasurementExtend s
  | .configRecordReplace => Sys2Proof.Machine.execConfigRecordReplace s
  | .getVersion => Sys2Proof.Machine.execGetVersion s
  | .getCapabilities => Sys2Proof.Machine.execGetCapabilities s
  | .negotiateAlgorithms => Sys2Proof.Machine.execNegotiateAlgorithms s
  | .getDigests => Sys2Proof.Machine.execGetDigests s
  | .getCertificate => Sys2Proof.Machine.execGetCertificate s
  | .challenge => Sys2Proof.Machine.execChallenge s
  | .getMeasurements => Sys2Proof.Machine.execGetMeasurements s
  | .coreRetirement => Sys2Proof.Machine.execCoreRetirement s
  | .thermalClampEngage => Sys2Proof.Machine.execThermalClampEngage s
  | .thermalClampRelease => Sys2Proof.Machine.execThermalClampRelease s
  | .hbmRetraining => Sys2Proof.Machine.execHbmRetraining s
  | .hbmInterfaceError => Sys2Proof.Machine.execHbmInterfaceError s
  | .bankTest => Sys2Proof.Machine.execBankTest s
  | .patrolScrub => Sys2Proof.Machine.execPatrolScrub s
  | .hbmStatusWrite => Sys2Proof.Machine.execHbmStatusWrite s
  | .portStatusWrite => Sys2Proof.Machine.execPortStatusWrite s
  | .arrayWrite => Sys2Proof.Machine.execArrayWrite s
  | .fjostanPortStateChange => Sys2Proof.Machine.execFjostanPortStateChange s
  | .farMemoryPortStateChange => Sys2Proof.Machine.execFarMemoryPortStateChange s
  | .remoteLeaseHolderExpiry => Sys2Proof.Machine.execRemoteLeaseHolderExpiry s

end Sys2Proof.Machine
end

