-- ==== Sys2Proof/Machine/Schedule.lean ====
section
/-! DEFINITION. What a step adds around exec: fetching and decoding the word a stream issues, starting triggered operations,
and listing the turns of a cycle from the state. -/

namespace Sys2Proof.Machine

/-- What a stream's turn comes to: nothing to run, or an instruction in the state it runs in; ghost marks a word of the cycle in
which its task was already suspended, which is looked at only for the faults it raises (R35). -/
inductive Issue where
  | done (r : Res)
  | run (i : Instr) (s : State)
  | ghost (i : Instr) (s : State)

/-- The actor of a word that issues. -/
def issueActor (t m : Nat) (x : Stream) (pc : W64) (w : BitVec 192) : Actor := ⟨t, m, x, .issue, 0, pc, w⟩

/-- A replica runs its region: it holds its crew, has passed its barrier and has not stopped (R18, R327). -/
def Replica.runs (r : Replica) : Bool := r.holding && !r.atBarrier && r.stopped.isNone

/-- A replica's words issue in a cycle: it runs, or stopped in this very cycle, whose other words issue as well (R35). -/
def Replica.issues (r : Replica) (cycle : Nat) : Bool := r.holding && !r.atBarrier && (r.stopped.isNone || r.stopCycle == cycle)

/-- A stream may issue: it runs, C is not stalled, and its replica's words issue. -/
def mayIssueNow (cycle : Nat) (tk : Task) (mem : Member) (x : Stream) : Bool :=
  (mem.str x).status == StreamStatus.running && (x != Stream.c || mem.stall.isNone) &&
    ((tk.replicas[mem.replica]?).map fun r => r.issues cycle).getD false

/-- Idle cycles before a word that cannot be fetched whole (R19, R89). Where even its first four bytes, which hold IDLE, cannot be read, the
fault is taken as if IDLE were 0: the spec does not say when. [DESIGN CHOICE, log 70] -/
def FetchErr.idle (e : FetchErr) (x : Stream) : Nat :=
  match x with
  | .c => 0
  | _ => (e.head.map (idleOf x)).getD 0

/-- The word of a stream fetched and decoded in state s, with what the fetch itself raises at the word's nominal issue cycle (R89). [DESIGN CHOICE, log 70] -/
def fetchIssue (s : State) (t m : Nat) (x : Stream) (tk : Task) (mem : Member) : Issue :=
  let pc := (mem.str x).pc
  match fetchWord s tk mem x with
  | (.error e, m1, s1) =>
    if s.cycle < (mem.str x).base + e.idle x then .done (.next s)
    else
      let s2 := { s1.putMember t m m1 with cur := issueActor t m x pc 0 }
      .done (raise s2 m1 e.cause e.va 0)
  | (.ok w, m1, s1) =>
    if s.cycle < (mem.str x).base + fetchedIdle x w then .done (.next s)
    else
      let s2 := { s1.putMember t m m1 with cur := issueActor t m x pc w }
      match decodeFetched x w with
      | .error _ => .done (raiseIllegal s2 m1)
      | .ok i => .run i s2

/-- What a word leaves that ran after its task was suspended in the same cycle (R35, R333): its fault records, and with them its entries of the
side log; and its member, for the semaphore overflows at the end of the cycle. The rest goes with the region. [DEDUCED, log 50] -/
def ghostResult (s : State) (t : Nat) : Res → Res
  | .next s1 =>
    match s.tasks[t]?, s1.tasks[t]? with
    | some tk, some tk1 =>
      let s2 := { s with recs := s1.recs, slog := s1.slog, nextLog := s1.nextLog, free := s1.free }
      .next (s2.putTask t { tk with before := tk.before.map fun b => (b.1, tk1.members) })
    | _, _ => .next s
  | r => r

/-- A suspended task as it stood when its region was discarded, with its replicas and members as they were; it keeps them apart, so that its
words raise their faults as those of a suspended task (R35). [DEDUCED, log 50] -/
def Task.revive (tk : Task) (rs : List Replica) (ms : List Member) : Task := { tk with state := .running, replicas := rs, members := ms }

/-- The turn of stream x of member m of task t. [DEDUCED, log 50] -/
def prepareIssue (s : State) (t m : Nat) (x : Stream) : Issue :=
  match s.tasks[t]? with
  | none => .done (.next s)
  | some tk =>
    match tk.state, tk.before with
    | .running, _ =>
      match tk.members[m]? with
      | none => .done (.next s)
      | some mem =>
        if mayIssueNow s.cycle tk mem x && decide ((mem.str x).base ≤ s.cycle) then fetchIssue s t m x tk mem else .done (.next s)
    | .suspended, some (rs, ms) =>
      match ms[m]? with
      | none => .done (.next s)
      | some mem =>
        let tk1 := tk.revive rs ms
        if mayIssueNow s.cycle tk1 mem x && decide ((mem.str x).base ≤ s.cycle) then
          match fetchIssue (s.putTask t tk1) t m x tk1 mem with
          | .run i s1 => .ghost i s1
          | .ghost i s1 => .ghost i s1
          | .done r => .done (ghostResult s t r)
        else .done (.next s)
    | _, _ => .done (.next s)

/-! ## The turns of a cycle -/

/-- The stages of a cycle. [DESIGN CHOICE, log 3] -/
def cycleStages : List Turn := (List.range 15).map Turn.stage

/-- Tasks of the device with their numbers. -/
def State.numbered (s : State) : List (Nat × Task) := s.tasks.zipIdx.map fun p => (p.2, p.1)

/-- Members of a task with their numbers that a test selects. -/
def membersThat (t : Nat) (ms : List Member) (f : Member → Bool) : List (Nat × Nat × Member) :=
  (ms.zipIdx.filter fun m => f m.1).map fun m => (t, m.2, m.1)

/-- Every member of the replicas that run, with its task's number and its own. -/
def State.runningMembers (s : State) : List (Nat × Nat × Member) :=
  s.numbered.flatMap fun p =>
    if p.2.state = TaskState.running then
      membersThat p.1 p.2.members fun m => ((p.2.replicas[m.replica]?).map Replica.runs).getD false
    else []

/-- Every member whose words issue in this cycle: those of the replicas that run or have stopped in this cycle, of a task that a fault has
suspended in this cycle too (R35). -/
def State.issuing (s : State) : List (Nat × Nat × Member) :=
  let of (t : Nat) (rs : List Replica) (ms : List Member) := membersThat t ms fun m => ((rs[m.replica]?).map fun r => r.issues s.cycle).getD false
  s.numbered.flatMap fun p =>
    match p.2.state, p.2.before with
    | .running, _ => of p.1 p.2.replicas p.2.members
    | .suspended, some (rs, ms) => of p.1 rs ms
    | _, _ => []

/-- An event of a member, in its C stream. -/
def memberEvent (t m : Nat) (i : Instr) : Turn := .event ⟨t, m, .c, .issue, 0, 0, 0⟩ .none i

/-- n events of a member. -/
def memberEvents (n t m : Nat) (i : Instr) : List Turn := List.replicate n (memberEvent t m i)

/-- An event of a task. -/
def taskEvent (t : Nat) (i : Instr) : Turn := memberEvent t 0 i

/-- An event of the device with its operand. [DESIGN CHOICE, log 42] -/
def deviceEvent (g : Arg) (i : Instr) : Turn := .event ⟨0, 0, .c, .issue, 0, 0, 0⟩ g i

/-- What the outside world brings: the host, other devices, links, the memory stacks and the management core's sensors. [DESIGN CHOICE, log 42] -/
def fromOutside : Instr → Bool
  | .launchPortWrite | .qstatWrite | .registerWrite | .hostMemoryWrite | .deviceTimeStep | .register | .unregister | .lookup
  | .holders | .rlease | .rlgrant | .rldeny | .rlrenew | .rlfree | .read | .data | .linkReplay | .timeMessage | .boot
  | .measurementExtend | .configRecordReplace | .getVersion | .getCapabilities | .negotiateAlgorithms | .getDigests
  | .getCertificate | .challenge | .getMeasurements | .thermalClampEngage | .thermalClampRelease | .hbmRetraining
  | .hbmInterfaceError | .bankTest | .patrolScrub | .hbmStatusWrite | .portStatusWrite | .fjostanPortStateChange
  | .farMemoryPortStateChange => true
  | _ => false

/-- Stage 1: what the outside world brings in this cycle. [DESIGN CHOICE, log 3; DESIGN CHOICE, log 42] -/
def inputTurns (s : State) : List Turn :=
  (s.inputs.filter fun x => decide (x.1 ≤ s.cycle) && fromOutside x.2.1).map fun x => deviceEvent x.2.2 x.2.1

/-- Stage 3: tasks whose charge exceeds their budget (R25). -/
def deadlineTurns (s : State) : List Turn :=
  (s.numbered.filter fun p => (p.2.placed || p.2.before.isSome) && decide (p.2.budget < p.2.maxCharge)).map fun p => taskEvent p.1 .deadlineFault

/-- Stage 4: results, arrivals and array writes of this cycle (R155, R157, R210). -/
def arrivalTurns (s : State) : List Turn :=
  s.runningMembers.flatMap fun p =>
    let m := p.2.2
    memberEvents (m.results.filter fun r => r.due == s.cycle).length p.1 p.2.1 .unitResult ++
    memberEvents ((m.moves.filter fun r => r.arrive == s.cycle).length +
      (m.chains.filter fun r => r.arrive == s.cycle && r.reads.isNone).length) p.1 p.2.1 .moveArrival ++
    memberEvents (m.jobs.filter fun j => j.due s.cycle).length p.1 p.2.1 .arrayWrite

/-- A member's C turn: the stalled word tried again, or the next word. -/
def cTurn (t m : Nat) (mem : Member) : Turn :=
  match mem.stall with
  | some _ => .event (endActor t m mem) .none .stalledWordResume
  | none => .issue t m .c

/-- Stage 8: issues, members in order, streams C, L, S, K (R35, R48); then a follow-on step that waits. -/
def issueTurns (s : State) : List Turn :=
  s.issuing.flatMap fun p => [cTurn p.1 p.2.1 p.2.2, .issue p.1 p.2.1 .l, .issue p.1 p.2.1 .s, .issue p.1 p.2.1 .k,
    memberEvent p.1 p.2.1 .followOnStep]

/-- Every member that runs, changed by a function. -/
def State.mapRunning (s : State) (f : Task → Member → Member) : State :=
  { s with tasks := s.tasks.map fun tk =>
      if tk.state = .running then
        { tk with members := tk.members.map fun m => if ((tk.replicas[m.replica]?).map Replica.runs).getD false then f tk m else m }
      else tk }

/-- A multiply word that passes items 1 to 3 of R209, whose group a mismatch of item 4 is looked for in. -/
def multiplyPassing (tk : Task) (mem : Member) : Instr → Option MatFields
  | .mma f | .mmas f => if multiplyLegal true tk mem f && (multiplyTrap tk f).isNone then some f else none
  | .mmaz f | .mima f => if multiplyLegal false tk mem f && (multiplyTrap tk f).isNone then some f else none
  | _ => none

/-- The multiply word of a member whose nominal issue cycle is the present one (R209, R213). [DEDUCED, log 12] -/
def nominalMatrix (s : State) (tk : Task) (mem : Member) : Option MatFields :=
  let k := mem.str .k
  if !mayIssueNow s.cycle tk mem .k || k.waiting then none
  else match (fetchWord s tk mem .k).1 with
    | .error _ => none
    | .ok w =>
      if s.cycle < k.base + fetchedIdle .k w then none
      else match decodeFetched .k w with
        | .ok i => multiplyPassing tk mem i
        | .error _ => none

/-- A container of a row that the K stream and an engine both write in one cycle: the old value or one of the new ones, by a free value (R159). -/
def pick3 (free : Nat) (old k now : Container) : Container :=
  match (Config.freeWord free).toNat % 3 with
  | 0 => old
  | 1 => k
  | _ => now

/-- A container that the K stream and an engine have both written in this cycle (R159). -/
def Member.mergeCont (mem : Member) (free c : Nat) : Member :=
  let at_ := fun (sp : SMap Container) => (sp.find c).getD Container.none
  mem.setCont c (pick3 free (at_ mem.spStart) (at_ mem.spMid) (mem.cont c))

/-- The containers that a K move or the array and an engine have both written in this cycle, whatever they wrote. [DEDUCED, log 54] -/
def Member.contested (mem : Member) : List Nat := (mem.kWrote.filter mem.wrote.contains).eraseDups

/-- Before the issues of stage 8: containers written both by the K stream and by an engine (R159). [DEDUCED, log 54] -/
def mergeWrites (s : State) : State :=
  s.runningMembers.foldl (fun st p =>
    p.2.2.contested.foldl (fun x c => { x.modMember p.1 p.2.1 (fun m => m.mergeCont x.free c) with free := x.free + 1 }) st) s

/-- Stage 9: the scratchpad rows read in phase 3 by chains and the matrix array (R196, R210). [DEDUCED, log 54] -/
def phaseReads (s : State) : State :=
  s.runningMembers.foldl (fun st p => (st.readChains p.1 p.2.1).arrayReads p.1 p.2.1) s

/-- The performance of an engine command. -/
def performTurn (t m : Nat) (c : Cmd) : Turn := .event ⟨t, m, c.stream, .perform, c.seq, c.key.addr, c.u1 ++ c.u0⟩ .none c.instr

/-- A command is due to work in a cycle. -/
def Cmd.dueIn (c : Cmd) (cycle : Nat) : Bool := match c.state with
  | .active d => decide (d ≤ cycle)
  | .waitLog => true
  | _ => false

/-- Commands of a stream that are queued. -/
def Member.queuedIn (mem : Member) (x : Stream) : Nat :=
  (mem.cmds.filter fun c => c.stream == x && c.state == CmdState.queued).length

/-- Stage 6: commands that start, and commands that work (R219, R220). -/
def engineTurns (s : State) : List Turn :=
  s.runningMembers.flatMap fun p =>
    let m := p.2.2
    let start (x : Stream) : List Turn := List.replicate (m.queuedIn x) (.event ⟨p.1, p.2.1, x, .issue, 0, 0, 0⟩ .none .commandStart)
    start .l ++ start .s ++ (m.cmds.filter fun c => c.dueIn s.cycle).map fun c => performTurn p.1 p.2.1 c

/-- Stage 7: side-log entries tried again every 65,536 cycles, completions and echoes (R220, R314, R364). -/
def completionTurns (s : State) : List Turn :=
  (if s.cycle % 65536 = 0 ∧ s.slog.isEmpty = false then [deviceEvent .none .sideLogRetry] else []) ++
  s.runningMembers.flatMap fun p =>
    let m := p.2.2
    ((m.cmds.filter fun c => m.complete c s.cycle).map fun c =>
      .event ⟨p.1, p.2.1, c.stream, .issue, c.seq, c.key.addr, c.u1 ++ c.u0⟩ .none .commandCompletion) ++
    if echoStall m || (echoCmd m).isSome then [memberEvent p.1 p.2.1 .echoArrival] else []

/-- The byte counts of member m of task t that wait for room in the side log, tried again (R220, R478). [DEDUCED, log 27] -/
def State.retryCounts (s : State) (t m : Nat) : State :=
  match s.tasks[t]? with
  | none => s
  | some tk =>
    match tk.members[m]? with
    | none => s
    | some mem =>
      let r := mem.counts.foldl (fun (a : Member × State) c => a.2.addBytes t m tk a.1 c c.bytes) ({ mem with counts := [] }, s)
      r.2.putMember t m r.1

/-- The byte counts of unreplicated tasks that wait, tried again. -/
def retryAllCounts (s : State) : State :=
  s.runningMembers.foldl (fun st p =>
    if p.2.2.counts.isEmpty || ((s.tasks[p.1]?).map Task.replicated).getD true then st else st.retryCounts p.1 p.2.1) s

/-- Stage 10: what the home slices do (R143, R146, R295). -/
def homeTurns (s : State) : List Turn :=
  (s.numbered.flatMap fun p => (p.2.members.zipIdx).flatMap fun m =>
    memberEvents (m.1.stores.filter fun x => decide (x.due ≤ s.cycle)).length p.1 m.2 .cStorePerformed) ++
  (s.runningMembers.flatMap fun p => match p.2.2.stall with
    | some (.acq _) => [.event (endActor p.1 p.2.1 p.2.2) .none .lockGrant]
    | some (.bowait _) => [.event (endActor p.1 p.2.1 p.2.2) .none .barrierPhaseSeen]
    | _ => [])

/-- Semaphore overflows of this cycle, by task (R35, R48). [DESIGN CHOICE, log 65] -/
def State.overflows (s : State) : List (Nat × FaultInfo) :=
  s.issuing.flatMap fun p => p.2.2.semEnd.2.map fun f => (p.1, f)

/-- Every semaphore overflow of the cycle raised, before the records of the cycle are presented (R35, R48). -/
def raiseOverflows (s : State) : State := s.overflows.foldl (fun st p => st.raiseFor p.1 p.2) s

/-- Stage 11: commits and decisions (R27, R322). -/
def commitTurns (s : State) : List Turn :=
  s.numbered.flatMap fun p =>
    if p.2.placed then [taskEvent p.1 .regionCommit, taskEvent p.1 .parapetDecision]
    else if p.2.ending.isSome && p.2.commit != Commit.none then [taskEvent p.1 .regionCommit]
    else []

/-- Stage 12: alignment barriers (R18), whose replicas take SR.FAULT with the records of this cycle in it (R336). -/
def barrierTurns (s : State) : List Turn :=
  (s.numbered.filter fun p => p.2.placed && p.2.replicas.any fun r => r.atBarrier).map fun p => taskEvent p.1 .alignmentBarrier

/-- The event that takes a record of a kind from the head of its queue (R404). -/
def recordEvent : Nat → Option Instr
  | 1 => some .task
  | 2 => some .graph
  | 3 => some .patch
  | 4 => some .fenceRecord
  | 5 => some .timed
  | 6 => some .signal
  | 7 => some .resume
  | 8 => some .resumeChannel
  | 9 => some .terminate
  | 10 => some .power
  | _ => none

/-- The heads of the queues: a record's event; a record of no kind is discarded at the head (R405). -/
def headTurns (s : State) : List Turn :=
  s.queues.flatMap fun q => match q.2.entries.head?.bind (·.record) with
    | some r => match recordEvent (recKind r) with
      | some i => [deviceEvent (.num q.1) i]
      | none => []
    | none => []

/-- Records of kind 0 or 0xB to 0xF discarded at the heads of their queues (R405). -/
def discardUnknown (s : State) : State :=
  s.queues.foldl (fun st q => match q.2.entries.head?.bind (·.record) with
    | some r => if (recordEvent (recKind r)).isNone then st.discardHead q.1 else st
    | none => st) s

/-- Running tasks on reserved cores that the reservation may have discarded (R33, R414). -/
def preemptTurns (s : State) : List Turn :=
  match s.reserve with
  | none => []
  | some r =>
    match s.tasks[r.task]? with
    | none => []
    | some tk =>
      (s.numbered.filter fun p => p.2.state == TaskState.running && p.2.pre && decide (p.2.discards < 3) &&
        decide (p.2.prio + 2 ≤ s.effPrio tk) && p.2.members.any fun m => r.cores.contains m.core).map fun p =>
          taskEvent p.1 .preemptionDiscard

/-- Stage 13: the dispatcher (R405, R412 to R416). -/
def dispatchTurns (s : State) : List Turn :=
  headTurns s ++ ((s.ttNext.filter fun e => s.ttDue e.1 != 0).map fun e => deviceEvent (.num e.1) .timedSlotFire) ++
  (if s.tasks.any fun k => k.state == TaskState.ready then [deviceEvent .none .taskPlacement, deviceEvent .none .placementReservation]
   else []) ++ preemptTurns s

/-- Stages 0 and 2: device time, leases, the directory, power, repair and the memory stacks' own work (R362, R377, R391, R392, R420, R427,
R430, R431, R440, R441). -/
def deviceTurns (s : State) : List Turn :=
  List.replicate ((tickBase s.dueTick - s.time.base) / 32768) (deviceEvent .none .leaseRebase) ++
  (if s.time.tick < s.dueTick then [deviceEvent .none .leaseExpiry] else []) ++
  (if s.syncLost then [deviceEvent .none .syncLoss] else []) ++
  List.replicate (s.fabric.held.filter fun l => decide (l.lastUse < s.time.ns)).length (deviceEvent .none .remoteLeaseHolderExpiry) ++
  List.replicate (s.fabric.held.filter s.renewDue).length (deviceEvent .none .remoteLeaseRenew) ++
  List.replicate (s.fabric.reqs.filter fun r => decide (r.sent + Config.dirTimeout ≤ s.time.ns)).length
    (deviceEvent .none .directoryTimeout) ++
  (((List.range s.power.spans.length).filter fun i => s.power.spans.getD i 0 != s.power.accepted && s.spanIdle i).map fun i =>
    deviceEvent (.num i) .spanPowerChange) ++
  (s.mgmt.repair.retiring.filter (fun p => !s.coreInUse p)).map (fun p => deviceEvent (.num p) .coreRetirement) ++
  s.testsDue.map (fun i => deviceEvent (.num i) .bankTest) ++
  (if s.testDue then [deviceEvent .none .bankTest] else []) ++ (if s.scrubDue then [deviceEvent .none .patrolScrub] else [])

/-! ## The end of a cycle (R24, R48, R49, R51, R135) -/

/-- A token queue after a cycle: the oldest taken off, then the new ones appended. -/
def Member.tokEnd (mem : Member) (q : Nat) : List Bool :=
  (mem.tokens q).drop (mem.tokTaken q) ++ (mem.pend.tokPush.filter fun p => p.1 == q).flatMap (·.2)

/-- A member at the end of a cycle: its semaphores, descriptors, mailboxes, token queues and windows take what the cycle has left for them. -/
def Member.endCycle (mem : Member) : Member :=
  { mem.semEnd.1 with
    d := Vector.ofFn fun i : Fin 64 => mem.descNow (BitVec.ofFin i)
    mb := mem.pend.mbw.foldl (fun v p => setVec v p.1 p.2) mem.mb
    tq := Vector.ofFn fun i : Fin 12 => mem.tokEnd i.val
    win := mem.win.map Window.endCycle
    matNow := none
    pend := Pend.empty }

/-- A replica charged for a cycle in which it holds its crew (R24), the charge of a cycle counting that cycle. [DESIGN CHOICE, log 74] -/
def Replica.charged (r : Replica) : Replica := if r.holding then { r with charge := r.charge + 1 } else r

/-- A task at the end of a cycle. -/
def Task.endCycle (tk : Task) : Task :=
  { tk with
    members := if tk.state = .running then tk.members.map Member.endCycle else tk.members
    replicas := if tk.placed then tk.replicas.map Replica.charged else tk.replicas
    before := none }

/-- The length of a cycle at a power state, in units of 1/1,217,370 ns (R441). [DEDUCED, log 37] -/
def clockUnits (power : Nat) : Nat :=
  [716100, 785400, 869550, 973896, 1106700, 1432200, 2028950, 3043425].getD power 716100

/-- The length of a cycle of a span: twice as long while its die is clamped (R442). [DEDUCED, log 37] -/
def State.spanUnits (s : State) (span : Nat) : Nat :=
  clockUnits (s.power.spans.getD span 0) * if s.power.clamped.contains (span / 8) then 2 else 1

/-- The length of the device's cycle: the model steps all spans together, at the clock of the slowest that runs a task (R6, R441). [DEDUCED,
log 37] -/
def State.cycleUnits (s : State) : Nat :=
  let used := ((s.tasks.filter Task.placed).flatMap fun k => k.members.map fun m => m.core / 8).eraseDups
  ((if used.isEmpty then List.range s.power.spans.length else used).map s.spanUnits).foldl max 0

/-- Device time some units later (R429). -/
def TimeUnit.advance (x : TimeUnit) (units : Nat) : TimeUnit :=
  { x with ns := x.ns + (x.frac + units) / 1217370, frac := (x.frac + units) % 1217370 }

/-- The end of a cycle. -/
def endCycle (s : State) : State :=
  { s with tasks := s.tasks.map Task.endCycle, cycle := s.cycle + 1, time := s.time.advance s.cycleUnits }

/-- A stage's turns put before the rest of the agenda. [DESIGN CHOICE, log 3] -/
def State.list (s : State) (l : List Turn) : State := { s with agenda := l ++ s.agenda }

/-- One stage of the cycle: what the device does at its own time (R362, R377), before and after the inputs (1), with the messages they have brought, deadlines (3), arrivals and array
writes (4), triggered operations (5), engines (6), completions (7), issues (8), phase-3 reads (9), home slices (10), overflows and commits (11),
the cycle's fault records and alignment barriers (12), the dispatcher (13), and the end of the cycle. [DESIGN CHOICE, log 3] -/
def stageStep (n : Nat) (s : State) : State :=
  match n with
  | 0 => s.list (deviceTurns s)
  | 2 =>
    let r := s.takeFlits
    r.1.list (r.2.map (fun x => deviceEvent x.2 x.1) ++ deviceTurns r.1)
  | 1 =>
    let s1 := s.softErrors
    { s1.list (inputTurns s) with inputs := s.inputs.filter fun x => decide (s.cycle < x.1) }
  | 3 => s.list (deadlineTurns s)
  | 4 => (s.mapRunning fun _ m => { m with spStart := m.spad, wrote := [], kWrote := [] }).list (arrivalTurns s)
  | 5 => s.list (s.runningMembers.map fun p => .starts p.1 p.2.1)
  | 6 => (s.mapRunning fun _ m => { m with spMid := m.spad, kWrote := m.wrote, wrote := [] }).list (engineTurns s)
  | 7 => s.list (completionTurns s)
  | 8 =>
    let s1 := mergeWrites s
    (s1.mapRunning fun tk m => { m with matNow := nominalMatrix s1 tk m }).list (issueTurns s1)
  | 9 => phaseReads s
  | 10 => (retryAllCounts s).list (homeTurns s)
  | 11 =>
    let s1 := raiseOverflows s
    s1.list (commitTurns s1)
  | 12 =>
    let s1 := s.presentAll
    s1.list (barrierTurns s1)
  | 13 => (discardUnknown s).list (dispatchTurns s)
  | _ => endCycle s.presentAll

/-- The operations whose triggers arrived, listed as turns (R155). -/
def startTurns (s : State) (t m : Nat) : State :=
  match s.member? t m with
  | none => s
  | some mem => s.list (mem.starts.filterMap fun g =>
      (decodeOp (BitVec.ofNat 3 g.st) g.op g.x).map fun i => .event ⟨t, m, .k, .issue, 0, g.key.addr, 0⟩ .none i)

/-! ## Placing a word where the next step fetches it -/

/-- Physical addresses of the tables and the code page that withFetchWord writes. -/
def fetchRoot : Nat := 0x100000
def fetchCode : Nat := 0x106000
/-- The virtual address of the word. -/
def fetchVA : Nat := 0x1000

/-- Tables that map the code page at fetchVA with R and X. -/
def State.withFetchTables (s : State) : State :=
  (((((s.wrMem fetchRoot (leBytes 8 0x101003)).wrMem 0x101000 (leBytes 8 0x102003)).wrMem 0x102000 (leBytes 8 0x103003)).wrMem
    0x103000 (leBytes 8 0x104003)).wrMem 0x104008 (leBytes 8 0x1060A1))

/-- The stream whose decoder takes the word: C up to 32 bits, else the first of L, S and K that decodes it. -/
def fetchStream (nbits w : Nat) : Stream :=
  if nbits ≤ 32 then .c
  else
    let u0 := BitVec.ofNat 96 w
    let u1 := BitVec.ofNat 96 (w >>> 96)
    if (decodeTimed .l u0 u1).toOption.isSome then .l
    else if (decodeTimed .s u0 u1).toOption.isSome then .s
    else .k

/-- A task of one member that stands at the word, running. [DESIGN CHOICE, log 3] -/
def fetchTask (s : State) : Task :=
  let va := BitVec.ofNat 64 fetchVA
  let tk := Task.launch 0 0xFFFF 0 0 0 false 0 0 0 none none s.time.ns
  { tk with
    state := .running, ptroot := fetchRoot, placedOnce := true, budget := 2 ^ 40 - 1
    hdr := 80#1024 <<< 336 ||| 1#1024 <<< 354
    members := [(Member.place 0 0 0 (Ckpt.first 0 0 (Vector.replicate 64 0) [va, va, va, va])).acquire s], began := s.past.length
    replicas := [{ Replica.blank with holding := true, origin := s.cycle }] }

end Sys2Proof.Machine
end

