-- ==== Sys2Proof/Machine/Step.lean ====
section
/-! DEFINITION. One step: the first turn of the agenda, or a new cycle's stages when the agenda is empty. -/

namespace Sys2Proof.Machine

/-- One step of the device. [DESIGN CHOICE, log 3] -/
def step (s : State) : Host.Outcome State Fault Refusal :=
  match s.agenda with
  | [] => .next { s with agenda := cycleStages }
  | turn :: rest =>
    match turn with
    | .event a g i => exec i { s with agenda := rest, cur := a, arg := g }
    | .issue t m x =>
      match prepareIssue { s with agenda := rest } t m x with
      | .done r => r
      | .run i s1 => exec i s1
      | .ghost i s1 => ghostResult { s with agenda := rest } t (exec i s1)
    | .starts t m => .next (startTurns { s with agenda := rest } t m)
    | .stage n => .next (stageStep n { s with agenda := rest })

/-- s with a word placed where step fetches its next instruction: a running task with one member, page tables that map the
word's page, the word's bytes, and its issue as the next turn (notes/assumptions/3.md says how a program comes to run from
reset). [DESIGN CHOICE, log 3] -/
def State.withFetchWord (s : State) (nbits w : Nat) : State :=
  let s1 := (s.withFetchTables).wrMem fetchCode (leBytes 24 w)
  { s1 with
    cycle := s.cycle + 64
    tasks := s.tasks ++ [fetchTask s1]
    agenda := [.issue s.tasks.length 0 (fetchStream nbits w)] }

end Sys2Proof.Machine
end

