-- ==== Sys2Proof/WellFormed.lean ====
section
/-! DEFINITION. Which instructions are well formed: those some word or trigger encodes. The fields of Instr have the widths
of the encodings, so only these checks remain: WAITB must name no sync object (R223), a chain has one to eight stages
(R110), and a station operation's number, type and modifier must be legal on its station (R107, R108, R161, R175). -/

namespace Sys2Proof

/-- The timed streams that may issue an instruction with words of one or two units (R91, R95, R96, R100, R109): the sequencing words
issue in all three, BCLOSE, WAITB and COPY in L and S, matrix words, chains and bundles in K, each other command in L or in S. -/
def Instr.timedStreams : Instr → List Stream
  | .loopk .. | .jmpk .. | .twaitTimed .. | .twaitbTimed .. | .tsigTimed .. | .closeTimed .. | .halt .. => [.l, .s, .k]
  | .bundle .. | .mma .. | .mmaz .. | .mmas .. | .mima .. | .mzero .. | .mldacc .. | .mdrain .. | .vchain .. => [.k]
  | .bclose .. | .waitb .. | .copy .. => [.l, .s]
  | .fill _ (.spad ..) => [.l]
  | .fill _ (.mem ..) => [.s]
  | .accAddS32 .. | .accAddF32 .. | .accAddBf16 .. | .accMinS32 .. | .accMaxS32 .. | .accMinZ32 .. | .accMaxZ32 .. | .accAnd ..
  | .accOr .. | .accXor .. | .accSwap .. | .accfAddS32 .. | .accfAddF32 .. | .accfAddBf16 .. | .accfMinS32 .. | .accfMaxS32 ..
  | .accfMinZ32 .. | .accfMaxZ32 .. | .accfAnd .. | .accfOr .. | .accfXor .. | .accfSwap .. | .cas .. | .scat .. => [.s]
  | .slopen .. | .slfork .. | .slmove .. | .slmoveSwap .. | .slclose .. | .seal .. | .kapp .. | .cpact .. | .lease .. | .renew ..
  | .free .. | .evclass .. | .promo .. | .gstepStep .. | .gstepStart .. | .gstepOff .. => [.s]
  | _ => [.l]

/-- The streams in which an instruction may issue. -/
def Instr.streams (i : Instr) : List Stream :=
  match encode i with
  | none => []
  | some (.c _) => [.c]
  | some _ => i.timedStreams

/-- The well-formedness check. -/
def Instr.wf (i : Instr) : Bool :=
  match i with
  | .waitb h _ => h.so == 0#6
  | .vchain f => 1 ≤ f.stages.length && f.stages.length ≤ 8
  | _ =>
    match encodeOp i with
    | some (st, op, x) => decodeOp st op x == some i
    | none => true

end Sys2Proof
end

