-- ==== Sys2Proof/Safety.lean ====
section
/-! DEFINITION. The terms the statements use: whose turn it is, what a word is expected to compute, and the parts of the
state that must stay as they are. The expected results are written from the rules of spec/ apart from the meanings. -/

namespace Sys2Proof.Machine

/-! ## Whose turn it is -/

/-- The word or event whose turn it is belongs to member mem of task tk. -/
structure Current (s : State) (tk : Task) (mem : Member) : Prop where
  task : s.tasks[s.cur.task]? = some tk
  member : tk.members[s.cur.member]? = some mem

/-- The C word at the current address is taken a fault on: the state after (R329, R334). -/
def faulted (s : State) (mem : Member) (cause : Nat) (addr : W64) (aux : Nat) : State :=
  s.raiseFor s.cur.task (s.info mem cause 0 addr aux)

/-- The state after a C word that leaves the member as m and goes on in sequence. -/
def afterC (s : State) (m : Member) : State := s.put (m.cNext s.cycle)

/-! ## Scalar words -/

/-- A result of two registers: its value, poisoned when an operand is (R41, R122). -/
def fromTwo (mem : Member) (rs rt : BitVec 5) (f : W64 → W64 → W64) : Scalar :=
  ⟨f (mem.rd rs).val (mem.rd rt).val, (mem.rd rs).poison || (mem.rd rt).poison⟩

/-- A result of one register. -/
def fromOne (mem : Member) (rs : BitVec 5) (f : W64 → W64) : Scalar := ⟨f (mem.rd rs).val, (mem.rd rs).poison⟩

/-- The place of the highest one bit of a number, plus 1; 0 for 0. -/
def bitLength (a : Nat) : Nat := if a = 0 then 0 else Nat.log2 a + 1

/-- Destination and result of the words of R122 and R124 that never fault, by the integers the rules name; the division words
stand in divisionResult. -/
def scalarResult (mem : Member) : Instr → Option (BitVec 5 × Scalar)
  | .add rd rs rt => some (rd, fromTwo mem rs rt fun a b => BitVec.ofNat 64 (a.toNat + b.toNat))
  | .sub rd rs rt => some (rd, fromTwo mem rs rt fun a b => BitVec.ofInt 64 ((a.toNat : Int) - b.toNat))
  | .mul rd rs rt => some (rd, fromTwo mem rs rt fun a b => BitVec.ofNat 64 (a.toNat * b.toNat))
  | .mulh rd rs rt => some (rd, fromTwo mem rs rt fun a b => BitVec.ofInt 64 ((a.toInt * b.toInt) / 2 ^ 64))
  | .mulhz rd rs rt => some (rd, fromTwo mem rs rt fun a b => BitVec.ofNat 64 (a.toNat * b.toNat / 2 ^ 64))
  | .and_ rd rs rt => some (rd, fromTwo mem rs rt fun a b => BitVec.ofNat 64 (a.toNat &&& b.toNat))
  | .or_ rd rs rt => some (rd, fromTwo mem rs rt fun a b => BitVec.ofNat 64 (a.toNat ||| b.toNat))
  | .xor_ rd rs rt => some (rd, fromTwo mem rs rt fun a b => BitVec.ofNat 64 (a.toNat ^^^ b.toNat))
  | .shl rd rs rt => some (rd, fromTwo mem rs rt fun a b => BitVec.ofNat 64 (a.toNat * 2 ^ (b.toNat % 64)))
  | .shr rd rs rt => some (rd, fromTwo mem rs rt fun a b => BitVec.ofNat 64 (a.toNat / 2 ^ (b.toNat % 64)))
  | .sra rd rs rt => some (rd, fromTwo mem rs rt fun a b => BitVec.ofInt 64 (a.toInt / 2 ^ (b.toNat % 64)))
  | .min rd rs rt => some (rd, fromTwo mem rs rt fun a b => BitVec.ofInt 64 (Min.min a.toInt b.toInt))
  | .max rd rs rt => some (rd, fromTwo mem rs rt fun a b => BitVec.ofInt 64 (Max.max a.toInt b.toInt))
  | .minz rd rs rt => some (rd, fromTwo mem rs rt fun a b => BitVec.ofNat 64 (Nat.min a.toNat b.toNat))
  | .maxz rd rs rt => some (rd, fromTwo mem rs rt fun a b => BitVec.ofNat 64 (Nat.max a.toNat b.toNat))
  | .clz rd rs => some (rd, fromOne mem rs fun a => BitVec.ofNat 64 (64 - bitLength a.toNat))
  | .popc rd rs => some (rd, fromOne mem rs fun a => BitVec.ofNat 64 ((List.range 64).countP fun k => a.getLsbD k))
  | .lea rd rs rt sc => some (rd, fromTwo mem rs rt fun a b => BitVec.ofNat 64 (a.toNat + b.toNat * 2 ^ sc.toNat))
  | .addi rd rs imm => some (rd, fromOne mem rs fun a => BitVec.ofInt 64 ((a.toNat : Int) + imm.toInt))
  | .andi rd rs imm => some (rd, fromOne mem rs fun a => BitVec.ofNat 64 (a.toNat &&& imm.toNat))
  | .ori rd rs imm => some (rd, fromOne mem rs fun a => BitVec.ofNat 64 (a.toNat ||| imm.toNat))
  | .xori rd rs imm => some (rd, fromOne mem rs fun a => BitVec.ofNat 64 (a.toNat ^^^ imm.toNat))
  | .lih rd rs imm => some (rd, fromOne mem rs fun a => BitVec.ofNat 64 (a.toNat * 2 ^ 16 + imm.toNat))
  | .shli rd rs sh => some (rd, fromOne mem rs fun a => BitVec.ofNat 64 (a.toNat * 2 ^ sh.toNat))
  | .shri rd rs sh => some (rd, fromOne mem rs fun a => BitVec.ofNat 64 (a.toNat / 2 ^ sh.toNat))
  | .srai rd rs sh => some (rd, fromOne mem rs fun a => BitVec.ofInt 64 (a.toInt / 2 ^ sh.toNat))
  | _ => none

/-- Quotient and remainder of R123 on signed numbers: quotient -1 and remainder a for a zero divisor; else the quotient is
truncated toward zero and the remainder is what is left. -/
def signedDivision (a b : Int) : Int × Int :=
  if b = 0 then (-1, a)
  else
    let q := if (a < 0) = (b < 0) then ((a.natAbs / b.natAbs : Nat) : Int) else -((a.natAbs / b.natAbs : Nat) : Int)
    (q, a - q * b)

/-- Quotient and remainder of R123 on unsigned numbers. -/
def unsignedDivision (a b : Nat) : Nat × Nat := if b = 0 then (2 ^ 64 - 1, a) else (a / b, a - a / b * b)

/-- Destination and result of the division words (R123). -/
def divisionResult (mem : Member) : Instr → Option (BitVec 5 × Scalar)
  | .div_ rd rs rt => some (rd, fromTwo mem rs rt fun a b => BitVec.ofInt 64 (signedDivision a.toInt b.toInt).1)
  | .rem_ rd rs rt => some (rd, fromTwo mem rs rt fun a b => BitVec.ofInt 64 (signedDivision a.toInt b.toInt).2)
  | .divz rd rs rt => some (rd, fromTwo mem rs rt fun a b => BitVec.ofNat 64 (unsignedDivision a.toNat b.toNat).1)
  | .remz rd rs rt => some (rd, fromTwo mem rs rt fun a b => BitVec.ofNat 64 (unsignedDivision a.toNat b.toNat).2)
  | _ => none

/-- The compares (R124, R125): destination, whether an operand is poisoned, and whether the relation holds. -/
def compareOf (mem : Member) : Instr → Option (BitVec 5 × Bool × Bool)
  | .seq rd rs rt => some (rd, (mem.rd rs).poison || (mem.rd rt).poison, (mem.rd rs).val == (mem.rd rt).val)
  | .slt rd rs rt =>
    some (rd, (mem.rd rs).poison || (mem.rd rt).poison, decide ((mem.rd rs).val.toInt < (mem.rd rt).val.toInt))
  | .sltz rd rs rt =>
    some (rd, (mem.rd rs).poison || (mem.rd rt).poison, decide ((mem.rd rs).val.toNat < (mem.rd rt).val.toNat))
  | .slti rd rs imm => some (rd, (mem.rd rs).poison, decide ((mem.rd rs).val.toInt < imm.toInt))
  | _ => none

/-- The branches (R131): whether an operand is poisoned, the offset, and whether the branch is taken. -/
def branchOf (mem : Member) : Instr → Option (Bool × BitVec 16 × Bool)
  | .beq rs rt off => some ((mem.rd rs).poison || (mem.rd rt).poison, off, (mem.rd rs).val == (mem.rd rt).val)
  | .bne rs rt off => some ((mem.rd rs).poison || (mem.rd rt).poison, off, !((mem.rd rs).val == (mem.rd rt).val))
  | .blt rs rt off =>
    some ((mem.rd rs).poison || (mem.rd rt).poison, off, decide ((mem.rd rs).val.toInt < (mem.rd rt).val.toInt))
  | .bge rs rt off =>
    some ((mem.rd rs).poison || (mem.rd rt).poison, off, !decide ((mem.rd rs).val.toInt < (mem.rd rt).val.toInt))
  | .blo rs rt off =>
    some ((mem.rd rs).poison || (mem.rd rt).poison, off, decide ((mem.rd rs).val.toNat < (mem.rd rt).val.toNat))
  | .bhs rs rt off =>
    some ((mem.rd rs).poison || (mem.rd rt).poison, off, !decide ((mem.rd rs).val.toNat < (mem.rd rt).val.toNat))
  | _ => none

/-! ## Loads and stores (R126 to R129) -/

/-- A load: destination, base register, immediate, bytes, and whether it is sign-extended. -/
structure LoadForm where
  rd : BitVec 5
  rs : BitVec 5
  imm : BitVec 16
  bytes : Nat
  signed : Bool

/-- The loads (R126). -/
def loadForm : Instr → Option LoadForm
  | .ldb rd rs imm => some ⟨rd, rs, imm, 1, false⟩
  | .ldbs rd rs imm => some ⟨rd, rs, imm, 1, true⟩
  | .ldh rd rs imm => some ⟨rd, rs, imm, 2, false⟩
  | .ldhs rd rs imm => some ⟨rd, rs, imm, 2, true⟩
  | .ldw rd rs imm => some ⟨rd, rs, imm, 4, false⟩
  | .ldws rd rs imm => some ⟨rd, rs, imm, 4, true⟩
  | .ldd rd rs imm => some ⟨rd, rs, imm, 8, false⟩
  | _ => none

/-- A store: data register, base register, immediate and bytes. -/
structure StoreForm where
  rt : BitVec 5
  rs : BitVec 5
  imm : BitVec 16
  bytes : Nat

/-- The stores (R126). -/
def storeForm : Instr → Option StoreForm
  | .stb rt rs imm => some ⟨rt, rs, imm, 1⟩
  | .sth rt rs imm => some ⟨rt, rs, imm, 2⟩
  | .stw rt rs imm => some ⟨rt, rs, imm, 4⟩
  | .std rt rs imm => some ⟨rt, rs, imm, 8⟩
  | _ => none

/-- The number of n bytes as a load writes it: zero- or sign-extended to 64 bits (R126). -/
def loadExtended (signed : Bool) (n v : Nat) : W64 :=
  if signed && decide (2 ^ (8 * n - 1) ≤ v) then BitVec.ofInt 64 ((v : Int) - 2 ^ (8 * n)) else BitVec.ofNat 64 v

/-- What n bytes from scratchpad address t hold, by containers, for an aligned access (R127): the value and its poison. -/
def scratchValue (mem : Member) (t n : Nat) : Nat × Bool :=
  let c := mem.cont (t / 4)
  let d := mem.cont (t / 4 + 1)
  if n = 8 then
    if c.valid && d.valid then (c.data.toNat + 2 ^ 32 * d.data.toNat, c.poison || d.poison) else (0, true)
  else if c.valid then (c.data.toNat / 2 ^ (8 * (t % 4)) % 2 ^ (8 * n), c.poison) else (0, true)

/-- A translation of a virtual address by way of a TLB is that of the page tables: the TLB holds no leaf that serves the address otherwise. -/
def mappedBy (s : State) (tk : Task) (tlb : List TlbEntry) (a : Nat) (l : Leaf) : Prop :=
  s.walk tk.ptroot a = some l ∧ ∀ o, tlbFind tlb tk.ctx a = some o → s.view o a = some l

/-- The C stream's translation of a virtual address is that of the page tables. -/
def mapped (s : State) (tk : Task) (mem : Member) (a : Nat) (l : Leaf) : Prop := mappedBy s tk mem.tlbC a l

/-- The C stream has no translation of a virtual address: neither its TLB nor the page tables. -/
def unmapped (s : State) (tk : Task) (mem : Member) (a : Nat) : Prop :=
  s.walk tk.ptroot a = none ∧ tlbFind mem.tlbC tk.ctx a = none

/-- What a translation and a read of memory may leave behind in the device: the translations its context has used (R350), free values used up, and in
the HBM stacks and the management core the checks against write queues and the errors met (R390, R392). -/
def readsOnly (s s1 : State) : Prop := s1 = { s with xlat := s1.xlat, free := s1.free, hbm := s1.hbm, mgmt := s1.mgmt }

/-- n bytes of one line at a virtual address as the C stream loads them (R126, R128, R130): mapped at pa, readable, neither racy nor outside the
load rule: the bytes of the L1's line, or where it has none those of memory, under this core's own stores. The line in memory has no write that the
member need not see yet (R300), and no error. -/
structure LoadedAs (s : State) (tk : Task) (mem : Member) (a pa n : Nat) (bytes : List Byte) : Prop where
  leaf : ∃ l, mapped s tk mem a l ∧ l.r = true ∧ l.pa a = pa ∧ s.racy s.cur.task tk mem l pa = false
  ok : mem.line? pa = none → s.rangeOk (pa / 128 * 128) 128 = true ∧ s.settled s.cur.task mem (pa / 128 * 128) 128 = true
  inLine : pa % 128 + n ≤ 128
  bytes : bytes = overlay mem.deferredStores a (coreBytes s mem a pa
    (((mem.line? pa).map fun k => (k.data.drop (pa % 128)).take n).getD (s.load pa n)))

/-! ## Timed streams -/

/-- The state after a timed word that leaves the member as m and goes on in sequence. -/
def afterTimed (s : State) (m : Member) : State := s.put (m.tNext s.cur s.cycle)

/-- The state after a timed word of a tolerant task that waits a cycle, which is counted (R23). -/
def heldACycle (s : State) (mem : Member) : State :=
  let x := mem.str s.cur.stream
  s.put (mem.setStr s.cur.stream { x with waiting := true, waits := min (x.waits + 1) (2 ^ 32 - 1) })

/-! ## Station operations -/

/-- The station operations with their arguments and their numbers within the station (R108). -/
def stationOp : Instr → Option (VArgs × BitVec 4)
  | .vadd o => some (o, 0x0#4)
  | .vsub o => some (o, 0x1#4)
  | .vadds o => some (o, 0x2#4)
  | .vsubs o => some (o, 0x3#4)
  | .vmin o => some (o, 0x4#4)
  | .vmax o => some (o, 0x5#4)
  | .vminz o => some (o, 0x6#4)
  | .vmaxz o => some (o, 0x7#4)
  | .vand o => some (o, 0x8#4)
  | .vor o => some (o, 0x9#4)
  | .vxor o => some (o, 0xA#4)
  | .vnot o => some (o, 0xB#4)
  | .vshl o => some (o, 0xC#4)
  | .vshr o => some (o, 0xD#4)
  | .vsra o => some (o, 0xE#4)
  | .vmov o => some (o, 0xF#4)
  | .vceq o => some (o, 0x0#4)
  | .vclt o => some (o, 0x1#4)
  | .vcltz o => some (o, 0x2#4)
  | .vsel o => some (o, 0x3#4)
  | .vvalid o => some (o, 0x4#4)
  | .viota o => some (o, 0x5#4)
  | .vabs o => some (o, 0x6#4)
  | .vneg o => some (o, 0x7#4)
  | .vfadd o => some (o, 0x0#4)
  | .vfsub o => some (o, 0x1#4)
  | .vfmul o => some (o, 0x2#4)
  | .vfma o => some (o, 0x3#4)
  | .vfms o => some (o, 0x4#4)
  | .vfnma o => some (o, 0x5#4)
  | .vfmin o => some (o, 0x6#4)
  | .vfmax o => some (o, 0x7#4)
  | .vfabs o => some (o, 0x8#4)
  | .vfneg o => some (o, 0x9#4)
  | .vfcmp o => some (o, 0xA#4)
  | .vfscale o => some (o, 0xB#4)
  | .vfexpo o => some (o, 0xC#4)
  | .vfmant o => some (o, 0xD#4)
  | .vdiv o => some (o, 0x0#4)
  | .vrcp o => some (o, 0x1#4)
  | .vsqrt o => some (o, 0x2#4)
  | .vsqrtc o => some (o, 0x3#4)
  | .vrsqrt o => some (o, 0x4#4)
  | .vexp2 o => some (o, 0x5#4)
  | .vlog2 o => some (o, 0x6#4)
  | .vgumb o => some (o, 0x7#4)
  | .vsum o => some (o, 0x0#4)
  | .vrmax o => some (o, 0x1#4)
  | .vrmin o => some (o, 0x2#4)
  | .vemax o => some (o, 0x3#4)
  | .vscan o => some (o, 0x4#4)
  | .vsort o => some (o, 0x5#4)
  | .vtopk o => some (o, 0x6#4)
  | .vtopkm o => some (o, 0x7#4)
  | .vcount o => some (o, 0x8#4)
  | .vcvtF32 o => some (o, 0x0#4)
  | .vcvtF16 o => some (o, 0x1#4)
  | .vcvtBf16 o => some (o, 0x2#4)
  | .vcvtE4m3 o => some (o, 0x3#4)
  | .vcvtE5m2 o => some (o, 0x4#4)
  | .vcvtS32 o => some (o, 0x5#4)
  | .vcvtS16 o => some (o, 0x6#4)
  | .vcvtS8 o => some (o, 0x7#4)
  | .vmxq o => some (o, 0x8#4)
  | .vmxdq o => some (o, 0x9#4)
  | .vpack o => some (o, 0xA#4)
  | .vwiden o => some (o, 0xB#4)
  | .vnarrow o => some (o, 0xC#4)
  | .vrng o => some (o, 0xD#4)
  | .vperm o => some (o, 0x0#4)
  | .vshuf o => some (o, 0x1#4)
  | .vbcast o => some (o, 0x2#4)
  | .vextr o => some (o, 0x3#4)
  | .vins o => some (o, 0x4#4)
  | .vrot o => some (o, 0x5#4)
  | .vdot4s o => some (o, 0x6#4)
  | .vdot8s o => some (o, 0x7#4)
  | .vcompact o => some (o, 0x8#4)
  | .vexpand o => some (o, 0x9#4)
  | _ => none

/-- The trigger of a station operation waits to start at its station. -/
def triggered (mem : Member) (o : VArgs) (num : BitVec 4) (g : Start) : Prop :=
  mem.starts.find? (fun g => g.st == o.st.toNat && g.op == num ++ o.ty && g.x == o.x) = some g

/-- The latches of a station. -/
def latchesOf (mem : Member) (k : Nat) : Latches :=
  ⟨mem.la.toList.getD k Row.invalid, mem.lb.toList.getD k Row.invalid, mem.lt.toList.getD k Row.invalid⟩

/-- The member after the start of an operation of station k whose result is due after the unit's latency (R52, R155). -/
def opStarted (mem : Member) (g : Start) (k cycle : Nat) (out : OpOut) : Member :=
  { mem with
    starts := mem.starts.erase g
    results := mem.results ++ [⟨k, cycle + [2, 2, 4, 4, 14, 6, 3, 2].getD k 0, out.row, out.flags, out.mark, g.chain⟩] }

/-- A number clamped to the range of w bits (R76). -/
def clampTo (w : Nat) (sg : Bool) (v : Int) : Int :=
  if sg then min (max v (-(2 ^ (w - 1)))) (2 ^ (w - 1) - 1) else min (max v 0) (2 ^ w - 1)

/-- An integer operation of st0 and st1 that reads A and T (R163 to R165): its arguments and the code of element i from the codes
of A and T; the min, max and compare forms under the types they accept. -/
def integerOp : Instr → Option (VArgs × (Nat → Nat → Nat → Nat → Int))
  | .vadd o => some (o, fun _ _ a t => a + t)
  | .vsub o => some (o, fun _ _ a t => (a : Int) - t)
  | .vadds o => some (o, fun w _ a t => clampTo w (intSg o.ty) (toI w (intSg o.ty) a + toI w (intSg o.ty) t))
  | .vsubs o => some (o, fun w _ a t => clampTo w (intSg o.ty) (toI w (intSg o.ty) a - toI w (intSg o.ty) t))
  | .vmin o => if intSg o.ty then some (o, fun w _ a t => min (toS w a) (toS w t)) else none
  | .vmax o => if intSg o.ty then some (o, fun w _ a t => max (toS w a) (toS w t)) else none
  | .vminz o => some (o, fun _ _ a t => min a t)
  | .vmaxz o => some (o, fun _ _ a t => max a t)
  | .vand o => some (o, fun _ _ a t => (a &&& t : Nat))
  | .vor o => some (o, fun _ _ a t => (a ||| t : Nat))
  | .vxor o => some (o, fun _ _ a t => (a ^^^ t : Nat))
  | .vshl o => some (o, fun w _ a t => if w ≤ t then 0 else a * 2 ^ t)
  | .vshr o => some (o, fun w _ a t => if w ≤ t then 0 else (a / 2 ^ t : Nat))
  | .vsra o => some (o, fun w _ a t => toS w a / 2 ^ min t w)
  | .vceq o => some (o, fun _ _ a t => if a = t then -1 else 0)
  | .vclt o => some (o, fun w _ a t => if toS w a < toS w t then -1 else 0)
  | .vcltz o => some (o, fun _ _ a t => if a < t then -1 else 0)
  | .viota o => some (o, fun _ i a t => a + i * t)
  | _ => none

/-- An integer operation that reads T alone. -/
def integerUnary : Instr → Option (VArgs × (Nat → Nat → Int))
  | .vnot o => some (o, fun _ t => -1 - (t : Int))
  | .vmov o => some (o, fun _ t => t)
  | .vabs o => some (o, fun w t => |toS w t|)
  | .vneg o => some (o, fun w t => -toS w t)
  | _ => none

/-- The element-wise result of an operation on rows (R57, R162): container c is invalid with data 0 where a source container is, else
poisoned where one is, and element i of a valid container is f i modulo 2^w. -/
def elementwise (w : Nat) (sources : List Row) (f : Nat → Int) (row : Row) : Prop :=
  row.length = 128 ∧ ∀ c < 128,
    (rowC row c).valid = sources.all (fun r => (rowC r c).valid) ∧
    ((rowC row c).valid = false → rowC row c = Container.none) ∧
    ((rowC row c).valid = true → (rowC row c).poison = sources.any (fun r => (rowC r c).poison) ∧
      ∀ j < 32 / w, (elemOf w row (c * (32 / w) + j) : Int) = f (c * (32 / w) + j) % 2 ^ w)

/-! ## What the other station operations give (R167 to R194) -/

/-- What an operation gives: the tags of each container, the code of each element, the data of the containers that are invalid, the
flags it raises, and the part it names. -/
structure Given where
  w : Nat
  valid : Nat → Bool
  poison : Nat → Bool
  code : Nat → Nat
  flags : KFlags → Prop
  mark : Option (Nat × Nat) := none
  absent : Nat → BitVec 32 := fun _ => 0#32

/-- An output is what is given: a valid container has its poison and its elements, an invalid one its data and no poison (R57). -/
def Given.by (g : Given) (out : OpOut) : Prop :=
  out.row.length = 128 ∧ out.mark = g.mark ∧ (∀ b : KFlags, out.flags &&& b ≠ 0 ↔ g.flags b) ∧
  ∀ c < 128, (g.valid c = false → rowC out.row c = ⟨g.absent c, false, false⟩) ∧
    (g.valid c = true → (rowC out.row c).valid = true ∧ (rowC out.row c).poison = g.poison c ∧
      ∀ j < 32 / g.w, elemOf g.w out.row (c * (32 / g.w) + j) = g.code (c * (32 / g.w) + j) % 2 ^ g.w)

/-- Elements under the tags of each container: those of the valid containers raise their flags (R72). -/
def tagged (w : Nat) (tag : Nat → Bool × Bool) (f : Nat → Nat × KFlags) : Given :=
  { w, valid := fun c => (tag c).1, poison := fun c => (tag c).2, code := fun k => (f k).1
    flags := fun b => ∃ c < 128, (tag c).1 = true ∧ ∃ j < 32 / w, (f (c * (32 / w) + j)).2 &&& b ≠ 0 }

/-- Elements whose container is fed by a list of containers (R57, R162). -/
def fedBy (w : Nat) (src : Nat → List Container) (f : Nat → Nat × KFlags) : Given :=
  tagged w (fun c => ((src c).all (·.valid), (src c).any (·.poison))) f

/-- Codes that raise no flag. -/
def exactly (f : Nat → Nat) (k : Nat) : Nat × KFlags := (f k, 0)

/-- Nothing valid. -/
def nothing : Given := tagged 32 (fun _ => (false, false)) fun _ => (0, 0)

/-- Pairs of a value and an index in containers 2k and 2k + 1 (R183): the value repeated in every element of its container, and for an
absent pair an invalid index of all ones. -/
def pairsGiven (w : Nat) (poison : Bool) (pair : Nat → Option (Nat × Nat)) : Given :=
  { w := 32, valid := fun c => (pair (c / 2)).isSome, poison := fun _ => poison, flags := fun _ => False
    code := fun c => match pair (c / 2) with
      | some (v, i) => if c % 2 = 0 then v % 2 ^ w * ((2 ^ 32 - 1) / (2 ^ w - 1)) else i
      | none => 0
    absent := fun c => if c % 2 = 0 then 0#32 else 0xFFFFFFFF#32 }

/-- An element-wise operation of A and T in a float format: code and flags of element k from the codes of A and T. -/
def ofAT (o : VArgs) (l : Latches) (f : Fmt → Nat → Nat → Nat → Nat × KFlags) : Given :=
  let fm := fltFmt o.ty
  fedBy fm.w (fun c => [rowC l.a c, rowC l.t c]) fun k => f fm k (elemOf fm.w l.a k) (elemOf fm.w l.t k)

/-- The same of the values of A, B and T. -/
def ofABT (o : VArgs) (l : Latches) (f : Fmt → Nat → FVal → FVal → FVal → Nat × KFlags) : Given :=
  let fm := fltFmt o.ty
  let x (r : Row) (k : Nat) : FVal := fm.decode (elemOf fm.w r k)
  fedBy fm.w (fun c => [rowC l.a c, rowC l.b c, rowC l.t c]) fun k => f fm k (x l.a k) (x l.b k) (x l.t k)

/-- The same of the codes of T alone. -/
def ofT (o : VArgs) (l : Latches) (f : Fmt → Nat → Nat → Nat × KFlags) : Given :=
  let fm := fltFmt o.ty
  fedBy fm.w (fun c => [rowC l.t c]) fun k => f fm k (elemOf fm.w l.t k)

/-- VVALID (R167), the floating operations of st2 and st3 (R168 to R173) and the special functions of st4 (R177 to R179), with sr_bits of
each element. -/
def floatGiven (bits : Nat → Nat) (l : Latches) : Instr → Option Given
  | .vvalid o => some (tagged (intW o.ty) (fun _ => (true, false)) (exactly fun k =>
      if (rowC l.t (k * intW o.ty / 32)).valid then 2 ^ intW o.ty - 1 else 0))
  | .vfadd o => some (ofAT o l fun f k a t => farithAdd (f.decode a) (f.decode t) f (rmOf o) (bits k))
  | .vfsub o => some (ofAT o l fun f k a t => farithAdd (f.decode a) (f.decode t).negate f (rmOf o) (bits k))
  | .vfmul o => some (ofAT o l fun f k a t => farithMul (f.decode a) (f.decode t) f (rmOf o) (bits k))
  | .vfma o => some (ofABT o l fun f k a b t => farithFma a t b f (rmOf o) (bits k))
  | .vfms o => some (ofABT o l fun f k a b t => farithFma a t b.negate f (rmOf o) (bits k))
  | .vfnma o => some (ofABT o l fun f k a b t => farithFma a.negate t b f (rmOf o) (bits k))
  | .vfmin o => some (ofAT o l fun f _ a t => (f.canon (if fOrderLe (f.decode a) (f.decode t) then a else t), 0))
  | .vfmax o => some (ofAT o l fun f _ a t => (f.canon (if fOrderLe (f.decode a) (f.decode t) then t else a), 0))
  | .vfabs o => some (ofT o l fun f _ t => (f.canon (t % 2 ^ (f.w - 1)), 0))
  | .vfneg o => some (ofT o l fun f _ t => (f.canon (if t < 2 ^ (f.w - 1) then t + 2 ^ (f.w - 1) else t - 2 ^ (f.w - 1)), 0))
  | .vfcmp o => some (ofAT o l fun f _ a t => (if fcmp (rmOf o) (f.decode a) (f.decode t) then 2 ^ f.w - 1 else 0, 0))
  | .vfscale o => some (ofAT o l fun f k a t => scale2 (f.decode a) (toS f.w t) f (rmOf o) (bits k))
  | .vfexpo o => some (ofT o l fun f _ t => (wrapTo f.w (clampTo f.w true (expo (f.decode t)).1), (expo (f.decode t)).2))
  | .vfmant o => some (ofT o l fun f _ t => match f.decode t with
      | .fin neg m e => if m = 0 then (t, 0) else ((roundFmt (.fin neg m (e - lg m e)) f 0 false 0).1, 0)
      | _ => (f.canon t, 0))
  | .vdiv o => some (ofAT o l fun f k a t => spDiv (f.decode a) (f.decode t) f (rmOf o) (bits k))
  | .vrcp o => some (ofT o l fun f k t => spDiv (.fin false 1 0) (f.decode t) f (rmOf o) (bits k))
  | .vsqrt o => some (ofT o l fun f k t => spSqrt (f.decode t) f (rmOf o) (bits k))
  | .vsqrtc o => some (ofT o l fun f k t => spSqrtc (f.decode t) f (rmOf o) (bits k))
  | .vrsqrt o => some (ofT o l fun f k t => spRsqrt (f.decode t) f (rmOf o) (bits k))
  | .vexp2 o => some (ofT o l fun f k t => spExp2 (f.decode t) f (rmOf o) (bits k))
  | .vlog2 o => some (ofT o l fun f k t => spLog2 (f.decode t) f (rmOf o) (bits k))
  | .vgumb o => some (ofT o l fun f k t => spGumb (f.decode t) f (rmOf o) (bits k))
  | _ => none

/-- Element k of T, or what stands for an absent one. -/
def orAbsent (w : Nat) (r : Row) (absent k : Nat) : Nat := if (rowC r (k * w / 32)).valid then elemOf w r k else absent

/-- The reductions and order operations of st5 (R180 to R186), with the key of sr_bits and sr_bits of each element. -/
def orderGiven (key : W64) (bits : Nat → Nat) (l : Latches) : Instr → Option Given
  | .vsum o =>
    let ty := orderTy o.ty
    let tag := fun _ => (l.t.any (·.valid), anyPoison l.t)
    match ty with
    | .flt f =>
      let r := treeSum f (rmOf o) key 10 1 ((List.range (4096 / f.w)).map (orAbsent f.w l.t (2 ^ (f.w - 1))))
      some { tagged f.w tag (exactly fun _ => r.1) with flags := fun b => l.t.any (·.valid) = true ∧ r.2 &&& b ≠ 0 }
    | .int w sg =>
      let v := ((validElems w l.t).map fun p => toI w sg p.1).sum
      some (tagged 32 tag (exactly fun _ => wrapTo 32 (clampTo 32 sg v)))
  | .vscan o =>
    let ty := orderTy o.ty
    let tag := fun c => ((rowC l.t c).valid, anyPoison l.t)
    match ty with
    | .flt f => some (tagged f.w tag fun k =>
        (scanFlt f (rmOf o) bits 0 none ((List.range (4096 / f.w)).map (orAbsent f.w l.t (2 ^ (f.w - 1))))).getD k (0, 0))
    | .int w _ => some (tagged w tag (exactly fun k => ((List.range (k + 1)).map (orAbsent w l.t 0)).sum % 2 ^ w))
  | .vrmax o =>
    let ty := orderTy o.ty
    some (pairsGiven ty.w (anyPoison l.t) fun _ =>
      (bestOf (above ty) (validElems ty.w l.t)).map fun p => (ty.deliver p.1, p.2))
  | .vrmin o =>
    let ty := orderTy o.ty
    some (pairsGiven ty.w (anyPoison l.t) fun _ =>
      (bestOf (fun x y => !(okeyLe ty y.1 x.1)) (validElems ty.w l.t)).map fun p => (ty.deliver p.1, p.2))
  | .vemax o =>
    let f := fltFmt o.ty
    let es := (validElems f.w l.t).map fun p => expo (f.decode p.1)
    some { tagged 32 (fun _ => (!es.isEmpty, anyPoison l.t)) (exactly fun _ => wrapTo 32 (es.foldl (fun a e => max a e.1) (-2147483648)))
      with flags := fun b => ∃ e ∈ es, e.2 &&& b ≠ 0 }
  | .vcount o =>
    let ty := orderTy o.ty
    some (tagged 32 (fun _ => (true, anyPoison l.t))
      (exactly fun _ => (validElems ty.w l.t).countP fun p => xBit o 0 || !ty.isZero p.1))
  | .vsort o =>
    let ty := orderTy o.ty
    let es := validElems ty.w l.t
    let before := fun (a b : Nat × Nat) => if xBit o 0 then !(okeyLe ty b.1 a.1) else !(okeyLe ty a.1 b.1)
    some (tagged ty.w (fun c => (decide (c * (32 / ty.w) < es.length), anyPoison l.t)) (exactly fun k =>
      let e := (sortBy before es).getD k (0, 0)
      if xBit o 1 then e.2 else ty.deliver e.1))
  | .vtopk o =>
    let ty := orderTy o.ty
    some (if (rowC l.a 0).valid then
      pairsGiven 32 (anyPoison l.t || (rowC l.a 0).poison) fun k =>
        (((sortBy (above ty) ((validElems 32 l.t).map fun p => (p.1, (scal l.a + p.2) % 2 ^ 32))).take 64)[k]?).map
          fun p => (ty.deliver p.1, p.2)
      else nothing)
  | .vtopkm o =>
    let ty := orderTy o.ty
    some (if badPair l.a || badPair l.t then nothing
      else pairsGiven 32 (anyPoison l.a || anyPoison l.t) fun k =>
        (((sortBy (above ty) (pairsOf l.a ++ pairsOf l.t)).take 64)[k]?).map fun p => (ty.deliver p.1, p.2))
  | _ => none

/-- A conversion of T into a type (R187, R176). -/
def cvtGiven (bits : Nat → Nat) (l : Latches) (target : ElTy) (o : VArgs) : Given :=
  let src := convTy o.ty
  let cv (code k : Nat) : Nat × KFlags :=
    if src = target then
      match src with
      | .flt f => (f.canon code, 0)
      | .int _ _ => (code, 0)
    else match target with
      | .flt f => roundFmt (src.value code) f (rmOf o) (satOf o) (bits k)
      | .int w sg => (wrapTo w (roundInt (src.value code) w sg (rmOf o) (bits k)).1, (roundInt (src.value code) w sg (rmOf o) (bits k)).2)
  let p := scal l.b % 8
  let n := max (target.w / src.w) (src.w / target.w)
  if src.w = target.w then fedBy target.w (fun c => [rowC l.t c]) fun k => cv (elemOf src.w l.t k) k
  else if n ≤ p then nothing
  else if src.w < target.w then
    { fedBy target.w (fun c => [rowC l.t c, rowC l.b 0]) (fun k => cv (elemOf src.w l.t (n * k + p)) k) with mark := some (p, n) }
  else fedBy target.w (fun c => [rowC l.t c, rowC l.a c, rowC l.b 0]) fun k =>
    if k % n = p then cv (elemOf src.w l.t (k / n)) k else (elemOf target.w l.a k, 0)

/-- The conversions, packing, MX blocking and random numbers of st6 (R176, R187 to R191), with SR.SEED and sr_bits of each element. -/
def convGiven (seed : W64) (bits : Nat → Nat) (l : Latches) : Instr → Option Given
  | .vcvtF32 o => some (cvtGiven bits l (.flt fp32) o)
  | .vcvtF16 o => some (cvtGiven bits l (.flt fp16) o)
  | .vcvtBf16 o => some (cvtGiven bits l (.flt bf16) o)
  | .vcvtE4m3 o => some (cvtGiven bits l (.flt e4m3) o)
  | .vcvtE5m2 o => some (cvtGiven bits l (.flt e5m2) o)
  | .vcvtS32 o => some (cvtGiven bits l (.int 32 true) o)
  | .vcvtS16 o => some (cvtGiven bits l (.int 16 true) o)
  | .vcvtS8 o => some (cvtGiven bits l (.int 8 true) o)
  | .vwiden o =>
    let w := intW o.ty
    let n := if xBit o 0 then 4 else 2
    let p := scal l.b % 8
    some (if n ≤ p then nothing
      else { fedBy (n * w) (fun c => [rowC l.t c, rowC l.b 0]) (exactly fun k =>
        wrapTo (n * w) (toI w (intSg o.ty) (elemOf w l.t (n * k + p)))) with mark := some (p, n) })
  | .vnarrow o =>
    let w := intW o.ty
    let n := if xBit o 0 then 4 else 2
    let p := scal l.b % 8
    some (if n ≤ p then nothing
      else fedBy (w / n) (fun c => [rowC l.t c, rowC l.a c, rowC l.b 0]) (exactly fun k =>
        if k % n = p then
          let v := toI w (intSg o.ty) (elemOf w l.t (k / n))
          wrapTo (w / n) (if xBit o 1 then v else satInt v (w / n) (intSg o.ty))
        else elemOf (w / n) l.a k))
  | .vpack o =>
    let w := intW o.ty
    let from' (c : Nat) : Row × Nat := if c < 64 then (l.a, 2 * c) else (l.t, 2 * (c - 64))
    some (fedBy (w / 2) (fun c => [rowC (from' c).1 (from' c).2, rowC (from' c).1 ((from' c).2 + 1)]) (exactly fun k =>
      let v := toI w (intSg o.ty) (if k < 4096 / w then elemOf w l.a k else elemOf w l.t (k - 4096 / w))
      wrapTo (w / 2) (if xBit o 1 then v else satInt v (w / 2) (intSg o.ty))))
  | .vmxq o =>
    let w := mxW o.ty
    let p := scal l.b % 8
    let block (b : Nat) : Nat × List Nat × KFlags :=
      mxQuant ((List.range 32).map fun k => fp32.decode (elemOf 32 l.t (32 * b + k))) (mxFmt o.ty) (rmOf o) (satOf o)
        fun k => bits (128 * p + 32 * b + k)
    some (if (if scaleMode l || w == 4 then 8 else 4) ≤ p then nothing
      else if scaleMode l then
        fedBy 8 (fun c => if c = p then rowC l.b 0 :: l.t else [rowC l.a c, rowC l.b 0]) (exactly fun k =>
          if k / 4 = p then (block (k % 4)).1 else elemOf 8 l.a k)
      else fedBy w (fun c => if 128 * p ≤ c * (32 / w) ∧ c * (32 / w) < 128 * p + 128
            then rowC l.b 0 :: (List.range 32).map fun k => rowC l.t (32 * ((c * (32 / w) - 128 * p) / 32) + k)
            else [rowC l.a c, rowC l.b 0]) fun k =>
          if 128 * p ≤ k ∧ k < 128 * p + 128
          then ((block ((k - 128 * p) / 32)).2.1.getD ((k - 128 * p) % 32) 0, (block ((k - 128 * p) / 32)).2.2)
          else (elemOf w l.a k, 0))
  | .vmxdq o =>
    let w := mxW o.ty
    let p := scal l.b % 8
    some (if (if w = 4 then 8 else 4) ≤ p then nothing
      else fedBy 32 (fun j => [rowC l.t ((128 * p + j) * w / 32), rowC l.a ((128 * p + j) / 128), rowC l.b 0]) fun j =>
        match decodeE8M0 (elemOf 8 l.a ((128 * p + j) / 32)), (mxFmt o.ty).decode (elemOf w l.t (128 * p + j)) with
        | .fin _ _ e, .fin n m k => roundFmt (.fin n m (k + e)) fp32 (rmOf o) false (bits j)
        | .fin _ _ _, x => roundFmt x fp32 (rmOf o) false (bits j)
        | _, _ => (fp32.nanCode, 0))
  | .vrng o =>
    some (fedBy 32 (fun c => [rowC l.a c, rowC l.t c]) fun k =>
      let x := (rng64 seed (BitVec.ofNat 64 (elemOf 32 l.a k * 2 ^ 32 + elemOf 32 l.t k))).toNat
      if o.ty = 0#3 then (x / 2 ^ 32, 0) else (roundFmt (.fin false (2 * (x / 2 ^ 41) + 1) (-24)) fp32 0 false 0))
  | _ => none

/-- A permute: element i is the picked element of a picked latch; its container is fed by the containers of the elements that land in it and
by the extra ones (R192). -/
def permGiven (w : Nat) (extra : Nat → List Container) (pick : Nat → Row × Nat) : Given :=
  fedBy w (fun c => extra c ++ (List.range (32 / w)).map fun j => rowC (pick (c * (32 / w) + j)).1 ((pick (c * (32 / w) + j)).2 * w / 32))
    (exactly fun i => elemOf w (pick i).1 (pick i).2)

/-- Element i of two rows in sequence. -/
def inSequence (n : Nat) (x y : Row) (i : Nat) : Row × Nat := if i < n then (x, i) else (y, i - n)

/-- The packed dot products (R193). -/
def dotGiven (l : Latches) (o : VArgs) : Given :=
  let w := intW o.ty
  let sg := intSg o.ty
  fedBy 32 (fun c => [rowC l.a c, rowC l.b c, rowC l.t c]) (exactly fun c =>
    wrapTo 32 (clampTo 32 sg (toI 32 sg (elemOf 32 l.b c) +
      ((List.range (32 / w)).map fun j =>
        toI w sg (elemOf w l.a (c * (32 / w) + j)) * toI w sg (elemOf w l.t (c * (32 / w) + j))).sum)))

/-- The selected elements of T left in place (R194, inplace=1). -/
def inPlaceGiven (l : Latches) (o : VArgs) : Given :=
  let w := intW o.ty
  let mine (c : Nat) : List Nat := (List.range (32 / w)).map fun j => c * (32 / w) + j
  tagged w (fun c => ((selScalar o l).1 && (mine c).any (selected o l) && (rowC l.t c).valid,
      (selScalar o l).2 || (rowC l.t c).poison || selPoison o l (mine c)))
    (exactly fun i => if selected o l i then elemOf w l.t i else 0)

/-- The permutes, packed dot products and selections of st7 (R192 to R194). -/
def selectGiven (l : Latches) : Instr → Option Given
  | .vperm o =>
    let w := intW o.ty
    some (permGiven w (fun c => [rowC l.a c]) fun i => inSequence (4096 / w) l.t l.b (elemOf w l.a i % (2 * (4096 / w))))
  | .vshuf o =>
    let w := intW o.ty
    let n := 4096 / w
    some (permGiven w (fun _ => []) fun i => match rmOf o with
      | 0 => (if i % 2 = 0 then l.a else l.t, i / 2)
      | 1 => (if i % 2 = 0 then l.a else l.t, n / 2 + i / 2)
      | 2 => inSequence n l.a l.t (2 * i)
      | 3 => inSequence n l.a l.t (2 * i + 1)
      | _ => (l.t, n - 1 - i))
  | .vbcast o => some (permGiven (intW o.ty) (fun _ => [rowC l.a 0]) fun _ => (l.t, scal l.a % (4096 / intW o.ty)))
  | .vextr o =>
    let n := 4096 / intW o.ty
    some (permGiven (intW o.ty) (fun _ => [rowC l.b 0]) fun i => inSequence n l.t l.a (i + scal l.b % n))
  | .vins o =>
    let w := intW o.ty
    let k := scal l.b % (4096 / w)
    some (fedBy w (fun c =>
        if c = k * w / 32 then (if w = 32 then [] else [rowC l.t c]) ++ [rowC l.a 0, rowC l.b 0] else [rowC l.t c])
      (exactly fun i => if i = k then elemOf w l.a 0 else elemOf w l.t i))
  | .vrot o =>
    let n := 4096 / intW o.ty
    some (permGiven (intW o.ty) (fun _ => [rowC l.a 0]) fun i => (l.t, (i + scal l.a % n) % n))
  | .vdot4s o => some (dotGiven l o)
  | .vdot8s o => some (dotGiven l o)
  | .vcompact o =>
    let w := intW o.ty
    let ks := (List.range (4096 / w)).filter fun i => selected o l i && (rowC l.t (i * w / 32)).valid
    let mine (c : Nat) : List Nat := (ks.drop (c * (32 / w))).take (32 / w)
    some (if xBit o 1 then inPlaceGiven l o else
      tagged w (fun c => ((selScalar o l).1 && !(mine c).isEmpty,
          (selScalar o l).2 || ((mine c).any fun i => Container.tainted (rowC l.t (i * w / 32))) ||
            selPoison o l (List.range ((mine c).getLastD 0 + 1))))
        (exactly fun j => (ks[j]?.map (elemOf w l.t)).getD 0))
  | .vexpand o =>
    let w := intW o.ty
    let rank (i : Nat) : Nat := (List.range i).countP (selected o l)
    let mine (c : Nat) : List Nat := ((List.range (32 / w)).map fun j => c * (32 / w) + j).filter (selected o l)
    let src (c : Nat) : List Container := (mine c).map fun i => rowC l.t (rank i * w / 32)
    some (if xBit o 1 then inPlaceGiven l o else
      tagged w (fun c => ((selScalar o l).1 && !(mine c).isEmpty && (src c).all (·.valid),
          (selScalar o l).2 || (src c).any Container.tainted || selPoison o l (List.range ((mine c).getLastD 0 + 1))))
        (exactly fun i => if selected o l i then elemOf w l.t (rank i) else 0))
  | _ => none

/-- What an operation gives under the task's seed, the member's rank, its key and its latches. -/
def stationGives (tk : Task) (mem : Member) (key : RngKey) (l : Latches) (i : Instr) (r : Given) : Prop :=
  let bits := opBits tk mem key
  floatGiven bits l i = some r ∨ orderGiven (srKey tk.seed mem.rank key) bits l i = some r ∨ convGiven tk.seed bits l i = some r ∨
    selectGiven l i = some r

/-! ## Sync objects (R139, R140, R478) -/

/-- The object of a handle is mapped for the C stream at a physical address, readable and outside the launch ports. -/
structure ObjectAt (s : State) (tk : Task) (mem : Member) (addr pa : Nat) : Prop where
  leaf : ∃ l, mapped s tk mem addr l ∧ l.r = true ∧ l.pa addr = pa
  ok : s.rangeOk pa 64 = true
  plain : ∀ i < 64, inPorts (pa + i) = false

/-- Every L1 line of a crew whose binding is in a list is gone. -/
def noneBound (tk : Task) (ids : List Nat) : Prop := ∀ m ∈ tk.members, ∀ l ∈ m.l1, ids.contains l.leaf.bind = false

/-- Everything a word leaves of the state but the tasks, memory with its earlier contents, the HBM stacks with the errors corrected in them, the
translations used and the free-value counter. -/
def sameDevice (s t : State) : Prop :=
  t = { s with tasks := t.tasks, mem := t.mem, past := t.past, unmapped := t.unmapped, hbm := t.hbm, mgmt := t.mgmt, xlat := t.xlat, free := t.free }

/-! ## State registers (R64) -/

/-- Bits [hi:lo] of a state register's value. -/
def bitsOf (v : W64) (hi lo : Nat) : Nat := v.toNat / 2 ^ lo % 2 ^ (hi + 1 - lo)

/-! ## Matrix words (R199 to R215) -/

/-- The matrix words with their MOP numbers (R109). -/
def matrixOp : Instr → Option (Nat × MatFields)
  | .mma f => some (1, f)
  | .mmaz f => some (2, f)
  | .mmas f => some (3, f)
  | .mima f => some (4, f)
  | .mzero f => some (5, f)
  | .mldacc f => some (6, f)
  | .mdrain f => some (7, f)
  | _ => none

/-- Item 1 of R209 for a matrix word of a number. -/
def matrixLegal (tk : Task) (mem : Member) (n : Nat) (f : MatFields) : Bool :=
  if n = 1 ∨ n = 3 then multiplyLegal true tk mem f
  else if n = 2 ∨ n = 4 then multiplyLegal false tk mem f
  else if n = 5 then noOperands f && noDrain f && f.aaddr == 0#19
  else if n = 6 then noOperands f && noDrain f
  else drainLegal f

/-- Items 2 and 3 of R209 for a matrix word of a number. -/
def matrixTrap (tk : Task) (mem : Member) (n : Nat) (f : MatFields) : Option Trap :=
  if n ≤ 4 then multiplyTrap tk f
  else if n = 5 then none
  else if n = 6 then rangeTrap tk f.aaddr.toNat (matM f * matN f * 4)
  else (rangeTrap tk f.aaddr.toNat (matM f * matN f * drainW f)).orElse fun _ =>
    if frozenIn mem f.aaddr.toNat (matM f * matN f * drainW f) then some ⟨cSchedule, 0, 11⟩ else none

/-- Busy cycles of a matrix word (R210): the k-values at the slower operand's rate, 1 for MZERO, its rows for MLDACC and MDRAIN. -/
def busyCycles (n : Nat) (f : MatFields) : Nat :=
  if n = 5 then 1
  else if 6 ≤ n then f.mm1.toNat + 1
  else
    let r := min (16 / (matBits f.fa).getD 16) (16 / (matBits f.fb).getD 16)
    (f.km1.toNat + r) / r

/-- Keys of a sparse map rise strictly. -/
def keysRise {α : Type} (m : SMap α) : Prop := m.Pairwise fun a b => a.1 < b.1

/-- The exact sum of the products of group g of an integer multiply word for output (m, n) (R199). -/
def groupSum (j : Job) (a b : List Container) (m n g : Nat) : Int :=
  ((List.range (min 32 (j.f.km1.toNat + 1 - 32 * g))).map fun i =>
    matIntVal j.f.fa (sideElem (sideA j.f) a m (32 * g + i)).2 * matIntVal j.f.fb (sideElem (sideB j.f) b n (32 * g + i)).2).sum

/-- The pairs of group g that a floating multiply word multiplies for output (m, n), those of A negated for MMAS (R199). -/
def groupPairs (j : Job) (a b : List Container) (m n g : Nat) : List (FVal × FVal) :=
  (List.range (min 32 (j.f.km1.toNat + 1 - 32 * g))).map fun i =>
    let v := matVal j.f.fa (sideElem (sideA j.f) a m (32 * g + i)).2
    (if j.mop = 3 then v.negate else v, matVal j.f.fb (sideElem (sideB j.f) b n (32 * g + i)).2)

/-- The bits of output (m, n) after the first groups of a multiply word, and the flags it has raised by then (R199, R82, R83, R204): MMA and MMAS
apply mma_group and report IV and OF; MIMA and MMAZ clamp the exact total of each group and report OF where that changes it. -/
def afterGroups (j : Job) (a b : List Container × List Container) (m n old : Nat) : Nat → Nat × KFlags
  | 0 => (old, 0)
  | g + 1 =>
    let p := afterGroups j a b m n old g
    if j.mop = 1 ∨ j.mop = 3 then
      let r := mmaGroup (fp32.decode p.1) (groupPairs j a.1 b.1 m n g) (decide (j.f.fa.toNat ≤ 2) || decide (j.f.fb.toNat ≤ 2))
        (sideScale (sideA j.f) a.2 g m).2 (sideScale (sideB j.f) b.2 g n).2
      (r.1, p.2 ||| (r.2 &&& (fIV ||| fOF)))
    else
      let sg := j.mop == 4
      let t := toI 32 sg p.1 + groupSum j a.1 b.1 m n g
      ((clampTo 32 sg t % 2 ^ 32).toNat, p.2 ||| if clampTo 32 sg t = t then 0 else fOF)

/-- A container that a multiply word reads for output (m, n): of its operands, or of their scales (R201, R202, R203). -/
def groupReads (j : Job) (a b : List Container × List Container) (m n : Nat) (c : Container) : Prop :=
  (∃ k ≤ j.f.km1.toNat, c = (sideElem (sideA j.f) a.1 m k).1 ∨ c = (sideElem (sideB j.f) b.1 n k).1) ∨
  ∃ g, 32 * g ≤ j.f.km1.toNat ∧ ((j.f.mxa = 1#1 ∧ c = (sideScale (sideA j.f) a.2 g m).1) ∨ (j.f.mxb = 1#1 ∧ c = (sideScale (sideB j.f) b.2 g n).1))

/-- The bytes of a drained element and its code and flags from the 32 bits of the tile, by DFMT (R206). -/
def drained (f : MatFields) (rb : Nat) (d : W32) : Option (Nat × Nat × KFlags) :=
  let float (w : Nat) (fm : Fmt) (sat : Bool) : Option (Nat × Nat × KFlags) := some (w, roundFmt (fp32.decode d.toNat) fm f.rm.toNat sat rb)
  let clamped (w bits : Nat) (sg : Bool) : Option (Nat × Nat × KFlags) :=
    some (w, (clampTo bits sg (toI 32 sg d.toNat) % 2 ^ bits).toNat, 0)
  match f.dfmt with
  | 0x0#4 => some (4, d.toNat, 0)
  | 0x1#4 => float 2 fp16 false
  | 0x2#4 => float 2 bf16 false
  | 0x3#4 => float 1 e4m3 (f.sat == 1#1)
  | 0x4#4 => float 1 e5m2 (f.sat == 1#1)
  | 0xA#4 => clamped 2 16 true
  | 0xB#4 => clamped 1 8 true
  | 0xC#4 => clamped 1 8 false
  | _ => none

/-! ## Engine commands (R217 to R219) -/

/-- What the issue of an engine command looks at besides its header: its own limits, the checks made once it has a queue entry,
what it needs besides the entry, and how it leaves its issue. -/
structure CmdForm where
  hdr : Hdr
  legal : Task → Member → Bool
  checks : State → Task → Member → Option Trap
  room : Member → Bool
  fate : Task → Fate

/-- A command that is queued. -/
def queuedForm (h : Hdr) (legal : Member → Bool) (checks : Task → Member → Option Trap) : CmdForm :=
  ⟨h, fun _ => legal, fun _ => checks, fun _ => true, fun _ => .queued⟩

/-- A command of S that writes memory: deferred in a replicated task (R243). -/
def writeForm (h : Hdr) (legal : Member → Bool) (checks : Task → Member → Option Trap) : CmdForm :=
  ⟨h, fun _ => legal, fun _ => checks, fun _ => true, fun tk => if tk.replicated then .deferred else .queued⟩

/-- A command of rows 0x2_ to 0x4_ of the opcode map (R254, R255, R260). -/
def recordCmdForm (h : Hdr) (p : PrmRes) (f : PrefixForm) (legal : Task → Bool) : CmdForm :=
  ⟨h, fun tk _ => legal tk, fun s tk mem => prefixChecks s f p tk mem, fun _ => true,
    fun tk => if tk.replicated && f.defers then .deferred else if tk.replicated && f.twice then .twice else .queued⟩

/-- The copies, gathers, scatters, fills and window commands with their limits and checks (R225 to R233, R221). -/
def copyForm (stream : Stream) : Instr → Option CmdForm
  | .wset h w d f =>
    some ⟨h, fun _ mem => wsetLegal mem w.toNat (mem.desc d) f,
      fun _ tk mem =>
        let win := openWindow (mem.window w.toNat) (mem.desc d) f
        firstTrap [descTrap (mem.desc d), spadTrap tk (rowAddr f.bank.toNat f.first.toNat) ((f.dm1.toNat + 1) * (f.rm1.toNat + 1) * 512),
          ringFrozen mem (win.ring w.toNat f.start.toNat) f.fetch.toNat],
      fun _ => true, fun _ => .queued⟩
  | .wadv h w ret fetch =>
    some ⟨h, fun _ mem => wadvLegal (mem.window w.toNat) ret.toNat fetch.toNat,
      fun _ _ mem => ringFrozen mem ((mem.window w.toNat).ring w.toNat (mem.window w.toNat).next) fetch.toNat,
      fun _ => true, fun _ => if fetch.toNat = 0 then .done else .queued⟩
  | .wclose h _ => some ⟨h, fun _ _ => true, fun _ _ _ => none, fun _ => true, fun _ => .done⟩
  | .copy h d spa i0 cntm1 fo =>
    let cnt := cntm1.toNat + 1
    some ⟨h, fun tk mem => subrangeEven (mem.desc d) i0.toNat cnt && followLegal tk mem fo,
      fun _ tk mem =>
        let n := subBytes (mem.desc d) cnt
        firstTrap [descTrap (mem.desc d), followCheck tk mem fo, subrangeTrap (mem.desc d) i0.toNat cnt, spadTrap tk spa.toNat n,
          if stream = .l then frozenTrap mem spa.toNat n else poisonTrap mem spa.toNat n],
      followRoom fo, fun tk => if stream ≠ .l ∧ tk.replicated = true then (if fo.isSome then .deferredStep else .deferred) else .queued⟩
  | .peerCopy h spa prank rowsm1 fo =>
    let n := (rowsm1.toNat + 1) * 512
    some ⟨h, fun tk mem => prank.toNat != mem.rank && decide (prank.toNat < tk.crew) && followLegal tk mem fo,
      fun _ tk mem => firstTrap [if spa.toNat % 512 = 0 then none else some ⟨cAlignment, BitVec.ofNat 64 spa.toNat, 0⟩,
        followCheck tk mem fo, (firstOut tk.spsh spa.toNat n).map fun a => ⟨cBounds, BitVec.ofNat 64 a, 0⟩,
        spadTrap tk spa.toNat n, frozenTrap mem spa.toNat n],
      followRoom fo, fun _ => .queued⟩
  | .gath h d dst idx nm1 =>
    let n := nm1.toNat + 1
    some (queuedForm h (fun mem => rowDesc (mem.desc d) && dst.toNat % 4 == 0 && idx.toNat % 4 == 0)
      fun tk mem => firstTrap [descTrap (mem.desc d), spadTrap tk idx.toNat (4 * n), spadTrap tk dst.toNat (n * dRow (mem.desc d)),
        frozenTrap mem dst.toNat (n * dRow (mem.desc d)), poisonTrap mem idx.toNat (4 * n)])
  | .gathTowin h w d idx nm1 =>
    let n := nm1.toNat + 1
    some (queuedForm h
      (fun mem =>
        let win := mem.window w.toNat
        win.opened && decide (win.filled + n ≤ win.depth) && rowDesc (mem.desc d) && idx.toNat % 4 == 0
          && decide (dRow (mem.desc d) ≤ win.rows * 512))
      fun tk mem => firstTrap [descTrap (mem.desc d), spadTrap tk idx.toNat (4 * n),
        ringFrozen mem ((mem.window w.toNat).ring w.toNat (mem.window w.toNat).next) n, poisonTrap mem idx.toNat (4 * n)])
  | .scat h d src idx nm1 =>
    let n := nm1.toNat + 1
    some (writeForm h (fun mem => rowDesc (mem.desc d) && src.toNat % 4 == 0 && idx.toNat % 4 == 0)
      fun tk mem => firstTrap [descTrap (mem.desc d), spadTrap tk idx.toNat (4 * n), spadTrap tk src.toNat (n * dRow (mem.desc d)),
        poisonTrap mem src.toNat (n * dRow (mem.desc d)), poisonTrap mem idx.toNat (4 * n)])
  | .fill h (.spad wa nwm1 val vm inv) =>
    let n := 4 * (nwm1.toNat + 1)
    some (queuedForm h (fun _ => inv == 0#1 || (val == 0#16 && vm == 0#2))
      fun tk mem => firstTrap [spadTrap tk (4 * wa.toNat) n, frozenTrap mem (4 * wa.toNat) n])
  | .fill h (.mem d _ _ i0 cntm1) =>
    let cnt := cntm1.toNat + 1
    some (writeForm h (fun mem => subrangeEven (mem.desc d) i0.toNat cnt)
      fun _ mem => firstTrap [descTrap (mem.desc d), subrangeTrap (mem.desc d) i0.toNat cnt])
  | .pref h d _ i0 cntm1 =>
    let cnt := cntm1.toNat + 1
    some (queuedForm h (fun mem => h.so == 0#6 && subrangeEven (mem.desc d) i0.toNat cnt)
      fun _ mem => firstTrap [descTrap (mem.desc d), subrangeTrap (mem.desc d) i0.toNat cnt])
  | .waitb h _ => some (queuedForm h (fun _ => true) fun _ _ => none)
  | _ => none

/-- The accumulates and CAS (R238 to R242): a memory form is deferred to the commit. -/
def atomicForm : Instr → Option CmdForm
  | .cas h d recw w64 _ =>
    some ⟨h, fun _ _ => true,
      fun s tk mem =>
        let dd := mem.desc d
        let a := 4 * recw.toNat
        firstTrap ([descTrap dd,
            if dBase dd % (if w64 = 1#1 then 8 else 4) = 0 then none else some ⟨cAlignment, BitVec.ofNat 64 (dBase dd), 0⟩,
            if a % 8 = 0 then none else some ⟨cAlignment, BitVec.ofNat 64 a, 0⟩, spadTrap tk a 24] ++
          ((casUsed recw w64).map fun i => poisonTrap mem (4 * i) 4) ++
          [targetTrap s tk mem (dBase dd)]),
      fun _ => true, fun _ => .deferred⟩
  | i => (accOf i).map fun x =>
      ⟨x.2.2.1, fun _ mem => accLegal x.1 x.2.2.2 mem, fun s => accChecks s x.1 x.2.1 x.2.2.2, fun _ => true,
        fun _ => if x.2.2.2.dmode = 2#2 then .queued else .deferred⟩

/-- The limits shared by the short parameter records: words from i on are 0 (R254). -/
def shortForm (res : Nat) (limits : List W32 → Bool) (defers : Bool) : PrefixForm :=
  { res := fun _ => res, limits := fun _ => limits, bytes := fun _ _ _ => res, defers }

/-- The prefix-store, selection, token and grammar commands but TKFEED and TKDRAIN (R254 to R291). -/
def storeCmdForm : Instr → Option CmdForm
  | .slopen h p => some (recordCmdForm h p slopenForm fun _ => true)
  | .slfork h p => some (recordCmdForm h p (shortForm 16 (zeroFrom 1) true) fun _ => true)
  | .slmove h p => some (recordCmdForm h p (shortForm 16 (zeroFrom 2) true) fun _ => true)
  | .slmoveSwap h p => some (recordCmdForm h p (shortForm 16 (zeroFrom 2) true) fun _ => true)
  | .slclose h p => some (recordCmdForm h p (shortForm 16 (zeroFrom 1) true) fun _ => true)
  | .slinfo h p => some (recordCmdForm h p (shortForm 64 (zeroFrom 1) false) fun _ => true)
  | .rxlook h p lse tier _ => some (recordCmdForm h p (rxForm (lse == 1#1)) fun _ => tier != 3#2)
  | .seal h p _ => some (recordCmdForm h p (shortForm 16 (zeroFrom 1) true) fun _ => true)
  | .kapp h p => some (recordCmdForm h p kappForm fun _ => true)
  | .cpact h p => some (recordCmdForm h p cpactForm fun _ => true)
  | .repl h p => some (recordCmdForm h p replForm fun tk => !tk.replicated)
  | .lease h p => some (recordCmdForm h p (shortForm 16
      (fun w => zeroFrom 2 w && decide (wordAt w 1 % 65536 ≠ 0) && decide (wordAt w 1 / 65536 ≤ 2)) true) fun _ => true)
  | .renew h p => some (recordCmdForm h p (shortForm 16 (fun w => zeroFrom 2 w && decide (wordAt w 1 < 65536)) true) fun _ => true)
  | .free h p => some (recordCmdForm h p (shortForm 16 (zeroFrom 1) true) fun _ => true)
  | .evclass h p => some (recordCmdForm h p (shortForm 16 (fun w => zeroFrom 2 w && decide (wordAt w 1 < 4)) true) fun _ => true)
  | .promo h p => some (recordCmdForm h p (shortForm 16 (fun w => zeroFrom 2 w && decide (wordAt w 1 < 2)) true) fun _ => true)
  | .nodeinfo h p => some (recordCmdForm h p (shortForm 256 (zeroFrom 1) false) fun _ => true)
  | .bsel h p => some (recordCmdForm h p bselForm fun _ => true)
  | .pgath h p w => some (recordCmdForm h p (pgathForm w.toNat) fun _ => true)
  | .tkdetok h p => some (recordCmdForm h p
      { prm := 8
        limits := fun _ w => decide ((wordAt w 0 + wordAt w 1 * 2 ^ 32) % 64 = 0) && decide (wordAt w 2 % 4 = 0)
          && decide (wordAt w 3 ≤ 16384) && decide (wordAt w 5 ≤ 327680) && w.getD 6 0 == 0 && w.getD 7 0 == 0
        reads := fun _ _ w => [(wordAt w 2, 4 * wordAt w 3)]
        others := fun _ _ w => [(wordAt w 4, wordAt w 5)]
        bytes := fun _ _ w => wordAt w 5 } fun _ => true)
  | .gload h p _ => some (recordCmdForm h p gloadForm fun _ => h.so == 0#6)
  | .gmask h p => some (recordCmdForm h p
      { limits := fun _ w => decide (wordAt w 1 % 512 = 0) && decide (wordAt w 2 % 4096 = 0) && decide (4096 ≤ wordAt w 2)
          && decide (wordAt w 2 ≤ 262144) && w.getD 3 0 == 0
        others := fun _ _ w => [(wordAt w 1, wordAt w 2 / 8)]
        bytes := fun _ _ w => wordAt w 2 / 8 } fun _ => true)
  | .gstepStep h p => some (recordCmdForm h p gstepForm fun _ => h.so == 0#6)
  | .gstepStart h p _ => some (recordCmdForm h p gstepForm fun _ => h.so == 0#6)
  | .gstepOff h p => some (recordCmdForm h p gstepForm fun _ => h.so == 0#6)
  | _ => none

/-- Every engine command but TKFEED, TKDRAIN and BCLOSE. -/
def cmdForm (stream : Stream) (i : Instr) : Option CmdForm :=
  ((copyForm stream i).orElse fun _ => atomicForm i).orElse fun _ => storeCmdForm i

/-- The command an issued word makes is at the end of a list of commands, queued or deferred. -/
def issuedAs (s : State) (i : Instr) (st : CmdState) (c : Cmd) : Prop :=
  c.instr = i ∧ c.stream = s.cur.stream ∧ c.state = st ∧ c.issued = s.cycle ∧ c.key.addr = s.cur.pc

/-! ## Engine commands at work (R219 to R237) -/

/-- The event is the work of engine command c of the member. -/
structure Working (s : State) (tk : Task) (mem : Member) (c : Cmd) : Prop where
  current : Current s tk mem
  phase : s.cur.phase = .perform
  cmd : mem.curCmd s = some c
  active : ∃ d, c.state = .active d

/-- The state after the last piece of a command: s as the piece left it, with member b, whose command has moved its last byte (a
command with a follow-on step waits for the array). -/
def finished (s : State) (b : Member) (c : Cmd) : State :=
  s.put (b.putCmd { c with mark := c.mark + 1, state := .moved (if c.step = 1 then 0 else s.cycle) })

/-- The state after a command has become held at its mark, with its class 1 record (R234). -/
def heldAtMark (s : State) (b : Member) (c : Cmd) (cause : Nat) (va : Nat) : State :=
  (s.recordFault s.cur.task (c.info b ⟨cause, BitVec.ofNat 64 va, 0⟩ 1 c.unit c.progress)).put (b.putCmd { c with state := .held cause })

/-- A stream's translation of an address is that of the page tables. -/
def mappedFor (s : State) (tk : Task) (mem : Member) (x : Stream) (a : Nat) (l : Leaf) : Prop := mappedBy s tk (mem.tlb x) a l

/-- n bytes at an address are an ordinary read of a command of stream x: one page, readable, not racy, with no write that the member need not see yet
(R300). -/
structure Readable (s : State) (tk : Task) (mem : Member) (x : Stream) (va n : Nat) (l : Leaf) : Prop where
  map : mappedFor s tk mem x va l
  r : l.r = true
  ok : s.rangeOk (l.pa va) n = true
  rule : s.outsideRule s.cur.task tk l (l.pa va) = false
  calm : s.racy s.cur.task tk mem l (l.pa va) = false
  settled : s.settled s.cur.task mem (l.pa va) n = true
  page : va % 4096 + n ≤ 4096
  low : va < 2 ^ 57

/-- n bytes at an address are an ordinary write of a command of stream x: one line, writable, its piece taken in state s2, and nothing of the line
waits in the side log. -/
structure Writable (s s2 : State) (tk : Task) (mem : Member) (x : Stream) (va n : Nat) (l : Leaf) : Prop where
  map : mappedFor s tk mem x va l
  w : l.w = true
  own : (if l.owned (l.pa va) then s.takeOwn ⟨s.cur.task, mem.rank⟩ (l.pa va) else some s) = some s2
  plain : inPorts (l.pa va) = false
  exists_ : s.canWrite (l.pa va) n = true
  fresh : ∀ e ∈ s.slog, e.va ≠ va / 128 * 128
  line : va % 128 + n ≤ 128
  low : va < 2 ^ 57

/-- Memory after a write of bytes at an address: they are there, and every other byte is as before. -/
def wroteAt (m m' : Memory) (pa : Nat) (bytes : List Byte) : Prop :=
  (∀ k < bytes.length, m'.get (pa + k) = bytes.getD k 0) ∧ ∀ x, x < pa ∨ pa + bytes.length ≤ x → m'.get x = m.get x

/-- The scratchpad from address a holds bytes as valid data; containers outside stay. -/
def spadHolds (mem b : Member) (a : Nat) (bytes : List Byte) : Prop :=
  (∀ k < bytes.length, (b.cont ((a + k) / 4)).valid = true ∧ contByte (b.cont ((a + k) / 4)) ((a + k) % 4) = bytes.getD k 0) ∧
  ∀ ci, ci < a / 4 ∨ (a + bytes.length + 3) / 4 ≤ ci → b.cont ci = mem.cont ci

/-- The bytes of a range of the scratchpad, when all are valid and unpoisoned. -/
def spadBytes (mem : Member) (a n : Nat) (bytes : List Byte) : Prop :=
  bytes.length = n ∧ ∀ k < n, mem.spByte (a + k) = (bytes.getD k 0, true, false)

/-- A window row's fetch of tensor row t writes its slot, in the opening it belongs to, and no other slot (R224, R227). -/
def rowArrives (old new : Window) (gen t : Nat) : Prop :=
  (old.opened = true → old.gen = gen → old.slot t = (t % 2 ^ 32, Fill.filling) → new = { old with slots := new.slots } ∧
    new.slot t = (t % 2 ^ 32, Fill.written) ∧ ∀ u, u % 2 ^ 32 % old.depth ≠ t % 2 ^ 32 % old.depth → new.slot u = old.slot u) ∧
  (old.gen ≠ gen ∨ old.opened = false → new = old)

/-- Every row of a window from HEAD to the one k rows on has been written, or is present already. -/
def writtenUpTo (w : Window) (k : Nat) : Prop :=
  ∀ u ≤ k, (w.slot (w.head + u)).2 = Fill.written ∨ (w.slot (w.head + u)).2 = Fill.present

/-! ## Prefix-store, selection, token and grammar commands (R254 to R291) -/

/-- A command of rows 0x2_ to 0x4_ is performed for the first time, in a task with REPL = 0, with no frozen row. -/
structure Performing (s : State) (tk : Task) (mem : Member) (c : Cmd) : Prop where
  work : Working s tk mem c
  thawed : mem.frozen = []
  fresh : ∀ n, mem.replayFor c n = none
  single : tk.replicated = false
  lead : mem.lead = true
  start : c.mark = 0

/-- Instruction i in state s leaves the device as s1 and writes the words out as ordinary values from its result record on; the
command is done, and nothing else of the member changes but its replay log and TLBs. -/
def answers (i : Instr) (s s1 : State) (mem : Member) (c : Cmd) (p : PrmRes) (out : List W32) : Prop :=
  ∃ b : Member, exec i s = .next (finished s1 b c) ∧
    b = { mem with spad := b.spad, wrote := b.wrote, saw := b.saw, replay := b.replay, replayPos := b.replayPos, tlbL := b.tlbL, tlbS := b.tlbS } ∧
    (∀ k < out.length, b.cont (4 * p.res.toNat + k) = ⟨out.getD k 0, true, false⟩) ∧
    ∀ ci, ci < 4 * p.res.toNat ∨ 4 * p.res.toNat + out.length ≤ ci → b.cont ci = mem.cont ci

/-- Only the prefix store, the directory messages and the free-value counter differ. -/
def storeOnly (s s1 : State) : Prop := s1 = { s with store := s1.store, fabric := s1.fabric, free := s1.free }

/-- Some lines of the prefix store are read from the drawer without an uncorrectable error; s0 is the device with those reads counted (R332,
R392). -/
def linesRead (s : State) (ls : List ShelfLine) (s0 : State) : Prop := s.readLines 1 false ls = (none, s0)

/-- Only what reading lines of the prefix store changes differs: the plane cache and the readers, and the counts of the stacks and of the
management core (R372, R375, R392). -/
def linesOnly (s s0 : State) : Prop := s0 = { s with store := s0.store, hbm := s0.hbm, mgmt := s0.mgmt }

/-- Every slot but those of a list is as before. -/
def slotsKept (s s1 : State) (ks : List Nat) : Prop := ∀ j, j ∉ ks → s1.store.slots.find j = s.store.slots.find j

/-- The name of the block that ends a chain of j blocks of a token list after a name (R245). -/
def chainName (nm : Name) (ids : List W32) : Nat → Name
  | 0 => nm
  | j + 1 => blockName (chainName nm ids j) ((ids.drop (256 * j)).take 256)

/-- Bytes written from a scratchpad address as ordinary data beside the result record. -/
def answersWith (i : Instr) (s s1 : State) (mem : Member) (c : Cmd) (p : PrmRes) (out : List W32) (a : Nat) (bytes : List Byte) : Prop :=
  ∃ b : Member, exec i s = .next (finished s1 b c) ∧
    b = { mem with spad := b.spad, wrote := b.wrote, saw := b.saw, replay := b.replay, replayPos := b.replayPos, tlbL := b.tlbL, tlbS := b.tlbS } ∧
    (∀ k < out.length, b.cont (4 * p.res.toNat + k) = ⟨out.getD k 0, true, false⟩) ∧
    ∀ k < bytes.length, (b.cont ((a + k) / 4)).valid = true ∧ contByte (b.cont ((a + k) / 4)) ((a + k) % 4) = bytes.getD k 0

/-! ## Tasks, commits and records (R26 to R35, R321 to R328, R339 to R343, R403 to R408) -/

/-- The members of an unreplicated running task stand at their region end with nothing outstanding or deferred: CLOSE, or TDONE where final. -/
structure AtRegionEnd (s : State) (tk : Task) (final : Bool) : Prop where
  running : tk.state = .running
  single : tk.replicated = false
  idle : tk.commit = .none
  plain : tk.vote = none ∧ tk.termReq = false ∧ tk.commitPending = false ∧ tk.mu = [] ∧ tk.ending = none
  past : ∀ r ∈ tk.replicas, r.atBarrier = false
  some_ : tk.members ≠ []
  log : s.slog = []
  ends : ∀ m ∈ tk.members, m.stall = some (if final then .tdone else .close) ∧ m.kSettled = true ∧
    ∀ x, x ≠ Stream.c → (m.str x).status = if final then .halted else .closed
  quiet : ∀ m ∈ tk.members, m.cmds = [] ∧ m.counts = [] ∧ m.stores = [] ∧ m.pend = Pend.empty ∧ ∀ q ∈ m.tq.toList, q = []
  deferred : ∀ m ∈ tk.members, m.dwq = [] ∧ m.rels = [] ∧ m.arms = [] ∧ m.spawns = []

/-- The head of a queue is a host's record of a kind that may be accepted: its reserved bits are 0 and its queue's context is enabled. -/
structure HeadRecord (s : State) (q kind : Nat) (e : QEntry) (r : BitVec 512) : Prop where
  arg : s.arg = .num q
  head : (s.queueAt q).entries.head? = some e
  record : e.record = some r
  kind : recKind r = kind
  reserved : r.extractLsb' 5 27 = 0#27
  enabled : s.ctxEn (s.queueAt q).ctx = true

/-- The state after the head of queue q has been accepted: it leaves the queue, and the acceptance is stamped (R311, R405). -/
def accepted (s : State) (q kind : Nat) : State := (s.popHead q).stamp (.accept kind q)

/-- The state after the head of queue q, no launch of the time-triggered table, has been discarded: it leaves the queue, and BAD counts
(R405). -/
def discarded (s : State) (q : Nat) : State := s.modQueue q fun x => x.pop.countBad

/-! ## Commands another device answers (R420 to R427) -/

/-- Command c of member m of an unreplicated task t waits for another device, with no frozen row. -/
structure Served (s : State) (t m : Nat) (tk : Task) (mem : Member) (c : Cmd) : Prop where
  task : s.tasks[t]? = some tk
  member : tk.members[m]? = some mem
  cmd : (mem.cmds.find? fun k => k.seq == c.seq) = some c
  thawed : mem.frozen = []
  single : tk.replicated = false

/-- The command has written its result words and moved its last byte, and nothing remote is left of it. -/
def remoteEnded (s1 : State) (t m : Nat) (c : Cmd) (p : PrmRes) (out : List W32) : Prop :=
  (∃ b : Member, s1.member? t m = some b ∧ (∀ k < out.length, b.cont (4 * p.res.toNat + k) = ⟨out.getD k 0, true, false⟩) ∧
    ∃ d ∈ b.cmds, d.seq = c.seq ∧ ∃ n, d.state = .moved n) ∧
  (∀ l ∈ s1.fabric.held, ¬ (l.task = t ∧ l.member = m ∧ l.cmd = c.seq)) ∧
  (∀ l ∈ s1.fabric.reqs, ¬ (l.task = t ∧ l.member = m ∧ l.cmd = c.seq)) ∧
  ∀ l ∈ s1.fabric.copies, ¬ (l.task = t ∧ l.member = m ∧ l.cmd = c.seq)

/-! ## Fetching (R87 to R89) and the form the state keeps -/

/-- n pieces of four bytes from an address as the C TLB and the page tables fetch them, in pages of one leaf that may be executed; the TLB holds
no other leaf for them. -/
structure Fetched (s : State) (tk : Task) (mem : Member) (pc : W64) (n : Nat) (bytes : List Byte) : Prop where
  pages : ∃ l : Leaf, l.x = true ∧ (∀ k < n, mapped s tk mem (pc + BitVec.ofNat 64 (4 * k)).toNat l ∧
      s.rangeOk (l.pa (pc + BitVec.ofNat 64 (4 * k)).toNat) 4 = true) ∧
    bytes = ((List.range n).flatMap fun k => s.load (l.pa (pc + BitVec.ofNat 64 (4 * k)).toNat) 4) ∧
    ∀ e ∈ mem.tlbC, e.ctx = tk.ctx → ∀ k < n, within (pc + BitVec.ofNat 64 (4 * k)).toNat e.va e.leaf.size = true → e.leaf = l

/-- What every step keeps: memory in its canonical form (R4, R293), and the events numbered from 0 in their order (R311). -/
structure WellKept (s : State) : Prop where
  mem : s.mem.wf = true
  events : s.events.map (·.1) = List.range s.nextSeq

end Sys2Proof.Machine
end

