-- ==== Sys2Proof/Certificates/Slice0/Obligations.lean ====
section
/-! DEFINITION. The statements for the provers. Each docstring names the rules of spec/ it follows. -/

open Sys2Proof Sys2Proof.Machine

/-- R40: g0 reads as zero with its poison bit clear and discards writes; every other register reads as what was last written
to it. -/
def Obligations.RegisterZeroIsHardwired : Prop :=
  ∀ (mem : Member) (r q : BitVec 5) (v : Scalar),
    (mem.wr r v).rd q = if q = 0#5 then ⟨0, false⟩ else if q = r then v else mem.rd q

/-- R122, R124, R41: each of the words of scalarResult (ADD to LEA but the divisions, ADDI to SRAI but SLTI) completes, writes
the result the rules give, poisoned when an operand is, and goes on in sequence. R123: DIV, DIVZ, REM and REMZ never fault; they
write the quotient and the remainder of div_s and div_z. -/
def Obligations.ScalarWordsWriteTheirResults : Prop :=
  (∀ (s : State) (tk : Task) (mem : Member) (i : Instr) (rd : BitVec 5) (v : Scalar),
     Current s tk mem → scalarResult mem i = some (rd, v) →
     exec i s = .next (afterC s (mem.wr rd v))) ∧
  (∀ (s : State) (tk : Task) (mem : Member) (i : Instr) (rd : BitVec 5) (v : Scalar),
     Current s tk mem → divisionResult mem i = some (rd, v) →
     exec i s = .next (afterC s (mem.wr rd v)))

/-- R125, R124, R41: SEQ, SLT, SLTZ and SLTI write 1 where their relation holds and 0 otherwise; a poisoned operand raises a
poison-use fault instead. -/
def Obligations.ComparesWriteZeroOrOne : Prop :=
  ∀ (s : State) (tk : Task) (mem : Member) (i : Instr) (rd : BitVec 5) (p holds : Bool),
    Current s tk mem → compareOf mem i = some (rd, p, holds) →
    (p = false → exec i s = .next (afterC s (mem.wr rd ⟨if holds then 1 else 0, false⟩))) ∧
    (p = true → exec i s = .next (faulted s mem cPoison 0 0))

/-- R126, R127: a load that is aligned, from an unpoisoned base, through the aperture, inside the allocation, completes with the
value and poison that the containers give. R126, R128, R130: a load from mapped, readable memory that is neither racy nor
outside the load rule, whose line the L1 does not hold with other bytes, completes with the bytes of memory under this core's
own stores, and poison clear; nothing but its register, the C stream, the L1, the cached TLB and what readsOnly names changes.
[The model's own: log 5, 6, 61, 64.] -/
def Obligations.LoadsRead : Prop :=
  (∀ (s : State) (tk : Task) (mem : Member) (i : Instr) (f : LoadForm),
     Current s tk mem → loadForm i = some f →
     (mem.rd f.rs).poison = false → (effAddr mem f.rs f.imm).toNat % f.bytes = 0 →
     inAperture (effAddr mem f.rs f.imm).toNat = true →
     inAlloc tk.spadN (apertureOf (effAddr mem f.rs f.imm)) = true →
     exec i s = .next (afterC s (mem.wr f.rd
       ⟨loadExtended f.signed f.bytes (scratchValue mem (apertureOf (effAddr mem f.rs f.imm)) f.bytes).1,
         (scratchValue mem (apertureOf (effAddr mem f.rs f.imm)) f.bytes).2⟩))) ∧
  (∀ (s : State) (tk : Task) (mem : Member) (i : Instr) (f : LoadForm) (pa : Nat) (bytes : List Byte),
     Current s tk mem → loadForm i = some f →
     let a := effAddr mem f.rs f.imm
     (mem.rd f.rs).poison = false → a.toNat % f.bytes = 0 → inAperture a.toNat = false →
     LoadedAs s tk mem a.toNat pa f.bytes bytes →
     ∃ (s1 : State) (b : Member), readsOnly s s1 ∧ b = { mem with l1 := b.l1, tlbC := b.tlbC } ∧
       exec i s = .next (afterC s1 (b.wr f.rd ⟨loadExtended f.signed f.bytes (leNat bytes), false⟩)))

/-- R126, R128, R120: where a load or store faults: a poisoned base, a misaligned address, and for a load without a translation
or without R a precise translation or protection fault that carries the address, or a memory fault where a table entry, or bytes that neither
the L1 holds nor the load rule withholds, cannot be read (R349, R385, R358, R316). R127, R61: a store through the aperture outside the allocation raises
a bounds fault that carries the task scratchpad address, and R243: one into a frozen row a schedule fault with check code 11. R129, R120: where a store to virtual memory
faults precisely: a poisoned base or datum, a misaligned address, an address of more than 57 bits, a page without W, a piece
another member owns. R129, R364, R235: a store of a task with REPL = 0 to a page without a translation is not precise: it enters
the side log of its core, one record of cause translation is written, and the C stream goes on; with the log full it waits.
[The model's own: log 5, 6, 40, 61, 64.] -/
def Obligations.LoadAndStoreFaults : Prop :=
  (∀ (s : State) (tk : Task) (mem : Member) (i : Instr) (f : LoadForm),
     Current s tk mem → loadForm i = some f →
     let a := effAddr mem f.rs f.imm
     ((mem.rd f.rs).poison = true → exec i s = .next (faulted s mem cPoison 0 0)) ∧
     ((mem.rd f.rs).poison = false → a.toNat % f.bytes ≠ 0 → exec i s = .next (faulted s mem cAlignment a 0)) ∧
     ((mem.rd f.rs).poison = false → a.toNat % f.bytes = 0 → inAperture a.toNat = true →
       inAlloc tk.spadN (apertureOf a) = false →
       exec i s = .next (faulted s mem cBounds (BitVec.ofNat 64 (apertureOf a)) 0)) ∧
     ((mem.rd f.rs).poison = false → a.toNat % f.bytes = 0 → inAperture a.toNat = false → unmapped s tk mem a.toNat →
       ∃ (s1 : State) (b : Member), readsOnly s s1 ∧ b = { mem with tlbC := b.tlbC } ∧
         exec i s = .next (faulted s1 b (s.missCause tk.ptroot a.toNat) a 0)) ∧
     (∀ l, (mem.rd f.rs).poison = false → a.toNat % f.bytes = 0 → inAperture a.toNat = false → mapped s tk mem a.toNat l →
       l.r = false →
       ∃ (s1 : State) (b : Member), readsOnly s s1 ∧ b = { mem with tlbC := b.tlbC } ∧ exec i s = .next (faulted s1 b cProtection a 0)) ∧
     (∀ l, (mem.rd f.rs).poison = false → a.toNat % f.bytes = 0 → inAperture a.toNat = false → mapped s tk mem a.toNat l →
       l.r = true → s.rangeOk (l.pa a.toNat) f.bytes = false → s.outsideRule s.cur.task tk l (l.pa a.toNat) = false →
       (s.racy s.cur.task tk mem l (l.pa a.toNat) = true ∨ mem.line? (l.pa a.toNat) = none) →
       ∃ (s1 : State) (b : Member), readsOnly s s1 ∧ b = { mem with tlbC := b.tlbC } ∧ exec i s = .next (faulted s1 b cMemory a 0))) ∧
  (∀ (s : State) (tk : Task) (mem : Member) (i : Instr) (f : StoreForm),
     Current s tk mem → storeForm i = some f →
     let a := effAddr mem f.rs f.imm
     let good := (mem.rd f.rs).poison = false ∧ (mem.rd f.rt).poison = false ∧ a.toNat % f.bytes = 0 ∧ inAperture a.toNat = false
     ((mem.rd f.rs).poison = true → exec i s = .next (faulted s mem cPoison 0 0)) ∧
     ((mem.rd f.rs).poison = false → (mem.rd f.rt).poison = true → inAperture a.toNat = false →
       exec i s = .next (faulted s mem cPoison 0 0)) ∧
     ((mem.rd f.rs).poison = false → (mem.rd f.rt).poison = false → a.toNat % f.bytes ≠ 0 →
       exec i s = .next (faulted s mem cAlignment a 0)) ∧
     ((mem.rd f.rs).poison = false → a.toNat % f.bytes = 0 → inAperture a.toNat = true → inAlloc tk.spadN (apertureOf a) = false →
       exec i s = .next (faulted s mem cBounds (BitVec.ofNat 64 (apertureOf a)) 0)) ∧
     ((mem.rd f.rs).poison = false → a.toNat % f.bytes = 0 → inAperture a.toNat = true → inAlloc tk.spadN (apertureOf a) = true →
       mem.frozen.contains (apertureOf a / 512) = true → exec i s = .next (faulted s mem cSchedule 0 11)) ∧
     (good → 2 ^ 57 ≤ a.toNat → exec i s = .next (faulted s mem cTranslation a 0)) ∧
     (∀ l, good → a.toNat < 2 ^ 57 → mapped s tk mem a.toNat l → l.w = false →
       ∃ (s1 : State) (b : Member), readsOnly s s1 ∧ b = { mem with tlbC := b.tlbC } ∧ exec i s = .next (faulted s1 b cProtection a 0)) ∧
     (∀ l, good → a.toNat < 2 ^ 57 → mapped s tk mem a.toNat l → l.w = true → s.canWrite (l.pa a.toNat) f.bytes = false →
       ∃ (s1 : State) (b : Member), readsOnly s s1 ∧ b = { mem with tlbC := b.tlbC } ∧ exec i s = .next (faulted s1 b cMemory a 0)) ∧
     (∀ l, good → a.toNat < 2 ^ 57 → mapped s tk mem a.toNat l → l.w = true → s.canWrite (l.pa a.toNat) f.bytes = true →
       l.owned (l.pa a.toNat) = true → s.takeOwn ⟨s.cur.task, mem.rank⟩ (l.pa a.toNat) = none →
       ∃ (s1 : State) (b : Member), readsOnly s s1 ∧ b = { mem with tlbC := b.tlbC } ∧
         exec i s = .next (faulted (s1.splitOwn (l.pa a.toNat)) b cSharing a 0))) ∧
  (∀ (s : State) (tk : Task) (mem : Member) (i : Instr) (f : StoreForm),
     Current s tk mem → storeForm i = some f →
     let a := effAddr mem f.rs f.imm
     let bytes := leBytes f.bytes (mem.rd f.rt).val.toNat
     (mem.rd f.rs).poison = false → (mem.rd f.rt).poison = false → a.toNat % f.bytes = 0 → inAperture a.toNat = false →
     a.toNat < 2 ^ 57 → unmapped s tk mem a.toNat → tk.replicated = false →
     (s.missCause tk.ptroot a.toNat = cMemory → ∃ (s1 : State) (b : Member), readsOnly s s1 ∧ b = { mem with tlbC := b.tlbC } ∧
       exec i s = .next (faulted s1 b cMemory a 0)) ∧
     (s.missCause tk.ptroot a.toNat = cTranslation → s.logRoom mem.core = true → ∃ (s1 : State) (b : Member), readsOnly s s1 ∧
       b = { mem with tlbC := b.tlbC } ∧
       exec i s = .next (afterC ((s1.logWrite s.cur.task s.cur.member tk b a.toNat bytes .write none).recordFault s.cur.task
         (s.info b cTranslation 2 a 0)) b)) ∧
     (s.missCause tk.ptroot a.toNat = cTranslation → s.logRoom mem.core = false → ∃ (s1 : State) (b : Member), readsOnly s s1 ∧
       b = { mem with tlbC := b.tlbC, stall := some i } ∧ exec i s = .next (s1.put b)))

/-- R127: a store through the aperture writes its bytes and sets the touched containers valid with gt's poison; every other
container, register and byte of memory stays. R129, R295, R355: a store to mapped, writable memory whose piece no other member
owns, in a task with REPL = 0, completes: its bytes wait to be performed at the physical address of its effective address, and
no byte of memory changes yet.
[The model's own: log 5, 6.] -/
def Obligations.StoresWrite : Prop :=
  (∀ (s : State) (tk : Task) (mem : Member) (i : Instr) (f : StoreForm),
     Current s tk mem → storeForm i = some f →
     let a := effAddr mem f.rs f.imm
     let t := apertureOf a
     let v := mem.rd f.rt
     (mem.rd f.rs).poison = false → a.toNat % f.bytes = 0 → inAperture a.toNat = true →
     inAlloc tk.spadN t = true → mem.frozen.contains (t / 512) = false →
     ∃ b : Member, exec i s = .next (afterC s b) ∧ b = { mem with spad := b.spad, wrote := b.wrote } ∧
       (∀ k < f.bytes, b.cont ((t + k) / 4) = ⟨(b.cont ((t + k) / 4)).data, true, v.poison⟩ ∧
         contByte (b.cont ((t + k) / 4)) ((t + k) % 4) = v.val.extractLsb' (8 * k) 8) ∧
       (∀ x, (∀ k < f.bytes, t + k ≠ x) →
         contByte (b.cont (x / 4)) (x % 4) =
           if (mem.cont (x / 4)).valid || !(List.range f.bytes).any (fun k => (t + k) / 4 == x / 4)
           then contByte (mem.cont (x / 4)) (x % 4) else 0) ∧
       (∀ ci, (∀ k < f.bytes, (t + k) / 4 ≠ ci) → b.cont ci = mem.cont ci)) ∧
  (∀ (s : State) (tk : Task) (mem : Member) (i : Instr) (f : StoreForm) (l : Leaf) (s2 : State),
     Current s tk mem → storeForm i = some f →
     let a := effAddr mem f.rs f.imm
     let pa := l.pa a.toNat
     let v := mem.rd f.rt
     (mem.rd f.rs).poison = false → v.poison = false → a.toNat % f.bytes = 0 → inAperture a.toNat = false → a.toNat < 2 ^ 57 →
     mapped s tk mem a.toNat l → l.w = true → tk.replicated = false →
     s.canWrite pa f.bytes = true → (if l.owned pa then s.takeOwn ⟨s.cur.task, mem.rank⟩ pa else some s) = some s2 →
     ∃ (s1 : State) (b : Member) (due : Nat), readsOnly { s with own := s2.own } s1 ∧ exec i s = .next (afterC s1 b) ∧ s.cycle < due ∧
       b = { mem with l1 := b.l1, tlbC := b.tlbC,
                      stores := mem.stores ++ [⟨pa, a.toNat, leBytes f.bytes v.val.toNat, due, s.nextLog⟩] } ∧
       s2 = { s with own := s2.own } ∧
       ∀ x, (afterC s1 b).mem.get x = s.mem.get x)

/-- R131, R134, R98: a branch goes on at the word's address + 4 x off when its relation holds, else in sequence; a poisoned
operand raises a poison-use fault, and a branch that ends an active loop is illegal. R132: JAL and JALR write the word's address
+ 4 and go on at their target; JALR reads gs before it writes gd, and faults on a poisoned gs and on a target that is no
multiple of 4; both are illegal as the end word of an active loop (R134). -/
def Obligations.BranchesAndJumps : Prop :=
  (∀ (s : State) (tk : Task) (mem : Member) (i : Instr) (p : Bool) (off : BitVec 16) (taken : Bool),
     Current s tk mem → branchOf mem i = some (p, off, taken) →
     (p = true → exec i s = .next (faulted s mem cPoison 0 0)) ∧
     (p = false → endsLoop s mem = true → exec i s = .next (faulted s mem cIllegal 0 0)) ∧
     (p = false → endsLoop s mem = false → taken = false → exec i s = .next (afterC s mem)) ∧
     (p = false → endsLoop s mem = false → taken = true →
       exec i s = .next (s.put (mem.cJump (s.cur.pc + BitVec.ofInt 64 (4 * off.toInt)) s.cycle)))) ∧
  (∀ (s : State) (tk : Task) (mem : Member) (rd rs : BitVec 5) (off : BitVec 21) (imm : BitVec 16),
     Current s tk mem →
     let t := (mem.rd rs).val + BitVec.ofInt 64 imm.toInt
     let linked := mem.wr rd ⟨s.cur.pc + 4, false⟩
     (endsLoop s mem = true → exec (.jal rd off) s = .next (faulted s mem cIllegal 0 0)) ∧
     (endsLoop s mem = false →
       exec (.jal rd off) s = .next (s.put (linked.cJump (s.cur.pc + BitVec.ofInt 64 (4 * off.toInt)) s.cycle))) ∧
     ((mem.rd rs).poison = true → exec (.jalr rd rs imm) s = .next (faulted s mem cPoison 0 0)) ∧
     ((mem.rd rs).poison = false → endsLoop s mem = true →
       exec (.jalr rd rs imm) s = .next (faulted s mem cIllegal 0 0)) ∧
     ((mem.rd rs).poison = false → endsLoop s mem = false → t.toNat % 4 ≠ 0 →
       exec (.jalr rd rs imm) s = .next (faulted s mem cAlignment t 0)) ∧
     ((mem.rd rs).poison = false → endsLoop s mem = false → t.toNat % 4 = 0 →
       exec (.jalr rd rs imm) s = .next (s.put (linked.cJump t s.cycle))))

/-- R97, R134: after the word at a loop's end completes, the inner counter goes down first; when it is exhausted on a word that
also ends the outer loop, the outer counter goes down in the same step; otherwise the stream goes on in sequence. R133, R134:
LOOP and LOOPI start the loop of their counter where R133 allows it, go on after its last word when the count is 0, and are
illegal otherwise.
[The model's own: log 5, 38.] -/
def Obligations.CountedLoops : Prop :=
  (∀ (x : StreamSt) (a next : W64),
     let inner := x.lc1.count ≠ 0 ∧ a = x.lc1.stop
     let outer := x.lc0.count ≠ 0 ∧ a = x.lc0.stop
     let y := x.loopEnd a next
     (inner → 1 < x.lc1.count.toNat → y = { x with pc := x.lc1.start, lc1 := { x.lc1 with count := x.lc1.count - 1 } }) ∧
     (¬ (inner ∧ 1 < x.lc1.count.toNat) →
       y.lc1 = (if inner then { x.lc1 with count := 0 } else x.lc1) ∧
       y.lc0 = (if outer then { x.lc0 with count := x.lc0.count - 1 } else x.lc0) ∧
       y.pc = if outer ∧ 1 < x.lc0.count.toNat then x.lc0.start else next)) ∧
  (∀ (s : State) (tk : Task) (mem : Member) (j : BitVec 1) (rs : BitVec 5) (stop : BitVec 16) (count : BitVec 13)
     (stop12 : BitVec 12), Current s tk mem →
     let x := mem.str .c
     let start := s.cur.pc + 4
     let last (e : Nat) := s.cur.pc + BitVec.ofNat 64 (4 * e)
     let free (e : Nat) := endsLoop s mem = false ∧ x.lc1.count = 0 ∧ (j = 0#1 → x.lc0.count = 0) ∧
       (j = 1#1 → x.lc0.count ≠ 0 → (last e).toNat ≤ x.lc0.stop.toNat)
     let after (n : BitVec 32) (e : Nat) : StreamSt :=
       let y := if j = 0#1 then { x with pc := start, lc0 := ⟨n, start, last e⟩ }
         else { x with pc := start, lc1 := ⟨n, start, last e⟩ }
       { y with pc := (if n = 0 then last e + 4 else start), base := s.cycle + Config.cDelay s.cycle + 1, waiting := false }
     (stop12 ≠ 0 → free stop12.toNat →
       exec (.loopi j count stop12) s = .next (s.put (mem.setStr .c (after (count.zeroExtend 32) stop12.toNat)))) ∧
     (stop12 = 0 ∨ ¬ free stop12.toNat → exec (.loopi j count stop12) s = .next (faulted s mem cIllegal 0 0)) ∧
     (stop ≠ 0 → (mem.rd rs).poison = false → (mem.rd rs).val.toNat < 2 ^ 32 → free stop.toNat →
       exec (.loop j rs stop) s = .next (s.put (mem.setStr .c (after ((mem.rd rs).val.setWidth 32) stop.toNat)))) ∧
     (stop ≠ 0 → (mem.rd rs).poison = true → exec (.loop j rs stop) s = .next (faulted s mem cPoison 0 0)) ∧
     (stop = 0 ∨ ((mem.rd rs).poison = false ∧ (2 ^ 32 ≤ (mem.rd rs).val.toNat ∨ ¬ free stop.toNat)) →
       exec (.loop j rs stop) s = .next (faulted s mem cIllegal 0 0)))

/-- R135, R136, R51, R41: DSET writes its quarter for DGET at once and for everything else at the end of the cycle, and faults on a
poisoned source; DGET reads a quarter with poison clear; MBW copies value and poison into its mailbox at the end of the cycle.
[The model's own: log 5.] -/
def Obligations.DescriptorAndMailboxWords : Prop :=
  ∀ (s : State) (tk : Task) (mem : Member) (dn : BitVec 6) (q : BitVec 2) (g : BitVec 5) (mb : BitVec 2), Current s tk mem →
    ((mem.rd g).poison = true → exec (.dset dn q g) s = .next (faulted s mem cPoison 0 0)) ∧
    ((mem.rd g).poison = false → ∃ b : Member, exec (.dset dn q g) s = .next (afterC s b) ∧
      b = { mem with pend := { mem.pend with dset := b.pend.dset } } ∧
      ∀ (e : BitVec 6) (r : BitVec 2),
        getQuarter (b.descNow e) r = (if e = dn ∧ r = q then (mem.rd g).val else getQuarter (mem.descNow e) r) ∧
        b.endCycle.d[e.toNat] = b.descNow e) ∧
    exec (.dget dn q g) s = .next (afterC s (mem.wr g ⟨getQuarter (mem.descNow dn) q, false⟩)) ∧
    ∃ b : Member, exec (.mbw mb g) s = .next (afterC s b) ∧
      b = { mem with pend := { mem.pend with mbw := b.pend.mbw } } ∧
      ∀ n : BitVec 2, b.endCycle.mb[n.toNat] = if n = mb then mem.rd g else mem.endCycle.mb[n.toNat]

/-- R137, R17, R49: TSIG appends n tokens at the end of the cycle where the queue has room for them, TWAIT and TWAITB remove the
oldest, by the count at the start of the cycle; where they cannot, the C stream stalls; TWAITB branches on its token's tag.
R138, R48: SEMW takes its count when the value at the start of the cycle, less what earlier waits of the cycle took, is at least
that; else the C stream stalls. SEMS adds its count at the end of the cycle, with a schedule fault past 65,535. SEMR reads the
value at the start of the cycle. R48: at the end of a cycle in which only waits took counts from semaphores, each value is lower
by what was taken.
[The model's own: log 5.] -/
def Obligations.TokenAndSemaphoreWords : Prop :=
  (∀ (s : State) (tk : Task) (mem : Member) (y : BitVec 2) (tag : BitVec 1) (nm1 : BitVec 5) (off : BitVec 16),
     Current s tk mem → y ≠ 0#2 →
     let n := nm1.toNat + 1
     let out := y.toNat - 1
     let inq := 3 * y.toNat
     (mem.tokRoom out n = true → ∃ b : Member, exec (.tsig y tag nm1) s = .next (afterC s b) ∧
       b = { mem with pend := { mem.pend with tokPush := b.pend.tokPush } } ∧
       ∀ k, b.tokEnd k = if k = out then mem.tokEnd k ++ List.replicate n (tag == 1#1) else mem.tokEnd k) ∧
     (mem.tokRoom out n = false → exec (.tsig y tag nm1) s = .next (s.put { mem with stall := some (.tsig y tag nm1) })) ∧
     (mem.tokHas inq n = true → ∃ b : Member, exec (.twait y nm1) s = .next (afterC s b) ∧
       b = { mem with pend := { mem.pend with tokTaken := b.pend.tokTaken } } ∧
       ∀ k, b.tokEnd k = if k = inq then (mem.tokEnd k).drop n else mem.tokEnd k) ∧
     (mem.tokHas inq n = false → exec (.twait y nm1) s = .next (s.put { mem with stall := some (.twait y nm1) })) ∧
     (mem.tokHas inq 1 = true → endsLoop s mem = false → ∃ b : Member,
       exec (.twaitb y off) s = .next (if (mem.tokEnd inq).head? = some true
         then s.put (b.cJump (s.cur.pc + BitVec.ofInt 64 (4 * off.toInt)) s.cycle) else afterC s b) ∧
       b = { mem with pend := { mem.pend with tokTaken := b.pend.tokTaken } } ∧
       ∀ k, b.tokEnd k = if k = inq then (mem.tokEnd k).drop 1 else mem.tokEnd k) ∧
     (mem.tokHas inq 1 = false → endsLoop s mem = false →
       exec (.twaitb y off) s = .next (s.put { mem with stall := some (.twaitb y off) }))) ∧
  ((∀ (s : State) (tk : Task) (mem : Member) (n cnt : BitVec 8) (rd : BitVec 5), Current s tk mem → cnt ≠ 0#8 →
      (mem.semReady n.toNat cnt.toNat = true → ∃ b : Member, exec (.semw n cnt) s = .next (afterC s b) ∧
        b = { mem with pend := { mem.pend with semTaken := b.pend.semTaken } } ∧
        ∀ k, b.semTakenNow k = mem.semTakenNow k + if k = n.toNat then cnt.toNat else 0) ∧
      (mem.semReady n.toNat cnt.toNat = false → exec (.semw n cnt) s = .next (s.put { mem with stall := some (.semw n cnt) })) ∧
      exec (.semr rd n) s = .next (afterC s (mem.wr rd ⟨BitVec.ofNat 64 mem.sem[n.toNat], false⟩)) ∧
      ∃ b : Member, exec (.sems n cnt) s = .next (afterC s b) ∧
        b = { mem with pend := { mem.pend with semAdd := b.pend.semAdd } } ∧
        (mem.pend = Pend.empty →
          (mem.sem[n.toNat] + cnt.toNat < 65536 →
            b.semEnd = ({ b with sem := mem.sem.set n.toNat (mem.sem[n.toNat] + cnt.toNat) }, [])) ∧
          (65536 ≤ mem.sem[n.toNat] + cnt.toNat → b.semEnd = (b, [s.info mem cSchedule 0 0 9])))) ∧
   (∀ (mem : Member), mem.pend.semAdd = [] →
      ∀ n : BitVec 8, mem.semEnd.2 = [] ∧ (mem.semEnd.1).sem[n.toNat] = mem.sem[n.toNat] - mem.semTakenNow n.toNat))

/-- R137, R138, R147, R129: a stalled C word is tried again: TSIG, TWAIT, TWAITB, SEMW, FENCE and the stores run as on their
first issue. R137: a stalled TWAIT whose queue has come to hold its tokens completes.
[The model's own: log 5, 52.] -/
def Obligations.StalledWordsAreTriedAgain : Prop :=
  (∀ (s : State) (tk : Task) (mem : Member) (i : Instr), Current s tk mem → mem.stall = some i →
     ((∃ y tag n, i = .tsig y tag n) ∨ (∃ y n, i = .twait y n) ∨ (∃ y off, i = .twaitb y off) ∨ (∃ n c, i = .semw n c) ∨
       (∃ p q, i = .fence p q) ∨ (storeForm i).isSome) →
     exec .stalledWordResume s = exec i (s.put { mem with stall := none })) ∧
  (∀ (s : State) (tk : Task) (mem : Member) (y : BitVec 2) (nm1 : BitVec 5), Current s tk mem →
     mem.stall = some (.twait y nm1) → y ≠ 0#2 → mem.tokHas (3 * y.toNat) (nm1.toNat + 1) = true →
     ∃ b : Member, exec .stalledWordResume s = .next (afterC s b) ∧ b.stall = none ∧
       b.tokEnd (3 * y.toNat) = (mem.tokEnd (3 * y.toNat)).drop (nm1.toNat + 1))

/-- R143: ACQ, or the grant of a waiting ACQ, of a free lock at which no earlier request waits sets OWNER to the holder
identifier and HELD to 1, invalidates the lines its binding selects in every crew member, and completes; no other byte of memory
and no other handle changes. (A task with REPL = 0.) R143, R50: ACQ of a lock the task already holds completes at once; ACQ of a
lock another task holds waits at the home slice in order of arrival; ACQ of anything but a bound lock is illegal. (A task with
REPL = 0.)
[The model's own: log 5, 6.] -/
def Obligations.AcquiringALock : Prop :=
  (∀ (s : State) (tk : Task) (mem : Member) (so : BitVec 6) (pa : Nat) (i : Instr), Current s tk mem →
     (i = .acq so ∨ (i = .lockGrant ∧ mem.stall = some (.acq so))) →
     let h := tk.handle so
     h.kind = .lock → h.held = false → tk.replicated = false → mem.takeEcho .c = none → ObjectAt s tk mem h.addr pa →
     s.lockOwner pa = 0 → (s.lockWaiters pa).head?.getD s.cur.task = s.cur.task → s.mem.wf = true →
     ∃ (t : State) (tk' : Task) (b : Member), exec i s = .next t ∧ Current t tk' b ∧
       t.mem.bytes (pa + 8) 8 = leBytes 8 tk.holderId ∧ (∀ x, x < pa + 8 ∨ pa + 16 ≤ x → t.mem.get x = s.mem.get x) ∧
       tk'.handle so = { h with held := true } ∧ (∀ k, k ≠ so → tk'.handle k = tk.handle k) ∧
       noneBound tk' h.ids ∧ b.stall = none ∧ b.g = mem.g ∧
       b.str .c = (mem.str .c).seqNext 4 (s.cycle + Config.cDelay s.cycle) ∧ t.lockWaiters pa = (s.lockWaiters pa).filter (· != s.cur.task)) ∧
  (∀ (s : State) (tk : Task) (mem : Member) (so : BitVec 6), Current s tk mem →
     let h := tk.handle so
     (h.kind ≠ .lock → exec (.acq so) s = .next (faulted s mem cIllegal 0 0)) ∧
     (h.kind = .lock → h.held = true → mem.takeEcho .c = none →
       exec (.acq so) s = .next (afterC s { mem with stall := none })) ∧
     (∀ pa, h.kind = .lock → h.held = false → tk.replicated = false → mem.takeEcho .c = none → ObjectAt s tk mem h.addr pa →
       s.lockOwner pa ≠ 0 → (∀ r ∈ s.lockq, r.obj = pa → r.task = s.cur.task → r.granted = false) →
       ∃ (t : State) (b : Member), exec (.acq so) s = .next t ∧ b = { mem with tlbC := b.tlbC, stall := some (.acq so) } ∧
         t = { s.put b with lockq := t.lockq, xlat := t.xlat, free := t.free, hbm := t.hbm, mgmt := t.mgmt } ∧
         t.lockWaiters pa = if s.cur.task ∈ s.lockWaiters pa then s.lockWaiters pa else s.lockWaiters pa ++ [s.cur.task]))

/-- R144, R319: REL of a held lock that the member has not released in this region marks the release for the commit and changes
nothing else; any other REL is illegal. (A task with REPL = 0.) R145, R50: BOARM arms an arrival of gs units at a barrier handle
for the commit and sets ARM; a poisoned gs and a handle that is no barrier raise their faults. (A task with REPL = 0.)
[The model's own: log 5.] -/
def Obligations.ReleasesAndArrivalsWaitForTheCommit : Prop :=
  (∀ (s : State) (tk : Task) (mem : Member) (so : BitVec 6), Current s tk mem → tk.replicated = false →
     let h := tk.handle so
     (h.kind = .lock → h.held = true → so.toNat ∉ mem.rels →
       exec (.rel so) s = .next (afterC s { mem with rels := mem.rels ++ [so.toNat] })) ∧
     (h.kind ≠ .lock ∨ h.held = false ∨ so.toNat ∈ mem.rels → exec (.rel so) s = .next (faulted s mem cIllegal 0 0))) ∧
  (∀ (s : State) (tk : Task) (mem : Member) (so : BitVec 6) (rs : BitVec 5), Current s tk mem → tk.replicated = false →
     let h := tk.handle so
     let g := mem.rd rs
     (g.poison = true → exec (.boarm so rs) s = .next (faulted s mem cPoison 0 0)) ∧
     (g.poison = false → h.kind ≠ .barrier → exec (.boarm so rs) s = .next (faulted s mem cIllegal 0 0)) ∧
     (g.poison = false → h.kind = .barrier → exec (.boarm so rs) s =
       .next (s.putBoth (tk.setHandle so { h with arm := true })
         ({ mem with arms := mem.arms ++ [(so.toNat, g.val)] }.cNext s.cycle))))

/-- R142: SOBIND with the handle's own KIND and ADDR has no effect; otherwise, on a handle neither held nor armed, it takes the
object at gs of the named kind, with HELD and ARM 0 and a barrier's PHASE; a poisoned or misaligned address, a handle in use and
a TYPE that differs raise their faults. R146: BOWAIT, or a waiting BOWAIT that looks again, completes when the object's PHASE
differs from the handle's, after the L1 lines whose binding selects the object are invalidated in every member; it waits when
they are equal; it is illegal on an armed handle and on one that is no barrier.
[The model's own: log 5, 6.] -/
def Obligations.BarrierHandles : Prop :=
  (∀ (s : State) (tk : Task) (mem : Member) (so : BitVec 6) (kind : BitVec 2) (rs : BitVec 5), Current s tk mem →
     kind = 1#2 ∨ kind = 2#2 →
     let k := if kind = 1#2 then SoKind.lock else SoKind.barrier
     let h := tk.handle so
     let g := mem.rd rs
     (g.poison = true → exec (.sobind so kind rs) s = .next (faulted s mem cPoison 0 0)) ∧
     (g.poison = false → g.val.toNat % 64 ≠ 0 → exec (.sobind so kind rs) s = .next (faulted s mem cAlignment g.val 0)) ∧
     (g.poison = false → g.val.toNat % 64 = 0 → h.kind = k → h.addr = g.val.toNat →
       exec (.sobind so kind rs) s = .next (afterC s mem)) ∧
     (g.poison = false → g.val.toNat % 64 = 0 → (h.kind ≠ k ∨ h.addr ≠ g.val.toNat) → (h.held = true ∨ h.arm = true) →
       exec (.sobind so kind rs) s = .next (faulted s mem cIllegal 0 0)) ∧
     (∀ pa bytes, g.poison = false → g.val.toNat % 64 = 0 → (h.kind ≠ k ∨ h.addr ≠ g.val.toNat) → h.held = false → h.arm = false →
       LoadedAs s tk mem g.val.toNat pa 64 bytes → leNat (bytes.take 1) = kind.toNat →
       ∃ (s1 : State) (b : Member) (h' : Handle), readsOnly s s1 ∧
         exec (.sobind so kind rs) s = .next (s1.putBoth (tk.setHandle so h') (b.cNext s.cycle)) ∧
         b = { mem with l1 := b.l1, tlbC := b.tlbC } ∧ h'.kind = k ∧ h'.addr = g.val.toNat ∧ h'.held = false ∧ h'.arm = false ∧
         (kind = 2#2 → h'.phase = BitVec.ofNat 32 (leNat ((bytes.drop 24).take 4)))) ∧
     (∀ pa bytes, g.poison = false → g.val.toNat % 64 = 0 → (h.kind ≠ k ∨ h.addr ≠ g.val.toNat) → h.held = false → h.arm = false →
       LoadedAs s tk mem g.val.toNat pa 64 bytes → leNat (bytes.take 1) ≠ kind.toNat →
       ∃ (s1 : State) (b : Member), readsOnly s s1 ∧ b = { mem with l1 := b.l1, tlbC := b.tlbC } ∧
         exec (.sobind so kind rs) s = .next (faulted s1 b cIllegal 0 0))) ∧
  (∀ (s : State) (tk : Task) (mem : Member) (so : BitVec 6) (i : Instr), Current s tk mem →
     (i = .bowait so ∨ (i = .barrierPhaseSeen ∧ mem.stall = some (.bowait so))) →
     let h := tk.handle so
     (h.kind ≠ .barrier ∨ h.arm = true → exec i s = .next (faulted s mem cIllegal 0 0)) ∧
     (∀ pa, h.kind = .barrier → h.arm = false → ObjectAt s tk mem h.addr pa → s.loadNat (pa + 24) 4 = h.phase.toNat →
       ∃ (s1 : State) (b : Member), readsOnly s s1 ∧ exec i s = .next (s1.put b) ∧
         b = { mem with tlbC := b.tlbC, stall := some (.bowait so) }) ∧
     (∀ pa, h.kind = .barrier → h.arm = false → ObjectAt s tk mem h.addr pa → s.loadNat (pa + 24) 4 ≠ h.phase.toNat →
       ∃ (t : State) (tk' : Task) (b : Member), exec i s = .next t ∧ Current t tk' b ∧
         t = { s with tasks := t.tasks, xlat := t.xlat, free := t.free, hbm := t.hbm, mgmt := t.mgmt } ∧
         tk'.handle so = { h with holds := true } ∧ (∀ k, k ≠ so → tk'.handle k = tk.handle k) ∧ noneBound tk' h.ids ∧
         b.stall = none ∧ so.toNat ∈ b.bowaits ∧ b.g = mem.g ∧
         b.str .c = (mem.str .c).seqNext 4 (s.cycle + Config.cDelay s.cycle)))

/-- R147: FENCE completes when no access of a kind in its pred mask is outstanding on the core, and stalls otherwise; with a
zero mask it waits for nothing. R148, R150, R134: CLOSE and TDONE hold the C stream at the region's end for the commit; with a
loop counter above 0 they are illegal. NOP has no effect (R154).
[The model's own: log 5; which accesses fall under the er and ew bits of the mask, log 66; that a deferred accumulate or CAS is not waited for, log 75.] -/
def Obligations.FencesAndRegionEnds : Prop :=
  (∀ (s : State) (tk : Task) (mem : Member) (p q : BitVec 7), Current s tk mem →
     (fenceBlocked s mem p = false → exec (.fence p q) s = .next (afterC s mem)) ∧
     (fenceBlocked s mem p = true → exec (.fence p q) s = .next (s.put { mem with stall := some (.fence p q) })) ∧
     exec (.fence 0 q) s = .next (afterC s mem) ∧
     (fenceBlocked s mem 2#7 = true ↔ mem.stores ≠ [] ∨
       ∃ e ∈ s.slog, e.task = s.cur.task ∧ e.member = s.cur.member ∧ e.cmd = none ∧ e.act = .write)) ∧
  (∀ (s : State) (tk : Task) (mem : Member), Current s tk mem →
     exec .nop s = .next (afterC s mem) ∧
     ∀ i : Instr, i = .close ∨ i = .tdone →
       (((mem.str .c).lc0.count = 0 ∧ (mem.str .c).lc1.count = 0) → exec i s = .next (s.put { mem with stall := some i })) ∧
       (((mem.str .c).lc0.count ≠ 0 ∨ (mem.str .c).lc1.count ≠ 0) → exec i s = .next (faulted s mem cIllegal 0 0)))

/-- R149: TSPAWN reserves an entry of the launching queue where it has room and the member has made fewer than 16 reservations in the
region, and writes 1; with the queue full it writes 0 and reserves nothing; a poisoned operand and a 17th reservation
fault. (A task with REPL = 0.)
[The model's own: log 5.] -/
def Obligations.SpawnReserves : Prop :=
  ∀ (s : State) (tk : Task) (mem : Member) (rd rs rt : BitVec 5), Current s tk mem → tk.replicated = false →
    let a := mem.rd rs
    let b := mem.rd rt
    let q : Queue := (s.queues.find tk.queue).getD Queue.reset
    let reserved : Queue := { q with entries := q.entries ++ [⟨none, .task s.cur.task, some (mem.rank, mem.spawns.length), none⟩] }
    (a.poison = true ∨ b.poison = true → exec (.tspawn rd rs rt) s = .next (faulted s mem cPoison 0 0)) ∧
    (a.poison = false → b.poison = false → q.room = false →
      exec (.tspawn rd rs rt) s = .next (afterC s (Member.wr { mem with stall := none } rd ⟨0, false⟩))) ∧
    (a.poison = false → b.poison = false → q.room = true → mem.spawns.length < 16 →
      exec (.tspawn rd rs rt) s = .next (afterC
        { s with queues := s.queues.put tk.queue reserved }
        (Member.wr { mem with spawns := mem.spawns ++ [⟨mem.spawns.length, tk.queue, a.val, b.val⟩], stall := none } rd ⟨1, false⟩))) ∧
    (a.poison = false → b.poison = false → q.room = true → 16 ≤ mem.spawns.length →
      exec (.tspawn rd rs rt) s = .next (faulted s mem cIllegal 0 0))

/-- R151, R63, R64: SRRD of the registers that are not echoed writes their fields, with poison clear; an index above 0x0A is
illegal. R151, R65, R63: SRWR of SR.FAULT clears its fields in both copies whatever value is written; a poisoned gs and any
other register fault. R152, R64, R63: in a task with REPL = 0 TIME, CYC, RNG and SRRD of SR.BUDGET and SR.CYC complete at once:
device time with the sync bit, the cycles since the region's origin, 64 entropy bits (a free value, notes/assumptions/4.md,
whatever it is), and what is left of the budget.
[The model's own: log 4, 5.] -/
def Obligations.StateRegistersAndClocks : Prop :=
  ((∀ (s : State) (tk : Task) (mem : Member) (rd : BitVec 5) (n : BitVec 8), Current s tk mem →
      (10 < n.toNat → exec (.srrd rd n) s = .next (faulted s mem cIllegal 0 0)) ∧
      (n.toNat ≤ 10 → n ≠ 6#8 → n ≠ 7#8 → ∃ v : W64, exec (.srrd rd n) s = .next (afterC s (mem.wr rd ⟨v, false⟩)) ∧
        (n = 0#8 → bitsOf v 15 0 = tk.node % 2 ^ 16 ∧ bitsOf v 30 16 = tk.queue % 2 ^ 15 ∧ bitsOf v 31 31 = 0 ∧
          bitsOf v 63 32 = tk.seq % 2 ^ 32) ∧
        (n = 1#8 → v.toNat = mem.rank % 2 ^ 64) ∧
        (n = 2#8 → bitsOf v 3 0 = tk.crew ∧ 2 ^ bitsOf v 5 4 = tk.crew ∧ bitsOf v 63 6 = 0) ∧
        (n = 3#8 → mem.replica ≤ 2 → bitsOf v 1 0 = mem.replica ∧ bitsOf v 3 2 = tk.repl ∧ bitsOf v 5 4 = tk.attempt % 4 ∧
          bitsOf v 63 6 = 0) ∧
        (n = 4#8 → v.toNat = tk.ctx % 2 ^ 64) ∧
        (n = 5#8 → bitsOf v 0 0 = (if tk.tolerant then 1 else 0) ∧ bitsOf v 1 1 = (if tk.pre && decide (tk.discards < 3) then 1 else 0) ∧
          bitsOf v 4 2 = tk.prio ∧ bitsOf v 63 5 = 0) ∧
        (n = 8#8 → v = tk.seed) ∧
        (n = 9#8 → v = (tk.stickyOf mem.replica ||| mem.kf).zeroExtend 64) ∧
        (n = 10#8 → ∀ r, tk.replicas[mem.replica]? = some r → r.fault.count ≤ 255 → r.fault.seq < 2 ^ 32 →
          bitsOf v 7 0 = r.fault.cause % 256 ∧ bitsOf v 15 8 = r.fault.count ∧ bitsOf v 63 32 = r.fault.seq))) ∧
   (∀ (s : State) (tk : Task) (mem : Member) (rs : BitVec 5) (n : BitVec 8), Current s tk mem →
      (n ≠ 10#8 → exec (.srwr rs n) s = .next (faulted s mem cIllegal 0 0)) ∧
      (n = 10#8 → (mem.rd rs).poison = true → exec (.srwr rs n) s = .next (faulted s mem cPoison 0 0)) ∧
      (n = 10#8 → (mem.rd rs).poison = false → ∃ (t : State) (tk' : Task) (b : Member), exec (.srwr rs n) s = .next t ∧
        Current t tk' b ∧ t = { s with tasks := t.tasks } ∧ b = mem.cNext s.cycle ∧ tk'.faultLive = ⟨0, 0, 0⟩ ∧
        (∀ r, tk.replicas[mem.replica]? = some r → tk'.replicas[mem.replica]? = some { r with fault := FaultSt.mk 0 0 0 }) ∧
        (∀ k, k ≠ mem.replica → tk'.replicas[k]? = tk.replicas[k]?)))) ∧
  (∀ (s : State) (tk : Task) (mem : Member) (rd : BitVec 5), Current s tk mem → tk.replicated = false →
     (∃ v : W64, exec (.time rd) s = .next (afterC s (mem.wr rd ⟨v, false⟩)) ∧ bitsOf v 62 0 = s.time.ns % 2 ^ 63 ∧
       (bitsOf v 63 63 = 1 ↔ s.time.inSync = false)) ∧
     exec (.cyc rd) s = .next (afterC s (mem.wr rd ⟨BitVec.ofNat 64 (s.cycle - tk.originOf mem.replica), false⟩)) ∧
     exec (.srrd rd 7#8) s = exec (.cyc rd) s ∧
     exec (.rng rd) s = .next (afterC { s with free := s.free + 1 } (mem.wr rd ⟨Config.freeWord s.free, false⟩)) ∧
     exec (.srrd rd 6#8) s =
       .next (afterC s (mem.wr rd ⟨BitVec.ofNat 64 ((tk.budget - tk.chargeOf mem.replica) % 2 ^ 40), false⟩)))

/-- R314, R152, R63, R64: in a replicated task a follower's TIME, CYC, RNG or SRRD of SR.BUDGET or SR.CYC stalls for the lead's echo, and the lead's
completes, with an echo to every follower of its rank while their buffers have room: it writes and echoes device time with the sync bit, the cycles
since the region's origin, 64 entropy bits (a free value, notes/assumptions/4.md, whatever it is), or what is left of the budget. R314, R315:
ECHO_ARRIVAL completes a follower's stalled TIME, CYC, RNG or SRRD with the value of the oldest echo of C when it names the word's address.
[The model's own: log 4, 5.] -/
def Obligations.Echoes : Prop :=
  (∀ (s : State) (tk : Task) (mem : Member) (rd : BitVec 5) (i : Instr), Current s tk mem → tk.replicated = true →
     (i = .time rd ∨ i = .cyc rd ∨ i = .rng rd ∨ i = .srrd rd 6#8 ∨ i = .srrd rd 7#8) →
     (mem.lead = false → exec i s = .next (s.put { mem with stall := some i })) ∧
     (mem.lead = true → tk.echoRoom mem.rank = true → ∃ (t : State) (tk' : Task) (v : W64), exec i s = .next t ∧
       t = { s with tasks := t.tasks, free := t.free } ∧
       t.tasks[s.cur.task]? = some tk' ∧ tk'.members[s.cur.member]? = some ((mem.wr rd ⟨v, false⟩).cNext s.cycle) ∧
       (∀ k m, k ≠ s.cur.member → tk.members[k]? = some m → tk'.members[k]? =
         some (if m.rank = mem.rank ∧ m.replica ≠ 0 then { m with echoes := m.echoes ++ [⟨.c, s.cur.pc, v, []⟩] } else m)) ∧
       (i = .time rd → bitsOf v 62 0 = s.time.ns % 2 ^ 63 ∧ (bitsOf v 63 63 = 1 ↔ s.time.inSync = false)) ∧
       (i = .cyc rd ∨ i = .srrd rd 7#8 → v = BitVec.ofNat 64 (s.cycle - tk.originOf mem.replica)) ∧
       (i = .rng rd → v = Config.freeWord s.free ∧ t.free = s.free + 1) ∧
       (i = .srrd rd 6#8 → v = BitVec.ofNat 64 ((tk.budget - tk.chargeOf mem.replica) % 2 ^ 40)))) ∧
  (∀ (s : State) (tk : Task) (mem b : Member) (rd : BitVec 5) (i : Instr) (e : Echo), Current s tk mem → mem.lead = false →
     (i = .time rd ∨ i = .cyc rd ∨ i = .rng rd ∨ ∃ n, i = .srrd rd n) → mem.stall = some i →
     mem.takeEcho .c = some (e, b) → e.addr = (mem.str .c).pc →
     ∃ t : State, exec .echoArrival s = .next t ∧
       t.member? s.cur.task s.cur.member = some ((Member.wr { b with stall := none } rd ⟨e.val, false⟩).cNext s.cycle) ∧
       b = { mem with echoes := mem.echoes.erase e })

/-- R153, R330: TRAP always raises a software-trap fault whose address field holds gs. R153: where the signed record enables it
for the context, FLTINJ inverts one bit of a g or v register of the replica gs names, with the data's tags and poison as they
were, or in a replicated task leaves the bit to be inverted in the next deferred C store, and writes its notice; it does nothing for g0 and for another replica; elsewhere it raises a privilege fault.
[The model's own: log 5, 40.] -/
def Obligations.TrapsAndInjectedFaults : Prop :=
  (∀ (s : State) (tk : Task) (mem : Member) (rs : BitVec 5), Current s tk mem →
     exec (.trap rs) s = .next (faulted s mem cTrap (mem.rd rs).val 0)) ∧
  (∀ (s : State) (tk : Task) (mem : Member) (rs rt : BitVec 5), Current s tk mem →
     let a := mem.rd rs
     let bit := (mem.rd rt).val.toNat
     let reg := a.val.extractLsb' 4 5
     let kind := (a.val.toNat / 4) % 4
     let notice := s.recordFault s.cur.task (s.info mem cInjected 3 a.val (bit % 65536))
     (tk.ctx ∉ s.mgmt.cfg.finj → exec (.fltinj rs rt) s = .next (faulted s mem cPrivilege 0 0)) ∧
     (tk.ctx ∈ s.mgmt.cfg.finj → (a.poison = true ∨ (mem.rd rt).poison = true) →
       exec (.fltinj rs rt) s = .next (faulted s mem cPoison 0 0)) ∧
     (tk.ctx ∈ s.mgmt.cfg.finj → a.poison = false → (mem.rd rt).poison = false →
       (kind = 3 ∨ a.val.toNat % 4 = 3 ∨ 512 ≤ a.val.toNat ∨ (if kind = 1 then 4096 else 64) ≤ bit) →
       exec (.fltinj rs rt) s = .next (faulted s mem cIllegal 0 0)) ∧
     (tk.ctx ∈ s.mgmt.cfg.finj → a.poison = false → (mem.rd rt).poison = false → a.val.toNat < 512 → kind ≠ 3 → a.val.toNat % 4 ≠ 3 →
       bit < (if kind = 1 then 4096 else 64) →
       (a.val.toNat % 4 ≠ mem.replica → exec (.fltinj rs rt) s = .next (afterC s mem)) ∧
       (a.val.toNat % 4 = mem.replica → kind = 0 → reg = 0#5 → exec (.fltinj rs rt) s = .next (afterC s mem)) ∧
       (a.val.toNat % 4 = mem.replica → kind = 0 → reg ≠ 0#5 → exec (.fltinj rs rt) s =
         .next (afterC notice (mem.wr reg ⟨(mem.rd reg).val ^^^ BitVec.ofNat 64 (2 ^ bit), (mem.rd reg).poison⟩))) ∧
       (a.val.toNat % 4 = mem.replica → kind = 1 → ∃ b : Member, exec (.fltinj rs rt) s = .next (afterC notice b) ∧
         b = { mem with v := b.v } ∧ (∀ r : BitVec 5, r ≠ reg → b.v[r.toNat] = mem.v[r.toNat]) ∧
         ∀ k c, mem.v[reg.toNat][k]? = some c → b.v[reg.toNat][k]? = some
           (if k = bit / 32 then { c with data := c.data ^^^ BitVec.ofNat 32 (2 ^ (bit % 32)) } else c)) ∧
       (a.val.toNat % 4 = mem.replica → kind = 2 → tk.replicated = false → exec (.fltinj rs rt) s = .next (afterC s mem)) ∧
       (a.val.toNat % 4 = mem.replica → kind = 2 → tk.replicated = true →
         exec (.fltinj rs rt) s = .next (afterC notice { mem with flips := mem.flips ++ [bit] }))))

/-! ## Taking a fault, and the return from one -/

/-- R329, R31, R32, R356: a precise fault of a task with REPL = 0 is recorded and its region discarded: every member is back at its checkpoint with its
windows closed, its semaphores, token queues and commands empty and its scratchpad as it was; the task is SUSPENDED and owns no page; other tasks stay
as they are. R327: in a replicated task a fault other than a schedule or deadline fault stops its replica alone: nothing is recorded or discarded
yet, and no other replica changes. R35: a further fault of the cycle in which the region was discarded is only recorded, once, and the faults that have
stopped replicas in the cycle of a schedule or deadline fault are recorded with it. R311, R336, R66: a record presented is stamped with the next sequence number and
counted in SR.FAULT unless it is a notice. R35: the records of a task in one cycle are presented by ascending rank, and in a rank in the order C, L, S, K.
[The model's own: log 41, 50.] -/
def Obligations.TakingAFault : Prop :=
  (∀ (s : State) (k : Nat) (tk : Task) (f : FaultInfo), s.tasks[k]? = some tk → tk.replicated = false → tk.before = none →
     ∃ tk' : Task, (s.raiseFor k f).tasks[k]? = some tk' ∧ tk'.state = .suspended ∧ tk'.before = some (tk.replicas, tk.members) ∧
       (tk.stoppedIn s.cycle = [] → (s.raiseFor k f).recs = s.recs ++ [⟨k, f, none⟩]) ∧
       tk'.so.toList = tk.so.toList.map (fun h => { h with arm := false }) ∧
       (∀ a o, (s.raiseFor k f).ownerOf a = some o → o.task ≠ k) ∧
       (∀ j, j ≠ k → (s.raiseFor k f).tasks[j]? = s.tasks[j]?) ∧
       tk'.members.length = tk.members.length ∧
       ∀ (i : Nat) (m : Member), tk.members[i]? = some m → ∃ m' : Member, tk'.members[i]? = some m' ∧
         m'.g = m.ckpt.g ∧ m'.v = m.ckpt.v ∧ m'.mb = m.ckpt.mb ∧ m'.d = m.ckpt.d ∧ m'.spad = m.spad ∧ m'.stores = m.stores ∧
         (∀ x : Stream, (m'.str x).pc = m.ckpt.pcs.getD x.code 0 ∧ ((m'.str x).lc0, (m'.str x).lc1) = m.ckpt.lc x.code) ∧
         m'.sem = Vector.replicate 256 0 ∧ m'.tq = Vector.replicate 12 [] ∧ m'.cmds = [] ∧ m'.moves = [] ∧ m'.jobs = [] ∧
         m'.dwq = [] ∧ m'.kf = 0 ∧ m'.stall = none ∧ ∀ w : Fin 16, m'.win[w].opened = false) ∧
  (∀ (s : State) (k : Nat) (tk : Task) (r : Replica) (f : FaultInfo), s.tasks[k]? = some tk → tk.replicated = true →
     f.cause ≠ cSchedule → f.cause ≠ cDeadline → tk.replicas[f.replica]? = some r → r.stopped = none → tk.before = none →
     ∃ tk' : Task, s.raiseFor k f = { s with tasks := s.tasks.set k tk' } ∧
       tk' = { tk with replicas := tk'.replicas } ∧
       tk'.replicas[f.replica]? = some { r with stopped := some f, stopCycle := s.cycle, sigs := none } ∧
       ∀ j, j ≠ f.replica → tk'.replicas[j]? = tk.replicas[j]?) ∧
  (∀ (s : State) (k : Nat) (tk : Task) (f : FaultInfo), s.tasks[k]? = some tk → tk.before ≠ none →
     let noted := fun r : Rec => r.task = k ∧ (r.info = f ∨ (r.info.replica ≠ f.replica ∧ r.info.alike f = true))
     ((∀ r ∈ s.recs, ¬ noted r) → s.raiseFor k f = { s with recs := s.recs ++ [⟨k, f, none⟩] }) ∧
     ((∃ r ∈ s.recs, noted r) → s.raiseFor k f = s)) ∧
  (∀ (s : State) (k : Nat) (tk : Task) (f : FaultInfo), s.tasks[k]? = some tk → tk.replicated = true → tk.before = none →
     f.cause = cSchedule ∨ f.cause = cDeadline →
     ∃ tk' : Task, (s.raiseFor k f).tasks[k]? = some tk' ∧ tk'.state = .suspended ∧ tk'.before = some (tk.replicas, tk.members) ∧
       (∃ r ∈ (s.raiseFor k f).recs, r.task = k ∧ r.info = f) ∧
       ∀ g ∈ tk.stoppedIn s.cycle, ∃ r ∈ (s.raiseFor k f).recs, r.task = k ∧
         (r.info = g ∨ (r.info.replica ≠ g.replica ∧ r.info.alike g = true))) ∧
  (∀ (s : State) (r : Rec) (tk : Task), s.tasks[r.task]? = some tk →
     (s.present r).nextSeq = s.nextSeq + 1 ∧ (s.present r).events = s.events ++ [(s.nextSeq, .faultRecord r.info.cause)] ∧
     ∃ tk' : Task, (s.present r).tasks = s.tasks.set r.task tk' ∧ tk' = { tk with qbase := s.ctxField tk.ctx 32 8, faultLive := tk'.faultLive } ∧
       tk'.faultLive = if r.info.cls = 3 then tk.faultLive
         else ⟨r.info.cause, min (tk.faultLive.count + 1) 255, s.nextSeq % 2 ^ 32⟩) ∧
  (∀ (s : State) (k : Nat) (tk : Task), s.tasks[k]? = some tk →
     (s.recsOf k).Perm (s.recs.filter fun r => r.task == k) ∧
     ((s.recsOf k).Pairwise fun a b => a.tail = none → b.tail = none →
       a.info.rank < b.info.rank ∨ (a.info.rank = b.info.rank ∧ a.info.stream ≤ b.info.stream)) ∧
     (s.presentFor k).recs = (s.recs.filter fun r => r.task != k) ∧
     (s.presentFor k).events.map (·.2) = s.events.map (·.2) ++ (s.recsOf k).map fun r => .faultRecord r.info.cause)

/-- R334: the layout of a fault record but for mismatch, vote and replica failure. R337, R338: a record goes to slot PROD of its
context's fault queue where the queue is not full, and PROD increments; a full queue only counts the drop; nothing else in
memory changes. (With NOTIFY 0, and a slot that does not overlap the header, both in memory that can be written.) -/
def Obligations.FaultRecords : Prop :=
  (∀ (f : FaultInfo) (task seq : Nat),
     let r := f.record task seq
     r.extractLsb' 0 8 = BitVec.ofNat 8 f.cause ∧ r.extractLsb' 8 3 = BitVec.ofNat 3 f.cls ∧
     r.extractLsb' 11 3 = BitVec.ofNat 3 f.stream ∧ r.extractLsb' 14 3 = BitVec.ofNat 3 f.rank ∧
     r.extractLsb' 17 2 = BitVec.ofNat 2 f.replica ∧ r.extractLsb' 19 4 = BitVec.ofNat 4 f.unit ∧
     r.extractLsb' 23 9 = 0#9 ∧ r.extractLsb' 32 32 = BitVec.ofNat 32 task ∧ r.extractLsb' 64 64 = f.pc ∧
     r.extractLsb' 128 32 = f.word.extractLsb' 0 32 ∧ r.extractLsb' 160 32 = BitVec.ofNat 32 f.mark ∧
     r.extractLsb' 192 64 = BitVec.ofNat 64 seq ∧ r.extractLsb' 256 64 = f.addr ∧
     r.extractLsb' 320 160 = f.word.extractLsb' 32 160 ∧ r.extractLsb' 480 16 = BitVec.ofNat 16 f.aux ∧
     r.extractLsb' 496 16 = 0#16) ∧
  (∀ (s : State) (c h p : Nat) (rec : BitVec 512), s.mem.wf = true →
     let q := s.ctxField c 32 8
     let prod := s.loadNat h 4
     let cons := s.loadNat (h + 4) 4
     let log2n := s.loadNat (h + 12) 1 % 32
     s.ctxPa c q true = some h → q ≠ 0 → q % 64 = 0 → 4 ≤ log2n → log2n ≤ 16 → (∀ i < 64, inPorts (h + i) = false) → s.canWrite h 64 = true →
     ((prod + 2 ^ 32 - cons) % 2 ^ 32 < 2 ^ log2n → s.ctxPa c (q + 64 + 64 * (prod % 2 ^ log2n)) true = some p →
       s.loadNat (h + 16) 8 = 0 → (h + 64 ≤ p ∨ p + 64 ≤ h) → (∀ i < 64, inPorts (p + i) = false) →
       s.canWrite p 64 = true →
       (s.queueRecord c rec).mem.bytes p 64 = leBytes 64 rec.toNat ∧
       (s.queueRecord c rec).mem.bytes h 4 = leBytes 4 ((prod + 1) % 2 ^ 32) ∧
       ∀ x, (x < p ∨ p + 64 ≤ x) → (x < h ∨ h + 4 ≤ x) → (s.queueRecord c rec).mem.get x = s.mem.get x) ∧
     (2 ^ log2n ≤ (prod + 2 ^ 32 - cons) % 2 ^ 32 →
       (s.queueRecord c rec).mem.bytes (h + 8) 4 = leBytes 4 (min (s.loadNat (h + 8) 4 + 1) (2 ^ 32 - 1)) ∧
       ∀ x, (x < h + 8 ∨ h + 12 ≤ x) → (s.queueRecord c rec).mem.get x = s.mem.get x))

/-! ## Timed sequencing words -/

/-- R98, R97, R17, R20, R23, R49: JMPK goes on at its target; TWAIT and TWAITB of a timed stream take one token, TWAITB branches on its tag,
and TSIG appends one, by the counts at the start of the cycle; a missing token or a full queue is a schedule fault with check code 1 in
strict mode and a counted wait in tolerant mode; a jump or a wait as the end word of an active loop, and a queue from a stream to
itself, are illegal. -/
def Obligations.TimedTokenWords : Prop :=
  ∀ (s : State) (tk : Task) (mem : Member) (idle : BitVec 6) (y : BitVec 2) (tag : BitVec 1) (off : BitVec 24), Current s tk mem →
    let x := s.cur.stream
    let atEnd := (mem.str x).atLoopEnd s.cur.pc
    let target := s.cur.pc + BitVec.ofInt 64 (12 * off.toInt)
    let inq := 3 * y.toNat + (if x.code < y.toNat then x.code else x.code - 1)
    let out := 3 * x.code + (if y.toNat < x.code then y.toNat else y.toNat - 1)
    (atEnd = true → exec (.jmpk idle off) s = .next (faulted s mem cIllegal 0 0)) ∧
    (atEnd = false → exec (.jmpk idle off) s = .next (s.put (mem.setStr x ((mem.str x).jumpNext target s.cycle)))) ∧
    (y.toNat = x.code ∨ atEnd = true → exec (.twaitTimed idle y) s = .next (faulted s mem cIllegal 0 0) ∧
      exec (.twaitbTimed idle y off) s = .next (faulted s mem cIllegal 0 0)) ∧
    (y.toNat = x.code → exec (.tsigTimed idle y tag) s = .next (faulted s mem cIllegal 0 0)) ∧
    (y.toNat ≠ x.code → atEnd = false → mem.tokHas inq 1 = true → ∃ b : Member,
      b = { mem with pend := { mem.pend with tokTaken := b.pend.tokTaken } } ∧
      (∀ k, b.tokEnd k = if k = inq then (mem.tokEnd k).drop 1 else mem.tokEnd k) ∧
      exec (.twaitTimed idle y) s = .next (afterTimed s b) ∧
      exec (.twaitbTimed idle y off) s = .next (if (mem.tokEnd inq).head? = some true
        then s.put (b.setStr x ((mem.str x).jumpNext target s.cycle)) else afterTimed s b)) ∧
    (y.toNat ≠ x.code → atEnd = false → mem.tokHas inq 1 = false → ∀ i, i = .twaitTimed idle y ∨ i = .twaitbTimed idle y off →
      (tk.tolerant = false → exec i s = .next (faulted s mem cSchedule 0 1)) ∧
      (tk.tolerant = true → exec i s = .next (heldACycle s mem))) ∧
    (y.toNat ≠ x.code → mem.tokRoom out 1 = true → ∃ b : Member, exec (.tsigTimed idle y tag) s = .next (afterTimed s b) ∧
      b = { mem with pend := { mem.pend with tokPush := b.pend.tokPush } } ∧
      ∀ k, b.tokEnd k = if k = out then mem.tokEnd k ++ [tag == 1#1] else mem.tokEnd k) ∧
    (y.toNat ≠ x.code → mem.tokRoom out 1 = false →
      (tk.tolerant = false → exec (.tsigTimed idle y tag) s = .next (faulted s mem cSchedule 0 1)) ∧
      (tk.tolerant = true → exec (.tsigTimed idle y tag) s = .next (heldACycle s mem)))

/-- R97, R99, R27, R37: LOOPK starts a loop where it is allowed; CLOSE and HALT of a timed stream stop it at the word after, with both
counters at 0, and are illegal otherwise.
[The model's own: log 38.] -/
def Obligations.TimedLoopsAndStops : Prop :=
  ∀ (s : State) (tk : Task) (mem : Member) (idle : BitVec 6) (j : BitVec 1) (stop : BitVec 16) (count : BitVec 32),
    Current s tk mem →
    let kk := s.cur.stream
    let x := mem.str kk
    let start := s.cur.pc + 12
    let last := s.cur.pc + BitVec.ofNat 64 (12 * stop.toNat)
    let free := x.atLoopEnd s.cur.pc = false ∧ stop ≠ 0 ∧ x.lc1.count = 0 ∧ (j = 0#1 → x.lc0.count = 0) ∧
      (j = 1#1 → x.lc0.count ≠ 0 → last.toNat ≤ x.lc0.stop.toNat)
    (¬ free → exec (.loopk idle j stop count) s = .next (faulted s mem cIllegal 0 0)) ∧
    (free → count ≠ 0 → exec (.loopk idle j stop count) s = .next (s.put (mem.setStr kk
      { (if j = 0#1 then { x with lc0 := ⟨count, start, last⟩ } else { x with lc1 := ⟨count, start, last⟩ } : StreamSt) with
        pc := start, base := s.cycle + 1, waiting := false }))) ∧
    (free → count = 0 → ∃ u, (u = 12 ∨ u = 24) ∧ exec (.loopk idle j stop count) s =
      .next (s.put (mem.setStr kk
        { (if j = 0#1 then { x with lc0 := ⟨0, start, last⟩ } else { x with lc1 := ⟨0, start, last⟩ } : StreamSt) with
          pc := last + u, base := s.cycle + 1, waiting := false }))) ∧
    ∀ (i : Instr) (st : StreamStatus), (i = .closeTimed idle ∧ st = .closed) ∨ (i = .halt idle ∧ st = .halted) →
      ((x.lc0.count = 0 ∧ x.lc1.count = 0) →
        exec i s = .next (s.put (mem.setStr kk { x with pc := x.pc + 12, status := st, waiting := false }))) ∧
      (x.lc0.count ≠ 0 ∨ x.lc1.count ≠ 0 → exec i s = .next (faulted s mem cIllegal 0 0))

/-! ## The viaduct -/

/-- R100, R101, R102, R105, R106, R157: a slot that moves register v[n] to v[m] on a lane arrives 1 cycle after its hops, which lanes 0 to
3 count upward and lanes 4 to 7 downward around the eight stations; an empty slot is no move. -/
def Obligations.RegisterMovesTakeTheirHops : Prop :=
  ∀ (mem : Member) (c : Nat) (lane : BitVec 3) (n m : BitVec 5),
    let h := if lane.toNat < 4 then (m.toNat / 4 + 8 - n.toNat / 4) % 8 else (n.toNat / 4 + 8 - m.toNat / 4) % 8
    slotMove mem c ⟨0, lane, 0x040 + n.zeroExtend 10, 0x040 + m.zeroExtend 10⟩ =
      some (some ⟨.v n.toNat, .v m.toNat, 0, c + 1 + h, segsOf lane.toNat (n.toNat / 4) h c⟩) ∧
    (segsOf lane.toNat (n.toNat / 4) h c).length = h ∧
    slotMove mem c ⟨0, lane, 0, 0⟩ = some none

/-- R156, R159, R477: a bundle whose checks pass sends each of its moves that has a destination with the row its source holds in this
cycle, to arrive in its cycle; nothing else changes but the cursors of the windows it reads. R477, R20: a bundle with a slot the
encodings do not allow is illegal; a scoreboard check that fails faults in strict mode and waits a counted cycle in tolerant
mode. -/
def Obligations.Bundles : Prop :=
  (∀ (s : State) (tk : Task) (mem : Member) (idle : BitVec 4) (s0 s1 s2 : Slot) (ms : List SlotMove), Current s tk mem →
     bundleMoves mem s.cycle [s0, s1, s2] = some ms → bundleIllegal mem ms = false → bundleNominal tk mem ms = none →
     bundleChecks s.cycle mem ms = none →
     ∃ (n : Nat) (b : Member), exec (.bundle idle s0 s1 s2) s = .next (afterTimed { s with free := n } b) ∧ s.free ≤ n ∧
       b = { mem with win := b.win, moves := b.moves } ∧
       b.moves.length = mem.moves.length + (ms.filter fun m => m.dest != Dest.none).length ∧ (∀ v ∈ mem.moves, v ∈ b.moves) ∧
       (∀ m ∈ ms, m.dest ≠ Dest.none → ∃ v ∈ b.moves, v.dest = m.dest ∧ v.arrive = m.arrive ∧ v.segs = m.segs ∧
         (∃ k, s.free ≤ k ∧ v.data = (readSrc tk mem k m).1) ∧ v.key.addr = s.cur.pc) ∧
       (∀ w : Fin 16, w.val ∉ windowsRead ms → b.win[w] = mem.win[w])) ∧
  (∀ (s : State) (tk : Task) (mem : Member) (idle : BitVec 4) (s0 s1 s2 : Slot), Current s tk mem →
     (bundleMoves mem s.cycle [s0, s1, s2] = none → exec (.bundle idle s0 s1 s2) s = .next (faulted s mem cIllegal 0 0)) ∧
     ∀ ms t, bundleMoves mem s.cycle [s0, s1, s2] = some ms → bundleIllegal mem ms = false → bundleNominal tk mem ms = none →
       bundleChecks s.cycle mem ms = some t →
       (tk.tolerant = false → exec (.bundle idle s0 s1 s2) s = .next (faulted s mem t.cause t.addr t.aux)) ∧
       (tk.tolerant = true → exec (.bundle idle s0 s1 s2) s = .next (heldACycle s mem)))

/-- R157, R155, R57: a move that is due writes its destination and leaves the viaduct: a register or latch takes the row with
invalid containers zeroed; a trigger takes it in .t and starts its operation; a scratchpad row takes its valid containers and
keeps the others. R155, R72, R52: a result that is due is written to its station's .q with its flags or-ed into kf, and goes on
to the row of its chain.
[The model's own: log 49.] -/
def Obligations.MovesAndResultsLand : Prop :=
  (∀ (s : State) (tk : Task) (mem : Member) (v : Move), Current s tk mem →
     mem.moves.find? (fun m => m.arrive == s.cycle) = some v →
     ∃ b : Member, exec .moveArrival s = .next (s.put b) ∧ b.moves = mem.moves.erase v ∧ b.g = mem.g ∧ b.results = mem.results ∧
       (∀ n : Fin 32, v.dest = .v n.val → b = { mem with moves := b.moves, v := mem.v.set n (normRow v.data) }) ∧
       (∀ k : Fin 8, v.dest = .la k.val → b = { mem with moves := b.moves, la := mem.la.set k (normRow v.data) }) ∧
       (∀ k : Fin 8, v.dest = .lb k.val → b = { mem with moves := b.moves, lb := mem.lb.set k (normRow v.data) }) ∧
       (∀ (k : Fin 8) (op : BitVec 7) (x : BitVec 4), v.dest = .trig k.val op x →
         b = { mem with moves := b.moves, lt := mem.lt.set k (normRow v.data),
                        starts := mem.starts ++ [⟨k.val, op, x, v.key, none⟩] }) ∧
       (∀ w r, v.dest = .row w r → v.data.length = 128 → b = { mem with moves := b.moves, spad := b.spad, wrote := b.wrote } ∧
         ∀ i < 128, b.cont ((w * 80 + r) * 128 + i) =
           if (rowC v.data i).valid then rowC v.data i else mem.cont ((w * 80 + r) * 128 + i))) ∧
  (∀ (s : State) (tk : Task) (mem : Member) (r : Result), Current s tk mem →
     mem.results.find? (fun r => r.due == s.cycle) = some r →
     ∃ b : Member, exec .unitResult s = .next (s.put b) ∧
       b = { mem with results := mem.results.erase r, lq := b.lq, kf := mem.kf ||| r.flags, mark := b.mark, chains := b.chains } ∧
       (∀ k : Fin 8, b.lq[k] = if k.val = r.st then r.data else mem.lq[k]) ∧
       (r.st ≠ 6 → b.mark = mem.mark) ∧ (r.st = 6 → b.mark = r.mark) ∧
       (r.chain = none → b.chains = mem.chains))

/-! ## Station operations -/

/-- R155, R161, R52, R108: every operation of st0 to st7 that its trigger has started reads its latches, and its result is due after the
latency of its station's unit; nothing else changes. The row is the operation's: the two statements below give it.
[The model's own: log 49.] -/
def Obligations.StationOperationsStart : Prop :=
  ∀ (s : State) (tk : Task) (mem : Member) (i : Instr) (o : VArgs) (num : BitVec 4) (g : Start), Current s tk mem →
    stationOp i = some (o, num) → triggered mem o num g →
    ∃ out : OpOut, exec i s = .next (s.put (opStarted mem g o.st.toNat s.cycle out))

/-- R163, R164, R165, R57, R162: the integer and logic operations of two operands compute the element the rules give, modulo
2^w, and raise no flag. R163, R165, R57, R162: VNOT, VMOV, VABS and VNEG compute the element the rules give from T alone. R166:
the tags of VSEL: a container is invalid where the mask's is, else its tags come from the mask and from the operands its
elements select. -/
def Obligations.IntegerOperationsCompute : Prop :=
  ((∀ (s : State) (tk : Task) (mem : Member) (i : Instr) (o : VArgs) (num : BitVec 4) (g : Start) (f : Nat → Nat → Nat → Nat → Int),
      Current s tk mem → stationOp i = some (o, num) → triggered mem o num g → integerOp i = some (o, f) →
      let l := latchesOf mem o.st.toNat
      ∃ row : Row, exec i s = .next (s.put (opStarted mem g o.st.toNat s.cycle ⟨row, 0, none⟩)) ∧
        elementwise (intW o.ty) [l.a, l.t] (fun k => f (intW o.ty) k (elemOf (intW o.ty) l.a k) (elemOf (intW o.ty) l.t k)) row) ∧
   (∀ (s : State) (tk : Task) (mem : Member) (i : Instr) (o : VArgs) (num : BitVec 4) (g : Start) (f : Nat → Nat → Int),
      Current s tk mem → stationOp i = some (o, num) → triggered mem o num g → integerUnary i = some (o, f) →
      let l := latchesOf mem o.st.toNat
      ∃ row : Row, exec i s = .next (s.put (opStarted mem g o.st.toNat s.cycle ⟨row, 0, none⟩)) ∧
        elementwise (intW o.ty) [l.t] (fun k => f (intW o.ty) (elemOf (intW o.ty) l.t k)) row)) ∧
  (∀ (s : State) (tk : Task) (mem : Member) (o : VArgs) (g : Start), Current s tk mem → triggered mem o 0x3#4 g →
     let w := intW o.ty
     let l := latchesOf mem o.st.toNat
     let fromA (c : Nat) := ∃ j < 32 / w, elemOf w l.b (c * (32 / w) + j) ≠ 0
     let fromT (c : Nat) := ∃ j < 32 / w, elemOf w l.b (c * (32 / w) + j) = 0
     ∃ row : Row, exec (.vsel o) s = .next (s.put (opStarted mem g o.st.toNat s.cycle ⟨row, 0, none⟩)) ∧ ∀ c < 128,
       ((rowC row c).valid = true ↔ (rowC l.b c).valid = true ∧ (fromA c → (rowC l.a c).valid = true) ∧
         (fromT c → (rowC l.t c).valid = true)) ∧
       ((rowC row c).valid = true → ((rowC row c).poison = true ↔ (rowC l.b c).poison = true ∨
         (fromA c ∧ (rowC l.a c).poison = true) ∨ (fromT c ∧ (rowC l.t c).poison = true))) ∧
       ((rowC row c).valid = true → ∀ j < 32 / w, elemOf w row (c * (32 / w) + j) =
         if elemOf w l.b (c * (32 / w) + j) ≠ 0 then elemOf w l.a (c * (32 / w) + j) else elemOf w l.t (c * (32 / w) + j)) ∧
       ((rowC row c).valid = false → rowC row c = Container.none))

/-- R57, R72, R162, R167 to R173, R175 to R194: every operation of st2 to st7, and VVALID, answers a next state that differs only by the
operation's start, and its row, tags, flags and part are those its rule gives: VVALID, VFADD, VFSUB, VFMUL, VFMA, VFMS, VFNMA,
VFMIN, VFMAX, VFABS, VFNEG, VFCMP, VFSCALE, VFEXPO, VFMANT; VDIV, VRCP, VSQRT, VSQRTC, VRSQRT, VEXP2, VLOG2, VGUMB; VSUM, VRMAX,
VRMIN, VEMAX, VSCAN, VSORT, VTOPK, VTOPKM, VCOUNT; VCVT to its eight types, VMXQ, VMXDQ, VPACK, VWIDEN, VNARROW, VRNG; VPERM,
VSHUF, VBCAST, VEXTR, VINS, VROT, VDOT4S, VDOT8S, VCOMPACT, VEXPAND. A trigger that waits to start is the only condition.
[The model's own: log 7, 8, 49; the tags of VINS, log 9.] -/
def Obligations.StationOperationsGiveTheirResults : Prop :=
  ∀ (s : State) (tk : Task) (mem : Member) (i : Instr) (o : VArgs) (num : BitVec 4) (g : Start) (r : Given), Current s tk mem →
    stationOp i = some (o, num) → triggered mem o num g → stationGives tk mem g.key (latchesOf mem o.st.toNat) i r →
    ∃ out : OpOut, exec i s = .next (s.put (opStarted mem g o.st.toNat s.cycle out)) ∧ r.by out

/-- R68, R75: a finite value of FP32, FP16 or BF16 rounds to its own code, exactly and without a flag, in every mode. -/
def Obligations.RoundingIsExactOnItsFormat : Prop :=
  ∀ (f : Fmt) (code rm rb : Nat), f = fp32 ∨ f = fp16 ∨ f = bf16 → rm < 5 → code < 2 ^ f.w →
    (∃ n m e, f.decode code = .fin n m e) → roundFmt (f.decode code) f rm false rb = (code, 0)

/-- R78: rng64 is the four rounds of the rule, and for each key a permutation of the counters: two distinct counters never give the same
output. -/
def Obligations.RandomNumbersPermuteTheCounters : Prop :=
  (∀ key ctr : W64, rng64 key ctr = (List.range 4).foldl (fun x i =>
    let x1 := x + (key + BitVec.ofNat 64 (i * 0x9E3779B97F4A7C15))
    let x2 := x1 ^^^ (x1 >>> 31)
    let x3 := x2 * 0xD6E8FEB86659FD93#64
    x3 ^^^ (x3 >>> 29)) ctr) ∧
  (∀ key a b : W64, rng64 key a = rng64 key b → a = b) ∧
  rng64 0 0 = [0x9E3779B97F4A7C15#64, 0x3C6EF372FE94F82A#64, 0xDAA66D2C7DDF743F#64].foldl (fun (x k : W64) =>
    let x1 := x + k
    let x2 := x1 ^^^ (x1 >>> 31)
    let x3 := x2 * 0xD6E8FEB86659FD93#64
    x3 ^^^ (x3 >>> 29)) 0#64

/-! ## The matrix array -/

/-- R210, R207, R209, R200, R20, R213: a matrix word that is legal, passes its checks and finds the array and its tile free issues: its job
starts in the next cycle, or in the thirteenth with a remote operand, holds the array for its busy cycles and is ready six
cycles later; an illegal word, one whose check fails, and one that disagrees with a word of its group in the same cycle, fault; one that
finds the array busy faults with check code 2 in strict mode and waits in tolerant mode.
[The model's own: log 10, 12, 76.] -/
def Obligations.MatrixWordsIssue : Prop :=
  ∀ (s : State) (tk : Task) (mem : Member) (i : Instr) (n : Nat) (f : MatFields), Current s tk mem → matrixOp i = some (n, f) →
    (mem.str s.cur.stream).waiting = false →
    let remote := f.arem = 1#1 ∨ f.brem = 1#1
    let start := if remote then s.cycle + 13 else s.cycle + 1
    let busy := busyCycles n f
    let tile := if n = 7 then mem.accReady.toList.getD f.acc.toNat 0 else 0
    (matrixLegal tk mem n f = false → exec i s = .next (faulted s mem cIllegal 0 0)) ∧
    (∀ t, matrixLegal tk mem n f = true → matrixTrap tk mem n f = some t →
      exec i s = .next (faulted s mem t.cause t.addr t.aux)) ∧
    (matrixLegal tk mem n f = true → matrixTrap tk mem n f = none → groupMismatch tk mem f = true →
      exec i s = .next (faulted s mem cMatrix 0 f.mcg.toNat)) ∧
    (matrixLegal tk mem n f = true → matrixTrap tk mem n f = none → groupMismatch tk mem f = false →
      (start < mem.arrayFree ∨ s.cycle < tile) →
      (tk.tolerant = false → exec i s = .next (faulted s mem cSchedule 0 2)) ∧
      (tk.tolerant = true → exec i s = .next (heldACycle s mem))) ∧
    (matrixLegal tk mem n f = true → matrixTrap tk mem n f = none → groupMismatch tk mem f = false →
      mem.arrayFree ≤ start → tile ≤ s.cycle → remoteFree tk mem s.cycle busy f = true →
      ∃ (b : Member) (j : Job), exec i s = .next (afterTimed s b) ∧
        b = { mem with jobs := mem.jobs ++ [j], arrayFree := start + busy, accReady := b.accReady, rstreams := b.rstreams } ∧
        j.mop = n ∧ j.f = f ∧ j.start = start ∧ j.busy = busy ∧ j.ready = start + busy + 6 ∧ j.cmd = none ∧ j.rowsDone = 0 ∧
        (∀ t : Fin 4, b.accReady[t] = if t.val = f.acc.toNat ∧ n ≠ 7 then start + busy + 6 else mem.accReady[t]))

/-- R210, R199, R82, R83, R201 to R206: ARRAY_WRITE lets the first job that is due write: MZERO +0, MLDACC what it read, a multiply word, group of 32
by group, what mma_group, or the clamped sum of the old element and the products, gives, for every element of its part of the tile, leaving every other element: where
every container an element reads and its old one are valid, and else an invalid one, with the poison of any; flags come from valid outputs only. MDRAIN
writes the next row of the tile in its drain format, each destination container where all its elements are valid, with the OR of their poison bits, and
leaves every other container.
[The model's own: log 49, 68.] -/
def Obligations.ArrayWrites : Prop :=
  ∀ (s : State) (tk : Task) (mem : Member) (j : Job), Current s tk mem → keysRise mem.acc →
    mem.jobs.find? (fun k => k.due s.cycle) = some j →
    let mm := j.f.mm1.toNat + 1
    let nn := j.f.nm1.toNat + 1
    let inside (t m n : Nat) := t = j.f.acc.toNat ∧ m < mm ∧ n < nn
    (j.mop ≠ 7 → ∃ b : Member, exec .arrayWrite s = .next (s.put b) ∧
      b = { mem with jobs := mem.jobs.erase j, acc := b.acc, kf := b.kf } ∧
      (∀ t m n, t < 4 → m < 128 → n < 256 → ¬ inside t m n → b.accAt t m n = mem.accAt t m n) ∧
      (j.mop = 5 ∨ j.mop = 6 → b.kf = mem.kf) ∧
      (∀ t m n, inside t m n →
        (j.mop = 5 → b.accAt t m n = Container.ord 0) ∧
        (j.mop = 6 → ∀ c, j.opA.bind (fun x => x.1[m * nn + n]?) = some c → b.accAt t m n = c)) ∧
      (1 ≤ j.mop → j.mop ≤ 4 → ∀ x y, j.opA = some x → j.opB = some y →
        let out (m n : Nat) := afterGroups j x y m n (mem.accAt j.f.acc.toNat m n).data.toNat ((j.f.km1.toNat + 32) / 32)
        let whole (m n : Nat) := (mem.accAt j.f.acc.toNat m n).valid = true ∧ ∀ c, groupReads j x y m n c → c.valid = true
        (∀ m n, m < mm → n < nn → whole m n → (b.accAt j.f.acc.toNat m n).data = BitVec.ofNat 32 (out m n).1 ∧ (b.accAt j.f.acc.toNat m n).valid = true ∧
          ((b.accAt j.f.acc.toNat m n).poison = true ↔
            (mem.accAt j.f.acc.toNat m n).poison = true ∨ ∃ c, groupReads j x y m n c ∧ c.poison = true)) ∧
        (∀ m n, m < mm → n < nn → ¬ whole m n → b.accAt j.f.acc.toNat m n = Container.none) ∧
        ∀ k, b.kf.getLsbD k = true ↔ mem.kf.getLsbD k = true ∨
          ∃ m n, m < mm ∧ n < nn ∧ whole m n ∧ (out m n).2.getLsbD k = true)) ∧
    (j.mop = 7 → ∀ w, (∀ rb d, ∃ r, drained j.f rb d = some (w, r)) → ∃ b : Member, exec .arrayWrite s = .next (s.put b) ∧
      b = { mem with jobs := b.jobs, spad := b.spad, wrote := b.wrote, kf := b.kf } ∧
      (j.rowsDone + 1 = mm → b.jobs = mem.jobs.erase j) ∧
      let base := (j.f.aaddr.toNat + j.rowsDone * nn * w) / 4
      let elem (n : Nat) := mem.accAt j.f.acc.toNat j.rowsDone n
      let code (n : Nat) : Nat × KFlags := ((drained j.f (srBits (srKey tk.seed mem.rank j.key) (256 * j.rowsDone + n)) (elem n).data).map (·.2)).getD (0, 0)
      let whole (i : Nat) := ∀ k < 4 / w, (elem (i * (4 / w) + k)).valid = true
      (∀ i < nn * w / 4, (¬ whole i → b.cont (base + i) = mem.cont (base + i)) ∧
        (whole i → (b.cont (base + i)).valid = true ∧
          ((b.cont (base + i)).poison = true ↔ ∃ k < 4 / w, (elem (i * (4 / w) + k)).poison = true) ∧
          ∀ k < 4 / w, (b.cont (base + i)).data.toNat / 2 ^ (8 * w * k) % 2 ^ (8 * w) = (code (i * (4 / w) + k)).1 % 2 ^ (8 * w))) ∧
      (∀ ci, ci < base ∨ base + nn * w / 4 ≤ ci → b.cont ci = mem.cont ci) ∧
      ∀ q, b.kf.getLsbD q = true ↔ mem.kf.getLsbD q = true ∨
        ∃ i k, i < nn * w / 4 ∧ whole i ∧ k < 4 / w ∧ (code (i * (4 / w) + k)).2.getLsbD q = true)

/-- R196, R197, R20: a VCHAIN word whose checks pass starts one chain row a cycle, each with its stages, its source row and its
destination row; a conflict with what is in flight is check code 7. Each row is read in its own cycle, as no engine writes a row there. R215: FOLLOW_ON_STEP issues the first waiting step of a copy
whose last byte is written, in a cycle in which the array is free from the next on and K issues no matrix word.
[The model's own: log 49, 69.] -/
def Obligations.ChainWordsAndFollowOnSteps : Prop :=
  (∀ (s : State) (tk : Task) (mem : Member) (f : ChainFields), Current s tk mem →
    (mem.str s.cur.stream).waiting = false →
    let n := f.nm1.toNat + 1
    let events := (chainRows mem f (rngKey s mem) s.cycle).flatMap fun c => chainEvents c.stages c.x c.dest c.arrive
    let clash := events.any fun e => mem.pending.any fun p => e.1.same p.1 && e.2 == p.2
    (chainIllegal f = true → exec (.vchain f) s = .next (faulted s mem cIllegal 0 0)) ∧
    (∀ t, chainIllegal f = false → chainNominal tk mem f = some t →
      exec (.vchain f) s = .next (faulted s mem t.cause t.addr t.aux)) ∧
    (chainIllegal f = false → chainNominal tk mem f = none → clash = true →
      (tk.tolerant = false → exec (.vchain f) s = .next (faulted s mem cSchedule 0 7)) ∧
      (tk.tolerant = true → exec (.vchain f) s = .next (heldACycle s mem))) ∧
    (chainIllegal f = false → chainNominal tk mem f = none → clash = false →
      ∃ b : Member, exec (.vchain f) s = .next (afterTimed s b) ∧ b = { mem with chains := b.chains } ∧
        b.chains.length = mem.chains.length + n ∧
        ∀ r < n, ∃ c ∈ b.chains, c.arrive = s.cycle + 1 + r ∧ c.dest = f.daddr.toNat / 512 + r ∧ c.x = f.x ∧
          c.stages = f.stages.map (fun g => (g.sta.toNat, g.sop)) ∧
          c.reads = some (f.saddr.toNat / 512 + r))) ∧
  (∀ (s : State) (t m : Nat) (mem : Member), s.member? t m = some mem → mem.spMid = mem.spad →
    s.readChains t m = s.putMember t m { mem with chains := mem.chains.map fun c =>
      match c.reads with
      | some w => if c.arrive = s.cycle + 1 then { c with t := mem.spRow w, reads := none } else c
      | none => c }) ∧
  ∀ (s : State) (tk : Task) (mem : Member) (c : Cmd) (r : FollowOn), Current s tk mem →
    mem.cmds.find? (fun k => k.state == CmdState.moved 0 && k.follow.isSome) = some c → c.follow = some r →
    1 ≤ r.fmop.toNat → r.fmop.toNat ≤ 4 →
    (issuedMatrix mem s.cycle = false → mem.arrayFree ≤ s.cycle + 1 →
      ∃ (b : Member) (j : Job), exec .followOnStep s = .next (s.put b) ∧ b.jobs = mem.jobs ++ [j] ∧ j.mop = r.fmop.toNat ∧
        j.start = s.cycle + 1 ∧ j.ready = s.cycle + 7 + busyCycles r.fmop.toNat j.f ∧ j.cmd = some c.seq ∧
        j.f.aaddr = r.aaddr ∧ j.f.baddr = r.baddr ∧ j.f.acc = r.acc ∧ b.g = mem.g ∧ b.spad = mem.spad ∧
        b.cmds = mem.cmds.map fun k => if k.seq = c.seq then { k with state := .moved j.ready } else k) ∧
    (issuedMatrix mem s.cycle = true ∨ s.cycle + 1 < mem.arrayFree → exec .followOnStep s = .next s)

/-- R436, R438, R439: BOOT measures each image into its register and the record into register 8, takes the configuration record, trains the stacks and ends READY, or stops at the step that fails; a boot after another
reset keeps memory and starts with nothing enabled. R437: the mailbox answers and the measurement registers, once READY. R440: CORE_RETIREMENT
retires a core on which nothing runs and its span's spare takes its number. R442: the thermal clamp.
[The model's own: log 41, 42, 45, 56, 58.] -/
def Obligations.ManagementCore : Prop :=
  ∀ s : State,
    let hash (b : List Byte) : BitVec 384 := BitVec.ofNat 384 (beNat (sha384 b))
    let extend (m d : BitVec 384) := hash (beBytes 48 m.toNat ++ beBytes 48 d.toNat)
    let ready := s.mgmt.boot = .ready
    let answered (i : Instr) (a : MailAnswer) := (¬ ready → exec i s = .next s) ∧
      (ready → exec i s = .next { s with mgmt := { s.mgmt with mailbox := s.mgmt.mailbox ++ [a] } })
    (∀ ds fail bad badStacks repairOk, s.arg = .boot ds fail bad badStacks repairOk →
      let early := fail = some 1 ∨ fail = some 2 ∨ fail = some 3 ∨ fail = some 4
      let sound := (fail = none ∨ ∃ k, fail = some (k + 1) ∧ k < 8) ∧ (early ∨ (2 ≤ ds.length ∧ ds.length ≤ 9))
      let digest (i : Nat) : Option (BitVec 384) :=
        if fail = some 1 ∨ fail = some 2 then none
        else if fail = some 3 then (if i < 7 then ds[i]? else none)
        else if fail = some 4 then (if i < 8 then ds[i]? else none)
        else if i + 1 < ds.length then ds[i]? else if i = 8 then ds.getLast? else none
      (¬ sound → exec .boot s = .next s) ∧
      (sound → ∃ s1 : State, exec .boot s = .next s1 ∧ s1.mem = s.mem ∧
      (fail = none → s1.mgmt.boot = .ready ∧ s1.mgmt.cfg = s.mgmt.nextCfg.getD s.mgmt.cfg ∧ s1.mgmt.nextCfg = none ∧
        s1.regs.devid = s1.mgmt.cfg.devid ∧ s1.hbm.length = s.hbm.length ∧
        (∀ i st, s1.hbm[i]? = some st → st.mode = (if i ∈ badStacks then 5 else 2) ∧ st.donate = s1.mgmt.cfg.donate) ∧
        (∀ p, p ∈ s1.mgmt.repair.retired ↔ p ∈ bad ∨ (repairOk = true ∧ p ∈ s.mgmt.repair.retired)) ∧
        ∀ i < s.hbm.length, i ∈ badStacks → ∃ n, (n, EventKind.management 8 i) ∈ s1.events) ∧
      (∀ k, fail = some (k + 1) → s1.mgmt.boot = .failed (k + 1)) ∧
      (∀ k ≤ 4, fail = some (k + 1) → repairOk = true ∨ k ≤ 3 → s1.mgmt.repair.retired = s.mgmt.repair.retired) ∧
      (fail = none → repairOk = false → ∃ n, (n, EventKind.management 9 0) ∈ s1.events) ∧
      (∀ k ≤ 3, fail = some (k + 1) → s1.mgmt.cfg = s.mgmt.cfg) ∧
      (∀ (i : Nat) (hi : i < 16), let m := if s.mgmt.boot = .off then s.mgmt.meas[i] else 0
        s1.mgmt.meas[i] = ((digest i).map (extend m)).getD m) ∧
      (s.mgmt.boot = .off → s1.tasks = s.tasks ∧ s1.queues = s.queues) ∧
      (s.mgmt.boot ≠ .off → s1.tasks = [] ∧ s1.queues = [] ∧ s1.store = State.reset.store ∧
        (badStacks = [] → repairOk = true → s1.events = []) ∧ s1.power = State.reset.power))) ∧
    (∀ i d, s.arg = .measure i d → (¬ ready → exec .measurementExtend s = .next s) ∧
      (ready → ∃ s1 : State, exec .measurementExtend s = .next s1 ∧ s1 = { s with mgmt := { s.mgmt with
          meas := s1.mgmt.meas, mailbox := s1.mgmt.mailbox } } ∧
        (∀ (j : Nat) (hj : j < 16), s1.mgmt.meas[j] = if j = i ∧ 9 ≤ i then extend s.mgmt.meas[j] d else s.mgmt.meas[j]) ∧
        s1.mgmt.mailbox = s.mgmt.mailbox ++ if 9 ≤ i ∧ i ≤ 15 then [] else [.error])) ∧
    answered .getVersion (.version 1 3) ∧ answered .getCapabilities (.capabilities true true true) ∧
    answered .getDigests (.digests [hash Config.identityChain]) ∧
    (∀ k, s.arg = .num (k + 1) → answered .getCertificate .error) ∧
    ((∀ k, s.arg ≠ .num (k + 1)) → answered .getCertificate (.certificate Config.identityChain)) ∧
    (∀ i, s.arg = .num i → answered .getMeasurements
      (if 1 ≤ i ∧ i ≤ 16 then .measurements [(i, s.mgmt.meas.toList.getD (i - 1) 0)] else .error)) ∧
    ((∀ i, s.arg ≠ .num i) →
      answered .getMeasurements (.measurements ((List.range 16).map fun i => (i + 1, s.mgmt.meas.toList.getD i 0)))) ∧
    (∀ a b, s.arg = .algorithms a b → answered .negotiateAlgorithms (if a = true ∧ b = true then .algorithms true true else .error)) ∧
    (∀ n, s.arg = .nonce n → answered .challenge (.challenge n (Config.challengeSignature
      (leBytes 32 n.toNat ++ s.mgmt.meas.toList.flatMap fun m => beBytes 48 m.toNat)))) ∧
    (∀ signed part, s.arg = .config signed part → exec .configRecordReplace s = .next { s with mgmt := { s.mgmt with
      nextCfg := if signed then some part else s.mgmt.nextCfg, mailbox := s.mgmt.mailbox ++ [.config signed] } }) ∧
    (∀ p, s.arg = .num p →
      (p ∉ s.mgmt.repair.retiring ∨ s.coreInUse p = true → exec .coreRetirement s = .next s) ∧
      (p ∈ s.mgmt.repair.retiring → s.coreInUse p = false → ∃ s1 : State, exec .coreRetirement s = .next s1 ∧
        s1.mgmt.repair.retired = s.mgmt.repair.retired ++ [p] ∧ s1.mgmt.repair.retiring = s.mgmt.repair.retiring.erase p ∧
        s1.tasks = s.tasks ∧ s1.mem = s.mem ∧
        (p % 9 < 8 → s.mgmt.repair.spares.find (p / 9) = none → p / 9 * 9 + 8 ∉ s.mgmt.repair.retired →
          (∀ i < 8, p / 9 * 9 + i ∈ s.mgmt.repair.retired → i = p % 9) → s1.mgmt.repair.spares.find (p / 9) = some p))) ∧
    ∀ die, s.arg = .num die →
      let goes (l : List Nat) (what : Nat) : State := ({ s with power := { s.power with clamped := l } } : State).stamp (.management what die)
      (die ∈ s.power.clamped → exec .thermalClampEngage s = .next s ∧
        exec .thermalClampRelease s = .next (goes (s.power.clamped.erase die) 7)) ∧
      (die ∉ s.power.clamped → exec .thermalClampRelease s = .next s ∧
        (die < 4 → exec .thermalClampEngage s = .next (goes (s.power.clamped ++ [die]) 6)) ∧
        (4 ≤ die → exec .thermalClampEngage s = .next s))

/-- R389, R390, R391, R392, R393, R332: HBM stacks train, drain, test and repair their banks row by row and count their errors. R418, R419, R432: a link
takes flits in sequence into its buffers and returns their numbers, refuses any other, raises its own stop signal where a channel's buffers hold a round
trip, counts CRC errors and replays, stops a channel, and goes out of service where a flit fails sixteen replays; R417: its
states and widths; R434: far-memory ports.
[The model's own: log 5, 41, 42, 45, 61, 62.] -/
def Obligations.StacksAndPorts : Prop :=
  ∀ s : State,
    let onStack (i : Nat) (ev : Instr) (ok : Stack → State → Prop) := ∃ (s1 : State) (st1 : Stack), exec ev s = .next s1 ∧
      s1.hbm[i]? = some st1 ∧ s1.mem = s.mem ∧ s1.tasks = s.tasks ∧ (∀ j, j ≠ i → s1.hbm[j]? = s.hbm[j]?) ∧ ok st1 s1
    let setStack (i : Nat) (st1 : Stack) : State := { s with hbm := s.hbm.set i st1 }
    (∀ i ok st, s.arg = .retrain i ok → s.hbm[i]? = some st →
      (st.mode = 2 ∨ st.mode = 3 ∨ st.mode = 4 → onStack i .hbmRetraining fun st1 s1 => st1.trains = (st.trains + 1) % 256 ∧ st1.wq = [] ∧
        (ok = true → (st.test = none → st1.mode = 2) ∧ (∀ x, st.test = some x → st1.mode = if x.phase = .march then 4 else 3) ∧
          st1.test = st.test ∧ s1.events = s.events) ∧
        (ok = false → st1.mode = 5 ∧ st1.test = none ∧ s1.events = s.events ++ [(s.nextSeq, .management 8 i)])) ∧
      (st.mode ≠ 2 → st.mode ≠ 3 → st.mode ≠ 4 → exec .hbmRetraining s = .next s)) ∧
    (∀ i st, s.arg = .num i → s.hbm[i]? = some st →
      (st.mode = 2 ∨ st.mode = 4 → exec .hbmInterfaceError s = .next (setStack i { st with mode := 3, wq := [] })) ∧
      (st.mode ≠ 2 → st.mode ≠ 4 → exec .hbmInterfaceError s = .next s)) ∧
    (∀ i pc bank bad st, s.arg = .bankTest i pc bank bad → s.hbm[i]? = some st →
      (st.mode ≠ 2 ∨ st.barred = true ∨ 64 ≤ pc ∨ 64 ≤ bank → exec .bankTest s = .next s) ∧
      (st.mode = 2 → st.barred = false → pc < 64 → bank < 64 →
        ((∀ e ∈ s.mgmt.cfg.slots.toList, e.isSome = true) → exec .bankTest s = .next (s.stamp (.management 2 i))) ∧
        ((∃ e ∈ s.mgmt.cfg.slots.toList, e = none) → exec .bankTest s = .next (setStack i { st with
          mode := 3, tpc := BitVec.ofNat 6 pc, tbank := BitVec.ofNat 6 bank, test := some ⟨pc, bank, .parking 0, s.cycle, bad⟩ })))) ∧
    (∀ i st x, s.arg = .num i → s.hbm[i]? = some st → st.test = some x →
      let b := 64 * x.pc + x.bank
      let later (p : TestPhase) : BankTest := { x with phase := p, due := s.cycle + Config.testCycles s.cycle }
      (∀ r, x.phase = .parking r → exec .bankTest s = .next (setStack i (if r + 1 < Config.bankRows
        then { st with test := some (later (.parking (r + 1))) } else { st with mode := 4, wq := [], test := some (later .march) }))) ∧
      (x.phase = .march →
        let rows := (x.bad ++ (st.candidates.filter fun c => c.1 == b).map (·.2)).eraseDups
        let spare := Config.hardSpares - (st.used.find b).getD 0
        (st.area.length + (rows.length - spare) ≤ Config.repairRows → onStack i .bankTest fun st1 s1 => st1.mode = 3 ∧ st1.wq = [] ∧
          st1.test = some (later (.returning (Config.bankRows - 1))) ∧ st1.ppr = min (st.ppr + min rows.length spare) 255 ∧
          st1.remap = min (st.remap + (rows.length - spare)) 255 ∧ st1.barred = st.barred ∧ st1.parked = st.parked ∧
          st1.hard = st.hard ++ (rows.take spare).map (fun r => (b, r)) ∧ st1.area = st.area ++ (rows.drop spare).map (fun r => (b, r)) ∧
          (∀ c ∈ st1.candidates, c.1 ≠ b) ∧ s1.events = s.events) ∧
        (Config.repairRows < st.area.length + (rows.length - spare) → exec .bankTest s = .next ((setStack i { st with
          mode := 2, wq := [], test := none, parked := (st.parked ++ [(x.pc, x.bank)]).eraseDups, barred := true }).stamp (.management 3 i)))) ∧
      (∀ r, x.phase = .returning (r + 1) → exec .bankTest s = .next (setStack i { st with test := some (later (.returning r)) })) ∧
      (x.phase = .returning 0 → exec .bankTest s =
        .next ((setStack i { st with mode := 2, wq := [], test := none }).stamp (.management 1 i)))) ∧
    (∀ (st : Stack) (b row : Nat),
      ((∃ p ∈ st.parked, 64 * p.1 + p.2 = b) → st.placeOf b row = .parking) ∧
      (∀ x, st.test = some x → 64 * x.pc + x.bank = b →
        (∀ r, x.phase = .parking r → row < r → st.placeOf b row = .parking) ∧ (x.phase = .march → st.placeOf b row = .parking) ∧
        ∀ r, x.phase = .returning r → row ≤ r → st.placeOf b row = .parking) ∧
      ((∀ p ∈ st.parked, 64 * p.1 + p.2 ≠ b) → st.test = none →
        ((b, row) ∈ st.area → ∃ n, st.placeOf b row = .area n ∧ st.area[n]? = some (b, row)) ∧
        ((b, row) ∉ st.area → st.placeOf b row = if (b, row) ∈ st.hard then .spare else .bank))) ∧
    (∀ i corrected bad st, s.arg = .scrub i corrected bad → s.hbm[i]? = some st → onStack i .patrolScrub fun st1 s1 =>
      st1.ce = min (st.ce + corrected.length) 65535 ∧ st1.ue = min (st.ue + bad.length) 255 ∧
      (∀ l, l ∈ st1.badLines ↔ l ∈ st.badLines ∨ (l ∈ bad ∧ l / 2 ^ 30 = i)) ∧
      s1.mgmt.corrected = s.mgmt.corrected + corrected.length ∧ s1.events.map (·.2) = s.events.map (·.2) ++ bad.map (.management 4 ·)) ∧
    (∀ p e x, s.arg = .link p e → s.fabric.ports[p]? = some x →
      let goes (y : Port) := exec .linkReplay s = .next { s with fabric := { s.fabric with ports := s.fabric.ports.set p y } }
      (∀ bs, e = .flit bs → bs.length = 256 →
        let good := leNat (bs.drop 248) = (crc64 0 (bs.take 248)).toNat
        let seq := leNat ((bs.drop 8).take 4)
        let f : Flit := ⟨(leNat (bs.take 1)) % 4, BitVec.ofNat 20 (leNat ((bs.drop 2).take 3)), BitVec.ofNat 20 (leNat ((bs.drop 5).take 3)),
          (bs.drop 12).take 236⟩
        let stopNow := Config.linkRoom ≤ ((x.rx ++ [f]).filter fun g => g.vc == f.vc).length ∧ f.vc ∉ x.ownStops
        let taken : Port := { x with nextSeq := x.nextSeq + 1, rx := x.rx ++ [f], returned := x.returned ++ [.taken x.nextSeq] }
        (good → seq = x.nextSeq.toNat →
          (¬ stopNow → goes taken) ∧
          (stopNow → goes { taken with ownStops := f.vc :: x.ownStops, returned := taken.returned ++ [.stop f.vc true] })) ∧
        (good → seq ≠ x.nextSeq.toNat → goes { x with returned := x.returned ++ [.refused x.nextSeq] }) ∧
        (¬ good → goes { x with crcerr := min (x.crcerr + 1) 65535, returned := x.returned ++ [.refused x.nextSeq] })) ∧
      (∀ k : Nat, k < x.unacked.length → x.unacked.length < 2 ^ 32 →
        (e = .taken (x.firstSeq + BitVec.ofNat 32 k) → goes { x with unacked := x.unacked.drop (k + 1), tries := 0 }) ∧
        (e = .refused (x.firstSeq + BitVec.ofNat 32 k) →
          let failed := if k = 0 then x.tries else 0
          (failed < 16 → goes { x with unacked := x.unacked.drop k, tries := failed + 1
                                       replay := min (x.replay + (x.unacked.length - k)) 65535 }) ∧
          (16 ≤ failed → goes { x with unacked := x.unacked.drop k, tries := 0, state := 3, width := 0 }))) ∧
      (∀ vc, e = .stop vc true → x.state = 2 → (∀ f ∈ x.waiting, f.vc = vc) → goes { x with stops := vc :: x.stops.erase vc }) ∧
      (∀ vc, e = .stop vc false → x.stops.Nodup → ∃ y : Port, goes y ∧ y.stops = x.stops.erase vc ∧ (y.unacked ++ y.waiting).Perm (x.unacked ++ x.waiting) ∧
        (x.state = 2 → ∀ f ∈ y.waiting, f.vc ≠ vc))) ∧
    (∀ p st w x, s.arg = .portState p st w → s.fabric.ports[p]? = some x →
      (st = 2 → w ≠ 1 → w ≠ 2 → exec .fjostanPortStateChange s = .next s) ∧
      (st ≠ 2 ∨ w = 1 ∨ w = 2 → ∃ y : Port, exec .fjostanPortStateChange s =
        .next { s with fabric := { s.fabric with ports := s.fabric.ports.set p y } } ∧ y.state = st ∧ y.width = (if st = 2 then w else 0) ∧
        y.nextSeq = x.nextSeq ∧ y.replay = x.replay ∧ y.crcerr = x.crcerr ∧ y.timeout = x.timeout ∧ y.stops = x.stops ∧
        (st ≠ 2 → y.waiting = x.waiting ∧ y.unacked = x.unacked) ∧
        (st = 2 → y.waiting = x.waiting.filter (fun f => x.stops.contains f.vc) ∧
          y.unacked = x.unacked ++ x.waiting.filter (fun f => !x.stops.contains f.vc)))) ∧
    ∀ p up, s.arg = .farPort p up →
      (p = 0 → exec .farMemoryPortStateChange s = .next { s with fabric := { s.fabric with chest0 := up } }) ∧
      (p = 1 → exec .farMemoryPortStateChange s = .next { s with fabric := { s.fabric with chest1 := up } }) ∧
      (2 ≤ p → exec .farMemoryPortStateChange s = .next s)

/-! ## Words, steps and invariants -/

/-- R119, R122, R123, R124, R125: the frame of the C words that only write a register: every other register, the other streams, the scratchpad and
every byte of memory stay.
[The model's own: log 5.] -/
def Obligations.RegisterWordsKeepTheRest : Prop :=
  ∀ (s t : State) (tk : Task) (mem : Member) (i : Instr) (rd : BitVec 5), Current s tk mem →
    (∃ v, scalarResult mem i = some (rd, v)) ∨ (∃ v, divisionResult mem i = some (rd, v)) ∨ (∃ h, compareOf mem i = some (rd, false, h)) →
    exec i s = .next t →
    (∀ a, t.mem.get a = s.mem.get a) ∧ t = { s with tasks := t.tasks } ∧ (∀ j, j ≠ s.cur.task → t.tasks[j]? = s.tasks[j]?) ∧
    ∃ (tk1 : Task) (b : Member), t.tasks[s.cur.task]? = some tk1 ∧ tk1 = { tk with members := tk1.members } ∧
      (∀ j, j ≠ s.cur.member → tk1.members[j]? = tk.members[j]?) ∧ tk1.members[s.cur.member]? = some b ∧
      b = { mem with g := b.g, streams := b.streams } ∧ (∀ r, r ≠ rd → b.rd r = mem.rd r) ∧ ∀ x, x ≠ .c → b.str x = mem.str x

/-- R87, R88, R89, R19: when it is a stream's turn and the bytes at its program counter decode to an instruction, the step is exec of that
instruction, with the word's address and bits noted and the pages it was fetched from in the TLB; a word whose idle count has not run out waits; bytes that are no instruction, or that
cannot be fetched, fault. A turn with an event runs the event, and an empty agenda starts a new cycle.
[The model's own: log 3, 6; that the idle count of a timed word that cannot be fetched counts as 0, and the idle count of a frame of 10 units, log 70.] -/
def Obligations.StepRunsTheDecodedInstruction : Prop :=
  (∀ s : State, s.agenda = [] → step s = .next { s with agenda := (List.range 15).map Turn.stage }) ∧
  (∀ (s : State) (a : Actor) (g : Arg) (i : Instr) (rest : List Turn), s.agenda = .event a g i :: rest →
    step s = exec i { s with agenda := rest, cur := a, arg := g }) ∧
  ∀ (s : State) (t m : Nat) (x : Stream) (rest : List Turn) (tk : Task) (mem : Member), s.agenda = .issue t m x :: rest →
    s.tasks[t]? = some tk → tk.members[m]? = some mem → tk.state = .running → mayIssueNow s.cycle tk mem x = true → (mem.str x).base ≤ s.cycle →
    let pc := (mem.str x).pc
    let seen (s1 : State) (tlb : List TlbEntry) (w : BitVec 192) : State :=
      { s1.putMember t m { mem with tlbC := tlb } with agenda := rest, cur := ⟨t, m, x, .issue, 0, pc, w⟩ }
    (∀ (n : Nat) (bytes : List Byte), Fetched s tk mem pc n bytes →
      let w := BitVec.ofNat 192 (leNat bytes)
      let u0 := w.extractLsb' 0 96
      n = (if x = .c then 1 else 3 * unitsOf u0) →
      let decoded := if x = .c then decodeC (w.extractLsb' 0 32) else decodeTimed x u0 (w.extractLsb' 96 96)
      let due := x = .c ∨ (mem.str x).base + idleOf x u0 ≤ s.cycle
      (¬ due → step s = .next { s with agenda := rest }) ∧
      (due → ∀ i, decoded = .ok i → ∃ s1 tlb, readsOnly s s1 ∧ step s = exec i (seen s1 tlb w)) ∧
      (due → ∀ e, decoded = .error e → ∃ (s1 : State) (tlb : List TlbEntry) (f : FaultInfo), readsOnly s s1 ∧
        f.cause = 0x01 ∧ f.pc = pc ∧ f.word = w ∧ step s = .next ((seen s1 tlb w).raiseFor t f))) ∧
    (unmapped s tk mem pc.toNat → ∃ (s1 : State) (tlb : List TlbEntry) (f : FaultInfo), readsOnly s s1 ∧
      f.cause = s.missCause tk.ptroot pc.toNat ∧ f.pc = pc ∧ f.addr = pc ∧ step s = .next ((seen s1 tlb 0).raiseFor t f))

/-- R91 to R110: words of each stream, most of them written out by the spec's worked programs (files 21 to 25), decode to the instructions they stand
for, and a trigger to its operation; a NOP word whose unused fields are not 0 is illegal (R89, R90). -/
def Obligations.DecodingIsRight : Prop :=
  decodeC 0x000418C1#32 = .ok (.add 3#5 3#5 4#5) ∧
  decodeC 0x02813036#32 = .ok (.sobind 1#6 2#2 6#5) ∧
  decodeC 0x03016836#32 = .ok (.boarm 1#6 13#5) ∧
  decodeC 0x0020483E#32 = .ok (.fltinj 9#5 0#5) ∧
  decodeTimed .l 0x000000000000002000098109#96 0#96 = .ok (.loopk 2#6 0#1 19#16 64#32) ∧
  decodeTimed .k 0x0000000000000000000042A1#96 0#96 = .ok (.jmpk 40#6 1#24) ∧
  decodeTimed .l 0x0000003004C0030018002800#96 0#96 = .ok (.rxlook ⟨0#6, 0#6, 0#4, 6#6, 0#6⟩ ⟨0x00C#15, 0x026#15⟩ 1#1 1#2 0#1) ∧
  decodeTimed .s 0x000000000560040024002900#96 0#96 = .ok (.seal ⟨0#6, 0#6, 0#4, 9#6, 0#6⟩ ⟨0x010#15, 0x02B#15⟩ 0#2) ∧
  decodeTimed .l 0x000000000400000008814000#96 0#96 = .ok (.tkfeed ⟨0#6, 1#6, 2#4, 2#6, 0#6⟩ ⟨0x000#15, 0x020#15⟩) ∧
  decodeTimed .s 0x05000C3FE000004000811000#96 0#96 =
    .ok (.accAddF32 ⟨0#6, 1#6, 2#4, 0#6, 0#6⟩ ⟨1#6, 0#17, 255#8, 2#2, 1#2, 0x02800#17⟩) ∧
  decodeTimed .k 0x000000006A15000560650E20#96 0#96 =
    .ok (.bundle 8#4 ⟨0x38#7, 0#3, 0x065#10, 0x158#10⟩ ⟨0#7, 0#3, 0x054#10, 0x06A#10⟩ ⟨0#7, 0#3, 0#10, 0#10⟩) ∧
  decodeOp 2#3 0x00#7 0#4 = some (.vfadd ⟨2#3, 0#3, 0#4⟩) ∧
  decodeC 0xFFFFFFFF#32 = .error .reservedField

/-- R90 to R96, R100, R109, R110, R214, R238, R254: in every stream in which a well-formed instruction may issue, its words decode to it; and a C word that decodes to an instruction is the word of
that instruction, a trigger that decodes to an operation the trigger of that operation. -/
def Obligations.DecodeReturnsWhatEncodeWrites : Prop :=
  (∀ (i : Instr) (w : Words) (x : Stream), i.wf = true → encode i = some w → x ∈ i.streams → decodeWords x w = .ok i) ∧
  (∀ (w : BitVec 32) (i : Instr), decodeC w = .ok i → encode i = some (.c w)) ∧
  ∀ (st : BitVec 3) (op : BitVec 7) (x : BitVec 4) (i : Instr), decodeOp st op x = some i → encodeOp i = some (st, op, x)

/-- R4, R293, R311: every step that answers a next state keeps memory in its canonical form and the events numbered from 0 in their order.
[The model's own: log 2.] -/
def Obligations.EveryStepKeepsMemoryAndEvents : Prop := ∀ s s1 : State, WellKept s → step s = .next s1 → WellKept s1

/-- R394, R398, R400, R416, R432, R437, R441: the state after reset: every queue control block, port and stack at its reset value, nothing booted, powered to state 0; it has the form
that every step keeps.
[The model's own: log 1, 2.] -/
def Obligations.ResetLeaves : Prop :=
  WellKept State.reset ∧ (∀ a, State.reset.mem.get a = Memory.default) ∧
  (∀ q, (State.reset.queueAt q).cfg = 0x88000 ∧ (State.reset.queueAt q).entries = [] ∧ State.reset.qstat q = 0) ∧
  State.reset.mgmt.boot = .off ∧ State.reset.tasks = [] ∧ State.reset.time.inSync = false ∧
  State.reset.fabric.ports.length = 16 ∧ (∀ x ∈ State.reset.fabric.ports, x = ⟨0, 0, 0, 0, 0, 0, [], [], [], [], [], [], 0, [], 0⟩) ∧
  State.reset.hbm.length = 12 ∧ (∀ x ∈ State.reset.hbm, x.mode = 1 ∧ x.ce = 0 ∧ x.ue = 0 ∧ x.ppr = 0 ∧ x.remap = 0) ∧
  State.reset.power.spans = List.replicate 32 0 ∧ (∀ i : Fin 16, State.reset.mgmt.meas[i] = 0)

/-! ## Engine commands -/

/-- R217, R218, R219, R94, R226, R240, R243, R260, R20: an engine command of L or S issues in order: limits, its semaphore, a queue entry, its
checks. Where all hold it takes its count from the semaphore and is queued, complete at once (WCLOSE, and a WADV that fetches nothing), or
deferred to the commit, where a step that follows it stays to be run, or both queued and deferred (GLOAD in a replicated task, R291); a limit or check that fails faults; a missing count or entry is check code
5 or 6 in strict mode and a counted wait in tolerant mode, a full deferred-write queue check code 10. BCLOSE takes its count and closes the open
batch of its stream (R223).
[The model's own: log 11, 13, 69, 77.] -/
def Obligations.EngineCommandsIssue : Prop :=
  (∀ (s : State) (tk : Task) (mem : Member) (i : Instr) (f : CmdForm), Current s tk mem → s.cur.phase = .issue →
    cmdForm s.cur.stream i = some f → (mem.str s.cur.stream).waiting = false →
    let h := f.hdr
    let legal := hdrLegal tk h = true ∧ ¬ (s.cur.stream = .s ∧ mem.lastAcc = true) ∧ f.legal tk mem = true
    let counted := h.wcnt = 0#4 ∨ mem.semReady h.wsem.toNat h.wcnt.toNat = true
    let entry := (mem.queued s.cur.stream).length < 16 ∧ f.room mem = true
    let refusal (aux : Nat) := (tk.tolerant = false → exec i s = .next (faulted s mem cSchedule 0 aux)) ∧
      (tk.tolerant = true → exec i s = .next (heldACycle s mem))
    (¬ legal → exec i s = .next (faulted s mem cIllegal 0 0)) ∧
    (legal → ¬ counted → refusal 5) ∧ (legal → counted → ¬ entry → refusal 6) ∧
    (∀ t, legal → counted → entry → f.checks s tk mem = some t → exec i s = .next (faulted s mem t.cause t.addr t.aux)) ∧
    let defers := f.fate tk = .deferred ∨ f.fate tk = .deferredStep ∨ f.fate tk = .twice
    (legal → counted → entry → f.checks s tk mem = none → defers → 64 ≤ mem.dwq.length → exec i s = .next (faulted s mem cSchedule 0 10)) ∧
    (legal → counted → entry → f.checks s tk mem = none → (defers → mem.dwq.length < 64) →
      ∃ (s1 : State) (b : Member), exec i s = .next (afterTimed s1 b) ∧ b.g = mem.g ∧ b.v = mem.v ∧ b.spad = mem.spad ∧ b.d = mem.d ∧
        b.tq = mem.tq ∧ b.sem = mem.sem ∧ b.nextCmd = mem.nextCmd + 1 ∧
        b.pend.semTaken = mem.pend.semTaken ++ (if h.wcnt = 0#4 then [] else [(h.wsem.toNat, h.wcnt.toNat)]) ∧
        (f.fate tk ≠ .done ∨ h.so = 0#6 → s1 = s ∧ b.counts = mem.counts) ∧
        (f.fate tk = .queued → b.dwq = mem.dwq ∧ ∃ c, b.cmds = mem.cmds ++ [c] ∧ issuedAs s i .queued c) ∧
        (f.fate tk = .done → b.dwq = mem.dwq ∧ b.cmds = mem.cmds ∧ (h.so ≠ 0#6 →
          (tk.replicated = true → s1 = s ∧ ∃ c, b.counts = mem.counts ++ [c] ∧ c.so = h.so.toNat ∧ c.bytes = 0) ∧
          (tk.replicated = false → s.slog = [] → ∀ l, mapped s tk mem (tk.handle h.so).addr l → l.w = true →
            s.objectOk (l.pa (tk.handle h.so).addr) = true → b.counts = mem.counts ∧ ∃ s2, readsOnly s s2 ∧ s1 = s2.barrierAdd (l.pa (tk.handle h.so).addr) 0))) ∧
        (f.fate tk = .deferred → b.cmds = mem.cmds ∧ ∃ c, b.dwq = mem.dwq ++ [.cmd c] ∧ issuedAs s i .deferred c) ∧
        (f.fate tk = .deferredStep → ∃ c d, b.dwq = mem.dwq ++ [.cmd c] ∧ issuedAs s i .deferred c ∧ c.ssem = 0 ∧
          b.cmds = mem.cmds ++ [d] ∧ issuedAs s i (.moved 0) d ∧ d.ssem = h.ssem.toNat) ∧
        (f.fate tk = .twice → ∃ c d, b.dwq = mem.dwq ++ [.cmd c] ∧ issuedAs s i .deferred c ∧ c.ssem = 0 ∧ c.so = 0 ∧
          b.cmds = mem.cmds ++ [d] ∧ issuedAs s i .queued d))) ∧
  ∀ (s : State) (tk : Task) (mem : Member) (idle : BitVec 6) (wcnt : BitVec 4), Current s tk mem →
    let counted := wcnt = 0#4 ∨ mem.semReady 0 wcnt.toNat = true
    (s.cur.stream = .s ∧ mem.lastAcc = true → exec (.bclose ⟨idle, wcnt⟩) s = .next (faulted s mem cIllegal 0 0)) ∧
    (¬ (s.cur.stream = .s ∧ mem.lastAcc = true) → ¬ counted →
      (tk.tolerant = false → exec (.bclose ⟨idle, wcnt⟩) s = .next (faulted s mem cSchedule 0 5)) ∧
      (tk.tolerant = true → exec (.bclose ⟨idle, wcnt⟩) s = .next (heldACycle s mem))) ∧
    (¬ (s.cur.stream = .s ∧ mem.lastAcc = true) → counted →
      ∃ b : Member, exec (.bclose ⟨idle, wcnt⟩) s = .next (afterTimed s b) ∧
        b = { mem with
          batchL := mem.batchL + (if s.cur.stream = .l then 1 else 0), batchS := mem.batchS + (if s.cur.stream = .l then 0 else 1)
          pend := { mem.pend with semTaken := mem.pend.semTaken ++ (if wcnt = 0#4 then [] else [(0, wcnt.toNat)]) } })

/-- R220, R221, R224, R228, R230, R231, R233, R234, R229, R214: the last piece of a command's work. COPY in L, WSET, WADV and both GATH forms bring their element or row from
memory into the scratchpad, and at the end of the cycle a window's written rows become present in row order; a page without a translation holds
the command at its mark; a bad index makes the row invalid; COPY, FILL and SCAT in S write the bytes to memory, E3M2 and E2M3 elements with bits
[7:6] zero (R43), and nothing else; FILL in L writes its constant; PEER_COPY copies the peer's row; PREF
changes no architectural data. Then the command has moved its last byte.
[The model's own: log 5, 6, 13, 14, 78.] -/
def Obligations.CommandsWorkPieceByPiece : Prop :=
  ∀ (s : State) (tk : Task) (mem : Member) (c : Cmd) (h : Hdr) (d : BitVec 6), Working s tk mem c → mem.frozen = [] →
    (∀ spa i0 cntm1 fo l, c.stream = .l → c.mark + 1 = atoms c.desc (cntm1.toNat + 1) →
      let n := atomBytes c.desc
      let va := atomVA c.desc i0.toNat c.mark
      (Readable s tk mem .l va n l → ∃ (s1 : State) (b : Member), readsOnly s s1 ∧
        exec (.copy h d spa i0 cntm1 fo) s = .next (finished s1 b c) ∧
        b = { mem with spad := b.spad, wrote := b.wrote, tlbL := b.tlbL } ∧ spadHolds mem b (spa.toNat + c.mark * n) (s.load (l.pa va) n)) ∧
      (va % 4096 + n ≤ 4096 → s.walk tk.ptroot va = none → tlbFind mem.tlbL tk.ctx va = none →
        ∃ (s1 : State) (b : Member), readsOnly s s1 ∧
          exec (.copy h d spa i0 cntm1 fo) s = .next (heldAtMark s1 b c (s.missCause tk.ptroot va) va) ∧ b = { mem with tlbL := b.tlbL })) ∧
    (∀ (w : Window) (k : Nat), k < (w.next + 2 ^ 32 - w.head) % 2 ^ 32 → writtenUpTo w k → (w.endCycle.slot (w.head + k)).2 = Fill.present) ∧
    (∀ (i : Instr) (r : Ring) (l : Leaf) (w : BitVec 4), c.ring = some r → 0 < dRow c.desc → dRow c.desc % 4 = 0 →
      (c.stream = .l ∨ c.stream = .s) →
      let n := dRow c.desc
      let a := r.slotAddr c.mark
      let row (t : Nat) := t < dSize c.desc 1 → Readable s tk mem c.stream (rowVA c.desc t) n l → a % 4 = 0 →
        ∃ (s1 : State) (b : Member), readsOnly s s1 ∧ exec i s = .next (finished s1 b c) ∧
          b = { mem with spad := b.spad, wrote := b.wrote, tlbL := b.tlbL, tlbS := b.tlbS, win := b.win } ∧
          spadHolds mem b a (s.load (l.pa (rowVA c.desc t)) n) ∧
          (r.w < 16 → rowArrives (mem.window r.w) (b.window r.w) r.gen (r.tag + c.mark))
      (∀ f, i = .wset h w d f → c.mark + 1 = f.fetch.toNat → row ((r.tag + c.mark) % 2 ^ 32)) ∧
      (∀ ret fetch, i = .wadv h w ret fetch → c.mark + 1 = fetch.toNat → row ((r.tag + c.mark) % 2 ^ 32)) ∧
      (∀ idx nm1 t, i = .gathTowin h w d idx nm1 → c.mark = nm1.toNat → indexAt mem idx.toNat c.mark = some t → row t)) ∧
    (∀ dst idx nm1, c.mark = nm1.toNat → 0 < dRow c.desc → dRow c.desc % 4 = 0 → dst.toNat % 4 = 0 →
      (c.stream = .l ∨ c.stream = .s) →
      let n := dRow c.desc
      let a := dst.toNat + c.mark * n
      (∀ t l, indexAt mem idx.toNat c.mark = some t → t < dSize c.desc 1 → Readable s tk mem c.stream (rowVA c.desc t) n l →
        ∃ (s1 : State) (b : Member), readsOnly s s1 ∧ exec (.gath h d dst idx nm1) s = .next (finished s1 b c) ∧
          b = { mem with spad := b.spad, wrote := b.wrote, tlbL := b.tlbL, tlbS := b.tlbS } ∧ spadHolds mem b a (s.load (l.pa (rowVA c.desc t)) n)) ∧
      ((∀ t, indexAt mem idx.toNat c.mark = some t → dSize c.desc 1 ≤ t) →
        ∃ b : Member, exec (.gath h d dst idx nm1) s = .next (finished s b c) ∧ b = { mem with spad := b.spad, wrote := b.wrote } ∧
          (keysRise mem.spad → ∀ ci, b.cont ci = if a / 4 ≤ ci ∧ ci < a / 4 + n / 4 then Container.none else mem.cont ci))) ∧
    (∀ (i : Instr) (s2 : State) (va : Nat) (l : Leaf) (bytes : List Byte), c.stream = .s → 0 < bytes.length →
      Writable s s2 tk mem .s va bytes.length l →
      let stored := bytes.map fun b => if dFmt c.desc = 5 ∨ dFmt c.desc = 6 then b &&& 0x3F#8 else b
      ((∃ spa i0 cntm1 fo, i = .copy h d spa i0 cntm1 fo ∧ c.mark + 1 = atoms c.desc (cntm1.toNat + 1) ∧
          va = atomVA c.desc i0.toNat c.mark ∧ spadBytes mem (spa.toNat + c.mark * atomBytes c.desc) (atomBytes c.desc) bytes) ∨
        (∃ val vm i0 cntm1, i = .fill h (.mem d val vm i0 cntm1) ∧ c.mark + 1 = atoms c.desc (cntm1.toNat + 1) ∧
          va = atomVA c.desc i0.toNat c.mark ∧ dBits c.desc ≠ 4 ∧
          bytes = leBytes (dBits c.desc / 8) (fillValue val vm).toNat) ∨
        (∃ src idx nm1 t, i = .scat h d src idx nm1 ∧ c.mark = nm1.toNat ∧ indexAt mem idx.toNat c.mark = some t ∧
          t < dSize c.desc 1 ∧ (mem.cont (idx.toNat / 4 + c.mark)).poison = false ∧ va = rowVA c.desc t ∧
          spadBytes mem (src.toNat + c.mark * dRow c.desc) (dRow c.desc) bytes)) →
      ∃ (t : State) (b : Member), exec i s = .next (finished t b c) ∧ b = { mem with tlbS := b.tlbS } ∧
        t = { s with own := s2.own, mem := t.mem, past := t.past, unmapped := t.unmapped, hbm := t.hbm, mgmt := t.mgmt, xlat := t.xlat,
                     free := t.free } ∧
        (s.mem.wf = true → wroteAt s.mem t.mem (l.pa va) stored)) ∧
    (∀ wa nwm1 val vm inv, c.mark = nwm1.toNat → ∃ b : Member, exec (.fill h (.spad wa nwm1 val vm inv)) s = .next (finished s b c) ∧
      b = { mem with spad := b.spad, wrote := b.wrote } ∧ (keysRise mem.spad → ∀ ci, b.cont ci = if ci = wa.toNat + c.mark then
        (if inv = 1#1 then Container.none else ⟨fillValue val vm, true, false⟩) else mem.cont ci)) ∧
    (∀ spa prank rowsm1 fo p, c.mark = rowsm1.toNat → tk.members[tk.index mem.replica prank.toNat]? = some p → spa.toNat % 4 = 0 →
      ∃ b : Member, exec (.peerCopy h spa prank rowsm1 fo) s = .next (finished s b c) ∧ b = { mem with spad := b.spad, wrote := b.wrote } ∧
        (keysRise mem.spad → ∀ ci, b.cont ci = if spa.toNat / 4 + 128 * c.mark ≤ ci ∧ ci < spa.toNat / 4 + 128 * c.mark + 128
          then p.cont ci else mem.cont ci)) ∧
    ∀ tier i0 cntm1 l, c.mark + 1 = atoms c.desc (cntm1.toNat + 1) → c.stream = .l →
      mappedFor s tk mem .l (atomVA c.desc i0.toNat c.mark) l →
      ∃ (s1 : State) (b : Member), readsOnly s s1 ∧ exec (.pref h d tier i0 cntm1) s = .next (finished s1 b c) ∧
        b = { mem with l1 := b.l1, tlbL := b.tlbL, saw := b.saw }

/-! ## The prefix store -/

/-- R261, R250, R378, R256, R366: SLOPEN and SLFORK open the lowest free slot, its tail in the drawer of the die that opens it (FULL or QUOTA where there is none or the charge does not fit), SLMOVE and its SWAP
form move or exchange leaf, tail and grammar state, SLCLOSE closes a slot and returns its charge, SLINFO gives the slot's record; a slot
that is not open for the context gives INVALID and changes nothing. No other slot changes. An uncorrectable error of a line of the tail holds SLFORK
at mark 0 (R332).
[The model's own: log 5, 55, 60.] -/
def Obligations.SlotCommands : Prop :=
  ∀ (s : State) (tk : Task) (mem : Member) (c : Cmd) (h : Hdr) (p : PrmRes), Performing s tk mem c →
    let opened (i : Instr) (x : SeqSlot) (s0 : State) :=
      (s.freeSlot = none → answers i s s0 mem c p [5, noneWord, 0, 0]) ∧
      (∀ k, s.freeSlot = some k →
        (s.quota tk.ctx 1 < s.usageOf tk.ctx 1 + x.geom.tail → answers i s s0 mem c p [3, noneWord, 0, 0]) ∧
        (s.usageOf tk.ctx 1 + x.geom.tail ≤ s.quota tk.ctx 1 → s.bytesIn 1 + x.geom.tail ≤ Config.storeBytes 1 →
          ∃ (s1 : State) (g : Nat), answers i s s1 mem c p [0, BitVec.ofNat 32 k, 0, 0] ∧ storeOnly s0 s1 ∧
            s1.store.slots.find k = some { x with homeDie := mem.core / 64, gen := g } ∧ slotsKept s s1 [k] ∧ s1.usageOf tk.ctx 1 = s.usageOf tk.ctx 1 + x.geom.tail))
    let refused (i : Instr) (v : W32) := answers i s s mem c p [10, v, 0, 0]
    (let ctag : W64 := BitVec.ofNat 64 (c.w 0 + c.w 1 * 2 ^ 32)
     let mtag : W64 := BitVec.ofNat 64 (c.w 2 + c.w 3 * 2 ^ 32)
     (s.permitted tk.ctx (rootName ctag mtag) = false → refused (.slopen h p) noneWord) ∧
     (s.permitted tk.ctx (rootName ctag mtag) = true → c.out.getD 5 0 = noneWord →
       opened (.slopen h p) (SeqSlot.fresh tk.ctx ctag mtag (geomOfWord (c.w 4)) none 0) s)) ∧
    (∀ x, s.slotOf tk.ctx (c.w 0) = some x →
      (∀ s0, linesRead s (s.wholeTail tk c) s0 → s0 = { s with hbm := s0.hbm, mgmt := s0.mgmt } ∧ opened (.slfork h p) x s0) ∧
      (∀ pa s0, s.readLines 1 false (s.wholeTail tk c) = (some pa, s0) → exec (.slfork h p) s = .next (heldAtMark s0 mem c cMemory pa)) ∧
      (∃ s1, answers (.slclose h p) s s1 mem c p [0, 0, 0, 0] ∧ storeOnly s s1 ∧ s1.slotOf tk.ctx (c.w 0) = none ∧
        slotsKept s s1 [c.w 0] ∧ s1.usageOf tk.ctx 1 = s.usageOf tk.ctx 1 - x.geom.tail ∧
        ∀ k n, x.leaf = some k → s.store.nodes.find k = some n → s1.store.nodes.find k = some { n with refc := n.refc - 1 }) ∧
      (∃ out, answers (.slinfo h p) s s mem c p out ∧ out.length = 16 ∧ out.getD 0 0 = nodeWord x.leaf ∧
        out.getD 1 0 = BitVec.ofNat 32 x.tok)) ∧
    (s.slotOf tk.ctx (c.w 0) = none → refused (.slfork h p) noneWord ∧ refused (.slclose h p) 0 ∧ refused (.slmove h p) 0 ∧
      refused (.slmoveSwap h p) 0 ∧ answers (.slinfo h p) s s mem c p (List.replicate 16 0)) ∧
    ∀ x y, s.slotOf tk.ctx (c.w 0) = some x → s.slotOf tk.ctx (c.w 1) = some y → c.w 0 ≠ c.w 1 → x.like y = true →
      (∃ s1, answers (.slmove h p) s s1 mem c p [0, 0, 0, 0] ∧ storeOnly s s1 ∧ slotsKept s s1 [c.w 0, c.w 1] ∧
        s1.store.slots.find (c.w 0) = some { x with leaf := y.leaf, tok := y.tok, tailn := y.tailn, gstate := y.gstate,
                                                    tail := y.tail, stack := y.stack, gen := x.gen + 1 } ∧
        ∃ z, s1.store.slots.find (c.w 1) = some z ∧ z.leaf = none ∧ z.tok = 0 ∧ z.tailn = 0 ∧ z.gstate = 0 ∧ z.stack = [] ∧
          z.opened = y.opened ∧ z.ctag = y.ctag) ∧
      (∃ s1, answers (.slmoveSwap h p) s s1 mem c p [0, 0, 0, 0] ∧ storeOnly s s1 ∧ slotsKept s s1 [c.w 0, c.w 1] ∧
        s1.store.nodes = s.store.nodes ∧
        s1.store.slots.find (c.w 0) = some { x with leaf := y.leaf, tok := y.tok, tailn := y.tailn, gstate := y.gstate,
                                                    tail := y.tail, stack := y.stack, gen := x.gen + 1 } ∧
        s1.store.slots.find (c.w 1) = some { y with leaf := x.leaf, tok := x.tok, tailn := x.tailn, gstate := x.gstate,
                                                    tail := x.tail, stack := x.stack, gen := y.gen + 1 })

/-- R266, R251, R252, R253, R377, R378: LEASE in the drawer grants a lease with an identifier no lease has (its value is free), counts it in LDR and charges the block; it
gives QUOTA where the charge does not fit. RENEW sets EXP, FREE ends the lease and returns the charge, EVCLASS sets the class, PROMO
brings the planes into the drawer, NODEINFO gives the record; an unknown node gives INVALID and an unknown lease NOLEASE.
[The model's own: log 5, 17, 55, 60.] -/
def Obligations.LeaseAndNodeCommands : Prop :=
  ∀ (s : State) (tk : Task) (mem : Member) (c : Cmd) (h : Hdr) (p : PrmRes), Performing s tk mem c →
    (s.nodeOf tk.ctx (c.w 0) = none →
      answers (.lease h p) s s mem c p [10, noneWord, 0, 0] ∧ answers (.evclass h p) s s mem c p [10, 0, 0, 0] ∧
      answers (.promo h p) s s mem c p [10, 0, 0, 0] ∧ answers (.nodeinfo h p) s s mem c p (List.replicate 64 0)) ∧
    (s.leaseOf tk.ctx (c.out.getD 0 0) = none →
      answers (.renew h p) s s mem c p [9, 0, 0, 0] ∧ answers (.free h p) s s mem c p [9, 0, 0, 0]) ∧
    (∀ n, s.nodeOf tk.ctx (c.w 0) = some n →
      (∀ id s', c.w 1 / 65536 = 1 → n.ldr < 65535 → s.leaseId n.name = (some id, s') →
        let e := min (s.nowTick + c.w 1 % 65536) 65535
        (s.quota tk.ctx 1 < s.usageOf tk.ctx 1 + n.geom.block → answers (.lease h p) s s mem c p [3, noneWord, 0, 0]) ∧
        (s.usageOf tk.ctx 1 + n.geom.block ≤ s.quota tk.ctx 1 →
          ∃ s1, answers (.lease h p) s s1 mem c p [0, BitVec.ofNat 32 id, BitVec.ofNat 32 (e - s.nowTick), 0] ∧ storeOnly s s1 ∧
            s1.store.leases = s.store.leases ++ [⟨id, c.w 0, 1, some tk.ctx, 0, e⟩] ∧
            (∀ l ∈ s.store.leases, l.id ≠ id) ∧ id % 4 = (n.name.extractLsb' 0 2).toNat ∧
            s1.usageOf tk.ctx 1 = s.usageOf tk.ctx 1 + n.geom.block ∧
            s1.store.nodes.find (c.w 0) = some { n with ldr := n.ldr + 1, lage := s.nowTick })) ∧
      (∃ s1, answers (.evclass h p) s s1 mem c p [0, 0, 0, 0] ∧ storeOnly s s1 ∧
        s1.store.nodes.find (c.w 0) = some { n with evc := BitVec.ofNat 2 (c.w 1) } ∧
        ∀ j, j ≠ c.w 0 → s1.store.nodes.find j = s.store.nodes.find j) ∧
      (c.w 1 = 1 → n.inTier 1 = true → answers (.promo h p) s s mem c p [0, 0, 0, 0]) ∧
      (c.w 1 = 1 → n.inTier 1 = false → s.bytesIn 1 + n.geom.block ≤ Config.storeBytes 1 →
        ∃ s1, answers (.promo h p) s s1 mem c p [0, 0, 0, 0] ∧ storeOnly s s1 ∧
          s1.store.nodes.find (c.w 0) = some { n with res := n.res ||| 2#3 }) ∧
      (let need := s.nodeLines (c.w 0) n
       c.w 1 = 0 → s.mgmt.cfg.pcs.val ≠ 0 →
        ((∀ l ∈ need, l ∈ s.store.shelf) → answers (.promo h p) s s mem c p [0, 0, 0, 0]) ∧
        ((∃ l ∈ need, l ∉ s.store.shelf) →
          (∀ l ∈ need, (l.sameSet s.store.shelf).length + (l.sameSet need).length ≤ Config.shelfWays) →
          ∃ s1, answers (.promo h p) s s1 mem c p [0, 0, 0, 0] ∧ storeOnly s s1 ∧ (∀ l ∈ need, l ∈ s1.store.shelf) ∧
            s1.store.nodes.find (c.w 0) = some { n with res := n.res ||| 1#3 })) ∧
      (c.w 1 = 0 → s.mgmt.cfg.pcs.val = 0 → answers (.promo h p) s s mem c p [2, 0, 0, 0]) ∧
      (∃ out, answers (.nodeinfo h p) s s mem c p out ∧ out.length = 64 ∧ (n.depth < 2 ^ 13 → ∀ k < 4, out.getD k 0 = n.name.extractLsb' (32 * k) 32))) ∧
    ∀ l, s.leaseOf tk.ctx (c.out.getD 0 0) = some l →
      (let e := min (s.nowTick + c.w 1) 65535
       ∃ s1, answers (.renew h p) s s1 mem c p [0, 0, BitVec.ofNat 32 (e - s.nowTick), 0] ∧ storeOnly s s1 ∧
        s1.store.leases = s.store.leases.map (fun x : Lease => if x.id = l.id then { x with exp := e } else x) ∧
        ∀ n, s.store.nodes.find l.node = some n → s1.store.nodes.find l.node = some { n with lage := s.nowTick }) ∧
      ∃ s1, answers (.free h p) s s1 mem c p [0, 0, 0, 0] ∧ storeOnly s s1 ∧
        s1.store.leases = s.store.leases.filter (fun x => x.id != l.id) ∧
        ∀ n, s.store.nodes.find l.node = some n → ∃ n', s1.store.nodes.find l.node = some n' ∧ n'.name = n.name ∧
          n'.leases l.tier = n.leases l.tier - 1 ∧
          (l.tier < 3 → s1.usageOf tk.ctx l.tier = s.usageOf tk.ctx l.tier - n.geom.block)

/-- R262, R263, R264, R265, R270, R332, R352: RXLOOK finds the longest chain of sealed blocks that names the list's tokens; KAPP, SEAL and CPACT
whose lines are read without an uncorrectable error act: KAPP appends rows to
a tail in order, SEAL makes a full tail a node or finds the node of its name, CPACT builds a tail of the chosen positions, REPL asks its source for a
lease or gives MISS.
[The model's own: log 5, 15, 18, 19, 20, 23, 55.] -/
def Obligations.BlockCommands : Prop :=
  ∀ (s : State) (tk : Task) (mem : Member) (c : Cmd) (h : Hdr) (p : PrmRes), Performing s tk mem c →
    (∀ tier x, s.slotOf tk.ctx (c.w 0) = some x → c.w 2 ≤ 2 ^ 20 →
      let ids := mem.words (c.w 1) (c.w 2)
      ∃ out b, answers (.rxlook h p 0 tier 0) s s mem c p out ∧ out.length = 16 ∧ 256 * b ≤ c.w 2 ∧
        out.getD 2 0 = BitVec.ofNat 32 (256 * b) ∧ (out.getD 0 0).extractLsb' 0 8 = (if b = 0 then 4 else 0) ∧
        (∀ j < b, (s.nodeNamed (chainName x.root ids (j + 1))).isSome) ∧
        (256 * (b + 1) ≤ c.w 2 → s.nodeNamed (chainName x.root ids (b + 1)) = none) ∧
        (b = 0 → out.getD 1 0 = noneWord) ∧
        (∀ k n, 0 < b → s.nodeNamed (chainName x.root ids b) = some (k, n) → out.getD 1 0 = BitVec.ofNat 32 k)) ∧
    (∀ x, s.slotOf tk.ctx (c.w 0) = some x →
      let g := x.geom
      let l := c.w 1
      let first := c.w 2
      let n := c.w 3
      let len := g.h * g.c
      g.word = c.out.getD 8 0 → l < g.l → x.tail.lfill.length = g.l →
      ∀ s0, linesRead s (s.grainBegun tk c) s0 →
      (first ≠ x.tail.lfill.getD l 0 → answers (.kapp h p) s s0 mem c p [7, 0, 0, 0]) ∧
      (first = x.tail.lfill.getD l 0 → (∀ i < n, x.tail.ids.find (first + i) = none) → (∀ r ∈ kappRanges (some g) c.out, mem.allValid r.1 r.2 = true) →
        ∃ s1 y, answers (.kapp h p) s s1 mem c p [0, 0, 0, 0] ∧ storeOnly s0 s1 ∧ slotsKept s s1 [c.w 0] ∧
          s1.store.slots.find (c.w 0) = some y ∧ y.leaf = x.leaf ∧ y.tail.lfill = x.tail.lfill.set l (first + n) ∧
          (∀ i < n, y.tail.keys.find (256 * l + first + i) = some (mem.halves (c.w 4 + 2 * len * i) len) ∧
            y.tail.vals.find (256 * l + first + i) = some (mem.halves (c.w 5 + 2 * len * i) len) ∧
            y.tail.ids.find (first + i) = some ((mem.words (c.w 6) n).getD i 0)))) ∧
    (∀ evc x s0, s.slotOf tk.ctx (c.w 0) = some x → linesRead s (s.wholeTail tk c) s0 →
      let d := s.depthOf x.leaf
      let parent := ((x.leaf.bind fun k => s.store.nodes.find k).map (·.name)).getD x.root
      let nm := blockName parent ((List.range 256).map fun i => (x.tail.ids.find i).getD 0)
      ((∃ f ∈ x.tail.lfill, f < 256) → answers (.seal h p evc) s s0 mem c p [6, noneWord, 0, 0]) ∧
      ((∀ f ∈ x.tail.lfill, 256 ≤ f) → d < 4095 → s.bytesIn 1 + x.geom.block ≤ Config.storeBytes 1 →
        (∀ e en, s.nodeNamed nm = some (e, en) → en.geom = x.geom →
          ∃ s1 y, answers (.seal h p evc) s s1 mem c p [1, BitVec.ofNat 32 e, 0, 0] ∧ storeOnly s0 s1 ∧ slotsKept s s1 [c.w 0] ∧
            s1.store.slots.find (c.w 0) = some y ∧ y.leaf = some e ∧ y.tailn = 0 ∧ y.tok = 256 * (d + 1) ∧ (∀ f ∈ y.tail.lfill, f = 0)) ∧
        (∀ k, s.nodeNamed nm = none → s.freeNode = some k → s.store.dieRoom x.homeDie x.geom.pages = true →
          ∃ (s1 : State) (y : SeqSlot) (gone : Nat → Bool),
            answers (.seal h p evc) s s1 { mem with l1 := mem.l1.filter fun l => !gone l.pa } c p [0, BitVec.ofNat 32 k, 0, 0] ∧
            storeOnly (s0.dropLines gone) s1 ∧ slotsKept s s1 [c.w 0] ∧
            s1.store.slots.find (c.w 0) = some y ∧ y.leaf = some k ∧ y.tailn = 0 ∧ y.tok = 256 * (d + 1) ∧
            (x.leaf = none → ∃ n, s1.store.nodes.find k = some n ∧ n.name = nm ∧ n.depth = 1 ∧ n.evc = evc ∧ n.refc = 1 ∧ n.root = x.root ∧
              n.res = 2#3)))) ∧
    (∀ x y s0, s.slotOf tk.ctx (c.w 0) = some x → s.slotOf tk.ctx (c.w 1) = some y → x.like y = true → s.swin tk.ctx = 0 →
      c.out.length = 4 → c.kept = none → geomOfWord y.geom.word.toNat = y.geom →
      c.w 3 ≤ 256 → mem.allValid (c.w 2) (4 * c.w 3) = true → (∀ w ∈ mem.words (c.w 2) (c.w 3), w.toNat < y.tok) →
      let c1 := s.cpactStart tk mem c
      cpactReading s tk mem c1 = (.ok, mem, s0) →
      ∃ s1 z, answers (.cpact h p) s s1 mem { c1 with kept := none } p [0, 0, 0, 0] ∧ linesOnly s s0 ∧ storeOnly s0 s1 ∧ slotsKept s s1 [c.w 0] ∧
        s1.store.slots.find (c.w 0) = some z ∧ z.leaf = x.leaf ∧ z.tail.lfill = List.replicate x.geom.l (c.w 3) ∧ z.tailn = c.w 3 ∧
        ∀ i l, i < c.w 3 → l < x.geom.l → ∀ j, s.resolve y.leaf y.tok ((mem.words (c.w 2) (c.w 3)).getD i 0).toNat = .tail j →
          z.tail.keys.find (256 * l + i) = some (y.tail.row false l j) ∧ z.tail.vals.find (256 * l + i) = some (y.tail.row true l j)) ∧
    (let dev : BitVec 20 := BitVec.ofNat 20 (c.w 0)
     (s.inDomain dev = false ∨ s.time.inSync = false → s.fabric.held = [] → s.fabric.reqs = [] → s.fabric.copies = [] →
       answers (.repl h p) s s mem c p [4, noneWord, 0, 0]) ∧
     (s.inDomain dev = true → s.time.inSync = true → ∃ t : State, exec (.repl h p) s = .next (t.put (mem.putCmd { c with state := .waitAnswer })) ∧
       t = { s with fabric := t.fabric } ∧ (∃ r, t.fabric.reqs = s.fabric.reqs ++ [r] ∧ r.kind = .rlease ∧ r.dest = dev ∧ r.name = c.replName) ∧
       ∀ pl, s.planeOf c.replName = some pl →
         t.fabric.outbox = s.fabric.outbox ++ [(pl, 0, dev, .rlease c.replName s.regs.devid 4096)]))

/-- R268, R269, R257, R371, R372: BSEL whose lines are read without an uncorrectable error writes a list of the grains it selects, ascending, with every
sink and newest grain and at most G others; PGATH
ends with its result record once its rows are done, and its row of a token of the tail or of a node is that token's row of the chosen heads, by the mapping it started with.
[The model's own: log 5, 20.] -/
def Obligations.SelectionCommands : Prop :=
  ∀ (s : State) (tk : Task) (mem : Member) (c : Cmd) (h : Hdr) (p : PrmRes),
    (Performing s tk mem c →
      c.kept = none →
      (s.bselSlot tk mem c = none → answers (.bsel h p) s s mem c p [10, 0, 0, 0]) ∧
      (∀ x s0, s.bselSlot tk mem c = some x → s.swin tk.ctx = 0 →
        let q := bselPrm c.out
        let ng := (q.n + 15) / 16
        let reads := s.bselReads (s.mapping x) q
        readGrains tk (s.bselStart tk mem c) reads reads s mem = (.ok, mem, s0) →
        (4 * p.res.toNat + 4 ≤ q.list / 4 ∨ q.list / 4 + ng + 1 ≤ 4 * p.res.toNat) →
        ∃ (s1 : State) (sel : List Nat) (big : W32) (b : Member), exec (.bsel h p) s = .next (finished s1 b c) ∧ linesOnly s s0 ∧
          storeOnly s0 s1 ∧ b = { mem with spad := b.spad, wrote := b.wrote } ∧
          (∀ k < 4, b.cont (4 * p.res.toNat + k) = ⟨[0, BitVec.ofNat 32 sel.length, big, 0].getD k 0, true, false⟩) ∧
          b.cont (q.list / 4) = ⟨BitVec.ofNat 32 sel.length, true, false⟩ ∧
          (∀ k (hk : k < sel.length), b.cont (q.list / 4 + 1 + k) = ⟨BitVec.ofNat 32 (q.t0 + 16 * sel[k]), true, false⟩) ∧
          sel.Pairwise (· < ·) ∧ (∀ i ∈ sel, i < ng) ∧ (∀ i < ng, i < q.sink ∨ ng ≤ i + q.new → i ∈ sel) ∧
          sel.length ≤ q.sink + q.new + q.g)) ∧
    (∀ w r k, Working s tk mem c → mem.frozen = [] → c.ring = some r → c.kept = some k → c.mark = 16 * (pgathPrm c.out).nmax →
      ∃ (b : Member) (s1 : State), exec (.pgath h p w) s = .next (finished s1 b { c with kept := none }) ∧ storeOnly s s1 ∧
        b = { mem with spad := b.spad, wrote := b.wrote } ∧
        ∀ k < 4, b.cont (4 * p.res.toNat + k) = ⟨[statusWord (c.w 8) 0 0, 0, 0, 0].getD k 0, true, false⟩) ∧
    (∀ r j k, Current s tk mem → mem.frozen = [] → c.kept = some k → c.ring = some r → j < 16 * (pgathPrm c.out).nmax → c.w 8 = 0 →
      let q := pgathPrm c.out
      let cut (x : List (BitVec 16)) := (x.drop (q.h0 * k.geometry.c)).take (q.nh * k.geometry.c)
      let u := pgathPiece p tk s mem c j
      let written (s0 : State) (row : List (BitVec 16)) := u.res = .ok ∧ linesOnly s s0 ∧ storeOnly s0 u.st ∧ u.mem.g = mem.g ∧
        (r.w < 16 → rowArrives (mem.window r.w) (u.mem.window r.w) r.gen (r.tag + j)) ∧
        spadHolds mem u.mem (r.slotAddr j) ((cut row).flatMap fun v => leBytes 2 v.toNat)
      (∀ i s0, (pgathPos mem c j).map k.place = some (.tail i) →
        s.readLines 1 true (s.tailLines q.slot k.slot q.vals q.layer i) = (none, s0) → written s0 (k.tail.row q.vals q.layer i)) ∧
      ∀ n i y s0, (pgathPos mem c j).map k.place = some (.node n i) → s.store.nodes.find n = some y → s.swin tk.ctx = 0 →
        let at_ := s.reach n y (s.pgathNeed mem c k n y j) s.cur.task s.cur.member c.seq
        at_.2.readLines at_.1 true (s.rowLines n y q.vals q.layer i q.h0 q.nh) = (none, s0) →
        written s0 (y.row q.vals q.layer i))

/-- R273, R279, R281, R283, R286, R287, R288: TKFEED, TKDRAIN and TKDETOK write what the token engine makes of their input and give NOIMAGE where no
vocabulary image stands; GLOAD binds and unbinds a grammar; GMASK of a slot whose grammar is off allows every token; GSTEP steps, starts or
ends the grammar of each listed slot.
[The model's own: log 4, 24.] -/
def Obligations.TokenAndGrammarCommands : Prop :=
  ∀ (s : State) (tk : Task) (mem : Member) (c : Cmd) (h : Hdr) (p : PrmRes), Performing s tk mem c →
    (c.stream = .l ∨ c.stream = .s) →
    let rd := imgRead tk c.stream
    let kept (s2 s1 : State) := readsOnly s s2 ∧ s1 = { s2 with store := s1.store }
    (∀ m1 s1, (vocabAt rd (c.w64 0)).at s mem = (.error .noImage, m1, s1) → readsOnly s s1 ∧
      answers (.tkfeed h p) s s1 mem c p [0x12, 0, 0, 0] ∧ answers (.tkdrain h p) s s1 mem c p [0x12, 0, 0, 0] ∧
      answers (.tkdetok h p) s s1 mem c p [0x12, 0, 0, 0]) ∧
    (∀ (drain : Bool) sb sp ib ip q q1 m1 s1, mem.rangeBytes (c.w 4) 512 = some (sb, sp) →
      mem.rangeBytes (c.w 2) (if drain then 0 else c.w 3) = some (ib, ip) → tkOfRecord sb = some q → (drain = false → 0 < c.w 3) →
      (do let v ← vocabAt rd (c.w64 0); if drain then q.drain rd v else q.input rd v ib : Img TkState).at s mem = (.ok q1, m1, s1) →
      ∃ b : Member, exec (if drain then .tkdrain h p else .tkfeed h p) s = .next (finished s1 b c) ∧ readsOnly s s1 ∧
        b = { mem with spad := b.spad, wrote := b.wrote, saw := b.saw, tlbL := b.tlbL, tlbS := b.tlbS } ∧
        b.cont (4 * p.res.toNat) = ⟨BitVec.ofNat 32 (if q1.bad = 0 then 0 else 0x10), true, false⟩ ∧
        b.cont (4 * p.res.toNat + 1) = ⟨BitVec.ofNat 32 q1.out.length, true, false⟩ ∧
        b.cont (4 * p.res.toNat + 2) = ⟨BitVec.ofNat 32 q1.bad, true, false⟩ ∧
        b.cont (4 * p.res.toNat + 3) = ⟨BitVec.ofNat 32 q1.run.bytes.length, true, false⟩) ∧
    (∀ sb sp q v m1 s1, mem.rangeBytes (c.w 4) 512 = some (sb, sp) → tkOfRecord sb = some q → c.w 3 = 0 →
      (16 * p.res.toNat + 16 ≤ c.w 5 ∨ c.w 5 + 512 ≤ 16 * p.res.toNat) → (vocabAt rd (c.w64 0)).at s mem = (.ok v, m1, s1) →
      readsOnly s s1 ∧ answersWith (.tkfeed h p) s s1 mem c p [0, 0, 0, BitVec.ofNat 32 q.run.bytes.length] (c.w 5) sb) ∧
    (∀ v m1 s1, (vocabAt rd (c.w64 0)).at s mem = (.ok v, m1, s1) → mem.allValid (c.w 2) (4 * c.w 3) = true →
      let ids := (mem.words (c.w 2) (c.w 3)).map BitVec.toNat
      (∀ t ∈ ids, t < v.ntok ∧ v.fbbase ≤ t ∧ t ≤ v.fbbase + 255) →
      readsOnly s s1 ∧
      (c.w 3 ≤ c.w 5 → (16 * p.res.toNat + 16 ≤ c.w 4 ∨ c.w 4 + c.w 3 ≤ 16 * p.res.toNat) →
        answersWith (.tkdetok h p) s s1 mem c p [0, BitVec.ofNat 32 (c.w 3), 0, 0] (c.w 4) (ids.map fun t => BitVec.ofNat 8 (t - v.fbbase))) ∧
      (c.w 5 < c.w 3 → answers (.tkdetok h p) s s1 mem c p [5, 0, 0, 0])) ∧
    (∀ g : BitVec 4,
      let key := 16 * tk.ctx + g.toNat
      (c.w64 0 = 0 → keysRise s.store.gram → ∃ s1, answers (.gload h p g) s s1 mem c p [0, 0, 0, 0] ∧ storeOnly s s1 ∧ s1.store.gram.find key = none) ∧
      (∀ i m1 s2, c.w64 0 ≠ 0 → (gramAt rd (c.w64 0)).at s mem = (.ok i, m1, s2) →
        ∃ s1, answers (.gload h p g) s s1 mem c p [0, 0, 0, 0] ∧ kept s2 s1 ∧ s1.store.gram.find key = some (c.w64 0)) ∧
      (∀ m1 s1, c.w64 0 ≠ 0 → (gramAt rd (c.w64 0)).at s mem = (.error .noImage, m1, s1) →
        readsOnly s s1 ∧ answers (.gload h p g) s s1 mem c p [0x12, 0, 0, 0])) ∧
    (∀ x, s.slotOf tk.ctx (c.w 0) = some x → gOn x.gstate = false → c.w 2 % 8 = 0 →
      (16 * p.res.toNat + 16 ≤ c.w 1 ∨ c.w 1 + c.w 2 / 8 ≤ 16 * p.res.toNat) →
      answersWith (.gmask h p) s s mem c p [0, BitVec.ofNat 32 (c.w 2), 0, 0] (c.w 1) (List.replicate (c.w 2 / 8) 0xFF)) ∧
    (s.slotOf tk.ctx (c.w 0) = none → answers (.gmask h p) s s mem c p [10, 0, 0, 0]) ∧
    (c.w 1 = 1 → ∀ x,
      let a := mem.cont (c.w 0 / 4)
      a.valid = true → s.slotOf tk.ctx a.data.toNat = some x →
      (∃ s1, answers (.gstepOff h p) s s1 mem c p [0, 0, 0, 0, 0] ∧ storeOnly s s1 ∧ slotsKept s s1 [a.data.toNat] ∧
        s1.store.slots.find a.data.toNat = some { x with gstate := 0, stack := [] }) ∧
      (∀ (g : BitVec 4) base i m1 s2, s.gramOf tk.ctx g.toNat = some base → (gramAt rd base).at s mem = (.ok i, m1, s2) → i.start < 65536 →
        ∃ s1 y, answers (.gstepStart h p g) s s1 mem c p [0, 0, 0, 0, 0] ∧ kept s2 s1 ∧ slotsKept s s1 [a.data.toNat] ∧
          s1.store.slots.find a.data.toNat = some y ∧ y.stack = [] ∧ gOn y.gstate = true ∧ gDead y.gstate = false ∧
          gState y.gstate = i.start ∧ gNum y.gstate = g.toNat) ∧
      (gOn x.gstate = false → ∃ s1, answers (.gstepStep h p) s s1 mem c p [0, 0, 0, 0, 0] ∧ storeOnly s s1 ∧
        ∀ j, s1.store.slots.find j = s.store.slots.find j) ∧
      (gOn x.gstate = true → gDead x.gstate = true → ∃ s1, answers (.gstepStep h p) s s1 mem c p [0, 0, 0, 0, 0x11] ∧ storeOnly s s1 ∧
        ∀ j, s1.store.slots.find j = s.store.slots.find j))

/-! ## Accumulates and CAS; the start and the end of a command -/

/-- R238, R239, R240, R241, R242, R307: the new value of an accumulate over 32-bit integers; the last element of a scratchpad accumulate
changes its destination and, where it fetches, its operand; an element whose operand is invalid changes nothing. Performed at a commit, an accumulate of one element and a CAS
change memory at their target and nowhere else, leave no copy of its line in their scope, and give the old value back.
[The model's own: log 5, 6, 78.] -/
def Obligations.AtomicsAct : Prop :=
  (∀ old x : BitVec 32,
    Aop.addS32.new old.toNat x.toNat = (old + x).toNat ∧ Aop.swap.new old.toNat x.toNat = x.toNat ∧
    Aop.minS32.new old.toNat x.toNat = (if old.toInt ≤ x.toInt then old else x).toNat ∧
    Aop.maxS32.new old.toNat x.toNat = (if old.toInt ≤ x.toInt then x else old).toNat ∧
    Aop.minZ32.new old.toNat x.toNat = (if old.toNat ≤ x.toNat then old else x).toNat ∧
    Aop.maxZ32.new old.toNat x.toNat = (if old.toNat ≤ x.toNat then x else old).toNat ∧
    Aop.and.new old.toNat x.toNat = (old &&& x).toNat ∧ Aop.or.new old.toNat x.toNat = (old ||| x).toNat ∧
    Aop.xor.new old.toNat x.toNat = (old ^^^ x).toNat) ∧
  (∀ (s : State) (tk : Task) (mem : Member) (c : Cmd) (i : Instr) (a : Aop) (fetch : Bool) (h : Hdr) (f : AccFields),
    Working s tk mem c → mem.frozen = [] → accOf i = some (a, fetch, h, f) → f.dmode = 2#2 → c.mark = f.nm1.toNat →
    let p := 4 * f.srcw.toNat + c.mark * a.z
    let d := 4 * f.ixw.toNat + c.mark * a.z
    ((mem.cont (p / 4)).valid = false → exec i s = .next (finished s mem c)) ∧
    ∀ xs os, spadBytes mem p a.z xs → spadBytes mem d a.z os → (p + a.z ≤ d ∨ d + a.z ≤ p) →
      ∃ b : Member, exec i s = .next (finished s b c) ∧ b = { mem with spad := b.spad, wrote := b.wrote } ∧
        spadBytes b d a.z (leBytes a.z (a.new (leNat os) (leNat xs))) ∧ spadBytes b p a.z (if fetch then os else xs) ∧
        ∀ ci, ci ≠ d / 4 → ci ≠ p / 4 → b.cont ci = mem.cont ci) ∧
  ∀ (s s2 : State) (t k m : Nat) (tk : Task) (mem : Member) (c : Cmd) (l : Leaf), s.tasks[t]? = some tk → tk.members[m]? = some mem →
    s.cur.task = t → c.isHeld = false → c.mark = 0 → c.step = 0 → c.so = 0 → s.mem.wf = true →
    let s1 := (s.performWork t k (.cmd m c)).1
    let purged (pa : Nat) (scope : BitVec 2) := 2 ≤ scope.toNat → ∀ x ∈ s1.tasks, ∀ y ∈ x.members, ∀ ln ∈ y.l1, ln.pa ≠ pa / 128 * 128
    (∀ (a : Aop) (fetch : Bool) (h : Hdr) (f : AccFields) (xs : List Byte), accOf c.instr = some (a, fetch, h, f) →
      f.dmode = 0#2 → f.nm1.toNat = 0 → spadBytes mem (4 * f.srcw.toNat) a.z xs →
      let va := dAddr c.desc 0 0
      Writable s s2 tk mem c.stream va a.z l → s.rangeOk (l.pa va) a.z = true →
      let old := s.load (l.pa va) a.z
      (s.performWork t k (.cmd m c)).2 = .done ∧
      wroteAt s.mem s1.mem (l.pa va) (leBytes a.z (a.new (leNat old) (leNat xs))) ∧ purged (l.pa va) f.scope ∧
      ∃ b, s1.member? t m = some b ∧ spadBytes b (4 * f.srcw.toNat) a.z (if fetch then old else xs)) ∧
    ∀ (h : Hdr) (d : BitVec 6) (recw : BitVec 17) (w64 : BitVec 1) (scope : BitVec 2), c.instr = .cas h d recw w64 scope →
      (∀ i ∈ casUsed recw w64, (mem.cont i).valid = true ∧ (mem.cont i).poison = false) →
      let n := if w64 = 1#1 then 8 else 4
      let va := dBase c.desc
      Writable s s2 tk mem c.stream va n l → s.rangeOk (l.pa va) n = true →
      let old := s.loadNat (l.pa va) n
      (s.performWork t k (.cmd m c)).2 = .done ∧ purged (l.pa va) scope ∧
      (old = casField mem recw 0 n → wroteAt s.mem s1.mem (l.pa va) (leBytes n (casField mem recw 8 n))) ∧
      (old ≠ casField mem recw 0 n → s1.mem = s.mem) ∧
      ∃ b, s1.member? t m = some b ∧ spadBytes b (4 * recw.toNat + 16) 8 (leBytes 8 old)

/-- R219, R236: the first queued command of a stream starts on the lowest free channel of its stream, or on none where it uses none, unless
it waits for earlier work; one that resumes a hold starts on the hold's channel once the hold is released. R220, R223, R375: a command
whose last byte has been written completes: its entry goes, its semaphore is signalled, its byte count is added to its object; a WAITB
completes once few enough batches are outstanding.
[The model's own: log 5, 38, 78.] -/
def Obligations.CommandsStartAndComplete : Prop :=
  ∀ (s : State) (tk : Task) (mem : Member) (c : Cmd), Current s tk mem →
    let first := mem.cmds.find? fun k => k.stream == s.cur.stream && k.state == CmdState.queued
    let busy := mem.cmds.filterMap fun k => if k.running then k.chan else none
    let lo := if s.cur.stream = .l then 0 else 2
    let starts (ch : Option Nat) := ∃ due, s.cycle ≤ due ∧
      exec .commandStart s = .next (s.put (mem.putCmd { c with chan := ch, state := .active due }))
    (first = none → exec .commandStart s = .next s) ∧
    (first = some c → (∃ h n, c.instr = .waitb h n) ∨ s.cycle ≤ c.issued ∨ mem.behind c = true → exec .commandStart s = .next s) ∧
    (first = some c → (∀ h n, c.instr ≠ .waitb h n) → c.issued < s.cycle → mem.behind c = false →
      (mem.held = [] → usesChannel c.instr = false → starts none) ∧
      (mem.held = [] → usesChannel c.instr = true →
        (lo ∉ busy → starts (some lo)) ∧ (lo ∈ busy → lo + 1 ∉ busy → starts (some (lo + 1))) ∧
        (lo ∈ busy → lo + 1 ∈ busy → exec .commandStart s = .next s)) ∧
      ∀ h, mem.resumes c = some h → (h.released = false → exec .commandStart s = .next s) ∧
        (h.released = true → ∃ (due : Nat) (s1 : State),
          s1 = { s with slog := s1.slog, store := { s.store with readers := s1.store.readers } } ∧
          s1.slog = s.slog.map (fun e : LogEntry => if e.task = s.cur.task ∧ e.member = s.cur.member ∧ e.cmd = some h.cmd.seq
            then { e with cmd := some c.seq } else e) ∧
          exec .commandStart s = .next (s1.put
            { mem.putCmd { c with chan := h.cmd.chan, state := .active due } with held := mem.held.erase h }))) ∧
    (mem.curCmd s = some c →
      let done := (∃ d, c.state = .moved d ∧ 0 < d ∧ d ≤ s.cycle ∧ mem.fillPresent c = true) ∨
        (∃ h n, c.instr = .waitb h n ∧ c.state = .queued ∧ c.issued < s.cycle ∧ outstandingBatches mem c ≤ n.toNat)
      let va := c.object tk
      let s0 : State := { s with store := { s.store with readers := s.store.readers.filter fun r =>
        !(r.task == s.cur.task && r.member == s.cur.member && r.cmd == c.seq) } }
      (¬ done → exec .commandCompletion s = .next s) ∧
      (done → ∃ b : Member, b = { mem with cmds := mem.cmds.filter fun k => k.seq != c.seq, pend := b.pend } ∧
        (c.ssem = 0 → b.pend = mem.pend) ∧ (c.ssem ≠ 0 → ∃ f, b.pend.semAdd = mem.pend.semAdd ++ [(c.ssem, 1, f)]) ∧
        (c.so = 0 → exec .commandCompletion s = .next (s0.put b)) ∧
        (c.so ≠ 0 → tk.replicated = true → exec .commandCompletion s = .next (s0.put { b with counts := mem.counts ++ [c] })) ∧
        ∀ l, c.so ≠ 0 → tk.replicated = false → s.slog = [] → l.w = true → mapped s tk mem va l → s.objectOk (l.pa va) = true →
          ∃ s1 : State, readsOnly s0 s1 ∧ exec .commandCompletion s = .next ((s1.barrierAdd (l.pa va) c.bytes).put b)))

/-! ## Stores, commits and alignment barriers -/

/-- R295, R130: C_STORE_PERFORMED performs the first store that is due: its bytes reach memory and no other byte changes; a later store of a
line never passes an earlier one. R26, R301, R129, R478: what a commit performs: a deferred store, the release of a lock nobody waits for, an arrival. R364: SIDE_LOG_RETRY performs an
entry whose page is mapped again, and leaves one whose page is not.
[The model's own: log 6, 33, 34, 49.] -/
def Obligations.StoresAndDeferredWork : Prop :=
  (∀ (s : State) (tk : Task) (mem : Member), Current s tk mem →
    (mem.stores = [] → exec .cStorePerformed s = .next s) ∧
    (∀ p rest, mem.stores = p :: rest → p.due ≤ s.cycle → inPorts p.pa = false → s.canWrite p.pa p.bytes.length = true → s.slog = [] →
      s.mem.wf = true → ∃ s1 : State, exec .cStorePerformed s = .next (s1.put { mem with stores := rest }) ∧
        s1 = { s with mem := s1.mem, past := s1.past, unmapped := s1.unmapped, hbm := s1.hbm } ∧ wroteAt s.mem s1.mem p.pa p.bytes) ∧
    (∀ p q, mem.stores = [p, q] → s.cycle < p.due → q.pa / 128 = p.pa / 128 → exec .cStorePerformed s = .next s) ∧
    ∀ p e, mem.stores = [p] → e ∈ s.slog → e.task = s.cur.task → e.member = s.cur.member → e.cmd = none → e.act = .write →
      e.va = p.va / 128 * 128 → e.id < p.logMark → exec .cStorePerformed s = .next s) ∧
  (∀ (s s2 : State) (t k m : Nat) (tk : Task) (mem : Member) (l : Leaf), s.tasks[t]? = some tk → tk.members[m]? = some mem →
    s.cur.task = t → s.mem.wf = true →
    (∀ a bytes, 0 < bytes.length → Writable s s2 tk mem .c a bytes.length l →
      (s.performWork t k (.store m a bytes false)).2 = .done ∧
        wroteAt s.mem (s.performWork t k (.store m a bytes false)).1.mem (l.pa a) bytes) ∧
    (∀ a bytes, mapped s tk mem a l → s.logRoom mem.core = true →
      (s.performWork t k (.store m a bytes true)).2 = .done ∧
        ∃ e : LogEntry, (s.performWork t k (.store m a bytes true)).1.slog = s.slog ++ [e] ∧ e.task = t ∧ e.member = m ∧ e.act = .write ∧
          e.va = a / 128 * 128 ∧ e.bytes = (List.range bytes.length).map fun i => (a % 128 + i, bytes.getD i 0)) ∧
    (∀ so units, l.w = true → mapped s tk mem (tk.objectOf so) l →
      let pa := l.pa (tk.objectOf so)
      s.rangeOk pa 64 = true → s.canWrite pa 64 = true →
      (m = tk.index k 0 → (∀ r ∈ s.lockq, r.obj ≠ pa) → inPorts (pa + 8) = false → (s.performWork t k (.release so)).2 = .done ∧
        wroteAt s.mem (s.performWork t k (.release so)).1.mem (pa + 8) (List.replicate 8 0)) ∧
      (s.performWork t k (.arrival m so units)).2 = .done ∧
        (s.performWork t k (.arrival m so units)).1.mem = (s.barrierAdd pa units.toNat).mem ∧
        ∀ x, (s.performWork t k (.arrival m so units)).1.tasks[t]? = some x →
          ∀ h ∈ x.so.toList, h.kind = .barrier → h.addr = tk.objectOf so → h.holds = false)) ∧
  ∀ (s s2 : State) (e : LogEntry) (tk : Task) (mem : Member) (l : Leaf), s.slog = [e] → s.tasks[e.task]? = some tk →
    tk.members[e.member]? = some mem →
    let pa := l.pa e.va
    (s.walk tk.ptroot e.va = none → s.missCause tk.ptroot e.va ≠ 0x0E → exec .sideLogRetry s = .next s) ∧
    (s.walk tk.ptroot e.va = some l → e.so = 0 → l.w = false → ∃ s1 : State, exec .sideLogRetry s = .next s1 ∧ s1.slog = []) ∧
    (s.walk tk.ptroot e.va = some l → e.act = .write → e.so = 0 → l.w = true →
      s.canWrite pa e.span = true → s.canWrite pa 128 = true → (∀ p ∈ mem.stores, p.va / 128 * 128 ≠ e.va) →
      (if l.owned pa then s.takeOwn ⟨e.task, mem.rank⟩ pa else some s) = some s2 → (∀ i < 128, inPorts (pa + i) = false) →
      ∃ s1 : State, exec .sideLogRetry s = .next s1 ∧ s1.slog = [] ∧
        (s.mem.wf = true → ∀ x, s1.mem.get x = if pa ≤ x ∧ x < pa + 128 then
          ((e.bytes.find? fun b => b.1 == x - pa).map (·.2)).getD (s.mem.get x) else s.mem.get x))

/-- R27, R29, R32, R37, R28: REGION_COMMIT of an unreplicated task whose members stand at CLOSE with nothing deferred: registers,
descriptors and the streams' addresses go into the checkpoint, and the task waits for its alignment barrier; at TDONE the task is done and its completion is
stamped. Before every member has reached its end nothing happens. A token queue that is not empty is check code 8. R18, R24, R34: ALIGNMENT_BARRIER
starts the streams at the next cycle once it is due, or takes a crew that is to be pre-empted off its cores.
[The model's own: log 5, 49, 53.] -/
def Obligations.RegionsCommit : Prop :=
  ∀ (s : State) (t : Nat) (tk : Task), s.cur.task = t → s.tasks[t]? = some tk →
    (AtRegionEnd s tk false → ∃ (s1 : State) (tk1 : Task), exec .regionCommit s = .next s1 ∧ s1.tasks[t]? = some tk1 ∧ s1.mem = s.mem ∧
      tk1.state = .running ∧ tk1.commit = .none ∧ tk1.discards = 0 ∧ tk1.attempt = 0 ∧
      (∀ r ∈ tk1.replicas, r.atBarrier = true ∧ r.holding = true ∧ s.cycle < r.origin) ∧
      ∀ (i : Nat) (m : Member), tk.members[i]? = some m → ∃ b : Member, tk1.members[i]? = some b ∧ b.g = m.g ∧ b.v = m.v ∧ b.mb = m.mb ∧ b.d = m.d ∧
        b.spad = m.spad ∧ b.ckpt.g = m.g ∧ b.ckpt.d = m.d ∧ (b.str .c).pc = (m.str .c).pc + 4 ∧ b.stall = none ∧
        ∀ x, x ≠ .c → (b.str x).pc = (m.str x).pc ∧ (b.str x).status = .running) ∧
    (AtRegionEnd s tk true → (∀ f ∈ s.recs, f.task ≠ t) → tk.heldLocks = [] → tk.graph = none → tk.fromTT = none → tk.compl = 0 →
      ∃ (s1 : State) (tk1 : Task), exec .regionCommit s = .next s1 ∧ s1.tasks[t]? = some tk1 ∧ s1.mem = s.mem ∧
        tk1.state = .done ∧ tk1.ending = some .done ∧ s1.nextSeq = s.nextSeq + 1 ∧
        s1.events = s.events ++ [(s.nextSeq, .completion tk.seq)] ∧
        s1.irqs = s.irqs ++ (if tk.irq then [(s.queueAt tk.queue).vec] else [])) ∧
    (tk.replicated = false → tk.commit = .none → tk.members ≠ [] → (∀ m ∈ tk.members, m.stall = none) → exec .regionCommit s = .next s) ∧
    (∀ m r, tk.members = [m] → tk.replicated = false → tk.commit = .none → tk.state = .running → tk.before = none → m.atEnd false = true ∨ m.atEnd true = true →
      (∃ q ∈ m.tq.toList, q ≠ []) → tk.replicas[m.replica]? = some r → r.stopped = none →
      ∃ (s1 : State) (tk1 : Task), exec .regionCommit s = .next s1 ∧ s1.tasks[t]? = some tk1 ∧ tk1.state = .suspended ∧
        ∃ f ∈ s1.recs, f.task = t ∧ f.info.cause = 0x09 ∧ f.info.cls = 0 ∧ f.info.aux = 8 ∧ f.info.rank = m.rank) ∧
    ((∀ r ∈ tk.replicas, r.atBarrier = false ∨ s.cycle < r.origin) → exec .alignmentBarrier s = .next s) ∧
    ((tk.state = .running ∨ tk.state = .placing) → tk.commit = .none → tk.replicas ≠ [] →
      (∀ r ∈ tk.replicas, r.atBarrier = true ∧ r.origin ≤ s.cycle) → (∀ m ∈ tk.members, m.replica < tk.replicas.length) →
      (tk.preemptReq = false → tk.fatal = false → exec .alignmentBarrier s = .next (s.putTask t { tk with
        state := .running, placedOnce := true
        replicas := tk.replicas.map fun r => { r with
          atBarrier := false, holding := true, origin := s.cycle + 1, chargeOrigin := r.charge, fault := tk.faultLive }
        members := tk.members.map fun m => { m with streams := m.streams.map fun x => { x with base := s.cycle + 1 } } })) ∧
      (tk.preemptReq = false → tk.fatal = true → ∃ (s1 : State) (tk1 : Task), exec .alignmentBarrier s = .next s1 ∧
        s1.tasks[t]? = some tk1 ∧ tk1.state = .suspended ∧ ∃ f ∈ s1.recs, f.task = t ∧ f.info.cause = 0x0E ∧ f.info.aux = 1) ∧
      (tk.preemptReq = true → tk.state = .running → ∃ (s1 : State) (tk1 : Task), exec .alignmentBarrier s = .next s1 ∧
        s1.tasks[t]? = some tk1 ∧ s1.mem = s.mem ∧ tk1.state = .ready ∧ tk1.preemptReq = false ∧ tk1.discards = tk.discards))

/-- R321, R322, R323, R324, R327: PARAPET_DECISION commits a dual task whose replicas' signatures are equal, and a triple task by the majority with
the outvoted replica named; without one the region is retried, or the task is suspended or fails; replicas that all stopped alike
take their fault once. R25, R26, R328: DEADLINE_FAULT where a charge exceeds the budget. R33, R34, R24: PREEMPTION_DISCARD brings a
region that may be discarded back to its checkpoint.
[The model's own: log 5, 35, 49, 50.] -/
def Obligations.DecisionsAndDiscards : Prop :=
  ∀ (s : State) (t : Nat) (tk : Task), s.cur.task = t → s.tasks[t]? = some tk →
    (tk.state = .running → tk.commit = .deciding → tk.termReq = false → tk.commitPending = false →
      let sig (r : Replica) (k : Nat) : W64 := ((r.sigs.map (·.1)).getD []).getD k 0
      let same (a b : Replica) := ∀ k < tk.crew, sig a k = sig b k
      let commits (k : Nat) (v : Option Nat) :=
        exec .parapetDecision s = .next ((s.putTask t { tk with
          commit := .step2 k (tk.commitList k), vote := v.map fun o => ⟨o, tk.attempt, (tk.suspects o).map s.physical⟩ }).commitStep2 t)
      let differs := ∃ (s1 : State) (tk1 : Task), exec .parapetDecision s = .next s1 ∧ s1.tasks[t]? = some tk1 ∧
        (tk.attempt < tk.retry → tk1.attempt = tk.attempt + 1 ∧ tk1.state = .placing) ∧
        (tk.retry ≤ tk.attempt → tk.rpol = true → tk1.attempt = 0 ∧ tk1.state = .suspended) ∧
        (tk.retry ≤ tk.attempt → tk.rpol = false → tk1.state = .failed ∧ tk1.ending = some .failed)
      let sent (r : Replica) := r.sigs.isSome = true ∧ r.stopped = none
      (∀ a b, tk.repl = 1 → tk.replicas = [a, b] → sent a → sent b → (same a b → commits 0 none) ∧ (tk.members ≠ [] → ¬ same a b → differs)) ∧
      (∀ a b c, tk.repl = 2 → tk.replicas = [a, b, c] → sent a → sent b → sent c →
        (same a b → same a c → commits 0 none) ∧ (same a b → ¬ same a c → commits 0 (some 2)) ∧
        (¬ same a b → same a c → commits 0 (some 1)) ∧ (¬ same a b → ¬ same a c → same b c → commits 1 (some 0)) ∧
        (tk.members ≠ [] → ¬ same a b → ¬ same a c → ¬ same b c → differs)) ∧
      ∀ f : FaultInfo, tk.replicas ≠ [] → (∀ (k : Nat) (r : Replica), tk.replicas[k]? = some r → r.stopped = some { f with replica := k } ∧ r.more = []) →
        exec .parapetDecision s = .next ((s.recordFault t { f with replica := 3 }).halt t)) ∧
    ((∀ r ∈ tk.replicas, r.charge ≤ tk.budget) → exec .deadlineFault s = .next s) ∧
    (∀ r ∈ tk.replicas, tk.budget < r.charge → (∀ x ∈ tk.replicas, x.charge ≤ r.charge) → r.holding = true → tk.state = .running →
      (tk.commit = .none → tk.before = none → (∀ x ∈ tk.replicas, x.atBarrier = false) → ∃ f, f.cause = 0x0A ∧ f.cls = 0 ∧ f.stream = 4 ∧
        f.unit = 13 ∧ f.pc = 0 ∧ f.addr = BitVec.ofNat 64 r.charge ∧
        exec .deadlineFault s = .next ((s.recordDiscard t tk f).halt t)) ∧
      (∀ k w, tk.before = none → tk.commit = .step2 k w → tk.ending = none →
        (s.logged t = true → tk.termReq = false → w.head? ≠ some .failed → ∃ (s1 : State) (tk1 : Task), exec .deadlineFault s = .next s1 ∧ s1.tasks[t]? = some tk1 ∧
          tk1.state = .suspended ∧ tk1.commitPending = true ∧ tk1.commit = .step2 k w) ∧
        (s.logged t = false → w = [] → exec .deadlineFault s = .next (s.commitFinish t k)))) ∧
    (tk.pre = false ∨ 3 ≤ tk.discards ∨ tk.state ≠ .running → exec .preemptionDiscard s = .next s) ∧
    (tk.pre = true → tk.discards < 3 → tk.state = .running →
      ((tk.commit ≠ .none ∨ (∀ r ∈ tk.replicas, r.atBarrier = true) ∨ ∃ k < tk.replicas.length, tk.begun k = true) →
        exec .preemptionDiscard s = .next (s.putTask t { tk with preemptReq := true })) ∧
      (tk.commit = .none → (∃ r ∈ tk.replicas, r.atBarrier = false) → (∀ k < tk.replicas.length, tk.begun k = false) →
        ∃ (s1 : State) (tk1 : Task), exec .preemptionDiscard s = .next s1 ∧
        s1.tasks[t]? = some tk1 ∧ s1.mem = s.mem ∧ tk1.state = .ready ∧ tk1.discards = tk.discards + 1 ∧
        (∀ (i : Nat) (r : Replica), tk.replicas[i]? = some r → ∃ x : Replica, tk1.replicas[i]? = some x ∧ x.charge = r.chargeOrigin) ∧
        ∀ (i : Nat) (m : Member), tk.members[i]? = some m → ∃ b : Member, tk1.members[i]? = some b ∧ b.g = m.ckpt.g ∧ b.v = m.ckpt.v ∧ b.d = m.ckpt.d ∧
          b.stores = m.stores))

/-! ## Launch records, recovery and dispatch -/

/-- R403, R404, R405: TASK is accepted as a READY task, or waits for room in its pool. R409, R410, R10, R11: GRAPH starts its nodes without
predecessors, waits for room in the graph table, or is refused where its edges do not hold; PATCH writes the area of the other generation and flips GEN, or
waits. R406: FENCE waits for earlier launches where its record says so and invalidates TLB entries; R415: TIMED writes its entry; R407: SIGNAL adds
to a barrier object and is discarded for anything else; R441: POWER sets the accepted state, from the host and a queue with ADMIN only, and the spans on which
nothing runs take it at once. A record with
reserved bits set, or of a disabled context, is discarded and counted in BAD.
[The model's own: log 28, 29, 30, 41.] -/
def Obligations.LaunchRecords : Prop :=
  ∀ (s : State) (q : Nat) (e : QEntry) (r : BitVec 512), e.tt = none →
    let x := s.queueAt q
    let irq := recIrq r
    let waits (i : Instr) := exec i s = .next (s.modQueue q fun y => { y with hwait := true })
    (∀ i kind, (i, kind) ∈ [(Instr.task, 1), (.graph, 2), (.patch, 3), (.fenceRecord, 4), (.timed, 5), (.signal, 6), (.resume, 7),
        (.resumeChannel, 8), (.terminate, 9), (.power, 10)] → s.arg = .num q → x.entries.head? = some e →
      (e.record = none → exec i s = .next s) ∧
      (e.record = some r → recKind r ≠ kind → exec i s = .next s) ∧
      (e.record = some r → recKind r = kind → r.extractLsb' 5 27 ≠ 0#27 ∨ s.ctxEn x.ctx = false → exec i s = .next (discarded s q))) ∧
    (HeadRecord s q 1 e r →
      let need := poolNeed ((s.ctxNat x.ctx (recWord r 1) 128).getD 0)
      let ok := recWord r 1 % 128 = 0 ∧ recWord r 2 % 16 = 0 ∧ recWord r 3 % 64 = 0 ∧ recTail r = 0
      (¬ ok → exec .task s = .next (discarded s q)) ∧
      (ok → s.poolRoom x.ctx need = false → waits .task) ∧
      (ok → s.poolRoom x.ctx need = true → ∃ tk : Task, exec .task s = .next { accepted s q 1 with tasks := s.tasks ++ [tk] } ∧
        tk.state = .ready ∧ tk.seq = s.nextSeq ∧ tk.queue = q ∧ tk.ctx = x.ctx ∧ tk.tag = recTag r ∧ tk.irq = irq ∧
        tk.hdrVA.toNat = recWord r 1 ∧ tk.param.toNat = recWord r 2 ∧ tk.compl.toNat = recWord r 3 ∧ tk.members = [] ∧ tk.graph = none ∧
        tk.poolBytes = need)) ∧
    (HeadRecord s q 2 e r → recWord r 1 % 64 = 0 → recWord r 2 = 0 → recWord r 3 % 64 = 0 → recTail r = 0 →
      let va := recWord r 1
      let seen := s.liveImages.contains (x.ctx, va) = true
      let a := accepted s q 2
      (¬ seen → Config.graphTable ≤ s.liveImages.length → waits .graph) ∧
      (∀ g es, (seen ∨ s.liveImages.length < Config.graphTable) → s.poolRoom x.ctx (poolNeed 0) = true →
        a.graphImage x.ctx va = some (g, true) → a.graphEdges x.ctx va g = some es →
        let roots := (List.range g.nnode).filter fun v => es.all fun d => d.2 != v
        (graphSound g.nnode es = true → ∃ (s1 : State) (g1 : Graph) (new : List Task), exec .graph s = .next s1 ∧
          s1.graphs = s.graphs ++ [g1] ∧ g1.seq = s.nextSeq ∧ g1.edges = es ∧ g1.liveNodes = roots ∧ g1.gen = g.gen ∧
          s1.tasks = s.tasks ++ new ∧ new.map (·.node) = roots ∧ ∀ k ∈ new, k.state = .ready ∧ k.seq = s.nextSeq ∧ k.graph = some s.graphs.length) ∧
        (graphSound g.nnode es = false → ∃ (s1 : State) (g1 : Graph), exec .graph s = .next s1 ∧ s1.tasks = s.tasks ∧
          s1.graphs = s.graphs ++ [g1] ∧ g1.refused = true ∧ g1.retired = true))) ∧
    (HeadRecord s q 3 e r → recWord r 1 % 64 = 0 → recWord r 2 % 16 = 0 → recWord r 3 = 0 → recTail r = 0 →
      ∀ g, s.graphImage x.ctx (recWord r 1) = some (g, true) →
      let va := recWord r 1
      let other := 1 - g.gen
      let used := ∃ k ∈ s.graphs, k.retired = false ∧ k.ctx = x.ctx ∧ k.image = va ∧ k.gen = other
      (used → waits .patch) ∧
      ∀ bs sa sb, ¬ used → s.ctxRead x.ctx (recWord r 2) g.psz = some bs → s.ctxWrite x.ctx (va + g.parea + other * g.psz) bs = some sa →
        sa.ctxWrite x.ctx (va + 36) (leBytes 4 other) = some sb → exec .patch s = .next ((accepted sb q 3).interrupt q irq)) ∧
    (HeadRecord s q 4 e r → recWord r 1 < 4 → recWord r 2 = 0 → recWord r 3 = 0 → recTail r = 0 →
      let busy := (∃ k ∈ s.tasks, k.queue = q ∧ k.graph = none ∧ k.ending = none) ∨ ∃ g ∈ s.graphs, g.queue = q ∧ g.retired = false
      (2 ≤ recWord r 1 → busy → waits .fenceRecord) ∧
      (recWord r 1 < 2 ∨ ¬ busy →
        (recWord r 1 % 2 = 0 → exec .fenceRecord s = .next ((accepted s q 4).interrupt q irq)) ∧
        (recWord r 1 % 2 = 1 → ∃ s1 : State, exec .fenceRecord s = .next ((accepted s1 q 4).interrupt q irq) ∧ s1.mem = s.mem ∧
          s1.tasks.length = s.tasks.length ∧
          (∀ k ∈ s1.tasks, ∀ m ∈ k.members, ∀ t ∈ m.tlbC ++ m.tlbL ++ m.tlbS, t.ctx ≠ x.ctx) ∧
          (∀ k ∈ s1.cores, ∀ t ∈ k.2.tlbC ++ k.2.tlbL ++ k.2.tlbS, t.ctx ≠ x.ctx) ∧
          ∀ ln, ((∃ k ∈ s1.tasks, ∃ m ∈ k.members, ln ∈ m.l1) ∨ ∃ k ∈ s1.cores, ln ∈ k.2.l1) → ln.ctx ≠ x.ctx ∧
            ∀ t ∈ s.xlat, t.ctx = x.ctx → s.leafOf (s.ctxRoot x.ctx) t.va ≠ some t.leaf →
              within ln.pa t.leaf.base t.leaf.size = false))) ∧
    (HeadRecord s q 5 e r → recWord r 1 < 4096 → recWord r 2 = 0 → recWord r 3 = 0 → recWord r 4 < 2 ^ 19 → recWord r 7 % 64 = 0 →
      (s.queueAt (recWord r 4 / 16)).ctx = x.ctx → s.mem.wf = true →
      ∃ s0 : State, s0 = { s with mem := s0.mem, past := s0.past, unmapped := s0.unmapped, hbm := s0.hbm } ∧
        wroteAt s.mem s0.mem (s.ttAddr (recWord r 1)) (leBytes 8 (recWord r 4 / 16 * 16 + recWord r 4 % 4) ++ leBytes 8 (recWord r 5 % 2 ^ 48)
          ++ leBytes 8 (recWord r 6) ++ leBytes 8 (recWord r 7)) ∧
        exec .timed s = .next ((accepted { s0 with ttNext := s.ttNext.put (recWord r 1) s.time.ns } q 5).interrupt q irq)) ∧
    (HeadRecord s q 6 e r → recWord r 1 % 64 = 0 → recWord r 3 = 0 → recTail r = 0 →
      (s.ctxPa x.ctx (recWord r 1) true = none → exec .signal s = .next (discarded s q)) ∧
      ∀ pa, s.ctxPa x.ctx (recWord r 1) true = some pa →
        (s.objectOk pa = true → s.loadNat pa 1 = 2 →
          exec .signal s = .next (((accepted s q 6).barrierAdd pa (recWord r 2)).interrupt q irq)) ∧
        (s.objectOk pa = false ∨ s.loadNat pa 1 ≠ 2 → exec .signal s = .next (discarded s q))) ∧
    (HeadRecord s q 10 e r → recWord r 2 = 0 → recWord r 3 = 0 → recTail r = 0 →
      let ok := e.writer = .host ∧ x.cfg.getLsbD 13 = true ∧ recWord r 1 < 8
      (¬ ok → exec .power s = .next (discarded s q)) ∧
      (ok → ∃ s1 : State, exec .power s = .next s1 ∧ s1.power.accepted = recWord r 1 ∧ s1.power.spans = s.power.spans ∧ s1.mem = s.mem ∧
        ((∀ p ∈ s.power.spans, p = recWord r 1) → s1.power.irqs = []) ∧
        ((∃ p ∈ s.power.spans, p ≠ recWord r 1) → s1.irqs = s.irqs ∧ (s1.power.irqs = s.power.irqs ++ if irq then [q] else []) ∧
          ∀ i < s.power.spans.length, (∀ k ∈ s.tasks, k.placed = true → ∀ m ∈ k.members, m.core / 8 ≠ i) →
            Turn.event ⟨0, 0, .c, .issue, 0, 0, 0⟩ (.num i) .spanPowerChange ∈ s1.agenda)))

/-- R339, R67: a recovery record of a task that is not its context's recovery service is refused with a privilege notice; one of the host, or of a
task that is, is performed. R340: RESUME, the return from a fault,
makes a suspended task READY with its budget renewed and its holds released. R341: RESUME-CHANNEL sets the commands that hold in a unit of a rank to
work again. R342, R12: TERMINATE ends a task, after the commit in progress where there is one, or fails a node that has not been launched.
[The model's own: log 48.] -/
def Obligations.RecoveryRecords : Prop :=
  ∀ (s : State) (q : Nat) (e : QEntry) (r : BitVec 512), e.tt = none →
    let x := s.queueAt q
    let ctx := x.ctx
    let irq := recIrq r
    let named (u seq node : Nat) := ∃ k, s.tasks[u]? = some k ∧ k.seq = seq ∧ k.node = node ∧ k.ctx = ctx
    let target (t : Nat) (tk : Task) (seq node : Nat) := s.tasks[t]? = some tk ∧ named t seq node ∧ ∀ u < t, ¬ named u seq node
    (∀ i kind w (k : Task), (i, kind) ∈ [(Instr.resume, 7), (.resumeChannel, 8), (.terminate, 9)] → HeadRecord s q kind e r →
      recWord r 2 < 2 ^ 16 → recWord r 3 = 0 → recTail r = 0 → e.writer = .task w → s.tasks[w]? = some k →
      s.ctxField ctx 40 8 = 0 ∨ k.hdrVA.toNat ≠ s.ctxField ctx 40 8 →
      ∃ f : FaultInfo, f.cause = 2 ∧ f.cls = 3 ∧ f.unit = 13 ∧ f.replica = (if k.replicated = true then 3 else 0) ∧
        exec i s = .next (((accepted s q kind).recordFault w f).interrupt q irq)) ∧
    let allowed := e.writer = .host ∨ ∃ (w : Nat) (k : Task), e.writer = .task w ∧ s.tasks[w]? = some k ∧ s.ctxField ctx 40 8 ≠ 0 ∧
      k.hdrVA.toNat = s.ctxField ctx 40 8
    (allowed → recTail r = 0 →
      (∀ t tk, HeadRecord s q 7 e r → recWord r 2 < 2 ^ 16 → recWord r 3 < 2 ^ 40 → target t tk (recWord r 1) (recWord r 2) →
        (tk.state ≠ .suspended ∨ tk.fatal = true → exec .resume s = .next ((accepted s q 7).interrupt q irq)) ∧
        (tk.state = .suspended → tk.fatal = false → s.slog = [] → ∃ (s1 : State) (tk1 : Task), exec .resume s = .next (s1.interrupt q irq) ∧
          s1.tasks[t]? = some tk1 ∧ s1.mem = s.mem ∧ tk1.state = .ready ∧
          tk1.budget = (if recWord r 3 = 0 then tk.budget else recWord r 3) ∧
          tk1.members = tk.members.map (fun m => { m with held := m.held.map fun h => { h with released := true } }) ∧
          ∀ u, u ≠ t → s1.tasks[u]? = s.tasks[u]?)) ∧
      (∀ t tk rank u, HeadRecord s q 8 e r → recWord r 2 < 2 ^ 23 → recWord r 3 = 0 → rank = recWord r 2 / 2 ^ 16 % 8 →
        u = recWord r 2 / 2 ^ 19 % 16 → 5 ≤ u → u ≤ 11 → target t tk (recWord r 1) (recWord r 2 % 2 ^ 16) → tk.fatal = false →
        (∃ m ∈ tk.members, m.rank = rank ∧ ∃ c ∈ m.cmds, c.isHeld = true ∧ c.unit = u) →
        ∃ (s1 : State) (tk1 : Task), exec .resumeChannel s = .next (s1.interrupt q irq) ∧ s1.tasks[t]? = some tk1 ∧ s1.mem = s.mem ∧
          tk1.state = (if tk.state = .suspended then .ready else tk.state) ∧
          ∀ (i : Nat) (m : Member), tk.members[i]? = some m → ∃ b : Member, tk1.members[i]? = some b ∧
            (m.rank ≠ rank → b = m) ∧ (m.rank = rank → b = { m with cmds := b.cmds, held := b.held } ∧
              b.cmds = m.cmds.map fun c => if c.isHeld = true ∧ c.unit = u then { c with state := .active s.cycle } else c)) ∧
      (HeadRecord s q 9 e r → recWord r 2 < 2 ^ 16 → recWord r 3 = 0 →
        (∀ t tk, target t tk (recWord r 1) (recWord r 2) →
          (tk.ending ≠ none → exec .terminate s = .next ((accepted s q 9).interrupt q irq)) ∧
          (tk.ending = none → tk.commit = .none ∨ tk.state ≠ .running → ∃ (s1 : State) (tk1 : Task), exec .terminate s = .next s1 ∧
            s1.tasks[t]? = some tk1 ∧ tk1.state = .failed ∧ tk1.ending = some .terminated) ∧
          (∀ k w, tk.ending = none → tk.state = .running → tk.termReq = false → tk.commit = .step2 k w → w.head? ≠ some .failed → s.logged t = true →
            ∃ (s1 : State) (tk1 : Task), exec .terminate s = .next s1 ∧ s1.tasks[t]? = some tk1 ∧ tk1.state = .failed ∧
              tk1.ending = some .terminated) ∧
          (tk.ending = none → tk.commit = .deciding → tk.state = .running →
            exec .terminate s = .next (((accepted s q 9).putTask t { tk with termReq := true }).interrupt q irq))) ∧
        ((∀ u, ¬ named u (recWord r 1) (recWord r 2)) → ∀ (gi : Nat) (g : Graph), s.graphs[gi]? = some g → g.ctx = ctx → g.seq = recWord r 1 → g.retired = false →
          recWord r 2 < g.nnode → recWord r 2 ∉ g.doneNodes → recWord r 2 ∉ g.liveNodes → recWord r 2 ∉ g.failedNodes →
          ∃ s1 : State, exec .terminate s = .next s1 ∧ s1.tasks = s.tasks ∧
            s1.graphs[gi]? = some { g with failedNodes := g.failedNodes ++ [recWord r 2] })))

/-- R412, R413, R312, R2: TASK_PLACEMENT takes the first READY task in the order of dispatch that need not wait; it is put on its cores, before an alignment
barrier, or refused. A placement gives every crew its cores in one span in service, each healthy, free and not reserved, and replicas different
dies. R414: PLACEMENT_RESERVATION reserves for the first task unplaceable for PDELAY. R416: TIMED_SLOT_FIRE fires for the slots device time has passed. R441:
SPAN_POWER_CHANGE changes an idle span and sends the waiting interrupts with the last one.
[The model's own: log 5, 42, 47, 49, 58.] -/
def Obligations.Dispatch : Prop :=
  (∀ (s : State) (p t : Nat) (tk : Task) (cores : List (List Nat)), s.firstAttempt = some (p, t, .go tk cores) →
    s.claimsOf t tk cores = [] → tk.commitPending = false →
    ∃ (s1 : State) (tk1 : Task), exec .taskPlacement s = .next s1 ∧ s1.tasks[t]? = some tk1 ∧ tk1.state = .placing ∧ tk1.hdr = tk.hdr ∧
      tk1.members.length = tk.members.length ∧ ∀ r ∈ tk1.replicas, r.atBarrier = true ∧ r.holding = false ∧ s.cycle < r.origin) ∧
  (∀ (s : State) (p t c a : Nat), s.firstAttempt = some (p, t, .refuse c a) → ∃ (s1 : State) (tk1 : Task), exec .taskPlacement s = .next s1 ∧
    s1.tasks[t]? = some tk1 ∧ tk1.state = .failed ∧ tk1.ending = some .refused) ∧
  (∀ s : State, s.firstAttempt = none → exec .taskPlacement s = .next s) ∧
  (∀ (s : State) (p t : Nat) (a : Attempt), s.firstAttempt = some (p, t, a) → s.attempt t false = a ∧ a ≠ .wait ∧
    ∃ l r, s.dispatchOrder = l ++ (p, t) :: r ∧ ∀ y ∈ l, s.attempt y.2 false = .wait) ∧
  (∀ (s : State) (t : Nat) (tk : Task) (cores : List (List Nat)), tk.repl ≤ 2 → s.placement t tk false = some cores →
    cores.length = tk.nrepl ∧
    (∀ l ∈ cores, l.length = tk.crew ∧ l.Nodup ∧ ∃ span < 32, s.spanServes span = true ∧
      ∀ c ∈ l, c / 8 = span ∧ s.healthy c = true ∧ s.busyFor t c = false ∧ s.reservedFrom t c = false) ∧
    cores.Pairwise fun a b => ∀ c ∈ a, ∀ d ∈ b, c / 64 ≠ d / 64) ∧
  (∀ (s : State) (p t : Nat) (rest : List (Nat × Nat)) (tk k : Task) (cores : List (List Nat)),
    (s.reserve ≠ none → exec .placementReservation s = .next s) ∧
    (s.reserve = none → s.dispatchOrder = (p, t) :: rest → s.tasks[t]? = some k → s.attempt t false = .wait → s.attempt t true = .go tk cores →
      k.unplaced + s.regs.pdelay.toNat ≤ s.time.ns →
      exec .placementReservation s = .next { s with reserve := some ⟨t, cores.flatten⟩ })) ∧
  (∀ period phase a b : Nat, 0 < period → a ≤ b → ∃ k0 : Int, ∀ k : Int,
    (a ≤ phase + k * period ∧ phase + k * period ≤ b) ↔ (k0 ≤ k ∧ k < k0 + slotsIn period phase a b)) ∧
  (∀ (s : State) (i : Nat), s.arg = .num i →
    let s0 : State := { s with ttNext := s.ttNext.put i (s.time.ns + 1) }
    let q := s.ttQueue i
    (s.ttDue i = 0 → exec .timedSlotFire s = .next s) ∧
    (s.ttDue i = 1 →
      (s.ttBit i 3 = true → s.ttBit i 1 = true → s.ttBit i 2 = false → exec .timedSlotFire s = .next (s0.ttSet i 2 true)) ∧
      (s.ttBit i 3 = true → s.ttBit i 1 = false ∨ s.ttBit i 2 = true → exec .timedSlotFire s = .next (s0.ttSkip i 1)) ∧
      ∀ bs, s.ttBit i 3 = false → s.ctxRead (s.queueAt q).ctx (s.loadNat (s.ttAddr i + 24) 8) 64 = some bs →
        (recKind (BitVec.ofNat 512 (leNat bs)) = 1 ∨ recKind (BitVec.ofNat 512 (leNat bs)) = 2) →
        (s.queueAt q).cfg.getLsbD 0 = true → (s.queueAt q).entries.length < (s.queueAt q).depth →
        exec .timedSlotFire s = .next ((s0.modQueue q fun x =>
          { x with entries := x.entries ++ [⟨some (BitVec.ofNat 512 (leNat bs)), .host, none, some i⟩] }).ttSet i 3 true))) ∧
  ∀ (s : State) (span : Nat), s.arg = .num span →
    let idle := ∀ k ∈ s.tasks, k.placed = true → ∀ m ∈ k.members, m.core / 8 ≠ span
    let spans := s.power.spans.set span s.power.accepted
    (¬ idle → exec .spanPowerChange s = .next s) ∧
    (idle → (∃ p ∈ spans, p ≠ s.power.accepted) → exec .spanPowerChange s = .next { s with power := { s.power with spans := spans } }) ∧
    (idle → (∀ p ∈ spans, p = s.power.accepted) → exec .spanPowerChange s =
      .next { s with power := { s.power with spans := spans, irqs := [] }, irqs := s.irqs ++ s.power.irqs.map fun v => (s.queueAt v).vec })

/-! ## The host, device time, the fabric, management -/

/-- R397, R399: a whole record written into the port of an enabled queue with room becomes its last entry; else DROPS counts, and BAD for any other write. R398, R394,
R432: a status write clears its counters. R398, R400: BAR2 registers; CTXBASE and TTBASE only while no queue is enabled, and no queue is
enabled before the boot has ended (R436). R295, R389, R411: a host write to memory it reaches, in a stack that has not failed.
[The model's own: log 31, 57.] -/
def Obligations.HostWrites : Prop :=
  ∀ s : State,
    let put (q : Nat) (y : Queue) : State := { s with queues := s.queues.put q y }
    (∀ q whole rec, s.arg = .portWrite q whole rec → q < 2 ^ 15 →
      let y := s.queueAt q
      (whole = false → exec .launchPortWrite s = .next (put q { y with bad := min (y.bad + 1) 65535 })) ∧
      (whole = true → y.cfg.getLsbD 0 = true → y.entries.length < y.depth →
        exec .launchPortWrite s = .next (put q { y with entries := y.entries ++ [⟨some rec, .host, none, none⟩] })) ∧
      (whole = true → y.cfg.getLsbD 0 = false ∨ y.depth ≤ y.entries.length →
        exec .launchPortWrite s = .next (put q { y with drops := min (y.drops + 1) 65535 }))) ∧
    (∀ n, s.arg = .num n →
      (n < 2 ^ 15 → exec .qstatWrite s = .next (put n { s.queueAt n with drops := 0, bad := 0 })) ∧
      exec .hbmStatusWrite s = .next { s with hbm := s.hbm.modify n fun st => { st with ce := 0, ue := 0 } } ∧
      exec .portStatusWrite s = .next { s with fabric := { s.fabric with
        ports := s.fabric.ports.modify n fun x => { x with replay := 0, crcerr := 0, timeout := 0 } } }) ∧
    (∀ off val, s.arg = .reg off val →
      let open_ := ∃ x ∈ s.queues, x.2.cfg.getLsbD 0 = true
      (off = 0x00 → (open_ → exec .registerWrite s = .next s) ∧
        (¬ open_ → exec .registerWrite s = .next { s with regs := { s.regs with ctxbase := val } })) ∧
      (off = 0x08 → (open_ → exec .registerWrite s = .next s) ∧
        (¬ open_ → exec .registerWrite s = .next { s with regs := { s.regs with ttbase := val } })) ∧
      (off = 0x10 → exec .registerWrite s = .next { s with regs := { s.regs with agep := val.extractLsb' 0 32 } }) ∧
      (off = 0x18 → exec .registerWrite s = .next { s with regs := { s.regs with pdelay := val.extractLsb' 0 32 } }) ∧
      ∀ q < 2 ^ 15, off = 0x100000 + 32 * q → ∃ v : W64, exec .registerWrite s = .next (put q { s.queueAt q with cfg := v }) ∧
        (∀ i < 64, v.getLsbD i = (val.getLsbD i && decide (i < 38) && (decide (i ≠ 0) || decide (s.mgmt.boot = .ready))))) ∧
    ∀ pa bytes, s.arg = .hostWrite pa bytes →
      let reach := ∀ i < bytes.length, ((pa + i) / 2 ^ 36 < 12 ∧ (pa + i) % 2 ^ 36 < 62000000000) ∨ (2 ^ 51 ≤ pa + i ∧ pa + i < 2 ^ 52)
      (¬ reach ∨ s.canWrite pa bytes.length = false → exec .hostMemoryWrite s = .next s) ∧
      (reach → s.canWrite pa bytes.length = true → s.mem.wf = true → ∃ s1 : State, exec .hostMemoryWrite s = .next s1 ∧
        s1 = { s with mem := s1.mem, past := s1.past, unmapped := s1.unmapped, hbm := s1.hbm } ∧ wroteAt s.mem s1.mem pa bytes)

/-- R252, R362, R377: the tick count never falls; LEASE_REBASE moves the base by 32,768 and every EXP and LAGE down with it; LEASE_EXPIRY ends the
leases whose EXP is at or below NOW and no other; DEVICE_TIME_STEP moves device time. R429: a TIME_MESSAGE of the configured reference sets device time
and may bring the unit in sync. R429, R431: SYNC_LOSS leaves sync once the offset or the age is too large.
[The model's own: log 42, 44, 49.] -/
def Obligations.TimeAndLeases : Prop :=
  ∀ s : State,
    let due := max s.time.tick (s.time.ns / 1024)
    (due < s.time.base + 32768 → exec .leaseRebase s = .next s) ∧
    (s.time.base + 32768 ≤ due → exec .leaseRebase s = .next { s with
      time := { s.time with base := s.time.base + 32768, tick := max s.time.tick (s.time.base + 32768) }
      store := { s.store with
        leases := s.store.leases.map fun l => { l with exp := l.exp - 32768 }
        nodes := s.store.nodes.map fun p => (p.1, { p.2 with lage := p.2.lage - 32768 }) } }) ∧
    (s.time.base < due / 32768 * 32768 → exec .leaseExpiry s = .next s) ∧
    (due / 32768 * 32768 ≤ s.time.base → s.store.leases.Pairwise (fun a b => a.id ≠ b.id) →
      ∃ s1 : State, exec .leaseExpiry s = .next s1 ∧ s1.time = { s.time with tick := due } ∧ s1.mem = s.mem ∧ s1.tasks = s.tasks ∧
        ∀ l, l ∈ s1.store.leases ↔ l ∈ s.store.leases ∧ due - s.time.base < l.exp) ∧
    (∀ d, s.arg = .delta d → ∃ s1 : State, exec .deviceTimeStep s = .next s1 ∧ s1.time.ns = ((s.time.ns : Int) + d).toNat ∧
      s1.time.tick = max s.time.tick (s1.time.ns / 1024) ∧ s1.mem = s.mem ∧ s1.tasks = s.tasks ∧ s1.time.inSync = s.time.inSync) ∧
    (∀ ref sender ns delay offset, s.arg = .timeMsg ref sender ns delay offset →
      let heard := s.mgmt.cfg.timeRef = ref ∧ (ref = .fjostan → s.inDomain sender = true)
      let at_ := if ref = .fjostan then ns + delay else ns
      (¬ heard → exec .timeMessage s = .next s) ∧
      (heard → ∃ s1 : State, exec .timeMessage s = .next s1 ∧ s1.time.ns = at_ ∧ s1.time.lastSync = at_ ∧
        s1.time.offset = offset ∧ s1.time.inSync = (s.time.inSync || decide (offset < 1000)) ∧
        s1.time.tick = max s.time.tick (at_ / 1024))) ∧
    (let lost := s.time.inSync = true ∧ (1000 ≤ s.time.offset ∨ s.time.lastSync + 2 * s.mgmt.cfg.syncInt ≤ s.time.ns)
     (¬ lost → exec .syncLoss s = .next s) ∧
     (lost → s.fabric.held = [] → exec .syncLoss s = .next { s with time := { s.time with inSync := false } }) ∧
     ∀ (l : RemoteLease) (tk : Task) (mem : Member) (c : Cmd) (h : Hdr) (p : PrmRes), lost → s.fabric.held = [l] →
       Served s l.task l.member tk mem c → c.seq = l.cmd → c.instr = .repl h p →
       ∃ s1 : State, exec .syncLoss s = .next s1 ∧ s1.time.inSync = false ∧ remoteEnded s1 l.task l.member c p [4, noneWord, 0, 0])

/-- R423, R424, R425: REGISTER, UNREGISTER and LOOKUP at a name home. R427, R428: RLEASE, RLRENEW, RLFREE and READ at the source, which are denied without a live
lease. R426: HOLDERS with no holder, or one for a list that ends there, completes its RXLOOK. R427, R430: RLGRANT starts the copy or
extends the lease, DATA fills the copy, RLDENY, an answer of another name and an expired lease end it with a miss; a lease is renewed when half its time is gone.
R420: a request unanswered for DIRTO counts as a miss, and an answer that comes later is discarded; DATA under a lease that no READ waits for
changes nothing else. R250, R270: what the end of a copy comes to.
[The model's own: log 23, 43, 44, 55.] -/
def Obligations.DirectoryAndCopies : Prop :=
  ∀ (s : State),
    let me := s.regs.devid
    let sends (s0 s1 : State) (nm : Name) (dest : BitVec 20) (m : Msg) := s1.fabric.outbox = s0.fabric.outbox ++
      ((s0.planeOf nm).map fun pl => (pl, msgVc m, dest, m)).toList
    let fabricOnly (s1 : State) := s1 = { s with fabric := s1.fabric }
    (∀ n d, s.arg = .msg (.register n d) →
      (s.homeOf n ≠ me → exec .register s = .next s) ∧
      (s.homeOf n = me → (s.fabric.homes.find? fun e => e.1 == n) = none → s.fabric.homes.length < Config.nameHomeEntries →
        exec .register s = .next { s with fabric := { s.fabric with homes := s.fabric.homes ++ [(n, [d])] } }) ∧
      ∀ devs, s.homeOf n = me → (s.fabric.homes.find? fun e => e.1 == n) = some (n, devs) →
        (d ∈ devs → exec .register s = .next s) ∧
        (d ∉ devs → 8 ≤ devs.length →
          exec .register s = .next { s with fabric := { s.fabric with dropReg := s.fabric.dropReg + 1 } }) ∧
        (d ∉ devs → devs.length < 8 → ∃ s1, exec .register s = .next s1 ∧ fabricOnly s1 ∧
          ∀ x, x ∈ s1.fabric.holdersOf n ↔ x ∈ devs ∨ x = d)) ∧
    (∀ n d devs, s.arg = .msg (.unregister n d) → s.homeOf n = me → (s.fabric.homes.map (·.1)).Nodup → (n, devs) ∈ s.fabric.homes → devs.Nodup →
      ∃ s1, exec .unregister s = .next s1 ∧ fabricOnly s1 ∧ (∀ x, x ∈ s1.fabric.holdersOf n ↔ x ∈ devs ∧ x ≠ d) ∧
        ∀ n', n' ≠ n → s1.fabric.holdersOf n' = s.fabric.holdersOf n') ∧
    (∀ n asker, s.arg = .msg (.lookup n asker) → ∃ s1, exec .lookup s = .next s1 ∧ fabricOnly s1 ∧
      sends s s1 n asker (.holders n (s.fabric.holdersOf n)) ∧ s1.fabric.homes = s.fabric.homes) ∧
    (∀ nm reader ticks, s.arg = .msg (.rlease nm reader ticks) →
      (s.nodeNamed nm = none → ∃ s1, exec .rlease s = .next s1 ∧ fabricOnly s1 ∧ sends s s1 nm reader (.rldeny nm me false)) ∧
      ∀ k n id s', s.nodeNamed nm = some (k, n) → s.store.nodes.find k = some n → n.inTier 1 = true → n.ldr < 65535 →
        s.leaseId n.name = (some id, s') →
        let e := min (s.nowTick + ticks.toNat) 65535
        ∃ s1, exec .rlease s = .next s1 ∧ storeOnly s s1 ∧ s1.store.leases = s.store.leases ++ [⟨id, k, 1, none, reader, e⟩] ∧
          s1.store.nodes.find k = some { n with ldr := n.ldr + 1, lage := s.nowTick } ∧
          sends s s1 nm reader (.rlgrant nm me (BitVec.ofNat 32 id) (BitVec.ofNat 16 (e - s.nowTick)))) ∧
    (∀ nm reader id ticks off len, s.remoteLease nm reader id = none →
      (s.arg = .msg (.rlrenew nm reader id ticks) → ∃ s1, exec .rlrenew s = .next s1 ∧ fabricOnly s1 ∧ sends s s1 nm reader (.rldeny nm me false)) ∧
      (s.arg = .msg (.rlfree nm reader id) → exec .rlfree s = .next s) ∧
      (s.arg = .msg (.read nm reader id off len) → ∃ s1, exec .read s = .next s1 ∧ fabricOnly s1 ∧ sends s s1 nm reader (.rldeny nm me false))) ∧
    (∀ nm reader id ticks off len l n, s.remoteLease nm reader id = some (l, n) →
      let e := min (s.nowTick + ticks.toNat) 65535
      (s.arg = .msg (.rlrenew nm reader id ticks) → ∃ s1, exec .rlrenew s = .next s1 ∧ storeOnly s s1 ∧
        s1.store.leases = s.store.leases.map (fun x => if x = l then { x with exp := e } else x) ∧
        sends s s1 nm reader (.rlgrant nm me id (BitVec.ofNat 16 (e - s.nowTick)))) ∧
      (s.arg = .msg (.rlfree nm reader id) → ∃ s1, exec .rlfree s = .next s1 ∧ storeOnly s s1 ∧
        s1.store.leases = s.store.leases.filter fun x => x.id != l.id) ∧
      (s.arg = .msg (.read nm reader id off len) → ∃ s1, exec .read s = .next s1 ∧ storeOnly s s1 ∧ s1.store.leases = s.store.leases ∧
        ((s.planeOf nm).isSome = true → ∃ new, s1.fabric.outbox = s.fabric.outbox ++ new ∧ (new.map (·.1)).Nodup ∧
          (∀ y ∈ new, ∃ pl o b, y = (pl, 1, reader, .data nm me id o b) ∧ (s.fabric.ports.getD pl Port.reset).state = 2#2 ∧
            b = ((s.image n).drop o).take b.length) ∧
          (new.flatMap fun y => match y.2.2.2 with
            | .data _ _ _ _ b => b
            | _ => []) = ((s.image n).drop off).take len))) ∧
    (∀ (r : Request) (tk : Task) (mem : Member) (c : Cmd) (p : PrmRes) (h : Hdr), s.fabric.reqs = [r] → s.fabric.late = [] →
      Served s r.task r.member tk mem c → c.seq = r.cmd →
      let missed (i : Instr) := ∃ s1, exec i s = .next s1 ∧ remoteEnded s1 r.task r.member c p [4, noneWord, 0, 0]
      (∀ lse tier rmt devs, c.instr = .rxlook h p lse tier rmt → r.kind = .lookup → s.arg = .msg (.holders r.name devs) →
        let ends (k : Nat) (holder : W32) := ∃ (s1 : State) (b : Member), exec .holders s = .next s1 ∧ s1.fabric.reqs = [] ∧
          s1.member? r.task r.member = some b ∧ (19 < c.out.length → b.cont (4 * p.res.toNat + 5) = ⟨BitVec.ofNat 32 (256 * k), true, false⟩ ∧
            b.cont (4 * p.res.toNat + 6) = ⟨holder, true, false⟩) ∧ ∃ d ∈ b.cmds, d.seq = c.seq ∧ ∃ n, d.state = .moved n
        (devs = [] → c.w 20 = 0 → ends 0 0xFFFFF) ∧
        ∀ d, devs = [d] → c.w 20 = 0 → c.w 22 = 0 → (mem.words (c.w 1) (c.w 2)).length < 256 * (c.w 6 / 256 + 2) → ends 1 (d.zeroExtend 32)) ∧
      (c.instr = .repl h p → r.kind = .rlease →
        (∀ lost, s.arg = .msg (.rldeny r.name r.dest lost) → missed .rldeny) ∧
        (∀ nm id ticks, nm ≠ r.name → s.arg = .msg (.rlgrant nm r.dest id ticks) → missed .rlgrant) ∧
        (∀ id ticks, s.arg = .msg (.rlgrant r.name r.dest id ticks) → s.time.inSync = true → s.time.ns ≤ r.sent + ticks.toNat * 1024 - 4000 →
          ∃ s1, exec .rlgrant s = .next s1 ∧ fabricOnly s1 ∧
            s1.fabric.held = s.fabric.held ++ [⟨r.name, r.dest, id, r.sent, ticks.toNat, r.task, r.member, r.cmd⟩] ∧
            s1.fabric.copies = s.fabric.copies ++ [⟨r.name, r.task, r.member, r.cmd, [], 1296⟩] ∧
            s1.fabric.reqs = [{ r with kind := .read, plane := s.planeOf r.name, sent := s.time.ns, lease := id }] ∧
            sends s s1 r.name r.dest (.read r.name me id 0 1296))) ∧
      (c.instr = .repl h p → r.kind = .read → ∀ (l : RemoteLease) (y : RemoteCopy) id off bytes, s.fabric.held = [l] → s.fabric.copies = [y] →
        l.task = r.task ∧ l.member = r.member ∧ l.cmd = r.cmd → y.task = r.task ∧ y.member = r.member ∧ y.cmd = r.cmd →
        s.arg = .msg (.data r.name r.dest id off bytes) → r.lease = id →
        (s.time.inSync = false ∨ l.sent + l.ticks * 1024 - 4000 < s.time.ns → missed .data) ∧
        (s.time.inSync = true → s.time.ns ≤ l.sent + l.ticks * 1024 - 4000 → y.bytes = [] → off + bytes.length ≤ y.size → bytes.length < y.size →
          ∃ s1 y1, exec .data s = .next s1 ∧ fabricOnly s1 ∧ s1.fabric.copies = [y1] ∧ s1.fabric.reqs = [{ r with sent := s.time.ns }] ∧
            y1.size = y.size ∧ ∀ i, y1.bytes.find i = if off ≤ i ∧ i < off + bytes.length then bytes[i - off]? else none)) ∧
      (c.instr = .repl h p → (s.time.ns < r.sent + 100000 → exec .directoryTimeout s = .next s) ∧
        (r.sent + 100000 ≤ s.time.ns → r.kind ≠ .lookup → ∃ s1, exec .directoryTimeout s = .next s1 ∧
          remoteEnded s1 r.task r.member c p [4, noneWord, 0, 0] ∧ s1.fabric.late = [r] ∧
          ∀ pl x, r.plane = some pl → s.fabric.ports[pl]? = some x →
            (s1.fabric.ports[pl]?).map (·.timeout) = some (min (x.timeout + 1) 65535)))) ∧
    (∀ (l : RemoteLease), s.fabric.held = [l] →
      (s.time.ns ≤ l.sent + l.ticks * 1024 - 4000 → exec .remoteLeaseHolderExpiry s = .next s) ∧
      (∀ (tk : Task) (mem : Member) (c : Cmd) (p : PrmRes) (h : Hdr), l.sent + l.ticks * 1024 - 4000 < s.time.ns →
        Served s l.task l.member tk mem c → c.seq = l.cmd → c.instr = .repl h p →
        ∃ s1, exec .remoteLeaseHolderExpiry s = .next s1 ∧ remoteEnded s1 l.task l.member c p [4, noneWord, 0, 0] ∧
          (s1.fabric.outbox = s.fabric.outbox ++ ((s.planeOf l.name).map fun pl => (pl, 0, l.source, Msg.rlfree l.name me l.id)).toList)) ∧
      (s.fabric.reqs = [] →
        (s.time.ns + l.ticks * 512 ≤ l.sent + l.ticks * 1024 → exec .remoteLeaseRenew s = .next s) ∧
        (l.sent + l.ticks * 1024 < s.time.ns + l.ticks * 512 → ∃ s1, exec .remoteLeaseRenew s = .next s1 ∧ fabricOnly s1 ∧
          s1.fabric.reqs = [⟨l.name, .rlrenew, l.source, s.planeOf l.name, s.time.ns, l.task, l.member, l.cmd, l.id⟩] ∧
          sends s s1 l.name l.source (.rlrenew l.name me l.id 4096)))) ∧
    (∀ (r : Request) id ticks, s.fabric.late = [r] → r.kind = .rlease → (∀ q ∈ s.fabric.reqs, q.kind ≠ .rlrenew) →
      s.arg = .msg (.rlgrant r.name r.dest id ticks) → exec .rlgrant s = .next { s with fabric := { s.fabric with late := [] } }) ∧
    (∀ nm src id off bytes, s.arg = .msg (.data nm src id off bytes) →
      (∀ q ∈ s.fabric.reqs, q.kind = .read → q.dest = src → q.lease ≠ id) → exec .data s = .next { s with fabric := { s.fabric with
        late := s.fabric.late.filter fun r => !(r.kind == .read && r.dest == src && r.lease == id) } }) ∧
    ∀ (t m ctx : Nat) (tk : Task) (mem : Member) (c : Cmd) (p : PrmRes) (h : Hdr) (bytes : List Byte), Served s t m tk mem c →
      c.instr = .repl h p →
      let x := nodeOfImage bytes (BitVec.ofNat 2 (c.w 1)) s.nowTick
      (s.nodeNamed x.2 = none → ∃ s1, s.insertCopy t m ctx c bytes = .next s1 ∧ remoteEnded s1 t m c p [12, noneWord, 0, 0]) ∧
      ∀ k pn, s.nodeNamed x.2 = some (k, pn) → s.permitted ctx pn.root = true → s.bytesIn 1 + x.1.geom.block ≤ Config.storeBytes 1 →
        (∀ e en, s.nodeNamed x.1.name = some (e, en) → en.geom = x.1.geom →
          ∃ s1, s.insertCopy t m ctx c bytes = .next s1 ∧ remoteEnded s1 t m c p [1, BitVec.ofNat 32 e, 0, 0]) ∧
        ∀ f, s.nodeNamed x.1.name = none → s.freeNode = some f → s.store.dieRoom (mem.core / 64) x.1.geom.pages = true →
          ∃ s1 n, s.insertCopy t m ctx c bytes = .next s1 ∧ remoteEnded s1 t m c p [0, BitVec.ofNat 32 f, 0, 0] ∧
            s1.store.nodes.find f = some n ∧ n.name = x.1.name ∧ n.homedev = x.1.homedev ∧ n.res = 2#3
end

