-- ==== Sys2Proof/Laws/State.lean ====
section
/-! SUPPORT. One lemma per field per update of the state, a task, a member and a stream: what the update leaves of the field.
They are simp lemmas, so no later proof unfolds a record update. -/

namespace Sys2Proof.Machine


/-! ## The device -/

@[simp] theorem State.putTask_mem (s : State) (t : Nat) (tk : Task) : (s.putTask t tk).mem = s.mem := rfl
@[simp] theorem State.putTask_past (s : State) (t : Nat) (tk : Task) : (s.putTask t tk).past = s.past := rfl
@[simp] theorem State.putTask_queues (s : State) (t : Nat) (tk : Task) : (s.putTask t tk).queues = s.queues := rfl
@[simp] theorem State.putTask_regs (s : State) (t : Nat) (tk : Task) : (s.putTask t tk).regs = s.regs := rfl
@[simp] theorem State.putTask_nextSeq (s : State) (t : Nat) (tk : Task) : (s.putTask t tk).nextSeq = s.nextSeq := rfl
@[simp] theorem State.putTask_events (s : State) (t : Nat) (tk : Task) : (s.putTask t tk).events = s.events := rfl
@[simp] theorem State.putTask_recs (s : State) (t : Nat) (tk : Task) : (s.putTask t tk).recs = s.recs := rfl
@[simp] theorem State.putTask_graphs (s : State) (t : Nat) (tk : Task) : (s.putTask t tk).graphs = s.graphs := rfl
@[simp] theorem State.putTask_credits (s : State) (t : Nat) (tk : Task) : (s.putTask t tk).credits = s.credits := rfl
@[simp] theorem State.putTask_reserve (s : State) (t : Nat) (tk : Task) : (s.putTask t tk).reserve = s.reserve := rfl
@[simp] theorem State.putTask_irqs (s : State) (t : Nat) (tk : Task) : (s.putTask t tk).irqs = s.irqs := rfl
@[simp] theorem State.putTask_lockq (s : State) (t : Nat) (tk : Task) : (s.putTask t tk).lockq = s.lockq := rfl
@[simp] theorem State.putTask_slog (s : State) (t : Nat) (tk : Task) : (s.putTask t tk).slog = s.slog := rfl
@[simp] theorem State.putTask_nextLog (s : State) (t : Nat) (tk : Task) : (s.putTask t tk).nextLog = s.nextLog := rfl
@[simp] theorem State.putTask_own (s : State) (t : Nat) (tk : Task) : (s.putTask t tk).own = s.own := rfl
@[simp] theorem State.putTask_cores (s : State) (t : Nat) (tk : Task) : (s.putTask t tk).cores = s.cores := rfl
@[simp] theorem State.putTask_xlat (s : State) (t : Nat) (tk : Task) : (s.putTask t tk).xlat = s.xlat := rfl
@[simp] theorem State.putTask_unmapped (s : State) (t : Nat) (tk : Task) : (s.putTask t tk).unmapped = s.unmapped := rfl
@[simp] theorem State.putTask_store (s : State) (t : Nat) (tk : Task) : (s.putTask t tk).store = s.store := rfl
@[simp] theorem State.putTask_time (s : State) (t : Nat) (tk : Task) : (s.putTask t tk).time = s.time := rfl
@[simp] theorem State.putTask_ttNext (s : State) (t : Nat) (tk : Task) : (s.putTask t tk).ttNext = s.ttNext := rfl
@[simp] theorem State.putTask_fabric (s : State) (t : Nat) (tk : Task) : (s.putTask t tk).fabric = s.fabric := rfl
@[simp] theorem State.putTask_hbm (s : State) (t : Nat) (tk : Task) : (s.putTask t tk).hbm = s.hbm := rfl
@[simp] theorem State.putTask_mgmt (s : State) (t : Nat) (tk : Task) : (s.putTask t tk).mgmt = s.mgmt := rfl
@[simp] theorem State.putTask_power (s : State) (t : Nat) (tk : Task) : (s.putTask t tk).power = s.power := rfl
@[simp] theorem State.putTask_cur (s : State) (t : Nat) (tk : Task) : (s.putTask t tk).cur = s.cur := rfl
@[simp] theorem State.putTask_arg (s : State) (t : Nat) (tk : Task) : (s.putTask t tk).arg = s.arg := rfl
@[simp] theorem State.putTask_agenda (s : State) (t : Nat) (tk : Task) : (s.putTask t tk).agenda = s.agenda := rfl
@[simp] theorem State.putTask_inputs (s : State) (t : Nat) (tk : Task) : (s.putTask t tk).inputs = s.inputs := rfl
@[simp] theorem State.putTask_errors (s : State) (t : Nat) (tk : Task) : (s.putTask t tk).errors = s.errors := rfl
@[simp] theorem State.putTask_cycle (s : State) (t : Nat) (tk : Task) : (s.putTask t tk).cycle = s.cycle := rfl
@[simp] theorem State.putTask_free (s : State) (t : Nat) (tk : Task) : (s.putTask t tk).free = s.free := rfl
@[simp] theorem State.putTask_tasks (s : State) (t : Nat) (tk : Task) : (s.putTask t tk).tasks = s.tasks.set t tk := rfl
@[simp] theorem State.stamp_mem (s : State) (e : EventKind) : (s.stamp e).mem = s.mem := rfl
@[simp] theorem State.stamp_past (s : State) (e : EventKind) : (s.stamp e).past = s.past := rfl
@[simp] theorem State.stamp_queues (s : State) (e : EventKind) : (s.stamp e).queues = s.queues := rfl
@[simp] theorem State.stamp_regs (s : State) (e : EventKind) : (s.stamp e).regs = s.regs := rfl
@[simp] theorem State.stamp_recs (s : State) (e : EventKind) : (s.stamp e).recs = s.recs := rfl
@[simp] theorem State.stamp_tasks (s : State) (e : EventKind) : (s.stamp e).tasks = s.tasks := rfl
@[simp] theorem State.stamp_graphs (s : State) (e : EventKind) : (s.stamp e).graphs = s.graphs := rfl
@[simp] theorem State.stamp_credits (s : State) (e : EventKind) : (s.stamp e).credits = s.credits := rfl
@[simp] theorem State.stamp_reserve (s : State) (e : EventKind) : (s.stamp e).reserve = s.reserve := rfl
@[simp] theorem State.stamp_irqs (s : State) (e : EventKind) : (s.stamp e).irqs = s.irqs := rfl
@[simp] theorem State.stamp_lockq (s : State) (e : EventKind) : (s.stamp e).lockq = s.lockq := rfl
@[simp] theorem State.stamp_slog (s : State) (e : EventKind) : (s.stamp e).slog = s.slog := rfl
@[simp] theorem State.stamp_nextLog (s : State) (e : EventKind) : (s.stamp e).nextLog = s.nextLog := rfl
@[simp] theorem State.stamp_own (s : State) (e : EventKind) : (s.stamp e).own = s.own := rfl
@[simp] theorem State.stamp_cores (s : State) (e : EventKind) : (s.stamp e).cores = s.cores := rfl
@[simp] theorem State.stamp_xlat (s : State) (e : EventKind) : (s.stamp e).xlat = s.xlat := rfl
@[simp] theorem State.stamp_unmapped (s : State) (e : EventKind) : (s.stamp e).unmapped = s.unmapped := rfl
@[simp] theorem State.stamp_store (s : State) (e : EventKind) : (s.stamp e).store = s.store := rfl
@[simp] theorem State.stamp_time (s : State) (e : EventKind) : (s.stamp e).time = s.time := rfl
@[simp] theorem State.stamp_ttNext (s : State) (e : EventKind) : (s.stamp e).ttNext = s.ttNext := rfl
@[simp] theorem State.stamp_fabric (s : State) (e : EventKind) : (s.stamp e).fabric = s.fabric := rfl
@[simp] theorem State.stamp_hbm (s : State) (e : EventKind) : (s.stamp e).hbm = s.hbm := rfl
@[simp] theorem State.stamp_mgmt (s : State) (e : EventKind) : (s.stamp e).mgmt = s.mgmt := rfl
@[simp] theorem State.stamp_power (s : State) (e : EventKind) : (s.stamp e).power = s.power := rfl
@[simp] theorem State.stamp_cur (s : State) (e : EventKind) : (s.stamp e).cur = s.cur := rfl
@[simp] theorem State.stamp_arg (s : State) (e : EventKind) : (s.stamp e).arg = s.arg := rfl
@[simp] theorem State.stamp_agenda (s : State) (e : EventKind) : (s.stamp e).agenda = s.agenda := rfl
@[simp] theorem State.stamp_inputs (s : State) (e : EventKind) : (s.stamp e).inputs = s.inputs := rfl
@[simp] theorem State.stamp_errors (s : State) (e : EventKind) : (s.stamp e).errors = s.errors := rfl
@[simp] theorem State.stamp_cycle (s : State) (e : EventKind) : (s.stamp e).cycle = s.cycle := rfl
@[simp] theorem State.stamp_free (s : State) (e : EventKind) : (s.stamp e).free = s.free := rfl
@[simp] theorem State.stamp_nextSeq (s : State) (e : EventKind) : (s.stamp e).nextSeq = s.nextSeq + 1 := rfl
@[simp] theorem State.stamp_events (s : State) (e : EventKind) : (s.stamp e).events = s.events ++ [(s.nextSeq, e)] := rfl
@[simp] theorem State.modQueue_mem (s : State) (q : Nat) (g : Queue → Queue) : (s.modQueue q g).mem = s.mem := rfl
@[simp] theorem State.modQueue_past (s : State) (q : Nat) (g : Queue → Queue) : (s.modQueue q g).past = s.past := rfl
@[simp] theorem State.modQueue_regs (s : State) (q : Nat) (g : Queue → Queue) : (s.modQueue q g).regs = s.regs := rfl
@[simp] theorem State.modQueue_nextSeq (s : State) (q : Nat) (g : Queue → Queue) : (s.modQueue q g).nextSeq = s.nextSeq := rfl
@[simp] theorem State.modQueue_events (s : State) (q : Nat) (g : Queue → Queue) : (s.modQueue q g).events = s.events := rfl
@[simp] theorem State.modQueue_recs (s : State) (q : Nat) (g : Queue → Queue) : (s.modQueue q g).recs = s.recs := rfl
@[simp] theorem State.modQueue_tasks (s : State) (q : Nat) (g : Queue → Queue) : (s.modQueue q g).tasks = s.tasks := rfl
@[simp] theorem State.modQueue_graphs (s : State) (q : Nat) (g : Queue → Queue) : (s.modQueue q g).graphs = s.graphs := rfl
@[simp] theorem State.modQueue_credits (s : State) (q : Nat) (g : Queue → Queue) : (s.modQueue q g).credits = s.credits := rfl
@[simp] theorem State.modQueue_reserve (s : State) (q : Nat) (g : Queue → Queue) : (s.modQueue q g).reserve = s.reserve := rfl
@[simp] theorem State.modQueue_irqs (s : State) (q : Nat) (g : Queue → Queue) : (s.modQueue q g).irqs = s.irqs := rfl
@[simp] theorem State.modQueue_lockq (s : State) (q : Nat) (g : Queue → Queue) : (s.modQueue q g).lockq = s.lockq := rfl
@[simp] theorem State.modQueue_slog (s : State) (q : Nat) (g : Queue → Queue) : (s.modQueue q g).slog = s.slog := rfl
@[simp] theorem State.modQueue_nextLog (s : State) (q : Nat) (g : Queue → Queue) : (s.modQueue q g).nextLog = s.nextLog := rfl
@[simp] theorem State.modQueue_own (s : State) (q : Nat) (g : Queue → Queue) : (s.modQueue q g).own = s.own := rfl
@[simp] theorem State.modQueue_cores (s : State) (q : Nat) (g : Queue → Queue) : (s.modQueue q g).cores = s.cores := rfl
@[simp] theorem State.modQueue_xlat (s : State) (q : Nat) (g : Queue → Queue) : (s.modQueue q g).xlat = s.xlat := rfl
@[simp] theorem State.modQueue_unmapped (s : State) (q : Nat) (g : Queue → Queue) : (s.modQueue q g).unmapped = s.unmapped := rfl
@[simp] theorem State.modQueue_store (s : State) (q : Nat) (g : Queue → Queue) : (s.modQueue q g).store = s.store := rfl
@[simp] theorem State.modQueue_time (s : State) (q : Nat) (g : Queue → Queue) : (s.modQueue q g).time = s.time := rfl
@[simp] theorem State.modQueue_ttNext (s : State) (q : Nat) (g : Queue → Queue) : (s.modQueue q g).ttNext = s.ttNext := rfl
@[simp] theorem State.modQueue_fabric (s : State) (q : Nat) (g : Queue → Queue) : (s.modQueue q g).fabric = s.fabric := rfl
@[simp] theorem State.modQueue_hbm (s : State) (q : Nat) (g : Queue → Queue) : (s.modQueue q g).hbm = s.hbm := rfl
@[simp] theorem State.modQueue_mgmt (s : State) (q : Nat) (g : Queue → Queue) : (s.modQueue q g).mgmt = s.mgmt := rfl
@[simp] theorem State.modQueue_power (s : State) (q : Nat) (g : Queue → Queue) : (s.modQueue q g).power = s.power := rfl
@[simp] theorem State.modQueue_cur (s : State) (q : Nat) (g : Queue → Queue) : (s.modQueue q g).cur = s.cur := rfl
@[simp] theorem State.modQueue_arg (s : State) (q : Nat) (g : Queue → Queue) : (s.modQueue q g).arg = s.arg := rfl
@[simp] theorem State.modQueue_agenda (s : State) (q : Nat) (g : Queue → Queue) : (s.modQueue q g).agenda = s.agenda := rfl
@[simp] theorem State.modQueue_inputs (s : State) (q : Nat) (g : Queue → Queue) : (s.modQueue q g).inputs = s.inputs := rfl
@[simp] theorem State.modQueue_errors (s : State) (q : Nat) (g : Queue → Queue) : (s.modQueue q g).errors = s.errors := rfl
@[simp] theorem State.modQueue_cycle (s : State) (q : Nat) (g : Queue → Queue) : (s.modQueue q g).cycle = s.cycle := rfl
@[simp] theorem State.modQueue_free (s : State) (q : Nat) (g : Queue → Queue) : (s.modQueue q g).free = s.free := rfl
@[simp] theorem State.wrMem_queues (s : State) (pa : Nat) (b : List Byte) : (s.wrMem pa b).queues = s.queues := rfl
@[simp] theorem State.wrMem_regs (s : State) (pa : Nat) (b : List Byte) : (s.wrMem pa b).regs = s.regs := rfl
@[simp] theorem State.wrMem_nextSeq (s : State) (pa : Nat) (b : List Byte) : (s.wrMem pa b).nextSeq = s.nextSeq := rfl
@[simp] theorem State.wrMem_events (s : State) (pa : Nat) (b : List Byte) : (s.wrMem pa b).events = s.events := rfl
@[simp] theorem State.wrMem_recs (s : State) (pa : Nat) (b : List Byte) : (s.wrMem pa b).recs = s.recs := rfl
@[simp] theorem State.wrMem_tasks (s : State) (pa : Nat) (b : List Byte) : (s.wrMem pa b).tasks = s.tasks := rfl
@[simp] theorem State.wrMem_graphs (s : State) (pa : Nat) (b : List Byte) : (s.wrMem pa b).graphs = s.graphs := rfl
@[simp] theorem State.wrMem_credits (s : State) (pa : Nat) (b : List Byte) : (s.wrMem pa b).credits = s.credits := rfl
@[simp] theorem State.wrMem_reserve (s : State) (pa : Nat) (b : List Byte) : (s.wrMem pa b).reserve = s.reserve := rfl
@[simp] theorem State.wrMem_irqs (s : State) (pa : Nat) (b : List Byte) : (s.wrMem pa b).irqs = s.irqs := rfl
@[simp] theorem State.wrMem_lockq (s : State) (pa : Nat) (b : List Byte) : (s.wrMem pa b).lockq = s.lockq := rfl
@[simp] theorem State.wrMem_slog (s : State) (pa : Nat) (b : List Byte) : (s.wrMem pa b).slog = s.slog := rfl
@[simp] theorem State.wrMem_nextLog (s : State) (pa : Nat) (b : List Byte) : (s.wrMem pa b).nextLog = s.nextLog := rfl
@[simp] theorem State.wrMem_own (s : State) (pa : Nat) (b : List Byte) : (s.wrMem pa b).own = s.own := rfl
@[simp] theorem State.wrMem_cores (s : State) (pa : Nat) (b : List Byte) : (s.wrMem pa b).cores = s.cores := rfl
@[simp] theorem State.wrMem_xlat (s : State) (pa : Nat) (b : List Byte) : (s.wrMem pa b).xlat = s.xlat := rfl
@[simp] theorem State.wrMem_store (s : State) (pa : Nat) (b : List Byte) : (s.wrMem pa b).store = s.store := rfl
@[simp] theorem State.wrMem_time (s : State) (pa : Nat) (b : List Byte) : (s.wrMem pa b).time = s.time := rfl
@[simp] theorem State.wrMem_ttNext (s : State) (pa : Nat) (b : List Byte) : (s.wrMem pa b).ttNext = s.ttNext := rfl
@[simp] theorem State.wrMem_fabric (s : State) (pa : Nat) (b : List Byte) : (s.wrMem pa b).fabric = s.fabric := rfl
@[simp] theorem State.wrMem_mgmt (s : State) (pa : Nat) (b : List Byte) : (s.wrMem pa b).mgmt = s.mgmt := rfl
@[simp] theorem State.wrMem_power (s : State) (pa : Nat) (b : List Byte) : (s.wrMem pa b).power = s.power := rfl
@[simp] theorem State.wrMem_cur (s : State) (pa : Nat) (b : List Byte) : (s.wrMem pa b).cur = s.cur := rfl
@[simp] theorem State.wrMem_arg (s : State) (pa : Nat) (b : List Byte) : (s.wrMem pa b).arg = s.arg := rfl
@[simp] theorem State.wrMem_agenda (s : State) (pa : Nat) (b : List Byte) : (s.wrMem pa b).agenda = s.agenda := rfl
@[simp] theorem State.wrMem_inputs (s : State) (pa : Nat) (b : List Byte) : (s.wrMem pa b).inputs = s.inputs := rfl
@[simp] theorem State.wrMem_errors (s : State) (pa : Nat) (b : List Byte) : (s.wrMem pa b).errors = s.errors := rfl
@[simp] theorem State.wrMem_cycle (s : State) (pa : Nat) (b : List Byte) : (s.wrMem pa b).cycle = s.cycle := rfl
@[simp] theorem State.wrMem_free (s : State) (pa : Nat) (b : List Byte) : (s.wrMem pa b).free = s.free := rfl
@[simp] theorem State.wrMem_mem (s : State) (pa : Nat) (b : List Byte) : (s.wrMem pa b).mem = s.mem.setBytes pa b := rfl
@[simp] theorem State.wrMem_past (s : State) (pa : Nat) (b : List Byte) : (s.wrMem pa b).past = ⟨pa, s.mem.bytes pa b.length, none, .core, false⟩ :: s.past := rfl
@[simp] theorem State.noteRead_mem (s : State) (pa n : Nat) : (s.noteRead pa n).mem = s.mem := rfl
@[simp] theorem State.noteRead_past (s : State) (pa n : Nat) : (s.noteRead pa n).past = s.past := rfl
@[simp] theorem State.noteRead_queues (s : State) (pa n : Nat) : (s.noteRead pa n).queues = s.queues := rfl
@[simp] theorem State.noteRead_regs (s : State) (pa n : Nat) : (s.noteRead pa n).regs = s.regs := rfl
@[simp] theorem State.noteRead_nextSeq (s : State) (pa n : Nat) : (s.noteRead pa n).nextSeq = s.nextSeq := rfl
@[simp] theorem State.noteRead_events (s : State) (pa n : Nat) : (s.noteRead pa n).events = s.events := rfl
@[simp] theorem State.noteRead_recs (s : State) (pa n : Nat) : (s.noteRead pa n).recs = s.recs := rfl
@[simp] theorem State.noteRead_tasks (s : State) (pa n : Nat) : (s.noteRead pa n).tasks = s.tasks := rfl
@[simp] theorem State.noteRead_graphs (s : State) (pa n : Nat) : (s.noteRead pa n).graphs = s.graphs := rfl
@[simp] theorem State.noteRead_credits (s : State) (pa n : Nat) : (s.noteRead pa n).credits = s.credits := rfl
@[simp] theorem State.noteRead_reserve (s : State) (pa n : Nat) : (s.noteRead pa n).reserve = s.reserve := rfl
@[simp] theorem State.noteRead_irqs (s : State) (pa n : Nat) : (s.noteRead pa n).irqs = s.irqs := rfl
@[simp] theorem State.noteRead_lockq (s : State) (pa n : Nat) : (s.noteRead pa n).lockq = s.lockq := rfl
@[simp] theorem State.noteRead_slog (s : State) (pa n : Nat) : (s.noteRead pa n).slog = s.slog := rfl
@[simp] theorem State.noteRead_nextLog (s : State) (pa n : Nat) : (s.noteRead pa n).nextLog = s.nextLog := rfl
@[simp] theorem State.noteRead_own (s : State) (pa n : Nat) : (s.noteRead pa n).own = s.own := rfl
@[simp] theorem State.noteRead_cores (s : State) (pa n : Nat) : (s.noteRead pa n).cores = s.cores := rfl
@[simp] theorem State.noteRead_xlat (s : State) (pa n : Nat) : (s.noteRead pa n).xlat = s.xlat := rfl
@[simp] theorem State.noteRead_unmapped (s : State) (pa n : Nat) : (s.noteRead pa n).unmapped = s.unmapped := rfl
@[simp] theorem State.noteRead_store (s : State) (pa n : Nat) : (s.noteRead pa n).store = s.store := rfl
@[simp] theorem State.noteRead_time (s : State) (pa n : Nat) : (s.noteRead pa n).time = s.time := rfl
@[simp] theorem State.noteRead_ttNext (s : State) (pa n : Nat) : (s.noteRead pa n).ttNext = s.ttNext := rfl
@[simp] theorem State.noteRead_fabric (s : State) (pa n : Nat) : (s.noteRead pa n).fabric = s.fabric := rfl
@[simp] theorem State.noteRead_power (s : State) (pa n : Nat) : (s.noteRead pa n).power = s.power := rfl
@[simp] theorem State.noteRead_cur (s : State) (pa n : Nat) : (s.noteRead pa n).cur = s.cur := rfl
@[simp] theorem State.noteRead_arg (s : State) (pa n : Nat) : (s.noteRead pa n).arg = s.arg := rfl
@[simp] theorem State.noteRead_agenda (s : State) (pa n : Nat) : (s.noteRead pa n).agenda = s.agenda := rfl
@[simp] theorem State.noteRead_inputs (s : State) (pa n : Nat) : (s.noteRead pa n).inputs = s.inputs := rfl
@[simp] theorem State.noteRead_errors (s : State) (pa n : Nat) : (s.noteRead pa n).errors = s.errors := rfl
@[simp] theorem State.noteRead_cycle (s : State) (pa n : Nat) : (s.noteRead pa n).cycle = s.cycle := rfl
@[simp] theorem State.noteRead_free (s : State) (pa n : Nat) : (s.noteRead pa n).free = s.free := rfl
@[simp] theorem State.addLog_mem (s : State) (e : LogEntry) : (s.addLog e).mem = s.mem := rfl
@[simp] theorem State.addLog_past (s : State) (e : LogEntry) : (s.addLog e).past = s.past := rfl
@[simp] theorem State.addLog_queues (s : State) (e : LogEntry) : (s.addLog e).queues = s.queues := rfl
@[simp] theorem State.addLog_regs (s : State) (e : LogEntry) : (s.addLog e).regs = s.regs := rfl
@[simp] theorem State.addLog_nextSeq (s : State) (e : LogEntry) : (s.addLog e).nextSeq = s.nextSeq := rfl
@[simp] theorem State.addLog_events (s : State) (e : LogEntry) : (s.addLog e).events = s.events := rfl
@[simp] theorem State.addLog_recs (s : State) (e : LogEntry) : (s.addLog e).recs = s.recs := rfl
@[simp] theorem State.addLog_tasks (s : State) (e : LogEntry) : (s.addLog e).tasks = s.tasks := rfl
@[simp] theorem State.addLog_graphs (s : State) (e : LogEntry) : (s.addLog e).graphs = s.graphs := rfl
@[simp] theorem State.addLog_credits (s : State) (e : LogEntry) : (s.addLog e).credits = s.credits := rfl
@[simp] theorem State.addLog_reserve (s : State) (e : LogEntry) : (s.addLog e).reserve = s.reserve := rfl
@[simp] theorem State.addLog_irqs (s : State) (e : LogEntry) : (s.addLog e).irqs = s.irqs := rfl
@[simp] theorem State.addLog_lockq (s : State) (e : LogEntry) : (s.addLog e).lockq = s.lockq := rfl
@[simp] theorem State.addLog_own (s : State) (e : LogEntry) : (s.addLog e).own = s.own := rfl
@[simp] theorem State.addLog_cores (s : State) (e : LogEntry) : (s.addLog e).cores = s.cores := rfl
@[simp] theorem State.addLog_xlat (s : State) (e : LogEntry) : (s.addLog e).xlat = s.xlat := rfl
@[simp] theorem State.addLog_unmapped (s : State) (e : LogEntry) : (s.addLog e).unmapped = s.unmapped := rfl
@[simp] theorem State.addLog_store (s : State) (e : LogEntry) : (s.addLog e).store = s.store := rfl
@[simp] theorem State.addLog_time (s : State) (e : LogEntry) : (s.addLog e).time = s.time := rfl
@[simp] theorem State.addLog_ttNext (s : State) (e : LogEntry) : (s.addLog e).ttNext = s.ttNext := rfl
@[simp] theorem State.addLog_fabric (s : State) (e : LogEntry) : (s.addLog e).fabric = s.fabric := rfl
@[simp] theorem State.addLog_hbm (s : State) (e : LogEntry) : (s.addLog e).hbm = s.hbm := rfl
@[simp] theorem State.addLog_mgmt (s : State) (e : LogEntry) : (s.addLog e).mgmt = s.mgmt := rfl
@[simp] theorem State.addLog_power (s : State) (e : LogEntry) : (s.addLog e).power = s.power := rfl
@[simp] theorem State.addLog_cur (s : State) (e : LogEntry) : (s.addLog e).cur = s.cur := rfl
@[simp] theorem State.addLog_arg (s : State) (e : LogEntry) : (s.addLog e).arg = s.arg := rfl
@[simp] theorem State.addLog_agenda (s : State) (e : LogEntry) : (s.addLog e).agenda = s.agenda := rfl
@[simp] theorem State.addLog_inputs (s : State) (e : LogEntry) : (s.addLog e).inputs = s.inputs := rfl
@[simp] theorem State.addLog_errors (s : State) (e : LogEntry) : (s.addLog e).errors = s.errors := rfl
@[simp] theorem State.addLog_cycle (s : State) (e : LogEntry) : (s.addLog e).cycle = s.cycle := rfl
@[simp] theorem State.addLog_free (s : State) (e : LogEntry) : (s.addLog e).free = s.free := rfl
@[simp] theorem State.addLog_slog (s : State) (e : LogEntry) : (s.addLog e).slog = s.slog ++ [{ e with id := s.nextLog }] := rfl
@[simp] theorem State.addLog_nextLog (s : State) (e : LogEntry) : (s.addLog e).nextLog = s.nextLog + 1 := rfl
@[simp] theorem State.takeFree_fst (s : State) : s.takeFree.1 = Config.freeWord s.free := rfl
@[simp] theorem State.takeFree_mem (s : State) : s.takeFree.2.mem = s.mem := rfl
@[simp] theorem State.takeFree_past (s : State) : s.takeFree.2.past = s.past := rfl
@[simp] theorem State.takeFree_queues (s : State) : s.takeFree.2.queues = s.queues := rfl
@[simp] theorem State.takeFree_regs (s : State) : s.takeFree.2.regs = s.regs := rfl
@[simp] theorem State.takeFree_nextSeq (s : State) : s.takeFree.2.nextSeq = s.nextSeq := rfl
@[simp] theorem State.takeFree_events (s : State) : s.takeFree.2.events = s.events := rfl
@[simp] theorem State.takeFree_recs (s : State) : s.takeFree.2.recs = s.recs := rfl
@[simp] theorem State.takeFree_tasks (s : State) : s.takeFree.2.tasks = s.tasks := rfl
@[simp] theorem State.takeFree_graphs (s : State) : s.takeFree.2.graphs = s.graphs := rfl
@[simp] theorem State.takeFree_credits (s : State) : s.takeFree.2.credits = s.credits := rfl
@[simp] theorem State.takeFree_reserve (s : State) : s.takeFree.2.reserve = s.reserve := rfl
@[simp] theorem State.takeFree_irqs (s : State) : s.takeFree.2.irqs = s.irqs := rfl
@[simp] theorem State.takeFree_lockq (s : State) : s.takeFree.2.lockq = s.lockq := rfl
@[simp] theorem State.takeFree_slog (s : State) : s.takeFree.2.slog = s.slog := rfl
@[simp] theorem State.takeFree_nextLog (s : State) : s.takeFree.2.nextLog = s.nextLog := rfl
@[simp] theorem State.takeFree_own (s : State) : s.takeFree.2.own = s.own := rfl
@[simp] theorem State.takeFree_cores (s : State) : s.takeFree.2.cores = s.cores := rfl
@[simp] theorem State.takeFree_xlat (s : State) : s.takeFree.2.xlat = s.xlat := rfl
@[simp] theorem State.takeFree_unmapped (s : State) : s.takeFree.2.unmapped = s.unmapped := rfl
@[simp] theorem State.takeFree_store (s : State) : s.takeFree.2.store = s.store := rfl
@[simp] theorem State.takeFree_time (s : State) : s.takeFree.2.time = s.time := rfl
@[simp] theorem State.takeFree_ttNext (s : State) : s.takeFree.2.ttNext = s.ttNext := rfl
@[simp] theorem State.takeFree_fabric (s : State) : s.takeFree.2.fabric = s.fabric := rfl
@[simp] theorem State.takeFree_hbm (s : State) : s.takeFree.2.hbm = s.hbm := rfl
@[simp] theorem State.takeFree_mgmt (s : State) : s.takeFree.2.mgmt = s.mgmt := rfl
@[simp] theorem State.takeFree_power (s : State) : s.takeFree.2.power = s.power := rfl
@[simp] theorem State.takeFree_cur (s : State) : s.takeFree.2.cur = s.cur := rfl
@[simp] theorem State.takeFree_arg (s : State) : s.takeFree.2.arg = s.arg := rfl
@[simp] theorem State.takeFree_agenda (s : State) : s.takeFree.2.agenda = s.agenda := rfl
@[simp] theorem State.takeFree_inputs (s : State) : s.takeFree.2.inputs = s.inputs := rfl
@[simp] theorem State.takeFree_errors (s : State) : s.takeFree.2.errors = s.errors := rfl
@[simp] theorem State.takeFree_cycle (s : State) : s.takeFree.2.cycle = s.cycle := rfl
@[simp] theorem State.takeFree_free (s : State) : s.takeFree.2.free = s.free + 1 := rfl
@[simp] theorem State.putMember_mem (s : State) (t m : Nat) (b : Member) : (s.putMember t m b).mem = s.mem := by
  unfold State.putMember; split <;> rfl
@[simp] theorem State.putMember_past (s : State) (t m : Nat) (b : Member) : (s.putMember t m b).past = s.past := by
  unfold State.putMember; split <;> rfl
@[simp] theorem State.putMember_queues (s : State) (t m : Nat) (b : Member) : (s.putMember t m b).queues = s.queues := by
  unfold State.putMember; split <;> rfl
@[simp] theorem State.putMember_regs (s : State) (t m : Nat) (b : Member) : (s.putMember t m b).regs = s.regs := by
  unfold State.putMember; split <;> rfl
@[simp] theorem State.putMember_nextSeq (s : State) (t m : Nat) (b : Member) : (s.putMember t m b).nextSeq = s.nextSeq := by
  unfold State.putMember; split <;> rfl
@[simp] theorem State.putMember_events (s : State) (t m : Nat) (b : Member) : (s.putMember t m b).events = s.events := by
  unfold State.putMember; split <;> rfl
@[simp] theorem State.putMember_recs (s : State) (t m : Nat) (b : Member) : (s.putMember t m b).recs = s.recs := by
  unfold State.putMember; split <;> rfl
@[simp] theorem State.putMember_graphs (s : State) (t m : Nat) (b : Member) : (s.putMember t m b).graphs = s.graphs := by
  unfold State.putMember; split <;> rfl
@[simp] theorem State.putMember_credits (s : State) (t m : Nat) (b : Member) : (s.putMember t m b).credits = s.credits := by
  unfold State.putMember; split <;> rfl
@[simp] theorem State.putMember_reserve (s : State) (t m : Nat) (b : Member) : (s.putMember t m b).reserve = s.reserve := by
  unfold State.putMember; split <;> rfl
@[simp] theorem State.putMember_irqs (s : State) (t m : Nat) (b : Member) : (s.putMember t m b).irqs = s.irqs := by
  unfold State.putMember; split <;> rfl
@[simp] theorem State.putMember_lockq (s : State) (t m : Nat) (b : Member) : (s.putMember t m b).lockq = s.lockq := by
  unfold State.putMember; split <;> rfl
@[simp] theorem State.putMember_slog (s : State) (t m : Nat) (b : Member) : (s.putMember t m b).slog = s.slog := by
  unfold State.putMember; split <;> rfl
@[simp] theorem State.putMember_nextLog (s : State) (t m : Nat) (b : Member) : (s.putMember t m b).nextLog = s.nextLog := by
  unfold State.putMember; split <;> rfl
@[simp] theorem State.putMember_own (s : State) (t m : Nat) (b : Member) : (s.putMember t m b).own = s.own := by
  unfold State.putMember; split <;> rfl
@[simp] theorem State.putMember_cores (s : State) (t m : Nat) (b : Member) : (s.putMember t m b).cores = s.cores := by
  unfold State.putMember; split <;> rfl
@[simp] theorem State.putMember_xlat (s : State) (t m : Nat) (b : Member) : (s.putMember t m b).xlat = s.xlat := by
  unfold State.putMember; split <;> rfl
@[simp] theorem State.putMember_unmapped (s : State) (t m : Nat) (b : Member) : (s.putMember t m b).unmapped = s.unmapped := by
  unfold State.putMember; split <;> rfl
@[simp] theorem State.putMember_store (s : State) (t m : Nat) (b : Member) : (s.putMember t m b).store = s.store := by
  unfold State.putMember; split <;> rfl
@[simp] theorem State.putMember_time (s : State) (t m : Nat) (b : Member) : (s.putMember t m b).time = s.time := by
  unfold State.putMember; split <;> rfl
@[simp] theorem State.putMember_ttNext (s : State) (t m : Nat) (b : Member) : (s.putMember t m b).ttNext = s.ttNext := by
  unfold State.putMember; split <;> rfl
@[simp] theorem State.putMember_fabric (s : State) (t m : Nat) (b : Member) : (s.putMember t m b).fabric = s.fabric := by
  unfold State.putMember; split <;> rfl
@[simp] theorem State.putMember_hbm (s : State) (t m : Nat) (b : Member) : (s.putMember t m b).hbm = s.hbm := by
  unfold State.putMember; split <;> rfl
@[simp] theorem State.putMember_mgmt (s : State) (t m : Nat) (b : Member) : (s.putMember t m b).mgmt = s.mgmt := by
  unfold State.putMember; split <;> rfl
@[simp] theorem State.putMember_power (s : State) (t m : Nat) (b : Member) : (s.putMember t m b).power = s.power := by
  unfold State.putMember; split <;> rfl
@[simp] theorem State.putMember_cur (s : State) (t m : Nat) (b : Member) : (s.putMember t m b).cur = s.cur := by
  unfold State.putMember; split <;> rfl
@[simp] theorem State.putMember_arg (s : State) (t m : Nat) (b : Member) : (s.putMember t m b).arg = s.arg := by
  unfold State.putMember; split <;> rfl
@[simp] theorem State.putMember_agenda (s : State) (t m : Nat) (b : Member) : (s.putMember t m b).agenda = s.agenda := by
  unfold State.putMember; split <;> rfl
@[simp] theorem State.putMember_inputs (s : State) (t m : Nat) (b : Member) : (s.putMember t m b).inputs = s.inputs := by
  unfold State.putMember; split <;> rfl
@[simp] theorem State.putMember_errors (s : State) (t m : Nat) (b : Member) : (s.putMember t m b).errors = s.errors := by
  unfold State.putMember; split <;> rfl
@[simp] theorem State.putMember_cycle (s : State) (t m : Nat) (b : Member) : (s.putMember t m b).cycle = s.cycle := by
  unfold State.putMember; split <;> rfl
@[simp] theorem State.putMember_free (s : State) (t m : Nat) (b : Member) : (s.putMember t m b).free = s.free := by
  unfold State.putMember; split <;> rfl
@[simp] theorem State.put_mem (s : State) (b : Member) : (s.put b).mem = s.mem := State.putMember_mem ..
@[simp] theorem State.put_past (s : State) (b : Member) : (s.put b).past = s.past := State.putMember_past ..
@[simp] theorem State.put_queues (s : State) (b : Member) : (s.put b).queues = s.queues := State.putMember_queues ..
@[simp] theorem State.put_regs (s : State) (b : Member) : (s.put b).regs = s.regs := State.putMember_regs ..
@[simp] theorem State.put_nextSeq (s : State) (b : Member) : (s.put b).nextSeq = s.nextSeq := State.putMember_nextSeq ..
@[simp] theorem State.put_events (s : State) (b : Member) : (s.put b).events = s.events := State.putMember_events ..
@[simp] theorem State.put_recs (s : State) (b : Member) : (s.put b).recs = s.recs := State.putMember_recs ..
@[simp] theorem State.put_graphs (s : State) (b : Member) : (s.put b).graphs = s.graphs := State.putMember_graphs ..
@[simp] theorem State.put_credits (s : State) (b : Member) : (s.put b).credits = s.credits := State.putMember_credits ..
@[simp] theorem State.put_reserve (s : State) (b : Member) : (s.put b).reserve = s.reserve := State.putMember_reserve ..
@[simp] theorem State.put_irqs (s : State) (b : Member) : (s.put b).irqs = s.irqs := State.putMember_irqs ..
@[simp] theorem State.put_lockq (s : State) (b : Member) : (s.put b).lockq = s.lockq := State.putMember_lockq ..
@[simp] theorem State.put_slog (s : State) (b : Member) : (s.put b).slog = s.slog := State.putMember_slog ..
@[simp] theorem State.put_nextLog (s : State) (b : Member) : (s.put b).nextLog = s.nextLog := State.putMember_nextLog ..
@[simp] theorem State.put_own (s : State) (b : Member) : (s.put b).own = s.own := State.putMember_own ..
@[simp] theorem State.put_cores (s : State) (b : Member) : (s.put b).cores = s.cores := State.putMember_cores ..
@[simp] theorem State.put_xlat (s : State) (b : Member) : (s.put b).xlat = s.xlat := State.putMember_xlat ..
@[simp] theorem State.put_unmapped (s : State) (b : Member) : (s.put b).unmapped = s.unmapped := State.putMember_unmapped ..
@[simp] theorem State.put_store (s : State) (b : Member) : (s.put b).store = s.store := State.putMember_store ..
@[simp] theorem State.put_time (s : State) (b : Member) : (s.put b).time = s.time := State.putMember_time ..
@[simp] theorem State.put_ttNext (s : State) (b : Member) : (s.put b).ttNext = s.ttNext := State.putMember_ttNext ..
@[simp] theorem State.put_fabric (s : State) (b : Member) : (s.put b).fabric = s.fabric := State.putMember_fabric ..
@[simp] theorem State.put_hbm (s : State) (b : Member) : (s.put b).hbm = s.hbm := State.putMember_hbm ..
@[simp] theorem State.put_mgmt (s : State) (b : Member) : (s.put b).mgmt = s.mgmt := State.putMember_mgmt ..
@[simp] theorem State.put_power (s : State) (b : Member) : (s.put b).power = s.power := State.putMember_power ..
@[simp] theorem State.put_cur (s : State) (b : Member) : (s.put b).cur = s.cur := State.putMember_cur ..
@[simp] theorem State.put_arg (s : State) (b : Member) : (s.put b).arg = s.arg := State.putMember_arg ..
@[simp] theorem State.put_agenda (s : State) (b : Member) : (s.put b).agenda = s.agenda := State.putMember_agenda ..
@[simp] theorem State.put_inputs (s : State) (b : Member) : (s.put b).inputs = s.inputs := State.putMember_inputs ..
@[simp] theorem State.put_errors (s : State) (b : Member) : (s.put b).errors = s.errors := State.putMember_errors ..
@[simp] theorem State.put_cycle (s : State) (b : Member) : (s.put b).cycle = s.cycle := State.putMember_cycle ..
@[simp] theorem State.put_free (s : State) (b : Member) : (s.put b).free = s.free := State.putMember_free ..
@[simp] theorem State.modTask_mem (s : State) (t : Nat) (g : Task → Task) : (s.modTask t g).mem = s.mem := by
  unfold State.modTask; split <;> rfl
@[simp] theorem State.modTask_past (s : State) (t : Nat) (g : Task → Task) : (s.modTask t g).past = s.past := by
  unfold State.modTask; split <;> rfl
@[simp] theorem State.modTask_queues (s : State) (t : Nat) (g : Task → Task) : (s.modTask t g).queues = s.queues := by
  unfold State.modTask; split <;> rfl
@[simp] theorem State.modTask_regs (s : State) (t : Nat) (g : Task → Task) : (s.modTask t g).regs = s.regs := by
  unfold State.modTask; split <;> rfl
@[simp] theorem State.modTask_nextSeq (s : State) (t : Nat) (g : Task → Task) : (s.modTask t g).nextSeq = s.nextSeq := by
  unfold State.modTask; split <;> rfl
@[simp] theorem State.modTask_events (s : State) (t : Nat) (g : Task → Task) : (s.modTask t g).events = s.events := by
  unfold State.modTask; split <;> rfl
@[simp] theorem State.modTask_recs (s : State) (t : Nat) (g : Task → Task) : (s.modTask t g).recs = s.recs := by
  unfold State.modTask; split <;> rfl
@[simp] theorem State.modTask_graphs (s : State) (t : Nat) (g : Task → Task) : (s.modTask t g).graphs = s.graphs := by
  unfold State.modTask; split <;> rfl
@[simp] theorem State.modTask_credits (s : State) (t : Nat) (g : Task → Task) : (s.modTask t g).credits = s.credits := by
  unfold State.modTask; split <;> rfl
@[simp] theorem State.modTask_reserve (s : State) (t : Nat) (g : Task → Task) : (s.modTask t g).reserve = s.reserve := by
  unfold State.modTask; split <;> rfl
@[simp] theorem State.modTask_irqs (s : State) (t : Nat) (g : Task → Task) : (s.modTask t g).irqs = s.irqs := by
  unfold State.modTask; split <;> rfl
@[simp] theorem State.modTask_lockq (s : State) (t : Nat) (g : Task → Task) : (s.modTask t g).lockq = s.lockq := by
  unfold State.modTask; split <;> rfl
@[simp] theorem State.modTask_slog (s : State) (t : Nat) (g : Task → Task) : (s.modTask t g).slog = s.slog := by
  unfold State.modTask; split <;> rfl
@[simp] theorem State.modTask_nextLog (s : State) (t : Nat) (g : Task → Task) : (s.modTask t g).nextLog = s.nextLog := by
  unfold State.modTask; split <;> rfl
@[simp] theorem State.modTask_own (s : State) (t : Nat) (g : Task → Task) : (s.modTask t g).own = s.own := by
  unfold State.modTask; split <;> rfl
@[simp] theorem State.modTask_cores (s : State) (t : Nat) (g : Task → Task) : (s.modTask t g).cores = s.cores := by
  unfold State.modTask; split <;> rfl
@[simp] theorem State.modTask_xlat (s : State) (t : Nat) (g : Task → Task) : (s.modTask t g).xlat = s.xlat := by
  unfold State.modTask; split <;> rfl
@[simp] theorem State.modTask_unmapped (s : State) (t : Nat) (g : Task → Task) : (s.modTask t g).unmapped = s.unmapped := by
  unfold State.modTask; split <;> rfl
@[simp] theorem State.modTask_store (s : State) (t : Nat) (g : Task → Task) : (s.modTask t g).store = s.store := by
  unfold State.modTask; split <;> rfl
@[simp] theorem State.modTask_time (s : State) (t : Nat) (g : Task → Task) : (s.modTask t g).time = s.time := by
  unfold State.modTask; split <;> rfl
@[simp] theorem State.modTask_ttNext (s : State) (t : Nat) (g : Task → Task) : (s.modTask t g).ttNext = s.ttNext := by
  unfold State.modTask; split <;> rfl
@[simp] theorem State.modTask_fabric (s : State) (t : Nat) (g : Task → Task) : (s.modTask t g).fabric = s.fabric := by
  unfold State.modTask; split <;> rfl
@[simp] theorem State.modTask_hbm (s : State) (t : Nat) (g : Task → Task) : (s.modTask t g).hbm = s.hbm := by
  unfold State.modTask; split <;> rfl
@[simp] theorem State.modTask_mgmt (s : State) (t : Nat) (g : Task → Task) : (s.modTask t g).mgmt = s.mgmt := by
  unfold State.modTask; split <;> rfl
@[simp] theorem State.modTask_power (s : State) (t : Nat) (g : Task → Task) : (s.modTask t g).power = s.power := by
  unfold State.modTask; split <;> rfl
@[simp] theorem State.modTask_cur (s : State) (t : Nat) (g : Task → Task) : (s.modTask t g).cur = s.cur := by
  unfold State.modTask; split <;> rfl
@[simp] theorem State.modTask_arg (s : State) (t : Nat) (g : Task → Task) : (s.modTask t g).arg = s.arg := by
  unfold State.modTask; split <;> rfl
@[simp] theorem State.modTask_agenda (s : State) (t : Nat) (g : Task → Task) : (s.modTask t g).agenda = s.agenda := by
  unfold State.modTask; split <;> rfl
@[simp] theorem State.modTask_inputs (s : State) (t : Nat) (g : Task → Task) : (s.modTask t g).inputs = s.inputs := by
  unfold State.modTask; split <;> rfl
@[simp] theorem State.modTask_errors (s : State) (t : Nat) (g : Task → Task) : (s.modTask t g).errors = s.errors := by
  unfold State.modTask; split <;> rfl
@[simp] theorem State.modTask_cycle (s : State) (t : Nat) (g : Task → Task) : (s.modTask t g).cycle = s.cycle := by
  unfold State.modTask; split <;> rfl
@[simp] theorem State.modTask_free (s : State) (t : Nat) (g : Task → Task) : (s.modTask t g).free = s.free := by
  unfold State.modTask; split <;> rfl
@[simp] theorem State.modMember_mem (s : State) (t m : Nat) (g : Member → Member) : (s.modMember t m g).mem = s.mem := by
  unfold State.modMember; split <;> simp
@[simp] theorem State.modMember_past (s : State) (t m : Nat) (g : Member → Member) : (s.modMember t m g).past = s.past := by
  unfold State.modMember; split <;> simp
@[simp] theorem State.modMember_queues (s : State) (t m : Nat) (g : Member → Member) : (s.modMember t m g).queues = s.queues := by
  unfold State.modMember; split <;> simp
@[simp] theorem State.modMember_regs (s : State) (t m : Nat) (g : Member → Member) : (s.modMember t m g).regs = s.regs := by
  unfold State.modMember; split <;> simp
@[simp] theorem State.modMember_nextSeq (s : State) (t m : Nat) (g : Member → Member) : (s.modMember t m g).nextSeq = s.nextSeq := by
  unfold State.modMember; split <;> simp
@[simp] theorem State.modMember_events (s : State) (t m : Nat) (g : Member → Member) : (s.modMember t m g).events = s.events := by
  unfold State.modMember; split <;> simp
@[simp] theorem State.modMember_recs (s : State) (t m : Nat) (g : Member → Member) : (s.modMember t m g).recs = s.recs := by
  unfold State.modMember; split <;> simp
@[simp] theorem State.modMember_graphs (s : State) (t m : Nat) (g : Member → Member) : (s.modMember t m g).graphs = s.graphs := by
  unfold State.modMember; split <;> simp
@[simp] theorem State.modMember_credits (s : State) (t m : Nat) (g : Member → Member) : (s.modMember t m g).credits = s.credits := by
  unfold State.modMember; split <;> simp
@[simp] theorem State.modMember_reserve (s : State) (t m : Nat) (g : Member → Member) : (s.modMember t m g).reserve = s.reserve := by
  unfold State.modMember; split <;> simp
@[simp] theorem State.modMember_irqs (s : State) (t m : Nat) (g : Member → Member) : (s.modMember t m g).irqs = s.irqs := by
  unfold State.modMember; split <;> simp
@[simp] theorem State.modMember_lockq (s : State) (t m : Nat) (g : Member → Member) : (s.modMember t m g).lockq = s.lockq := by
  unfold State.modMember; split <;> simp
@[simp] theorem State.modMember_slog (s : State) (t m : Nat) (g : Member → Member) : (s.modMember t m g).slog = s.slog := by
  unfold State.modMember; split <;> simp
@[simp] theorem State.modMember_nextLog (s : State) (t m : Nat) (g : Member → Member) : (s.modMember t m g).nextLog = s.nextLog := by
  unfold State.modMember; split <;> simp
@[simp] theorem State.modMember_own (s : State) (t m : Nat) (g : Member → Member) : (s.modMember t m g).own = s.own := by
  unfold State.modMember; split <;> simp
@[simp] theorem State.modMember_cores (s : State) (t m : Nat) (g : Member → Member) : (s.modMember t m g).cores = s.cores := by
  unfold State.modMember; split <;> simp
@[simp] theorem State.modMember_xlat (s : State) (t m : Nat) (g : Member → Member) : (s.modMember t m g).xlat = s.xlat := by
  unfold State.modMember; split <;> simp
@[simp] theorem State.modMember_unmapped (s : State) (t m : Nat) (g : Member → Member) : (s.modMember t m g).unmapped = s.unmapped := by
  unfold State.modMember; split <;> simp
@[simp] theorem State.modMember_store (s : State) (t m : Nat) (g : Member → Member) : (s.modMember t m g).store = s.store := by
  unfold State.modMember; split <;> simp
@[simp] theorem State.modMember_time (s : State) (t m : Nat) (g : Member → Member) : (s.modMember t m g).time = s.time := by
  unfold State.modMember; split <;> simp
@[simp] theorem State.modMember_ttNext (s : State) (t m : Nat) (g : Member → Member) : (s.modMember t m g).ttNext = s.ttNext := by
  unfold State.modMember; split <;> simp
@[simp] theorem State.modMember_fabric (s : State) (t m : Nat) (g : Member → Member) : (s.modMember t m g).fabric = s.fabric := by
  unfold State.modMember; split <;> simp
@[simp] theorem State.modMember_hbm (s : State) (t m : Nat) (g : Member → Member) : (s.modMember t m g).hbm = s.hbm := by
  unfold State.modMember; split <;> simp
@[simp] theorem State.modMember_mgmt (s : State) (t m : Nat) (g : Member → Member) : (s.modMember t m g).mgmt = s.mgmt := by
  unfold State.modMember; split <;> simp
@[simp] theorem State.modMember_power (s : State) (t m : Nat) (g : Member → Member) : (s.modMember t m g).power = s.power := by
  unfold State.modMember; split <;> simp
@[simp] theorem State.modMember_cur (s : State) (t m : Nat) (g : Member → Member) : (s.modMember t m g).cur = s.cur := by
  unfold State.modMember; split <;> simp
@[simp] theorem State.modMember_arg (s : State) (t m : Nat) (g : Member → Member) : (s.modMember t m g).arg = s.arg := by
  unfold State.modMember; split <;> simp
@[simp] theorem State.modMember_agenda (s : State) (t m : Nat) (g : Member → Member) : (s.modMember t m g).agenda = s.agenda := by
  unfold State.modMember; split <;> simp
@[simp] theorem State.modMember_inputs (s : State) (t m : Nat) (g : Member → Member) : (s.modMember t m g).inputs = s.inputs := by
  unfold State.modMember; split <;> simp
@[simp] theorem State.modMember_errors (s : State) (t m : Nat) (g : Member → Member) : (s.modMember t m g).errors = s.errors := by
  unfold State.modMember; split <;> simp
@[simp] theorem State.modMember_cycle (s : State) (t m : Nat) (g : Member → Member) : (s.modMember t m g).cycle = s.cycle := by
  unfold State.modMember; split <;> simp
@[simp] theorem State.modMember_free (s : State) (t m : Nat) (g : Member → Member) : (s.modMember t m g).free = s.free := by
  unfold State.modMember; split <;> simp
@[simp] theorem State.putBoth_mem (s : State) (tk : Task) (b : Member) : (s.putBoth tk b).mem = s.mem := by simp [State.putBoth]
@[simp] theorem State.putBoth_past (s : State) (tk : Task) (b : Member) : (s.putBoth tk b).past = s.past := by simp [State.putBoth]
@[simp] theorem State.putBoth_queues (s : State) (tk : Task) (b : Member) : (s.putBoth tk b).queues = s.queues := by simp [State.putBoth]
@[simp] theorem State.putBoth_regs (s : State) (tk : Task) (b : Member) : (s.putBoth tk b).regs = s.regs := by simp [State.putBoth]
@[simp] theorem State.putBoth_nextSeq (s : State) (tk : Task) (b : Member) : (s.putBoth tk b).nextSeq = s.nextSeq := by simp [State.putBoth]
@[simp] theorem State.putBoth_events (s : State) (tk : Task) (b : Member) : (s.putBoth tk b).events = s.events := by simp [State.putBoth]
@[simp] theorem State.putBoth_recs (s : State) (tk : Task) (b : Member) : (s.putBoth tk b).recs = s.recs := by simp [State.putBoth]
@[simp] theorem State.putBoth_graphs (s : State) (tk : Task) (b : Member) : (s.putBoth tk b).graphs = s.graphs := by simp [State.putBoth]
@[simp] theorem State.putBoth_credits (s : State) (tk : Task) (b : Member) : (s.putBoth tk b).credits = s.credits := by simp [State.putBoth]
@[simp] theorem State.putBoth_reserve (s : State) (tk : Task) (b : Member) : (s.putBoth tk b).reserve = s.reserve := by simp [State.putBoth]
@[simp] theorem State.putBoth_irqs (s : State) (tk : Task) (b : Member) : (s.putBoth tk b).irqs = s.irqs := by simp [State.putBoth]
@[simp] theorem State.putBoth_lockq (s : State) (tk : Task) (b : Member) : (s.putBoth tk b).lockq = s.lockq := by simp [State.putBoth]
@[simp] theorem State.putBoth_slog (s : State) (tk : Task) (b : Member) : (s.putBoth tk b).slog = s.slog := by simp [State.putBoth]
@[simp] theorem State.putBoth_nextLog (s : State) (tk : Task) (b : Member) : (s.putBoth tk b).nextLog = s.nextLog := by simp [State.putBoth]
@[simp] theorem State.putBoth_own (s : State) (tk : Task) (b : Member) : (s.putBoth tk b).own = s.own := by simp [State.putBoth]
@[simp] theorem State.putBoth_cores (s : State) (tk : Task) (b : Member) : (s.putBoth tk b).cores = s.cores := by simp [State.putBoth]
@[simp] theorem State.putBoth_xlat (s : State) (tk : Task) (b : Member) : (s.putBoth tk b).xlat = s.xlat := by simp [State.putBoth]
@[simp] theorem State.putBoth_unmapped (s : State) (tk : Task) (b : Member) : (s.putBoth tk b).unmapped = s.unmapped := by simp [State.putBoth]
@[simp] theorem State.putBoth_store (s : State) (tk : Task) (b : Member) : (s.putBoth tk b).store = s.store := by simp [State.putBoth]
@[simp] theorem State.putBoth_time (s : State) (tk : Task) (b : Member) : (s.putBoth tk b).time = s.time := by simp [State.putBoth]
@[simp] theorem State.putBoth_ttNext (s : State) (tk : Task) (b : Member) : (s.putBoth tk b).ttNext = s.ttNext := by simp [State.putBoth]
@[simp] theorem State.putBoth_fabric (s : State) (tk : Task) (b : Member) : (s.putBoth tk b).fabric = s.fabric := by simp [State.putBoth]
@[simp] theorem State.putBoth_hbm (s : State) (tk : Task) (b : Member) : (s.putBoth tk b).hbm = s.hbm := by simp [State.putBoth]
@[simp] theorem State.putBoth_mgmt (s : State) (tk : Task) (b : Member) : (s.putBoth tk b).mgmt = s.mgmt := by simp [State.putBoth]
@[simp] theorem State.putBoth_power (s : State) (tk : Task) (b : Member) : (s.putBoth tk b).power = s.power := by simp [State.putBoth]
@[simp] theorem State.putBoth_cur (s : State) (tk : Task) (b : Member) : (s.putBoth tk b).cur = s.cur := by simp [State.putBoth]
@[simp] theorem State.putBoth_arg (s : State) (tk : Task) (b : Member) : (s.putBoth tk b).arg = s.arg := by simp [State.putBoth]
@[simp] theorem State.putBoth_agenda (s : State) (tk : Task) (b : Member) : (s.putBoth tk b).agenda = s.agenda := by simp [State.putBoth]
@[simp] theorem State.putBoth_inputs (s : State) (tk : Task) (b : Member) : (s.putBoth tk b).inputs = s.inputs := by simp [State.putBoth]
@[simp] theorem State.putBoth_errors (s : State) (tk : Task) (b : Member) : (s.putBoth tk b).errors = s.errors := by simp [State.putBoth]
@[simp] theorem State.putBoth_cycle (s : State) (tk : Task) (b : Member) : (s.putBoth tk b).cycle = s.cycle := by simp [State.putBoth]
@[simp] theorem State.putBoth_free (s : State) (tk : Task) (b : Member) : (s.putBoth tk b).free = s.free := by simp [State.putBoth]

/-- Counting in launch ports changes queues only (R397). -/
theorem State.countPorts_queues (s : State) (pa n : Nat) : ∃ q, s.countPorts pa n = { s with queues := q } := by
  unfold State.countPorts; split
  · exact ⟨_, rfl⟩
  · generalize List.range _ = l
    induction l generalizing s with
    | nil => exact ⟨_, rfl⟩
    | cons a r ih =>
      obtain ⟨q, h⟩ := ih (s.modQueue (((pa / 64 + a) * 64 - Config.portBase) / 64) Queue.countBad)
      exact ⟨q, by rw [List.foldl_cons, h]; rfl⟩

@[simp] theorem State.countPorts_mem (s : State) (pa n : Nat) : (s.countPorts pa n).mem = s.mem := by
  obtain ⟨q, h⟩ := s.countPorts_queues pa n; rw [h]
@[simp] theorem State.countPorts_past (s : State) (pa n : Nat) : (s.countPorts pa n).past = s.past := by
  obtain ⟨q, h⟩ := s.countPorts_queues pa n; rw [h]
@[simp] theorem State.countPorts_regs (s : State) (pa n : Nat) : (s.countPorts pa n).regs = s.regs := by
  obtain ⟨q, h⟩ := s.countPorts_queues pa n; rw [h]
@[simp] theorem State.countPorts_nextSeq (s : State) (pa n : Nat) : (s.countPorts pa n).nextSeq = s.nextSeq := by
  obtain ⟨q, h⟩ := s.countPorts_queues pa n; rw [h]
@[simp] theorem State.countPorts_events (s : State) (pa n : Nat) : (s.countPorts pa n).events = s.events := by
  obtain ⟨q, h⟩ := s.countPorts_queues pa n; rw [h]
@[simp] theorem State.countPorts_recs (s : State) (pa n : Nat) : (s.countPorts pa n).recs = s.recs := by
  obtain ⟨q, h⟩ := s.countPorts_queues pa n; rw [h]
@[simp] theorem State.countPorts_tasks (s : State) (pa n : Nat) : (s.countPorts pa n).tasks = s.tasks := by
  obtain ⟨q, h⟩ := s.countPorts_queues pa n; rw [h]
@[simp] theorem State.countPorts_graphs (s : State) (pa n : Nat) : (s.countPorts pa n).graphs = s.graphs := by
  obtain ⟨q, h⟩ := s.countPorts_queues pa n; rw [h]
@[simp] theorem State.countPorts_credits (s : State) (pa n : Nat) : (s.countPorts pa n).credits = s.credits := by
  obtain ⟨q, h⟩ := s.countPorts_queues pa n; rw [h]
@[simp] theorem State.countPorts_reserve (s : State) (pa n : Nat) : (s.countPorts pa n).reserve = s.reserve := by
  obtain ⟨q, h⟩ := s.countPorts_queues pa n; rw [h]
@[simp] theorem State.countPorts_irqs (s : State) (pa n : Nat) : (s.countPorts pa n).irqs = s.irqs := by
  obtain ⟨q, h⟩ := s.countPorts_queues pa n; rw [h]
@[simp] theorem State.countPorts_lockq (s : State) (pa n : Nat) : (s.countPorts pa n).lockq = s.lockq := by
  obtain ⟨q, h⟩ := s.countPorts_queues pa n; rw [h]
@[simp] theorem State.countPorts_slog (s : State) (pa n : Nat) : (s.countPorts pa n).slog = s.slog := by
  obtain ⟨q, h⟩ := s.countPorts_queues pa n; rw [h]
@[simp] theorem State.countPorts_nextLog (s : State) (pa n : Nat) : (s.countPorts pa n).nextLog = s.nextLog := by
  obtain ⟨q, h⟩ := s.countPorts_queues pa n; rw [h]
@[simp] theorem State.countPorts_own (s : State) (pa n : Nat) : (s.countPorts pa n).own = s.own := by
  obtain ⟨q, h⟩ := s.countPorts_queues pa n; rw [h]
@[simp] theorem State.countPorts_cores (s : State) (pa n : Nat) : (s.countPorts pa n).cores = s.cores := by
  obtain ⟨q, h⟩ := s.countPorts_queues pa n; rw [h]
@[simp] theorem State.countPorts_xlat (s : State) (pa n : Nat) : (s.countPorts pa n).xlat = s.xlat := by
  obtain ⟨q, h⟩ := s.countPorts_queues pa n; rw [h]
@[simp] theorem State.countPorts_unmapped (s : State) (pa n : Nat) : (s.countPorts pa n).unmapped = s.unmapped := by
  obtain ⟨q, h⟩ := s.countPorts_queues pa n; rw [h]
@[simp] theorem State.countPorts_store (s : State) (pa n : Nat) : (s.countPorts pa n).store = s.store := by
  obtain ⟨q, h⟩ := s.countPorts_queues pa n; rw [h]
@[simp] theorem State.countPorts_time (s : State) (pa n : Nat) : (s.countPorts pa n).time = s.time := by
  obtain ⟨q, h⟩ := s.countPorts_queues pa n; rw [h]
@[simp] theorem State.countPorts_ttNext (s : State) (pa n : Nat) : (s.countPorts pa n).ttNext = s.ttNext := by
  obtain ⟨q, h⟩ := s.countPorts_queues pa n; rw [h]
@[simp] theorem State.countPorts_fabric (s : State) (pa n : Nat) : (s.countPorts pa n).fabric = s.fabric := by
  obtain ⟨q, h⟩ := s.countPorts_queues pa n; rw [h]
@[simp] theorem State.countPorts_hbm (s : State) (pa n : Nat) : (s.countPorts pa n).hbm = s.hbm := by
  obtain ⟨q, h⟩ := s.countPorts_queues pa n; rw [h]
@[simp] theorem State.countPorts_mgmt (s : State) (pa n : Nat) : (s.countPorts pa n).mgmt = s.mgmt := by
  obtain ⟨q, h⟩ := s.countPorts_queues pa n; rw [h]
@[simp] theorem State.countPorts_power (s : State) (pa n : Nat) : (s.countPorts pa n).power = s.power := by
  obtain ⟨q, h⟩ := s.countPorts_queues pa n; rw [h]
@[simp] theorem State.countPorts_cur (s : State) (pa n : Nat) : (s.countPorts pa n).cur = s.cur := by
  obtain ⟨q, h⟩ := s.countPorts_queues pa n; rw [h]
@[simp] theorem State.countPorts_arg (s : State) (pa n : Nat) : (s.countPorts pa n).arg = s.arg := by
  obtain ⟨q, h⟩ := s.countPorts_queues pa n; rw [h]
@[simp] theorem State.countPorts_agenda (s : State) (pa n : Nat) : (s.countPorts pa n).agenda = s.agenda := by
  obtain ⟨q, h⟩ := s.countPorts_queues pa n; rw [h]
@[simp] theorem State.countPorts_inputs (s : State) (pa n : Nat) : (s.countPorts pa n).inputs = s.inputs := by
  obtain ⟨q, h⟩ := s.countPorts_queues pa n; rw [h]
@[simp] theorem State.countPorts_errors (s : State) (pa n : Nat) : (s.countPorts pa n).errors = s.errors := by
  obtain ⟨q, h⟩ := s.countPorts_queues pa n; rw [h]
@[simp] theorem State.countPorts_cycle (s : State) (pa n : Nat) : (s.countPorts pa n).cycle = s.cycle := by
  obtain ⟨q, h⟩ := s.countPorts_queues pa n; rw [h]
@[simp] theorem State.countPorts_free (s : State) (pa n : Nat) : (s.countPorts pa n).free = s.free := by
  obtain ⟨q, h⟩ := s.countPorts_queues pa n; rw [h]
@[simp] theorem State.wrDev_regs (s : State) (pa : Nat) (b : List Byte) : (s.wrDev pa b).regs = s.regs := by
  unfold State.wrDev; (repeat' split) <;> simp
@[simp] theorem State.wrDev_nextSeq (s : State) (pa : Nat) (b : List Byte) : (s.wrDev pa b).nextSeq = s.nextSeq := by
  unfold State.wrDev; (repeat' split) <;> simp
@[simp] theorem State.wrDev_events (s : State) (pa : Nat) (b : List Byte) : (s.wrDev pa b).events = s.events := by
  unfold State.wrDev; (repeat' split) <;> simp
@[simp] theorem State.wrDev_recs (s : State) (pa : Nat) (b : List Byte) : (s.wrDev pa b).recs = s.recs := by
  unfold State.wrDev; (repeat' split) <;> simp
@[simp] theorem State.wrDev_tasks (s : State) (pa : Nat) (b : List Byte) : (s.wrDev pa b).tasks = s.tasks := by
  unfold State.wrDev; (repeat' split) <;> simp
@[simp] theorem State.wrDev_graphs (s : State) (pa : Nat) (b : List Byte) : (s.wrDev pa b).graphs = s.graphs := by
  unfold State.wrDev; (repeat' split) <;> simp
@[simp] theorem State.wrDev_credits (s : State) (pa : Nat) (b : List Byte) : (s.wrDev pa b).credits = s.credits := by
  unfold State.wrDev; (repeat' split) <;> simp
@[simp] theorem State.wrDev_reserve (s : State) (pa : Nat) (b : List Byte) : (s.wrDev pa b).reserve = s.reserve := by
  unfold State.wrDev; (repeat' split) <;> simp
@[simp] theorem State.wrDev_irqs (s : State) (pa : Nat) (b : List Byte) : (s.wrDev pa b).irqs = s.irqs := by
  unfold State.wrDev; (repeat' split) <;> simp
@[simp] theorem State.wrDev_lockq (s : State) (pa : Nat) (b : List Byte) : (s.wrDev pa b).lockq = s.lockq := by
  unfold State.wrDev; (repeat' split) <;> simp
@[simp] theorem State.wrDev_slog (s : State) (pa : Nat) (b : List Byte) : (s.wrDev pa b).slog = s.slog := by
  unfold State.wrDev; (repeat' split) <;> simp
@[simp] theorem State.wrDev_nextLog (s : State) (pa : Nat) (b : List Byte) : (s.wrDev pa b).nextLog = s.nextLog := by
  unfold State.wrDev; (repeat' split) <;> simp
@[simp] theorem State.wrDev_own (s : State) (pa : Nat) (b : List Byte) : (s.wrDev pa b).own = s.own := by
  unfold State.wrDev; (repeat' split) <;> simp
@[simp] theorem State.wrDev_cores (s : State) (pa : Nat) (b : List Byte) : (s.wrDev pa b).cores = s.cores := by
  unfold State.wrDev; (repeat' split) <;> simp
@[simp] theorem State.wrDev_xlat (s : State) (pa : Nat) (b : List Byte) : (s.wrDev pa b).xlat = s.xlat := by
  unfold State.wrDev; (repeat' split) <;> simp
@[simp] theorem State.wrDev_store (s : State) (pa : Nat) (b : List Byte) : (s.wrDev pa b).store = s.store := by
  unfold State.wrDev; (repeat' split) <;> simp
@[simp] theorem State.wrDev_time (s : State) (pa : Nat) (b : List Byte) : (s.wrDev pa b).time = s.time := by
  unfold State.wrDev; (repeat' split) <;> simp
@[simp] theorem State.wrDev_ttNext (s : State) (pa : Nat) (b : List Byte) : (s.wrDev pa b).ttNext = s.ttNext := by
  unfold State.wrDev; (repeat' split) <;> simp
@[simp] theorem State.wrDev_fabric (s : State) (pa : Nat) (b : List Byte) : (s.wrDev pa b).fabric = s.fabric := by
  unfold State.wrDev; (repeat' split) <;> simp
@[simp] theorem State.wrDev_mgmt (s : State) (pa : Nat) (b : List Byte) : (s.wrDev pa b).mgmt = s.mgmt := by
  unfold State.wrDev; (repeat' split) <;> simp
@[simp] theorem State.wrDev_power (s : State) (pa : Nat) (b : List Byte) : (s.wrDev pa b).power = s.power := by
  unfold State.wrDev; (repeat' split) <;> simp
@[simp] theorem State.wrDev_cur (s : State) (pa : Nat) (b : List Byte) : (s.wrDev pa b).cur = s.cur := by
  unfold State.wrDev; (repeat' split) <;> simp
@[simp] theorem State.wrDev_arg (s : State) (pa : Nat) (b : List Byte) : (s.wrDev pa b).arg = s.arg := by
  unfold State.wrDev; (repeat' split) <;> simp
@[simp] theorem State.wrDev_agenda (s : State) (pa : Nat) (b : List Byte) : (s.wrDev pa b).agenda = s.agenda := by
  unfold State.wrDev; (repeat' split) <;> simp
@[simp] theorem State.wrDev_inputs (s : State) (pa : Nat) (b : List Byte) : (s.wrDev pa b).inputs = s.inputs := by
  unfold State.wrDev; (repeat' split) <;> simp
@[simp] theorem State.wrDev_errors (s : State) (pa : Nat) (b : List Byte) : (s.wrDev pa b).errors = s.errors := by
  unfold State.wrDev; (repeat' split) <;> simp
@[simp] theorem State.wrDev_cycle (s : State) (pa : Nat) (b : List Byte) : (s.wrDev pa b).cycle = s.cycle := by
  unfold State.wrDev; (repeat' split) <;> simp
@[simp] theorem State.wrDev_free (s : State) (pa : Nat) (b : List Byte) : (s.wrDev pa b).free = s.free := by
  unfold State.wrDev; (repeat' split) <;> simp

/-! ## A task -/

@[simp] theorem Task.putMember_seq (tk : Task) (m : Nat) (b : Member) : (tk.putMember m b).seq = tk.seq := rfl
@[simp] theorem Task.putMember_node (tk : Task) (m : Nat) (b : Member) : (tk.putMember m b).node = tk.node := rfl
@[simp] theorem Task.putMember_queue (tk : Task) (m : Nat) (b : Member) : (tk.putMember m b).queue = tk.queue := rfl
@[simp] theorem Task.putMember_ctx (tk : Task) (m : Nat) (b : Member) : (tk.putMember m b).ctx = tk.ctx := rfl
@[simp] theorem Task.putMember_tag (tk : Task) (m : Nat) (b : Member) : (tk.putMember m b).tag = tk.tag := rfl
@[simp] theorem Task.putMember_irq (tk : Task) (m : Nat) (b : Member) : (tk.putMember m b).irq = tk.irq := rfl
@[simp] theorem Task.putMember_compl (tk : Task) (m : Nat) (b : Member) : (tk.putMember m b).compl = tk.compl := rfl
@[simp] theorem Task.putMember_hdrVA (tk : Task) (m : Nat) (b : Member) : (tk.putMember m b).hdrVA = tk.hdrVA := rfl
@[simp] theorem Task.putMember_param (tk : Task) (m : Nat) (b : Member) : (tk.putMember m b).param = tk.param := rfl
@[simp] theorem Task.putMember_ptroot (tk : Task) (m : Nat) (b : Member) : (tk.putMember m b).ptroot = tk.ptroot := rfl
@[simp] theorem Task.putMember_btab (tk : Task) (m : Nat) (b : Member) : (tk.putMember m b).btab = tk.btab := rfl
@[simp] theorem Task.putMember_hint (tk : Task) (m : Nat) (b : Member) : (tk.putMember m b).hint = tk.hint := rfl
@[simp] theorem Task.putMember_part (tk : Task) (m : Nat) (b : Member) : (tk.putMember m b).part = tk.part := rfl
@[simp] theorem Task.putMember_rpol (tk : Task) (m : Nat) (b : Member) : (tk.putMember m b).rpol = tk.rpol := rfl
@[simp] theorem Task.putMember_tcpool (tk : Task) (m : Nat) (b : Member) : (tk.putMember m b).tcpool = tk.tcpool := rfl
@[simp] theorem Task.putMember_qbase (tk : Task) (m : Nat) (b : Member) : (tk.putMember m b).qbase = tk.qbase := rfl
@[simp] theorem Task.putMember_graph (tk : Task) (m : Nat) (b : Member) : (tk.putMember m b).graph = tk.graph := rfl
@[simp] theorem Task.putMember_fromTT (tk : Task) (m : Nat) (b : Member) : (tk.putMember m b).fromTT = tk.fromTT := rfl
@[simp] theorem Task.putMember_state (tk : Task) (m : Nat) (b : Member) : (tk.putMember m b).state = tk.state := rfl
@[simp] theorem Task.putMember_hdr (tk : Task) (m : Nat) (b : Member) : (tk.putMember m b).hdr = tk.hdr := rfl
@[simp] theorem Task.putMember_pool (tk : Task) (m : Nat) (b : Member) : (tk.putMember m b).pool = tk.pool := rfl
@[simp] theorem Task.putMember_replicas (tk : Task) (m : Nat) (b : Member) : (tk.putMember m b).replicas = tk.replicas := rfl
@[simp] theorem Task.putMember_discards (tk : Task) (m : Nat) (b : Member) : (tk.putMember m b).discards = tk.discards := rfl
@[simp] theorem Task.putMember_attempt (tk : Task) (m : Nat) (b : Member) : (tk.putMember m b).attempt = tk.attempt := rfl
@[simp] theorem Task.putMember_budget (tk : Task) (m : Nat) (b : Member) : (tk.putMember m b).budget = tk.budget := rfl
@[simp] theorem Task.putMember_so (tk : Task) (m : Nat) (b : Member) : (tk.putMember m b).so = tk.so := rfl
@[simp] theorem Task.putMember_faultLive (tk : Task) (m : Nat) (b : Member) : (tk.putMember m b).faultLive = tk.faultLive := rfl
@[simp] theorem Task.putMember_commit (tk : Task) (m : Nat) (b : Member) : (tk.putMember m b).commit = tk.commit := rfl
@[simp] theorem Task.putMember_commitFinal (tk : Task) (m : Nat) (b : Member) : (tk.putMember m b).commitFinal = tk.commitFinal := rfl
@[simp] theorem Task.putMember_commitPending (tk : Task) (m : Nat) (b : Member) : (tk.putMember m b).commitPending = tk.commitPending := rfl
@[simp] theorem Task.putMember_vote (tk : Task) (m : Nat) (b : Member) : (tk.putMember m b).vote = tk.vote := rfl
@[simp] theorem Task.putMember_readySince (tk : Task) (m : Nat) (b : Member) : (tk.putMember m b).readySince = tk.readySince := rfl
@[simp] theorem Task.putMember_unplaced (tk : Task) (m : Nat) (b : Member) : (tk.putMember m b).unplaced = tk.unplaced := rfl
@[simp] theorem Task.putMember_preemptReq (tk : Task) (m : Nat) (b : Member) : (tk.putMember m b).preemptReq = tk.preemptReq := rfl
@[simp] theorem Task.putMember_termReq (tk : Task) (m : Nat) (b : Member) : (tk.putMember m b).termReq = tk.termReq := rfl
@[simp] theorem Task.putMember_fatal (tk : Task) (m : Nat) (b : Member) : (tk.putMember m b).fatal = tk.fatal := rfl
@[simp] theorem Task.putMember_placedOnce (tk : Task) (m : Nat) (b : Member) : (tk.putMember m b).placedOnce = tk.placedOnce := rfl
@[simp] theorem Task.putMember_before (tk : Task) (m : Nat) (b : Member) : (tk.putMember m b).before = tk.before := rfl
@[simp] theorem Task.putMember_ending (tk : Task) (m : Nat) (b : Member) : (tk.putMember m b).ending = tk.ending := rfl
@[simp] theorem Task.putMember_mu (tk : Task) (m : Nat) (b : Member) : (tk.putMember m b).mu = tk.mu := rfl
@[simp] theorem Task.putMember_keep (tk : Task) (m : Nat) (b : Member) : (tk.putMember m b).keep = tk.keep := rfl
@[simp] theorem Task.putMember_poolBytes (tk : Task) (m : Nat) (b : Member) : (tk.putMember m b).poolBytes = tk.poolBytes := rfl
@[simp] theorem Task.putMember_began (tk : Task) (m : Nat) (b : Member) : (tk.putMember m b).began = tk.began := rfl
@[simp] theorem Task.putMember_members (tk : Task) (m : Nat) (b : Member) : (tk.putMember m b).members = tk.members.set m b := rfl
@[simp] theorem Task.putReplica_seq (tk : Task) (k : Nat) (r : Replica) : (tk.putReplica k r).seq = tk.seq := rfl
@[simp] theorem Task.putReplica_node (tk : Task) (k : Nat) (r : Replica) : (tk.putReplica k r).node = tk.node := rfl
@[simp] theorem Task.putReplica_queue (tk : Task) (k : Nat) (r : Replica) : (tk.putReplica k r).queue = tk.queue := rfl
@[simp] theorem Task.putReplica_ctx (tk : Task) (k : Nat) (r : Replica) : (tk.putReplica k r).ctx = tk.ctx := rfl
@[simp] theorem Task.putReplica_tag (tk : Task) (k : Nat) (r : Replica) : (tk.putReplica k r).tag = tk.tag := rfl
@[simp] theorem Task.putReplica_irq (tk : Task) (k : Nat) (r : Replica) : (tk.putReplica k r).irq = tk.irq := rfl
@[simp] theorem Task.putReplica_compl (tk : Task) (k : Nat) (r : Replica) : (tk.putReplica k r).compl = tk.compl := rfl
@[simp] theorem Task.putReplica_hdrVA (tk : Task) (k : Nat) (r : Replica) : (tk.putReplica k r).hdrVA = tk.hdrVA := rfl
@[simp] theorem Task.putReplica_param (tk : Task) (k : Nat) (r : Replica) : (tk.putReplica k r).param = tk.param := rfl
@[simp] theorem Task.putReplica_ptroot (tk : Task) (k : Nat) (r : Replica) : (tk.putReplica k r).ptroot = tk.ptroot := rfl
@[simp] theorem Task.putReplica_btab (tk : Task) (k : Nat) (r : Replica) : (tk.putReplica k r).btab = tk.btab := rfl
@[simp] theorem Task.putReplica_hint (tk : Task) (k : Nat) (r : Replica) : (tk.putReplica k r).hint = tk.hint := rfl
@[simp] theorem Task.putReplica_part (tk : Task) (k : Nat) (r : Replica) : (tk.putReplica k r).part = tk.part := rfl
@[simp] theorem Task.putReplica_rpol (tk : Task) (k : Nat) (r : Replica) : (tk.putReplica k r).rpol = tk.rpol := rfl
@[simp] theorem Task.putReplica_tcpool (tk : Task) (k : Nat) (r : Replica) : (tk.putReplica k r).tcpool = tk.tcpool := rfl
@[simp] theorem Task.putReplica_qbase (tk : Task) (k : Nat) (r : Replica) : (tk.putReplica k r).qbase = tk.qbase := rfl
@[simp] theorem Task.putReplica_graph (tk : Task) (k : Nat) (r : Replica) : (tk.putReplica k r).graph = tk.graph := rfl
@[simp] theorem Task.putReplica_fromTT (tk : Task) (k : Nat) (r : Replica) : (tk.putReplica k r).fromTT = tk.fromTT := rfl
@[simp] theorem Task.putReplica_state (tk : Task) (k : Nat) (r : Replica) : (tk.putReplica k r).state = tk.state := rfl
@[simp] theorem Task.putReplica_hdr (tk : Task) (k : Nat) (r : Replica) : (tk.putReplica k r).hdr = tk.hdr := rfl
@[simp] theorem Task.putReplica_pool (tk : Task) (k : Nat) (r : Replica) : (tk.putReplica k r).pool = tk.pool := rfl
@[simp] theorem Task.putReplica_members (tk : Task) (k : Nat) (r : Replica) : (tk.putReplica k r).members = tk.members := rfl
@[simp] theorem Task.putReplica_discards (tk : Task) (k : Nat) (r : Replica) : (tk.putReplica k r).discards = tk.discards := rfl
@[simp] theorem Task.putReplica_attempt (tk : Task) (k : Nat) (r : Replica) : (tk.putReplica k r).attempt = tk.attempt := rfl
@[simp] theorem Task.putReplica_budget (tk : Task) (k : Nat) (r : Replica) : (tk.putReplica k r).budget = tk.budget := rfl
@[simp] theorem Task.putReplica_so (tk : Task) (k : Nat) (r : Replica) : (tk.putReplica k r).so = tk.so := rfl
@[simp] theorem Task.putReplica_faultLive (tk : Task) (k : Nat) (r : Replica) : (tk.putReplica k r).faultLive = tk.faultLive := rfl
@[simp] theorem Task.putReplica_commit (tk : Task) (k : Nat) (r : Replica) : (tk.putReplica k r).commit = tk.commit := rfl
@[simp] theorem Task.putReplica_commitFinal (tk : Task) (k : Nat) (r : Replica) : (tk.putReplica k r).commitFinal = tk.commitFinal := rfl
@[simp] theorem Task.putReplica_commitPending (tk : Task) (k : Nat) (r : Replica) : (tk.putReplica k r).commitPending = tk.commitPending := rfl
@[simp] theorem Task.putReplica_vote (tk : Task) (k : Nat) (r : Replica) : (tk.putReplica k r).vote = tk.vote := rfl
@[simp] theorem Task.putReplica_readySince (tk : Task) (k : Nat) (r : Replica) : (tk.putReplica k r).readySince = tk.readySince := rfl
@[simp] theorem Task.putReplica_unplaced (tk : Task) (k : Nat) (r : Replica) : (tk.putReplica k r).unplaced = tk.unplaced := rfl
@[simp] theorem Task.putReplica_preemptReq (tk : Task) (k : Nat) (r : Replica) : (tk.putReplica k r).preemptReq = tk.preemptReq := rfl
@[simp] theorem Task.putReplica_termReq (tk : Task) (k : Nat) (r : Replica) : (tk.putReplica k r).termReq = tk.termReq := rfl
@[simp] theorem Task.putReplica_fatal (tk : Task) (k : Nat) (r : Replica) : (tk.putReplica k r).fatal = tk.fatal := rfl
@[simp] theorem Task.putReplica_placedOnce (tk : Task) (k : Nat) (r : Replica) : (tk.putReplica k r).placedOnce = tk.placedOnce := rfl
@[simp] theorem Task.putReplica_before (tk : Task) (k : Nat) (r : Replica) : (tk.putReplica k r).before = tk.before := rfl
@[simp] theorem Task.putReplica_ending (tk : Task) (k : Nat) (r : Replica) : (tk.putReplica k r).ending = tk.ending := rfl
@[simp] theorem Task.putReplica_mu (tk : Task) (k : Nat) (r : Replica) : (tk.putReplica k r).mu = tk.mu := rfl
@[simp] theorem Task.putReplica_keep (tk : Task) (k : Nat) (r : Replica) : (tk.putReplica k r).keep = tk.keep := rfl
@[simp] theorem Task.putReplica_poolBytes (tk : Task) (k : Nat) (r : Replica) : (tk.putReplica k r).poolBytes = tk.poolBytes := rfl
@[simp] theorem Task.putReplica_began (tk : Task) (k : Nat) (r : Replica) : (tk.putReplica k r).began = tk.began := rfl
@[simp] theorem Task.setHandle_seq (tk : Task) (so : BitVec 6) (h : Handle) : (tk.setHandle so h).seq = tk.seq := rfl
@[simp] theorem Task.setHandle_node (tk : Task) (so : BitVec 6) (h : Handle) : (tk.setHandle so h).node = tk.node := rfl
@[simp] theorem Task.setHandle_queue (tk : Task) (so : BitVec 6) (h : Handle) : (tk.setHandle so h).queue = tk.queue := rfl
@[simp] theorem Task.setHandle_ctx (tk : Task) (so : BitVec 6) (h : Handle) : (tk.setHandle so h).ctx = tk.ctx := rfl
@[simp] theorem Task.setHandle_tag (tk : Task) (so : BitVec 6) (h : Handle) : (tk.setHandle so h).tag = tk.tag := rfl
@[simp] theorem Task.setHandle_irq (tk : Task) (so : BitVec 6) (h : Handle) : (tk.setHandle so h).irq = tk.irq := rfl
@[simp] theorem Task.setHandle_compl (tk : Task) (so : BitVec 6) (h : Handle) : (tk.setHandle so h).compl = tk.compl := rfl
@[simp] theorem Task.setHandle_hdrVA (tk : Task) (so : BitVec 6) (h : Handle) : (tk.setHandle so h).hdrVA = tk.hdrVA := rfl
@[simp] theorem Task.setHandle_param (tk : Task) (so : BitVec 6) (h : Handle) : (tk.setHandle so h).param = tk.param := rfl
@[simp] theorem Task.setHandle_ptroot (tk : Task) (so : BitVec 6) (h : Handle) : (tk.setHandle so h).ptroot = tk.ptroot := rfl
@[simp] theorem Task.setHandle_btab (tk : Task) (so : BitVec 6) (h : Handle) : (tk.setHandle so h).btab = tk.btab := rfl
@[simp] theorem Task.setHandle_hint (tk : Task) (so : BitVec 6) (h : Handle) : (tk.setHandle so h).hint = tk.hint := rfl
@[simp] theorem Task.setHandle_part (tk : Task) (so : BitVec 6) (h : Handle) : (tk.setHandle so h).part = tk.part := rfl
@[simp] theorem Task.setHandle_rpol (tk : Task) (so : BitVec 6) (h : Handle) : (tk.setHandle so h).rpol = tk.rpol := rfl
@[simp] theorem Task.setHandle_tcpool (tk : Task) (so : BitVec 6) (h : Handle) : (tk.setHandle so h).tcpool = tk.tcpool := rfl
@[simp] theorem Task.setHandle_qbase (tk : Task) (so : BitVec 6) (h : Handle) : (tk.setHandle so h).qbase = tk.qbase := rfl
@[simp] theorem Task.setHandle_graph (tk : Task) (so : BitVec 6) (h : Handle) : (tk.setHandle so h).graph = tk.graph := rfl
@[simp] theorem Task.setHandle_fromTT (tk : Task) (so : BitVec 6) (h : Handle) : (tk.setHandle so h).fromTT = tk.fromTT := rfl
@[simp] theorem Task.setHandle_state (tk : Task) (so : BitVec 6) (h : Handle) : (tk.setHandle so h).state = tk.state := rfl
@[simp] theorem Task.setHandle_hdr (tk : Task) (so : BitVec 6) (h : Handle) : (tk.setHandle so h).hdr = tk.hdr := rfl
@[simp] theorem Task.setHandle_pool (tk : Task) (so : BitVec 6) (h : Handle) : (tk.setHandle so h).pool = tk.pool := rfl
@[simp] theorem Task.setHandle_members (tk : Task) (so : BitVec 6) (h : Handle) : (tk.setHandle so h).members = tk.members := rfl
@[simp] theorem Task.setHandle_replicas (tk : Task) (so : BitVec 6) (h : Handle) : (tk.setHandle so h).replicas = tk.replicas := rfl
@[simp] theorem Task.setHandle_discards (tk : Task) (so : BitVec 6) (h : Handle) : (tk.setHandle so h).discards = tk.discards := rfl
@[simp] theorem Task.setHandle_attempt (tk : Task) (so : BitVec 6) (h : Handle) : (tk.setHandle so h).attempt = tk.attempt := rfl
@[simp] theorem Task.setHandle_budget (tk : Task) (so : BitVec 6) (h : Handle) : (tk.setHandle so h).budget = tk.budget := rfl
@[simp] theorem Task.setHandle_faultLive (tk : Task) (so : BitVec 6) (h : Handle) : (tk.setHandle so h).faultLive = tk.faultLive := rfl
@[simp] theorem Task.setHandle_commit (tk : Task) (so : BitVec 6) (h : Handle) : (tk.setHandle so h).commit = tk.commit := rfl
@[simp] theorem Task.setHandle_commitFinal (tk : Task) (so : BitVec 6) (h : Handle) : (tk.setHandle so h).commitFinal = tk.commitFinal := rfl
@[simp] theorem Task.setHandle_commitPending (tk : Task) (so : BitVec 6) (h : Handle) : (tk.setHandle so h).commitPending = tk.commitPending := rfl
@[simp] theorem Task.setHandle_vote (tk : Task) (so : BitVec 6) (h : Handle) : (tk.setHandle so h).vote = tk.vote := rfl
@[simp] theorem Task.setHandle_readySince (tk : Task) (so : BitVec 6) (h : Handle) : (tk.setHandle so h).readySince = tk.readySince := rfl
@[simp] theorem Task.setHandle_unplaced (tk : Task) (so : BitVec 6) (h : Handle) : (tk.setHandle so h).unplaced = tk.unplaced := rfl
@[simp] theorem Task.setHandle_preemptReq (tk : Task) (so : BitVec 6) (h : Handle) : (tk.setHandle so h).preemptReq = tk.preemptReq := rfl
@[simp] theorem Task.setHandle_termReq (tk : Task) (so : BitVec 6) (h : Handle) : (tk.setHandle so h).termReq = tk.termReq := rfl
@[simp] theorem Task.setHandle_fatal (tk : Task) (so : BitVec 6) (h : Handle) : (tk.setHandle so h).fatal = tk.fatal := rfl
@[simp] theorem Task.setHandle_placedOnce (tk : Task) (so : BitVec 6) (h : Handle) : (tk.setHandle so h).placedOnce = tk.placedOnce := rfl
@[simp] theorem Task.setHandle_before (tk : Task) (so : BitVec 6) (h : Handle) : (tk.setHandle so h).before = tk.before := rfl
@[simp] theorem Task.setHandle_ending (tk : Task) (so : BitVec 6) (h : Handle) : (tk.setHandle so h).ending = tk.ending := rfl
@[simp] theorem Task.setHandle_mu (tk : Task) (so : BitVec 6) (h : Handle) : (tk.setHandle so h).mu = tk.mu := rfl
@[simp] theorem Task.setHandle_keep (tk : Task) (so : BitVec 6) (h : Handle) : (tk.setHandle so h).keep = tk.keep := rfl
@[simp] theorem Task.setHandle_poolBytes (tk : Task) (so : BitVec 6) (h : Handle) : (tk.setHandle so h).poolBytes = tk.poolBytes := rfl
@[simp] theorem Task.setHandle_began (tk : Task) (so : BitVec 6) (h : Handle) : (tk.setHandle so h).began = tk.began := rfl
@[simp] theorem Task.invalidate_seq (tk : Task) (ids : List Nat) : (tk.invalidate ids).seq = tk.seq := rfl
@[simp] theorem Task.invalidate_node (tk : Task) (ids : List Nat) : (tk.invalidate ids).node = tk.node := rfl
@[simp] theorem Task.invalidate_queue (tk : Task) (ids : List Nat) : (tk.invalidate ids).queue = tk.queue := rfl
@[simp] theorem Task.invalidate_ctx (tk : Task) (ids : List Nat) : (tk.invalidate ids).ctx = tk.ctx := rfl
@[simp] theorem Task.invalidate_tag (tk : Task) (ids : List Nat) : (tk.invalidate ids).tag = tk.tag := rfl
@[simp] theorem Task.invalidate_irq (tk : Task) (ids : List Nat) : (tk.invalidate ids).irq = tk.irq := rfl
@[simp] theorem Task.invalidate_compl (tk : Task) (ids : List Nat) : (tk.invalidate ids).compl = tk.compl := rfl
@[simp] theorem Task.invalidate_hdrVA (tk : Task) (ids : List Nat) : (tk.invalidate ids).hdrVA = tk.hdrVA := rfl
@[simp] theorem Task.invalidate_param (tk : Task) (ids : List Nat) : (tk.invalidate ids).param = tk.param := rfl
@[simp] theorem Task.invalidate_ptroot (tk : Task) (ids : List Nat) : (tk.invalidate ids).ptroot = tk.ptroot := rfl
@[simp] theorem Task.invalidate_btab (tk : Task) (ids : List Nat) : (tk.invalidate ids).btab = tk.btab := rfl
@[simp] theorem Task.invalidate_hint (tk : Task) (ids : List Nat) : (tk.invalidate ids).hint = tk.hint := rfl
@[simp] theorem Task.invalidate_part (tk : Task) (ids : List Nat) : (tk.invalidate ids).part = tk.part := rfl
@[simp] theorem Task.invalidate_rpol (tk : Task) (ids : List Nat) : (tk.invalidate ids).rpol = tk.rpol := rfl
@[simp] theorem Task.invalidate_tcpool (tk : Task) (ids : List Nat) : (tk.invalidate ids).tcpool = tk.tcpool := rfl
@[simp] theorem Task.invalidate_qbase (tk : Task) (ids : List Nat) : (tk.invalidate ids).qbase = tk.qbase := rfl
@[simp] theorem Task.invalidate_graph (tk : Task) (ids : List Nat) : (tk.invalidate ids).graph = tk.graph := rfl
@[simp] theorem Task.invalidate_fromTT (tk : Task) (ids : List Nat) : (tk.invalidate ids).fromTT = tk.fromTT := rfl
@[simp] theorem Task.invalidate_state (tk : Task) (ids : List Nat) : (tk.invalidate ids).state = tk.state := rfl
@[simp] theorem Task.invalidate_hdr (tk : Task) (ids : List Nat) : (tk.invalidate ids).hdr = tk.hdr := rfl
@[simp] theorem Task.invalidate_pool (tk : Task) (ids : List Nat) : (tk.invalidate ids).pool = tk.pool := rfl
@[simp] theorem Task.invalidate_replicas (tk : Task) (ids : List Nat) : (tk.invalidate ids).replicas = tk.replicas := rfl
@[simp] theorem Task.invalidate_discards (tk : Task) (ids : List Nat) : (tk.invalidate ids).discards = tk.discards := rfl
@[simp] theorem Task.invalidate_attempt (tk : Task) (ids : List Nat) : (tk.invalidate ids).attempt = tk.attempt := rfl
@[simp] theorem Task.invalidate_budget (tk : Task) (ids : List Nat) : (tk.invalidate ids).budget = tk.budget := rfl
@[simp] theorem Task.invalidate_so (tk : Task) (ids : List Nat) : (tk.invalidate ids).so = tk.so := rfl
@[simp] theorem Task.invalidate_faultLive (tk : Task) (ids : List Nat) : (tk.invalidate ids).faultLive = tk.faultLive := rfl
@[simp] theorem Task.invalidate_commit (tk : Task) (ids : List Nat) : (tk.invalidate ids).commit = tk.commit := rfl
@[simp] theorem Task.invalidate_commitFinal (tk : Task) (ids : List Nat) : (tk.invalidate ids).commitFinal = tk.commitFinal := rfl
@[simp] theorem Task.invalidate_commitPending (tk : Task) (ids : List Nat) : (tk.invalidate ids).commitPending = tk.commitPending := rfl
@[simp] theorem Task.invalidate_vote (tk : Task) (ids : List Nat) : (tk.invalidate ids).vote = tk.vote := rfl
@[simp] theorem Task.invalidate_readySince (tk : Task) (ids : List Nat) : (tk.invalidate ids).readySince = tk.readySince := rfl
@[simp] theorem Task.invalidate_unplaced (tk : Task) (ids : List Nat) : (tk.invalidate ids).unplaced = tk.unplaced := rfl
@[simp] theorem Task.invalidate_preemptReq (tk : Task) (ids : List Nat) : (tk.invalidate ids).preemptReq = tk.preemptReq := rfl
@[simp] theorem Task.invalidate_termReq (tk : Task) (ids : List Nat) : (tk.invalidate ids).termReq = tk.termReq := rfl
@[simp] theorem Task.invalidate_fatal (tk : Task) (ids : List Nat) : (tk.invalidate ids).fatal = tk.fatal := rfl
@[simp] theorem Task.invalidate_placedOnce (tk : Task) (ids : List Nat) : (tk.invalidate ids).placedOnce = tk.placedOnce := rfl
@[simp] theorem Task.invalidate_before (tk : Task) (ids : List Nat) : (tk.invalidate ids).before = tk.before := rfl
@[simp] theorem Task.invalidate_ending (tk : Task) (ids : List Nat) : (tk.invalidate ids).ending = tk.ending := rfl
@[simp] theorem Task.invalidate_mu (tk : Task) (ids : List Nat) : (tk.invalidate ids).mu = tk.mu := rfl
@[simp] theorem Task.invalidate_keep (tk : Task) (ids : List Nat) : (tk.invalidate ids).keep = tk.keep := rfl
@[simp] theorem Task.invalidate_poolBytes (tk : Task) (ids : List Nat) : (tk.invalidate ids).poolBytes = tk.poolBytes := rfl
@[simp] theorem Task.invalidate_began (tk : Task) (ids : List Nat) : (tk.invalidate ids).began = tk.began := rfl

/-! ## A member -/

@[simp] theorem Member.wr_core (mem : Member) (r : BitVec 5) (v : Scalar) : (mem.wr r v).core = mem.core := by
  unfold Member.wr; split <;> rfl
@[simp] theorem Member.wr_rank (mem : Member) (r : BitVec 5) (v : Scalar) : (mem.wr r v).rank = mem.rank := by
  unfold Member.wr; split <;> rfl
@[simp] theorem Member.wr_replica (mem : Member) (r : BitVec 5) (v : Scalar) : (mem.wr r v).replica = mem.replica := by
  unfold Member.wr; split <;> rfl
@[simp] theorem Member.wr_d (mem : Member) (r : BitVec 5) (v : Scalar) : (mem.wr r v).d = mem.d := by
  unfold Member.wr; split <;> rfl
@[simp] theorem Member.wr_win (mem : Member) (r : BitVec 5) (v : Scalar) : (mem.wr r v).win = mem.win := by
  unfold Member.wr; split <;> rfl
@[simp] theorem Member.wr_sem (mem : Member) (r : BitVec 5) (v : Scalar) : (mem.wr r v).sem = mem.sem := by
  unfold Member.wr; split <;> rfl
@[simp] theorem Member.wr_tq (mem : Member) (r : BitVec 5) (v : Scalar) : (mem.wr r v).tq = mem.tq := by
  unfold Member.wr; split <;> rfl
@[simp] theorem Member.wr_mb (mem : Member) (r : BitVec 5) (v : Scalar) : (mem.wr r v).mb = mem.mb := by
  unfold Member.wr; split <;> rfl
@[simp] theorem Member.wr_v (mem : Member) (r : BitVec 5) (v : Scalar) : (mem.wr r v).v = mem.v := by
  unfold Member.wr; split <;> rfl
@[simp] theorem Member.wr_la (mem : Member) (r : BitVec 5) (v : Scalar) : (mem.wr r v).la = mem.la := by
  unfold Member.wr; split <;> rfl
@[simp] theorem Member.wr_lb (mem : Member) (r : BitVec 5) (v : Scalar) : (mem.wr r v).lb = mem.lb := by
  unfold Member.wr; split <;> rfl
@[simp] theorem Member.wr_lt (mem : Member) (r : BitVec 5) (v : Scalar) : (mem.wr r v).lt = mem.lt := by
  unfold Member.wr; split <;> rfl
@[simp] theorem Member.wr_lq (mem : Member) (r : BitVec 5) (v : Scalar) : (mem.wr r v).lq = mem.lq := by
  unfold Member.wr; split <;> rfl
@[simp] theorem Member.wr_mark (mem : Member) (r : BitVec 5) (v : Scalar) : (mem.wr r v).mark = mem.mark := by
  unfold Member.wr; split <;> rfl
@[simp] theorem Member.wr_acc (mem : Member) (r : BitVec 5) (v : Scalar) : (mem.wr r v).acc = mem.acc := by
  unfold Member.wr; split <;> rfl
@[simp] theorem Member.wr_accReady (mem : Member) (r : BitVec 5) (v : Scalar) : (mem.wr r v).accReady = mem.accReady := by
  unfold Member.wr; split <;> rfl
@[simp] theorem Member.wr_kf (mem : Member) (r : BitVec 5) (v : Scalar) : (mem.wr r v).kf = mem.kf := by
  unfold Member.wr; split <;> rfl
@[simp] theorem Member.wr_spad (mem : Member) (r : BitVec 5) (v : Scalar) : (mem.wr r v).spad = mem.spad := by
  unfold Member.wr; split <;> rfl
@[simp] theorem Member.wr_spStart (mem : Member) (r : BitVec 5) (v : Scalar) : (mem.wr r v).spStart = mem.spStart := by
  unfold Member.wr; split <;> rfl
@[simp] theorem Member.wr_spMid (mem : Member) (r : BitVec 5) (v : Scalar) : (mem.wr r v).spMid = mem.spMid := by
  unfold Member.wr; split <;> rfl
@[simp] theorem Member.wr_wrote (mem : Member) (r : BitVec 5) (v : Scalar) : (mem.wr r v).wrote = mem.wrote := by
  unfold Member.wr; split <;> rfl
@[simp] theorem Member.wr_kWrote (mem : Member) (r : BitVec 5) (v : Scalar) : (mem.wr r v).kWrote = mem.kWrote := by
  unfold Member.wr; split <;> rfl
@[simp] theorem Member.wr_streams (mem : Member) (r : BitVec 5) (v : Scalar) : (mem.wr r v).streams = mem.streams := by
  unfold Member.wr; split <;> rfl
@[simp] theorem Member.wr_stall (mem : Member) (r : BitVec 5) (v : Scalar) : (mem.wr r v).stall = mem.stall := by
  unfold Member.wr; split <;> rfl
@[simp] theorem Member.wr_moves (mem : Member) (r : BitVec 5) (v : Scalar) : (mem.wr r v).moves = mem.moves := by
  unfold Member.wr; split <;> rfl
@[simp] theorem Member.wr_starts (mem : Member) (r : BitVec 5) (v : Scalar) : (mem.wr r v).starts = mem.starts := by
  unfold Member.wr; split <;> rfl
@[simp] theorem Member.wr_chains (mem : Member) (r : BitVec 5) (v : Scalar) : (mem.wr r v).chains = mem.chains := by
  unfold Member.wr; split <;> rfl
@[simp] theorem Member.wr_results (mem : Member) (r : BitVec 5) (v : Scalar) : (mem.wr r v).results = mem.results := by
  unfold Member.wr; split <;> rfl
@[simp] theorem Member.wr_jobs (mem : Member) (r : BitVec 5) (v : Scalar) : (mem.wr r v).jobs = mem.jobs := by
  unfold Member.wr; split <;> rfl
@[simp] theorem Member.wr_arrayFree (mem : Member) (r : BitVec 5) (v : Scalar) : (mem.wr r v).arrayFree = mem.arrayFree := by
  unfold Member.wr; split <;> rfl
@[simp] theorem Member.wr_rstreams (mem : Member) (r : BitVec 5) (v : Scalar) : (mem.wr r v).rstreams = mem.rstreams := by
  unfold Member.wr; split <;> rfl
@[simp] theorem Member.wr_matNow (mem : Member) (r : BitVec 5) (v : Scalar) : (mem.wr r v).matNow = mem.matNow := by
  unfold Member.wr; split <;> rfl
@[simp] theorem Member.wr_cmds (mem : Member) (r : BitVec 5) (v : Scalar) : (mem.wr r v).cmds = mem.cmds := by
  unfold Member.wr; split <;> rfl
@[simp] theorem Member.wr_nextCmd (mem : Member) (r : BitVec 5) (v : Scalar) : (mem.wr r v).nextCmd = mem.nextCmd := by
  unfold Member.wr; split <;> rfl
@[simp] theorem Member.wr_batchL (mem : Member) (r : BitVec 5) (v : Scalar) : (mem.wr r v).batchL = mem.batchL := by
  unfold Member.wr; split <;> rfl
@[simp] theorem Member.wr_batchS (mem : Member) (r : BitVec 5) (v : Scalar) : (mem.wr r v).batchS = mem.batchS := by
  unfold Member.wr; split <;> rfl
@[simp] theorem Member.wr_held (mem : Member) (r : BitVec 5) (v : Scalar) : (mem.wr r v).held = mem.held := by
  unfold Member.wr; split <;> rfl
@[simp] theorem Member.wr_dwq (mem : Member) (r : BitVec 5) (v : Scalar) : (mem.wr r v).dwq = mem.dwq := by
  unfold Member.wr; split <;> rfl
@[simp] theorem Member.wr_lastAcc (mem : Member) (r : BitVec 5) (v : Scalar) : (mem.wr r v).lastAcc = mem.lastAcc := by
  unfold Member.wr; split <;> rfl
@[simp] theorem Member.wr_frozen (mem : Member) (r : BitVec 5) (v : Scalar) : (mem.wr r v).frozen = mem.frozen := by
  unfold Member.wr; split <;> rfl
@[simp] theorem Member.wr_replay (mem : Member) (r : BitVec 5) (v : Scalar) : (mem.wr r v).replay = mem.replay := by
  unfold Member.wr; split <;> rfl
@[simp] theorem Member.wr_replayPos (mem : Member) (r : BitVec 5) (v : Scalar) : (mem.wr r v).replayPos = mem.replayPos := by
  unfold Member.wr; split <;> rfl
@[simp] theorem Member.wr_rels (mem : Member) (r : BitVec 5) (v : Scalar) : (mem.wr r v).rels = mem.rels := by
  unfold Member.wr; split <;> rfl
@[simp] theorem Member.wr_arms (mem : Member) (r : BitVec 5) (v : Scalar) : (mem.wr r v).arms = mem.arms := by
  unfold Member.wr; split <;> rfl
@[simp] theorem Member.wr_bowaits (mem : Member) (r : BitVec 5) (v : Scalar) : (mem.wr r v).bowaits = mem.bowaits := by
  unfold Member.wr; split <;> rfl
@[simp] theorem Member.wr_spawns (mem : Member) (r : BitVec 5) (v : Scalar) : (mem.wr r v).spawns = mem.spawns := by
  unfold Member.wr; split <;> rfl
@[simp] theorem Member.wr_sigC (mem : Member) (r : BitVec 5) (v : Scalar) : (mem.wr r v).sigC = mem.sigC := by
  unfold Member.wr; split <;> rfl
@[simp] theorem Member.wr_sigL (mem : Member) (r : BitVec 5) (v : Scalar) : (mem.wr r v).sigL = mem.sigL := by
  unfold Member.wr; split <;> rfl
@[simp] theorem Member.wr_sigS (mem : Member) (r : BitVec 5) (v : Scalar) : (mem.wr r v).sigS = mem.sigS := by
  unfold Member.wr; split <;> rfl
@[simp] theorem Member.wr_recCounts (mem : Member) (r : BitVec 5) (v : Scalar) : (mem.wr r v).recCounts = mem.recCounts := by
  unfold Member.wr; split <;> rfl
@[simp] theorem Member.wr_echoes (mem : Member) (r : BitVec 5) (v : Scalar) : (mem.wr r v).echoes = mem.echoes := by
  unfold Member.wr; split <;> rfl
@[simp] theorem Member.wr_echoSent (mem : Member) (r : BitVec 5) (v : Scalar) : (mem.wr r v).echoSent = mem.echoSent := by
  unfold Member.wr; split <;> rfl
@[simp] theorem Member.wr_flips (mem : Member) (r : BitVec 5) (v : Scalar) : (mem.wr r v).flips = mem.flips := by
  unfold Member.wr; split <;> rfl
@[simp] theorem Member.wr_counts (mem : Member) (r : BitVec 5) (v : Scalar) : (mem.wr r v).counts = mem.counts := by
  unfold Member.wr; split <;> rfl
@[simp] theorem Member.wr_stores (mem : Member) (r : BitVec 5) (v : Scalar) : (mem.wr r v).stores = mem.stores := by
  unfold Member.wr; split <;> rfl
@[simp] theorem Member.wr_seen (mem : Member) (r : BitVec 5) (v : Scalar) : (mem.wr r v).seen = mem.seen := by
  unfold Member.wr; split <;> rfl
@[simp] theorem Member.wr_saw (mem : Member) (r : BitVec 5) (v : Scalar) : (mem.wr r v).saw = mem.saw := by
  unfold Member.wr; split <;> rfl
@[simp] theorem Member.wr_l1 (mem : Member) (r : BitVec 5) (v : Scalar) : (mem.wr r v).l1 = mem.l1 := by
  unfold Member.wr; split <;> rfl
@[simp] theorem Member.wr_tlbC (mem : Member) (r : BitVec 5) (v : Scalar) : (mem.wr r v).tlbC = mem.tlbC := by
  unfold Member.wr; split <;> rfl
@[simp] theorem Member.wr_tlbL (mem : Member) (r : BitVec 5) (v : Scalar) : (mem.wr r v).tlbL = mem.tlbL := by
  unfold Member.wr; split <;> rfl
@[simp] theorem Member.wr_tlbS (mem : Member) (r : BitVec 5) (v : Scalar) : (mem.wr r v).tlbS = mem.tlbS := by
  unfold Member.wr; split <;> rfl
@[simp] theorem Member.wr_pend (mem : Member) (r : BitVec 5) (v : Scalar) : (mem.wr r v).pend = mem.pend := by
  unfold Member.wr; split <;> rfl
@[simp] theorem Member.wr_ckpt (mem : Member) (r : BitVec 5) (v : Scalar) : (mem.wr r v).ckpt = mem.ckpt := by
  unfold Member.wr; split <;> rfl
@[simp] theorem Member.wr_savedPieces (mem : Member) (r : BitVec 5) (v : Scalar) : (mem.wr r v).savedPieces = mem.savedPieces := by
  unfold Member.wr; split <;> rfl
@[simp] theorem Member.wr_stuck (mem : Member) (r : BitVec 5) (v : Scalar) : (mem.wr r v).stuck = mem.stuck := by
  unfold Member.wr; split <;> rfl
@[simp] theorem Member.setStr_core (mem : Member) (x : Stream) (v : StreamSt) : (mem.setStr x v).core = mem.core := by cases x <;> rfl
@[simp] theorem Member.setStr_rank (mem : Member) (x : Stream) (v : StreamSt) : (mem.setStr x v).rank = mem.rank := by cases x <;> rfl
@[simp] theorem Member.setStr_replica (mem : Member) (x : Stream) (v : StreamSt) : (mem.setStr x v).replica = mem.replica := by cases x <;> rfl
@[simp] theorem Member.setStr_g (mem : Member) (x : Stream) (v : StreamSt) : (mem.setStr x v).g = mem.g := by cases x <;> rfl
@[simp] theorem Member.setStr_d (mem : Member) (x : Stream) (v : StreamSt) : (mem.setStr x v).d = mem.d := by cases x <;> rfl
@[simp] theorem Member.setStr_win (mem : Member) (x : Stream) (v : StreamSt) : (mem.setStr x v).win = mem.win := by cases x <;> rfl
@[simp] theorem Member.setStr_sem (mem : Member) (x : Stream) (v : StreamSt) : (mem.setStr x v).sem = mem.sem := by cases x <;> rfl
@[simp] theorem Member.setStr_tq (mem : Member) (x : Stream) (v : StreamSt) : (mem.setStr x v).tq = mem.tq := by cases x <;> rfl
@[simp] theorem Member.setStr_mb (mem : Member) (x : Stream) (v : StreamSt) : (mem.setStr x v).mb = mem.mb := by cases x <;> rfl
@[simp] theorem Member.setStr_v (mem : Member) (x : Stream) (v : StreamSt) : (mem.setStr x v).v = mem.v := by cases x <;> rfl
@[simp] theorem Member.setStr_la (mem : Member) (x : Stream) (v : StreamSt) : (mem.setStr x v).la = mem.la := by cases x <;> rfl
@[simp] theorem Member.setStr_lb (mem : Member) (x : Stream) (v : StreamSt) : (mem.setStr x v).lb = mem.lb := by cases x <;> rfl
@[simp] theorem Member.setStr_lt (mem : Member) (x : Stream) (v : StreamSt) : (mem.setStr x v).lt = mem.lt := by cases x <;> rfl
@[simp] theorem Member.setStr_lq (mem : Member) (x : Stream) (v : StreamSt) : (mem.setStr x v).lq = mem.lq := by cases x <;> rfl
@[simp] theorem Member.setStr_mark (mem : Member) (x : Stream) (v : StreamSt) : (mem.setStr x v).mark = mem.mark := by cases x <;> rfl
@[simp] theorem Member.setStr_acc (mem : Member) (x : Stream) (v : StreamSt) : (mem.setStr x v).acc = mem.acc := by cases x <;> rfl
@[simp] theorem Member.setStr_accReady (mem : Member) (x : Stream) (v : StreamSt) : (mem.setStr x v).accReady = mem.accReady := by cases x <;> rfl
@[simp] theorem Member.setStr_kf (mem : Member) (x : Stream) (v : StreamSt) : (mem.setStr x v).kf = mem.kf := by cases x <;> rfl
@[simp] theorem Member.setStr_spad (mem : Member) (x : Stream) (v : StreamSt) : (mem.setStr x v).spad = mem.spad := by cases x <;> rfl
@[simp] theorem Member.setStr_spStart (mem : Member) (x : Stream) (v : StreamSt) : (mem.setStr x v).spStart = mem.spStart := by cases x <;> rfl
@[simp] theorem Member.setStr_spMid (mem : Member) (x : Stream) (v : StreamSt) : (mem.setStr x v).spMid = mem.spMid := by cases x <;> rfl
@[simp] theorem Member.setStr_wrote (mem : Member) (x : Stream) (v : StreamSt) : (mem.setStr x v).wrote = mem.wrote := by cases x <;> rfl
@[simp] theorem Member.setStr_kWrote (mem : Member) (x : Stream) (v : StreamSt) : (mem.setStr x v).kWrote = mem.kWrote := by cases x <;> rfl
@[simp] theorem Member.setStr_stall (mem : Member) (x : Stream) (v : StreamSt) : (mem.setStr x v).stall = mem.stall := by cases x <;> rfl
@[simp] theorem Member.setStr_moves (mem : Member) (x : Stream) (v : StreamSt) : (mem.setStr x v).moves = mem.moves := by cases x <;> rfl
@[simp] theorem Member.setStr_starts (mem : Member) (x : Stream) (v : StreamSt) : (mem.setStr x v).starts = mem.starts := by cases x <;> rfl
@[simp] theorem Member.setStr_chains (mem : Member) (x : Stream) (v : StreamSt) : (mem.setStr x v).chains = mem.chains := by cases x <;> rfl
@[simp] theorem Member.setStr_results (mem : Member) (x : Stream) (v : StreamSt) : (mem.setStr x v).results = mem.results := by cases x <;> rfl
@[simp] theorem Member.setStr_jobs (mem : Member) (x : Stream) (v : StreamSt) : (mem.setStr x v).jobs = mem.jobs := by cases x <;> rfl
@[simp] theorem Member.setStr_arrayFree (mem : Member) (x : Stream) (v : StreamSt) : (mem.setStr x v).arrayFree = mem.arrayFree := by cases x <;> rfl
@[simp] theorem Member.setStr_rstreams (mem : Member) (x : Stream) (v : StreamSt) : (mem.setStr x v).rstreams = mem.rstreams := by cases x <;> rfl
@[simp] theorem Member.setStr_matNow (mem : Member) (x : Stream) (v : StreamSt) : (mem.setStr x v).matNow = mem.matNow := by cases x <;> rfl
@[simp] theorem Member.setStr_cmds (mem : Member) (x : Stream) (v : StreamSt) : (mem.setStr x v).cmds = mem.cmds := by cases x <;> rfl
@[simp] theorem Member.setStr_nextCmd (mem : Member) (x : Stream) (v : StreamSt) : (mem.setStr x v).nextCmd = mem.nextCmd := by cases x <;> rfl
@[simp] theorem Member.setStr_batchL (mem : Member) (x : Stream) (v : StreamSt) : (mem.setStr x v).batchL = mem.batchL := by cases x <;> rfl
@[simp] theorem Member.setStr_batchS (mem : Member) (x : Stream) (v : StreamSt) : (mem.setStr x v).batchS = mem.batchS := by cases x <;> rfl
@[simp] theorem Member.setStr_held (mem : Member) (x : Stream) (v : StreamSt) : (mem.setStr x v).held = mem.held := by cases x <;> rfl
@[simp] theorem Member.setStr_dwq (mem : Member) (x : Stream) (v : StreamSt) : (mem.setStr x v).dwq = mem.dwq := by cases x <;> rfl
@[simp] theorem Member.setStr_lastAcc (mem : Member) (x : Stream) (v : StreamSt) : (mem.setStr x v).lastAcc = mem.lastAcc := by cases x <;> rfl
@[simp] theorem Member.setStr_frozen (mem : Member) (x : Stream) (v : StreamSt) : (mem.setStr x v).frozen = mem.frozen := by cases x <;> rfl
@[simp] theorem Member.setStr_replay (mem : Member) (x : Stream) (v : StreamSt) : (mem.setStr x v).replay = mem.replay := by cases x <;> rfl
@[simp] theorem Member.setStr_replayPos (mem : Member) (x : Stream) (v : StreamSt) : (mem.setStr x v).replayPos = mem.replayPos := by cases x <;> rfl
@[simp] theorem Member.setStr_rels (mem : Member) (x : Stream) (v : StreamSt) : (mem.setStr x v).rels = mem.rels := by cases x <;> rfl
@[simp] theorem Member.setStr_arms (mem : Member) (x : Stream) (v : StreamSt) : (mem.setStr x v).arms = mem.arms := by cases x <;> rfl
@[simp] theorem Member.setStr_bowaits (mem : Member) (x : Stream) (v : StreamSt) : (mem.setStr x v).bowaits = mem.bowaits := by cases x <;> rfl
@[simp] theorem Member.setStr_spawns (mem : Member) (x : Stream) (v : StreamSt) : (mem.setStr x v).spawns = mem.spawns := by cases x <;> rfl
@[simp] theorem Member.setStr_sigC (mem : Member) (x : Stream) (v : StreamSt) : (mem.setStr x v).sigC = mem.sigC := by cases x <;> rfl
@[simp] theorem Member.setStr_sigL (mem : Member) (x : Stream) (v : StreamSt) : (mem.setStr x v).sigL = mem.sigL := by cases x <;> rfl
@[simp] theorem Member.setStr_sigS (mem : Member) (x : Stream) (v : StreamSt) : (mem.setStr x v).sigS = mem.sigS := by cases x <;> rfl
@[simp] theorem Member.setStr_recCounts (mem : Member) (x : Stream) (v : StreamSt) : (mem.setStr x v).recCounts = mem.recCounts := by cases x <;> rfl
@[simp] theorem Member.setStr_echoes (mem : Member) (x : Stream) (v : StreamSt) : (mem.setStr x v).echoes = mem.echoes := by cases x <;> rfl
@[simp] theorem Member.setStr_echoSent (mem : Member) (x : Stream) (v : StreamSt) : (mem.setStr x v).echoSent = mem.echoSent := by cases x <;> rfl
@[simp] theorem Member.setStr_flips (mem : Member) (x : Stream) (v : StreamSt) : (mem.setStr x v).flips = mem.flips := by cases x <;> rfl
@[simp] theorem Member.setStr_counts (mem : Member) (x : Stream) (v : StreamSt) : (mem.setStr x v).counts = mem.counts := by cases x <;> rfl
@[simp] theorem Member.setStr_stores (mem : Member) (x : Stream) (v : StreamSt) : (mem.setStr x v).stores = mem.stores := by cases x <;> rfl
@[simp] theorem Member.setStr_seen (mem : Member) (x : Stream) (v : StreamSt) : (mem.setStr x v).seen = mem.seen := by cases x <;> rfl
@[simp] theorem Member.setStr_saw (mem : Member) (x : Stream) (v : StreamSt) : (mem.setStr x v).saw = mem.saw := by cases x <;> rfl
@[simp] theorem Member.setStr_l1 (mem : Member) (x : Stream) (v : StreamSt) : (mem.setStr x v).l1 = mem.l1 := by cases x <;> rfl
@[simp] theorem Member.setStr_tlbC (mem : Member) (x : Stream) (v : StreamSt) : (mem.setStr x v).tlbC = mem.tlbC := by cases x <;> rfl
@[simp] theorem Member.setStr_tlbL (mem : Member) (x : Stream) (v : StreamSt) : (mem.setStr x v).tlbL = mem.tlbL := by cases x <;> rfl
@[simp] theorem Member.setStr_tlbS (mem : Member) (x : Stream) (v : StreamSt) : (mem.setStr x v).tlbS = mem.tlbS := by cases x <;> rfl
@[simp] theorem Member.setStr_pend (mem : Member) (x : Stream) (v : StreamSt) : (mem.setStr x v).pend = mem.pend := by cases x <;> rfl
@[simp] theorem Member.setStr_ckpt (mem : Member) (x : Stream) (v : StreamSt) : (mem.setStr x v).ckpt = mem.ckpt := by cases x <;> rfl
@[simp] theorem Member.setStr_savedPieces (mem : Member) (x : Stream) (v : StreamSt) : (mem.setStr x v).savedPieces = mem.savedPieces := by cases x <;> rfl
@[simp] theorem Member.setStr_stuck (mem : Member) (x : Stream) (v : StreamSt) : (mem.setStr x v).stuck = mem.stuck := by cases x <;> rfl
@[simp] theorem Member.cNext_core (mem : Member) (c : Nat) : (mem.cNext c).core = mem.core := Member.setStr_core ..
@[simp] theorem Member.cNext_rank (mem : Member) (c : Nat) : (mem.cNext c).rank = mem.rank := Member.setStr_rank ..
@[simp] theorem Member.cNext_replica (mem : Member) (c : Nat) : (mem.cNext c).replica = mem.replica := Member.setStr_replica ..
@[simp] theorem Member.cNext_g (mem : Member) (c : Nat) : (mem.cNext c).g = mem.g := Member.setStr_g ..
@[simp] theorem Member.cNext_d (mem : Member) (c : Nat) : (mem.cNext c).d = mem.d := Member.setStr_d ..
@[simp] theorem Member.cNext_win (mem : Member) (c : Nat) : (mem.cNext c).win = mem.win := Member.setStr_win ..
@[simp] theorem Member.cNext_sem (mem : Member) (c : Nat) : (mem.cNext c).sem = mem.sem := Member.setStr_sem ..
@[simp] theorem Member.cNext_tq (mem : Member) (c : Nat) : (mem.cNext c).tq = mem.tq := Member.setStr_tq ..
@[simp] theorem Member.cNext_mb (mem : Member) (c : Nat) : (mem.cNext c).mb = mem.mb := Member.setStr_mb ..
@[simp] theorem Member.cNext_v (mem : Member) (c : Nat) : (mem.cNext c).v = mem.v := Member.setStr_v ..
@[simp] theorem Member.cNext_la (mem : Member) (c : Nat) : (mem.cNext c).la = mem.la := Member.setStr_la ..
@[simp] theorem Member.cNext_lb (mem : Member) (c : Nat) : (mem.cNext c).lb = mem.lb := Member.setStr_lb ..
@[simp] theorem Member.cNext_lt (mem : Member) (c : Nat) : (mem.cNext c).lt = mem.lt := Member.setStr_lt ..
@[simp] theorem Member.cNext_lq (mem : Member) (c : Nat) : (mem.cNext c).lq = mem.lq := Member.setStr_lq ..
@[simp] theorem Member.cNext_mark (mem : Member) (c : Nat) : (mem.cNext c).mark = mem.mark := Member.setStr_mark ..
@[simp] theorem Member.cNext_acc (mem : Member) (c : Nat) : (mem.cNext c).acc = mem.acc := Member.setStr_acc ..
@[simp] theorem Member.cNext_accReady (mem : Member) (c : Nat) : (mem.cNext c).accReady = mem.accReady := Member.setStr_accReady ..
@[simp] theorem Member.cNext_kf (mem : Member) (c : Nat) : (mem.cNext c).kf = mem.kf := Member.setStr_kf ..
@[simp] theorem Member.cNext_spad (mem : Member) (c : Nat) : (mem.cNext c).spad = mem.spad := Member.setStr_spad ..
@[simp] theorem Member.cNext_spStart (mem : Member) (c : Nat) : (mem.cNext c).spStart = mem.spStart := Member.setStr_spStart ..
@[simp] theorem Member.cNext_spMid (mem : Member) (c : Nat) : (mem.cNext c).spMid = mem.spMid := Member.setStr_spMid ..
@[simp] theorem Member.cNext_wrote (mem : Member) (c : Nat) : (mem.cNext c).wrote = mem.wrote := Member.setStr_wrote ..
@[simp] theorem Member.cNext_kWrote (mem : Member) (c : Nat) : (mem.cNext c).kWrote = mem.kWrote := Member.setStr_kWrote ..
@[simp] theorem Member.cNext_stall (mem : Member) (c : Nat) : (mem.cNext c).stall = mem.stall := Member.setStr_stall ..
@[simp] theorem Member.cNext_moves (mem : Member) (c : Nat) : (mem.cNext c).moves = mem.moves := Member.setStr_moves ..
@[simp] theorem Member.cNext_starts (mem : Member) (c : Nat) : (mem.cNext c).starts = mem.starts := Member.setStr_starts ..
@[simp] theorem Member.cNext_chains (mem : Member) (c : Nat) : (mem.cNext c).chains = mem.chains := Member.setStr_chains ..
@[simp] theorem Member.cNext_results (mem : Member) (c : Nat) : (mem.cNext c).results = mem.results := Member.setStr_results ..
@[simp] theorem Member.cNext_jobs (mem : Member) (c : Nat) : (mem.cNext c).jobs = mem.jobs := Member.setStr_jobs ..
@[simp] theorem Member.cNext_arrayFree (mem : Member) (c : Nat) : (mem.cNext c).arrayFree = mem.arrayFree := Member.setStr_arrayFree ..
@[simp] theorem Member.cNext_rstreams (mem : Member) (c : Nat) : (mem.cNext c).rstreams = mem.rstreams := Member.setStr_rstreams ..
@[simp] theorem Member.cNext_matNow (mem : Member) (c : Nat) : (mem.cNext c).matNow = mem.matNow := Member.setStr_matNow ..
@[simp] theorem Member.cNext_cmds (mem : Member) (c : Nat) : (mem.cNext c).cmds = mem.cmds := Member.setStr_cmds ..
@[simp] theorem Member.cNext_nextCmd (mem : Member) (c : Nat) : (mem.cNext c).nextCmd = mem.nextCmd := Member.setStr_nextCmd ..
@[simp] theorem Member.cNext_batchL (mem : Member) (c : Nat) : (mem.cNext c).batchL = mem.batchL := Member.setStr_batchL ..
@[simp] theorem Member.cNext_batchS (mem : Member) (c : Nat) : (mem.cNext c).batchS = mem.batchS := Member.setStr_batchS ..
@[simp] theorem Member.cNext_held (mem : Member) (c : Nat) : (mem.cNext c).held = mem.held := Member.setStr_held ..
@[simp] theorem Member.cNext_dwq (mem : Member) (c : Nat) : (mem.cNext c).dwq = mem.dwq := Member.setStr_dwq ..
@[simp] theorem Member.cNext_lastAcc (mem : Member) (c : Nat) : (mem.cNext c).lastAcc = mem.lastAcc := Member.setStr_lastAcc ..
@[simp] theorem Member.cNext_frozen (mem : Member) (c : Nat) : (mem.cNext c).frozen = mem.frozen := Member.setStr_frozen ..
@[simp] theorem Member.cNext_replay (mem : Member) (c : Nat) : (mem.cNext c).replay = mem.replay := Member.setStr_replay ..
@[simp] theorem Member.cNext_replayPos (mem : Member) (c : Nat) : (mem.cNext c).replayPos = mem.replayPos := Member.setStr_replayPos ..
@[simp] theorem Member.cNext_rels (mem : Member) (c : Nat) : (mem.cNext c).rels = mem.rels := Member.setStr_rels ..
@[simp] theorem Member.cNext_arms (mem : Member) (c : Nat) : (mem.cNext c).arms = mem.arms := Member.setStr_arms ..
@[simp] theorem Member.cNext_bowaits (mem : Member) (c : Nat) : (mem.cNext c).bowaits = mem.bowaits := Member.setStr_bowaits ..
@[simp] theorem Member.cNext_spawns (mem : Member) (c : Nat) : (mem.cNext c).spawns = mem.spawns := Member.setStr_spawns ..
@[simp] theorem Member.cNext_sigC (mem : Member) (c : Nat) : (mem.cNext c).sigC = mem.sigC := Member.setStr_sigC ..
@[simp] theorem Member.cNext_sigL (mem : Member) (c : Nat) : (mem.cNext c).sigL = mem.sigL := Member.setStr_sigL ..
@[simp] theorem Member.cNext_sigS (mem : Member) (c : Nat) : (mem.cNext c).sigS = mem.sigS := Member.setStr_sigS ..
@[simp] theorem Member.cNext_recCounts (mem : Member) (c : Nat) : (mem.cNext c).recCounts = mem.recCounts := Member.setStr_recCounts ..
@[simp] theorem Member.cNext_echoes (mem : Member) (c : Nat) : (mem.cNext c).echoes = mem.echoes := Member.setStr_echoes ..
@[simp] theorem Member.cNext_echoSent (mem : Member) (c : Nat) : (mem.cNext c).echoSent = mem.echoSent := Member.setStr_echoSent ..
@[simp] theorem Member.cNext_flips (mem : Member) (c : Nat) : (mem.cNext c).flips = mem.flips := Member.setStr_flips ..
@[simp] theorem Member.cNext_counts (mem : Member) (c : Nat) : (mem.cNext c).counts = mem.counts := Member.setStr_counts ..
@[simp] theorem Member.cNext_stores (mem : Member) (c : Nat) : (mem.cNext c).stores = mem.stores := Member.setStr_stores ..
@[simp] theorem Member.cNext_seen (mem : Member) (c : Nat) : (mem.cNext c).seen = mem.seen := Member.setStr_seen ..
@[simp] theorem Member.cNext_saw (mem : Member) (c : Nat) : (mem.cNext c).saw = mem.saw := Member.setStr_saw ..
@[simp] theorem Member.cNext_l1 (mem : Member) (c : Nat) : (mem.cNext c).l1 = mem.l1 := Member.setStr_l1 ..
@[simp] theorem Member.cNext_tlbC (mem : Member) (c : Nat) : (mem.cNext c).tlbC = mem.tlbC := Member.setStr_tlbC ..
@[simp] theorem Member.cNext_tlbL (mem : Member) (c : Nat) : (mem.cNext c).tlbL = mem.tlbL := Member.setStr_tlbL ..
@[simp] theorem Member.cNext_tlbS (mem : Member) (c : Nat) : (mem.cNext c).tlbS = mem.tlbS := Member.setStr_tlbS ..
@[simp] theorem Member.cNext_pend (mem : Member) (c : Nat) : (mem.cNext c).pend = mem.pend := Member.setStr_pend ..
@[simp] theorem Member.cNext_ckpt (mem : Member) (c : Nat) : (mem.cNext c).ckpt = mem.ckpt := Member.setStr_ckpt ..
@[simp] theorem Member.cNext_savedPieces (mem : Member) (c : Nat) : (mem.cNext c).savedPieces = mem.savedPieces := Member.setStr_savedPieces ..
@[simp] theorem Member.cNext_stuck (mem : Member) (c : Nat) : (mem.cNext c).stuck = mem.stuck := Member.setStr_stuck ..
@[simp] theorem Member.cJump_core (mem : Member) (t : W64) (c : Nat) : (mem.cJump t c).core = mem.core := Member.setStr_core ..
@[simp] theorem Member.cJump_rank (mem : Member) (t : W64) (c : Nat) : (mem.cJump t c).rank = mem.rank := Member.setStr_rank ..
@[simp] theorem Member.cJump_replica (mem : Member) (t : W64) (c : Nat) : (mem.cJump t c).replica = mem.replica := Member.setStr_replica ..
@[simp] theorem Member.cJump_g (mem : Member) (t : W64) (c : Nat) : (mem.cJump t c).g = mem.g := Member.setStr_g ..
@[simp] theorem Member.cJump_d (mem : Member) (t : W64) (c : Nat) : (mem.cJump t c).d = mem.d := Member.setStr_d ..
@[simp] theorem Member.cJump_win (mem : Member) (t : W64) (c : Nat) : (mem.cJump t c).win = mem.win := Member.setStr_win ..
@[simp] theorem Member.cJump_sem (mem : Member) (t : W64) (c : Nat) : (mem.cJump t c).sem = mem.sem := Member.setStr_sem ..
@[simp] theorem Member.cJump_tq (mem : Member) (t : W64) (c : Nat) : (mem.cJump t c).tq = mem.tq := Member.setStr_tq ..
@[simp] theorem Member.cJump_mb (mem : Member) (t : W64) (c : Nat) : (mem.cJump t c).mb = mem.mb := Member.setStr_mb ..
@[simp] theorem Member.cJump_v (mem : Member) (t : W64) (c : Nat) : (mem.cJump t c).v = mem.v := Member.setStr_v ..
@[simp] theorem Member.cJump_la (mem : Member) (t : W64) (c : Nat) : (mem.cJump t c).la = mem.la := Member.setStr_la ..
@[simp] theorem Member.cJump_lb (mem : Member) (t : W64) (c : Nat) : (mem.cJump t c).lb = mem.lb := Member.setStr_lb ..
@[simp] theorem Member.cJump_lt (mem : Member) (t : W64) (c : Nat) : (mem.cJump t c).lt = mem.lt := Member.setStr_lt ..
@[simp] theorem Member.cJump_lq (mem : Member) (t : W64) (c : Nat) : (mem.cJump t c).lq = mem.lq := Member.setStr_lq ..
@[simp] theorem Member.cJump_mark (mem : Member) (t : W64) (c : Nat) : (mem.cJump t c).mark = mem.mark := Member.setStr_mark ..
@[simp] theorem Member.cJump_acc (mem : Member) (t : W64) (c : Nat) : (mem.cJump t c).acc = mem.acc := Member.setStr_acc ..
@[simp] theorem Member.cJump_accReady (mem : Member) (t : W64) (c : Nat) : (mem.cJump t c).accReady = mem.accReady := Member.setStr_accReady ..
@[simp] theorem Member.cJump_kf (mem : Member) (t : W64) (c : Nat) : (mem.cJump t c).kf = mem.kf := Member.setStr_kf ..
@[simp] theorem Member.cJump_spad (mem : Member) (t : W64) (c : Nat) : (mem.cJump t c).spad = mem.spad := Member.setStr_spad ..
@[simp] theorem Member.cJump_spStart (mem : Member) (t : W64) (c : Nat) : (mem.cJump t c).spStart = mem.spStart := Member.setStr_spStart ..
@[simp] theorem Member.cJump_spMid (mem : Member) (t : W64) (c : Nat) : (mem.cJump t c).spMid = mem.spMid := Member.setStr_spMid ..
@[simp] theorem Member.cJump_wrote (mem : Member) (t : W64) (c : Nat) : (mem.cJump t c).wrote = mem.wrote := Member.setStr_wrote ..
@[simp] theorem Member.cJump_kWrote (mem : Member) (t : W64) (c : Nat) : (mem.cJump t c).kWrote = mem.kWrote := Member.setStr_kWrote ..
@[simp] theorem Member.cJump_stall (mem : Member) (t : W64) (c : Nat) : (mem.cJump t c).stall = mem.stall := Member.setStr_stall ..
@[simp] theorem Member.cJump_moves (mem : Member) (t : W64) (c : Nat) : (mem.cJump t c).moves = mem.moves := Member.setStr_moves ..
@[simp] theorem Member.cJump_starts (mem : Member) (t : W64) (c : Nat) : (mem.cJump t c).starts = mem.starts := Member.setStr_starts ..
@[simp] theorem Member.cJump_chains (mem : Member) (t : W64) (c : Nat) : (mem.cJump t c).chains = mem.chains := Member.setStr_chains ..
@[simp] theorem Member.cJump_results (mem : Member) (t : W64) (c : Nat) : (mem.cJump t c).results = mem.results := Member.setStr_results ..
@[simp] theorem Member.cJump_jobs (mem : Member) (t : W64) (c : Nat) : (mem.cJump t c).jobs = mem.jobs := Member.setStr_jobs ..
@[simp] theorem Member.cJump_arrayFree (mem : Member) (t : W64) (c : Nat) : (mem.cJump t c).arrayFree = mem.arrayFree := Member.setStr_arrayFree ..
@[simp] theorem Member.cJump_rstreams (mem : Member) (t : W64) (c : Nat) : (mem.cJump t c).rstreams = mem.rstreams := Member.setStr_rstreams ..
@[simp] theorem Member.cJump_matNow (mem : Member) (t : W64) (c : Nat) : (mem.cJump t c).matNow = mem.matNow := Member.setStr_matNow ..
@[simp] theorem Member.cJump_cmds (mem : Member) (t : W64) (c : Nat) : (mem.cJump t c).cmds = mem.cmds := Member.setStr_cmds ..
@[simp] theorem Member.cJump_nextCmd (mem : Member) (t : W64) (c : Nat) : (mem.cJump t c).nextCmd = mem.nextCmd := Member.setStr_nextCmd ..
@[simp] theorem Member.cJump_batchL (mem : Member) (t : W64) (c : Nat) : (mem.cJump t c).batchL = mem.batchL := Member.setStr_batchL ..
@[simp] theorem Member.cJump_batchS (mem : Member) (t : W64) (c : Nat) : (mem.cJump t c).batchS = mem.batchS := Member.setStr_batchS ..
@[simp] theorem Member.cJump_held (mem : Member) (t : W64) (c : Nat) : (mem.cJump t c).held = mem.held := Member.setStr_held ..
@[simp] theorem Member.cJump_dwq (mem : Member) (t : W64) (c : Nat) : (mem.cJump t c).dwq = mem.dwq := Member.setStr_dwq ..
@[simp] theorem Member.cJump_lastAcc (mem : Member) (t : W64) (c : Nat) : (mem.cJump t c).lastAcc = mem.lastAcc := Member.setStr_lastAcc ..
@[simp] theorem Member.cJump_frozen (mem : Member) (t : W64) (c : Nat) : (mem.cJump t c).frozen = mem.frozen := Member.setStr_frozen ..
@[simp] theorem Member.cJump_replay (mem : Member) (t : W64) (c : Nat) : (mem.cJump t c).replay = mem.replay := Member.setStr_replay ..
@[simp] theorem Member.cJump_replayPos (mem : Member) (t : W64) (c : Nat) : (mem.cJump t c).replayPos = mem.replayPos := Member.setStr_replayPos ..
@[simp] theorem Member.cJump_rels (mem : Member) (t : W64) (c : Nat) : (mem.cJump t c).rels = mem.rels := Member.setStr_rels ..
@[simp] theorem Member.cJump_arms (mem : Member) (t : W64) (c : Nat) : (mem.cJump t c).arms = mem.arms := Member.setStr_arms ..
@[simp] theorem Member.cJump_bowaits (mem : Member) (t : W64) (c : Nat) : (mem.cJump t c).bowaits = mem.bowaits := Member.setStr_bowaits ..
@[simp] theorem Member.cJump_spawns (mem : Member) (t : W64) (c : Nat) : (mem.cJump t c).spawns = mem.spawns := Member.setStr_spawns ..
@[simp] theorem Member.cJump_sigC (mem : Member) (t : W64) (c : Nat) : (mem.cJump t c).sigC = mem.sigC := Member.setStr_sigC ..
@[simp] theorem Member.cJump_sigL (mem : Member) (t : W64) (c : Nat) : (mem.cJump t c).sigL = mem.sigL := Member.setStr_sigL ..
@[simp] theorem Member.cJump_sigS (mem : Member) (t : W64) (c : Nat) : (mem.cJump t c).sigS = mem.sigS := Member.setStr_sigS ..
@[simp] theorem Member.cJump_recCounts (mem : Member) (t : W64) (c : Nat) : (mem.cJump t c).recCounts = mem.recCounts := Member.setStr_recCounts ..
@[simp] theorem Member.cJump_echoes (mem : Member) (t : W64) (c : Nat) : (mem.cJump t c).echoes = mem.echoes := Member.setStr_echoes ..
@[simp] theorem Member.cJump_echoSent (mem : Member) (t : W64) (c : Nat) : (mem.cJump t c).echoSent = mem.echoSent := Member.setStr_echoSent ..
@[simp] theorem Member.cJump_flips (mem : Member) (t : W64) (c : Nat) : (mem.cJump t c).flips = mem.flips := Member.setStr_flips ..
@[simp] theorem Member.cJump_counts (mem : Member) (t : W64) (c : Nat) : (mem.cJump t c).counts = mem.counts := Member.setStr_counts ..
@[simp] theorem Member.cJump_stores (mem : Member) (t : W64) (c : Nat) : (mem.cJump t c).stores = mem.stores := Member.setStr_stores ..
@[simp] theorem Member.cJump_seen (mem : Member) (t : W64) (c : Nat) : (mem.cJump t c).seen = mem.seen := Member.setStr_seen ..
@[simp] theorem Member.cJump_saw (mem : Member) (t : W64) (c : Nat) : (mem.cJump t c).saw = mem.saw := Member.setStr_saw ..
@[simp] theorem Member.cJump_l1 (mem : Member) (t : W64) (c : Nat) : (mem.cJump t c).l1 = mem.l1 := Member.setStr_l1 ..
@[simp] theorem Member.cJump_tlbC (mem : Member) (t : W64) (c : Nat) : (mem.cJump t c).tlbC = mem.tlbC := Member.setStr_tlbC ..
@[simp] theorem Member.cJump_tlbL (mem : Member) (t : W64) (c : Nat) : (mem.cJump t c).tlbL = mem.tlbL := Member.setStr_tlbL ..
@[simp] theorem Member.cJump_tlbS (mem : Member) (t : W64) (c : Nat) : (mem.cJump t c).tlbS = mem.tlbS := Member.setStr_tlbS ..
@[simp] theorem Member.cJump_pend (mem : Member) (t : W64) (c : Nat) : (mem.cJump t c).pend = mem.pend := Member.setStr_pend ..
@[simp] theorem Member.cJump_ckpt (mem : Member) (t : W64) (c : Nat) : (mem.cJump t c).ckpt = mem.ckpt := Member.setStr_ckpt ..
@[simp] theorem Member.cJump_savedPieces (mem : Member) (t : W64) (c : Nat) : (mem.cJump t c).savedPieces = mem.savedPieces := Member.setStr_savedPieces ..
@[simp] theorem Member.cJump_stuck (mem : Member) (t : W64) (c : Nat) : (mem.cJump t c).stuck = mem.stuck := Member.setStr_stuck ..
@[simp] theorem Member.tNext_core (mem : Member) (a : Actor) (c : Nat) : (mem.tNext a c).core = mem.core := Member.setStr_core ..
@[simp] theorem Member.tNext_rank (mem : Member) (a : Actor) (c : Nat) : (mem.tNext a c).rank = mem.rank := Member.setStr_rank ..
@[simp] theorem Member.tNext_replica (mem : Member) (a : Actor) (c : Nat) : (mem.tNext a c).replica = mem.replica := Member.setStr_replica ..
@[simp] theorem Member.tNext_g (mem : Member) (a : Actor) (c : Nat) : (mem.tNext a c).g = mem.g := Member.setStr_g ..
@[simp] theorem Member.tNext_d (mem : Member) (a : Actor) (c : Nat) : (mem.tNext a c).d = mem.d := Member.setStr_d ..
@[simp] theorem Member.tNext_win (mem : Member) (a : Actor) (c : Nat) : (mem.tNext a c).win = mem.win := Member.setStr_win ..
@[simp] theorem Member.tNext_sem (mem : Member) (a : Actor) (c : Nat) : (mem.tNext a c).sem = mem.sem := Member.setStr_sem ..
@[simp] theorem Member.tNext_tq (mem : Member) (a : Actor) (c : Nat) : (mem.tNext a c).tq = mem.tq := Member.setStr_tq ..
@[simp] theorem Member.tNext_mb (mem : Member) (a : Actor) (c : Nat) : (mem.tNext a c).mb = mem.mb := Member.setStr_mb ..
@[simp] theorem Member.tNext_v (mem : Member) (a : Actor) (c : Nat) : (mem.tNext a c).v = mem.v := Member.setStr_v ..
@[simp] theorem Member.tNext_la (mem : Member) (a : Actor) (c : Nat) : (mem.tNext a c).la = mem.la := Member.setStr_la ..
@[simp] theorem Member.tNext_lb (mem : Member) (a : Actor) (c : Nat) : (mem.tNext a c).lb = mem.lb := Member.setStr_lb ..
@[simp] theorem Member.tNext_lt (mem : Member) (a : Actor) (c : Nat) : (mem.tNext a c).lt = mem.lt := Member.setStr_lt ..
@[simp] theorem Member.tNext_lq (mem : Member) (a : Actor) (c : Nat) : (mem.tNext a c).lq = mem.lq := Member.setStr_lq ..
@[simp] theorem Member.tNext_mark (mem : Member) (a : Actor) (c : Nat) : (mem.tNext a c).mark = mem.mark := Member.setStr_mark ..
@[simp] theorem Member.tNext_acc (mem : Member) (a : Actor) (c : Nat) : (mem.tNext a c).acc = mem.acc := Member.setStr_acc ..
@[simp] theorem Member.tNext_accReady (mem : Member) (a : Actor) (c : Nat) : (mem.tNext a c).accReady = mem.accReady := Member.setStr_accReady ..
@[simp] theorem Member.tNext_kf (mem : Member) (a : Actor) (c : Nat) : (mem.tNext a c).kf = mem.kf := Member.setStr_kf ..
@[simp] theorem Member.tNext_spad (mem : Member) (a : Actor) (c : Nat) : (mem.tNext a c).spad = mem.spad := Member.setStr_spad ..
@[simp] theorem Member.tNext_spStart (mem : Member) (a : Actor) (c : Nat) : (mem.tNext a c).spStart = mem.spStart := Member.setStr_spStart ..
@[simp] theorem Member.tNext_spMid (mem : Member) (a : Actor) (c : Nat) : (mem.tNext a c).spMid = mem.spMid := Member.setStr_spMid ..
@[simp] theorem Member.tNext_wrote (mem : Member) (a : Actor) (c : Nat) : (mem.tNext a c).wrote = mem.wrote := Member.setStr_wrote ..
@[simp] theorem Member.tNext_kWrote (mem : Member) (a : Actor) (c : Nat) : (mem.tNext a c).kWrote = mem.kWrote := Member.setStr_kWrote ..
@[simp] theorem Member.tNext_stall (mem : Member) (a : Actor) (c : Nat) : (mem.tNext a c).stall = mem.stall := Member.setStr_stall ..
@[simp] theorem Member.tNext_moves (mem : Member) (a : Actor) (c : Nat) : (mem.tNext a c).moves = mem.moves := Member.setStr_moves ..
@[simp] theorem Member.tNext_starts (mem : Member) (a : Actor) (c : Nat) : (mem.tNext a c).starts = mem.starts := Member.setStr_starts ..
@[simp] theorem Member.tNext_chains (mem : Member) (a : Actor) (c : Nat) : (mem.tNext a c).chains = mem.chains := Member.setStr_chains ..
@[simp] theorem Member.tNext_results (mem : Member) (a : Actor) (c : Nat) : (mem.tNext a c).results = mem.results := Member.setStr_results ..
@[simp] theorem Member.tNext_jobs (mem : Member) (a : Actor) (c : Nat) : (mem.tNext a c).jobs = mem.jobs := Member.setStr_jobs ..
@[simp] theorem Member.tNext_arrayFree (mem : Member) (a : Actor) (c : Nat) : (mem.tNext a c).arrayFree = mem.arrayFree := Member.setStr_arrayFree ..
@[simp] theorem Member.tNext_rstreams (mem : Member) (a : Actor) (c : Nat) : (mem.tNext a c).rstreams = mem.rstreams := Member.setStr_rstreams ..
@[simp] theorem Member.tNext_matNow (mem : Member) (a : Actor) (c : Nat) : (mem.tNext a c).matNow = mem.matNow := Member.setStr_matNow ..
@[simp] theorem Member.tNext_cmds (mem : Member) (a : Actor) (c : Nat) : (mem.tNext a c).cmds = mem.cmds := Member.setStr_cmds ..
@[simp] theorem Member.tNext_nextCmd (mem : Member) (a : Actor) (c : Nat) : (mem.tNext a c).nextCmd = mem.nextCmd := Member.setStr_nextCmd ..
@[simp] theorem Member.tNext_batchL (mem : Member) (a : Actor) (c : Nat) : (mem.tNext a c).batchL = mem.batchL := Member.setStr_batchL ..
@[simp] theorem Member.tNext_batchS (mem : Member) (a : Actor) (c : Nat) : (mem.tNext a c).batchS = mem.batchS := Member.setStr_batchS ..
@[simp] theorem Member.tNext_held (mem : Member) (a : Actor) (c : Nat) : (mem.tNext a c).held = mem.held := Member.setStr_held ..
@[simp] theorem Member.tNext_dwq (mem : Member) (a : Actor) (c : Nat) : (mem.tNext a c).dwq = mem.dwq := Member.setStr_dwq ..
@[simp] theorem Member.tNext_lastAcc (mem : Member) (a : Actor) (c : Nat) : (mem.tNext a c).lastAcc = mem.lastAcc := Member.setStr_lastAcc ..
@[simp] theorem Member.tNext_frozen (mem : Member) (a : Actor) (c : Nat) : (mem.tNext a c).frozen = mem.frozen := Member.setStr_frozen ..
@[simp] theorem Member.tNext_replay (mem : Member) (a : Actor) (c : Nat) : (mem.tNext a c).replay = mem.replay := Member.setStr_replay ..
@[simp] theorem Member.tNext_replayPos (mem : Member) (a : Actor) (c : Nat) : (mem.tNext a c).replayPos = mem.replayPos := Member.setStr_replayPos ..
@[simp] theorem Member.tNext_rels (mem : Member) (a : Actor) (c : Nat) : (mem.tNext a c).rels = mem.rels := Member.setStr_rels ..
@[simp] theorem Member.tNext_arms (mem : Member) (a : Actor) (c : Nat) : (mem.tNext a c).arms = mem.arms := Member.setStr_arms ..
@[simp] theorem Member.tNext_bowaits (mem : Member) (a : Actor) (c : Nat) : (mem.tNext a c).bowaits = mem.bowaits := Member.setStr_bowaits ..
@[simp] theorem Member.tNext_spawns (mem : Member) (a : Actor) (c : Nat) : (mem.tNext a c).spawns = mem.spawns := Member.setStr_spawns ..
@[simp] theorem Member.tNext_sigC (mem : Member) (a : Actor) (c : Nat) : (mem.tNext a c).sigC = mem.sigC := Member.setStr_sigC ..
@[simp] theorem Member.tNext_sigL (mem : Member) (a : Actor) (c : Nat) : (mem.tNext a c).sigL = mem.sigL := Member.setStr_sigL ..
@[simp] theorem Member.tNext_sigS (mem : Member) (a : Actor) (c : Nat) : (mem.tNext a c).sigS = mem.sigS := Member.setStr_sigS ..
@[simp] theorem Member.tNext_recCounts (mem : Member) (a : Actor) (c : Nat) : (mem.tNext a c).recCounts = mem.recCounts := Member.setStr_recCounts ..
@[simp] theorem Member.tNext_echoes (mem : Member) (a : Actor) (c : Nat) : (mem.tNext a c).echoes = mem.echoes := Member.setStr_echoes ..
@[simp] theorem Member.tNext_echoSent (mem : Member) (a : Actor) (c : Nat) : (mem.tNext a c).echoSent = mem.echoSent := Member.setStr_echoSent ..
@[simp] theorem Member.tNext_flips (mem : Member) (a : Actor) (c : Nat) : (mem.tNext a c).flips = mem.flips := Member.setStr_flips ..
@[simp] theorem Member.tNext_counts (mem : Member) (a : Actor) (c : Nat) : (mem.tNext a c).counts = mem.counts := Member.setStr_counts ..
@[simp] theorem Member.tNext_stores (mem : Member) (a : Actor) (c : Nat) : (mem.tNext a c).stores = mem.stores := Member.setStr_stores ..
@[simp] theorem Member.tNext_seen (mem : Member) (a : Actor) (c : Nat) : (mem.tNext a c).seen = mem.seen := Member.setStr_seen ..
@[simp] theorem Member.tNext_saw (mem : Member) (a : Actor) (c : Nat) : (mem.tNext a c).saw = mem.saw := Member.setStr_saw ..
@[simp] theorem Member.tNext_l1 (mem : Member) (a : Actor) (c : Nat) : (mem.tNext a c).l1 = mem.l1 := Member.setStr_l1 ..
@[simp] theorem Member.tNext_tlbC (mem : Member) (a : Actor) (c : Nat) : (mem.tNext a c).tlbC = mem.tlbC := Member.setStr_tlbC ..
@[simp] theorem Member.tNext_tlbL (mem : Member) (a : Actor) (c : Nat) : (mem.tNext a c).tlbL = mem.tlbL := Member.setStr_tlbL ..
@[simp] theorem Member.tNext_tlbS (mem : Member) (a : Actor) (c : Nat) : (mem.tNext a c).tlbS = mem.tlbS := Member.setStr_tlbS ..
@[simp] theorem Member.tNext_pend (mem : Member) (a : Actor) (c : Nat) : (mem.tNext a c).pend = mem.pend := Member.setStr_pend ..
@[simp] theorem Member.tNext_ckpt (mem : Member) (a : Actor) (c : Nat) : (mem.tNext a c).ckpt = mem.ckpt := Member.setStr_ckpt ..
@[simp] theorem Member.tNext_savedPieces (mem : Member) (a : Actor) (c : Nat) : (mem.tNext a c).savedPieces = mem.savedPieces := Member.setStr_savedPieces ..
@[simp] theorem Member.tNext_stuck (mem : Member) (a : Actor) (c : Nat) : (mem.tNext a c).stuck = mem.stuck := Member.setStr_stuck ..

/-! ## A stream -/

@[simp] theorem StreamSt.loopEnd_base (x : StreamSt) (a b : W64) : (x.loopEnd a b).base = x.base := by
  unfold StreamSt.loopEnd; dsimp only; (repeat' split) <;> rfl
@[simp] theorem StreamSt.jump_base (x : StreamSt) (t : W64) : (x.jump t).base = x.base := rfl
@[simp] theorem StreamSt.loopEnd_waiting (x : StreamSt) (a b : W64) : (x.loopEnd a b).waiting = x.waiting := by
  unfold StreamSt.loopEnd; dsimp only; (repeat' split) <;> rfl
@[simp] theorem StreamSt.jump_waiting (x : StreamSt) (t : W64) : (x.jump t).waiting = x.waiting := rfl
@[simp] theorem StreamSt.loopEnd_status (x : StreamSt) (a b : W64) : (x.loopEnd a b).status = x.status := by
  unfold StreamSt.loopEnd; dsimp only; (repeat' split) <;> rfl
@[simp] theorem StreamSt.jump_status (x : StreamSt) (t : W64) : (x.jump t).status = x.status := rfl
@[simp] theorem StreamSt.loopEnd_waits (x : StreamSt) (a b : W64) : (x.loopEnd a b).waits = x.waits := by
  unfold StreamSt.loopEnd; dsimp only; (repeat' split) <;> rfl
@[simp] theorem StreamSt.jump_waits (x : StreamSt) (t : W64) : (x.jump t).waits = x.waits := rfl

end Sys2Proof.Machine
end

