-- ==== Sys2Proof/Laws/Current.lean ====
section
/-! SUPPORT. What the shared operations of the four streams do once the current member is known: each lemma states everything its
operation can answer. -/

namespace Sys2Proof.Machine

variable {s : State} {tk : Task} {mem : Member}

/-- A meaning runs on the current task and member. -/
theorem onMember_cur (h : Current s tk mem) (f : Task → Member → Res) : onMember s f = f tk mem := by
  simp [onMember, h.task, h.member]

/-- Without a current member a word stops. -/
theorem onMember_none (h : s.member? s.cur.task s.cur.member = none) (f : Task → Member → Res) : onMember s f = .fault .noTask := by
  unfold State.member? at h
  unfold onMember
  cases h1 : s.tasks[s.cur.task]? with
  | none => rfl
  | some t =>
    simp only [h1, Option.bind_some] at h
    simp [h]

/-! ## The current member replaced -/

/-- The tasks after the current member is replaced. -/
theorem put_tasks (h : Current s tk mem) (b : Member) : (s.put b).tasks = s.tasks.set s.cur.task (tk.putMember s.cur.member b) := by
  simp [State.put, State.putMember, h.task]

/-- The whole state after the current member is replaced. -/
theorem put_eq (h : Current s tk mem) (b : Member) : s.put b = { s with tasks := s.tasks.set s.cur.task (tk.putMember s.cur.member b) } := by
  simp [State.put, State.putMember, State.putTask, h.task]

/-- The new member is the current one. -/
theorem put_current (h : Current s tk mem) (b : Member) : Current (s.put b) (tk.putMember s.cur.member b) b := by
  have h1 := List.getElem?_eq_some_iff.mp h.task
  have h2 := List.getElem?_eq_some_iff.mp h.member
  constructor
  · simp [put_tasks h, h1.1]
  · simp [h2.1]

/-- No other task changes. -/
theorem put_other_task (h : Current s tk mem) (b : Member) {j : Nat} (hj : j ≠ s.cur.task) : (s.put b).tasks[j]? = s.tasks[j]? := by
  simp [put_tasks h, Ne.symm hj]

/-- No other member of the task changes. -/
theorem putMember_other {m j : Nat} (b : Member) (hj : j ≠ m) : (tk.putMember m b).members[j]? = tk.members[j]? := by
  simp [Ne.symm hj]

/-- The current member after it is replaced twice is the second. -/
theorem put_put (h : Current s tk mem) (b c : Member) : (s.put b).put c = s.put c := by
  have h1 := put_current h b
  rw [put_eq h1 c, put_eq h c, put_eq h b]
  simp [Task.putMember]

/-- The current member put back as it is changes nothing. -/
theorem put_self (h : Current s tk mem) : s.put mem = s := by
  have h1 := List.getElem?_eq_some_iff.mp h.task
  have h2 := List.getElem?_eq_some_iff.mp h.member
  obtain ⟨a, ha⟩ := h1
  obtain ⟨b, hb⟩ := h2
  rw [put_eq h]
  have e1 : tk.putMember s.cur.member mem = tk := by
    unfold Task.putMember
    have : tk.members.set s.cur.member mem = tk.members := by rw [← hb]; exact List.set_getElem_self _
    rw [this]
  rw [e1]
  have : s.tasks.set s.cur.task tk = s.tasks := by rw [← ha]; exact List.set_getElem_self _
  rw [this]

/-! ## Registers and streams -/

/-- g0 reads zero and keeps reading zero; another register reads what was written to it (R40). -/
theorem rd_wr (mem : Member) (r q : BitVec 5) (v : Scalar) :
    (mem.wr r v).rd q = if q = 0#5 then ⟨0, false⟩ else if q = r then v else mem.rd q := by
  unfold Member.wr Member.rd
  by_cases h : r = 0#5
  · subst h; by_cases hq : q = 0#5 <;> simp [hq]
  · simp only [h, if_false]
    by_cases hq : q = 0#5
    · simp [hq]
    · simp only [hq, if_false]
      by_cases e : q = r
      · subst e; simp
      · have h1 : r.toNat ≠ q.toNat := fun h => e (BitVec.eq_of_toNat_eq h.symm)
        simp [e, h1]

/-- A stream's state after one is replaced. -/
theorem str_setStr (mem : Member) (x y : Stream) (v : StreamSt) : (mem.setStr x v).str y = if y = x then v else mem.str y := by
  cases x <;> cases y <;> simp [Member.str, Member.setStr]

@[simp] theorem rd_setStr (mem : Member) (x : Stream) (v : StreamSt) (r : BitVec 5) : (mem.setStr x v).rd r = mem.rd r := by
  simp [Member.rd]

@[simp] theorem rd_cNext (mem : Member) (c : Nat) (r : BitVec 5) : (mem.cNext c).rd r = mem.rd r := rd_setStr ..

@[simp] theorem str_wr (mem : Member) (r : BitVec 5) (v : Scalar) (x : Stream) : (mem.wr r v).str x = mem.str x := by
  cases x <;> simp [Member.str]

/-- The address a word offset names (R131, R132). -/
theorem wordTarget_eq (s : State) {n : Nat} (hn : n ≤ 62) (off : BitVec n) :
    wordTarget s off = s.cur.pc + BitVec.ofInt 64 (4 * off.toInt) := by
  unfold wordTarget
  congr 1
  apply BitVec.eq_of_toInt_eq
  have h4 : (4 : BitVec 64).toInt = 4 := by decide
  rw [BitVec.toInt_mul, BitVec.toInt_signExtend, BitVec.toInt_ofInt, h4]
  have h : off.toInt.bmod (2 ^ min 64 n) = off.toInt := by
    have h1 : min 64 n = n := by omega
    rw [h1]
    exact BitVec.toInt_bmod_cancel off
  rw [h]

/-! ## Words of the C stream -/

theorem cDone_eq (s : State) (b : Member) : cDone s b = .next (afterC s b) := rfl
theorem cWrite_eq (s : State) (b : Member) (rd : BitVec 5) (v : Scalar) : cWrite s b rd v = .next (afterC s (b.wr rd v)) := rfl
theorem cStall_eq (s : State) (b : Member) (i : Instr) : cStall s b i = .next (s.put { b with stall := some i }) := rfl
theorem cGoto_eq (s : State) (b : Member) (t : W64) : cGoto s b t = .next (s.put (b.cJump t s.cycle)) := rfl
theorem raise_eq (s : State) (b : Member) (c : Nat) (a : W64) (x : Nat) : raise s b c a x = .next (faulted s b c a x) := rfl
theorem raiseIllegal_eq (s : State) (b : Member) : raiseIllegal s b = .next (faulted s b cIllegal 0 0) := rfl
theorem raiseTrap_eq (s : State) (b : Member) (t : Trap) : raiseTrap s b t = .next (faulted s b t.cause t.addr t.aux) := rfl

/-- A word of two registers writes its result, poisoned when an operand is (R122, R41). -/
theorem aluOp_cur (h : Current s tk mem) (rd rs rt : BitVec 5) (f : W64 → W64 → W64) :
    aluOp rd rs rt f s = .next (afterC s (mem.wr rd (fromTwo mem rs rt f))) := by
  simp [aluOp, onMember_cur h, cWrite_eq, fromTwo]

/-- A word of one register writes its result. -/
theorem unOp_cur (h : Current s tk mem) (rd rs : BitVec 5) (f : W64 → W64) :
    unOp rd rs f s = .next (afterC s (mem.wr rd (fromOne mem rs f))) := by
  simp [unOp, onMember_cur h, cWrite_eq, fromOne]

/-- A compare writes 1 or 0, or faults on poison (R125). -/
theorem cmpOp_cur (h : Current s tk mem) (rd rs rt : BitVec 5) (f : W64 → W64 → Bool) :
    cmpOp rd rs rt f s = if ((mem.rd rs).poison || (mem.rd rt).poison) = true then .next (faulted s mem cPoison 0 0)
      else .next (afterC s (mem.wr rd ⟨if f (mem.rd rs).val (mem.rd rt).val then 1 else 0, false⟩)) := by
  simp [cmpOp, onMember_cur h, cWrite_eq, raise_eq]

/-- A branch faults, is illegal at a loop's end, goes to its target or goes on (R131, R134). -/
theorem branchOp_cur (h : Current s tk mem) (rs rt : BitVec 5) (off : BitVec 16) (f : W64 → W64 → Bool) :
    branchOp rs rt off f s =
      if ((mem.rd rs).poison || (mem.rd rt).poison) = true then .next (faulted s mem cPoison 0 0)
      else if endsLoop s mem = true then .next (faulted s mem cIllegal 0 0)
      else if f (mem.rd rs).val (mem.rd rt).val = true then
        .next (s.put (mem.cJump (s.cur.pc + BitVec.ofInt 64 (4 * off.toInt)) s.cycle))
      else .next (afterC s mem) := by
  simp only [branchOp, onMember_cur h, raise_eq, raiseIllegal_eq, cGoto_eq, cDone_eq, wordTarget_eq s (by omega : 16 ≤ 62) off]

/-- A load faults, or writes what loadAt answers (R126 to R130). -/
theorem loadWord_cur (h : Current s tk mem) (rd rs : BitVec 5) (imm : BitVec 16) (n : Nat) (ext : Nat → W64) :
    loadWord rd rs imm n ext s =
      if (mem.rd rs).poison = true then .next (faulted s mem cPoison 0 0)
      else if (effAddr mem rs imm).toNat % n ≠ 0 then .next (faulted s mem cAlignment (effAddr mem rs imm) 0)
      else match (loadAt s tk mem (effAddr mem rs imm) n).res with
        | .error t => raiseTrap (loadAt s tk mem (effAddr mem rs imm) n).st (loadAt s tk mem (effAddr mem rs imm) n).mem t
        | .ok v => cWrite (loadAt s tk mem (effAddr mem rs imm) n).st (loadAt s tk mem (effAddr mem rs imm) n).mem rd ⟨ext v.1, v.2⟩ := by
  simp only [loadWord, onMember_cur h, raise_eq]
  cases (loadAt s tk mem (effAddr mem rs imm) n).res <;> rfl

/-! ## Timed words -/

theorem tDone_eq (s : State) (b : Member) : tDone s b = .next (afterTimed s b) := rfl

/-- A failed scoreboard check: a counted wait in tolerant mode, a precise fault in strict mode (R20, R21, R23). -/
theorem scoreboard_eq (s : State) (tk : Task) (b : Member) (c : Nat) (a : W64) (x : Nat) :
    scoreboard s tk b c a x = .next (if tk.tolerant = true then heldACycle s b else faulted s b c a x) := by
  unfold scoreboard; cases tk.tolerant <;> rfl

/-! ## Station operations -/

/-- A station operation whose trigger waits leaves its result due after the unit's latency (R52, R155). -/
theorem opStart_cur {o : VArgs} {num : BitVec 4} {g : Start} (h : Current s tk mem) (ht : triggered mem o num g)
    (f : Task → Member → RngKey → Latches → OpOut) :
    opStart o num f s = .next (s.put (opStarted mem g o.st.toNat s.cycle (f tk mem g.key (latchesOf mem o.st.toNat)))) := by
  have hk : o.st.toNat < 8 := o.st.isLt
  have hl : latency o.st.toNat = [2, 2, 4, 4, 14, 6, 3, 2].getD o.st.toNat 0 := by
    generalize o.st.toNat = k at hk
    have : k = 0 ∨ k = 1 ∨ k = 2 ∨ k = 3 ∨ k = 4 ∨ k = 5 ∨ k = 6 ∨ k = 7 := by omega
    rcases this with h | h | h | h | h | h | h | h <;> subst h <;> rfl
  unfold triggered at ht
  simp only [opStart, onMember_cur h, ht, hl, latchesOf, opStarted]

/-- An operation without a trigger leaves the state. -/
theorem opStart_idle {o : VArgs} {num : BitVec 4} (h : Current s tk mem)
    (ht : mem.starts.find? (fun g => g.st == o.st.toNat && g.op == num ++ o.ty && g.x == o.x) = none)
    (f : Task → Member → RngKey → Latches → OpOut) : opStart o num f s = .next s := by
  simp only [opStart, onMember_cur h, ht]

end Sys2Proof.Machine
end

