-- ==== Sys2Proof/Laws/Array.lean ====
section
/-! SUPPORT. Matrix words: every one is matIssue with its number and fields, and the cycles the array is busy. -/

namespace Sys2Proof.Machine

/-- A matrix word's meaning is matIssue with the checks of its number. -/
theorem exec_matrixOp {i : Instr} {n : Nat} {f : MatFields} {s : State} (h : matrixOp i = some (n, f)) :
    exec i s = matIssue n f (fun tk mem => matrixLegal tk mem n f) (fun tk mem => matrixTrap tk mem n f) s := by
  unfold matrixOp at h
  split at h <;> simp at h
  all_goals (obtain ⟨h1, h2⟩ := h; rw [← h1, ← h2]; rfl)

/-- The busy cycles of a matrix word are those of R210. -/
theorem matBusy_matrixOp {i : Instr} {n : Nat} {f : MatFields} (h : matrixOp i = some (n, f)) : matBusy n f = busyCycles n f := by
  unfold matrixOp at h
  split at h <;> simp at h
  all_goals (obtain ⟨h1, h2⟩ := h; rw [← h1, ← h2]; simp [matBusy, busyCycles, matRate, matK, matM]; try (congr 1))

/-- The numbers of the matrix words. -/
theorem matrixOp_le {i : Instr} {n : Nat} {f : MatFields} (h : matrixOp i = some (n, f)) : n ≤ 7 := by
  unfold matrixOp at h
  split at h <;> simp at h
  all_goals omega

/-- An element of a vector after setVec. -/
theorem getElem_setVec {α : Type} {n : Nat} (v : Vector α n) (a : Nat) (x : α) (t : Nat) (ht : t < n) :
    (setVec v a x)[t] = if t = a then x else v[t] := by
  unfold setVec
  by_cases h : t = a
  · subst h; simp
  · have h1 : a ≠ t := fun e => h e.symm
    simp [h, h1]

end Sys2Proof.Machine
end

