-- ==== Sys2Proof/Laws/Bits.lean ====
section
/-! SUPPORT. Fields of bit vectors put together from parts: a field that lies in one part is that part's field. -/

namespace Sys2Proof

/-- A field below the width of the low part is the low part's. -/
theorem extractLsb'_append_low {n m : Nat} (a : BitVec n) (b : BitVec m) {i w : Nat} (h : i + w ≤ m) :
    (a ++ b).extractLsb' i w = b.extractLsb' i w := by
  apply BitVec.eq_of_getLsbD_eq
  intro k hk
  simp only [BitVec.getLsbD_extractLsb', BitVec.getLsbD_append]
  have h1 : i + k < m := by omega
  simp [hk, h1]

/-- A field at or above the width of the low part is the high part's. -/
theorem extractLsb'_append_high {n m : Nat} (a : BitVec n) (b : BitVec m) {i w : Nat} (h : m ≤ i) :
    (a ++ b).extractLsb' i w = a.extractLsb' (i - m) w := by
  apply BitVec.eq_of_getLsbD_eq
  intro k hk
  simp only [BitVec.getLsbD_extractLsb', BitVec.getLsbD_append]
  have h1 : ¬ i + k < m := by omega
  have h2 : i + k - m = i - m + k := by omega
  simp [hk, h1, h2]

/-- A whole bit vector as its own field. -/
theorem extractLsb'_self {n : Nat} (a : BitVec n) : a.extractLsb' 0 n = a := by
  apply BitVec.eq_of_getLsbD_eq
  intro k hk
  simp [hk]

/-- A field of a field. -/
theorem extractLsb'_extractLsb' {n : Nat} (a : BitVec n) {i w j v : Nat} (h : j + v ≤ w) :
    (a.extractLsb' i w).extractLsb' j v = a.extractLsb' (i + j) v := by
  apply BitVec.eq_of_getLsbD_eq
  intro k hk
  simp only [BitVec.getLsbD_extractLsb']
  have h1 : j + k < w := by omega
  have h2 : i + (j + k) = i + j + k := by omega
  simp [hk, h1, h2]

end Sys2Proof
end

