-- ==== Sys2Proof/Laws/Memory.lean ====
section
/-! SUPPORT. Reads after writes and the canonical form of memory (R4, R293): every operation that writes memory keeps the form, and a
write leaves every other byte alone. -/

namespace Sys2Proof.Machine

/-! ## The canonical form -/

/-- A canonical form from a higher address on holds from a lower one. -/
theorem Memory.wfAbove_mono {lo hi : Nat} {m : Memory} (h : lo ≤ hi) (w : Memory.wfAbove hi m = true) : Memory.wfAbove lo m = true := by
  cases m with
  | nil => rfl
  | cons c r =>
    simp only [Memory.wfAbove, Bool.and_eq_true, decide_eq_true_eq] at *
    exact ⟨⟨by omega, w.1.2⟩, w.2⟩

/-- An address below the form reads as an unlisted byte. -/
theorem Memory.get_below {lo a : Nat} {m : Memory} (w : Memory.wfAbove lo m = true) (h : a < lo) : m.get a = Memory.default := by
  cases m with
  | nil => rfl
  | cons c r =>
    simp only [Memory.wfAbove, Bool.and_eq_true, decide_eq_true_eq] at w
    have h1 : c.1 ≠ a := by omega
    have h2 : a < c.1 := by omega
    simp [Memory.get, h1, h2]

/-- Setting a byte keeps the form. -/
theorem Memory.wfAbove_set {lo a : Nat} {v : Byte} {m : Memory} (w : Memory.wfAbove lo m = true) (h : lo ≤ a) :
    Memory.wfAbove lo (m.set a v) = true := by
  induction m generalizing lo with
  | nil =>
    simp only [Memory.set]; split
    · rfl
    · rename_i hv; simp [Memory.wfAbove, h, bne_iff_ne, hv]
  | cons c r ih =>
    obtain ⟨i, b⟩ := c
    simp only [Memory.wfAbove, Bool.and_eq_true, decide_eq_true_eq] at w
    obtain ⟨⟨h1, h2⟩, h3⟩ := w
    simp only [Memory.set]
    by_cases e : i = a
    · simp only [e, if_true]; split
      · exact Memory.wfAbove_mono (by omega) h3
      · rename_i hv
        subst e; simp [Memory.wfAbove, h, bne_iff_ne, hv, h3]
    · simp only [e, if_false]
      by_cases l : a < i
      · simp only [l, if_true]; split
        · simp [Memory.wfAbove, h1, h2, h3]
        · rename_i hv
          simp only [Memory.wfAbove, Bool.and_eq_true, decide_eq_true_eq, bne_iff_ne]
          exact ⟨⟨h, hv⟩, ⟨by omega, by simpa using h2⟩, h3⟩
      · simp only [l, if_false, Memory.wfAbove, Bool.and_eq_true, decide_eq_true_eq]
        exact ⟨⟨h1, h2⟩, ih h3 (by omega)⟩

/-- Setting a byte keeps memory canonical. -/
theorem Memory.wf_set {a : Nat} {v : Byte} {m : Memory} (w : m.wf = true) : (m.set a v).wf = true :=
  Memory.wfAbove_set w (Nat.zero_le a)

/-- Writing a byte string keeps memory canonical. -/
theorem Memory.wf_setBytes {bs : List Byte} {a : Nat} {m : Memory} (w : m.wf = true) : (m.setBytes a bs).wf = true := by
  induction bs generalizing a m with
  | nil => exact w
  | cons b r ih => exact ih (Memory.wf_set w)

/-! ## Reads after writes -/

/-- The byte set is read back, and every other byte is as before. -/
theorem Memory.get_set {lo a x : Nat} {v : Byte} {m : Memory} (w : Memory.wfAbove lo m = true) :
    (m.set a v).get x = if x = a then v else m.get x := by
  induction m generalizing lo with
  | nil =>
    by_cases e : x = a
    · subst e; by_cases hv : v = Memory.default <;> simp [Memory.set, hv, Memory.get]
    · have e' : a ≠ x := fun h => e h.symm
      by_cases hv : v = Memory.default <;> simp [Memory.set, hv, Memory.get, e, e']
  | cons c r ih =>
    obtain ⟨i, b⟩ := c
    simp only [Memory.wfAbove, Bool.and_eq_true, decide_eq_true_eq] at w
    obtain ⟨⟨h1, h2⟩, h3⟩ := w
    have below : ∀ y, y ≤ i → Memory.get r y = Memory.default := fun y hy => Memory.get_below h3 (by omega)
    simp only [Memory.set]
    by_cases e : i = a
    · subst e
      simp only [if_true]
      by_cases hv : v = Memory.default
      · simp only [hv, if_true, Memory.get]
        by_cases ex : x = i
        · simp [ex, below i (Nat.le_refl i)]
        · have ex' : i ≠ x := fun h => ex h.symm
          simp only [ex, ex', if_false]; split
          · exact below x (by omega)
          · rfl
      · simp only [hv, if_false, Memory.get]
        by_cases ex : x = i
        · simp [ex]
        · have ex' : i ≠ x := fun h => ex h.symm
          simp [ex, ex']
    · simp only [e, if_false]
      by_cases l : a < i
      · simp only [l, if_true]
        by_cases hv : v = Memory.default
        · simp only [hv, if_true, Memory.get]
          by_cases ex : x = a
          · subst ex; simp [e, l]
          · simp [ex]
        · simp only [hv, if_false, Memory.get]
          by_cases ex : x = a
          · simp [ex]
          · have ex' : a ≠ x := fun h => ex h.symm
            simp only [ex, ex', if_false]
            by_cases xl : x < a
            · have h4 : i ≠ x := by omega
              have h5 : x < i := by omega
              simp [xl, h4, h5]
            · simp [xl]
      · simp only [l, if_false, Memory.get]
        by_cases ex : x = a
        · subst ex; simp [e, l, ih h3]
        · rw [ih h3]; simp [ex]

/-- The byte set is read back, and every other byte is as before: the form of a canonical memory. -/
theorem Memory.get_set_wf {a x : Nat} {v : Byte} {m : Memory} (w : m.wf = true) :
    (m.set a v).get x = if x = a then v else m.get x := Memory.get_set w

/-- After a write of a byte string, its bytes are read back in their places, and every other byte is as before. -/
theorem Memory.get_setBytes {bs : List Byte} {a x : Nat} {m : Memory} (w : m.wf = true) :
    (m.setBytes a bs).get x = if a ≤ x ∧ x < a + bs.length then bs.getD (x - a) 0 else m.get x := by
  induction bs generalizing a m with
  | nil => have h : ¬ (a ≤ x ∧ x < a) := by omega
           simp [Memory.setBytes, h]
  | cons b r ih =>
    simp only [Memory.setBytes, ih (Memory.wf_set w), Memory.get_set_wf w, List.length_cons]
    by_cases h1 : x = a
    · subst h1
      have h2 : ¬ (x + 1 ≤ x ∧ x < x + 1 + r.length) := by omega
      simp
    · by_cases h2 : a + 1 ≤ x ∧ x < a + 1 + r.length
      · have h3 : a ≤ x ∧ x < a + (r.length + 1) := by omega
        have h4 : x - a = (x - (a + 1)) + 1 := by omega
        simp only [h2, h3, and_self, if_true]
        rw [h4, List.getD_cons_succ]
      · have h3 : ¬ (a ≤ x ∧ x < a + (r.length + 1)) := by omega
        simp only [h1, h2, h3, if_false]

/-- A write outside an address leaves its byte. -/
theorem Memory.get_setBytes_outside {bs : List Byte} {a x : Nat} {m : Memory} (w : m.wf = true) (h : x < a ∨ a + bs.length ≤ x) :
    (m.setBytes a bs).get x = m.get x := by
  have h1 : ¬ (a ≤ x ∧ x < a + bs.length) := by omega
  simp [Memory.get_setBytes w, h1]

/-- The bytes written are read back. -/
theorem Memory.bytes_setBytes {bs : List Byte} {a : Nat} {m : Memory} (w : m.wf = true) :
    (m.setBytes a bs).bytes a bs.length = bs := by
  unfold Memory.bytes
  apply List.ext_getElem
  · simp
  · intro i h1 h2
    simp only [List.length_map, List.length_range] at h1
    simp [Memory.get_setBytes w, h1]

/-! ## Little-endian numbers (R4) -/

@[simp] theorem length_leBytes (n v : Nat) : (leBytes n v).length = n := by
  induction n generalizing v with
  | zero => rfl
  | succ n ih => simp [leBytes, ih]

theorem leNat_leBytes (n v : Nat) : leNat (leBytes n v) = v % 256 ^ n := by
  induction n generalizing v with
  | zero => simp [leBytes, leNat, Nat.mod_one]
  | succ n ih =>
    have h : leNat (leBytes (n + 1) v) = v % 256 + 256 * (v / 256 % 256 ^ n) := by
      show (BitVec.ofNat 8 v).toNat + 256 * leNat (leBytes n (v / 256)) = _
      rw [ih, BitVec.toNat_ofNat]
    rw [h, Nat.pow_succ', Nat.mod_mul]

theorem leNat_lt (bs : List Byte) : leNat bs < 256 ^ bs.length := by
  induction bs with
  | nil => simp [leNat]
  | cons b r ih =>
    have hb := b.isLt
    simp only [leNat, List.length_cons, Nat.pow_succ']
    omega

theorem leBytes_leNat (bs : List Byte) : leBytes bs.length (leNat bs) = bs := by
  induction bs with
  | nil => rfl
  | cons b r ih =>
    have hb := b.isLt
    simp only [List.length_cons, leBytes, leNat]
    have h1 : (b.toNat + 256 * leNat r) / 256 = leNat r := by omega
    rw [h1, ih]
    congr 1
    apply BitVec.eq_of_toNat_eq
    simp only [BitVec.toNat_ofNat]
    omega

/-! ## Every operation that writes memory keeps the form -/

theorem State.wf_wrMem {s : State} {pa : Nat} {bs : List Byte} (w : s.mem.wf = true) : (s.wrMem pa bs).mem.wf = true :=
  Memory.wf_setBytes w

theorem State.wf_wrDev {s : State} {pa : Nat} {bs : List Byte} (w : s.mem.wf = true) : (s.wrDev pa bs).mem.wf = true := by
  unfold State.wrDev; split
  · simpa using w
  · split
    · exact State.wf_wrMem w
    · exact w

theorem State.wf_barrierAdd {s : State} {pa n : Nat} (w : s.mem.wf = true) : (s.barrierAdd pa n).mem.wf = true := by
  unfold State.barrierAdd; dsimp only; split
  · exact State.wf_wrDev w
  · exact State.wf_wrDev (State.wf_wrDev w)

theorem State.wf_foldl_wrDev {α : Type} (pa : α → Nat) (bs : α → List Byte) (l : List α) {s : State} (w : s.mem.wf = true) :
    (l.foldl (fun st p => st.wrDev (pa p) (bs p)) s).mem.wf = true := by
  induction l generalizing s with
  | nil => exact w
  | cons a r ih => exact ih (State.wf_wrDev w)

theorem State.wf_queueRecord {s : State} {c : Nat} {r : BitVec 512} (w : s.mem.wf = true) : (s.queueRecord c r).mem.wf = true := by
  unfold State.queueRecord
  generalize leBytes 64 r.toNat = bs
  dsimp only
  split
  · exact w
  · rename_i h _
    split
    · exact w
    · repeat' split
      all_goals first
        | exact State.wf_barrierAdd (State.wf_wrDev (State.wf_wrDev w))
        | exact State.wf_wrDev (State.wf_wrDev w)
        | exact State.wf_wrDev w

theorem State.wf_present {s : State} {r : Rec} (w : s.mem.wf = true) : (s.present r).mem.wf = true := by
  unfold State.present; split
  · exact w
  · exact State.wf_queueRecord (by simpa using w)

theorem State.wf_foldl_present (l : List Rec) {s : State} (w : s.mem.wf = true) : (l.foldl State.present s).mem.wf = true := by
  induction l generalizing s with
  | nil => exact w
  | cons a r ih => exact ih (State.wf_present w)

theorem State.wf_presentAll {s : State} (w : s.mem.wf = true) : s.presentAll.mem.wf = true := by
  unfold State.presentAll
  generalize (s.recs.map (·.task)).eraseDups = l
  induction l generalizing s with
  | nil => exact w
  | cons t r ih => exact ih (s := s.presentFor t) (State.wf_foldl_present _ w)

theorem State.wf_recordFault {s : State} {t : Nat} {f : FaultInfo} (w : s.mem.wf = true) : (s.recordFault t f).mem.wf = true := w

/-- The memory of State.reset is canonical. -/
theorem State.reset_wf : State.reset.mem.wf = true := rfl

end Sys2Proof.Machine
end

