-- ==== Sys2Proof/Laws/Faults.lean ====
section
/-! SUPPORT. What a discard, a suspension and a fault record change, as one equation each: every field they do not name is as
before. -/

namespace Sys2Proof.Machine

/-- Leaving cores changes only what the cores keep. -/
theorem foldl_leaveCore (l : List Member) (s : State) : l.foldl State.leaveCore s = { s with cores := (l.foldl State.leaveCore s).cores } := by
  induction l generalizing s with
  | nil => rfl
  | cons m r ih => simp only [List.foldl_cons]; rw [ih (s.leaveCore m)]; rfl

theorem leaveCores_eq (s : State) (tk : Task) : s.leaveCores tk = { s with cores := (s.leaveCores tk).cores } := by
  unfold State.leaveCores; split
  · exact foldl_leaveCore _ _
  · rfl

/-- A discard of task t replaces that task by its discarded context; of the rest it changes only what cores keep, queue
reservations, waiting lock requests and registered reads (R31, R32). -/
theorem discard_eq {s : State} {t : Nat} {tk : Task} (h : s.tasks[t]? = some tk) :
    s.discard t = { s with
      tasks := s.tasks.set t tk.discardRegion, cores := (s.discard t).cores, queues := (s.discard t).queues
      lockq := (s.discard t).lockq, store := { s.store with readers := (s.discard t).store.readers } } := by
  unfold State.discard
  simp only [h]
  rw [leaveCores_eq s tk]
  rfl

/-- A suspension is a discard after which the task is SUSPENDED and owns no unit (R31, R355, R356). -/
theorem suspend_tasks {s : State} {t : Nat} {tk : Task} (h : s.tasks[t]? = some tk) :
    (s.suspend t).tasks = s.tasks.set t { tk.discardRegion with
      state := .suspended, before := some (tk.before.getD (tk.replicas, tk.members)) } := by
  have hl := (List.getElem?_eq_some_iff.mp h).1
  unfold State.suspend
  simp only [h]
  unfold State.modTask
  have e : ((s.discard t).releaseOwn t).tasks = s.tasks.set t tk.discardRegion := by
    rw [show ((s.discard t).releaseOwn t).tasks = (s.discard t).tasks from rfl, discard_eq h]
  simp [e, hl]

/-! ## Fault records (R35, R311, R334) -/

/-- A record detected waits with the others of its cycle; nothing else changes. -/
theorem recordFault_eq (s : State) (t : Nat) (f : FaultInfo) : s.recordFault t f = { s with recs := s.recs ++ [⟨t, f, none⟩] } := rfl

/-- A record presented takes the next sequence number and adds its event. -/
theorem present_events {s : State} {r : Rec} {tk : Task} (h : s.tasks[r.task]? = some tk) :
    (s.present r).events = s.events ++ [(s.nextSeq, .faultRecord r.info.cause)] ∧ (s.present r).nextSeq = s.nextSeq + 1 := by
  have q : ∀ (s : State) (c : Nat) (r : BitVec 512), (s.queueRecord c r).events = s.events ∧ (s.queueRecord c r).nextSeq = s.nextSeq := by
    intro s c r
    unfold State.queueRecord
    generalize leBytes 64 r.toNat = bs
    have ba : ∀ (s : State) (pa n : Nat), (s.barrierAdd pa n).events = s.events ∧ (s.barrierAdd pa n).nextSeq = s.nextSeq := by
      intro s pa n; unfold State.barrierAdd; dsimp only; split <;> simp
    dsimp only
    repeat' split
    all_goals first | exact ⟨rfl, rfl⟩ | (simp [ba])
  unfold State.present
  simp only [h]
  constructor
  · rw [(q _ _ _).1]; rfl
  · rw [(q _ _ _).2]; rfl

/-! ## Events numbered in their order (R311) -/

/-- The events carry the numbers 0, 1, ... in their order. -/
def eventsNumbered (s : State) : Prop := s.events.map (·.1) = List.range s.nextSeq

theorem eventsNumbered_stamp {s : State} (e : EventKind) (h : eventsNumbered s) : eventsNumbered (s.stamp e) := by
  unfold eventsNumbered at *
  simp [h, List.range_succ]

theorem eventsNumbered_present {s : State} (r : Rec) (h : eventsNumbered s) : eventsNumbered (s.present r) := by
  cases ht : s.tasks[r.task]? with
  | none => simpa [State.present, ht] using h
  | some tk =>
    have := present_events ht
    unfold eventsNumbered at *
    rw [this.1, this.2]
    simp [h, List.range_succ]

end Sys2Proof.Machine
end

