-- ==== Sys2Proof/Laws/Issue.lean ====
section
/-! SUPPORT. Issuing an engine command: every command's meaning at issue is issueCmd with the checks of its form, and a plan that
leaves the member as issue found it. -/

namespace Sys2Proof.Machine

/-- A plan changes nothing of the member that issue itself is to change, and its command is the one issued. -/
structure Good (mem : Member) (c : Cmd) (p : Plan) : Prop where
  g : p.mem.g = mem.g
  v : p.mem.v = mem.v
  spad : p.mem.spad = mem.spad
  d : p.mem.d = mem.d
  tq : p.mem.tq = mem.tq
  sem : p.mem.sem = mem.sem
  dwq : p.mem.dwq = mem.dwq
  cmds : p.mem.cmds = mem.cmds
  next : p.mem.nextCmd = mem.nextCmd
  pend : p.mem.pend = mem.pend
  i : p.cmd.instr = c.instr
  st : p.cmd.stream = c.stream
  state : p.cmd.state = c.state
  iss : p.cmd.issued = c.issued
  key : p.cmd.key = c.key

/-- The word of a form issues as issueCmd does, with a plan of the form's fate. -/
def Fits (f : CmdForm) (s : State) (i : Instr) : Prop :=
  ∃ plan : Task → Member → Cmd → Plan, exec i s = issueCmd s i f.hdr f.legal (f.checks s) plan f.room ∧
    ∀ tk mem c, (plan tk mem c).fate = f.fate tk ∧ Good mem c (plan tk mem c)

/-- Signing changes only signature bytes and counts. -/
theorem sign_ok (tk : Task) (mem : Member) (x a b) : let m := tk.sign mem x a b
   m.g = mem.g ∧ m.v = mem.v ∧ m.spad = mem.spad ∧ m.d = mem.d ∧ m.tq = mem.tq ∧ m.sem = mem.sem ∧ m.dwq = mem.dwq ∧ m.cmds = mem.cmds ∧ m.nextCmd = mem.nextCmd ∧ m.pend = mem.pend := by
  unfold Task.sign
  split
  · cases x <;> simp [Member.sign]
  · simp

/-- Freezing rows changes only the list of frozen rows. -/
theorem freeze_ok (l : List (Nat × Nat)) (mem : Member) : let m := l.foldl (fun m r => m.freeze r.1 r.2) mem
   m.g = mem.g ∧ m.v = mem.v ∧ m.spad = mem.spad ∧ m.d = mem.d ∧ m.tq = mem.tq ∧ m.sem = mem.sem ∧ m.dwq = mem.dwq ∧ m.cmds = mem.cmds ∧ m.nextCmd = mem.nextCmd ∧ m.pend = mem.pend := by
  induction l generalizing mem with
  | nil => simp
  | cons a l ih => have := ih (mem.freeze a.1 a.2); simp [Member.freeze] at this ⊢; exact this

theorem deferS_good (tk : Task) (mem : Member) (c : Cmd) (l : List (Nat × Nat)) (cc : Cmd) (h : cc.instr = c.instr ∧ cc.stream = c.stream ∧ cc.state = c.state ∧ cc.issued = c.issued ∧ cc.key = c.key) (f : Fate) : Good mem c ⟨deferS tk mem cc l, cc, f⟩ := by
  unfold deferS
  have h1 := freeze_ok l (tk.sign mem .s 2 (cc.signHead ++ leBytes 32 cc.desc.toNat ++ l.flatMap fun r => signConts mem r.1 r.2))
  have h2 := sign_ok tk mem .s 2 (cc.signHead ++ leBytes 32 cc.desc.toNat ++ l.flatMap fun r => signConts mem r.1 r.2)
  simp only at h1 h2 
  constructor <;> simp_all

theorem deferP_good (tk : Task) (mem : Member) (c : Cmd) (l : List (Nat × Nat)) (cc : Cmd) (h : cc.instr = c.instr ∧ cc.stream = c.stream ∧ cc.state = c.state ∧ cc.issued = c.issued ∧ cc.key = c.key) (f : Fate) : Good mem c ⟨deferPrefix tk mem cc l, cc, f⟩ := by
  unfold deferPrefix
  have h1 := freeze_ok l (tk.sign mem cc.stream 4 (cc.signHead ++ l.flatMap fun r => signConts mem r.1 r.2))
  have h2 := sign_ok tk mem cc.stream 4 (cc.signHead ++ l.flatMap fun r => signConts mem r.1 r.2)
  simp only at h1 h2 
  constructor <;> simp_all

/-- The copy, window, gather, scatter, fill and prefetch commands issue by their forms. -/
theorem fits_copy (s : State) (i : Instr) (f : CmdForm) (hp : s.cur.phase = .issue) (h : copyForm s.cur.stream i = some f) : Fits f s i := by
  unfold copyForm at h
  split at h <;> (try (simp only [Option.some.injEq, reduceCtorEq] at h)) <;> (try rw [← h])
  case h_1 => 
    refine ⟨_, by simp [exec, execWset, hp]; rfl, ?_⟩
    intro tk mem c; refine ⟨by simp, ?_⟩; constructor <;> simp [Member.setWindow]
  case h_2 => 
    refine ⟨_, by simp [exec, execWadv, hp]; rfl, ?_⟩
    intro tk mem c; refine ⟨by simp [fillFate], ?_⟩; constructor <;> simp [Member.setWindow]
  case h_3 => 
    refine ⟨_, by simp [exec, execWclose, hp]; rfl, ?_⟩
    intro tk mem c; refine ⟨rfl, ?_⟩; constructor <;> simp [Member.setWindow]
  case h_4 =>
    refine ⟨fun tk mem c => _, by simp [exec, execCopy, hp]; congr, ?_⟩
    intro tk mem c
    refine ⟨?_, ?_⟩
    · by_cases h1 : s.cur.stream = .l <;> by_cases h2 : tk.replicated <;> simp [h1, h2]
    · by_cases h1 : s.cur.stream = .l <;> by_cases h2 : tk.replicated <;> simp [h1, h2]
      any_goals (constructor <;> rfl)
      exact deferS_good _ _ _ _ _ (by simp) _
  case h_5 =>
    refine ⟨fun tk mem c => _, by simp [exec, execPeerCopy, hp]; congr, ?_⟩
    intro tk mem c; refine ⟨rfl, ?_⟩; constructor <;> rfl
  case h_6 =>
    refine ⟨fun tk mem c => _, by simp [exec, execGath, hp]; rfl, ?_⟩
    intro tk mem c; refine ⟨rfl, ?_⟩; constructor <;> rfl
  case h_7 =>
    refine ⟨fun tk mem c => _, by simp [exec, execGathTowin, hp]; rfl, ?_⟩
    intro tk mem c; refine ⟨rfl, ?_⟩; constructor <;> simp [Member.setWindow]
  case h_8 =>
    refine ⟨fun tk mem c => _, by simp [exec, execScat, hp]; rfl, ?_⟩
    intro tk mem c
    by_cases h2 : tk.replicated <;> simp [h2, writeForm]
    · exact deferS_good _ _ _ _ _ (by simp) _
    · constructor <;> rfl
  case h_9 =>
    refine ⟨fun tk mem c => _, by simp [exec, execFill, hp]; rfl, ?_⟩
    intro tk mem c; refine ⟨rfl, ?_⟩; constructor <;> rfl
  case h_10 =>
    refine ⟨fun tk mem c => _, by simp [exec, execFill, hp]; rfl, ?_⟩
    intro tk mem c
    by_cases h2 : tk.replicated <;> simp [h2, writeForm]
    · exact deferS_good _ _ _ _ _ (by simp) _
    · constructor <;> rfl
  case h_11 =>
    refine ⟨fun tk mem c => _, by simp [exec, execPref, hp]; rfl, ?_⟩
    intro tk mem c; refine ⟨rfl, ?_⟩; constructor <;> rfl
  case h_12 =>
    refine ⟨fun tk mem c => _, by simp [exec, execWaitb, hp]; rfl, ?_⟩
    intro tk mem c; refine ⟨rfl, ?_⟩; constructor <;> simp [Member.closeBatch] <;> split <;> rfl

/-- The prefix-store, selection, token and grammar commands issue by their forms. -/
theorem fits_store (s : State) (i : Instr) (f : CmdForm) (hp : s.cur.phase = .issue) (h : storeCmdForm i = some f) : Fits f s i := by
  unfold storeCmdForm at h
  split at h <;> (try (simp only [Option.some.injEq, reduceCtorEq] at h)) <;> (try rw [← h])
  all_goals
    refine ⟨_, by simp [exec, execSlopen, execSlfork, execSlmove, execSlmoveSwap, execSlclose, execSlinfo, execRxlook, execSeal, execKapp, execCpact, execRepl, execLease, execRenew, execFree, execEvclass, execPromo, execNodeinfo, execBsel, execPgath, execTkdetok, execGload, execGmask, execGstepStep, execGstepStart, execGstepOff, gstepIssue, prefixIssue, hp]; rfl, ?_⟩
    intro tk mem c
    refine ⟨?_, ?_⟩
    · simp only [recordCmdForm]; (repeat' split) <;> simp_all [shortForm]
    · (repeat' split) <;> first
        | exact deferP_good _ _ _ _ _ (by simp) _
        | (constructor <;> simp [Member.setWindow, sign_ok])

/-- The accumulates and CAS issue by their forms. -/
theorem fits_acc (s : State) (i : Instr) (f : CmdForm) (hp : s.cur.phase = .issue) (h : atomicForm i = some f) : Fits f s i := by
  unfold atomicForm at h
  split at h <;> (try (simp only [Option.some.injEq] at h)) <;> (try rw [← h])
  · refine ⟨_, by simp [exec, execCas, hp]; rfl, ?_⟩
    intro tk mem c
    refine ⟨rfl, ?_⟩
    try dsimp only
    split
    · constructor <;> simp [Member.freeze, sign_ok]
    · constructor <;> simp [sign_ok]
  · rename_i i' hne
    simp only [Option.map_eq_some_iff] at h
    obtain ⟨⟨a, b, hh, ff⟩, h1, h2⟩ := h
    have : exec i s = accumulate i a b hh ff s := by
      unfold accOf at h1
      split at h1 <;> simp at h1
      all_goals (obtain ⟨h3, h4, h5, h6⟩ := h1; subst h3; subst h4; subst h5; subst h6; rfl)
    rw [← h2]
    refine ⟨_, by rw [this]; simp [accumulate, hp]; rfl, ?_⟩
    intro tk mem c
    refine ⟨?_, ?_⟩
    · simp only [accPlan]; split <;> simp_all
    · simp only [accPlan]
      split
      · constructor <;> simp [sign_ok]
      · split
        · constructor <;> simp [sign_ok, freeze_ok]
        · constructor <;> simp [sign_ok]

/-- Every command with a form issues by it. -/
theorem fits (s : State) (i : Instr) (f : CmdForm) (hp : s.cur.phase = .issue) (h : cmdForm s.cur.stream i = some f) : Fits f s i := by
  unfold cmdForm at h
  cases hc : copyForm s.cur.stream i with
  | some a =>
    simp only [hc, Option.orElse_some, Option.some.injEq] at h
    rw [← h]; exact fits_copy s i a hp hc
  | none =>
    cases ha : atomicForm i with
    | some a =>
      simp only [hc, ha, Option.orElse_none, Option.orElse_some, Option.some.injEq] at h
      rw [← h]; exact fits_acc s i a hp ha
    | none =>
      simp only [hc, ha, Option.orElse_none] at h
      exact fits_store s i f hp h

end Sys2Proof.Machine
end

