-- ==== Sys2Proof/Laws/Lines.lean ====
section
/-! SUPPORT. Lines of the prefix store read from memory: when a read of them succeeds, and when it meets an uncorrectable error. -/

namespace Sys2Proof.Machine

/-- Every stack serves without a line that fails, and the plane cache has no share: a read of lines meets no error and fills nothing. -/
def State.sound (s : State) : Prop :=
  s.hbm.length = 12 ∧ (∀ st ∈ s.hbm, st.mode ≠ 5 ∧ st.badLines = []) ∧ s.mgmt.cfg.pcs.val = 0

/-- An address in the usable part of a stack. -/
def inStack (pa : Nat) : Prop := pa / 2 ^ 36 < 12 ∧ pa % 2 ^ 36 < Config.stackBytes

theorem inStack_below {pa : Nat} (h : inStack pa) : pa < 12 * 2 ^ 36 := by unfold inStack at h; omega

theorem State.paOk_of_inStack {s : State} {pa : Nat} (h : inStack pa) : s.paOk pa =
    ((s.hbm[pa / 2 ^ 36]?).map fun st => st.mode != 5 && !st.badLines.contains (pa / 64)).getD false := by
  have hb := inStack_below h
  have h1 : ¬ 2 ^ 51 ≤ pa := by omega
  have h2 : inPorts pa = false := by unfold inPorts within Config.portBase; simp; omega
  have h3 : within pa Config.chestBase (2 ^ 44) = false := by unfold within Config.chestBase; simp; omega
  unfold State.paOk
  simp only [h1, h2, h3, if_false, Bool.false_eq_true]
  have h4 : decide (pa % 2 ^ 36 < Config.stackBytes) = true := decide_eq_true h.2
  rw [h4]
  cases s.hbm[pa / 2 ^ 36]? <;> simp only [Option.map_some, Option.map_none, Option.getD_some, Option.getD_none, Bool.true_and]

theorem State.sound_paOk {s : State} (g : s.sound) {pa : Nat} (h : inStack pa) : s.paOk pa = true := by
  rw [State.paOk_of_inStack h]
  have hi : pa / 2 ^ 36 < s.hbm.length := by rw [g.1]; exact h.1
  obtain ⟨m5, nb⟩ := g.2.1 _ (List.getElem_mem hi)
  rw [List.getElem?_eq_getElem hi, Option.map_some, Option.getD_some, nb]
  have e : (s.hbm[pa / 2 ^ 36].mode != 5) = true := bne_iff_ne.2 m5
  rw [e]
  rfl

theorem State.sound_rangeOk {s : State} (g : s.sound) {pa n : Nat} (h : ∀ i < n, inStack (pa + i)) : s.rangeOk pa n = true := by
  unfold State.rangeOk
  simp only [List.all_eq_true, List.mem_range]
  exact fun i hi => State.sound_paOk g (h i hi)

theorem Stack.noteRead_serves {st : Stack} (pa n : Nat) (h : st.mode ≠ 5 ∧ st.badLines = []) :
    (st.noteRead pa n).mode ≠ 5 ∧ (st.noteRead pa n).badLines = [] := by
  unfold Stack.noteRead Stack.correct
  dsimp only
  repeat' split
  all_goals exact h

theorem State.sound_noteRead {s : State} (g : s.sound) (pa n : Nat) : (s.noteRead pa n).sound := by
  refine ⟨by simp [State.noteRead, g.1], fun st hst => ?_, g.2.2⟩
  simp only [State.noteRead] at hst
  obtain ⟨i, hi, rfl⟩ := List.mem_iff_getElem.1 hst
  rw [List.getElem_modify]
  have hm := g.2.1 (s.hbm[i]'(by simpa using hi)) (List.getElem_mem _)
  split
  · exact Stack.noteRead_serves _ _ hm
  · exact hm

/-- Lines that lie in the usable parts of the stacks of a sound device are read without an error, and only the stacks' counts change. -/
theorem State.readLines_sound (tier : Nat) (fill : Bool) (ls : List ShelfLine) : ∀ s : State, s.sound →
    (∀ l ∈ ls, ∀ i < 128, inStack (s.lineAddr tier l + i)) → ∃ s0 : State, s.readLines tier fill ls = (none, s0) ∧
      s0 = { s with hbm := s0.hbm, mgmt := s0.mgmt } ∧ s0.sound := by
  induction ls with
  | nil => exact fun s g _ => ⟨s, rfl, rfl, g⟩
  | cons l r ih =>
    intro s g h
    have hr : ∀ x ∈ r, ∀ i < 128, inStack (s.lineAddr tier x + i) := fun x hx => h x (List.mem_cons_of_mem _ hx)
    have hl := h l (List.mem_cons_self ..)
    have h1 : s.rangeOk (s.lineAddr tier l) 64 = true := State.sound_rangeOk g fun i hi => hl i (by omega)
    have h2 : s.rangeOk (s.lineAddr tier l + 64) 64 = true := State.sound_rangeOk g fun i hi => by
      have := hl (64 + i) (by omega)
      rwa [← Nat.add_assoc] at this
    have none_ : (s.noteRead (s.lineAddr tier l) 128).fillPlane l = none := by
      unfold State.fillPlane
      rw [if_pos (show (s.noteRead (s.lineAddr tier l) 128).mgmt.cfg.pcs.val = 0 from g.2.2)]
    unfold State.readLines
    by_cases hc : (if l.tail then s.store.shelf.contains l else tier == 0) = true
    · rw [if_pos hc]
      exact ih s g hr
    · rw [if_neg hc]
      simp only [h1, h2, Bool.not_true, none_, Option.getD_none, ite_self, Bool.false_eq_true, if_false]
      obtain ⟨s0, e, k, g0⟩ := ih _ (State.sound_noteRead g (s.lineAddr tier l) 128) hr
      exact ⟨s0, e, by rw [k]; rfl, g0⟩

/-- A line in a stack that has failed ends the read. -/
theorem State.readLines_failed (tier : Nat) (fill : Bool) (l : ShelfLine) (r : List ShelfLine) (s : State)
    (g : ∀ st ∈ s.hbm, st.mode = 5) (h : inStack (s.lineAddr tier l)) (hc : (if l.tail then s.store.shelf.contains l else tier == 0) = false) :
    s.readLines tier fill (l :: r) = (some (s.lineAddr tier l), s.noteRead (s.lineAddr tier l) 128) := by
  have bad : s.rangeOk (s.lineAddr tier l) 64 = false := by
    have : s.paOk (s.lineAddr tier l) = false := by
      rw [State.paOk_of_inStack h]
      cases e : s.hbm[s.lineAddr tier l / 2 ^ 36]? with
      | none => rfl
      | some st => simp [g st (List.mem_of_getElem? e)]
    unfold State.rangeOk
    rw [List.all_eq_false]
    exact ⟨0, by simp, by simp [this]⟩
  unfold State.readLines
  rw [if_neg (by rw [hc]; decide)]
  simp only [bad, Bool.not_false, if_true]

/-- A page of the drawer of a die lies in the usable part of its stack. -/
theorem drawerPage_inStack {die n o : Nat} (hd : die < 4) (ho : o < 4096) : inStack (4096 * drawerPage die n + o) := by
  have hs : ∀ s, 0 < stackPages s ∧ 4096 * stackPages s ≤ Config.stackBytes := by
    intro s
    have : Config.carveBytes s ≤ 2 ^ 31 := by unfold Config.carveBytes; split <;> decide
    unfold stackPages Config.stackBytes
    omega
  unfold drawerPage
  have := hs (3 * die + n % 3)
  have hm := Nat.mod_lt (n / 3) this.1
  generalize n / 3 % stackPages (3 * die + n % 3) = m at hm
  generalize stackPages (3 * die + n % 3) = p at hm this
  unfold inStack
  unfold Config.stackBytes at *
  have : n % 3 < 3 := Nat.mod_lt _ (by decide)
  constructor <;> omega

/-- Every byte of a line of the tail of a slot opened on one of the four dies lies in the usable part of a stack. -/
theorem State.tailLine_inStack {s : State} {l : ShelfLine} (tier : Nat) (ht : l.tail = true)
    (hd : ((s.store.slots.find l.owner).map (·.homeDie)).getD 0 < 4) : ∀ i < 128, inStack (s.lineAddr tier l + i) := by
  intro i hi
  unfold State.lineAddr
  rw [if_pos ht]
  have h := drawerPage_inStack (n := Config.tailAddr l.owner (l.part / 32)) hd (o := 128 * (l.part % 32) + i)
    (by have := Nat.mod_lt l.part (show 0 < 32 by decide); omega)
  unfold State.tailPage
  rwa [show 128 * (l.part % 32) + 4096 * drawerPage (((s.store.slots.find l.owner).map (·.homeDie)).getD 0) (Config.tailAddr l.owner (l.part / 32)) + i =
    4096 * drawerPage (((s.store.slots.find l.owner).map (·.homeDie)).getD 0) (Config.tailAddr l.owner (l.part / 32)) + (128 * (l.part % 32) + i) by omega]

/-- The lines of a tail are the slot's. -/
theorem State.tailLines_of (s : State) (k : Nat) (x : SeqSlot) (vals : Bool) (a j : Nat) :
    ∀ l ∈ s.tailLines k x vals a j ++ s.tailSumLines k x a j, l.tail = true ∧ l.owner = k := by
  intro l hl
  simp only [State.tailLines, State.tailSumLines, State.tailLine, List.mem_append, List.mem_map] at hl
  obtain ⟨_, _, rfl⟩ | ⟨_, _, rfl⟩ := hl <;> exact ⟨rfl, rfl⟩

theorem State.tailRows_of (s : State) (k : Nat) (x : SeqSlot) : ∀ l ∈ s.tailRows k x, l.tail = true ∧ l.owner = k := by
  intro l hl
  simp only [State.tailRows, List.mem_eraseDups, List.mem_flatMap, List.mem_append] at hl
  obtain ⟨a, _, j, _, h⟩ := hl
  exact h.elim (fun h => s.tailLines_of k x false a j l (List.mem_append_left _ h)) fun h => s.tailLines_of k x true a j l (List.mem_append_left _ h)

/-- The lines of a row of a node are the node's. -/
theorem State.rowLines_of (s : State) (k : Nat) (n : Node) (vals : Bool) (a j h0 nh : Nat) :
    ∀ l ∈ s.rowLines k n vals a j h0 nh, l.tail = false ∧ l.owner = k := by
  intro l hl
  simp only [State.rowLines, State.linesOf, State.nodeLine, List.mem_eraseDups, List.mem_append, List.mem_map] at hl
  obtain ⟨_, _, rfl⟩ | h := hl
  · exact ⟨rfl, rfl⟩
  · split at h
    · obtain ⟨_, _, rfl⟩ := List.mem_map.1 h
      exact ⟨rfl, rfl⟩
    · cases h

/-- Marking the first checks changes neither what is read nor in which order. -/
theorem GrainRead.mem_firsts {g : GrainRead} (gs : List GrainRead) : ∀ seen, g ∈ GrainRead.firsts seen gs →
    ∃ x ∈ gs, g.sealedAt = x.sealedAt ∧ g.lines = x.lines := by
  induction gs with
  | nil => exact fun _ h => by cases h
  | cons y r ih =>
    intro seen h
    unfold GrainRead.firsts at h
    split at h <;> rcases List.mem_cons.1 h with rfl | h1
    · exact ⟨_, List.mem_cons_self .., rfl, rfl⟩
    · obtain ⟨x, hx, e⟩ := ih _ h1
      exact ⟨x, List.mem_cons_of_mem _ hx, e⟩
    · exact ⟨y, List.mem_cons_self .., rfl, rfl⟩
    · obtain ⟨x, hx, e⟩ := ih _ h1
      exact ⟨x, List.mem_cons_of_mem _ hx, e⟩

theorem Kept.place_tail {k : Kept} (h : k.blocks = []) (p n j : Nat) : k.place p ≠ .node n j := by
  unfold Kept.place
  rw [h]
  split
  · exact fun e => by cases e
  · simp

/-- What CPACT and BSEL read of a slot that has no block is its tail. -/
theorem State.cpactReads_tails (s : State) (c : Cmd) (k : Kept) (h : k.blocks = []) :
    ∀ g ∈ s.cpactReads c k, g.sealedAt = none ∧ ∀ l ∈ g.lines, l.tail = true ∧ l.owner = c.w 1 := by
  intro g hg
  obtain ⟨x, hx, e1, e2⟩ := GrainRead.mem_firsts _ _ hg
  rw [e1, e2]
  obtain ⟨i, _, hi⟩ := List.mem_flatMap.1 hx
  split at hi
  · rename_i e; exact absurd e (Kept.place_tail h _ _ _)
  · obtain rfl := List.mem_singleton.1 hi
    refine ⟨rfl, fun l hl => ?_⟩
    obtain ⟨a, _, ha⟩ := List.mem_flatMap.1 hl
    exact (List.mem_append.1 ha).elim (fun h => State.tailLines_of _ _ _ _ _ _ l (List.mem_append_left _ h))
      fun h => State.tailLines_of _ _ _ _ _ _ l (List.mem_append_left _ h)
  · cases hi

theorem State.bselReads_tails (s : State) (k : Kept) (q : BselPrm) (h : k.blocks = []) :
    ∀ g ∈ s.bselReads k q, g.sealedAt = none ∧ ∀ l ∈ g.lines, l.tail = true ∧ l.owner = q.slot := by
  intro g hg
  obtain ⟨x, hx, e1, e2⟩ := GrainRead.mem_firsts _ _ hg
  rw [e1, e2]
  obtain ⟨i, _, hi⟩ := List.mem_filterMap.1 hx
  split at hi
  · rename_i e; exact absurd e (Kept.place_tail h _ _ _)
  · obtain rfl := Option.some.inj hi
    exact ⟨rfl, fun l hl => State.tailLines_of _ _ _ false _ _ l (List.mem_append_right _ hl)⟩
  · cases hi

/-- A node in the drawer and not in the shelf, that no command reads, is reached in the drawer. -/
theorem State.reach_drawer {s : State} {k : Nat} {n : Node} (need : List ShelfLine) (t m c : Nat) (hr : s.store.readers = []) (h0 : n.inTier 0 = false)
    (h1 : n.inTier 1 = true) :
    s.reach k n need t m c = (1, { s with store := { s.store with readers := [⟨k, 1, t, m, c⟩] } }) := by
  unfold State.reach State.readTier State.addReader
  simp [hr, h0, h1]

/-- A row of a node in the drawer, its pages in the usable parts of the stacks, is read without an error in a sound device. -/
theorem State.rowLines_read {s : State} {k : Nat} {n : Node} (need : List ShelfLine) (t m c : Nat) (vals : Bool) (a j h0 nh : Nat) (hs : s.sound)
    (hr : s.store.readers = []) (hn : s.store.nodes.find k = some n) (ht : n.inTier 0 = false ∧ n.inTier 1 = true)
    (hp : ∀ i, ∀ o < 4096, inStack (4096 * n.pages.getD i 0 + o)) :
    ∃ s0, (s.reach k n need t m c).2.readLines (s.reach k n need t m c).1 true (s.rowLines k n vals a j h0 nh) = (none, s0) := by
  rw [State.reach_drawer need t m c hr ht.1 ht.2]
  obtain ⟨s0, e, _⟩ := State.readLines_sound 1 true (s.rowLines k n vals a j h0 nh) { s with store := { s.store with readers := [⟨k, 1, t, m, c⟩] } } hs
    fun l hl i hi => by
      obtain ⟨h1, h2⟩ := s.rowLines_of k n vals a j h0 nh l hl
      have := hp (l.part / 32) (128 * (l.part % 32) + i) (by have := Nat.mod_lt l.part (show 0 < 32 by decide); omega)
      unfold State.lineAddr
      simp only [h1, h2, hn, Bool.false_eq_true, if_false, show ¬ (1 : Nat) = 2 by decide]
      rwa [show 128 * (l.part % 32) + 4096 * n.pages.getD (l.part / 32) 0 + i = 4096 * n.pages.getD (l.part / 32) 0 + (128 * (l.part % 32) + i) by omega]
  exact ⟨s0, e⟩

/-- Reads of tails of slots opened on the four dies end without an error in a sound device. -/
theorem readGrains_tails (tk : Task) (c : Cmd) (all gs : List GrainRead) (mem : Member) : ∀ s : State, s.sound →
    (∀ g ∈ gs, g.sealedAt = none ∧ ∀ l ∈ g.lines, l.tail = true ∧ ((s.store.slots.find l.owner).map (·.homeDie)).getD 0 < 4) →
    ∃ s0 : State, readGrains tk c all gs s mem = (.ok, mem, s0) := by
  induction gs with
  | nil => exact fun s _ _ => ⟨s, rfl⟩
  | cons g r ih =>
    intro s hs h
    obtain ⟨hn, hl⟩ := h g (List.mem_cons_self ..)
    obtain ⟨s1, e, k, h1⟩ := s.readLines_sound 1 true g.lines hs fun l hx => State.tailLine_inStack 1 (hl l hx).1 (hl l hx).2
    have step : readGrain tk c all g s mem = (.ok, mem, s1) := by unfold readGrain; simp only [hn, e]
    unfold readGrains
    simp only [step, GrainRead.node, hn, Option.map_none]
    have st : s1.store = s.store := by rw [k]
    exact ih s1 h1 fun x hx => by rw [st]; exact h x (List.mem_cons_of_mem _ hx)

end Sys2Proof.Machine
end

