-- ==== Sys2Proof/Laws/Maps.lean ====
section
/-! SUPPORT. Sparse maps: reads after put and del, and that both keep the keys strictly rising. -/

namespace Sys2Proof.Machine

/-- Strictly rising keys, none below lo. -/
def SMap.risesFrom {α : Type} : Nat → SMap α → Prop
  | _, [] => True
  | lo, (i, _) :: r => lo ≤ i ∧ SMap.risesFrom (i + 1) r

theorem SMap.risesFrom_mono {α : Type} {lo hi : Nat} {m : SMap α} (h : lo ≤ hi) (w : m.risesFrom hi) : m.risesFrom lo := by
  cases m with
  | nil => trivial
  | cons c r => exact ⟨Nat.le_trans h w.1, w.2⟩

theorem SMap.find_below {α : Type} {lo k : Nat} {m : SMap α} (w : m.risesFrom lo) (h : k < lo) : m.find k = none := by
  cases m with
  | nil => rfl
  | cons c r =>
    have h1 : lo ≤ c.1 := w.1
    have h2 : (c.1 == k) = false := by simp; omega
    have h3 : k < c.1 := by omega
    simp [SMap.find, h2, h3]

@[simp] theorem SMap.find_nil {α : Type} (k : Nat) : SMap.find ([] : SMap α) k = none := rfl

/-- What a key reads as after put, whatever the map. -/
theorem SMap.find_put_same {α : Type} (m : SMap α) (k : Nat) (a : α) : (m.put k a).find k = some a := by
  induction m with
  | nil => simp [SMap.put, SMap.find]
  | cons c r ih =>
    obtain ⟨i, b⟩ := c
    simp only [SMap.put]
    by_cases e : i = k
    · simp [e, SMap.find]
    · by_cases l : k < i
      · simp [e, l, SMap.find]
      · simp [e, l, SMap.find, ih]

/-- Another key reads as before after put, in a map whose keys rise. -/
theorem SMap.find_put_other {α : Type} {lo : Nat} {m : SMap α} {k j : Nat} {a : α} (w : m.risesFrom lo) (h : j ≠ k) :
    (m.put k a).find j = m.find j := by
  induction m generalizing lo with
  | nil =>
    have h1 : (k == j) = false := by simp; omega
    by_cases l : j < k <;> simp [SMap.put, SMap.find, h1, l]
  | cons c r ih =>
    obtain ⟨i, b⟩ := c
    simp only [SMap.put]
    by_cases e : i = k
    · subst e
      have h1 : (i == j) = false := by simp; omega
      simp [SMap.find, h1]
    · by_cases l : k < i
      · have h1 : (k == j) = false := by simp; omega
        simp only [beq_iff_eq, e, if_false, l, if_true, SMap.find, h1]
        by_cases jk : j < k
        · have h3 : j < i := by omega
          have h4 : ¬ i = j := by omega
          simp [jk, h3, h4]
        · simp [jk]
      · simp only [beq_iff_eq, e, if_false, l, SMap.find, ih w.2]

theorem SMap.find_put {α : Type} {lo : Nat} {m : SMap α} {k j : Nat} {a : α} (w : m.risesFrom lo) :
    (m.put k a).find j = if j = k then some a else m.find j := by
  by_cases h : j = k
  · subst h; simp [SMap.find_put_same]
  · simp [h, SMap.find_put_other w h]

theorem SMap.risesFrom_put {α : Type} {lo : Nat} {m : SMap α} {k : Nat} {a : α} (w : m.risesFrom lo) (h : lo ≤ k) :
    (m.put k a).risesFrom lo := by
  induction m generalizing lo with
  | nil => exact ⟨h, trivial⟩
  | cons c r ih =>
    obtain ⟨i, b⟩ := c
    simp only [SMap.put]
    by_cases e : i = k
    · subst e; simpa [SMap.risesFrom] using w
    · by_cases l : k < i
      · simp only [beq_iff_eq, e, if_false, l, if_true]; exact ⟨h, by omega, w.2⟩
      · simp only [beq_iff_eq, e, if_false, l]; exact ⟨w.1, ih w.2 (by omega)⟩

theorem SMap.risesFrom_del {α : Type} {lo : Nat} {m : SMap α} {k : Nat} (w : m.risesFrom lo) : (m.del k).risesFrom lo := by
  induction m generalizing lo with
  | nil => trivial
  | cons c r ih =>
    obtain ⟨i, b⟩ := c
    simp only [SMap.del]
    by_cases e : i = k
    · simp only [e, beq_self_eq_true, if_true]
      exact SMap.risesFrom_mono (by have := w.1; omega) w.2
    · by_cases l : k < i
      · simpa [e, l] using w
      · simp only [beq_iff_eq, e, if_false, l]; exact ⟨w.1, ih w.2⟩

theorem SMap.find_del {α : Type} {lo : Nat} {m : SMap α} {k j : Nat} (w : m.risesFrom lo) :
    (m.del k).find j = if j = k then none else m.find j := by
  induction m generalizing lo with
  | nil => by_cases h : j = k <;> simp [SMap.del, h]
  | cons c r ih =>
    obtain ⟨i, b⟩ := c
    simp only [SMap.del]
    by_cases e : i = k
    · subst e
      simp only [beq_self_eq_true, if_true, SMap.find]
      by_cases h : j = i
      · subst h; simp [SMap.find_below w.2 (Nat.lt_succ_self j)]
      · have h1 : (i == j) = false := by simp; omega
        simp only [h, if_false, h1]
        by_cases jl : j < i
        · simp [jl, SMap.find_below w.2 (show j < i + 1 by omega)]
        · simp [jl]
    · by_cases l : k < i
      · simp only [beq_iff_eq, e, if_false, l, if_true]
        by_cases h : j = k
        · subst h; simp [SMap.find, e, l]
        · simp [h]
      · simp only [beq_iff_eq, e, if_false, l, SMap.find, ih w.2]
        by_cases h : j = k
        · subst h; simp [e, l]
        · simp [h]

/-- Keys that rise pairwise rise from 0. -/
theorem SMap.risesFrom_of_pairwise {α : Type} {m : SMap α} (h : m.Pairwise fun a b => a.1 < b.1) : m.risesFrom 0 := by
  have key : ∀ (m : SMap α) (lo : Nat), (∀ c ∈ m, lo ≤ c.1) → m.Pairwise (fun a b => a.1 < b.1) → m.risesFrom lo := by
    intro m
    induction m with
    | nil => intros; trivial
    | cons c r ih =>
      intro lo h1 h2
      rw [List.pairwise_cons] at h2
      exact ⟨h1 c (by simp), ih (c.1 + 1) (fun d hd => h2.1 d hd) h2.2⟩
  exact key m 0 (by simp) h

/-- Keys that rise from some number rise pairwise. -/
theorem SMap.pairwise_of_risesFrom {α : Type} {lo : Nat} {m : SMap α} (h : m.risesFrom lo) :
    m.Pairwise (fun a b => a.1 < b.1) ∧ ∀ c ∈ m, lo ≤ c.1 := by
  induction m generalizing lo with
  | nil => simp
  | cons c r ih =>
    have h1 := ih h.2
    refine ⟨List.pairwise_cons.mpr ⟨fun d hd => h1.2 d hd, h1.1⟩, ?_⟩
    intro d hd
    rcases List.mem_cons.mp hd with e | e
    · subst e; exact h.1
    · have := h1.2 d e; have := h.1; omega

end Sys2Proof.Machine
end

