-- ==== Sys2Proof/Laws/PerInstr.lean ====
section
/-! SUPPORT. Family Issuing, one lemma per constructor of Instr: an instruction has a stream that may issue it exactly when it has
words; events of the device have neither, and so have station operations, which triggers start (R91, R95, R96, R107). -/

namespace Sys2Proof.Laws.Issuing

/-- An instruction has words exactly when some stream may issue it. -/
def Statement (i : Instr) : Prop := (encode i).isSome = true ↔ i.streams ≠ []

theorem add : ∀ x0 x1 x2, Statement (.add x0 x1 x2) := fun _ _ _ => ⟨fun _ => List.cons_ne_nil _ _, fun _ => rfl⟩
theorem sub : ∀ x0 x1 x2, Statement (.sub x0 x1 x2) := fun _ _ _ => ⟨fun _ => List.cons_ne_nil _ _, fun _ => rfl⟩
theorem mul : ∀ x0 x1 x2, Statement (.mul x0 x1 x2) := fun _ _ _ => ⟨fun _ => List.cons_ne_nil _ _, fun _ => rfl⟩
theorem mulh : ∀ x0 x1 x2, Statement (.mulh x0 x1 x2) := fun _ _ _ => ⟨fun _ => List.cons_ne_nil _ _, fun _ => rfl⟩
theorem mulhz : ∀ x0 x1 x2, Statement (.mulhz x0 x1 x2) := fun _ _ _ => ⟨fun _ => List.cons_ne_nil _ _, fun _ => rfl⟩
theorem div_ : ∀ x0 x1 x2, Statement (.div_ x0 x1 x2) := fun _ _ _ => ⟨fun _ => List.cons_ne_nil _ _, fun _ => rfl⟩
theorem divz : ∀ x0 x1 x2, Statement (.divz x0 x1 x2) := fun _ _ _ => ⟨fun _ => List.cons_ne_nil _ _, fun _ => rfl⟩
theorem rem_ : ∀ x0 x1 x2, Statement (.rem_ x0 x1 x2) := fun _ _ _ => ⟨fun _ => List.cons_ne_nil _ _, fun _ => rfl⟩
theorem remz : ∀ x0 x1 x2, Statement (.remz x0 x1 x2) := fun _ _ _ => ⟨fun _ => List.cons_ne_nil _ _, fun _ => rfl⟩
theorem and_ : ∀ x0 x1 x2, Statement (.and_ x0 x1 x2) := fun _ _ _ => ⟨fun _ => List.cons_ne_nil _ _, fun _ => rfl⟩
theorem or_ : ∀ x0 x1 x2, Statement (.or_ x0 x1 x2) := fun _ _ _ => ⟨fun _ => List.cons_ne_nil _ _, fun _ => rfl⟩
theorem xor_ : ∀ x0 x1 x2, Statement (.xor_ x0 x1 x2) := fun _ _ _ => ⟨fun _ => List.cons_ne_nil _ _, fun _ => rfl⟩
theorem shl : ∀ x0 x1 x2, Statement (.shl x0 x1 x2) := fun _ _ _ => ⟨fun _ => List.cons_ne_nil _ _, fun _ => rfl⟩
theorem shr : ∀ x0 x1 x2, Statement (.shr x0 x1 x2) := fun _ _ _ => ⟨fun _ => List.cons_ne_nil _ _, fun _ => rfl⟩
theorem sra : ∀ x0 x1 x2, Statement (.sra x0 x1 x2) := fun _ _ _ => ⟨fun _ => List.cons_ne_nil _ _, fun _ => rfl⟩
theorem min : ∀ x0 x1 x2, Statement (.min x0 x1 x2) := fun _ _ _ => ⟨fun _ => List.cons_ne_nil _ _, fun _ => rfl⟩
theorem max : ∀ x0 x1 x2, Statement (.max x0 x1 x2) := fun _ _ _ => ⟨fun _ => List.cons_ne_nil _ _, fun _ => rfl⟩
theorem minz : ∀ x0 x1 x2, Statement (.minz x0 x1 x2) := fun _ _ _ => ⟨fun _ => List.cons_ne_nil _ _, fun _ => rfl⟩
theorem maxz : ∀ x0 x1 x2, Statement (.maxz x0 x1 x2) := fun _ _ _ => ⟨fun _ => List.cons_ne_nil _ _, fun _ => rfl⟩
theorem clz : ∀ x0 x1, Statement (.clz x0 x1) := fun _ _ => ⟨fun _ => List.cons_ne_nil _ _, fun _ => rfl⟩
theorem popc : ∀ x0 x1, Statement (.popc x0 x1) := fun _ _ => ⟨fun _ => List.cons_ne_nil _ _, fun _ => rfl⟩
theorem seq : ∀ x0 x1 x2, Statement (.seq x0 x1 x2) := fun _ _ _ => ⟨fun _ => List.cons_ne_nil _ _, fun _ => rfl⟩
theorem slt : ∀ x0 x1 x2, Statement (.slt x0 x1 x2) := fun _ _ _ => ⟨fun _ => List.cons_ne_nil _ _, fun _ => rfl⟩
theorem sltz : ∀ x0 x1 x2, Statement (.sltz x0 x1 x2) := fun _ _ _ => ⟨fun _ => List.cons_ne_nil _ _, fun _ => rfl⟩
theorem lea : ∀ x0 x1 x2 x3, Statement (.lea x0 x1 x2 x3) := fun _ _ _ _ => ⟨fun _ => List.cons_ne_nil _ _, fun _ => rfl⟩
theorem addi : ∀ x0 x1 x2, Statement (.addi x0 x1 x2) := fun _ _ _ => ⟨fun _ => List.cons_ne_nil _ _, fun _ => rfl⟩
theorem andi : ∀ x0 x1 x2, Statement (.andi x0 x1 x2) := fun _ _ _ => ⟨fun _ => List.cons_ne_nil _ _, fun _ => rfl⟩
theorem ori : ∀ x0 x1 x2, Statement (.ori x0 x1 x2) := fun _ _ _ => ⟨fun _ => List.cons_ne_nil _ _, fun _ => rfl⟩
theorem xori : ∀ x0 x1 x2, Statement (.xori x0 x1 x2) := fun _ _ _ => ⟨fun _ => List.cons_ne_nil _ _, fun _ => rfl⟩
theorem slti : ∀ x0 x1 x2, Statement (.slti x0 x1 x2) := fun _ _ _ => ⟨fun _ => List.cons_ne_nil _ _, fun _ => rfl⟩
theorem lih : ∀ x0 x1 x2, Statement (.lih x0 x1 x2) := fun _ _ _ => ⟨fun _ => List.cons_ne_nil _ _, fun _ => rfl⟩
theorem shli : ∀ x0 x1 x2, Statement (.shli x0 x1 x2) := fun _ _ _ => ⟨fun _ => List.cons_ne_nil _ _, fun _ => rfl⟩
theorem shri : ∀ x0 x1 x2, Statement (.shri x0 x1 x2) := fun _ _ _ => ⟨fun _ => List.cons_ne_nil _ _, fun _ => rfl⟩
theorem srai : ∀ x0 x1 x2, Statement (.srai x0 x1 x2) := fun _ _ _ => ⟨fun _ => List.cons_ne_nil _ _, fun _ => rfl⟩
theorem ldb : ∀ x0 x1 x2, Statement (.ldb x0 x1 x2) := fun _ _ _ => ⟨fun _ => List.cons_ne_nil _ _, fun _ => rfl⟩
theorem ldbs : ∀ x0 x1 x2, Statement (.ldbs x0 x1 x2) := fun _ _ _ => ⟨fun _ => List.cons_ne_nil _ _, fun _ => rfl⟩
theorem ldh : ∀ x0 x1 x2, Statement (.ldh x0 x1 x2) := fun _ _ _ => ⟨fun _ => List.cons_ne_nil _ _, fun _ => rfl⟩
theorem ldhs : ∀ x0 x1 x2, Statement (.ldhs x0 x1 x2) := fun _ _ _ => ⟨fun _ => List.cons_ne_nil _ _, fun _ => rfl⟩
theorem ldw : ∀ x0 x1 x2, Statement (.ldw x0 x1 x2) := fun _ _ _ => ⟨fun _ => List.cons_ne_nil _ _, fun _ => rfl⟩
theorem ldws : ∀ x0 x1 x2, Statement (.ldws x0 x1 x2) := fun _ _ _ => ⟨fun _ => List.cons_ne_nil _ _, fun _ => rfl⟩
theorem ldd : ∀ x0 x1 x2, Statement (.ldd x0 x1 x2) := fun _ _ _ => ⟨fun _ => List.cons_ne_nil _ _, fun _ => rfl⟩
theorem stb : ∀ x0 x1 x2, Statement (.stb x0 x1 x2) := fun _ _ _ => ⟨fun _ => List.cons_ne_nil _ _, fun _ => rfl⟩
theorem sth : ∀ x0 x1 x2, Statement (.sth x0 x1 x2) := fun _ _ _ => ⟨fun _ => List.cons_ne_nil _ _, fun _ => rfl⟩
theorem stw : ∀ x0 x1 x2, Statement (.stw x0 x1 x2) := fun _ _ _ => ⟨fun _ => List.cons_ne_nil _ _, fun _ => rfl⟩
theorem std : ∀ x0 x1 x2, Statement (.std x0 x1 x2) := fun _ _ _ => ⟨fun _ => List.cons_ne_nil _ _, fun _ => rfl⟩
theorem beq : ∀ x0 x1 x2, Statement (.beq x0 x1 x2) := fun _ _ _ => ⟨fun _ => List.cons_ne_nil _ _, fun _ => rfl⟩
theorem bne : ∀ x0 x1 x2, Statement (.bne x0 x1 x2) := fun _ _ _ => ⟨fun _ => List.cons_ne_nil _ _, fun _ => rfl⟩
theorem blt : ∀ x0 x1 x2, Statement (.blt x0 x1 x2) := fun _ _ _ => ⟨fun _ => List.cons_ne_nil _ _, fun _ => rfl⟩
theorem bge : ∀ x0 x1 x2, Statement (.bge x0 x1 x2) := fun _ _ _ => ⟨fun _ => List.cons_ne_nil _ _, fun _ => rfl⟩
theorem blo : ∀ x0 x1 x2, Statement (.blo x0 x1 x2) := fun _ _ _ => ⟨fun _ => List.cons_ne_nil _ _, fun _ => rfl⟩
theorem bhs : ∀ x0 x1 x2, Statement (.bhs x0 x1 x2) := fun _ _ _ => ⟨fun _ => List.cons_ne_nil _ _, fun _ => rfl⟩
theorem jal : ∀ x0 x1, Statement (.jal x0 x1) := fun _ _ => ⟨fun _ => List.cons_ne_nil _ _, fun _ => rfl⟩
theorem jalr : ∀ x0 x1 x2, Statement (.jalr x0 x1 x2) := fun _ _ _ => ⟨fun _ => List.cons_ne_nil _ _, fun _ => rfl⟩
theorem loop : ∀ x0 x1 x2, Statement (.loop x0 x1 x2) := fun _ _ _ => ⟨fun _ => List.cons_ne_nil _ _, fun _ => rfl⟩
theorem loopi : ∀ x0 x1 x2, Statement (.loopi x0 x1 x2) := fun _ _ _ => ⟨fun _ => List.cons_ne_nil _ _, fun _ => rfl⟩
theorem dset : ∀ x0 x1 x2, Statement (.dset x0 x1 x2) := fun _ _ _ => ⟨fun _ => List.cons_ne_nil _ _, fun _ => rfl⟩
theorem dget : ∀ x0 x1 x2, Statement (.dget x0 x1 x2) := fun _ _ _ => ⟨fun _ => List.cons_ne_nil _ _, fun _ => rfl⟩
theorem mbw : ∀ x0 x1, Statement (.mbw x0 x1) := fun _ _ => ⟨fun _ => List.cons_ne_nil _ _, fun _ => rfl⟩
theorem tsig : ∀ x0 x1 x2, Statement (.tsig x0 x1 x2) := fun _ _ _ => ⟨fun _ => List.cons_ne_nil _ _, fun _ => rfl⟩
theorem twait : ∀ x0 x1, Statement (.twait x0 x1) := fun _ _ => ⟨fun _ => List.cons_ne_nil _ _, fun _ => rfl⟩
theorem twaitb : ∀ x0 x1, Statement (.twaitb x0 x1) := fun _ _ => ⟨fun _ => List.cons_ne_nil _ _, fun _ => rfl⟩
theorem semw : ∀ x0 x1, Statement (.semw x0 x1) := fun _ _ => ⟨fun _ => List.cons_ne_nil _ _, fun _ => rfl⟩
theorem sems : ∀ x0 x1, Statement (.sems x0 x1) := fun _ _ => ⟨fun _ => List.cons_ne_nil _ _, fun _ => rfl⟩
theorem semr : ∀ x0 x1, Statement (.semr x0 x1) := fun _ _ => ⟨fun _ => List.cons_ne_nil _ _, fun _ => rfl⟩
theorem acq : ∀ x0, Statement (.acq x0) := fun _ => ⟨fun _ => List.cons_ne_nil _ _, fun _ => rfl⟩
theorem rel : ∀ x0, Statement (.rel x0) := fun _ => ⟨fun _ => List.cons_ne_nil _ _, fun _ => rfl⟩
theorem sobind : ∀ x0 x1 x2, Statement (.sobind x0 x1 x2) := fun _ _ _ => ⟨fun _ => List.cons_ne_nil _ _, fun _ => rfl⟩
theorem boarm : ∀ x0 x1, Statement (.boarm x0 x1) := fun _ _ => ⟨fun _ => List.cons_ne_nil _ _, fun _ => rfl⟩
theorem bowait : ∀ x0, Statement (.bowait x0) := fun _ => ⟨fun _ => List.cons_ne_nil _ _, fun _ => rfl⟩
theorem fence : ∀ x0 x1, Statement (.fence x0 x1) := fun _ _ => ⟨fun _ => List.cons_ne_nil _ _, fun _ => rfl⟩
theorem tspawn : ∀ x0 x1 x2, Statement (.tspawn x0 x1 x2) := fun _ _ _ => ⟨fun _ => List.cons_ne_nil _ _, fun _ => rfl⟩
theorem srrd : ∀ x0 x1, Statement (.srrd x0 x1) := fun _ _ => ⟨fun _ => List.cons_ne_nil _ _, fun _ => rfl⟩
theorem srwr : ∀ x0 x1, Statement (.srwr x0 x1) := fun _ _ => ⟨fun _ => List.cons_ne_nil _ _, fun _ => rfl⟩
theorem time : ∀ x0, Statement (.time x0) := fun _ => ⟨fun _ => List.cons_ne_nil _ _, fun _ => rfl⟩
theorem cyc : ∀ x0, Statement (.cyc x0) := fun _ => ⟨fun _ => List.cons_ne_nil _ _, fun _ => rfl⟩
theorem rng : ∀ x0, Statement (.rng x0) := fun _ => ⟨fun _ => List.cons_ne_nil _ _, fun _ => rfl⟩
theorem trap : ∀ x0, Statement (.trap x0) := fun _ => ⟨fun _ => List.cons_ne_nil _ _, fun _ => rfl⟩
theorem fltinj : ∀ x0 x1, Statement (.fltinj x0 x1) := fun _ _ => ⟨fun _ => List.cons_ne_nil _ _, fun _ => rfl⟩
theorem loopk : ∀ x0 x1 x2 x3, Statement (.loopk x0 x1 x2 x3) := fun _ _ _ _ => ⟨fun _ => List.cons_ne_nil _ _, fun _ => rfl⟩
theorem jmpk : ∀ x0 x1, Statement (.jmpk x0 x1) := fun _ _ => ⟨fun _ => List.cons_ne_nil _ _, fun _ => rfl⟩
theorem twaitTimed : ∀ x0 x1, Statement (.twaitTimed x0 x1) := fun _ _ => ⟨fun _ => List.cons_ne_nil _ _, fun _ => rfl⟩
theorem twaitbTimed : ∀ x0 x1 x2, Statement (.twaitbTimed x0 x1 x2) := fun _ _ _ => ⟨fun _ => List.cons_ne_nil _ _, fun _ => rfl⟩
theorem tsigTimed : ∀ x0 x1 x2, Statement (.tsigTimed x0 x1 x2) := fun _ _ _ => ⟨fun _ => List.cons_ne_nil _ _, fun _ => rfl⟩
theorem closeTimed : ∀ x0, Statement (.closeTimed x0) := fun _ => ⟨fun _ => List.cons_ne_nil _ _, fun _ => rfl⟩
theorem halt : ∀ x0, Statement (.halt x0) := fun _ => ⟨fun _ => List.cons_ne_nil _ _, fun _ => rfl⟩
theorem bundle : ∀ x0 x1 x2 x3, Statement (.bundle x0 x1 x2 x3) := fun _ _ _ _ => ⟨fun _ => List.cons_ne_nil _ _, fun _ => rfl⟩
theorem vadd : ∀ x0, Statement (.vadd x0) := fun _ => ⟨nofun, fun h => absurd rfl h⟩
theorem vsub : ∀ x0, Statement (.vsub x0) := fun _ => ⟨nofun, fun h => absurd rfl h⟩
theorem vadds : ∀ x0, Statement (.vadds x0) := fun _ => ⟨nofun, fun h => absurd rfl h⟩
theorem vsubs : ∀ x0, Statement (.vsubs x0) := fun _ => ⟨nofun, fun h => absurd rfl h⟩
theorem vmin : ∀ x0, Statement (.vmin x0) := fun _ => ⟨nofun, fun h => absurd rfl h⟩
theorem vmax : ∀ x0, Statement (.vmax x0) := fun _ => ⟨nofun, fun h => absurd rfl h⟩
theorem vminz : ∀ x0, Statement (.vminz x0) := fun _ => ⟨nofun, fun h => absurd rfl h⟩
theorem vmaxz : ∀ x0, Statement (.vmaxz x0) := fun _ => ⟨nofun, fun h => absurd rfl h⟩
theorem vand : ∀ x0, Statement (.vand x0) := fun _ => ⟨nofun, fun h => absurd rfl h⟩
theorem vor : ∀ x0, Statement (.vor x0) := fun _ => ⟨nofun, fun h => absurd rfl h⟩
theorem vxor : ∀ x0, Statement (.vxor x0) := fun _ => ⟨nofun, fun h => absurd rfl h⟩
theorem vnot : ∀ x0, Statement (.vnot x0) := fun _ => ⟨nofun, fun h => absurd rfl h⟩
theorem vshl : ∀ x0, Statement (.vshl x0) := fun _ => ⟨nofun, fun h => absurd rfl h⟩
theorem vshr : ∀ x0, Statement (.vshr x0) := fun _ => ⟨nofun, fun h => absurd rfl h⟩
theorem vsra : ∀ x0, Statement (.vsra x0) := fun _ => ⟨nofun, fun h => absurd rfl h⟩
theorem vmov : ∀ x0, Statement (.vmov x0) := fun _ => ⟨nofun, fun h => absurd rfl h⟩
theorem vceq : ∀ x0, Statement (.vceq x0) := fun _ => ⟨nofun, fun h => absurd rfl h⟩
theorem vclt : ∀ x0, Statement (.vclt x0) := fun _ => ⟨nofun, fun h => absurd rfl h⟩
theorem vcltz : ∀ x0, Statement (.vcltz x0) := fun _ => ⟨nofun, fun h => absurd rfl h⟩
theorem vsel : ∀ x0, Statement (.vsel x0) := fun _ => ⟨nofun, fun h => absurd rfl h⟩
theorem vvalid : ∀ x0, Statement (.vvalid x0) := fun _ => ⟨nofun, fun h => absurd rfl h⟩
theorem viota : ∀ x0, Statement (.viota x0) := fun _ => ⟨nofun, fun h => absurd rfl h⟩
theorem vabs : ∀ x0, Statement (.vabs x0) := fun _ => ⟨nofun, fun h => absurd rfl h⟩
theorem vneg : ∀ x0, Statement (.vneg x0) := fun _ => ⟨nofun, fun h => absurd rfl h⟩
theorem vfadd : ∀ x0, Statement (.vfadd x0) := fun _ => ⟨nofun, fun h => absurd rfl h⟩
theorem vfsub : ∀ x0, Statement (.vfsub x0) := fun _ => ⟨nofun, fun h => absurd rfl h⟩
theorem vfmul : ∀ x0, Statement (.vfmul x0) := fun _ => ⟨nofun, fun h => absurd rfl h⟩
theorem vfma : ∀ x0, Statement (.vfma x0) := fun _ => ⟨nofun, fun h => absurd rfl h⟩
theorem vfms : ∀ x0, Statement (.vfms x0) := fun _ => ⟨nofun, fun h => absurd rfl h⟩
theorem vfnma : ∀ x0, Statement (.vfnma x0) := fun _ => ⟨nofun, fun h => absurd rfl h⟩
theorem vfmin : ∀ x0, Statement (.vfmin x0) := fun _ => ⟨nofun, fun h => absurd rfl h⟩
theorem vfmax : ∀ x0, Statement (.vfmax x0) := fun _ => ⟨nofun, fun h => absurd rfl h⟩
theorem vfabs : ∀ x0, Statement (.vfabs x0) := fun _ => ⟨nofun, fun h => absurd rfl h⟩
theorem vfneg : ∀ x0, Statement (.vfneg x0) := fun _ => ⟨nofun, fun h => absurd rfl h⟩
theorem vfcmp : ∀ x0, Statement (.vfcmp x0) := fun _ => ⟨nofun, fun h => absurd rfl h⟩
theorem vfscale : ∀ x0, Statement (.vfscale x0) := fun _ => ⟨nofun, fun h => absurd rfl h⟩
theorem vfexpo : ∀ x0, Statement (.vfexpo x0) := fun _ => ⟨nofun, fun h => absurd rfl h⟩
theorem vfmant : ∀ x0, Statement (.vfmant x0) := fun _ => ⟨nofun, fun h => absurd rfl h⟩
theorem vdiv : ∀ x0, Statement (.vdiv x0) := fun _ => ⟨nofun, fun h => absurd rfl h⟩
theorem vrcp : ∀ x0, Statement (.vrcp x0) := fun _ => ⟨nofun, fun h => absurd rfl h⟩
theorem vsqrt : ∀ x0, Statement (.vsqrt x0) := fun _ => ⟨nofun, fun h => absurd rfl h⟩
theorem vsqrtc : ∀ x0, Statement (.vsqrtc x0) := fun _ => ⟨nofun, fun h => absurd rfl h⟩
theorem vrsqrt : ∀ x0, Statement (.vrsqrt x0) := fun _ => ⟨nofun, fun h => absurd rfl h⟩
theorem vexp2 : ∀ x0, Statement (.vexp2 x0) := fun _ => ⟨nofun, fun h => absurd rfl h⟩
theorem vlog2 : ∀ x0, Statement (.vlog2 x0) := fun _ => ⟨nofun, fun h => absurd rfl h⟩
theorem vgumb : ∀ x0, Statement (.vgumb x0) := fun _ => ⟨nofun, fun h => absurd rfl h⟩
theorem vsum : ∀ x0, Statement (.vsum x0) := fun _ => ⟨nofun, fun h => absurd rfl h⟩
theorem vscan : ∀ x0, Statement (.vscan x0) := fun _ => ⟨nofun, fun h => absurd rfl h⟩
theorem vrmax : ∀ x0, Statement (.vrmax x0) := fun _ => ⟨nofun, fun h => absurd rfl h⟩
theorem vrmin : ∀ x0, Statement (.vrmin x0) := fun _ => ⟨nofun, fun h => absurd rfl h⟩
theorem vemax : ∀ x0, Statement (.vemax x0) := fun _ => ⟨nofun, fun h => absurd rfl h⟩
theorem vcount : ∀ x0, Statement (.vcount x0) := fun _ => ⟨nofun, fun h => absurd rfl h⟩
theorem vsort : ∀ x0, Statement (.vsort x0) := fun _ => ⟨nofun, fun h => absurd rfl h⟩
theorem vtopk : ∀ x0, Statement (.vtopk x0) := fun _ => ⟨nofun, fun h => absurd rfl h⟩
theorem vtopkm : ∀ x0, Statement (.vtopkm x0) := fun _ => ⟨nofun, fun h => absurd rfl h⟩
theorem vcvtF32 : ∀ x0, Statement (.vcvtF32 x0) := fun _ => ⟨nofun, fun h => absurd rfl h⟩
theorem vcvtF16 : ∀ x0, Statement (.vcvtF16 x0) := fun _ => ⟨nofun, fun h => absurd rfl h⟩
theorem vcvtBf16 : ∀ x0, Statement (.vcvtBf16 x0) := fun _ => ⟨nofun, fun h => absurd rfl h⟩
theorem vcvtE4m3 : ∀ x0, Statement (.vcvtE4m3 x0) := fun _ => ⟨nofun, fun h => absurd rfl h⟩
theorem vcvtE5m2 : ∀ x0, Statement (.vcvtE5m2 x0) := fun _ => ⟨nofun, fun h => absurd rfl h⟩
theorem vcvtS32 : ∀ x0, Statement (.vcvtS32 x0) := fun _ => ⟨nofun, fun h => absurd rfl h⟩
theorem vcvtS16 : ∀ x0, Statement (.vcvtS16 x0) := fun _ => ⟨nofun, fun h => absurd rfl h⟩
theorem vcvtS8 : ∀ x0, Statement (.vcvtS8 x0) := fun _ => ⟨nofun, fun h => absurd rfl h⟩
theorem vmxq : ∀ x0, Statement (.vmxq x0) := fun _ => ⟨nofun, fun h => absurd rfl h⟩
theorem vmxdq : ∀ x0, Statement (.vmxdq x0) := fun _ => ⟨nofun, fun h => absurd rfl h⟩
theorem vpack : ∀ x0, Statement (.vpack x0) := fun _ => ⟨nofun, fun h => absurd rfl h⟩
theorem vwiden : ∀ x0, Statement (.vwiden x0) := fun _ => ⟨nofun, fun h => absurd rfl h⟩
theorem vnarrow : ∀ x0, Statement (.vnarrow x0) := fun _ => ⟨nofun, fun h => absurd rfl h⟩
theorem vrng : ∀ x0, Statement (.vrng x0) := fun _ => ⟨nofun, fun h => absurd rfl h⟩
theorem vperm : ∀ x0, Statement (.vperm x0) := fun _ => ⟨nofun, fun h => absurd rfl h⟩
theorem vshuf : ∀ x0, Statement (.vshuf x0) := fun _ => ⟨nofun, fun h => absurd rfl h⟩
theorem vbcast : ∀ x0, Statement (.vbcast x0) := fun _ => ⟨nofun, fun h => absurd rfl h⟩
theorem vextr : ∀ x0, Statement (.vextr x0) := fun _ => ⟨nofun, fun h => absurd rfl h⟩
theorem vins : ∀ x0, Statement (.vins x0) := fun _ => ⟨nofun, fun h => absurd rfl h⟩
theorem vrot : ∀ x0, Statement (.vrot x0) := fun _ => ⟨nofun, fun h => absurd rfl h⟩
theorem vdot4s : ∀ x0, Statement (.vdot4s x0) := fun _ => ⟨nofun, fun h => absurd rfl h⟩
theorem vdot8s : ∀ x0, Statement (.vdot8s x0) := fun _ => ⟨nofun, fun h => absurd rfl h⟩
theorem vcompact : ∀ x0, Statement (.vcompact x0) := fun _ => ⟨nofun, fun h => absurd rfl h⟩
theorem vexpand : ∀ x0, Statement (.vexpand x0) := fun _ => ⟨nofun, fun h => absurd rfl h⟩
theorem vchain : ∀ x0, Statement (.vchain x0) := fun _ => ⟨fun _ => List.cons_ne_nil _ _, fun _ => rfl⟩
theorem mma : ∀ x0, Statement (.mma x0) := fun _ => ⟨fun _ => List.cons_ne_nil _ _, fun _ => rfl⟩
theorem mmaz : ∀ x0, Statement (.mmaz x0) := fun _ => ⟨fun _ => List.cons_ne_nil _ _, fun _ => rfl⟩
theorem mmas : ∀ x0, Statement (.mmas x0) := fun _ => ⟨fun _ => List.cons_ne_nil _ _, fun _ => rfl⟩
theorem mima : ∀ x0, Statement (.mima x0) := fun _ => ⟨fun _ => List.cons_ne_nil _ _, fun _ => rfl⟩
theorem mzero : ∀ x0, Statement (.mzero x0) := fun _ => ⟨fun _ => List.cons_ne_nil _ _, fun _ => rfl⟩
theorem mldacc : ∀ x0, Statement (.mldacc x0) := fun _ => ⟨fun _ => List.cons_ne_nil _ _, fun _ => rfl⟩
theorem mdrain : ∀ x0, Statement (.mdrain x0) := fun _ => ⟨fun _ => List.cons_ne_nil _ _, fun _ => rfl⟩
theorem wset : ∀ x0 x1 x2 x3, Statement (.wset x0 x1 x2 x3) := fun _ _ _ _ => ⟨fun _ => List.cons_ne_nil _ _, fun _ => rfl⟩
theorem wadv : ∀ x0 x1 x2 x3, Statement (.wadv x0 x1 x2 x3) := fun _ _ _ _ => ⟨fun _ => List.cons_ne_nil _ _, fun _ => rfl⟩
theorem wclose : ∀ x0 x1, Statement (.wclose x0 x1) := fun _ _ => ⟨fun _ => List.cons_ne_nil _ _, fun _ => rfl⟩
theorem copy : ∀ x0 x1 x2 x3 x4 x5, Statement (.copy x0 x1 x2 x3 x4 x5) := by
  intros; constructor
  · intro _; simp [Instr.streams, encode, Instr.timedStreams, formCopy]; split <;> simp_all
  · intro _; rfl
theorem peerCopy : ∀ x0 x1 x2 x3 x4, Statement (.peerCopy x0 x1 x2 x3 x4) := by
  intros; constructor
  · intro _; simp [Instr.streams, encode, Instr.timedStreams, formCopy]; split <;> simp_all
  · intro _; rfl
theorem gath : ∀ x0 x1 x2 x3 x4, Statement (.gath x0 x1 x2 x3 x4) := fun _ _ _ _ _ => ⟨fun _ => List.cons_ne_nil _ _, fun _ => rfl⟩
theorem gathTowin : ∀ x0 x1 x2 x3 x4, Statement (.gathTowin x0 x1 x2 x3 x4) := fun _ _ _ _ _ => ⟨fun _ => List.cons_ne_nil _ _, fun _ => rfl⟩
theorem scat : ∀ x0 x1 x2 x3 x4, Statement (.scat x0 x1 x2 x3 x4) := fun _ _ _ _ _ => ⟨fun _ => List.cons_ne_nil _ _, fun _ => rfl⟩
theorem fill : ∀ h f, Statement (.fill h f) := fun _ f => by cases f <;> exact ⟨fun _ => List.cons_ne_nil _ _, fun _ => rfl⟩
theorem pref : ∀ x0 x1 x2 x3 x4, Statement (.pref x0 x1 x2 x3 x4) := fun _ _ _ _ _ => ⟨fun _ => List.cons_ne_nil _ _, fun _ => rfl⟩
theorem accAddS32 : ∀ x0 x1, Statement (.accAddS32 x0 x1) := fun _ _ => ⟨fun _ => List.cons_ne_nil _ _, fun _ => rfl⟩
theorem accAddF32 : ∀ x0 x1, Statement (.accAddF32 x0 x1) := fun _ _ => ⟨fun _ => List.cons_ne_nil _ _, fun _ => rfl⟩
theorem accAddBf16 : ∀ x0 x1, Statement (.accAddBf16 x0 x1) := fun _ _ => ⟨fun _ => List.cons_ne_nil _ _, fun _ => rfl⟩
theorem accMinS32 : ∀ x0 x1, Statement (.accMinS32 x0 x1) := fun _ _ => ⟨fun _ => List.cons_ne_nil _ _, fun _ => rfl⟩
theorem accMaxS32 : ∀ x0 x1, Statement (.accMaxS32 x0 x1) := fun _ _ => ⟨fun _ => List.cons_ne_nil _ _, fun _ => rfl⟩
theorem accMinZ32 : ∀ x0 x1, Statement (.accMinZ32 x0 x1) := fun _ _ => ⟨fun _ => List.cons_ne_nil _ _, fun _ => rfl⟩
theorem accMaxZ32 : ∀ x0 x1, Statement (.accMaxZ32 x0 x1) := fun _ _ => ⟨fun _ => List.cons_ne_nil _ _, fun _ => rfl⟩
theorem accAnd : ∀ x0 x1, Statement (.accAnd x0 x1) := fun _ _ => ⟨fun _ => List.cons_ne_nil _ _, fun _ => rfl⟩
theorem accOr : ∀ x0 x1, Statement (.accOr x0 x1) := fun _ _ => ⟨fun _ => List.cons_ne_nil _ _, fun _ => rfl⟩
theorem accXor : ∀ x0 x1, Statement (.accXor x0 x1) := fun _ _ => ⟨fun _ => List.cons_ne_nil _ _, fun _ => rfl⟩
theorem accSwap : ∀ x0 x1, Statement (.accSwap x0 x1) := fun _ _ => ⟨fun _ => List.cons_ne_nil _ _, fun _ => rfl⟩
theorem accfAddS32 : ∀ x0 x1, Statement (.accfAddS32 x0 x1) := fun _ _ => ⟨fun _ => List.cons_ne_nil _ _, fun _ => rfl⟩
theorem accfAddF32 : ∀ x0 x1, Statement (.accfAddF32 x0 x1) := fun _ _ => ⟨fun _ => List.cons_ne_nil _ _, fun _ => rfl⟩
theorem accfAddBf16 : ∀ x0 x1, Statement (.accfAddBf16 x0 x1) := fun _ _ => ⟨fun _ => List.cons_ne_nil _ _, fun _ => rfl⟩
theorem accfMinS32 : ∀ x0 x1, Statement (.accfMinS32 x0 x1) := fun _ _ => ⟨fun _ => List.cons_ne_nil _ _, fun _ => rfl⟩
theorem accfMaxS32 : ∀ x0 x1, Statement (.accfMaxS32 x0 x1) := fun _ _ => ⟨fun _ => List.cons_ne_nil _ _, fun _ => rfl⟩
theorem accfMinZ32 : ∀ x0 x1, Statement (.accfMinZ32 x0 x1) := fun _ _ => ⟨fun _ => List.cons_ne_nil _ _, fun _ => rfl⟩
theorem accfMaxZ32 : ∀ x0 x1, Statement (.accfMaxZ32 x0 x1) := fun _ _ => ⟨fun _ => List.cons_ne_nil _ _, fun _ => rfl⟩
theorem accfAnd : ∀ x0 x1, Statement (.accfAnd x0 x1) := fun _ _ => ⟨fun _ => List.cons_ne_nil _ _, fun _ => rfl⟩
theorem accfOr : ∀ x0 x1, Statement (.accfOr x0 x1) := fun _ _ => ⟨fun _ => List.cons_ne_nil _ _, fun _ => rfl⟩
theorem accfXor : ∀ x0 x1, Statement (.accfXor x0 x1) := fun _ _ => ⟨fun _ => List.cons_ne_nil _ _, fun _ => rfl⟩
theorem accfSwap : ∀ x0 x1, Statement (.accfSwap x0 x1) := fun _ _ => ⟨fun _ => List.cons_ne_nil _ _, fun _ => rfl⟩
theorem cas : ∀ x0 x1 x2 x3 x4, Statement (.cas x0 x1 x2 x3 x4) := fun _ _ _ _ _ => ⟨fun _ => List.cons_ne_nil _ _, fun _ => rfl⟩
theorem bclose : ∀ x0, Statement (.bclose x0) := fun _ => ⟨fun _ => List.cons_ne_nil _ _, fun _ => rfl⟩
theorem waitb : ∀ x0 x1, Statement (.waitb x0 x1) := fun _ _ => ⟨fun _ => List.cons_ne_nil _ _, fun _ => rfl⟩
theorem slopen : ∀ x0 x1, Statement (.slopen x0 x1) := fun _ _ => ⟨fun _ => List.cons_ne_nil _ _, fun _ => rfl⟩
theorem slfork : ∀ x0 x1, Statement (.slfork x0 x1) := fun _ _ => ⟨fun _ => List.cons_ne_nil _ _, fun _ => rfl⟩
theorem slmove : ∀ x0 x1, Statement (.slmove x0 x1) := fun _ _ => ⟨fun _ => List.cons_ne_nil _ _, fun _ => rfl⟩
theorem slmoveSwap : ∀ x0 x1, Statement (.slmoveSwap x0 x1) := fun _ _ => ⟨fun _ => List.cons_ne_nil _ _, fun _ => rfl⟩
theorem slclose : ∀ x0 x1, Statement (.slclose x0 x1) := fun _ _ => ⟨fun _ => List.cons_ne_nil _ _, fun _ => rfl⟩
theorem slinfo : ∀ x0 x1, Statement (.slinfo x0 x1) := fun _ _ => ⟨fun _ => List.cons_ne_nil _ _, fun _ => rfl⟩
theorem rxlook : ∀ x0 x1 x2 x3 x4, Statement (.rxlook x0 x1 x2 x3 x4) := fun _ _ _ _ _ => ⟨fun _ => List.cons_ne_nil _ _, fun _ => rfl⟩
theorem kapp : ∀ x0 x1, Statement (.kapp x0 x1) := fun _ _ => ⟨fun _ => List.cons_ne_nil _ _, fun _ => rfl⟩
theorem cpact : ∀ x0 x1, Statement (.cpact x0 x1) := fun _ _ => ⟨fun _ => List.cons_ne_nil _ _, fun _ => rfl⟩
theorem repl : ∀ x0 x1, Statement (.repl x0 x1) := fun _ _ => ⟨fun _ => List.cons_ne_nil _ _, fun _ => rfl⟩
theorem lease : ∀ x0 x1, Statement (.lease x0 x1) := fun _ _ => ⟨fun _ => List.cons_ne_nil _ _, fun _ => rfl⟩
theorem renew : ∀ x0 x1, Statement (.renew x0 x1) := fun _ _ => ⟨fun _ => List.cons_ne_nil _ _, fun _ => rfl⟩
theorem free : ∀ x0 x1, Statement (.free x0 x1) := fun _ _ => ⟨fun _ => List.cons_ne_nil _ _, fun _ => rfl⟩
theorem evclass : ∀ x0 x1, Statement (.evclass x0 x1) := fun _ _ => ⟨fun _ => List.cons_ne_nil _ _, fun _ => rfl⟩
theorem promo : ∀ x0 x1, Statement (.promo x0 x1) := fun _ _ => ⟨fun _ => List.cons_ne_nil _ _, fun _ => rfl⟩
theorem nodeinfo : ∀ x0 x1, Statement (.nodeinfo x0 x1) := fun _ _ => ⟨fun _ => List.cons_ne_nil _ _, fun _ => rfl⟩
theorem bsel : ∀ x0 x1, Statement (.bsel x0 x1) := fun _ _ => ⟨fun _ => List.cons_ne_nil _ _, fun _ => rfl⟩
theorem pgath : ∀ x0 x1 x2, Statement (.pgath x0 x1 x2) := fun _ _ _ => ⟨fun _ => List.cons_ne_nil _ _, fun _ => rfl⟩
theorem tkfeed : ∀ x0 x1, Statement (.tkfeed x0 x1) := fun _ _ => ⟨fun _ => List.cons_ne_nil _ _, fun _ => rfl⟩
theorem tkdrain : ∀ x0 x1, Statement (.tkdrain x0 x1) := fun _ _ => ⟨fun _ => List.cons_ne_nil _ _, fun _ => rfl⟩
theorem tkdetok : ∀ x0 x1, Statement (.tkdetok x0 x1) := fun _ _ => ⟨fun _ => List.cons_ne_nil _ _, fun _ => rfl⟩
theorem gload : ∀ x0 x1 x2, Statement (.gload x0 x1 x2) := fun _ _ _ => ⟨fun _ => List.cons_ne_nil _ _, fun _ => rfl⟩
theorem gmask : ∀ x0 x1, Statement (.gmask x0 x1) := fun _ _ => ⟨fun _ => List.cons_ne_nil _ _, fun _ => rfl⟩
theorem gstepStep : ∀ x0 x1, Statement (.gstepStep x0 x1) := fun _ _ => ⟨fun _ => List.cons_ne_nil _ _, fun _ => rfl⟩
theorem gstepStart : ∀ x0 x1 x2, Statement (.gstepStart x0 x1 x2) := fun _ _ _ => ⟨fun _ => List.cons_ne_nil _ _, fun _ => rfl⟩
theorem gstepOff : ∀ x0 x1, Statement (.gstepOff x0 x1) := fun _ _ => ⟨fun _ => List.cons_ne_nil _ _, fun _ => rfl⟩
theorem close : Statement (.close) := ⟨fun _ => List.cons_ne_nil _ _, fun _ => rfl⟩
theorem tdone : Statement (.tdone) := ⟨fun _ => List.cons_ne_nil _ _, fun _ => rfl⟩
theorem nop : Statement (.nop) := ⟨fun _ => List.cons_ne_nil _ _, fun _ => rfl⟩
theorem stalledWordResume : Statement (.stalledWordResume) := ⟨nofun, fun h => absurd rfl h⟩
theorem lockGrant : Statement (.lockGrant) := ⟨nofun, fun h => absurd rfl h⟩
theorem barrierPhaseSeen : Statement (.barrierPhaseSeen) := ⟨nofun, fun h => absurd rfl h⟩
theorem cStorePerformed : Statement (.cStorePerformed) := ⟨nofun, fun h => absurd rfl h⟩
theorem moveArrival : Statement (.moveArrival) := ⟨nofun, fun h => absurd rfl h⟩
theorem unitResult : Statement (.unitResult) := ⟨nofun, fun h => absurd rfl h⟩
theorem followOnStep : Statement (.followOnStep) := ⟨nofun, fun h => absurd rfl h⟩
theorem commandStart : Statement (.commandStart) := ⟨nofun, fun h => absurd rfl h⟩
theorem commandCompletion : Statement (.commandCompletion) := ⟨nofun, fun h => absurd rfl h⟩
theorem regionCommit : Statement (.regionCommit) := ⟨nofun, fun h => absurd rfl h⟩
theorem alignmentBarrier : Statement (.alignmentBarrier) := ⟨nofun, fun h => absurd rfl h⟩
theorem echoArrival : Statement (.echoArrival) := ⟨nofun, fun h => absurd rfl h⟩
theorem parapetDecision : Statement (.parapetDecision) := ⟨nofun, fun h => absurd rfl h⟩
theorem deadlineFault : Statement (.deadlineFault) := ⟨nofun, fun h => absurd rfl h⟩
theorem sideLogRetry : Statement (.sideLogRetry) := ⟨nofun, fun h => absurd rfl h⟩
theorem taskPlacement : Statement (.taskPlacement) := ⟨nofun, fun h => absurd rfl h⟩
theorem preemptionDiscard : Statement (.preemptionDiscard) := ⟨nofun, fun h => absurd rfl h⟩
theorem placementReservation : Statement (.placementReservation) := ⟨nofun, fun h => absurd rfl h⟩
theorem launchPortWrite : Statement (.launchPortWrite) := ⟨nofun, fun h => absurd rfl h⟩
theorem task : Statement (.task) := ⟨nofun, fun h => absurd rfl h⟩
theorem graph : Statement (.graph) := ⟨nofun, fun h => absurd rfl h⟩
theorem patch : Statement (.patch) := ⟨nofun, fun h => absurd rfl h⟩
theorem fenceRecord : Statement (.fenceRecord) := ⟨nofun, fun h => absurd rfl h⟩
theorem timed : Statement (.timed) := ⟨nofun, fun h => absurd rfl h⟩
theorem signal : Statement (.signal) := ⟨nofun, fun h => absurd rfl h⟩
theorem resume : Statement (.resume) := ⟨nofun, fun h => absurd rfl h⟩
theorem resumeChannel : Statement (.resumeChannel) := ⟨nofun, fun h => absurd rfl h⟩
theorem terminate : Statement (.terminate) := ⟨nofun, fun h => absurd rfl h⟩
theorem power : Statement (.power) := ⟨nofun, fun h => absurd rfl h⟩
theorem spanPowerChange : Statement (.spanPowerChange) := ⟨nofun, fun h => absurd rfl h⟩
theorem timedSlotFire : Statement (.timedSlotFire) := ⟨nofun, fun h => absurd rfl h⟩
theorem qstatWrite : Statement (.qstatWrite) := ⟨nofun, fun h => absurd rfl h⟩
theorem registerWrite : Statement (.registerWrite) := ⟨nofun, fun h => absurd rfl h⟩
theorem hostMemoryWrite : Statement (.hostMemoryWrite) := ⟨nofun, fun h => absurd rfl h⟩
theorem leaseExpiry : Statement (.leaseExpiry) := ⟨nofun, fun h => absurd rfl h⟩
theorem leaseRebase : Statement (.leaseRebase) := ⟨nofun, fun h => absurd rfl h⟩
theorem deviceTimeStep : Statement (.deviceTimeStep) := ⟨nofun, fun h => absurd rfl h⟩
theorem register : Statement (.register) := ⟨nofun, fun h => absurd rfl h⟩
theorem unregister : Statement (.unregister) := ⟨nofun, fun h => absurd rfl h⟩
theorem lookup : Statement (.lookup) := ⟨nofun, fun h => absurd rfl h⟩
theorem holders : Statement (.holders) := ⟨nofun, fun h => absurd rfl h⟩
theorem rlease : Statement (.rlease) := ⟨nofun, fun h => absurd rfl h⟩
theorem rlgrant : Statement (.rlgrant) := ⟨nofun, fun h => absurd rfl h⟩
theorem rldeny : Statement (.rldeny) := ⟨nofun, fun h => absurd rfl h⟩
theorem rlrenew : Statement (.rlrenew) := ⟨nofun, fun h => absurd rfl h⟩
theorem rlfree : Statement (.rlfree) := ⟨nofun, fun h => absurd rfl h⟩
theorem read : Statement (.read) := ⟨nofun, fun h => absurd rfl h⟩
theorem data : Statement (.data) := ⟨nofun, fun h => absurd rfl h⟩
theorem remoteLeaseRenew : Statement (.remoteLeaseRenew) := ⟨nofun, fun h => absurd rfl h⟩
theorem directoryTimeout : Statement (.directoryTimeout) := ⟨nofun, fun h => absurd rfl h⟩
theorem linkReplay : Statement (.linkReplay) := ⟨nofun, fun h => absurd rfl h⟩
theorem timeMessage : Statement (.timeMessage) := ⟨nofun, fun h => absurd rfl h⟩
theorem syncLoss : Statement (.syncLoss) := ⟨nofun, fun h => absurd rfl h⟩
theorem boot : Statement (.boot) := ⟨nofun, fun h => absurd rfl h⟩
theorem measurementExtend : Statement (.measurementExtend) := ⟨nofun, fun h => absurd rfl h⟩
theorem configRecordReplace : Statement (.configRecordReplace) := ⟨nofun, fun h => absurd rfl h⟩
theorem getVersion : Statement (.getVersion) := ⟨nofun, fun h => absurd rfl h⟩
theorem getCapabilities : Statement (.getCapabilities) := ⟨nofun, fun h => absurd rfl h⟩
theorem negotiateAlgorithms : Statement (.negotiateAlgorithms) := ⟨nofun, fun h => absurd rfl h⟩
theorem getDigests : Statement (.getDigests) := ⟨nofun, fun h => absurd rfl h⟩
theorem getCertificate : Statement (.getCertificate) := ⟨nofun, fun h => absurd rfl h⟩
theorem challenge : Statement (.challenge) := ⟨nofun, fun h => absurd rfl h⟩
theorem getMeasurements : Statement (.getMeasurements) := ⟨nofun, fun h => absurd rfl h⟩
theorem coreRetirement : Statement (.coreRetirement) := ⟨nofun, fun h => absurd rfl h⟩
theorem thermalClampEngage : Statement (.thermalClampEngage) := ⟨nofun, fun h => absurd rfl h⟩
theorem thermalClampRelease : Statement (.thermalClampRelease) := ⟨nofun, fun h => absurd rfl h⟩
theorem hbmRetraining : Statement (.hbmRetraining) := ⟨nofun, fun h => absurd rfl h⟩
theorem hbmInterfaceError : Statement (.hbmInterfaceError) := ⟨nofun, fun h => absurd rfl h⟩
theorem bankTest : Statement (.bankTest) := ⟨nofun, fun h => absurd rfl h⟩
theorem patrolScrub : Statement (.patrolScrub) := ⟨nofun, fun h => absurd rfl h⟩
theorem hbmStatusWrite : Statement (.hbmStatusWrite) := ⟨nofun, fun h => absurd rfl h⟩
theorem portStatusWrite : Statement (.portStatusWrite) := ⟨nofun, fun h => absurd rfl h⟩
theorem arrayWrite : Statement (.arrayWrite) := ⟨nofun, fun h => absurd rfl h⟩
theorem fjostanPortStateChange : Statement (.fjostanPortStateChange) := ⟨nofun, fun h => absurd rfl h⟩
theorem farMemoryPortStateChange : Statement (.farMemoryPortStateChange) := ⟨nofun, fun h => absurd rfl h⟩
theorem remoteLeaseHolderExpiry : Statement (.remoteLeaseHolderExpiry) := ⟨nofun, fun h => absurd rfl h⟩

end Sys2Proof.Laws.Issuing

theorem Sys2Proof.Laws.Issuing.seal : ∀ x0 x1 x2, Sys2Proof.Laws.Issuing.Statement (.seal x0 x1 x2) := fun _ _ _ => ⟨fun _ => List.cons_ne_nil _ _, fun _ => rfl⟩
end

