-- ==== Sys2Proof/Laws/Rows.lean ====
section
/-! SUPPORT. What a row built element by element holds: the one lemma about buildRow, for every station operation. -/

namespace Sys2Proof.Machine

/-- Packed codes stay below the width of the codes together. -/
theorem packCodes_lt (w : Nat) (l : List Nat) : packCodes w l < 2 ^ (w * l.length) := by
  induction l with
  | nil => simp [packCodes]
  | cons a r ih =>
    simp only [packCodes, List.length_cons, Nat.mul_add, Nat.mul_one]
    have h1 : a % 2 ^ w < 2 ^ w := Nat.mod_lt _ (by positivity)
    calc a % 2 ^ w + 2 ^ w * packCodes w r < 2 ^ w * (packCodes w r + 1) := by rw [Nat.mul_add, Nat.mul_one]; omega
      _ ≤ 2 ^ w * 2 ^ (w * r.length) := Nat.mul_le_mul_left _ ih
      _ = 2 ^ (w * r.length + w) := by rw [Nat.pow_add, Nat.mul_comm]

/-- Code j of packed codes. -/
theorem packCodes_at (w : Nat) (l : List Nat) (j : Nat) (h : j < l.length) :
    packCodes w l / 2 ^ (w * j) % 2 ^ w = l[j] % 2 ^ w := by
  induction l generalizing j with
  | nil => simp at h
  | cons a r ih =>
    have hw : 0 < 2 ^ w := by positivity
    cases j with
    | zero => simp [packCodes, Nat.add_mul_mod_self_left]
    | succ j =>
      simp only [packCodes, Nat.mul_add, Nat.mul_one, List.getElem_cons_succ]
      rw [Nat.add_comm (w * j) w, Nat.pow_add, ← Nat.div_div_eq_div_mul, Nat.add_mul_div_left _ _ hw,
        Nat.div_eq_of_lt (Nat.mod_lt _ hw), Nat.zero_add]
      exact ih j (by simpa using h)

/-- A flag of two sets of flags. -/
theorem flags_or (x y b : KFlags) : (x ||| y) &&& b ≠ 0 ↔ x &&& b ≠ 0 ∨ y &&& b ≠ 0 := by
  rw [← not_iff_not, not_or, not_not, not_not, not_not]
  simp only [BitVec.eq_of_getLsbD_eq_iff, BitVec.getLsbD_and, BitVec.getLsbD_or]
  simp only [BitVec.ofNat_eq_ofNat, BitVec.getLsbD_zero, Bool.and_eq_false_iff, Bool.or_eq_false_iff]
  constructor
  · exact fun h => ⟨fun i hi => (h i hi).imp And.left id, fun i hi => (h i hi).imp And.right id⟩
  · rintro ⟨h1, h2⟩ i hi
    rcases h1 i hi with h | h
    · exact (h2 i hi).imp (fun h' => ⟨h, h'⟩) id
    · exact .inr h

/-- No flag is set where none is raised. -/
theorem flags_none (b : KFlags) (p : Prop) : (0 &&& b : KFlags) ≠ 0 ∨ p ↔ p := by simp

/-- Flags gathered over a list. -/
theorem foldl_flags {α : Type} (g : α → KFlags) (b : KFlags) (l : List α) (z : KFlags) :
    l.foldl (fun a e => a ||| g e) z &&& b ≠ 0 ↔ z &&& b ≠ 0 ∨ ∃ e ∈ l, g e &&& b ≠ 0 := by
  induction l generalizing z with
  | nil => simp
  | cons e r ih =>
    rw [List.foldl_cons, ih, flags_or, or_assoc]
    simp only [List.mem_cons, exists_eq_or_imp]

/-- Container c of a row given container by container. -/
theorem rowC_map (f : Nat → Container) {c : Nat} (h : c < 128) : rowC ((List.range 128).map f) c = f c := by
  simp [rowC, List.getD_eq_getElem?_getD, h]

/-- A row built under tags gives what the tags and elements say. -/
theorem buildRow_given {w : Nat} (hw : (w ∣ 32 ∧ 0 < w) ∨ 32 < w) (tag : Nat → Bool × Bool) (f : Nat → Nat × KFlags) :
    (tagged w tag f).by (buildRow w tag f) := by
  refine ⟨by simp [buildRow], rfl, fun b => ?_, fun c hc => ?_⟩
  · simp only [buildRow, tagged, foldl_flags, List.mem_map, List.mem_range]
    rw [flags_none]
    constructor
    · rintro ⟨e, ⟨c, hc, rfl⟩, h⟩
      refine ⟨c, hc, ?_⟩
      by_cases ht : (tag c).1
      · rw [if_pos ht] at h
        obtain ⟨e, he, h⟩ := (flags_none _ _).1 ((foldl_flags _ _ _ _).1 h)
        simp only [List.mem_map, List.mem_range] at he
        obtain ⟨j, hj, rfl⟩ := he
        exact ⟨ht, j, hj, h⟩
      · simp [ht] at h
    · rintro ⟨c, hc, ht, j, hj, h⟩
      refine ⟨_, ⟨c, hc, rfl⟩, ?_⟩
      rw [if_pos ht]
      exact (foldl_flags _ _ _ _).2 (.inr ⟨_, List.mem_map.2 ⟨j, List.mem_range.2 hj, rfl⟩, h⟩)
  · have hr : rowC (buildRow w tag f).row c =
        if (tag c).1 then taggedC (tag c) (packCodes w ((List.range (32 / w)).map fun j => (f (c * (32 / w) + j)).1))
        else Container.none := by
      simp only [buildRow, List.map_map]
      rw [rowC_map _ hc]
      simp only [Function.comp]
      split <;> simp [Function.comp_def]
    refine ⟨fun h => ?_, fun h => ?_⟩
    · have h : (tag c).1 = false := h
      rw [hr, if_neg (by simp [h])]; rfl
    · have h : (tag c).1 = true := h
      rw [hr, if_pos h]
      simp only [taggedC, h, if_true]
      refine ⟨trivial, rfl, fun j hj => ?_⟩
      have hj' : j < 32 / w := hj
      obtain ⟨⟨k, hk⟩, h0⟩ | hbig := hw
      · have hk' : 32 / w = k := by rw [hk]; exact Nat.mul_div_cancel_left _ h0
        have hidx : (c * (32 / w) + j) * w = w * j + 32 * c := by rw [hk', hk]; ring
        have hlt : w * j < 32 := by rw [hk' ] at hj'; rw [hk]; exact Nat.mul_lt_mul_of_pos_left hj' h0
        have h1 : (c * (32 / w) + j) * w / 32 = c := by rw [hidx]; omega
        have h2 : (c * (32 / w) + j) * w % 32 = w * j := by rw [hidx]; omega
        show elemOf w _ _ = (f _).1 % 2 ^ w
        simp only [elemOf, tagged]
        rw [h1, h2, hr, if_pos h, taggedC, if_pos h, BitVec.toNat_ofNat]
        have hb := packCodes_lt w ((List.range (32 / w)).map fun j => (f (c * (32 / w) + j)).1)
        simp only [List.length_map, List.length_range] at hb
        rw [hk', ← hk] at hb
        rw [hk'] at hj' ⊢
        rw [Nat.mod_eq_of_lt hb, packCodes_at _ _ _ (by simpa using hj')]
        simp
      · rw [Nat.div_eq_of_lt hbig] at hj'
        omega

/-- What is given depends on the tags of the 128 containers and, of the elements of valid containers, on their codes modulo 2^w and flags. -/
theorem tagged_congr {w : Nat} {tag tag' : Nat → Bool × Bool} {f f' : Nat → Nat × KFlags} {out : OpOut}
    (ht : ∀ c < 128, tag c = tag' c)
    (hf : ∀ c < 128, (tag c).1 = true → ∀ j < 32 / w, (f (c * (32 / w) + j)).1 % 2 ^ w = (f' (c * (32 / w) + j)).1 % 2 ^ w ∧
      (f (c * (32 / w) + j)).2 = (f' (c * (32 / w) + j)).2)
    (h : (tagged w tag f).by out) : (tagged w tag' f').by out := by
  obtain ⟨h1, h2, h3, h4⟩ := h
  refine ⟨h1, h2, fun b => (h3 b).trans ?_, fun c hc => ?_⟩
  · constructor
    · rintro ⟨c, hc, hv, j, hj, h⟩
      exact ⟨c, hc, ht c hc ▸ hv, j, hj, (hf c hc hv j hj).2 ▸ h⟩
    · rintro ⟨c, hc, hv, j, hj, h⟩
      have hv : (tag c).1 = true := by rw [ht c hc]; exact hv
      exact ⟨c, hc, hv, j, hj, (hf c hc hv j hj).2.symm ▸ h⟩
  · obtain ⟨h5, h6⟩ := h4 c hc
    simp only [tagged] at h5 h6 ⊢
    rw [← ht c hc]
    refine ⟨h5, fun hv => ?_⟩
    obtain ⟨h7, h8, h9⟩ := h6 hv
    exact ⟨h7, h8, fun j hj => (h9 j hj).trans (hf c hc hv j hj).1⟩

/-- Nothing valid is a row of invalid containers. -/
theorem nothing_by : nothing.by invalidOut := by
  refine ⟨by simp [invalidOut, Row.invalid], rfl, fun b => ?_, fun c hc => ⟨fun _ => ?_, fun h => ?_⟩⟩
  · simp [nothing, tagged, invalidOut]
  · show rowC (List.replicate 128 Container.none) c = Container.none
    rw [rowC, List.getD_eq_getElem?_getD, List.getElem?_replicate_of_lt hc, Option.getD_some]
  · simp [nothing, tagged] at h

/-- A code repeated over a container. -/
theorem packCodes_replicate {w : Nat} (hw : w = 8 ∨ w = 16 ∨ w = 32) (v : Nat) :
    packCodes w (List.replicate (32 / w) v) = v % 2 ^ w * ((2 ^ 32 - 1) / (2 ^ w - 1)) := by
  obtain rfl | rfl | rfl := hw <;> simp [List.replicate, packCodes] <;> omega

/-- Pairs of a value and an index give what their list says. -/
theorem pairRow_given {w : Nat} (hw : w = 8 ∨ w = 16 ∨ w = 32) (poison : Bool) (pairs : List (Option (Nat × Nat))) (hl : pairs.length = 64) :
    (pairsGiven w poison fun k => pairs.getD k none).by (pairRow w poison pairs) := by
  have key : ∀ (l : List (Option (Nat × Nat))) (c : Nat), c < 2 * l.length → rowC (pairRow w poison l).row c =
      match l.getD (c / 2) none with
      | some (v, i) => taggedC (true, poison) (if c % 2 = 0 then v % 2 ^ w * ((2 ^ 32 - 1) / (2 ^ w - 1)) else i)
      | none => ⟨if c % 2 = 0 then 0#32 else 0xFFFFFFFF#32, false, false⟩ := by
    intro l
    induction l with
    | nil => intro c h; simp at h
    | cons p r ih =>
      intro c h
      match c with
      | 0 => cases p <;> simp [pairRow, rowC, packCodes_replicate hw, Container.none]
      | 1 => cases p <;> simp [pairRow, rowC]
      | c + 2 =>
        have h1 : rowC (pairRow w poison (p :: r)).row (c + 2) = rowC (pairRow w poison r).row c := by
          cases p <;> simp [pairRow, rowC, List.getD_eq_getElem?_getD]
        have h2 : (c + 2) / 2 = c / 2 + 1 := by omega
        have h3 : (c + 2) % 2 = c % 2 := by omega
        rw [h1, h2, h3, ih c (by simp at h; omega)]
        simp
  have hlen : ∀ l : List (Option (Nat × Nat)), (pairRow w poison l).row.length = 2 * l.length := by
    intro l
    induction l with
    | nil => rfl
    | cons p r ih =>
      simp only [pairRow] at ih ⊢
      cases p <;> simp [ih] <;> omega
  refine ⟨by rw [hlen, hl], rfl, fun b => by simp [pairRow, pairsGiven], fun c hc => ?_⟩
  rw [key pairs c (by omega)]
  simp only [pairsGiven]
  cases h : pairs.getD (c / 2) none with
  | none => simp
  | some p =>
    refine ⟨fun h => by simp at h, fun _ => ⟨rfl, rfl, fun j hj => ?_⟩⟩
    have hj0 : j = 0 := by simpa using hj
    subst hj0
    have h1 : (c * (32 / 32) + 0) * 32 / 32 = c := by omega
    have h2 : (c * (32 / 32) + 0) * 32 % 32 = 0 := by omega
    simp only [elemOf]
    rw [h1, h2, key pairs c (by omega), h]
    have h' : pairs[c / 2]?.getD none = some p := by simpa using h
    simp [taggedC, h']

end Sys2Proof.Machine
end

