-- ==== Sys2Proof/Tests/Slice0.lean ====
section
/-! SUPPORT. The author's tests: ill-formed terms, words written out from the encodings of spec/, single steps whose results the rules
give, and for each statement with hypotheses a state and operands that meet them (witness_<statement>_<clause>). -/

namespace Sys2Proof.Machine.Tests

open Sys2Proof Sys2Proof.Machine

-- One theorem is checked after the other: each waiting check would hold a thread of its own.
set_option Elab.async false

/-! ## A small machine: one running task of one member, with code at 0x1000, a writable page at 0x2000 and a read-only page at 0x3000 -/

def mem0 : Member := Member.place 0 0 0 (Ckpt.first 0 0 (Vector.replicate 64 0) [0x1000, 0x1000, 0x1000, 0x1000])

/-- The page tables: 0x2000 at 0x107000 with R and W, 0x3000 at 0x108000 with R. -/
def tables : State :=
  { (((State.reset.withFetchTables.wrMem 0x104010 (leBytes 8 0x107061)).wrMem 0x104018 (leBytes 8 0x108021)).wrMem 0x107000
    (leBytes 16 0xFFEEDDCCBBAA99887766554433221180)) with past := [] }

def taskOf (m : Member) : Machine.Task := { fetchTask State.reset with members := [m] }

/-- The member at a C word. -/
def at_ (m : Member) : State := { tables with tasks := [taskOf m], cycle := 100, cur := ⟨0, 0, .c, .issue, 0, 0x1000, 0⟩ }

/-- The member at a word of a timed stream. -/
def atx (x : Stream) (m : Member) : State := { at_ m with cur := ⟨0, 0, x, .issue, 0, 0x1000, 0⟩ }

/-- The task in strict mode. -/
def strict (m : Member) : Machine.Task := { taskOf m with hdr := 80#1024 <<< 336 }

/-- A register set. -/
def reg (r : BitVec 5) (v : W64) (p : Bool) (m : Member) : Member := m.wr r ⟨v, p⟩

theorem cur_at (m : Member) : Current (at_ m) (taskOf m) m := ⟨rfl, rfl⟩
theorem cur_atx (x : Stream) (m : Member) : Current (atx x m) (taskOf m) m := ⟨rfl, rfl⟩

/-- The leaf of the page at 0x2000, and of the page at 0x3000. -/
def dataLeaf : Leaf := (tables.walk fetchRoot 0x2000).getD ⟨0, 0, false, false, false, false, false, false, 0⟩
def constLeaf : Leaf := (tables.walk fetchRoot 0x3000).getD ⟨0, 0, false, false, false, false, false, false, 0⟩

/-! ## Ill-formed terms (R223, R110, R107) -/

theorem test_waitb_with_object : Instr.wf (.waitb ⟨0, 0, 0, 0, 1⟩ 0) = false := by decide
theorem test_chain_of_none : Instr.wf (.vchain ⟨0, 0, 0, 0, 0, []⟩) = false := by decide
theorem test_chain_of_nine : Instr.wf (.vchain ⟨0, 0, 0, 0, 0, List.replicate 9 ⟨0, 0⟩⟩) = false := by decide
theorem test_station_type : Instr.wf (.vadd ⟨2, 0, 0⟩) = false := by decide
theorem test_well_formed : Instr.wf (.add 1 2 3) = true := by decide

/-! ## Words of spec/ decode to their instructions: the worked programs of files 21 to 25, and the table of R92 -/

theorem test_decode_loopi : decodeC 0x00300129#32 = .ok (.loopi 0 2 3) := by decide
theorem test_decode_addi : decodeC 0x00642102#32 = .ok (.addi 4 4 100) := by decide
theorem test_decode_fence : decodeC 0x000080B8#32 = .ok (.fence 2 4) := by decide
theorem test_decode_tsig : decodeC 0x00000070#32 = .ok (.tsig 1 0 0) := by decide
theorem test_decode_srrd : decodeC 0x0003013B#32 = .ok (.srrd 4 3) := by decide
theorem test_decode_bowait : decodeC 0x04010036#32 = .ok (.bowait 1) := by decide
theorem test_decode_leb_reserved : decodeC 0x00000000#32 = .error .reservedMajor := by decide

/-! ## Witnesses: scalar words, loads and stores -/

/-- g3 = 7, g4 = the aperture's base, both plain. -/
def mA : Member := reg 4 0x01FFFFFFFFF00000 false (reg 3 7 false mem0)
/-- g4 = an address of the data page. -/
def mD : Member := reg 4 0x2008 false (reg 3 7 false mem0)
/-- g4 = an address of the read-only page. -/
def mR : Member := reg 4 0x3000 false (reg 3 7 false mem0)
/-- g4 = an address no page maps. -/
def mU : Member := reg 4 0x9000 false (reg 3 7 false mem0)
/-- g4 poisoned. -/
def mP : Member := reg 4 0x2000 true (reg 3 7 false mem0)

theorem witness_ScalarWordsWriteTheirResults_1 : Current (at_ mD) (taskOf mD) mD ∧ (scalarResult mD (.add 5 3 4)).isSome = true :=
  ⟨cur_at _, by decide +kernel⟩
theorem witness_ScalarWordsWriteTheirResults_2 : Current (at_ mD) (taskOf mD) mD ∧ (divisionResult mD (.div_ 5 4 0)).isSome = true :=
  ⟨cur_at _, by decide +kernel⟩
theorem witness_ComparesWriteZeroOrOne : (Current (at_ mD) (taskOf mD) mD ∧ compareOf mD (.slti 5 3 8) = some (5, false, true)) ∧
    Current (at_ mP) (taskOf mP) mP ∧ ∃ h, compareOf mP (.seq 5 3 4) = some (5, true, h) :=
  ⟨⟨cur_at _, by decide +kernel⟩, cur_at _, false, by decide +kernel⟩

theorem witness_LoadsRead_1 : Current (at_ mA) (taskOf mA) mA ∧ loadForm (.ldd 5 4 8) = some ⟨5, 4, 8, 8, false⟩ ∧
    (mA.rd 4).poison = false ∧ (effAddr mA 4 8).toNat % 8 = 0 ∧ inAperture (effAddr mA 4 8).toNat = true ∧
    inAlloc (taskOf mA).spadN (apertureOf (effAddr mA 4 8)) = true :=
  ⟨cur_at _, rfl, by decide +kernel, by decide +kernel, by decide +kernel, by decide +kernel⟩
/-- A TLB that has no entry for an address holds no other leaf for it. -/
theorem noTlb {tlb : List TlbEntry} {ctx a : Nat} {p : Leaf → Prop} (h : tlbFind tlb ctx a = none) : ∀ o, tlbFind tlb ctx a = some o → p o :=
  fun o e => by rw [h] at e; cases e
/-- A load of plain memory whose line the L1 does not hold. -/
theorem loadedAs (s : State) (tk : Machine.Task) (m : Member) (a pa n : Nat) (l : Leaf) (h1 : mapped s tk m a l) (h2 : l.r = true) (h3 : l.pa a = pa)
    (h4 : s.racy s.cur.task tk m l pa = false) (h5 : s.rangeOk (pa / 128 * 128) 128 = true)
    (h6 : s.settled s.cur.task m (pa / 128 * 128) 128 = true) (h7 : pa % 128 + n ≤ 128) (h8 : m.line? pa = none) :
    LoadedAs s tk m a pa n (overlay m.deferredStores a (coreBytes s m a pa (s.load pa n))) :=
  ⟨⟨l, h1, h2, h3, h4⟩, fun _ => ⟨h5, h6⟩, h7, by simp [h8]⟩
theorem witness_LoadsRead_2 : Current (at_ mD) (taskOf mD) mD ∧ loadForm (.ldh 5 4 6) = some ⟨5, 4, 6, 2, false⟩ ∧
    (mD.rd 4).poison = false ∧ (effAddr mD 4 6).toNat % 2 = 0 ∧ inAperture (effAddr mD 4 6).toNat = false ∧
    LoadedAs (at_ mD) (taskOf mD) mD (effAddr mD 4 6).toNat 0x10700E 2 (overlay mD.deferredStores (effAddr mD 4 6).toNat (coreBytes (at_ mD) mD (effAddr mD 4 6).toNat 0x10700E ((at_ mD).load 0x10700E 2))) :=
  ⟨cur_at _, rfl, by decide +kernel, by decide +kernel, by decide +kernel, loadedAs _ _ _ _ _ _ dataLeaf ⟨by decide +kernel, noTlb (by decide +kernel)⟩
    (by decide +kernel) (by decide +kernel) (by decide +kernel) (by decide +kernel) (by decide +kernel) (by decide +kernel) (by decide +kernel)⟩

/-- The first, second and third conditions under which a load faults: a poisoned base, a misaligned address, an address outside the
allocation through the aperture. -/
theorem witness_LoadAndStoreFaults_1 : (Current (at_ mP) (taskOf mP) mP ∧ loadForm (.ldw 5 4 0) = some ⟨5, 4, 0, 4, false⟩ ∧ (mP.rd 4).poison = true) ∧
    ((mD.rd 4).poison = false ∧ (effAddr mD 4 1).toNat % 4 ≠ 0) ∧
    let m := reg 4 0x01FFFFFFFFF60000 false mem0
    (m.rd 4).poison = false ∧ (effAddr m 4 0).toNat % 4 = 0 ∧ inAperture (effAddr m 4 0).toNat = true ∧
      inAlloc (taskOf m).spadN (apertureOf (effAddr m 4 0)) = false :=
  ⟨⟨cur_at _, rfl, by decide +kernel⟩, by decide +kernel, by decide +kernel⟩
/-- An address no page maps, and one whose page lacks R: a page of code, with X only, does not exist here, so the leaf is changed. -/
theorem witness_LoadAndStoreFaults_2 : Current (at_ mU) (taskOf mU) mU ∧ (mU.rd 4).poison = false ∧ (effAddr mU 4 0).toNat % 4 = 0 ∧
    inAperture (effAddr mU 4 0).toNat = false ∧ unmapped (at_ mU) (taskOf mU) mU (effAddr mU 4 0).toNat :=
  ⟨cur_at _, by decide +kernel, by decide +kernel, by decide +kernel, by decide +kernel, by decide +kernel⟩
/-- A state whose page at 0x3000 may only be executed. -/
def atX (m : Member) : State := (at_ m).wrMem 0x104018 (leBytes 8 0x108081)
theorem witness_LoadAndStoreFaults_3 : Current (atX mR) (taskOf mR) mR ∧ (mR.rd 4).poison = false ∧ (effAddr mR 4 0).toNat % 4 = 0 ∧
    inAperture (effAddr mR 4 0).toNat = false ∧ ∃ l, mapped (atX mR) (taskOf mR) mR (effAddr mR 4 0).toNat l ∧ l.r = false :=
  ⟨⟨rfl, rfl⟩, by decide +kernel, by decide +kernel, by decide +kernel,
    ((atX mR).walk fetchRoot 0x3000).getD dataLeaf, ⟨by decide +kernel, noTlb (by decide +kernel)⟩, by decide +kernel⟩
/-- Stores: poisoned base; poisoned datum; misaligned; more than 57 bits; a page without W. -/
theorem witness_LoadAndStoreFaults_4 : storeForm (.stw 3 4 0) = some ⟨3, 4, 0, 4⟩ ∧ (mP.rd 4).poison = true ∧
    (let m := reg 3 7 true mD
     (m.rd 4).poison = false ∧ (m.rd 3).poison = true ∧ inAperture (effAddr m 4 0).toNat = false) ∧
    ((mD.rd 4).poison = false ∧ (mD.rd 3).poison = false ∧ (effAddr mD 4 2).toNat % 4 ≠ 0) ∧
    let m := reg 4 0x0300000000000000 false mD
    (m.rd 4).poison = false ∧ (m.rd 3).poison = false ∧ (effAddr m 4 0).toNat % 4 = 0 ∧ inAperture (effAddr m 4 0).toNat = false ∧
      2 ^ 57 ≤ (effAddr m 4 0).toNat :=
  ⟨rfl, by decide +kernel, by decide +kernel, by decide +kernel, by decide +kernel⟩
theorem witness_LoadAndStoreFaults_5 : Current (at_ mR) (taskOf mR) mR ∧ storeForm (.std 3 4 8) = some ⟨3, 4, 8, 8⟩ ∧ (mR.rd 4).poison = false ∧
    (mR.rd 3).poison = false ∧ (effAddr mR 4 8).toNat % 8 = 0 ∧ inAperture (effAddr mR 4 8).toNat = false ∧
    (effAddr mR 4 8).toNat < 2 ^ 57 ∧ mapped (at_ mR) (taskOf mR) mR (effAddr mR 4 8).toNat constLeaf ∧ constLeaf.w = false :=
  ⟨cur_at _, rfl, by decide +kernel, by decide +kernel, by decide +kernel, by decide +kernel, by decide +kernel,
    ⟨by decide +kernel, noTlb (by decide +kernel)⟩, by decide +kernel⟩
/-- The data page's piece owned by another member. -/
def atOwned (m : Member) : State := { at_ m with own := [(0x107000 / 65536, .whole ⟨7, 0⟩ 0xFFFF)] }
theorem witness_LoadAndStoreFaults_6 : Current (atOwned mD) (taskOf mD) mD ∧ (effAddr mD 4 0).toNat < 2 ^ 57 ∧
    mapped (atOwned mD) (taskOf mD) mD (effAddr mD 4 0).toNat dataLeaf ∧ dataLeaf.w = true ∧ dataLeaf.owned (dataLeaf.pa (effAddr mD 4 0).toNat) = true ∧
    (atOwned mD).takeOwn ⟨0, mD.rank⟩ (dataLeaf.pa (effAddr mD 4 0).toNat) = none :=
  ⟨⟨rfl, rfl⟩, by decide +kernel, ⟨by decide +kernel, noTlb (by decide +kernel)⟩, by decide +kernel, by decide +kernel, by decide +kernel⟩
/-- A store without a translation, with room in the side log, and with none. -/
def atFull (m : Member) : State := { at_ m with slog := (List.range 64).map fun k => ⟨k, 0, 0, 0, 0, 128 * k, [], .write, none, 0, 0⟩ }
theorem witness_LoadAndStoreFaults_7 : (Current (at_ mU) (taskOf mU) mU ∧ (mU.rd 4).poison = false ∧ (mU.rd 3).poison = false ∧
      (effAddr mU 4 0).toNat % 4 = 0 ∧ inAperture (effAddr mU 4 0).toNat = false ∧ (effAddr mU 4 0).toNat < 2 ^ 57 ∧
      unmapped (at_ mU) (taskOf mU) mU (effAddr mU 4 0).toNat ∧ (taskOf mU).replicated = false ∧ (at_ mU).logRoom mU.core = true) ∧
    Current (atFull mU) (taskOf mU) mU ∧ unmapped (atFull mU) (taskOf mU) mU (effAddr mU 4 0).toNat ∧ (atFull mU).logRoom mU.core = false :=
  ⟨⟨cur_at _, by decide +kernel, by decide +kernel, by decide +kernel, by decide +kernel, by decide +kernel,
      ⟨by decide +kernel, by decide +kernel⟩, by decide +kernel, by decide +kernel⟩,
    ⟨rfl, rfl⟩, ⟨by decide +kernel, by decide +kernel⟩, by decide +kernel⟩

theorem witness_StoresWrite_1 : Current (at_ mA) (taskOf mA) mA ∧ storeForm (.stb 3 4 5) = some ⟨3, 4, 5, 1⟩ ∧ (mA.rd 4).poison = false ∧
    (effAddr mA 4 5).toNat % 1 = 0 ∧ inAperture (effAddr mA 4 5).toNat = true ∧
    inAlloc (taskOf mA).spadN (apertureOf (effAddr mA 4 5)) = true ∧ mA.frozen.contains (apertureOf (effAddr mA 4 5) / 512) = false :=
  ⟨cur_at _, rfl, by decide +kernel, by decide +kernel, by decide +kernel, by decide +kernel, by decide +kernel⟩
theorem witness_StoresWrite_2 : Current (at_ mD) (taskOf mD) mD ∧ (mD.rd 4).poison = false ∧ (mD.rd 3).poison = false ∧
    (effAddr mD 4 0).toNat % 8 = 0 ∧ inAperture (effAddr mD 4 0).toNat = false ∧ (effAddr mD 4 0).toNat < 2 ^ 57 ∧
    mapped (at_ mD) (taskOf mD) mD (effAddr mD 4 0).toNat dataLeaf ∧ dataLeaf.w = true ∧ (taskOf mD).replicated = false ∧
    ((if dataLeaf.owned (dataLeaf.pa (effAddr mD 4 0).toNat) then (at_ mD).takeOwn ⟨0, mD.rank⟩ (dataLeaf.pa (effAddr mD 4 0).toNat)
      else some (at_ mD)).isSome) = true :=
  ⟨cur_at _, by decide +kernel, by decide +kernel, by decide +kernel, by decide +kernel, by decide +kernel,
    ⟨by decide +kernel, noTlb (by decide +kernel)⟩, by decide +kernel, by decide +kernel, by decide +kernel⟩

/-! ## Witnesses: branches, loops, synchronization -/

theorem witness_BranchesAndJumps_1 : Current (at_ mD) (taskOf mD) mD ∧ branchOf mD (.blt 3 4 8) = some (false, 8, true) ∧
    branchOf mD (.beq 3 4 8) = some (false, 8, false) ∧ branchOf mP (.bne 3 4 8) = some (true, 8, true) ∧
    endsLoop (at_ mD) mD = false := ⟨cur_at _, by decide +kernel⟩
/-- A member whose outer loop ends at the current word, with two passes left. -/
def mL : Member := mD.setStr .c { mD.str .c with lc0 := ⟨2, 0x1000, 0x1000⟩ }
theorem witness_BranchesAndJumps_2 : Current (at_ mL) (taskOf mL) mL ∧ endsLoop (at_ mL) mL = true ∧
    branchOf mL (.blt 3 4 8) = some (false, 8, true) := ⟨cur_at _, by decide +kernel⟩
theorem witness_BranchesAndJumps_3 : Current (at_ mD) (taskOf mD) mD ∧ (mD.rd 4).poison = false ∧ endsLoop (at_ mD) mD = false ∧
    ((mD.rd 4).val + BitVec.ofInt 64 (-4)).toNat % 4 = 0 ∧ ((mD.rd 4).val + BitVec.ofInt 64 1).toNat % 4 ≠ 0 ∧
    (mP.rd 4).poison = true := ⟨cur_at _, by decide +kernel⟩

/-- The conditions of a counted loop: free; the count register at 2^32 - 1, at 2^32 and poisoned; counters in use. -/
def loopFree (m : Member) (j : BitVec 1) (e : Nat) : Prop :=
  endsLoop (at_ m) m = false ∧ (m.str .c).lc1.count = 0 ∧ (j = 0#1 → (m.str .c).lc0.count = 0) ∧
    (j = 1#1 → (m.str .c).lc0.count ≠ 0 → (0x1000#64 + BitVec.ofNat 64 (4 * e)).toNat ≤ (m.str .c).lc0.stop.toNat)
theorem witness_CountedLoops_1 : Current (at_ mD) (taskOf mD) mD ∧ loopFree mD 0 3 ∧
    (let m := reg 3 0xFFFFFFFF false mem0
     loopFree m 0 3 ∧ (m.rd 3).poison = false ∧ (m.rd 3).val.toNat < 2 ^ 32) ∧
    (let m := reg 3 0x100000000 false mem0
     (m.rd 3).poison = false ∧ 2 ^ 32 ≤ (m.rd 3).val.toNat) ∧ (mP.rd 4).poison = true :=
  ⟨cur_at _, by unfold loopFree; decide +kernel, by unfold loopFree; decide +kernel, by decide +kernel, by decide +kernel⟩
/-- The inner loop ends with the outer loop's last word, and one word after it. -/
theorem witness_CountedLoops_2 :
    let m := mD.setStr .c { mD.str .c with lc0 := ⟨2, 0x0FF0, 0x100C⟩ }
    loopFree m 1 3 ∧ ¬ loopFree m 1 4 ∧ ¬ loopFree m 0 2 := by unfold loopFree; decide +kernel
theorem witness_CountedLoops_3 :
    let x : StreamSt := ⟨0x1000, ⟨2, 0x0FF0, 0x1000⟩, ⟨1, 0x0FF8, 0x1000⟩, 0, false, .running, 0⟩
    (x.lc1.count ≠ 0 ∧ 0x1000#64 = x.lc1.stop) ∧ ¬ (1 < x.lc1.count.toNat) ∧ (x.lc0.count ≠ 0 ∧ 0x1000#64 = x.lc0.stop) ∧
      1 < x.lc0.count.toNat := by decide

theorem witness_DescriptorAndMailboxWords : Current (at_ mD) (taskOf mD) mD ∧ (mD.rd 3).poison = false ∧
    Current (at_ mP) (taskOf mP) mP ∧ (mP.rd 4).poison = true := ⟨cur_at _, by decide +kernel, cur_at _, by decide +kernel⟩

/-- Queue 3 (L to C) holds two tokens; queue 0 (C to L) holds 32. -/
def mT : Member := { mD with tq := (mD.tq.set 3 [true, false]).set 0 (List.replicate 32 false) }
theorem witness_TokenAndSemaphoreWords_1 : Current (at_ mT) (taskOf mT) mT ∧ (1#2 : BitVec 2) ≠ 0#2 ∧ mT.tokHas 3 2 = true ∧
    mT.tokHas 3 3 = false ∧ mT.tokHas 6 1 = false ∧ mT.tokRoom 0 1 = false ∧ mT.tokRoom 1 32 = true ∧ endsLoop (at_ mT) mT = false ∧
    (mT.tokEnd 3).head? = some true := ⟨cur_at _, by decide +kernel⟩
/-- Semaphore 5 at 3, semaphore 6 at 65,534. -/
def mS : Member := { mD with sem := (mD.sem.set 5 3).set 6 65534 }
theorem witness_TokenAndSemaphoreWords_2 : Current (at_ mS) (taskOf mS) mS ∧ mS.semReady 5 3 = true ∧ mS.semReady 5 4 = false ∧
    mS.pend = Pend.empty ∧ mS.sem[6] + 1 < 65536 ∧ 65536 ≤ mS.sem[6] + 2 ∧ mS.pend.semAdd = [] := ⟨cur_at _, by decide +kernel⟩

theorem witness_StalledWordsAreTriedAgain :
    let m : Member := { mT with stall := some (.twait 1 1) }
    Current (at_ m) (taskOf m) m ∧ m.stall = some (.twait 1 1) ∧ m.tokHas 3 2 = true := ⟨cur_at _, by decide +kernel⟩

/-- A lock at 0x2040 and a barrier of PHASE 7 at 0x2080. -/
def objects (s : State) : State :=
  { ((s.wrMem 0x107040 (leBytes 8 1)).wrMem 0x107080 (leBytes 8 2)).wrMem 0x107098 (leBytes 4 7) with past := [] }
/-- The task at a C word with a handle set, among the objects. -/
def soTask (so : BitVec 6) (h : Handle) (m : Member) : Machine.Task := (taskOf m).setHandle so h
def atSo (so : BitVec 6) (h : Handle) (m : Member) : State := { objects (at_ m) with tasks := [soTask so h m] }
theorem cur_atSo (so : BitVec 6) (h : Handle) (m : Member) : Current (atSo so h m) (soTask so h m) m := ⟨rfl, rfl⟩

/-- A handle bound to the lock, and one bound to the barrier with PHASE p. -/
def lockH (held : Bool) : Handle := ⟨.lock, 0x2040, held, 0, false, [], false⟩
def barH (p : BitVec 32) (arm : Bool) : Handle := ⟨.barrier, 0x2080, false, p, arm, [], false⟩

theorem objectAt_lock : ObjectAt (atSo 1 (lockH false) mD) (soTask 1 (lockH false) mD) mD 0x2040 0x107040 :=
  ⟨⟨dataLeaf, ⟨by decide +kernel, noTlb (by decide +kernel)⟩, by decide +kernel, by decide +kernel⟩, by decide +kernel, by decide +kernel⟩

theorem witness_AcquiringALock_1 : Current (atSo 1 (lockH false) mD) (soTask 1 (lockH false) mD) mD ∧
    ((soTask 1 (lockH false) mD).handle 1).kind = .lock ∧ ((soTask 1 (lockH false) mD).handle 1).held = false ∧
    (soTask 1 (lockH false) mD).replicated = false ∧ mD.takeEcho .c = none ∧
    ObjectAt (atSo 1 (lockH false) mD) (soTask 1 (lockH false) mD) mD ((soTask 1 (lockH false) mD).handle 1).addr 0x107040 ∧
    (atSo 1 (lockH false) mD).lockOwner 0x107040 = 0 ∧
    ((atSo 1 (lockH false) mD).lockWaiters 0x107040).head?.getD 0 = (atSo 1 (lockH false) mD).cur.task ∧
    (atSo 1 (lockH false) mD).mem.wf = true :=
  ⟨cur_atSo _ _ _, by decide +kernel, by decide +kernel, by decide +kernel, by decide +kernel, objectAt_lock, by decide +kernel,
    by decide +kernel, by decide +kernel⟩
theorem witness_AcquiringALock_2 : (Current (atSo 1 (barH 7 false) mD) (soTask 1 (barH 7 false) mD) mD ∧
      ((soTask 1 (barH 7 false) mD).handle 1).kind ≠ .lock) ∧
    Current (atSo 1 (lockH true) mD) (soTask 1 (lockH true) mD) mD ∧ ((soTask 1 (lockH true) mD).handle 1).held = true :=
  ⟨⟨cur_atSo _ _ _, by decide +kernel⟩, cur_atSo _ _ _, by decide +kernel⟩
/-- The lock held by task 9. -/
def atHeld : State := (atSo 1 (lockH false) mD).wrMem 0x107048 (leBytes 8 (2 ^ 63 + 9))
theorem witness_AcquiringALock_3 : Current atHeld (soTask 1 (lockH false) mD) mD ∧
    ObjectAt atHeld (soTask 1 (lockH false) mD) mD 0x2040 0x107040 ∧ atHeld.lockOwner 0x107040 ≠ 0 ∧
    ∀ r ∈ atHeld.lockq, r.obj = 0x107040 → r.task = atHeld.cur.task → r.granted = false :=
  ⟨⟨rfl, rfl⟩, ⟨⟨dataLeaf, ⟨by decide +kernel, noTlb (by decide +kernel)⟩, by decide +kernel, by decide +kernel⟩, by decide +kernel,
    by decide +kernel⟩, by decide +kernel, by decide +kernel⟩

theorem witness_ReleasesAndArrivalsWaitForTheCommit : (Current (atSo 1 (lockH true) mD) (soTask 1 (lockH true) mD) mD ∧
      (soTask 1 (lockH true) mD).replicated = false ∧ ((soTask 1 (lockH true) mD).handle 1).kind = .lock ∧
      ((soTask 1 (lockH true) mD).handle 1).held = true ∧ (1#6 : BitVec 6).toNat ∉ mD.rels) ∧
    ((soTask 1 (lockH true) { mD with rels := [1] }).handle 1).held = true ∧
    (Current (atSo 1 (barH 7 false) mD) (soTask 1 (barH 7 false) mD) mD ∧ ((soTask 1 (barH 7 false) mD).handle 1).kind = .barrier ∧
      (mD.rd 3).poison = false) ∧ (mP.rd 4).poison = true :=
  ⟨⟨cur_atSo _ _ _, by decide +kernel⟩, by decide +kernel, ⟨cur_atSo _ _ _, by decide +kernel⟩, by decide +kernel⟩

/-- g3 = the lock's address, g4 = the barrier's. -/
def mO : Member := reg 3 0x2040 false (reg 4 0x2080 false mem0)
def unboundH : Handle := ⟨.none, 0, false, 0, false, [], false⟩
theorem loaded_free (a pa : Nat) (h : a = 0x2040 ∧ pa = 0x107040 ∨ a = 0x2080 ∧ pa = 0x107080) :
    LoadedAs (atSo 1 unboundH mO) (soTask 1 unboundH mO) mO a pa 64 (overlay mO.deferredStores a (coreBytes (atSo 1 unboundH mO) mO a pa ((atSo 1 unboundH mO).load pa 64))) := by
  rcases h with ⟨rfl, rfl⟩ | ⟨rfl, rfl⟩ <;> exact loadedAs _ _ _ _ _ _ dataLeaf ⟨by decide +kernel, noTlb (by decide +kernel)⟩
    (by decide +kernel) (by decide +kernel) (by decide +kernel) (by decide +kernel) (by decide +kernel) (by decide +kernel) (by decide +kernel)
/-- SOBIND of a free handle to a lock and to a barrier of the named TYPE, and of a TYPE that differs. -/
theorem witness_BarrierHandles_1 : Current (atSo 1 unboundH mO) (soTask 1 unboundH mO) mO ∧ (mO.rd 3).poison = false ∧
    (mO.rd 3).val.toNat = 0x2040 ∧ (mO.rd 4).val.toNat = 0x2080 ∧ ((soTask 1 unboundH mO).handle 1).kind ≠ .lock ∧
    ((soTask 1 unboundH mO).handle 1).held = false ∧ ((soTask 1 unboundH mO).handle 1).arm = false ∧
    (∃ bs, LoadedAs (atSo 1 unboundH mO) (soTask 1 unboundH mO) mO 0x2040 0x107040 64 bs ∧ leNat (bs.take 1) = (1#2 : BitVec 2).toNat) ∧
    (∃ bs, LoadedAs (atSo 1 unboundH mO) (soTask 1 unboundH mO) mO 0x2080 0x107080 64 bs ∧ leNat (bs.take 1) = (2#2 : BitVec 2).toNat ∧
      leNat (bs.take 1) ≠ (1#2 : BitVec 2).toNat) :=
  ⟨cur_atSo _ _ _, by decide +kernel, by decide +kernel, by decide +kernel, by decide +kernel, by decide +kernel, by decide +kernel,
    ⟨_, loaded_free _ _ (.inl ⟨rfl, rfl⟩), by decide +kernel⟩, _, loaded_free _ _ (.inr ⟨rfl, rfl⟩), by decide +kernel⟩
theorem witness_BarrierHandles_2 : (mP.rd 4).poison = true ∧ (mD.rd 4).val.toNat % 64 ≠ 0 ∧
    (Current (atSo 1 (lockH true) mO) (soTask 1 (lockH true) mO) mO ∧ ((soTask 1 (lockH true) mO).handle 1).addr = (mO.rd 3).val.toNat ∧
      ((soTask 1 (lockH true) mO).handle 1).addr ≠ (mO.rd 4).val.toNat ∧ ((soTask 1 (lockH true) mO).handle 1).held = true) :=
  ⟨by decide +kernel, by decide +kernel, cur_atSo _ _ _, by decide +kernel⟩
/-- BOWAIT: an armed handle; a PHASE equal to the object's; a PHASE that differs. -/
theorem witness_BarrierHandles_3 : (Current (atSo 1 (barH 7 true) mD) (soTask 1 (barH 7 true) mD) mD ∧ ((soTask 1 (barH 7 true) mD).handle 1).arm = true) ∧
    ∀ p ∈ [7#32, 6#32], Current (atSo 1 (barH p false) mD) (soTask 1 (barH p false) mD) mD ∧
      ((soTask 1 (barH p false) mD).handle 1).kind = .barrier ∧ ((soTask 1 (barH p false) mD).handle 1).arm = false ∧
      ObjectAt (atSo 1 (barH p false) mD) (soTask 1 (barH p false) mD) mD ((soTask 1 (barH p false) mD).handle 1).addr 0x107080 ∧
      ((atSo 1 (barH p false) mD).loadNat (0x107080 + 24) 4 = p.toNat ↔ p = 7#32) := by
  refine ⟨⟨cur_atSo _ _ _, by decide +kernel⟩, fun p hp => ?_⟩
  rcases List.mem_pair.mp hp with rfl | rfl
  · exact ⟨cur_atSo _ _ _, by decide +kernel, by decide +kernel, ⟨⟨dataLeaf, ⟨by decide +kernel, noTlb (by decide +kernel)⟩, by decide +kernel,
      by decide +kernel⟩, by decide +kernel, by decide +kernel⟩, by decide +kernel⟩
  · exact ⟨cur_atSo _ _ _, by decide +kernel, by decide +kernel, ⟨⟨dataLeaf, ⟨by decide +kernel, noTlb (by decide +kernel)⟩, by decide +kernel,
      by decide +kernel⟩, by decide +kernel, by decide +kernel⟩, by decide +kernel⟩

theorem witness_FencesAndRegionEnds : (Current (at_ mD) (taskOf mD) mD ∧ fenceBlocked (at_ mD) mD 2 = false ∧
      (mD.str .c).lc0.count = 0 ∧ (mD.str .c).lc1.count = 0) ∧
    (let m : Member := { mD with stores := [⟨0x107000, 0x2000, [1], 200, 0⟩] }
     Current (at_ m) (taskOf m) m ∧ fenceBlocked (at_ m) m 2 = true) ∧
    Current (at_ mL) (taskOf mL) mL ∧ (mL.str .c).lc0.count ≠ 0 :=
  ⟨⟨cur_at _, by decide +kernel⟩, ⟨cur_at _, by decide +kernel⟩, cur_at _, by decide +kernel⟩

/-- The launching queue full, with room, and with sixteen reservations made. -/
def atQueue (n : Nat) (m : Member) : State :=
  { at_ m with queues := [((taskOf m).queue, { Queue.reset with entries := List.replicate n ⟨none, .task 0, none, none⟩ })] }
theorem witness_SpawnReserves : ((taskOf mD).replicated = false ∧ (mD.rd 3).poison = false ∧ (mD.rd 4).poison = false) ∧
    (Current (atQueue 1 mD) (taskOf mD) mD ∧ (((atQueue 1 mD).queues.find (taskOf mD).queue).getD Queue.reset).room = true ∧ mD.spawns.length < 16) ∧
    (Current (atQueue 2 mD) (taskOf mD) mD ∧ (((atQueue 2 mD).queues.find (taskOf mD).queue).getD Queue.reset).room = false) ∧
    16 ≤ ({ mD with spawns := List.replicate 16 ⟨0, 0, 0, 0⟩ } : Member).spawns.length :=
  ⟨by decide +kernel, ⟨⟨rfl, rfl⟩, by decide +kernel⟩, ⟨⟨rfl, rfl⟩, by decide +kernel⟩, by decide +kernel⟩

/-! ## Witnesses: state registers, echoes, faults -/

theorem witness_StateRegistersAndClocks : Current (at_ mD) (taskOf mD) mD ∧ (taskOf mD).replicated = false ∧ mD.replica ≤ 2 ∧
    (mD.rd 3).poison = false ∧ (mP.rd 4).poison = true ∧ 10 < (11#8).toNat ∧ (10#8).toNat ≤ 10 ∧
    ∃ r, (taskOf mD).replicas[mD.replica]? = some r ∧ r.fault.count ≤ 255 ∧ r.fault.seq < 2 ^ 32 :=
  ⟨cur_at _, by decide +kernel, by decide +kernel, by decide +kernel, by decide +kernel, by decide +kernel, by decide +kernel,
    _, rfl, by decide +kernel⟩

/-- A dual task of one rank: the lead and a follower, and the turn of one of them. -/
def dual (l f : Member) : Machine.Task :=
  { taskOf l with
    hdr := (taskOf l).hdr ||| 1#1024 <<< 356
    members := [l, f]
    replicas := [{ Replica.blank with holding := true }, { Replica.blank with holding := true }] }
def follower (m : Member) : Member := { m with replica := 1, core := 1 }
def atDual (l f : Member) (k : Nat) : State := { at_ l with tasks := [dual l f], cur := ⟨0, k, .c, .issue, 0, 0x1000, 0⟩ }
theorem witness_Echoes_1 : Current (atDual mD (follower mD) 0) (dual mD (follower mD)) mD ∧
    Current (atDual mD (follower mD) 1) (dual mD (follower mD)) (follower mD) ∧ (dual mD (follower mD)).replicated = true ∧
    mD.lead = true ∧ (follower mD).lead = false ∧ (dual mD (follower mD)).echoRoom mD.rank = true :=
  ⟨⟨rfl, rfl⟩, ⟨rfl, rfl⟩, by decide +kernel⟩
theorem witness_Echoes_2 :
    let f : Member := { follower mD with stall := some (.time 5), echoes := [⟨.c, 0x1000, 7, []⟩] }
    Current (atDual mD f 1) (dual mD f) f ∧ f.lead = false ∧ f.stall = some (.time 5) ∧
      ∃ e b, f.takeEcho .c = some (e, b) ∧ e.addr = (f.str .c).pc :=
  ⟨⟨rfl, rfl⟩, by decide +kernel, by decide +kernel, ⟨.c, 0x1000, 7, []⟩,
    { { follower mD with stall := some (.time 5), echoes := [⟨.c, 0x1000, 7, []⟩] } with echoes := [] }, by decide +kernel⟩

/-- Fault injection allowed for the task's context; g4 selects bit 63 of g3 of replica 0, and v[3]'s last bit. -/
def atInj (m : Member) : State := { at_ m with mgmt := { (at_ m).mgmt with cfg := { (at_ m).mgmt.cfg with finj := [(taskOf m).ctx] } } }
theorem witness_TrapsAndInjectedFaults : (Current (at_ mD) (taskOf mD) mD ∧ (taskOf mD).ctx ∉ (at_ mD).mgmt.cfg.finj) ∧
    (let m := reg 4 0x30 false (reg 3 63 false mem0)
     Current (atInj m) (taskOf m) m ∧ (taskOf m).ctx ∈ (atInj m).mgmt.cfg.finj ∧ (m.rd 4).poison = false ∧ (m.rd 4).val.toNat < 512 ∧
       ((m.rd 4).val.toNat / 4) % 4 = 0 ∧ (m.rd 3).val.toNat < 64 ∧ (m.rd 4).val.toNat % 4 = m.replica ∧
       (m.rd 4).val.extractLsb' 4 5 = 3#5) ∧
    (let m := reg 4 0x34 false (reg 3 4095 false mem0)
     Current (atInj m) (taskOf m) m ∧ ((m.rd 4).val.toNat / 4) % 4 = 1 ∧ (m.rd 3).val.toNat < 4096 ∧ (m.rd 4).val.toNat % 4 = m.replica) ∧
    (let m := reg 4 0x3C false (reg 3 64 false mem0)
     ((m.rd 4).val.toNat / 4) % 4 = 3 ∧ 64 ≤ (m.rd 3).val.toNat) ∧ (0x31#64).toNat % 4 ≠ mem0.replica ∧
    (0x00#64).extractLsb' 4 5 = 0#5 ∧ (mP.rd 4).poison = true :=
  ⟨⟨cur_at _, by decide +kernel⟩, ⟨⟨rfl, rfl⟩, by decide +kernel⟩, ⟨⟨rfl, rfl⟩, by decide +kernel⟩, by decide +kernel⟩

theorem witness_TakingAFault : (∃ f : FaultInfo, (at_ mD).tasks[0]? = some (taskOf mD) ∧ (taskOf mD).replicated = false ∧ f.cls = 0) ∧
    ∃ (f : FaultInfo) (r : Replica), (atDual mD (follower mD) 1).tasks[0]? = some (dual mD (follower mD)) ∧
      (dual mD (follower mD)).replicated = true ∧ f.cause ≠ cSchedule ∧ f.cause ≠ cDeadline ∧
      (dual mD (follower mD)).replicas[f.replica]? = some r ∧ r.stopped = none :=
  ⟨⟨(at_ mD).info mD cTrap 0 0 0, rfl, by decide +kernel⟩, (at_ mD).info (follower mD) cTrap 0 0 0, { Replica.blank with holding := true }, rfl,
    by decide +kernel, by decide +kernel, by decide +kernel, by decide +kernel, by decide +kernel⟩

/-- Context 0 with its fault queue of 16 slots at 0x2000: LOG2N 4, NOTIFY 0, PROD prod and CONS cons; its record is at CTXBASE. -/
def atFaultQueue (prod cons : Nat) : State :=
  let s := at_ mD
  let s1 : State := { s with regs := { s.regs with ctxbase := 0x200000 } }
  ((((s1.wrMem 0x200008 (leBytes 8 fetchRoot)).wrMem 0x200020 (leBytes 8 0x2000)).wrMem 0x107000 (leBytes 4 prod)).wrMem 0x107004
    (leBytes 12 (cons + 4 * 2 ^ 64))).wrMem 0x107010 (leBytes 8 0)
/-- The last free slot of the queue (PROD - CONS = 15), at its last slot; and the queue full. -/
theorem witness_FaultRecords_1 : ∀ p ∈ [(15, 0), (16, 0)], (atFaultQueue p.1 p.2).mem.wf = true ∧
    (atFaultQueue p.1 p.2).ctxField 0 32 8 = 0x2000 ∧ (atFaultQueue p.1 p.2).ctxPa 0 0x2000 true = some 0x107000 ∧
    (atFaultQueue p.1 p.2).loadNat 0x10700C 1 % 32 = 4 ∧
    ((((atFaultQueue p.1 p.2).loadNat 0x107000 4 + 2 ^ 32 - (atFaultQueue p.1 p.2).loadNat 0x107004 4) % 2 ^ 32 < 2 ^ 4) ↔ p.1 = 15) ∧
    (atFaultQueue p.1 p.2).loadNat 0x107010 8 = 0 := by decide +kernel
theorem witness_FaultRecords_2 : (atFaultQueue 15 0).ctxPa 0 (0x2000 + 64 + 64 * (15 % 2 ^ 4)) true = some 0x107400 ∧
    (∀ i < 64, inPorts (0x107000 + i) = false) := by decide +kernel

/-! ## Witnesses: timed words, the viaduct, station operations -/

theorem witness_TimedTokenWords : Current (atx .k mT) (taskOf mT) mT ∧ (mT.str .k).atLoopEnd 0x1000 = false ∧ (taskOf mT).tolerant = true ∧
    (strict mT).tolerant = false ∧ Current { atx .k mT with tasks := [strict mT] } (strict mT) mT ∧
    (let m : Member := { mT with tq := mT.tq.set 2 [true] }     -- queue 2: C to K
     Current (atx .k m) (taskOf m) m ∧ m.tokHas 2 1 = true) ∧ mT.tokHas 2 1 = false ∧ mT.tokRoom 9 1 = true ∧
    (let m : Member := { mT with tq := mT.tq.set 9 (List.replicate 32 true) }
     Current (atx .k m) (taskOf m) m ∧ m.tokRoom 9 1 = false) ∧
    (let m : Member := mT.setStr .k { mT.str .k with lc0 := ⟨1, 0x0FF4, 0x1000⟩ }
     Current (atx .k m) (taskOf m) m ∧ (m.str .k).atLoopEnd 0x1000 = true) :=
  ⟨cur_atx _ _, by decide +kernel, by decide +kernel, by decide +kernel, ⟨rfl, rfl⟩, ⟨cur_atx _ _, by decide +kernel⟩, by decide +kernel,
    by decide +kernel, ⟨cur_atx _ _, by decide +kernel⟩, cur_atx _ _, by decide +kernel⟩

/-- LOOPK: both counters at 0; the inner loop at the outer's end and one unit past it. -/
theorem witness_TimedLoopsAndStops : Current (atx .l mD) (taskOf mD) mD ∧
    ((mD.str .l).atLoopEnd 0x1000 = false ∧ (mD.str .l).lc1.count = 0 ∧ (mD.str .l).lc0.count = 0) ∧
    (let m := mD.setStr .l { mD.str .l with lc0 := ⟨3, 0x0FF4, 0x1018⟩ }
     Current (atx .l m) (taskOf m) m ∧ (m.str .l).atLoopEnd 0x1000 = false ∧ (m.str .l).lc0.count ≠ 0 ∧
       (0x1000#64 + BitVec.ofNat 64 (12 * 2)).toNat ≤ (m.str .l).lc0.stop.toNat ∧
       ¬ (0x1000#64 + BitVec.ofNat 64 (12 * 3)).toNat ≤ (m.str .l).lc0.stop.toNat) :=
  ⟨cur_atx _ _, by decide +kernel, cur_atx _ _, by decide +kernel⟩

/-- v[4] to v[0] on lane 0, by 7 hops, and two empty slots. -/
def sl1 : Slot := ⟨0, 0, 0x044, 0x040⟩
def sl0 : Slot := ⟨0, 0, 0, 0⟩
def msOf (m : Member) : List SlotMove := (bundleMoves m 100 [sl1, sl0, sl0]).getD []
theorem witness_Bundles_1 : Current (atx .k mD) (taskOf mD) mD ∧ bundleMoves mD 100 [sl1, sl0, sl0] = some (msOf mD) ∧
    (msOf mD).length = 1 ∧ bundleIllegal mD (msOf mD) = false ∧ bundleNominal (taskOf mD) mD (msOf mD) = none ∧
    bundleChecks 100 mD (msOf mD) = none := ⟨cur_atx _ _, by decide +kernel⟩
/-- The same segment held by a move in flight; and a slot whose lane 2 does not exist for v[0] to v[0] on another code. -/
def mB : Member := { mD with moves := [⟨.v 9, Row.invalid, 120, (msOf mD).flatMap (·.segs), ⟨0, 0, 0⟩⟩] }
theorem witness_Bundles_2 : Current (atx .k mB) (taskOf mB) mB ∧ bundleMoves mB 100 [sl1, sl0, sl0] = some (msOf mD) ∧
    bundleIllegal mB (msOf mD) = false ∧ bundleNominal (taskOf mB) mB (msOf mD) = none ∧
    bundleChecks 100 mB (msOf mD) = some ⟨cSchedule, 0, 4⟩ := ⟨cur_atx _ _, by decide +kernel⟩
theorem witness_Bundles_3 : bundleMoves mD 100 [⟨1, 0, 0x044, 0x040⟩, sl0, sl0] = none := by decide +kernel

theorem witness_MovesAndResultsLand : (∀ d ∈ [Dest.v 9, .la 1, .lb 1, .trig 1 0 0, .row 2 5],
      let m : Member := { mD with moves := [⟨d, List.replicate 128 (.ord 5), 100, [], ⟨0, 0, 0⟩⟩] }
      Current (atx .k m) (taskOf m) m ∧ m.moves.find? (fun v => v.arrive == 100) = some ⟨d, List.replicate 128 (.ord 5), 100, [], ⟨0, 0, 0⟩⟩) ∧
    let m : Member := { mD with results := [⟨1, 100, Row.invalid, 1, none, none⟩] }
    Current (atx .k m) (taskOf m) m ∧ m.results.find? (fun r => r.due == 100) = some ⟨1, 100, Row.invalid, 1, none, none⟩ ∧ (1 : Nat) ≠ 6 :=
  ⟨fun _ _ => ⟨cur_atx _ _, by simp⟩, cur_atx _ _, by decide +kernel, by decide⟩

/-- A trigger of station 2 waits (VFADD), one of station 0 (VADD), and one of VSEL. -/
def mV (st : Nat) (op : BitVec 7) : Member := { mD with starts := [⟨st, op, 0, ⟨0, 0, 0⟩, none⟩] }
theorem witness_StationOperationsStart : Current (atx .k (mV 2 0)) (taskOf (mV 2 0)) (mV 2 0) ∧
    stationOp (.vfadd ⟨2, 0, 0⟩) = some (⟨2, 0, 0⟩, 0) ∧ triggered (mV 2 0) ⟨2, 0, 0⟩ 0 ⟨2, 0, 0, ⟨0, 0, 0⟩, none⟩ :=
  ⟨cur_atx _ _, rfl, by unfold triggered; decide +kernel⟩
theorem witness_IntegerOperationsCompute : Current (atx .k (mV 0 0)) (taskOf (mV 0 0)) (mV 0 0) ∧
    triggered (mV 0 0) ⟨0, 0, 0⟩ 0 ⟨0, 0, 0, ⟨0, 0, 0⟩, none⟩ ∧ (integerOp (.vadd ⟨0, 0, 0⟩)).isSome = true ∧
    triggered (mV 0 0x58) ⟨0, 0, 0⟩ 0xB ⟨0, 0x58, 0, ⟨0, 0, 0⟩, none⟩ ∧ (integerUnary (.vnot ⟨0, 0, 0⟩)).isSome = true ∧
    triggered (mV 1 0x18) ⟨1, 0, 0⟩ 0x3 ⟨1, 0x18, 0, ⟨0, 0, 0⟩, none⟩ :=
  ⟨cur_atx _ _, by unfold triggered; decide +kernel, rfl, by unfold triggered; decide +kernel, rfl, by unfold triggered; decide +kernel⟩
theorem witness_RoundingIsExactOnItsFormat : (0 : Nat) < 5 ∧ 0x3F800000 < 2 ^ fp32.w ∧ ∃ n m e, fp32.decode 0x3F800000 = .fin n m e :=
  ⟨by decide, by decide, false, 8388608, -23, by decide +kernel⟩

/-! ## Witnesses: the matrix array, chain words -/

/-- No operands, 8 rows of 16 of tile 1. -/
def mf : MatFields := ⟨0, 1, 0, 0, 0, 0, 0, 0, 0, 0, 0, 7, 15, 0, 0, 0, 0, 0, 0, 0, 0⟩
/-- MMA on FP32 operands at 0x2000 and 0x4000. -/
def mfa : MatFields := { mf with aaddr := 0x2000, baddr := 0x4000, fa := 2, fb := 2, km1 := 3 }
theorem witness_MatrixWordsIssue_1 : Current (atx .k mD) (taskOf mD) mD ∧ (mD.str .k).waiting = false ∧
    matrixOp (.mzero mf) = some (5, mf) ∧ matrixLegal (taskOf mD) mD 5 mf = true ∧ matrixTrap (taskOf mD) mD 5 mf = none ∧
    groupMismatch (taskOf mD) mD mf = false ∧ mD.arrayFree ≤ 101 ∧ remoteFree (taskOf mD) mD 100 1 mf = true ∧
    matrixLegal (taskOf mD) mD 7 mf = true ∧ mD.accReady.toList.getD 1 0 ≤ 100 ∧ matrixTrap (taskOf mD) mD 7 mf = none :=
  ⟨cur_atx _ _, by decide +kernel⟩
theorem witness_MatrixWordsIssue_2 : matrixLegal (taskOf mD) mD 1 mfa = true ∧ matrixTrap (taskOf mD) mD 1 mfa = none ∧
    matrixLegal (taskOf mD) mD 1 mf = false ∧ (matrixTrap (taskOf mD) mD 6 { mf with aaddr := 0x70000 }).isSome = true ∧
    (let m : Member := { mD with arrayFree := 102 }
     Current (atx .k m) (taskOf m) m ∧ 101 < m.arrayFree) := ⟨by decide +kernel, by decide +kernel, by decide +kernel, by decide +kernel, cur_atx _ _, by decide +kernel⟩

/-- Jobs whose time has come: MZERO and the last row of an MDRAIN. -/
def jz : Job := ⟨5, mf, 93, 1, 100, 0, ⟨0, 0, 0⟩, 0, 0, none, none, none⟩
def jd : Job := ⟨7, mf, 89, 8, 103, 7, ⟨0, 0, 0⟩, 0, 0, none, none, none⟩
/-- A job of two 8-bit operands of one element, all valid. -/
def ji (fa : BitVec 4) : Job :=
  let x : List Container := List.replicate 8 (.ord 0x01010101)
  ⟨4, { mf with fa, fb := fa, mm1 := 0, nm1 := 0, km1 := 31 }, 93, 1, 100, 0, ⟨0, 0, 0⟩, 93, 93, some (x, []), some (x, []), none⟩
theorem witness_ArrayWrites : (∀ j ∈ [jz, jd], let m : Member := { mD with jobs := [j] }
      Current (atx .k m) (taskOf m) m ∧ m.jobs.find? (fun k => k.due 100) = some j) ∧ keysRise mD.acc ∧ jz.mop = 5 ∧
    jd.rowsDone + 1 = jd.f.mm1.toNat + 1 := by
  refine ⟨fun j hj => ?_, by unfold keysRise; decide +kernel, rfl, by decide +kernel⟩
  rcases List.mem_pair.mp hj with rfl | rfl
  · exact ⟨cur_atx _ _, by decide +kernel⟩
  · exact ⟨cur_atx _ _, by decide +kernel⟩

/-- A chain of two stages over two rows. -/
def cf : ChainFields := ⟨0, 0x2000, 0x4000, 1, 0, [⟨0, 0⟩, ⟨2, 0⟩]⟩
def chEvents (m : Member) : List (Dest × Nat) :=
  (chainRows m cf (rngKey (atx .k m) m) 100).flatMap fun c => chainEvents c.stages c.x c.dest c.arrive
theorem witness_ChainWordsAndFollowOnSteps_1 : Current (atx .k mD) (taskOf mD) mD ∧ chainIllegal cf = false ∧
    chainNominal (taskOf mD) mD cf = none ∧ ((chEvents mD).any fun e => mD.pending.any fun p => e.1.same p.1 && e.2 == p.2) = false ∧
    chainIllegal { cf with saddr := 0x2004 } = true ∧ (chainNominal (taskOf mD) mD { cf with daddr := 0x6FE00, nm1 := 0 }).isSome = true :=
  ⟨cur_atx _ _, by decide +kernel⟩
theorem witness_ChainWordsAndFollowOnSteps_2 :
    let m : Member := { mD with moves := [⟨.trig 0 0 0, Row.invalid, 101, [], ⟨0, 0, 0⟩⟩] }
    Current (atx .k m) (taskOf m) m ∧ ((chEvents m).any fun e => m.pending.any fun p => e.1.same p.1 && e.2 == p.2) = true :=
  ⟨cur_atx _ _, by decide +kernel⟩
/-- A copy whose last byte is written, with a follow-on MMA. -/
def fo : FollowOn := ⟨1, 1, 0x2000, 0x4000, 2, 2, 3, 7, 15, 0, 0⟩
def hd : Hdr := ⟨0, 0, 0, 0, 0⟩
def foCmd : Cmd := ⟨0, .l, .copy hd 0 0 0 0 (some fo), 0, 0, ⟨0, 0, 0⟩, 0, none, 90, .moved 0, none, 0, 0, 0, 0, 0, [], [], 1, none⟩
theorem witness_ChainWordsAndFollowOnSteps_3 : let m : Member := { mD with cmds := [foCmd] }
    Current (atx .k m) (taskOf m) m ∧ m.cmds.find? (fun k => k.state == CmdState.moved 0 && k.follow.isSome) = some foCmd ∧
      foCmd.follow = some fo ∧ 1 ≤ fo.fmop.toNat ∧ fo.fmop.toNat ≤ 4 ∧ issuedMatrix m 100 = false ∧ m.arrayFree ≤ 101 :=
  ⟨cur_atx _ _, by decide +kernel⟩

/-! ## Witnesses: engine commands -/

/-- A descriptor: FP32 elements (format 0), dimension 0 of n, dimension 1 of m rows of 128 bytes, at an address. -/
def descAt (base n m : Nat) : BitVec 256 :=
  BitVec.ofNat 256 (base + (if m = 0 then 0 else 2 ^ 57) + n * 2 ^ 64 + m * 2 ^ 80 + (if m = 0 then 0 else 128 * 2 ^ 128))
/-- Descriptor 1 set. -/
def mE : Member := { mD with d := mD.d.set 1 (descAt 0x2000 4 0) }
def copyI : Instr := .copy hd 1 0x2000 0 3 none

theorem witness_EngineCommandsIssue_1 : Current (atx .l mE) (taskOf mE) mE ∧ (atx .l mE).cur.phase = .issue ∧
    (mE.str .l).waiting = false ∧ ∃ f, cmdForm .l copyI = some f ∧ hdrLegal (taskOf mE) f.hdr = true ∧ f.legal (taskOf mE) mE = true ∧
      f.hdr.wcnt = 0#4 ∧ (mE.queued .l).length < 16 ∧ f.room mE = true ∧ f.checks (atx .l mE) (taskOf mE) mE = none ∧ f.fate (taskOf mE) = .queued :=
  ⟨cur_atx _ _, rfl, by decide +kernel, _, rfl, by decide +kernel⟩
/-- Sixteen commands queued; a semaphore below its count; a sub-range outside; a window command that fetches nothing. -/
theorem witness_EngineCommandsIssue_2 :
    (∃ f, cmdForm .l (.copy ⟨0, 5, 1, 0, 0⟩ 1 0x2000 0 3 none) = some f ∧ f.hdr.wcnt ≠ 0#4 ∧
      mE.semReady f.hdr.wsem.toNat f.hdr.wcnt.toNat = false) ∧
    (let m : Member := { mE with cmds := List.replicate 16 ⟨0, .l, copyI, 0, 0, ⟨0, 0, 0⟩, 0, none, 0, .queued, none, 0, 0, 0, 0, 0, [], [], 0, none⟩ }
     Current (atx .l m) (taskOf m) m ∧ ¬ (m.queued .l).length < 16) ∧
    (∃ f t, cmdForm .l (.copy hd 1 0x2000 1 3 none) = some f ∧ f.checks (atx .l mE) (taskOf mE) mE = some t) ∧
    (∃ f, cmdForm .l (.wclose hd 3) = some f ∧ f.fate (taskOf mE) = .done) ∧
    ∃ f, cmdForm .s (.cas hd 1 0 0 0) = some f ∧ f.fate (taskOf mE) = .deferred ∧ mE.dwq.length < 64 :=
  ⟨⟨_, rfl, by decide +kernel⟩, ⟨cur_atx _ _, by decide +kernel⟩, ⟨_, ⟨cBounds, 0x2000, 0⟩, rfl, by decide +kernel⟩, ⟨_, rfl, by decide +kernel⟩,
    _, rfl, by decide +kernel⟩

/-- An active command, and the member and state in which its work is done. -/
def cmdOf (x : Stream) (i : Instr) (d : BitVec 256) (r : Option Ring) (mark : Nat) (out : List W32) : Cmd :=
  ⟨1, x, i, 0, 0, ⟨0, 0, 0⟩, d, r, 90, .active 100, none, mark, 0, 0, 0, 0, [], out, 0, none⟩
def withCmd (m : Member) (c : Cmd) : Member := { m with cmds := [c] }
def atWork (m : Member) (c : Cmd) : State := { at_ (withCmd m c) with cur := ⟨0, 0, c.stream, .perform, 1, 0x1000, 0⟩ }
theorem working (m : Member) (x : Stream) (i : Instr) (d : BitVec 256) (r : Option Ring) (mark : Nat) (out : List W32) :
    Working (atWork m (cmdOf x i d r mark out)) (taskOf (withCmd m (cmdOf x i d r mark out))) (withCmd m (cmdOf x i d r mark out))
      (cmdOf x i d r mark out) := ⟨⟨rfl, rfl⟩, rfl, rfl, ⟨100, rfl⟩⟩

theorem witness_CommandsWorkPieceByPiece_1 :
    let c := cmdOf .l copyI (descAt 0x2000 4 0) none 3 []
    Working (atWork mD c) (taskOf (withCmd mD c)) (withCmd mD c) c ∧ (withCmd mD c).frozen = [] ∧
      c.mark + 1 = atoms c.desc 4 ∧ atomVA c.desc 0 3 = 0x200C ∧
      Readable (atWork mD c) (taskOf (withCmd mD c)) (withCmd mD c) .l 0x200C (atomBytes c.desc) dataLeaf :=
  ⟨working _ _ _ _ _ _ _, by decide +kernel, by decide +kernel, by decide +kernel, ⟨⟨by decide +kernel, noTlb (by decide +kernel)⟩, by decide +kernel,
    by decide +kernel, by decide +kernel, by decide +kernel, by decide +kernel, by decide +kernel, by decide +kernel⟩⟩
/-- A copy from a page without a translation. -/
theorem witness_CommandsWorkPieceByPiece_2 :
    let c := cmdOf .l copyI (descAt 0x9000 4 0) none 3 []
    Working (atWork mD c) (taskOf (withCmd mD c)) (withCmd mD c) c ∧ c.mark + 1 = atoms c.desc 4 ∧
      (atWork mD c).walk (taskOf (withCmd mD c)).ptroot (atomVA c.desc 0 3) = none ∧ tlbFind (withCmd mD c).tlbL 0 (atomVA c.desc 0 3) = none :=
  ⟨working _ _ _ _ _ _ _, by decide +kernel⟩
/-- A window fill's last row, and a gather's last row with an index inside and one outside. -/
def ring0 : Ring := ⟨2, 1, 1, 0, 2, 1, 0⟩
theorem witness_CommandsWorkPieceByPiece_3 :
    let c := cmdOf .l (.wset hd 2 1 ⟨1, 0, 1, 0, 0, 2⟩) (descAt 0x2000 4 2) (some ring0) 1 []
    Working (atWork mD c) (taskOf (withCmd mD c)) (withCmd mD c) c ∧ c.ring = some ring0 ∧ dRow c.desc = 16 ∧ c.mark + 1 = (2 : BitVec 7).toNat ∧
      ring0.tag + c.mark < dSize c.desc 1 ∧ ring0.slotAddr c.mark % 4 = 0 ∧ ring0.w < 16 ∧
      Readable (atWork mD c) (taskOf (withCmd mD c)) (withCmd mD c) .l (rowVA c.desc (ring0.tag + c.mark)) (dRow c.desc) dataLeaf :=
  ⟨working _ _ _ _ _ _ _, by decide +kernel, by decide +kernel, by decide +kernel, by decide +kernel, by decide +kernel, by decide +kernel,
    ⟨⟨by decide +kernel, noTlb (by decide +kernel)⟩, by decide +kernel, by decide +kernel, by decide +kernel, by decide +kernel, by decide +kernel, by decide +kernel, by decide +kernel⟩⟩
theorem witness_CommandsWorkPieceByPiece_4 :
    let m : Member := { mD with spad := [(0, .ord 1), (1, .ord 9)] }
    let c (k : Nat) := cmdOf .l (.gath hd 1 0x2000 0 (BitVec.ofNat 9 k)) (descAt 0x2000 4 2) none k []
    Working (atWork m (c 0)) (taskOf (withCmd m (c 0))) (withCmd m (c 0)) (c 0) ∧ (c 0).mark = (BitVec.ofNat 9 0).toNat ∧
      indexAt (withCmd m (c 0)) 0 0 = some 1 ∧ 1 < dSize (c 0).desc 1 ∧ Working (atWork m (c 1)) (taskOf (withCmd m (c 1))) (withCmd m (c 1)) (c 1) ∧
      indexAt (withCmd m (c 1)) 0 1 = some 9 ∧ dSize (c 1).desc 1 ≤ 9 ∧ keysRise (withCmd m (c 1)).spad :=
  ⟨working _ _ _ _ _ _ _, by decide +kernel, by decide +kernel, by decide +kernel, working _ _ _ _ _ _ _, by decide +kernel, by decide +kernel,
    by unfold keysRise; decide +kernel⟩
/-- A copy to memory, a fill of memory and of the scratchpad, and a prefetch. -/
def spadded : Member := { mD with spad := [(0x803, .ord 0x11223344)] }
theorem witness_CommandsWorkPieceByPiece_5 :
    let c := cmdOf .s copyI (descAt 0x2000 4 0) none 3 []
    Working (atWork spadded c) (taskOf (withCmd spadded c)) (withCmd spadded c) c ∧
      spadBytes (withCmd spadded c) (0x2000 + c.mark * atomBytes c.desc) (atomBytes c.desc) [0x44, 0x33, 0x22, 0x11] ∧
      ∃ s2, Writable (atWork spadded c) s2 (taskOf (withCmd spadded c)) (withCmd spadded c) .s 0x200C 4 dataLeaf :=
  ⟨working _ _ _ _ _ _ _, by unfold spadBytes; decide +kernel, (((atWork spadded (cmdOf .s copyI (descAt 0x2000 4 0) none 3 [])).takeOwn ⟨0, 0⟩ 0x10700C).getD
      (atWork spadded (cmdOf .s copyI (descAt 0x2000 4 0) none 3 []))),
    ⟨⟨by decide +kernel, noTlb (by decide +kernel)⟩, by decide +kernel, by decide +kernel, by decide +kernel, by decide +kernel, by decide +kernel, by decide +kernel, by decide +kernel⟩⟩
theorem witness_CommandsWorkPieceByPiece_6 :
    let c := cmdOf .l (.pref hd 1 0 0 3) (descAt 0x2000 4 0) none 3 []
    Working (atWork mD c) (taskOf (withCmd mD c)) (withCmd mD c) c ∧ c.mark + 1 = atoms c.desc 4 ∧
      mappedFor (atWork mD c) (taskOf (withCmd mD c)) (withCmd mD c) .l (atomVA c.desc 0 3) dataLeaf :=
  ⟨working _ _ _ _ _ _ _, by decide +kernel, ⟨by decide +kernel, noTlb (by decide +kernel)⟩⟩

/-! ## Witnesses: the prefix store -/

def root12 : Nat := 85595743199234917197651441461957980940
theorem root12_name : rootName 1 2 = BitVec.ofNat 128 root12 := by decide +kernel
/-- Context 0's record at 0x200000: root table, quota of the drawer 2^20 and root 0 the name of the tags 1 and 2. -/
def storeState (st : Store) (m : Member) (c : Cmd) : State :=
  let s := atWork m c
  let s1 : State := { s with regs := { s.regs with ctxbase := 0x200000 }, store := st }
  ((s1.wrMem 0x200008 (leBytes 8 fetchRoot)).wrMem 0x200038 (leBytes 8 (2 ^ 20))).wrMem 0x200100 (leBytes 16 root12)
def geom0 : Geom := ⟨1, 1, 16, false⟩
def slot0 : SeqSlot := SeqSlot.fresh 0 1 2 geom0 none 0
def store0 : Store := { State.reset.store with slots := [(0, slot0), (1, slot0)] }
def pr : PrmRes := ⟨0x00C, 0x026⟩
def prefixCmd (i : Instr) (out : List W32) : Cmd := cmdOf .l i 0 none 0 out
theorem performing (st : Store) (i : Instr) (out : List W32) :
    Performing (storeState st mD (prefixCmd i out)) (taskOf (withCmd mD (prefixCmd i out))) (withCmd mD (prefixCmd i out)) (prefixCmd i out) :=
  ⟨⟨⟨rfl, rfl⟩, rfl, rfl, ⟨100, rfl⟩⟩, rfl, fun _ => rfl, (by decide +kernel : (taskOf mD).replicated = false), rfl, rfl⟩

/-- The root of the tags 1 and 2 is permitted, that of 1 and 3 is not; slots 0 and 1 are open and alike; slot 2 is the lowest free. -/
theorem witness_SlotCommands_1 : (storeState store0 mD (prefixCmd (.slfork hd pr) [0])).permitted 0 (rootName 1 2) = true ∧
    (storeState store0 mD (prefixCmd (.slfork hd pr) [0])).permitted 0 (rootName 1 3) = false := by decide +kernel
theorem witness_SlotCommands_2 : (storeState store0 mD (prefixCmd (.slfork hd pr) [0, 1])).slotOf 0 0 = some slot0 ∧
    (storeState store0 mD (prefixCmd (.slfork hd pr) [0, 1])).slotOf 0 1 = some slot0 ∧ slot0.like slot0 = true ∧
    (prefixCmd (.slmove hd pr) [0, 1]).w 0 ≠ (prefixCmd (.slmove hd pr) [0, 1]).w 1 ∧
    (storeState store0 mD (prefixCmd (.slfork hd pr) [7])).slotOf 0 7 = none ∧
    (storeState store0 mD (prefixCmd (.slfork hd pr) [0])).freeSlot = some 2 ∧
    (storeState store0 mD (prefixCmd (.slfork hd pr) [0])).usageOf 0 1 + slot0.geom.tail ≤ (storeState store0 mD (prefixCmd (.slfork hd pr) [0])).quota 0 1 := by
  decide +kernel
/-- A usage at the quota. -/
theorem witness_SlotCommands_3 : let st : Store := { store0 with usage := [(1, 2 ^ 20)] }
    (storeState st mD (prefixCmd (.slfork hd pr) [0])).quota 0 1 < (storeState st mD (prefixCmd (.slfork hd pr) [0])).usageOf 0 1 + slot0.geom.tail := by
  decide +kernel
theorem witness_SlotCommands_4 (i : Instr) (out : List W32) :
    ∃ s tk mem, Performing s tk mem (prefixCmd i out) := ⟨_, _, _, performing store0 i out⟩

/-- A node at depth 1 with the drawer's copy, and a lease of it that lives to tick 5. -/
def node0 (res : BitVec 3) : Node :=
  { pages := [], cpages := [], name := 6, depth := 1, kvf := false, evc := 0, res, lm1 := 0, hm1 := 0, cm1 := 0, homedev := 0, refc := 0, lsh := 0, ldr := 0, lch := 0
    lage := 0, fchild := none, nsib := none, jumps := [], gh := [], root := rootName 1 2, ids := [], keys := [], vals := [], kscale := []
    vscale := [], sums := [] }
def store1 : Store := { store0 with nodes := [(3, node0 2)], leases := [⟨10, 3, 1, some 0, 0, 5⟩] }
theorem witness_LeaseAndNodeCommands_1 : (storeState store1 mD (prefixCmd (.lease hd pr) [3, 0x10064])).nodeOf 0 3 = some (node0 2) ∧
    (prefixCmd (.lease hd pr) [3, 0x10064]).w 1 / 65536 = 1 ∧ (node0 2).ldr < 65535 ∧
    (storeState store1 mD (prefixCmd (.lease hd pr) [3, 0x10064])).usageOf 0 1 + (node0 2).geom.block ≤
      (storeState store1 mD (prefixCmd (.lease hd pr) [3, 0x10064])).quota 0 1 ∧ (node0 2).inTier 1 = true ∧ (node0 0).inTier 1 = false ∧
    (node0 2).inTier 0 = false ∧ (storeState store1 mD (prefixCmd (.lease hd pr) [3, 0x10064])).mgmt.cfg.pcs = 0 ∧
    (storeState store1 mD (prefixCmd (.lease hd pr) [3, 0x10064])).nodeOf 0 4 = none := by decide +kernel
theorem witness_LeaseAndNodeCommands_2 : (storeState store1 mD (prefixCmd (.renew hd pr) [10, 4])).leaseOf 0 10 = some ⟨10, 3, 1, some 0, 0, 5⟩ ∧
    (storeState store1 mD (prefixCmd (.renew hd pr) [11, 4])).leaseOf 0 11 = none := by decide +kernel

theorem witness_BlockCommands_1 : let c := prefixCmd (.rxlook hd pr 0 0 0) [0, 0, 300]
    (storeState store0 mD c).slotOf 0 (c.w 0) = some slot0 ∧ c.w 2 ≤ 2 ^ 20 := by decide +kernel
/-- KAPP of one row of layer 0 at position 0, and at position 1 where the layer has none. -/
def mRows : Member := { mD with spad := (List.range 32).map fun i => (i, .ord (BitVec.ofNat 32 i)) }
theorem witness_BlockCommands_2 : let c := prefixCmd (.kapp hd pr) [0, 0, 0, 1, 0, 32, 64, 0, slot0.geom.word]
    (storeState store0 mRows c).slotOf 0 (c.w 0) = some slot0 ∧ slot0.geom.word = c.out.getD 8 0 ∧ c.w 1 < slot0.geom.l ∧
      slot0.tail.lfill.length = slot0.geom.l ∧ c.w 2 = slot0.tail.lfill.getD (c.w 1) 0 ∧ (1 : Nat) ≠ slot0.tail.lfill.getD 0 0 ∧
      (∀ i < c.w 3, slot0.tail.ids.find (c.w 2 + i) = none) ∧
      ∀ r ∈ kappRanges (some slot0.geom) c.out, (withCmd mRows c).allValid r.1 r.2 = true := by decide +kernel
/-- SEAL of a full tail whose block has no node, and one whose node exists; and of a tail with a layer one short. -/
def slotFull : SeqSlot := { slot0 with tail := { slot0.tail with lfill := [256] }, tailn := 256, tok := 256 }
def nmFull : Name := blockName slot0.root (List.replicate 256 0)
theorem witness_BlockCommands_3 : let c := prefixCmd (.seal hd pr 0) [0]
    let st : Store := { store0 with slots := [(0, slotFull)] }
    (storeState st mD c).slotOf 0 (c.w 0) = some slotFull ∧ (∀ f ∈ slotFull.tail.lfill, 256 ≤ f) ∧
      (storeState st mD c).depthOf slotFull.leaf < 4095 ∧ (storeState st mD c).nodeNamed nmFull = none ∧ (storeState st mD c).freeNode = some 0 ∧
      ∃ f ∈ ({ slotFull with tail := { slotFull.tail with lfill := [255] } } : SeqSlot).tail.lfill, f < 256 := by decide +kernel
theorem witness_BlockCommands_4 : let c := prefixCmd (.seal hd pr 0) [0]
    let st : Store := { store0 with slots := [(0, slotFull)], nodes := [(5, { node0 2 with name := nmFull })] }
    (storeState st mD c).nodeNamed nmFull = some (5, { node0 2 with name := nmFull }) ∧
      ({ node0 2 with name := nmFull } : Node).geom = slotFull.geom := by decide +kernel
/-- CPACT of position 0 of a slot of two tokens in its tail. -/
def slotTwo : SeqSlot := { slot0 with tail := { slot0.tail with lfill := [2] }, tailn := 2, tok := 2 }
def cpactCmd : Cmd := prefixCmd (.cpact hd pr) [0, 1, 0, 1]
def storeTwo : Store := { store0 with slots := [(0, slot0), (1, slotTwo)] }
theorem witness_BlockCommands_5 : (storeState storeTwo mRows cpactCmd).slotOf 0 (cpactCmd.w 0) = some slot0 ∧
    (storeState storeTwo mRows cpactCmd).slotOf 0 (cpactCmd.w 1) = some slotTwo ∧ slot0.like slotTwo = true := by decide +kernel
theorem witness_BlockCommands_6 : (storeState storeTwo mRows cpactCmd).swin 0 = 0 ∧
    (withCmd mRows cpactCmd).allValid (cpactCmd.w 2) (4 * cpactCmd.w 3) = true := by decide +kernel
theorem witness_BlockCommands_7 : (withCmd mRows cpactCmd).words (cpactCmd.w 2) (cpactCmd.w 3) = [0#32] ∧ (0#32).toNat < slotTwo.tok :=
  by decide +kernel
theorem witness_BlockCommands_8 :
    (storeState storeTwo mRows cpactCmd).resolve slotTwo.leaf slotTwo.tok 0 = .tail 0 := by decide +kernel
/-- REPL of a device of the domain, in sync; and of another. -/
theorem witness_BlockCommands_9 : let c := prefixCmd (.repl hd pr) [0]
    let s1 : State := { storeState store0 mD c with time := { State.reset.time with inSync := true } }
    s1.inDomain (BitVec.ofNat 20 (c.w 0)) = true ∧ s1.time.inSync = true ∧ s1.inDomain 1 = false ∧ (storeState store0 mD c).time.inSync = false ∧
      s1.fabric.held = [] ∧ s1.fabric.reqs = [] ∧ s1.fabric.copies = [] := by decide +kernel

/-- BSEL over one grain of two tokens; and of a slot that is not open. -/
theorem witness_SelectionCommands_1 : let c := prefixCmd (.bsel hd pr) [0, 0, 2, 0x10000, 0, 0x10001, 0, 64, slotTwo.geom.word]
    let st : Store := { store0 with slots := [(0, slotTwo)] }
    (storeState st mRows c).bselSlot (taskOf (withCmd mRows c)) (withCmd mRows c) c = some slotTwo ∧ (storeState st mRows c).swin 0 = 0 ∧
      (bselPrm c.out).list / 4 + ((bselPrm c.out).n + 15) / 16 + 1 ≤ 4 * pr.res.toNat ∧
      (storeState { store0 with slots := [] } mRows c).bselSlot (taskOf (withCmd mRows c)) (withCmd mRows c) c = none := by decide +kernel
/-- PGATH of the keys of one grain: of a tail's and of a block's first token, and its end. -/
def keptTail : Kept := ⟨[], 2, slotTwo.tail, slotTwo.geom.word, 0⟩
def keptBlock : Kept := ⟨[some 3], 256, slotTwo.tail, slotTwo.geom.word, 0⟩
def pgCmd (mark : Nat) (k : Kept) : Cmd :=
  { cmdOf .l (.pgath hd pr 2) 0 (some ring0) mark [0, 0, 1, 0x01000000, 0x100, 0, 0, 0, 0, 1, slotTwo.geom.word] with step := 2, kept := some k }
theorem witness_SelectionCommands_2 : let st : Store := { store0 with slots := [(0, slotTwo)] }
    Working (storeState st mRows (pgCmd 16 keptTail)) (taskOf (withCmd mRows (pgCmd 16 keptTail))) (withCmd mRows (pgCmd 16 keptTail)) (pgCmd 16 keptTail) ∧
      (pgCmd 16 keptTail).mark = 16 * (pgathPrm (pgCmd 16 keptTail).out).nmax ∧ (pgCmd 16 keptTail).kept = some keptTail ∧
      (pgCmd 16 keptTail).ring = some ring0 := ⟨⟨⟨rfl, rfl⟩, rfl, rfl, ⟨100, rfl⟩⟩, by decide +kernel⟩
theorem witness_SelectionCommands_3 : let c := pgCmd 0 keptTail
    (0 : Nat) < 16 * (pgathPrm c.out).nmax ∧ c.w 8 = 0 ∧ (pgathPos (withCmd mRows c) c 0).map keptTail.place = some (.tail 0) ∧
      (pgathPos (withCmd mRows c) c 0).map keptBlock.place = some (.node 3 0) ∧
      (storeState store1 mRows c).store.nodes.find 3 = some (node0 2) ∧ (storeState store1 mRows c).swin 0 = 0 := by decide +kernel

/-- An image read that fails. -/
theorem img_fails {α β γ : Type} (x : Except ImgErr α × β × γ) {e : ImgErr} (h : (match x.1 with
    | .error e => some e
    | .ok _ => none) = some e) : x = (.error e, x.2.1, x.2.2) := by
  obtain ⟨_ | _, _⟩ := x <;> simp_all
/-- No vocabulary image at 0x2000; a grammar unbound; a slot without a grammar; a list of one slot for GSTEP. -/
theorem witness_TokenAndGrammarCommands_1 : let c := prefixCmd (.tkfeed hd pr) [0x2000, 0, 0, 0, 0]
    (∃ m1 s1, (vocabAt (imgRead (taskOf (withCmd mD c)) c.stream) (c.w64 0)).at (storeState store0 mD c) (withCmd mD c) = (.error .noImage, m1, s1)) ∧
      c.w64 0 ≠ 0 ∧ (prefixCmd (.gload hd pr 0) [0, 0, 0, 0]).w64 0 = 0 ∧ keysRise (storeState store0 mD c).store.gram := by
  refine ⟨⟨_, _, img_fails _ (by decide +kernel)⟩, by decide +kernel, by decide +kernel, by unfold keysRise; decide +kernel⟩
theorem witness_TokenAndGrammarCommands_2 : let c := prefixCmd (.gmask hd pr) [0, 0x8000, 4096, 0]
    (storeState store0 mD c).slotOf 0 (c.w 0) = some slot0 ∧ gOn slot0.gstate = false ∧ c.w 2 % 8 = 0 ∧ 16 * pr.res.toNat + 16 ≤ c.w 1 ∧
      gOn 0x04000000 = true ∧ gDead 0x0C000000 = true := by decide +kernel
theorem witness_TokenAndGrammarCommands_3 : let c := prefixCmd (.gstepOff hd pr) [0, 1, 0, 0]
    c.w 1 = 1 ∧ c.out.length = 4 ∧ ((withCmd mRows c).cont (c.w 0 / 4)).valid = true ∧
      (storeState store0 mRows c).slotOf 0 ((withCmd mRows c).cont (c.w 0 / 4)).data.toNat = some slot0 := by decide +kernel

/-! ## Witnesses: accumulates, the ends of commands, deferred work -/

/-- ACC.ADD.S32 of one element from word 0 to a scratchpad word 8, with and without an operand; the old-value form. -/
def accF : AccFields := ⟨1, 0, 0, 0, 2, 8⟩
def mAcc : Member := { mD with spad := [(0, .ord 5), (8, .ord 7)] }
theorem witness_AtomicsAct_1 : let c := cmdOf .s (.accAddS32 hd accF) 0 none 0 []
    Working (atWork mAcc c) (taskOf (withCmd mAcc c)) (withCmd mAcc c) c ∧ accOf (.accAddS32 hd accF) = some (.addS32, false, hd, accF) ∧
      accF.dmode = 2#2 ∧ c.mark = accF.nm1.toNat ∧ spadBytes (withCmd mAcc c) 0 4 [5, 0, 0, 0] ∧ spadBytes (withCmd mAcc c) 32 4 [7, 0, 0, 0] ∧
      (0 : Nat) + Aop.addS32.z ≤ 32 ∧ ((withCmd mD c).cont 0).valid = false :=
  ⟨working _ _ _ _ _ _ _, rfl, rfl, rfl, by unfold spadBytes; decide +kernel, by unfold spadBytes; decide +kernel, by decide, by decide +kernel⟩
/-- An accumulate and a CAS on the doubleword at 0x2010 of the data page, at the commit. -/
def accCmd : Cmd := cmdOf .s (.accAddS32 hd ⟨1, 0, 0, 3, 0, 0⟩) (descAt 0x2010 1 0) none 0 []
def casCmd : Cmd := cmdOf .s (.cas hd 1 2 0 2) (descAt 0x2010 1 0) none 0 []
def mCas : Member := { mD with spad := [(0, .ord 5), (2, .ord 0), (4, .ord 9)] }
theorem witness_AtomicsAct_2 : (atWork mCas accCmd).tasks[0]? = some (taskOf (withCmd mCas accCmd)) ∧ (atWork mCas accCmd).cur.task = 0 ∧
    accCmd.mark = 0 ∧ accCmd.step = 0 ∧ accCmd.so = 0 ∧ (atWork mCas accCmd).mem.wf = true ∧ spadBytes (withCmd mCas accCmd) 0 4 [5, 0, 0, 0] ∧
    dAddr accCmd.desc 0 0 = 0x2010 ∧ dBase casCmd.desc = 0x2010 ∧
    ∃ s2, Writable (atWork mCas accCmd) s2 (taskOf (withCmd mCas accCmd)) (withCmd mCas accCmd) .s 0x2010 4 dataLeaf :=
  ⟨rfl, rfl, rfl, rfl, rfl, by decide +kernel, by unfold spadBytes; decide +kernel, by decide +kernel, by decide +kernel,
    ((atWork mCas accCmd).takeOwn ⟨0, 0⟩ 0x107010).getD (atWork mCas accCmd),
    ⟨⟨by decide +kernel, noTlb (by decide +kernel)⟩, by decide +kernel, by decide +kernel, by decide +kernel, by decide +kernel, by decide +kernel, by decide +kernel, by decide +kernel⟩⟩
theorem witness_AtomicsAct_3 : ∀ i ∈ casUsed 2 0, ((withCmd mCas casCmd).cont i).valid = true ∧ ((withCmd mCas casCmd).cont i).poison = false := by
  decide +kernel

/-- A queued copy that may start; with channel 0 busy; one whose last byte is written; and a hold released. -/
def qCmd (n : Nat) (st : CmdState) (ch : Option Nat) : Cmd := { cmdOf .l copyI (descAt 0x2000 4 0) none 0 [] with seq := n, state := st, chan := ch }
def atL (m : Member) (n : Nat) : State := { at_ m with cur := ⟨0, 0, .l, .perform, n, 0x1000, 0⟩ }
theorem witness_CommandsStartAndComplete_1 :
    let c := qCmd 2 .queued none
    let m : Member := { mD with cmds := [qCmd 1 (.active 100) (some 0), c] }
    Current (atL m 2) (taskOf m) m ∧ (m.cmds.find? fun k => k.stream == .l && k.state == CmdState.queued) = some c ∧ c.issued < 100 ∧
      m.behind c = false ∧ m.held = [] ∧ usesChannel c.instr = true ∧
      0 ∈ m.cmds.filterMap (fun k => if k.running then k.chan else none) ∧ 1 ∉ m.cmds.filterMap (fun k => if k.running then k.chan else none) :=
  ⟨⟨rfl, rfl⟩, by decide +kernel⟩
theorem witness_CommandsStartAndComplete_2 :
    let c := qCmd 2 (.moved 100) (some 0)
    let m : Member := { mD with cmds := [c] }
    Current (atL m 2) (taskOf m) m ∧ m.curCmd (atL m 2) = some c ∧ (∃ d, c.state = .moved d ∧ 0 < d ∧ d ≤ 100) ∧ c.ssem = 0 ∧ c.so = 0 :=
  ⟨⟨rfl, rfl⟩, by decide +kernel, ⟨100, by decide +kernel⟩, by decide +kernel⟩
theorem witness_CommandsStartAndComplete_3 :
    let c := qCmd 2 .queued none
    let h : HeldCmd := ⟨{ qCmd 1 (.held cTranslation) (some 1) with key := c.key }, cTranslation, true⟩
    let m : Member := { mD with cmds := [c], held := [h] }
    Current (atL m 2) (taskOf m) m ∧ m.resumes c = some h ∧ h.released = true := ⟨⟨rfl, rfl⟩, by decide +kernel⟩
/-- The last byte of a command that counts at the barrier at 0x2080. -/
theorem witness_CommandsStartAndComplete_4 :
    let c : Cmd := { qCmd 2 (.moved 100) (some 0) with so := 1, bytes := 16 }
    let m : Member := { mD with cmds := [c] }
    Current { atSo 1 (barH 7 false) m with cur := ⟨0, 0, .l, .perform, 2, 0x1000, 0⟩ } (soTask 1 (barH 7 false) m) m ∧ c.so ≠ 0 ∧
      (atSo 1 (barH 7 false) m).slog = [] ∧ dataLeaf.w = true ∧
      mapped (atSo 1 (barH 7 false) m) (soTask 1 (barH 7 false) m) m ((soTask 1 (barH 7 false) m).so.toList.getD c.so Handle.unbound).addr dataLeaf :=
  ⟨⟨rfl, rfl⟩, by decide +kernel, by decide +kernel, by decide +kernel, ⟨by decide +kernel, noTlb (by decide +kernel)⟩⟩

theorem witness_StoresAndDeferredWork_1 :
    let p : PStore := ⟨0x107000, 0x2000, [1, 2], 100, 0⟩
    let m : Member := { mD with stores := [p] }
    Current (at_ m) (taskOf m) m ∧ p.due ≤ (at_ m).cycle ∧ inPorts p.pa = false ∧ (at_ m).mem.wf = true := ⟨cur_at _, by decide +kernel⟩
theorem witness_StoresAndDeferredWork_2 :
    let m : Member := { mD with stores := [⟨0x107000, 0x2000, [1], 200, 0⟩, ⟨0x107008, 0x2008, [2], 100, 0⟩] }
    Current (at_ m) (taskOf m) m ∧ (at_ m).cycle < 200 ∧ 0x107008 / 128 = 0x107000 / 128 := ⟨cur_at _, by decide +kernel⟩
theorem witness_StoresAndDeferredWork_3 : (at_ mD).tasks[0]? = some (taskOf mD) ∧ (at_ mD).cur.task = 0 ∧ (at_ mD).mem.wf = true ∧
    (∃ s2, Writable (at_ mD) s2 (taskOf mD) mD .c 0x2008 8 dataLeaf) ∧
    mapped (atSo 1 (lockH true) mD) (soTask 1 (lockH true) mD) mD ((soTask 1 (lockH true) mD).so.toList.getD 1 Handle.unbound).addr dataLeaf ∧
    (soTask 1 (lockH true) mD).index 0 0 = 0 ∧ (∀ r ∈ (at_ mD).lockq, r.obj ≠ 0x107040) :=
  ⟨rfl, rfl, by decide +kernel, ⟨((at_ mD).takeOwn ⟨0, 0⟩ 0x107008).getD (at_ mD),
    ⟨⟨by decide +kernel, noTlb (by decide +kernel)⟩, by decide +kernel, by decide +kernel, by decide +kernel, by decide +kernel, by decide +kernel, by decide +kernel, by decide +kernel⟩⟩,
    ⟨by decide +kernel, noTlb (by decide +kernel)⟩, by decide +kernel, by decide +kernel⟩
/-- A side-log entry for a line of the data page, and one for a page without a translation. -/
def atLog (va : Nat) : State := { at_ mD with slog := [⟨0, 0, 0, 0, 0, va, [(3, 9)], .write, none, 0, 0⟩] }
theorem witness_StoresAndDeferredWork_4 : (atLog 0x2080).tasks[0]? = some (taskOf mD) ∧ (atLog 0x2080).walk (taskOf mD).ptroot 0x2080 = some dataLeaf ∧
    dataLeaf.w = true ∧ ((if dataLeaf.owned (dataLeaf.pa 0x2080) then (atLog 0x2080).takeOwn ⟨0, 0⟩ (dataLeaf.pa 0x2080) else some (atLog 0x2080)).isSome) = true ∧
    (∀ i < 128, inPorts (dataLeaf.pa 0x2080 + i) = false) ∧ (atLog 0x9000).walk (taskOf mD).ptroot 0x9000 = none :=
  ⟨rfl, by decide +kernel, by decide +kernel, by decide +kernel, by decide +kernel, by decide +kernel⟩

/-! ## Witnesses: commits, decisions, discards -/

/-- A member at its region end: C at CLOSE (or TDONE), the other streams at the boundary. -/
def mEnd (final : Bool) : Member :=
  let st (x : StreamSt) : StreamSt := { x with status := if final then .halted else .closed }
  ((({ mD with stall := some (if final then .tdone else .close) }.setStr .l (st (mD.str .l))).setStr .s (st (mD.str .s))).setStr .k (st (mD.str .k)))
theorem ends (final : Bool) : AtRegionEnd (at_ (mEnd final)) (taskOf (mEnd final)) final := by
  cases final
  · refine ⟨rfl, by decide +kernel, rfl, ⟨rfl, rfl, rfl, rfl, rfl⟩, by decide +kernel, by simp [taskOf], rfl, ?_, ?_, ?_⟩ <;> intro m hm <;>
      obtain rfl := List.mem_singleton.mp hm
    · exact ⟨rfl, rfl, fun x hx => by cases x <;> first | rfl | exact absurd rfl hx⟩
    · exact ⟨rfl, rfl, rfl, rfl, by decide +kernel⟩
    · exact ⟨rfl, rfl, rfl, rfl⟩
  · refine ⟨rfl, by decide +kernel, rfl, ⟨rfl, rfl, rfl, rfl, rfl⟩, by decide +kernel, by simp [taskOf], rfl, ?_, ?_, ?_⟩ <;> intro m hm <;>
      obtain rfl := List.mem_singleton.mp hm
    · exact ⟨rfl, rfl, fun x hx => by cases x <;> first | rfl | exact absurd rfl hx⟩
    · exact ⟨rfl, rfl, rfl, rfl, by decide +kernel⟩
    · exact ⟨rfl, rfl, rfl, rfl⟩
theorem witness_RegionsCommit_1 (final : Bool) : (at_ (mEnd final)).cur.task = 0 ∧ (at_ (mEnd final)).tasks[0]? = some (taskOf (mEnd final)) ∧
    AtRegionEnd (at_ (mEnd final)) (taskOf (mEnd final)) final := ⟨rfl, rfl, ends final⟩
theorem witness_RegionsCommit_2 : (taskOf (mEnd true)).heldLocks = [] ∧ (taskOf (mEnd true)).graph = none ∧ (taskOf (mEnd true)).fromTT = none ∧
    (taskOf (mEnd true)).compl = 0 := by decide +kernel
/-- A token left at the end. -/
theorem witness_RegionsCommit_3 : let m : Member := { mEnd false with tq := (mEnd false).tq.set 3 [true] }
    m.atEnd false = true ∧ (∃ q ∈ m.tq.toList, q ≠ []) ∧ (taskOf m).commit = .none ∧ (taskOf m).state = .running ∧
      ∃ r, (taskOf m).replicas[m.replica]? = some r ∧ r.stopped = none :=
  ⟨by decide +kernel, ⟨[true], by decide +kernel⟩, rfl, rfl, _, rfl, by decide +kernel⟩
/-- A task at its alignment barrier, due. -/
def waitingTask : Machine.Task := { taskOf mD with state := .placing, replicas := [{ Replica.blank with atBarrier := true, origin := 100 }] }
theorem witness_RegionsCommit_4 : waitingTask.commit = .none ∧ waitingTask.replicas ≠ [] ∧
    (∀ r ∈ waitingTask.replicas, r.atBarrier = true ∧ r.origin ≤ (at_ mD).cycle) ∧ (∀ m ∈ waitingTask.members, m.replica < waitingTask.replicas.length) ∧
    waitingTask.preemptReq = false ∧ waitingTask.fatal = false := by decide +kernel

/-- A replica's signatures; dual and triple tasks that decide. -/
def sent (v : W64) : Replica := { Replica.blank with holding := true, sigs := some ([v], [0, 0, 0]) }
def deciding (repl : Nat) (rs : List Replica) : Machine.Task :=
  { taskOf mD with hdr := (taskOf mD).hdr ||| BitVec.ofNat 1024 repl <<< 356, replicas := rs, commit := .deciding }
theorem witness_DecisionsAndDiscards_1 : (deciding 1 [sent 1, sent 1]).repl = 1 ∧ (deciding 2 [sent 1, sent 2, sent 2]).repl = 2 ∧
    (deciding 1 [sent 1, sent 1]).state = .running ∧ (deciding 1 [sent 1, sent 1]).termReq = false ∧ (sent 1).sigs.isSome = true ∧
    (sent 1).stopped = none ∧ (deciding 1 [sent 1, sent 2]).crew = 1 ∧ (deciding 1 [sent 1, sent 2]).members ≠ [] ∧
    (deciding 1 [sent 1, sent 2]).retry ≤ (deciding 1 [sent 1, sent 2]).attempt ∧ (deciding 1 [sent 1, sent 2]).rpol = false :=
  ⟨by decide +kernel, by decide +kernel, rfl, rfl, rfl, rfl, by decide +kernel, by simp [deciding, taskOf], by decide +kernel, rfl⟩
/-- A charge above the budget; a region that may be discarded. -/
def charged (n : Nat) : Machine.Task := { taskOf mD with budget := 10, replicas := [{ Replica.blank with holding := true, charge := n }] }
def preTask : Machine.Task := { taskOf mD with hdr := (taskOf mD).hdr ||| 1#1024 <<< 355 }
theorem witness_DecisionsAndDiscards_2 : (∀ r ∈ (charged 10).replicas, r.charge ≤ (charged 10).budget) ∧
    (∃ r ∈ (charged 11).replicas, (charged 11).budget < r.charge ∧ (∀ x ∈ (charged 11).replicas, x.charge ≤ r.charge) ∧ r.holding = true ∧
      (charged 11).state = .running ∧ (charged 11).commit = .none ∧ ∀ x ∈ (charged 11).replicas, x.atBarrier = false) ∧
    preTask.pre = true ∧ preTask.discards < 3 ∧ preTask.state = .running ∧ preTask.commit = .none ∧ (taskOf mD).pre = false := by decide +kernel

/-! ## Witnesses: launch records, recovery, dispatch -/

/-- Queue 5 of context 0 holds a host's record: KIND and words 1 to 3; the context is enabled, with a pool of 2^30 bytes. -/
def recOf (kind w1 w2 w3 : Nat) : BitVec 512 := BitVec.ofNat 512 (kind + w1 * 2 ^ 64 + w2 * 2 ^ 128 + w3 * 2 ^ 192)
def entry (r : BitVec 512) : QEntry := ⟨some r, .host, none, none⟩
def ctxState (s : State) : State :=
  let s1 : State := { s with regs := { s.regs with ctxbase := 0x200000 } }
  (((s1.wrMem 0x200000 [1]).wrMem 0x200008 (leBytes 8 fetchRoot)).wrMem 0x200050 (leBytes 8 (2 ^ 30)))
def atHead (r : BitVec 512) : State :=
  { ctxState (objects (at_ mD)) with arg := .num 5, queues := [(5, { Queue.reset with cfg := 0x8A001, entries := [entry r] })] }
def okHead (kind : Nat) (r : BitVec 512) : Prop := HeadRecord (atHead r) 5 kind (entry r) r
theorem witness_LaunchRecords_1 : okHead 1 (recOf 1 0x2000 0x3000 0x2040) ∧
    recWord (recOf 1 0x2000 0x3000 0x2040) 1 % 128 = 0 ∧ recTail (recOf 1 0x2000 0x3000 0x2040) = 0 ∧
    (atHead (recOf 1 0x2000 0x3000 0x2040)).poolRoom 0 20480 = true ∧ okHead 4 (recOf 4 3 0 0) ∧ okHead 6 (recOf 6 0x2080 5 0) ∧
    (atHead (recOf 6 0x2080 5 0)).ctxPa 0 0x2080 true = some 0x107080 ∧ (atHead (recOf 6 0x2080 5 0)).loadNat 0x107080 1 = 2 ∧
    okHead 10 (recOf 10 7 0 0) ∧ ((atHead (recOf 10 7 0 0)).queueAt 5).cfg.getLsbD 13 = true :=
  ⟨⟨by decide +kernel, by decide +kernel, rfl, by decide +kernel, by decide +kernel, by decide +kernel⟩, by decide +kernel, by decide +kernel,
    by decide +kernel, ⟨by decide +kernel, by decide +kernel, rfl, by decide +kernel, by decide +kernel, by decide +kernel⟩,
    ⟨by decide +kernel, by decide +kernel, rfl, by decide +kernel, by decide +kernel, by decide +kernel⟩, by decide +kernel, by decide +kernel,
    ⟨by decide +kernel, by decide +kernel, rfl, by decide +kernel, by decide +kernel, by decide +kernel⟩, by decide +kernel⟩
/-- TIMED of entry 4095 for queue 5; and a graph image of two nodes and one edge at 0x2100. -/
def timedRec : BitVec 512 := recOf 5 4095 0 0 ||| BitVec.ofNat 512 ((5 * 16 + 1) * 2 ^ 256 + 1000 * 2 ^ 320)
theorem witness_LaunchRecords_2 : okHead 5 timedRec ∧ recWord timedRec 1 < 4096 ∧ recWord timedRec 4 < 2 ^ 19 ∧ recWord timedRec 7 % 64 = 0 ∧
    ((atHead timedRec).queueAt (recWord timedRec 4 / 16)).ctx = ((atHead timedRec).queueAt 5).ctx ∧ (atHead timedRec).mem.wf = true :=
  ⟨⟨by decide +kernel, by decide +kernel, rfl, by decide +kernel, by decide +kernel, by decide +kernel⟩, by decide +kernel⟩
def atGraph (r : BitVec 512) : State :=
  ((atHead r).wrMem 0x107100 (leBytes 16 (2 + 2 ^ 32 + 64 * 2 ^ 64) ++ leBytes 48 (128 + 192 * 2 ^ 64 + 16 * 2 ^ 128))).wrMem 0x107180 (leBytes 4 0x10000)
theorem witness_LaunchRecords_3 : HeadRecord (atGraph (recOf 2 0x2100 0 0)) 5 2 (entry (recOf 2 0x2100 0 0)) (recOf 2 0x2100 0 0) ∧
    recWord (recOf 2 0x2100 0 0) 1 % 64 = 0 ∧ (atGraph (recOf 2 0x2100 0 0)).liveImages.length < Config.graphTable ∧
    (atGraph (recOf 2 0x2100 0 0)).poolRoom 0 (poolNeed 0) = true ∧
    (((accepted (atGraph (recOf 2 0x2100 0 0)) 5 2).graphImage 0 0x2100).map (·.2)) = some true ∧
    ((accepted (atGraph (recOf 2 0x2100 0 0)) 5 2).graphImage 0 0x2100).map (fun g =>
      ((accepted (atGraph (recOf 2 0x2100 0 0)) 5 2).graphEdges 0 0x2100 g.1, graphSound g.1.nnode [(0, 1)])) = some (some [(0, 1)], true) :=
  ⟨⟨by decide +kernel, by decide +kernel, rfl, by decide +kernel, by decide +kernel, by decide +kernel⟩, by decide +kernel⟩
theorem witness_LaunchRecords_4 : HeadRecord (atGraph (recOf 3 0x2100 0x3000 0)) 5 3 (entry (recOf 3 0x2100 0x3000 0)) (recOf 3 0x2100 0x3000 0) ∧
    (¬ ∃ k ∈ (atGraph (recOf 3 0x2100 0x3000 0)).graphs, k.retired = false) ∧
    ((atGraph (recOf 3 0x2100 0x3000 0)).ctxRead 0 0x3000 16).isSome = true ∧
    ((atGraph (recOf 3 0x2100 0x3000 0)).ctxWrite 0 (0x2100 + 192 + 16) [1]).isSome = true :=
  ⟨⟨by decide +kernel, by decide +kernel, rfl, by decide +kernel, by decide +kernel, by decide +kernel⟩, by decide +kernel, by decide +kernel,
    by decide +kernel⟩

/-- RESUME of a suspended task of the context; RESUME-CHANNEL of a unit that holds; TERMINATE of a task and of a node. -/
def atRecord (r : BitVec 512) (tk : Machine.Task) : State := { atHead r with tasks := [tk] }
def heldTask : Machine.Task := taskOf { mD with cmds := [{ qCmd 1 (.held cTranslation) (some 0) with chan := some 0 }] }
theorem witness_RecoveryRecords : (HeadRecord (atRecord (recOf 7 0 0xFFFF 0) (taskOf mD)) 5 7 (entry (recOf 7 0 0xFFFF 0)) (recOf 7 0 0xFFFF 0)) ∧
    ((taskOf mD).seq = 0 ∧ (taskOf mD).node = 0xFFFF ∧ (taskOf mD).ctx = 0) ∧
    (∃ m ∈ heldTask.members, m.rank = 0 ∧ ∃ c ∈ m.cmds, c.isHeld = true ∧ c.unit = 5) ∧
    (HeadRecord (atRecord (recOf 8 0 (0xFFFF + 5 * 2 ^ 19) 0) heldTask) 5 8 (entry (recOf 8 0 (0xFFFF + 5 * 2 ^ 19) 0)) (recOf 8 0 (0xFFFF + 5 * 2 ^ 19) 0)) ∧
    (HeadRecord (atRecord (recOf 9 0 0xFFFF 0) (taskOf mD)) 5 9 (entry (recOf 9 0 0xFFFF 0)) (recOf 9 0 0xFFFF 0)) :=
  ⟨⟨rfl, by decide +kernel, rfl, by decide +kernel, by decide +kernel, by decide +kernel⟩, by decide +kernel, by decide +kernel,
    ⟨rfl, by decide +kernel, rfl, by decide +kernel, by decide +kernel, by decide +kernel⟩,
    ⟨rfl, by decide +kernel, rfl, by decide +kernel, by decide +kernel, by decide +kernel⟩⟩

/-- One READY task that has stood on a core before: it goes to one core. One never dispatched whose header no page maps: it is refused. -/
def readyTask : Machine.Task := { taskOf mD with state := .ready, poolBytes := 20480 }
def atReady (tk : Machine.Task) : State := { ctxState (at_ mD) with tasks := [tk] }
def attemptName (s : State) : Option (Nat × Nat × Nat) := s.firstAttempt.map fun x => (x.1, x.2.1, match x.2.2 with
  | .wait => 0
  | .refuse _ _ => 1
  | .go _ _ => 2)
theorem witness_Dispatch_1 : attemptName (atReady readyTask) = some (0, 0, 2) ∧
    attemptName (atReady { readyTask with members := [], hdrVA := 0x9000 }) = some (0, 0, 1) ∧
    attemptName (atReady (taskOf mD)) = none := by decide +kernel
theorem witness_Dispatch_2 : readyTask.repl ≤ 2 ∧ ((atReady readyTask).placement 0 readyTask false).isSome = true ∧
    (atReady readyTask).claimsOf 0 readyTask [[0]] = [] ∧ readyTask.commitPending = false := by decide +kernel
/-- An entry of the time-triggered table that is due once. -/
def atSlot : State :=
  let s := ctxState (at_ mD)
  let s1 : State := { s with arg := .num 0, ttNext := [(0, 0)], time := { s.time with ns := 500 }, regs := { s.regs with ttbase := 0x210000 }
                             queues := [(5, { Queue.reset with cfg := 0x88001 })] }
  ((s1.wrMem 0x210000 (leBytes 8 (5 * 16 + 1) ++ leBytes 8 1000 ++ leBytes 8 250 ++ leBytes 8 0x2100)).wrMem 0x107100 [1])
theorem witness_Dispatch_3 : atSlot.ttDue 0 = 1 ∧ atSlot.ttBit 0 3 = false ∧ atSlot.ttQueue 0 = 5 ∧
    ((atSlot.ctxRead 0 0x2100 64).map fun bs => recKind (BitVec.ofNat 512 (leNat bs))) = some 1 ∧ (atSlot.queueAt 5).cfg.getLsbD 0 = true ∧
    (atSlot.queueAt 5).entries.length < (atSlot.queueAt 5).depth := by decide +kernel
theorem witness_Dispatch_4 : (0 : Nat) < 1000 ∧ 0 ≤ 500 ∧ (atReady readyTask).reserve = none := by decide +kernel

/-! ## Witnesses: the host, time, the directory, management; steps and invariants -/

theorem witness_HostWrites : ((1 : Nat) < 2 ^ 15 ∧ (({ at_ mD with queues := [(1, { Queue.reset with cfg := 0x88001 })] } : State).queueAt 1).cfg.getLsbD 0 = true ∧
      (({ at_ mD with queues := [(1, { Queue.reset with cfg := 0x88001 })] } : State).queueAt 1).entries.length <
        (({ at_ mD with queues := [(1, { Queue.reset with cfg := 0x88001 })] } : State).queueAt 1).depth) ∧
    (∃ x ∈ ({ at_ mD with queues := [(1, { Queue.reset with cfg := 0x88001 })] } : State).queues, x.2.cfg.getLsbD 0 = true) ∧
    (¬ ∃ x ∈ (at_ mD).queues, x.2.cfg.getLsbD 0 = true) ∧ (at_ mD).mem.wf = true ∧
    -- the last byte of a stack's space, and the first of the far memory
    (61999999999 / 2 ^ 36 < 12 ∧ 61999999999 % 2 ^ 36 < 62000000000) ∧ ¬ (62000000000 % 2 ^ 36 < 62000000000) ∧ 2 ^ 51 ≤ 2251799813685248 := by
  decide +kernel

theorem witness_TimeAndLeases : (∃ s : State, s.time.base + 32768 ≤ max s.time.tick (s.time.ns / 1024)) ∧
    (∃ s : State, max s.time.tick (s.time.ns / 1024) / 32768 * 32768 ≤ s.time.base ∧ s.store.leases.Pairwise fun a b => a.id ≠ b.id) ∧
    (∃ s : State, s.time.inSync = true ∧ (1000 ≤ s.time.offset ∨ s.time.lastSync + 2 * s.mgmt.cfg.syncInt ≤ s.time.ns) ∧ s.fabric.held = []) :=
  ⟨⟨{ State.reset with time := { State.reset.time with ns := 32768 * 1024 } }, by decide +kernel⟩,
    ⟨{ State.reset with store := { State.reset.store with leases := [⟨1, 0, 1, none, 0, 0⟩, ⟨2, 0, 1, none, 0, 9⟩] } }, by decide +kernel⟩,
    { State.reset with time := { State.reset.time with inSync := true, offset := 1000 } }, by decide +kernel⟩

/-- A REPL of name 9 that waits for device 1; its request, lease and copy. -/
def replCmd : Cmd := { cmdOf .s (.repl hd pr) 0 none 0 [1, 0, 0, 0, 9, 0, 0, 0] with state := .waitAnswer }
def reqOf (k : ReqKind) : Request := ⟨9, k, 1, some 0, 1000, 0, 0, 1, 7⟩
def leaseR : RemoteLease := ⟨9, 1, 7, 1000, 4096, 0, 0, 1⟩
def atFab (f : Fabric) (ns : Nat) (g : Arg) : State :=
  let s := at_ (withCmd mD replCmd)
  { s with fabric := f, arg := g, time := { s.time with ns := ns, inSync := true } }
theorem served (f : Fabric) (ns : Nat) (g : Arg) :
    Served (atFab f ns g) 0 0 (taskOf (withCmd mD replCmd)) (withCmd mD replCmd) replCmd :=
  ⟨rfl, rfl, rfl, rfl, (by decide +kernel : (taskOf mD).replicated = false)⟩
theorem witness_DirectoryAndCopies_1 : ∀ k ∈ [ReqKind.rlease, .read],
    ({ State.reset.fabric with reqs := [reqOf k] } : Fabric).reqs = [reqOf k] ∧ replCmd.seq = (reqOf k).cmd ∧ (reqOf k).task = 0 ∧
      101000 = (reqOf k).sent + 100000 ∧ (2000 : Nat) ≤ (reqOf k).sent + (4096#16).toNat * 1024 - 4000 := by decide
theorem witness_DirectoryAndCopies_2 : leaseR.cmd = replCmd.seq ∧ leaseR.sent + leaseR.ticks * 1024 - 4000 = 4191304 ∧
    ¬ (2098153 + leaseR.ticks * 512 ≤ leaseR.sent + leaseR.ticks * 1024) ∧ (2098152 + leaseR.ticks * 512 ≤ leaseR.sent + leaseR.ticks * 1024) := by decide
/-- A name homed here with one holder, with eight, and a name homed at another device of a domain of two. -/
def home (n : Nat) : State := { State.reset with fabric := { State.reset.fabric with homes := [(9, (List.range n).map (BitVec.ofNat 20))] } }
theorem witness_DirectoryAndCopies_3 : (home 1).homeOf 9 = (home 1).regs.devid ∧ ((home 1).fabric.homes.find? fun e => e.1 == 9) = some (9, [0]) ∧
    ((home 1).fabric.homes.map (·.1)).Nodup ∧ 1#20 ∉ [0#20] ∧ ((home 8).fabric.homes.find? fun e => e.1 == 9).map (·.2.length) = some 8 ∧
    ((home 1).fabric.homes.find? fun e => e.1 == 8) = none ∧ (home 1).fabric.homes.length < 16777216 ∧
    (let s : State := { State.reset with mgmt := { State.reset.mgmt with cfg := { State.reset.mgmt.cfg with ndom := 2 } } }
     s.homeOf (2 ^ 64) ≠ s.regs.devid) := by decide +kernel
/-- The source's side: a node of name 6 in the drawer, and a remote lease of it that lives. -/
def atSource : State := { State.reset with store := { store1 with leases := [⟨10, 3, 1, none, 1, 5⟩] } }
theorem witness_DirectoryAndCopies_4 : (atSource.nodeNamed 6).map (·.1) = some 3 ∧ atSource.nodeNamed 7 = none ∧
    atSource.remoteLease 6 1 10 = some (⟨10, 3, 1, none, 1, 5⟩, node0 2) ∧ atSource.remoteLease 6 2 10 = none ∧ (node0 2).inTier 1 = true := by
  decide +kernel
/-- A RXLOOK whose LOOKUP waits. -/
def rxCmd : Cmd := { cmdOf .l (.rxlook hd pr 1 0 1) 0 none 0 (List.replicate 24 0) with state := .waitAnswer }
theorem witness_DirectoryAndCopies_5 : Served { atFab { State.reset.fabric with reqs := [reqOf .lookup] } 2000 (.msg (.holders 9 [])) with
      tasks := [taskOf (withCmd mD rxCmd)] } 0 0 (taskOf (withCmd mD rxCmd)) (withCmd mD rxCmd) rxCmd ∧ rxCmd.w 20 = 0 ∧ rxCmd.w 22 = 0 ∧
    19 < rxCmd.out.length ∧ ((withCmd mD rxCmd).words (rxCmd.w 1) (rxCmd.w 2)).length < 256 * (rxCmd.w 6 / 256 + 2) :=
  ⟨⟨rfl, rfl, rfl, rfl, (by decide +kernel : (taskOf mD).replicated = false)⟩, by decide +kernel⟩

theorem witness_ManagementCore : (∃ s : State, s.mgmt.boot = .ready ∧ s.arg = .measure 9 0) ∧ State.reset.mgmt.boot = .off ∧
    (∃ s : State, s.arg = .num 3 ∧ 3 ∈ s.mgmt.repair.retiring ∧ s.coreInUse 3 = false ∧ 3 % 9 < 8 ∧ s.mgmt.repair.spares.find (3 / 9) = none ∧
      3 / 9 * 9 + 8 ∉ s.mgmt.repair.retired ∧ ∀ i < 8, 3 / 9 * 9 + i ∈ s.mgmt.repair.retired → i = 3 % 9) ∧
    ∃ s : State, s.arg = .num 1 ∧ 1 ∈ s.power.clamped :=
  ⟨⟨{ State.reset with arg := .measure 9 0, mgmt := { State.reset.mgmt with boot := .ready } }, by decide +kernel⟩, rfl,
    ⟨{ State.reset with arg := .num 3, mgmt := { State.reset.mgmt with repair := { State.reset.mgmt.repair with retiring := [3] } } }, by decide +kernel⟩,
    { State.reset with arg := .num 1, power := { State.reset.power with clamped := [1] } }, by decide +kernel⟩

/-- A flit of channel 3 of 240 zero bytes. -/
def flit3 : Flit := ⟨3, 1, 0, List.replicate 232 0⟩
/-- Stack 0 in service, stack 1 in a test whose copy to the parking area is at row 5, stack 2 at the march, stack 3 copying its last row back; a free
slot; port 0 whose oldest flit has failed sixteen replays, and port 1 in service with a flit that waits. -/
def inTest (p : TestPhase) : Stack := { Stack.reset with mode := 3, test := some ⟨1, 2, p, 90, [7]⟩ }
def atStack : State :=
  { State.reset with
    hbm := (((State.reset.hbm.set 0 { Stack.reset with mode := 2 }).set 1 (inTest (.parking 5))).set 2 (inTest .march)).set 3 (inTest (.returning 0))
    mgmt := { State.reset.mgmt with cfg := { State.reset.mgmt.cfg with slots := (Vector.replicate 64 (some 1)).set 1 none } }
    fabric := { State.reset.fabric with
      ports := (State.reset.fabric.ports.set 0 ⟨2, 2, 0, 0, 0, 5, [], [], [], [], [], [], 1, [flit3], 16⟩).set 1 ⟨2, 2, 0, 0, 0, 5, [], [], [], [], [3], [flit3], 0, [], 0⟩ } }
theorem witness_StacksAndPorts_1 : atStack.hbm[0]? = some { Stack.reset with mode := 2 } ∧ ({ Stack.reset with mode := 2 } : Stack).barred = false ∧
    (∃ e ∈ atStack.mgmt.cfg.slots.toList, e = none) ∧
    (∀ e ∈ ({ atStack with mgmt := { atStack.mgmt with cfg := { atStack.mgmt.cfg with slots := Vector.replicate 64 (some 1) } } } : State).mgmt.cfg.slots.toList,
      e.isSome = true) ∧
    atStack.hbm[1]? = some (inTest (.parking 5)) ∧ atStack.hbm[2]? = some (inTest .march) ∧ atStack.hbm[3]? = some (inTest (.returning 0)) ∧
    (inTest .march).test = some ⟨1, 2, .march, 90, [7]⟩ := by decide +kernel
/-- The last flit that may fail a replay and the one that takes the port down; a stop signal and its end. -/
theorem witness_StacksAndPorts_2 : let x : Port := ⟨2, 2, 0, 0, 0, 5, [], [], [], [], [], [], 1, [flit3], 16⟩
    let y : Port := ⟨2, 2, 0, 0, 0, 5, [], [], [], [], [3], [flit3], 0, [], 0⟩
    atStack.fabric.ports[0]? = some x ∧ atStack.fabric.ports[1]? = some y ∧ 0 < x.unacked.length ∧ x.unacked.length < 2 ^ 32 ∧ 16 ≤ x.tries ∧
      ({ x with tries := 15 } : Port).tries < 16 ∧ x.firstSeq + BitVec.ofNat 32 0 = x.firstSeq ∧ y.state = 2 ∧ (∀ f ∈ y.waiting, f.vc = 3) ∧ y.stops.Nodup := by
  decide +kernel

theorem witness_RegisterWordsKeepTheRest : Current (at_ mD) (taskOf mD) mD ∧ (∃ v, scalarResult mD (.add 5 3 4) = some (5, v)) ∧
    (∃ v, divisionResult mD (.remz 5 3 4) = some (5, v)) ∧ (∃ h, compareOf mD (.sltz 5 3 4) = some (5, false, h)) ∧
    ∃ t, exec (.add 5 3 4) (at_ mD) = .next t :=
  ⟨cur_at _, ⟨_, rfl⟩, ⟨_, rfl⟩, ⟨_, rfl⟩, _, rfl⟩

/-- ADD g5, g3, g4 placed as the next word: the C stream's turn, its word fetched from a page with X. -/
def atFetch : State := State.reset.withFetchWord 32 0x00041941
def fetchedTask : Machine.Task := fetchTask (State.reset.withFetchTables.wrMem fetchCode (leBytes 24 0x00041941))
theorem witness_StepRunsTheDecodedInstruction_1 : atFetch.agenda.head? = some (.issue 0 0 .c) ∧
    (∃ tk mem, atFetch.tasks[0]? = some tk ∧ tk.members[0]? = some mem ∧ tk.state = .running ∧ mayIssueNow atFetch.cycle tk mem .c = true ∧
      (mem.str .c).base ≤ atFetch.cycle ∧ Fetched atFetch tk mem (mem.str .c).pc 1 [0x41, 0x19, 0x04, 0x00]) :=
  ⟨by decide +kernel, fetchedTask, fetchedTask.members.headD mem0, rfl, rfl, by decide +kernel, by decide +kernel, by decide +kernel,
    ⟨(atFetch.walk fetchRoot 0x1000).getD dataLeaf, by decide +kernel,
      fun k hk => by obtain rfl : k = 0 := by omega
                     exact ⟨⟨by decide +kernel, noTlb (by decide +kernel)⟩, by decide +kernel⟩, by decide +kernel⟩⟩
theorem witness_StepRunsTheDecodedInstruction_2 : ∃ i, decodeC 0x00041941#32 = .ok i ∧
    (∃ e, decodeC 0#32 = .error e) ∧ unmapped (at_ mD) (taskOf mD) mD 0x9000 :=
  ⟨.add 5 3 4, by decide, ⟨_, by rfl⟩, by decide +kernel, by decide +kernel⟩

theorem witness_EveryStepKeepsMemoryAndEvents : WellKept State.reset ∧ ∃ t, step State.reset = .next t :=
  ⟨⟨by decide, rfl⟩, _, rfl⟩
theorem witness_DecodeReturnsWhatEncodeWrites : Instr.wf (.ldd 1 2 8) = true ∧ (encode (.ldd 1 2 8)).isSome = true ∧
    Stream.c ∈ (Instr.ldd 1 2 8).streams := by decide +kernel

/-! ## Witnesses: the clauses not met above -/

/-- A state whose page at 0x3000 lies past the last byte of its stack (R385). -/
def atHole (m : Member) : State := (at_ m).wrMem 0x104018 (leBytes 8 0xE80000061)
def holeLeaf : Leaf := ((atHole mR).walk fetchRoot 0x3000).getD dataLeaf
theorem witness_LoadAndStoreFaults_8 : Current (atHole mR) (taskOf mR) mR ∧ inAperture (effAddr mR 4 0).toNat = false ∧
    mapped (atHole mR) (taskOf mR) mR (effAddr mR 4 0).toNat holeLeaf ∧ holeLeaf.r = true ∧ holeLeaf.w = true ∧
    (atHole mR).rangeOk (holeLeaf.pa (effAddr mR 4 0).toNat) 4 = false ∧ (atHole mR).canWrite (holeLeaf.pa (effAddr mR 4 0).toNat) 8 = false :=
  ⟨⟨rfl, rfl⟩, by decide +kernel, ⟨by decide +kernel, noTlb (by decide +kernel)⟩, by decide +kernel, by decide +kernel, by decide +kernel, by decide +kernel⟩
/-- A table entry that cannot be read (R349), on the way to 0x200000. -/
def mW : Member := reg 4 0x200000 false (reg 3 7 false mem0)
def atBadWalk (m : Member) : State := (at_ m).wrMem 0x103008 (leBytes 8 0xE80000003)
theorem witness_LoadAndStoreFaults_9 : Current (atBadWalk mW) (taskOf mW) mW ∧ unmapped (atBadWalk mW) (taskOf mW) mW (effAddr mW 4 0).toNat ∧
    (effAddr mW 4 0).toNat < 2 ^ 57 ∧ (atBadWalk mW).missCause (taskOf mW).ptroot (effAddr mW 4 0).toNat = cMemory ∧
    (at_ mU).missCause (taskOf mU).ptroot (effAddr mU 4 0).toNat = cTranslation := ⟨⟨rfl, rfl⟩, ⟨by decide +kernel, by decide +kernel⟩, by decide +kernel, by decide +kernel, by decide +kernel⟩
/-- The bytes of the stores of witness_StoresWrite_2 and witness_LoadAndStoreFaults_6 may be written. -/
theorem witness_StoresWrite_3 : (at_ mD).canWrite (dataLeaf.pa (effAddr mD 4 0).toNat) 8 = true ∧
    (atOwned mD).canWrite (dataLeaf.pa (effAddr mD 4 0).toNat) 8 = true := by decide +kernel

/-- A further fault of the cycle in which the region was discarded. -/
theorem witness_TakingAFault_2 : let tk : Machine.Task := { taskOf mD with before := some ([Replica.blank], [mD]) }
    ({ at_ mD with tasks := [tk] } : State).tasks[0]? = some tk ∧ tk.before = some ([Replica.blank], [mD]) ∧
      (taskOf mD).before = none ∧ (dual mD (follower mD)).before = none := by decide +kernel
/-- The queue's header and slot may be written. -/
theorem witness_FaultRecords_3 : (atFaultQueue 15 0).canWrite 0x107000 64 = true ∧ (atFaultQueue 15 0).canWrite 0x107400 64 = true := by decide +kernel
/-- A matrix word of another member of the group, at its nominal issue cycle, that names another peer (R213). -/
def pairTask (m p : Member) : Machine.Task := { taskOf m with members := [m, p] }
theorem witness_MatrixWordsIssue_3 : let f : MatFields := { mf with arem := 1, apeer := 1, mcg := 3, aaddr := 0x2000, baddr := 0x4000, fa := 2, fb := 2, km1 := 3 }
    let p : Member := { mD with rank := 1, core := 1, matNow := some { f with apeer := 2 } }
    let s : State := { atx .k mD with tasks := [{ pairTask mD p with hdr := (taskOf mD).hdr ||| 1#1024 <<< 352 }] }
    Current s { pairTask mD p with hdr := (taskOf mD).hdr ||| 1#1024 <<< 352 } mD ∧ (pairTask mD p).members.length = 2 ∧
      groupMismatch (pairTask mD p) mD f = true :=
  ⟨⟨rfl, rfl⟩, rfl, by decide +kernel⟩

theorem witness_ChainWordsAndFollowOnSteps_4 : (atx .k mD).member? 0 0 = some mD ∧ mD.spMid = mD.spad ∧
    (let c : ChainRow := ⟨0, Row.invalid, [], 0, 5, 101, some 4, ⟨0, 0, 0⟩⟩
     c.reads = some 4 ∧ c.arrive = (atx .k mD).cycle + 1) := by decide +kernel

/-- In a dual task a COPY of S with a follow-on step, and a CAS with the deferred-write queue full. -/
def atDualS (m : Member) : State := { atDual m (follower m) 0 with cur := ⟨0, 0, .s, .issue, 0, 0x1000, 0⟩ }
theorem witness_EngineCommandsIssue_3 : Current (atDualS mE) (dual mE (follower mE)) mE ∧ mE.lastAcc = false ∧ mE.dwq.length < 64 ∧
    ∃ f, cmdForm .s (.copy hd 1 0x2000 0 3 (some fo)) = some f ∧ hdrLegal (dual mE (follower mE)) f.hdr = true ∧
      f.legal (dual mE (follower mE)) mE = true ∧ f.hdr.wcnt = 0#4 ∧ (mE.queued .s).length < 16 ∧ f.room mE = true ∧
      f.checks (atDualS mE) (dual mE (follower mE)) mE = none ∧ f.fate (dual mE (follower mE)) = .deferredStep :=
  ⟨⟨rfl, rfl⟩, by decide +kernel, by decide +kernel, _, rfl, by decide +kernel⟩
theorem witness_EngineCommandsIssue_4 :
    let m : Member := { mE with dwq := List.replicate 64 (.store 0 [] false) }
    Current (atx .s m) (taskOf m) m ∧ 64 ≤ m.dwq.length ∧ ∃ f, cmdForm .s (.cas hd 1 0 0 0) = some f ∧ hdrLegal (taskOf m) f.hdr = true ∧
      f.legal (taskOf m) m = true ∧ f.hdr.wcnt = 0#4 ∧ (m.queued .s).length < 16 ∧ f.room m = true ∧ f.checks (atx .s m) (taskOf m) m = none ∧
      f.fate (taskOf m) = .deferred := ⟨cur_atx _ _, by decide +kernel, _, rfl, by decide +kernel⟩
/-- A WCLOSE that counts at the barrier, alone and in a dual task. -/
theorem witness_EngineCommandsIssue_5 :
    let h : Hdr := ⟨0, 0, 0, 0, 1⟩
    let s : State := { atSo 1 (barH 7 false) mE with cur := ⟨0, 0, .l, .issue, 0, 0x1000, 0⟩ }
    (Current s (soTask 1 (barH 7 false) mE) mE ∧ s.slog = [] ∧ dataLeaf.w = true ∧
      mapped s (soTask 1 (barH 7 false) mE) mE ((soTask 1 (barH 7 false) mE).handle 1).addr dataLeaf ∧
      hdrLegal (soTask 1 (barH 7 false) mE) h = true ∧ h.so ≠ 0#6 ∧ (soTask 1 (barH 7 false) mE).replicated = false) ∧
    hdrLegal ((dual mE (follower mE)).setHandle 1 (barH 7 false)) h = true ∧ ((dual mE (follower mE)).setHandle 1 (barH 7 false)).replicated = true :=
  ⟨⟨⟨rfl, rfl⟩, by decide +kernel, by decide +kernel, ⟨by decide +kernel, noTlb (by decide +kernel)⟩, by decide +kernel⟩, by decide +kernel⟩
/-- BCLOSE: right after an accumulate of S; with its count in semaphore 0, and without it. -/
theorem witness_EngineCommandsIssue_6 :
    (let m : Member := { mE with lastAcc := true }
     Current (atx .s m) (taskOf m) m ∧ (atx .s m).cur.stream = .s ∧ m.lastAcc = true) ∧
    let m : Member := { mE with sem := mE.sem.set 0 2 }
    Current (atx .l m) (taskOf m) m ∧ m.semReady 0 (2#4 : BitVec 4).toNat = true ∧ m.semReady 0 (3#4 : BitVec 4).toNat = false :=
  ⟨⟨cur_atx _ _, rfl, rfl⟩, cur_atx _ _, by decide +kernel⟩

/-- Two rows of a window that have been written in turn. -/
theorem witness_CommandsWorkPieceByPiece_7 :
    let w : Window := ⟨true, 0, 1, 0, 2, 1, 2 ^ 32 - 1, 1, 2 ^ 32 - 1, [(0, .written), (2 ^ 32 - 1, .written)], 1⟩
    1 < (w.next + 2 ^ 32 - w.head) % 2 ^ 32 ∧ ∀ u ≤ 0, (w.slot (w.head + u)).2 = Fill.written ∨ (w.slot (w.head + u)).2 = Fill.present := by decide +kernel
/-- FILL of memory and of the scratchpad, SCAT, and PEERCOPY of a row of the other member. -/
theorem witness_CommandsWorkPieceByPiece_8 :
    let c := cmdOf .s (.fill hd (.mem 1 7 0 0 3)) (descAt 0x2000 4 0) none 3 []
    Working (atWork mD c) (taskOf (withCmd mD c)) (withCmd mD c) c ∧ c.mark + 1 = atoms c.desc ((3#16 : BitVec 16).toNat + 1) ∧
      atomVA c.desc 0 3 = 0x200C ∧ dBits c.desc ≠ 4 ∧ dBits c.desc / 8 = 4 ∧
      ∃ s2, Writable (atWork mD c) s2 (taskOf (withCmd mD c)) (withCmd mD c) .s 0x200C 4 dataLeaf :=
  ⟨working _ _ _ _ _ _ _, by decide +kernel, by decide +kernel, by decide +kernel, by decide +kernel,
    (((atWork mD (cmdOf .s (.fill hd (.mem 1 7 0 0 3)) (descAt 0x2000 4 0) none 3 [])).takeOwn ⟨0, 0⟩ 0x10700C).getD
      (atWork mD (cmdOf .s (.fill hd (.mem 1 7 0 0 3)) (descAt 0x2000 4 0) none 3 []))),
    ⟨⟨by decide +kernel, noTlb (by decide +kernel)⟩, by decide +kernel, by decide +kernel, by decide +kernel, by decide +kernel, by decide +kernel, by decide +kernel, by decide +kernel⟩⟩
theorem witness_CommandsWorkPieceByPiece_9 :
    let m : Member := { mD with spad := [(0, .ord 1)] ++ (List.range 4).map fun i => (0x800 + i, .ord 5) }
    let c := cmdOf .s (.scat hd 1 0x2000 0 0) (descAt 0x2000 4 2) none 0 []
    Working (atWork m c) (taskOf (withCmd m c)) (withCmd m c) c ∧ indexAt (withCmd m c) 0 c.mark = some 1 ∧ 1 < dSize c.desc 1 ∧
      ((withCmd m c).cont 0).poison = false ∧ rowVA c.desc 1 = 0x2080 ∧
      spadBytes (withCmd m c) 0x2000 16 [5, 0, 0, 0, 5, 0, 0, 0, 5, 0, 0, 0, 5, 0, 0, 0] ∧
      ∃ s2, Writable (atWork m c) s2 (taskOf (withCmd m c)) (withCmd m c) .s 0x2080 16 dataLeaf :=
  ⟨working _ _ _ _ _ _ _, by decide +kernel, by decide +kernel, by decide +kernel, by decide +kernel, by unfold spadBytes; decide +kernel,
    (((atWork { mD with spad := [(0, .ord 1)] ++ (List.range 4).map fun i => (0x800 + i, .ord 5) } (cmdOf .s (.scat hd 1 0x2000 0 0) (descAt 0x2000 4 2) none 0 [])).takeOwn ⟨0, 0⟩ 0x107080).getD
      (atWork mD (cmdOf .s copyI 0 none 0 []))),
    ⟨⟨by decide +kernel, noTlb (by decide +kernel)⟩, by decide +kernel, by decide +kernel, by decide +kernel, by decide +kernel, by decide +kernel, by decide +kernel, by decide +kernel⟩⟩
theorem witness_CommandsWorkPieceByPiece_10 :
    let p : Member := { mD with rank := 1, core := 1 }
    let c := cmdOf .l (.peerCopy hd 0x2000 1 0 none) 0 none 0 []
    let tk : Machine.Task := { pairTask (withCmd mD c) p with hdr := (taskOf mD).hdr ||| 1#1024 <<< 352 }
    let s : State := { atWork mD c with tasks := [tk] }
    Working s tk (withCmd mD c) c ∧ tk.members[tk.index mD.replica 1]? = some p ∧ keysRise mD.spad ∧
      (cmdOf .l (.fill hd (.spad 0x800 0 7 0 0)) 0 none 0 []).mark = (0#17 : BitVec 17).toNat :=
  ⟨⟨⟨rfl, rfl⟩, rfl, rfl, ⟨100, rfl⟩⟩, by decide +kernel, by unfold keysRise; decide +kernel, rfl⟩

/-- The target of the accumulate and of the CAS may be read. -/
theorem witness_AtomicsAct_4 : (atWork mCas accCmd).rangeOk (dataLeaf.pa 0x2010) 8 = true ∧ accCmd.isHeld = false ∧ casCmd.isHeld = false := by decide +kernel

/-- A WAITB whose two earlier batches are closed, one of them still outstanding; a window fill whose last row is present, and one whose is not. -/
def waitbCmd : Cmd := { qCmd 3 .queued none with instr := .waitb hd 1, batch := 3 }
theorem witness_CommandsStartAndComplete_5 :
    let m : Member := { mD with cmds := [{ qCmd 1 (.active 100) (some 0) with batch := 2 }, waitbCmd] }
    Current (atL m 3) (taskOf m) m ∧ m.curCmd (atL m 3) = some waitbCmd ∧ waitbCmd.issued < (atL m 3).cycle ∧
      outstandingBatches m waitbCmd ≤ (1#4 : BitVec 4).toNat ∧ ¬ outstandingBatches m waitbCmd ≤ (0#4 : BitVec 4).toNat :=
  ⟨⟨rfl, rfl⟩, by decide +kernel⟩
theorem witness_CommandsStartAndComplete_6 :
    let c : Cmd := { qCmd 2 (.moved 100) (some 0) with ring := some ring0, mark := 2 }
    let w (f : Fill) : Window := ⟨true, 0, 1, 0, 2, 1, 0, 2, 0, [(0, .present), (1, f)], 1⟩
    ({ mD with win := mD.win.set 2 (w .present) } : Member).fillPresent c = true ∧ ({ mD with win := mD.win.set 2 (w .written) } : Member).fillPresent c = false ∧
      ({ c with ssem := 5 } : Cmd).ssem ≠ 0 ∧ (dual mD (follower mD)).replicated = true := by decide +kernel

/-- A store that may be written; one whose line an entry of the side log made before it still waits for. -/
theorem witness_StoresAndDeferredWork_5 : (at_ mD).canWrite 0x107000 2 = true ∧ (at_ mD).slog = [] ∧
    (let p : PStore := ⟨0x107080, 0x2080, [1], 100, 1⟩
     let m : Member := { mD with stores := [p] }
     let e : LogEntry := ⟨0, 0, 0, 0, 0, 0x2080, [(3, 9)], .write, none, 0, 0⟩
     let s : State := { at_ m with slog := [e] }
     Current s (taskOf m) m ∧ e ∈ s.slog ∧ e.va = p.va / 128 * 128 ∧ e.id < p.logMark) :=
  ⟨by decide +kernel, by decide +kernel, ⟨rfl, rfl⟩, by decide +kernel⟩
/-- A deferred store that was missing; a release by the member of rank 0; an arrival. -/
theorem witness_StoresAndDeferredWork_6 : mapped (at_ mD) (taskOf mD) mD 0x2008 dataLeaf ∧ (at_ mD).logRoom mD.core = true ∧ dataLeaf.w = true ∧
    (atSo 1 (lockH true) mD).rangeOk 0x107040 64 = true ∧ (atSo 1 (lockH true) mD).canWrite 0x107040 64 = true ∧
    dataLeaf.pa ((soTask 1 (lockH true) mD).objectOf 1) = 0x107040 ∧ inPorts (0x107040 + 8) = false ∧
    (atLog 0x2080).canWrite (dataLeaf.pa 0x2080) 128 = true ∧ (∀ e ∈ (atLog 0x2080).slog, (atLog 0x2080).canWrite (dataLeaf.pa 0x2080) e.span = true) ∧
    (let s : State := (atLog 0x3000)
     s.walk (taskOf mD).ptroot 0x3000 = some constLeaf ∧ constLeaf.w = false) :=
  ⟨⟨by decide +kernel, noTlb (by decide +kernel)⟩, by decide +kernel⟩

/-- A trigger waits for an operation of each family: VVALID, VFADD, VDIV, VSUM, VCVT, VPERM. -/
theorem witness_StationOperationsGiveTheirResults : ∀ x ∈ [(Instr.vvalid ⟨1, 0, 0⟩, (⟨1, 0, 0⟩ : VArgs), 0x4#4, mV 1 0x20), (.vfadd ⟨2, 0, 0⟩, ⟨2, 0, 0⟩, 0x0#4, mV 2 0),
      (.vdiv ⟨4, 0, 0⟩, ⟨4, 0, 0⟩, 0x0#4, mV 4 0), (.vsum ⟨5, 0, 0⟩, ⟨5, 0, 0⟩, 0x0#4, mV 5 0), (.vcvtF32 ⟨6, 1, 0⟩, ⟨6, 1, 0⟩, 0x0#4, mV 6 1),
      (.vperm ⟨7, 0, 0⟩, ⟨7, 0, 0⟩, 0x0#4, mV 7 0)],
    Current (atx .k x.2.2.2) (taskOf x.2.2.2) x.2.2.2 ∧ stationOp x.1 = some (x.2.1, x.2.2.1) ∧ (∃ g, triggered x.2.2.2 x.2.1 x.2.2.1 g) ∧
      ∃ r, stationGives (taskOf x.2.2.2) x.2.2.2 ⟨0, 0, 0⟩ (latchesOf x.2.2.2 x.2.1.st.toNat) x.1 r := by
  intro x hx
  simp only [List.mem_cons, List.not_mem_nil, or_false] at hx
  rcases hx with rfl | rfl | rfl | rfl | rfl | rfl
  · exact ⟨cur_atx _ _, rfl, ⟨⟨1, 0x20, 0, ⟨0, 0, 0⟩, none⟩, by unfold triggered; decide +kernel⟩, _, .inl rfl⟩
  · exact ⟨cur_atx _ _, rfl, ⟨⟨2, 0, 0, ⟨0, 0, 0⟩, none⟩, by unfold triggered; decide +kernel⟩, _, .inl rfl⟩
  · exact ⟨cur_atx _ _, rfl, ⟨⟨4, 0, 0, ⟨0, 0, 0⟩, none⟩, by unfold triggered; decide +kernel⟩, _, .inl rfl⟩
  · exact ⟨cur_atx _ _, rfl, ⟨⟨5, 0, 0, ⟨0, 0, 0⟩, none⟩, by unfold triggered; decide +kernel⟩, _, .inr (.inl rfl)⟩
  · exact ⟨cur_atx _ _, rfl, ⟨⟨6, 1, 0, ⟨0, 0, 0⟩, none⟩, by unfold triggered; decide +kernel⟩, _, .inr (.inr (.inl rfl))⟩
  · exact ⟨cur_atx _ _, rfl, ⟨⟨7, 0, 0, ⟨0, 0, 0⟩, none⟩, by unfold triggered; decide +kernel⟩, _, .inr (.inr (.inr rfl))⟩

/-! ### Room in the drawer, the plane cache, lease numbers -/

theorem room (n : Nat) (h : n ≤ Config.storeFloor) : n ≤ Config.storeBytes 1 := Nat.le_trans h (Nat.le_add_right _ _)
theorem witness_SlotCommands_5 : (storeState store0 mD (prefixCmd (.slfork hd pr) [0])).bytesIn 1 + slot0.geom.tail ≤ Config.storeBytes 1 :=
  room _ (by decide +kernel)
/-- No number is in use: there is one for a lease of the node. -/
def nodeP : Node := { node0 2 with pages := [0x2000, 0x2001, 0x2002] }
def store2 : Store := { store0 with nodes := [(3, nodeP)] }
def leaseSt : State := storeState store2 mD (prefixCmd (.lease hd pr) [3, 0x10064])
theorem witness_LeaseAndNodeCommands_3 : (∃ id s', leaseSt.leaseId 6 = (some id, s')) ∧ leaseSt.bytesIn 1 + (node0 0).geom.block ≤ Config.storeBytes 1 := by
  refine ⟨⟨leaseSt.takeFree.1.toNat % 2 ^ 30 * 4 + 2, leaseSt.takeFree.2, ?_⟩, room _ (by decide +kernel)⟩
  have h (w : Nat) (hw : w % 4 = 2) : freeLease [] 2 w = some w := by
    have hn : w ≠ 4294967295 := by omega
    simp [freeLease, hn]
  have e : leaseSt.leaseId 6 = (freeLease [] 2 (leaseSt.takeFree.1.toNat % 2 ^ 30 * 4 + 2), leaseSt.takeFree.2) := rfl
  rw [e, h _ (by omega)]
/-- PROMO to the shelf: a share of 12, none of the node's lines in the plane cache, no set too small. -/
def shelfSt : State :=
  let s := storeState store2 mD (prefixCmd (.promo hd pr) [3, 0])
  { s with mgmt := { s.mgmt with cfg := { s.mgmt.cfg with pcs := 12 } } }
theorem sameSet_le (l : ShelfLine) (ls : List ShelfLine) : (l.sameSet ls).length ≤ (ls.map (·.slice)).countP (· == l.slice) := by
  rw [List.countP_map, List.countP_eq_length_filter, ShelfLine.sameSet]
  exact List.Sublist.length_le (List.monotone_filter_right _ (fun x hx => by simp at hx ⊢; exact hx.1))
theorem witness_LeaseAndNodeCommands_4 : let n := nodeP
    shelfSt.nodeOf 0 3 = some n ∧ shelfSt.mgmt.cfg.pcs.val ≠ 0 ∧ (∃ l ∈ shelfSt.nodeLines 3 n, l ∉ shelfSt.store.shelf) ∧
      ∀ l ∈ shelfSt.nodeLines 3 n, (l.sameSet shelfSt.store.shelf).length + (l.sameSet (shelfSt.nodeLines 3 n)).length ≤ Config.shelfWays := by
  refine ⟨by decide +kernel, by decide +kernel, ⟨_, List.mem_map.2 ⟨0, by decide +kernel, rfl⟩, by simp [shelfSt, storeState, store2, store0, State.reset, atWork, at_]⟩, fun l hl => ?_⟩
  have h : ∀ k ∈ (shelfSt.nodeLines 3 nodeP).map (·.slice),
      ((shelfSt.nodeLines 3 nodeP).map (·.slice)).countP (· == k) ≤ 16 := by decide +kernel
  have := h l.slice (List.mem_map_of_mem hl)
  have hs : (l.sameSet shelfSt.store.shelf).length = 0 := rfl
  have := sameSet_le l (shelfSt.nodeLines 3 nodeP)
  simp only [Config.shelfWays]; omega
theorem witness_BlockCommands_10 : (storeState { store0 with slots := [(0, slotFull)] } mD (prefixCmd (.seal hd pr 0) [0])).bytesIn 1 + slotFull.geom.block
    ≤ Config.storeBytes 1 := room _ (by decide +kernel)
/-- A copy whose parent stands here, with a name of its own, and one whose node is present. -/
def copySt : State := storeState { store0 with nodes := [(3, { node0 2 with name := 0 })] } mD replCmd0
where replCmd0 : Cmd := prefixCmd (.repl hd pr) [1, 0]
theorem witness_DirectoryAndCopies_6 : let x := nodeOfImage [9] 0 copySt.nowTick
    copySt.nodeNamed x.2 = some (3, { node0 2 with name := 0 }) ∧ copySt.permitted 0 (node0 2).root = true ∧ copySt.nodeNamed x.1.name = none ∧
      copySt.freeNode = some 0 ∧ (copySt.nodeNamed (nodeOfImage [] 0 copySt.nowTick).1.name).map (fun p => p.2.geom) = some (nodeOfImage [] 0 copySt.nowTick).1.geom ∧
      copySt.nodeNamed 5 = none ∧ copySt.bytesIn 1 + x.1.geom.block ≤ Config.storeBytes 1 :=
  ⟨by decide +kernel, by decide +kernel, by decide +kernel, by decide +kernel, by decide +kernel, by decide +kernel, room _ (by decide +kernel)⟩

/-- A fatal task at its barrier; one that is to be pre-empted there. -/
theorem witness_RegionsCommit_5 : ({ waitingTask with fatal := true } : Machine.Task).fatal = true ∧
    ({ waitingTask with state := .running, preemptReq := true } : Machine.Task).preemptReq = true ∧
    (∀ r ∈ ({ waitingTask with state := .running, preemptReq := true } : Machine.Task).replicas, r.atBarrier = true ∧ r.origin ≤ (at_ mD).cycle) ∧
    (let m : Member := { mEnd false with tq := (mEnd false).tq.set 3 [true] }
     (taskOf m).before = none) := by decide +kernel
/-- A commit in step 2 past its deadline, with the side log empty and not. -/
def step2Task (n : Nat) : Machine.Task := { charged n with commit := .step2 0 [] }
theorem witness_DecisionsAndDiscards_3 : (step2Task 11).commit = .step2 0 [] ∧ (step2Task 11).ending = none ∧ (step2Task 11).state = .running ∧
    (∃ r ∈ (step2Task 11).replicas, (step2Task 11).budget < r.charge ∧ (∀ x ∈ (step2Task 11).replicas, x.charge ≤ r.charge) ∧ r.holding = true) ∧
    (atLog 0x9000).logged 0 = true ∧ (at_ mD).logged 0 = false ∧ (step2Task 11).termReq = false := by decide +kernel
/-- A region whose members have all reached its end, and one that has not begun its commit; replicas that stopped alike. -/
theorem witness_DecisionsAndDiscards_4 : ({ preTask with members := [mEnd false] } : Machine.Task).begun 0 = true ∧ preTask.begun 0 = false ∧
    preTask.replicas.length = 1 ∧ (∀ r ∈ preTask.replicas, r.atBarrier = false) ∧
    (let f := (at_ mD).info mD cTrap 0 0 0
     ∀ r ∈ (deciding 1 [{ Replica.blank with stopped := some f }, { Replica.blank with stopped := some f }]).replicas, r.stopped = some f ∧ r.more = []) := by
  decide +kernel

/-- Records that are discarded or wait: a reservation, another kind, a reserved bit, a context that is not enabled, a misaligned header, a pool without room, edges
in a circle, a generation in use, earlier launches, an address no page maps, an object that is no barrier, a power state of 8. -/
theorem witness_LaunchRecords_5 : (⟨none, .task 0, some (0, 0), none⟩ : QEntry).record = none ∧ recKind (recOf 2 0 0 0) ≠ 1 ∧
    (recOf 33 0 0 0).extractLsb' 5 27 ≠ 0#27 ∧ (at_ mD).ctxEn 0 = false ∧ recWord (recOf 1 0x2001 0x3000 0x2040) 1 % 128 ≠ 0 ∧
    ({ atHead (recOf 1 0x2000 0x3000 0x2040) with tasks := [{ taskOf mD with poolBytes := 2 ^ 30 }] } : State).poolRoom 0 20480 = false ∧
    graphSound 2 [(0, 1), (1, 0)] = false ∧ graphSound 2 [(0, 1)] = true ∧
    (atHead (recOf 6 0x9000 5 0)).ctxPa 0 0x9000 true = none ∧ (atHead (recOf 6 0x2040 5 0)).loadNat 0x107040 1 ≠ 2 ∧ ¬ recWord (recOf 10 8 0 0) 1 < 8 ∧
    (∀ p ∈ (atHead (recOf 10 0 0 0)).power.spans, p = recWord (recOf 10 0 0 0) 1) ∧ (∃ p ∈ (atHead (recOf 10 7 0 0)).power.spans, p ≠ recWord (recOf 10 7 0 0) 1) ∧
    (∃ k ∈ [{ taskOf mD with queue := 5 }], k.queue = 5 ∧ k.graph = none ∧ k.ending = none) := by decide +kernel
def graphOf (gen : Nat) : Graph := ⟨0, 5, 0, 0, false, 0x2100, 0, gen, 2, [(0, 1)], [], [], [0], 0, 0, 0, 0, 0, false, false, none⟩
theorem witness_LaunchRecords_6 : let s : State := { atGraph (recOf 3 0x2100 0x3000 0) with graphs := [graphOf 1] }
    (∃ k ∈ s.graphs, k.retired = false ∧ k.ctx = (s.queueAt 5).ctx ∧ k.image = 0x2100 ∧ k.gen = 1) ∧ s.liveImages.contains ((s.queueAt 5).ctx, 0x2100) = true ∧
      (s.graphImage 0 0x2100).map (fun g => (g.1.gen, g.2)) = some (0, true) ∧ (atGraph (recOf 3 0x2100 0x3000 0)).mem.wf = true := by decide +kernel

/-- A task's record where it is no recovery service; a fatal task; a task that has ended, one whose commit waits, one that decides; a node not launched. -/
theorem witness_RecoveryRecords_2 : (⟨some (recOf 7 0 0xFFFF 0), .task 0, none, none⟩ : QEntry).tt = none ∧ (atHead (recOf 7 0 0xFFFF 0)).ctxField 0 40 8 = 0 ∧
    (let tk : Machine.Task := { taskOf mD with state := .suspended, members := [{ mD with held := [⟨qCmd 1 (.held cTranslation) (some 0), cTranslation, false⟩] }] }
     tk.state = .suspended ∧ tk.fatal = false ∧ (atRecord (recOf 7 0 0xFFFF 0) tk).slog = [] ∧ (atRecord (recOf 7 0 0xFFFF 0) tk).tasks[0]? = some tk) ∧
    ({ taskOf mD with ending := some .done } : Machine.Task).ending ≠ none ∧ (taskOf mD).ending = none ∧
    (let s : State := { atRecord (recOf 9 0 0xFFFF 0) (step2Task 0) with slog := (atLog 0x9000).slog }
     s.logged 0 = true ∧ (step2Task 0).termReq = false ∧ (step2Task 0).commit = .step2 0 []) ∧ (deciding 1 []).commit = .deciding ∧
    (let s : State := { atRecord (recOf 9 0 1 0) (taskOf mD) with graphs := [graphOf 0] }
     s.graphs[0]? = some (graphOf 0) ∧ (graphOf 0).seq = recWord (recOf 9 0 1 0) 1 ∧ recWord (recOf 9 0 1 0) 2 < (graphOf 0).nnode ∧
       recWord (recOf 9 0 1 0) 2 ∉ (graphOf 0).doneNodes ++ (graphOf 0).liveNodes ++ (graphOf 0).failedNodes ∧ (taskOf mD).node ≠ 1) := by decide +kernel

/-- An entry of the time-triggered table that is active and may be set pending; an idle span; a state with nothing to do for a core reserved. -/
theorem witness_Dispatch_5 : (atSlot.ttSet 0 3 true).ttBit 0 3 = true ∧ (atSlot.ttSet 0 3 true).ttDue 0 = 1 ∧ (atSlot.ttSet 0 3 true).ttBit 0 1 = false ∧
    ({ atSlot with time := { atSlot.time with ns := 100 } } : State).ttDue 0 = 0 ∧ (∀ k ∈ State.reset.tasks, k.placed = true → ∀ m ∈ k.members, m.core / 8 ≠ 3) := by
  decide +kernel

/-- A time message of the configured reference, and one of another; a REPL whose lease is lost with sync; device time at the end of sync. -/
theorem witness_TimeAndLeases_2 : State.reset.mgmt.cfg.timeRef = State.reset.mgmt.cfg.timeRef ∧ (∃ r : TimeRef, State.reset.mgmt.cfg.timeRef ≠ r) ∧
    ({ State.reset with mgmt := { State.reset.mgmt with cfg := { State.reset.mgmt.cfg with ndom := 2 } } } : State).inDomain 1 = true := by
  refine ⟨rfl, ?_, by decide +kernel⟩
  cases h : State.reset.mgmt.cfg.timeRef
  · exact ⟨.host, by decide⟩
  · exact ⟨.ptp, by decide⟩
  · exact ⟨.ptp, by decide⟩
theorem witness_TimeAndLeases_3 : let s := atFab { State.reset.fabric with held := [leaseR] } 2000 (.num 0)
    let s1 : State := { s with time := { s.time with offset := 1000 } }
    s1.time.inSync = true ∧ 1000 ≤ s1.time.offset ∧ s1.fabric.held = [leaseR] ∧ Served s1 0 0 (taskOf (withCmd mD replCmd)) (withCmd mD replCmd) replCmd ∧
      replCmd.seq = leaseR.cmd := ⟨rfl, by decide, rfl, ⟨rfl, rfl, rfl, rfl, (by decide +kernel : (taskOf mD).replicated = false)⟩, rfl⟩
/-- The last nanosecond of a remote lease that may be used, and the one after it. -/
theorem witness_DirectoryAndCopies_7 : ∀ ns ∈ [4191304, 4191305], Served (atFab { State.reset.fabric with held := [leaseR] } ns (.num 0)) 0 0
      (taskOf (withCmd mD replCmd)) (withCmd mD replCmd) replCmd ∧ (ns ≤ leaseR.sent + leaseR.ticks * 1024 - 4000 ↔ ns = 4191304) := by
  intro ns h
  rcases List.mem_pair.mp h with rfl | rfl <;> exact ⟨served _ _ _, by decide⟩

/-- A timed word whose idle count has not run out and one whose has: IDLE 2 in L. -/
def atTimed (base : Nat) : State :=
  let s := State.reset.withFetchWord 96 0x000000000000002000098109
  { s with tasks := s.tasks.map fun t => { t with members := t.members.map fun m => m.setStr .l { m.str .l with base } } }
theorem witness_StepRunsTheDecodedInstruction_3 : (atTimed 64).agenda.head? = some (.issue 0 0 .l) ∧ idleOf .l 0x000000000000002000098109#96 = 2 ∧
    (atTimed 64).cycle = 64 ∧ ¬ (64 + 2 ≤ (atTimed 64).cycle) ∧ 62 + 2 ≤ (atTimed 62).cycle ∧ unitsOf 0x000000000000002000098109#96 = 1 ∧
    (decodeTimed .l 0x000000000000002000098109#96 0).toOption.isSome = true := by decide +kernel

/-! ## Words the spec writes out (files 4, 7 to 11, 21 to 25): their fields as the spec's tables beside them give them -/

theorem test_decode_gath : decodeTimed .l 0x1F8C00000000248318850900#96 0#96 =
    .ok (.gathTowin ⟨0, 5, 2, 6, 3⟩ 2 4 0xC000 63) := by decide +kernel
theorem test_decode_vchain : decodeTimed .k 0x000000020812880050000403#96 0x8420A#96 =
    .ok (.vchain ⟨0, 0x14000, 0x14400, 1, 8, [⟨2, 0x10⟩, ⟨4, 0x10⟩]⟩) := by decide +kernel
theorem test_decode_mma : decodeTimed .k 0x3FFFBFCCC1900001E4004043#96 2#96 =
    .ok (.mma ⟨0, 1, 0x1E400, 0, 0, 0x32000, 0, 0, 3, 3, 255, 127, 255, 0, 0, 0, 0, 0, 0, 0, 0⟩) := by decide +kernel
theorem test_decode_bsel : decodeTimed .l 0x00000001408280001C003800#96 0#96 = .ok (.bsel ⟨0, 0, 0, 7, 0⟩ ⟨0xA00, 0xA04⟩) := by decide +kernel
theorem test_decode_bundle : decodeTimed .k 0x19C63001381D418198710008#96 0#96 =
    .ok (.bundle 2 ⟨0, 0, 0x071, 0x066⟩ ⟨0x18, 0, 0x075, 0x138⟩ ⟨0, 0, 0x063, 0x067⟩) := by decide +kernel
theorem test_decode_loopk : decodeTimed .l 0x00000000000000200000C101#96 0#96 = .ok (.loopk 0 1 1 64) := by decide +kernel
theorem test_bundle_in_l_illegal : (decodeTimed .l 0x19C63001381D418198710008#96 0#96).toOption = none := by decide +kernel

/-! ## Single steps -/

/-- The current member after an instruction. -/
def after (i : Instr) (s : State) : Option Member := match exec i s with
  | .next t => t.member? 0 0
  | _ => none
/-- Register g5 after an instruction on g3 = x and g4 = y. -/
def g5 (i : Instr) (x y : W64) : Option Scalar := (after i (at_ (reg 3 x false (reg 4 y false mem0)))).map fun m => m.rd 5

-- R122 to R125: results by hand from the rules.
theorem test_add_wraps : g5 (.add 5 3 4) (-1) 1 = some ⟨0, false⟩ := by decide +kernel
theorem test_sub : g5 (.sub 5 3 4) 1 2 = some ⟨-1, false⟩ := by decide +kernel
theorem test_mul_low : g5 (.mul 5 3 4) 0x100000001 0x100000001 = some ⟨0x200000001, false⟩ := by decide +kernel
theorem test_mulh_signed : g5 (.mulh 5 3 4) (-1) 2 = some ⟨-1, false⟩ := by decide +kernel
theorem test_mulhz : g5 (.mulhz 5 3 4) (-1) 2 = some ⟨1, false⟩ := by decide +kernel
theorem test_div_truncates : g5 (.div_ 5 3 4) (-7) 2 = some ⟨-3, false⟩ := by decide +kernel
theorem test_div_zero : g5 (.div_ 5 3 4) 7 0 = some ⟨-1, false⟩ := by decide +kernel
theorem test_rem_sign : g5 (.rem_ 5 3 4) (-7) 2 = some ⟨-1, false⟩ := by decide +kernel
theorem test_remz_zero : g5 (.remz 5 3 4) 7 0 = some ⟨7, false⟩ := by decide +kernel
theorem test_shl_mod_64 : g5 (.shl 5 3 4) 1 65 = some ⟨2, false⟩ := by decide +kernel
theorem test_sra : g5 (.sra 5 3 4) (-8) 1 = some ⟨-4, false⟩ := by decide +kernel
theorem test_min_signed : g5 (.min 5 3 4) (-1) 1 = some ⟨-1, false⟩ := by decide +kernel
theorem test_minz_unsigned : g5 (.minz 5 3 4) (-1) 1 = some ⟨1, false⟩ := by decide +kernel
theorem test_clz_zero : g5 (.clz 5 3) 0 0 = some ⟨64, false⟩ := by decide +kernel
theorem test_popc : g5 (.popc 5 3) 0xF0F 0 = some ⟨8, false⟩ := by decide +kernel
theorem test_lea : g5 (.lea 5 3 4 3) 0x1000 2 = some ⟨0x1010, false⟩ := by decide +kernel
theorem test_lih : g5 (.lih 5 3 0xFFFF) 0x1234 0 = some ⟨0x1234FFFF, false⟩ := by decide +kernel
theorem test_addi_negative : g5 (.addi 5 3 0xFFFF) 0 0 = some ⟨-1, false⟩ := by decide +kernel
theorem test_slt_signed : g5 (.slt 5 3 4) (-1) 0 = some ⟨1, false⟩ := by decide +kernel
theorem test_sltz_unsigned : g5 (.sltz 5 3 4) (-1) 0 = some ⟨0, false⟩ := by decide +kernel
theorem test_write_g0 : ((after (.add 0 3 4) (at_ mD)).map fun m => m.rd 0) = some ⟨0, false⟩ := by decide +kernel
theorem test_poison_spreads : ((after (.add 5 3 4) (at_ mP)).map fun m => (m.rd 5).poison) = some true := by decide +kernel
-- R126: the bytes 80 11 22 33 ... at 0x2000.
theorem test_ldb : g5 (.ldb 5 4 0) 0 0x2000 = some ⟨0x80, false⟩ := by decide +kernel
theorem test_ldbs : g5 (.ldbs 5 4 0) 0 0x2000 = some ⟨0xFFFFFFFFFFFFFF80, false⟩ := by decide +kernel
theorem test_ldh_little_endian : g5 (.ldh 5 4 0) 0 0x2000 = some ⟨0x1180, false⟩ := by decide +kernel
theorem test_ldws : g5 (.ldws 5 4 12) 0 0x2000 = some ⟨0xFFFFFFFFFFEEDDCC, false⟩ := by decide +kernel
-- R131, R132: targets from the word's own address 0x1000.
theorem test_blt_back : ((after (.blt 3 4 0xFFFF) (at_ mD)).map fun m => (m.str .c).pc) = some 0xFFC := by decide +kernel
theorem test_jal_links : ((after (.jal 5 2) (at_ mD)).map fun m => ((m.rd 5).val, (m.str .c).pc)) = some (0x1004, 0x1008) := by decide +kernel

/-- The first element of the result of a station operation on rows of one word each, and its flags. -/
def q0 (i : Instr) (st : Nat) (op : BitVec 7) (a b t : W32) : Option (W32 × BitVec 6) :=
  let row (x : W32) : Row := List.replicate 128 (.ord x)
  let m : Member := { mV st op with la := setVec mD.la st (row a), lb := setVec mD.lb st (row b), lt := setVec mD.lt st (row t) }
  (after i (atx .k m)).bind fun m => (m.results.head?).bind fun r => (r.data.head?).map fun c => (c.data, r.flags)
-- R163, R165: per element, modulo 2^w and saturated; R70 to R75: 1 + 1 = 2, and A x T + B: 3 x 1 + 2 = 5.
theorem test_vadd_bytes : q0 (.vadd ⟨0, 0, 0⟩) 0 0 0xFF7F01FF 0 0x01010101 = some (0x00800200, 0) := by decide +kernel
theorem test_vadds_signed : q0 (.vadds ⟨0, 0, 0⟩) 0 0x10 0x7F80FF01 0 0x01FF0101 = some (0x7F800002, 0) := by decide +kernel
theorem test_vfadd : q0 (.vfadd ⟨2, 0, 0⟩) 2 0 0x3F800000 0 0x3F800000 = some (0x40000000, 0) := by decide +kernel
theorem test_vfma : q0 (.vfma ⟨2, 0, 0⟩) 2 0x18 0x40400000 0x40000000 0x3F800000 = some (0x40A00000, 0) := by decide +kernel

/-! ## Witnesses: faults through the aperture, fences of the engines, several faults in a cycle -/

/-- A store through the aperture outside the allocation, and one into a frozen row. -/
theorem witness_LoadAndStoreFaults_10 :
    (let m := reg 4 0x01FFFFFFFFF60000 false (reg 3 7 false mem0)
     Current (at_ m) (taskOf m) m ∧ storeForm (.stw 3 4 0) = some ⟨3, 4, 0, 4⟩ ∧ (m.rd 4).poison = false ∧ (effAddr m 4 0).toNat % 4 = 0 ∧
       inAperture (effAddr m 4 0).toNat = true ∧ inAlloc (taskOf m).spadN (apertureOf (effAddr m 4 0)) = false) ∧
    let m : Member := { mA with frozen := [0] }
    Current (at_ m) (taskOf m) m ∧ (m.rd 4).poison = false ∧ (effAddr m 4 0).toNat % 4 = 0 ∧ inAperture (effAddr m 4 0).toNat = true ∧
      inAlloc (taskOf m).spadN (apertureOf (effAddr m 4 0)) = true ∧ m.frozen.contains (apertureOf (effAddr m 4 0) / 512) = true :=
  ⟨⟨cur_at _, rfl, by decide +kernel⟩, cur_at _, by decide +kernel⟩

/-- A COPY of L falls under er; one of S, and what S has logged, under ew; a command deferred to the commit under neither. -/
theorem witness_FencesAndRegionEnds_2 :
    let c (x : Stream) (st : CmdState) : Cmd := { cmdOf x copyI (descAt 0x2000 4 0) none 0 [] with state := st }
    let m (x : Stream) (st : CmdState) : Member := { mD with cmds := [c x st] }
    Current (at_ (m .l (.active 100))) (taskOf (m .l (.active 100))) (m .l (.active 100)) ∧
      fenceBlocked (at_ (m .l (.active 100))) (m .l (.active 100)) 4 = true ∧ fenceBlocked (at_ (m .l (.active 100))) (m .l (.active 100)) 8 = false ∧
      fenceBlocked (at_ (m .s .queued)) (m .s .queued) 8 = true ∧ fenceBlocked (at_ (m .s .queued)) (m .s .queued) 4 = false ∧
      fenceBlocked (at_ (m .s .deferred)) (m .s .deferred) 8 = false ∧
      fenceBlocked { at_ mD with slog := [⟨0, 0, 0, 0, 0, 0x9000, [(0, 1)], .write, some 3, 0, 0⟩] } mD 8 = true ∧ fenceBlocked (at_ mD) mD 8 = false :=
  ⟨cur_at _, by decide +kernel⟩

/-- A follower's stalled RNG and SRRD of SR.BUDGET with an echo. -/
theorem witness_Echoes_3 : ∀ i ∈ [Instr.rng 5, .srrd 5 6],
    let f : Member := { follower mD with stall := some i, echoes := [⟨.c, 0x1000, 7, []⟩] }
    Current (atDual mD f 1) (dual mD f) f ∧ f.lead = false ∧ f.stall = some i ∧ ∃ e b, f.takeEcho .c = some (e, b) ∧ e.addr = (f.str .c).pc := by
  intro i h
  rcases List.mem_pair.mp h with rfl | rfl <;> exact ⟨⟨rfl, rfl⟩, by decide +kernel, rfl, ⟨.c, 0x1000, 7, []⟩, _, rfl, by decide +kernel⟩

/-- A schedule fault of a dual task in the cycle in which a fault has stopped its follower; a record that waits; a task with none. -/
theorem witness_TakingAFault_3 :
    let f := (at_ mD).info (follower mD) cTrap 0 0 0
    let tk : Machine.Task := { dual mD (follower mD) with
      replicas := [{ Replica.blank with holding := true }, { Replica.blank with holding := true, stopped := some f, stopCycle := 100 }] }
    let s : State := { atDual mD (follower mD) 0 with tasks := [tk], recs := [⟨0, f, none⟩] }
    s.tasks[0]? = some tk ∧ tk.replicated = true ∧ tk.before = none ∧ ((at_ mD).info mD cSchedule 0 1 0).cause = cSchedule ∧
      tk.stoppedIn s.cycle = [f] ∧ (taskOf mD).stoppedIn 100 = [] ∧ (∀ r ∈ s.recs, s.tasks[r.task]? = some tk) ∧ s.recs ≠ [] := by decide +kernel

/-- Jobs of the array whose time has come: a multiply of one group, one of two, one with a scale, and MDRAIN to FP16. -/
theorem witness_ArrayWrites_2 :
    let x : List Container := List.replicate 16 (.ord 0x01010101)
    let j2 : Job := { ji 10 with f := { (ji 10).f with km1 := 63 }, opA := some (x, []), opB := some (x, []) }
    let jx : Job := { ji 3 with mop := 1, f := { (ji 3).f with mxa := 1, mxb := 1 }, opA := some (x, [.ord 0x7F]), opB := some (x, [.ord 0x7F]) }
    let jh : Job := { jd with f := { jd.f with dfmt := 1 } }
    (∀ j ∈ [ji 10, j2, jx], 1 ≤ j.mop ∧ j.mop ≤ 4 ∧ j.opA.isSome = true ∧ j.opB.isSome = true) ∧
    (∀ j ∈ [ji 10, j2, jx, jh], Current (atx .k { mD with jobs := [j] }) (taskOf { mD with jobs := [j] }) { mD with jobs := [j] } ∧
      ({ mD with jobs := [j] } : Member).jobs.find? (fun k => k.due 100) = some j) ∧ jh.mop = 7 ∧
    ∀ rb d, ∃ r, drained jh.f rb d = some (2, r) := by
  refine ⟨by decide +kernel, fun j hj => ⟨cur_atx _ _, ?_⟩, rfl, fun rb d => ⟨_, rfl⟩⟩
  simp only [List.mem_cons, List.not_mem_nil, or_false] at hj
  rcases hj with rfl | rfl | rfl | rfl <;> decide +kernel

/-- GLOAD of a dual task: queued and deferred. -/
def mG : Member := { mE with spad := (List.range 8).map fun i => (0x30 + i, .ord 0) }
theorem witness_EngineCommandsIssue_7 :
    let tk : Machine.Task := { dual mG (follower mG) with ctx := 0 }
    let s : State := { atDual mG (follower mG) 0 with cur := ⟨0, 0, .s, .issue, 0, 0x1000, 0⟩ }
    Current s tk mG ∧ mG.lastAcc = false ∧ mG.dwq.length < 64 ∧ ∃ f, cmdForm .s (.gload hd ⟨0x00C, 0x026⟩ 0) = some f ∧ hdrLegal tk f.hdr = true ∧
      f.legal tk mG = true ∧ f.hdr.wcnt = 0#4 ∧ (mG.queued .s).length < 16 ∧ f.room mG = true ∧
      f.checks s tk mG = none ∧ f.fate tk = .twice :=
  ⟨⟨rfl, rfl⟩, rfl, by decide +kernel, _, rfl, by decide +kernel⟩
/-- The barrier's line may be read and written: its count can be added to. -/
theorem witness_CommandsStartAndComplete_7 : (atSo 1 (barH 7 false) mE).objectOk 0x107080 = true := by decide +kernel

/-- A device whose stacks serve; and one whose stacks have failed. -/
theorem sound_store (st : Store) (m : Member) (c : Cmd) : (storeState st m c).sound := by
  refine ⟨by rfl, ?_, by rfl⟩
  simp only [storeState, State.wrMem, atWork, at_, tables]
  decide +kernel
/-- A tail of one row: its lines are read without an error, or with one in the first. -/
def slotRows : SeqSlot := { slotTwo with tail := { slotTwo.tail with lfill := [1] }, tailn := 1, tok := 1 }
def rowsStore : Store := { store0 with slots := [(0, slotRows), (1, slotRows)] }
def forkCmd : Cmd := prefixCmd (.slfork hd pr) [0]
def failed : State := { storeState rowsStore mD forkCmd with hbm := List.replicate 12 { Stack.reset with mode := 5 } }
theorem failed_slot : failed.slotOf 0 0 = some slotRows := by decide +kernel
theorem tail_read (st : Store) (m : Member) (c : Cmd) (fill : Bool) (ls : List ShelfLine)
    (h : ∀ l ∈ ls, l.tail = true ∧ ((st.slots.find l.owner).map (·.homeDie)).getD 0 < 4) :
    ∃ s0, (storeState st m c).readLines 1 fill ls = (none, s0) := by
  obtain ⟨s0, e, _⟩ := State.readLines_sound 1 fill ls (storeState st m c) (sound_store st m c) fun l hl => State.tailLine_inStack 1 (h l hl).1 (h l hl).2
  exact ⟨s0, e⟩
theorem wholeTail_of {s : State} {tk : Machine.Task} {c : Cmd} {x : SeqSlot} (h : s.slotOf tk.ctx (c.w 0) = some x) :
    s.wholeTail tk c = s.tailRows (c.w 0) x := by unfold State.wholeTail; rw [h]
theorem witness_SlotCommands_6 : let s := storeState rowsStore mD forkCmd
    s.slotOf (taskOf mD).ctx (forkCmd.w 0) = some slotRows ∧ ∃ s0, linesRead s (s.wholeTail (taskOf mD) forkCmd) s0 := by
  have e : (storeState rowsStore mD forkCmd).slotOf (taskOf mD).ctx (forkCmd.w 0) = some slotRows := by decide +kernel
  refine ⟨e, tail_read rowsStore mD forkCmd false _ fun l hl => ?_⟩
  rw [wholeTail_of e] at hl
  have := State.tailRows_of _ _ _ l hl
  exact ⟨this.1, by rw [this.2]; decide⟩
theorem witness_SlotCommands_7 : failed.slotOf (taskOf mD).ctx (forkCmd.w 0) = some slotRows ∧
    ∃ pa s0, failed.readLines 1 false (failed.wholeTail (taskOf mD) forkCmd) = (some pa, s0) := by
  have e : failed.slotOf (taskOf mD).ctx (forkCmd.w 0) = some slotRows := by decide +kernel
  refine ⟨e, ?_⟩
  rw [wholeTail_of e]
  cases h : failed.tailRows (forkCmd.w 0) slotRows with
  | nil => exact absurd h (List.isEmpty_eq_false_iff.1 (by decide +kernel))
  | cons l r =>
    have m := State.tailRows_of failed (forkCmd.w 0) slotRows l (h ▸ List.mem_cons_self ..)
    exact ⟨_, _, State.readLines_failed 1 false l r _ (fun st hs => by rw [failed, List.mem_replicate] at hs; rw [hs.2])
      (State.tailLine_inStack 1 m.1 (by rw [m.2]; decide) 0 (by decide)) (by rw [if_pos m.1]; rfl)⟩
/-- KAPP after the row at position 0 of a grain; SEAL of a full tail. -/
theorem witness_BlockCommands_11 : let c := prefixCmd (.kapp hd pr) [0, 0, 1, 1, 0, 32, 64, 0, slotRows.geom.word]
    let s := storeState rowsStore mRows c
    s.slotOf (taskOf mD).ctx (c.w 0) = some slotRows ∧ c.w 2 = slotRows.tail.lfill.getD (c.w 1) 0 ∧ c.w 2 % 16 ≠ 0 ∧
      ∃ s0, linesRead s (s.grainBegun (taskOf mD) c) s0 := by
  intro c s
  have e : s.slotOf (taskOf mD).ctx (c.w 0) = some slotRows := by decide +kernel
  refine ⟨e, by decide +kernel, by decide +kernel, tail_read rowsStore mRows c false _ fun l hl => ?_⟩
  unfold State.grainBegun at hl
  rw [e] at hl
  simp only [List.mem_eraseDups, List.mem_flatMap] at hl
  obtain ⟨i, _, h⟩ := hl
  have := State.tailLines_of _ _ _ _ _ _ l (List.mem_append_left _ h)
  exact ⟨this.1, by rw [this.2]; decide⟩
def fullStore : Store := { store0 with slots := [(0, slotFull)] }
theorem witness_BlockCommands_12 : let c := prefixCmd (.seal hd pr 0) [0]
    let s := storeState fullStore mD c
    s.slotOf (taskOf mD).ctx (c.w 0) = some slotFull ∧ (∃ s0, linesRead s (s.wholeTail (taskOf mD) c) s0) ∧
      s.store.dieRoom slotFull.homeDie slotFull.geom.pages = true := by
  intro c s
  have e : s.slotOf (taskOf mD).ctx (c.w 0) = some slotFull := by decide +kernel
  refine ⟨e, tail_read fullStore mD c false _ fun l hl => ?_, by decide +kernel⟩
  rw [wholeTail_of e] at hl
  have := State.tailRows_of _ _ _ l hl
  exact ⟨this.1, by rw [this.2]; decide⟩
/-- CPACT of one position of a tail, its lines read. -/
def cpactSt : State := storeState rowsStore mRows cpactCmd
theorem witness_BlockCommands_13 : cpactSt.slotOf (taskOf mD).ctx (cpactCmd.w 1) = some slotRows ∧ cpactCmd.out.length = 4 ∧ cpactCmd.kept = none ∧
    geomOfWord slotRows.geom.word.toNat = slotRows.geom ∧ cpactCmd.w 3 ≤ 256 ∧
    ∃ s0, cpactReading cpactSt (taskOf (withCmd mRows cpactCmd)) (withCmd mRows cpactCmd)
      (cpactSt.cpactStart (taskOf (withCmd mRows cpactCmd)) (withCmd mRows cpactCmd) cpactCmd) = (.ok, withCmd mRows cpactCmd, s0) := by
  refine ⟨by decide +kernel, by decide +kernel, rfl, by decide +kernel, by decide +kernel, ?_⟩
  have k : (cpactSt.cpactStart (taskOf (withCmd mRows cpactCmd)) (withCmd mRows cpactCmd) cpactCmd).kept = some ⟨[], 1, slotRows.tail, slotRows.geom.word, 0⟩ := by
    decide +kernel
  unfold cpactReading
  rw [show (withCmd mRows cpactCmd).replayFor _ 4 = none from rfl, k]
  refine readGrains_tails _ _ _ _ _ cpactSt (sound_store ..) fun g hg => ?_
  have h := cpactSt.cpactReads_tails _ _ rfl g (List.mem_filter.1 hg).1
  exact ⟨h.1, fun l hl => ⟨(h.2 l hl).1, by rw [(h.2 l hl).2]; decide +kernel⟩⟩
/-- BSEL of a grain of a tail; PGATH of a row of a tail and of a node, their lines read. -/
theorem witness_SelectionCommands_4 : let c := prefixCmd (.bsel hd pr) [0, 0, 1, 0x10000, 0, 0x10001, 0, 64, slotRows.geom.word]
    let s := storeState rowsStore mRows c
    let mem := withCmd mRows c
    s.bselSlot (taskOf mem) mem c = some slotRows ∧ s.swin (taskOf mem).ctx = 0 ∧ c.kept = none ∧
      ∃ s0, readGrains (taskOf mem) (s.bselStart (taskOf mem) mem c) (s.bselReads (s.mapping slotRows) (bselPrm c.out)) (s.bselReads (s.mapping slotRows) (bselPrm c.out))
        s mem = (.ok, mem, s0) := by
  intro c s mem
  refine ⟨by decide +kernel, by decide +kernel, rfl, readGrains_tails _ _ _ _ _ s (sound_store ..) fun g hg => ?_⟩
  have k : s.mapping slotRows = ⟨[], 1, slotRows.tail, slotRows.geom.word, 0⟩ := by decide +kernel
  rw [k] at hg
  have h := s.bselReads_tails _ _ rfl g hg
  exact ⟨h.1, fun l hl => ⟨(h.2 l hl).1, by rw [(h.2 l hl).2]; decide +kernel⟩⟩
def gathStore : Store := { rowsStore with nodes := [(3, node0 2)] }
theorem witness_SelectionCommands_5 : let c := pgCmd 0 keptTail
    let s := storeState gathStore mRows c
    let q := pgathPrm c.out
    (∃ s0, s.readLines 1 true (s.tailLines q.slot keptTail.slot q.vals q.layer 0) = (none, s0)) ∧
    let at_ := s.reach 3 (node0 2) (s.pgathNeed (withCmd mRows c) c keptBlock 3 (node0 2) 0) s.cur.task s.cur.member c.seq
    ∃ s0, at_.2.readLines at_.1 true (s.rowLines 3 (node0 2) q.vals q.layer 0 q.h0 q.nh) = (none, s0) := by
  intro c s q
  refine ⟨tail_read gathStore mRows c true _ fun l hl => ?_, ?_⟩
  · have := State.tailLines_of _ _ _ _ _ _ l (List.mem_append_left _ hl)
    exact ⟨this.1, by rw [this.2]; decide⟩
  · exact State.rowLines_read _ _ _ _ _ _ _ _ _ (sound_store ..) rfl (by decide +kernel) (by decide +kernel) fun i o ho => by
      simp only [node0, List.getD_nil]
      unfold inStack Config.stackBytes
      omega

/-! ## Witnesses: objects, records, late answers, flits, the boot -/

/-- A barrier object that can be added to; a lock's object is none; a row of a log whose page is not mapped does not fail by its tables. -/
theorem witness_LaunchRecords_7 : (atHead (recOf 6 0x2080 5 0)).objectOk 0x107080 = true ∧ (atHead (recOf 6 0x2080 5 0)).loadNat 0x107080 1 = 2 ∧
    (let s : State := { atHead (recOf 6 0x2080 5 0) with hbm := List.replicate 12 { Stack.reset with mode := 5 } }
     s.objectOk 0x107080 = false) ∧
    (atLog 0x9000).missCause (taskOf mD).ptroot 0x9000 ≠ 0x0E := by decide +kernel
theorem witness_RegionsCommit_6 : (∀ f ∈ (at_ (mEnd true)).recs, f.task ≠ 0) ∧ (at_ (mEnd true)).cur.task = 0 := by decide +kernel

/-- A record of the recovery service of the context: SVCHDR is the header of the task that wrote it; the same record from another task. -/
def svcTask : Machine.Task := { taskOf mD with hdrVA := 0x5000 }
def atService (r : BitVec 512) (w : Machine.Task) : State :=
  { (atHead r).wrMem 0x200028 (leBytes 8 0x5000) with
      queues := [(5, { Queue.reset with cfg := 0x8A001, entries := [⟨some r, .task 1, none, none⟩] })]
      tasks := [{ taskOf mD with state := .suspended }, w] }
theorem witness_RecoveryRecords_3 : ∀ w ∈ [svcTask, taskOf mD], let s := atService (recOf 7 0 0xFFFF 0) w
    HeadRecord s 5 7 ⟨some (recOf 7 0 0xFFFF 0), .task 1, none, none⟩ (recOf 7 0 0xFFFF 0) ∧ s.tasks[1]? = some w ∧
      s.ctxField 0 40 8 = 0x5000 ∧ (w.hdrVA.toNat = 0x5000 ↔ w = svcTask) ∧ s.slog = [] ∧ (∃ tk, s.tasks[0]? = some tk ∧ tk.state = .suspended ∧
        tk.fatal = false ∧ tk.seq = 0 ∧ tk.node = 0xFFFF ∧ tk.ctx = 0) := by
  intro w hw
  rcases List.mem_pair.mp hw with rfl | rfl
  · exact ⟨⟨rfl, by decide +kernel, rfl, by decide +kernel, by decide +kernel, by decide +kernel⟩, rfl, by decide +kernel, by decide +kernel, rfl,
      { taskOf mD with state := .suspended }, rfl, by decide +kernel⟩
  · exact ⟨⟨rfl, by decide +kernel, rfl, by decide +kernel, by decide +kernel, by decide +kernel⟩, rfl, by decide +kernel, by decide +kernel, rfl,
      { taskOf mD with state := .suspended }, rfl, by decide +kernel⟩

/-- A grant that answers a request counted as a miss, and DATA of another lease than the one a READ waits with. -/
theorem witness_DirectoryAndCopies_8 : let s := atFab { State.reset.fabric with late := [reqOf .rlease], reqs := [reqOf .read] } 2000 (.msg (.rlgrant 9 1 7 64))
    s.fabric.late = [reqOf .rlease] ∧ (reqOf .rlease).kind = .rlease ∧ (∀ q ∈ s.fabric.reqs, q.kind ≠ .rlrenew) ∧
      s.arg = .msg (.rlgrant (reqOf .rlease).name (reqOf .rlease).dest 7 64) ∧
      (∀ q ∈ s.fabric.reqs, q.kind = .read → q.dest = 1 → q.lease ≠ 8) ∧ (reqOf .read).lease = 7 :=
  ⟨rfl, rfl, by decide, rfl, by decide, rfl⟩

/-- The flit that is next in sequence, the one after it, and one whose CRC is wrong; a bank parked, one at the march and one whose row has a spare. -/
def flitHead (n : Nat) : List Byte := [3, 0] ++ leBytes 3 1 ++ leBytes 3 0 ++ leBytes 4 n ++ List.replicate 236 0
def flitOf (n : Nat) (crc : W64) : List Byte := flitHead n ++ leBytes 8 crc.toNat
theorem flitHead_length (n : Nat) : (flitHead n).length = 248 := by unfold flitHead; simp only [List.length_append, List.length_cons, List.length_nil, length_leBytes, List.length_replicate]
theorem flitOf_crc (n : Nat) (c : W64) : leNat ((flitOf n c).drop 248) = c.toNat ∧ (flitOf n c).take 248 = flitHead n := by
  have h := flitHead_length n
  refine ⟨?_, by unfold flitOf; rw [← h, List.take_left]⟩
  unfold flitOf
  rw [show (flitHead n ++ leBytes 8 c.toNat).drop 248 = leBytes 8 c.toNat by rw [← h, List.drop_left], leNat_leBytes]
  exact Nat.mod_eq_of_lt c.isLt
theorem witness_StacksAndPorts_3 (n : Nat) : let good := crc64 0 (flitHead n)
    (flitOf n good).length = 256 ∧ leNat ((flitOf n good).drop 248) = (crc64 0 ((flitOf n good).take 248)).toNat ∧
      leNat ((flitOf n (good + 1)).drop 248) ≠ (crc64 0 ((flitOf n (good + 1)).take 248)).toNat := by
  intro good
  refine ⟨by simp only [flitOf, List.length_append, flitHead_length, length_leBytes], ?_, ?_⟩
  · rw [(flitOf_crc n good).1, (flitOf_crc n good).2]
  · rw [(flitOf_crc n _).1, (flitOf_crc n _).2]
    intro h
    have e : good + 1 = good := BitVec.eq_of_toNat_eq h
    bv_omega
theorem witness_StacksAndPorts_5 : leNat (((flitHead 5).drop 8).take 4) = 5 ∧ leNat (((flitHead 6).drop 8).take 4) ≠ 5 := by decide +kernel
theorem witness_StacksAndPorts_4 : (∃ p ∈ ({ Stack.reset with parked := [(1, 2)] } : Stack).parked, 64 * p.1 + p.2 = 66) ∧
    (inTest .march).test = some ⟨1, 2, .march, 90, [7]⟩ ∧ (66, 5) ∈ ({ Stack.reset with area := [(66, 5)] } : Stack).area ∧
    (66, 6) ∉ ({ Stack.reset with area := [(66, 5)], hard := [(66, 6)] } : Stack).area ∧ ({ Stack.reset with mode := 5 } : Stack).mode ≠ 2 := by decide +kernel

/-- A boot that ends READY with a stack that fails, one that fails at its second step, and one whose digests are too few; mailbox requests of one
register and of none; a clamp of the last die and of no die. -/
theorem witness_ManagementCore_2 : (∃ s : State, s.arg = .boot [1, 2, 3] none [] [4] true ∧ 2 ≤ ([1, 2, 3] : List (BitVec 384)).length) ∧
    (∃ s : State, s.arg = .boot [] (some 2) [] [] true) ∧ (∃ s : State, s.arg = .boot [1] none [] [] true ∧ ¬ 2 ≤ ([1] : List (BitVec 384)).length) ∧
    (∃ s : State, s.arg = .num 16 ∧ s.mgmt.boot = .ready) ∧ (∃ s : State, s.arg = .none ∧ s.mgmt.boot = .ready) ∧
    ∃ s : State, s.arg = .num 3 ∧ 3 ∉ s.power.clamped :=
  ⟨⟨{ State.reset with arg := .boot [1, 2, 3] none [] [4] true }, rfl, by decide⟩, ⟨{ State.reset with arg := .boot [] (some 2) [] [] true }, rfl⟩,
    ⟨{ State.reset with arg := .boot [1] none [] [] true }, rfl, by decide⟩,
    ⟨{ State.reset with arg := .num 16, mgmt := { State.reset.mgmt with boot := .ready } }, rfl, rfl⟩,
    ⟨{ State.reset with arg := .none, mgmt := { State.reset.mgmt with boot := .ready } }, rfl, rfl⟩,
    { State.reset with arg := .num 3 }, rfl, by decide⟩

-- R90, R91: NOP's unused fields are 0; major 0x3F is NOP.
theorem test_decode_nop : decodeC 0x0000003F#32 = .ok .nop := by decide
theorem test_decode_nop_reserved : decodeC 0xFFFFFFFF#32 = .error .reservedField := by decide

end Sys2Proof.Machine.Tests
end

namespace Sys2Proof.Machine

/-! ## The form every step keeps: the rules of the shared operations (R4, R293, R311)

Memory is written by State.wrMem alone, and events are numbered by State.stamp alone. An operation that neither reaches has an `↔`: it
leaves the form as it is. One that reaches State.wrMem keeps the form. -/

/-- A state with the memory, the events and the next number of s has the form where s has it, whatever its other fields hold. -/
@[simp] theorem wellKept_update (s : State)
    {past queues regs recs tasks graphs credits reserve irqs lockq slog nextLog own cores xlat unmapped store time ttNext fabric hbm mgmt
      power cur arg agenda inputs errors cycle free} :
    WellKept ⟨s.mem, past, queues, regs, s.nextSeq, s.events, recs, tasks, graphs, credits, reserve, irqs, lockq, slog, nextLog, own,
      cores, xlat, unmapped, store, time, ttNext, fabric, hbm, mgmt, power, cur, arg, agenda, inputs, errors, cycle, free⟩ ↔
    WellKept s :=
  ⟨fun h => ⟨h.mem, h.events⟩, fun h => ⟨h.mem, h.events⟩⟩

@[simp] theorem wellKept_ite {p : Prop} [Decidable p] {a b : State} :
    WellKept (if p then a else b) ↔ if p then WellKept a else WellKept b := by
  split <;> rfl

/-- The states a result answers have the form. -/
def Keeps (r : Res) : Prop := ∀ s1, r = .next s1 → WellKept s1

@[simp] theorem keeps_next {s : State} : Keeps (.next s) ↔ WellKept s :=
  ⟨fun h => h s rfl, fun h _ e => Host.Outcome.next.inj e ▸ h⟩

@[simp] theorem keeps_fault {f : Fault} : Keeps (.fault f) := fun _ e => nomatch e

theorem keeps_ite {p : Prop} [Decidable p] {a b : Res} (ha : Keeps a) (hb : Keeps b) : Keeps (if p then a else b) := by
  split <;> assumption

/-- A fold of an operation that leaves the form as it is does so too. -/
@[simp] theorem wellKept_foldl {α : Type} {f : State → α → State} (hf : ∀ s a, WellKept (f s a) ↔ WellKept s) (l : List α) (s : State) :
    WellKept (l.foldl f s) ↔ WellKept s := by
  induction l generalizing s with
  | nil => rfl
  | cons a r ih => exact (ih (f s a)).trans (hf s a)

/-- A fold of an operation that keeps the form keeps it. -/
theorem wellKept_foldl_of {α : Type} {f : State → α → State} (hf : ∀ s a, WellKept s → WellKept (f s a)) (l : List α) {s : State}
    (h : WellKept s) : WellKept (l.foldl f s) :=
  List.foldlRecOn l f h fun s hs a _ => hf s a hs

section
variable {s : State} {tk : Task} {mem : Member}

/-! ### The two operations that write -/

/-- A write performed keeps memory canonical and leaves the events alone. -/
@[simp] theorem wellKept_wrMem {pa : Nat} {bs : List Byte} (h : WellKept s) : WellKept (s.wrMem pa bs) := ⟨State.wf_wrMem h.mem, h.events⟩

/-- An event takes the next number. -/
@[simp] theorem wellKept_stamp {e : EventKind} : WellKept (s.stamp e) ↔ WellKept s := by
  constructor
  · intro h
    have he := h.events
    simp only [State.stamp_events, State.stamp_nextSeq, List.map_append, List.map_cons, List.map_nil, List.range_succ] at he
    exact ⟨h.mem, (List.append_inj' he rfl).1⟩
  · intro h
    exact ⟨h.mem, by simp [h.events, List.range_succ]⟩

/-! ### Tasks, members and queues -/

@[simp] theorem wellKept_putTask {t : Nat} : WellKept (s.putTask t tk) ↔ WellKept s := wellKept_update s
@[simp] theorem wellKept_putMember {t m : Nat} : WellKept (s.putMember t m mem) ↔ WellKept s := by
  unfold State.putMember; split <;> simp
@[simp] theorem wellKept_modMember {t m : Nat} {f : Member → Member} : WellKept (s.modMember t m f) ↔ WellKept s := by
  unfold State.modMember; split <;> simp
@[simp] theorem wellKept_modTask {t : Nat} {f : Task → Task} : WellKept (s.modTask t f) ↔ WellKept s := by
  unfold State.modTask; split <;> simp
@[simp] theorem wellKept_put : WellKept (s.put mem) ↔ WellKept s := wellKept_putMember
@[simp] theorem wellKept_putBoth : WellKept (s.putBoth tk mem) ↔ WellKept s := by simp [State.putBoth]
@[simp] theorem wellKept_modQueue {q : Nat} {f : Queue → Queue} : WellKept (s.modQueue q f) ↔ WellKept s := wellKept_update s
@[simp] theorem wellKept_takeFree : WellKept s.takeFree.2 ↔ WellKept s := wellKept_update s

/-- A meaning keeps the form where it does so for whatever task and member is current. -/
theorem keeps_onMember {f : Task → Member → Res} (hf : ∀ tk mem, Keeps (f tk mem)) : Keeps (onMember s f) := by
  unfold onMember
  split
  · simp
  · split
    · simp
    · exact hf _ _

/-! ### Memory: reads note what they meet, writes go to memory, to launch ports or nowhere -/

@[simp] theorem wellKept_noteRead {pa n : Nat} : WellKept (s.noteRead pa n) ↔ WellKept s := wellKept_update s
@[simp] theorem wellKept_markPast {s0 : State} {f : Written → Written} : WellKept (s.markPast s0 f) ↔ WellKept s := wellKept_update s
@[simp] theorem wellKept_writtenBy {s0 : State} {t rank : Nat} {crew : Bool} : WellKept (s.writtenBy s0 t rank crew) ↔ WellKept s :=
  wellKept_markPast
@[simp] theorem wellKept_racyBytes {began pa n w : Nat} : WellKept (s.racyBytes began pa n w).2 ↔ WellKept s := wellKept_update s
@[simp] theorem wellKept_weakBytes {t pa n w : Nat} : WellKept (s.weakBytes t mem pa n w).2.2 ↔ WellKept s := by
  unfold State.weakBytes; split <;> simp
@[simp] theorem wellKept_portCopy {pa t ctx : Nat} {rec : BitVec 512} : WellKept (s.portCopy pa t ctx rec) ↔ WellKept s := wellKept_modQueue
@[simp] theorem wellKept_countPorts {pa n : Nat} : WellKept (s.countPorts pa n) ↔ WellKept s := by
  unfold State.countPorts; split <;> simp
@[simp] theorem wellKept_wrDev {pa : Nat} {bs : List Byte} (h : WellKept s) : WellKept (s.wrDev pa bs) := by
  unfold State.wrDev; split_ifs <;> simp [h]
@[simp] theorem wellKept_barrierAdd {pa units : Nat} (h : WellKept s) : WellKept (s.barrierAdd pa units) := by
  simp only [State.barrierAdd]; split <;> simp [h]
@[simp] theorem wellKept_writeRuns {pa : Nat} {rs : List (Nat × List Byte)} (h : WellKept s) : WellKept (s.writeRuns pa rs) :=
  wellKept_foldl_of (fun _ _ => wellKept_wrDev) rs h

/-! ### Translation and fetching -/

@[simp] theorem wellKept_noteWalk {root va : Nat} : WellKept (s.noteWalk root va) ↔ WellKept s := by
  unfold State.noteWalk; split <;> simp
@[simp] theorem wellKept_noteXlat {ctx va : Nat} {w : Option Leaf} : WellKept (s.noteXlat ctx va w) ↔ WellKept s := by
  unfold State.noteXlat; split
  · rfl
  · dsimp only; split <;> simp
@[simp] theorem wellKept_fillTlb {u : TlbUse} {tlb : List TlbEntry} {ctx root va : Nat} :
    WellKept (s.fillTlb u tlb ctx root va).2 ↔ WellKept s := by
  simp only [State.fillTlb]; split <;> simp
@[simp] theorem wellKept_translate {u : TlbUse} {tlb : List TlbEntry} {ctx root va : Nat} :
    WellKept (s.translate u tlb ctx root va).2.2 ↔ WellKept s := by
  simp only [State.translate]
  split
  · simp
  · split_ifs <;> simp
@[simp] theorem wellKept_translateFor {x : Stream} {va : Nat} : WellKept (s.translateFor tk mem x va).2.2 ↔ WellKept s := by
  simp [State.translateFor]
theorem wellKept_of_translateFor {x : Stream} {va : Nat} {o : Option Leaf} {m1 : Member} {s1 : State}
    (e : s.translateFor tk mem x va = (o, m1, s1)) : WellKept s1 ↔ WellKept s := by
  simpa [e] using wellKept_translateFor (s := s) (tk := tk) (mem := mem) (x := x) (va := va)

theorem wellKept_fetchPieces (n : Nat) {va : W64} (h : WellKept s) : WellKept (fetchPieces s tk mem n va).2.2 := by
  induction n generalizing s mem va with
  | zero => exact h
  | succ n ih =>
    unfold fetchPieces
    split
    · next e => exact (wellKept_of_translateFor e).2 h
    · next l m1 s1 e =>
      have h1 : WellKept s1 := (wellKept_of_translateFor e).2 h
      have h2 := @ih (s1.noteRead (l.pa va.toNat) 4) m1 (va + 4) (by simpa)
      split_ifs
      · exact h1
      · exact h1
      · split
        · next e2 => rw [e2] at h2; exact h2
        · exact h2

theorem wellKept_of_withHead {hd : Option (BitVec 96)} {n : Nat} {va : W64} {r : Except FetchErr (List Byte)} {m1 : Member} {s1 : State}
    (e : withHead hd (fetchPieces s tk mem n va) = (r, m1, s1)) (h : WellKept s) : WellKept s1 := by
  have h1 := wellKept_fetchPieces (tk := tk) (mem := mem) (va := va) n h
  simp only [withHead, Prod.mk.injEq] at e
  exact e.2.2 ▸ h1

theorem wellKept_fetchWord {x : Stream} (h : WellKept s) : WellKept (fetchWord s tk mem x).2.2 := by
  unfold fetchWord
  dsimp only
  split
  · next e => exact wellKept_of_withHead e h
  · next e =>
    have h1 := wellKept_of_withHead e h
    split
    · exact h1
    · split
      · next e2 => exact wellKept_of_withHead e2 h1
      · next e2 =>
        have h2 := wellKept_of_withHead e2 h1
        split_ifs
        · exact h2
        · split
          · next e3 => exact wellKept_of_withHead e3 h2
          · next e3 => exact wellKept_of_withHead e3 h2

/-! ### Ownership, records and faults -/

theorem wellKept_of_takeOwn {o : Owner} {pa : Nat} {s1 : State} (e : s.takeOwn o pa = some s1) : WellKept s1 ↔ WellKept s := by
  unfold State.takeOwn at e
  dsimp only at e
  split at e
  · cases e; simp
  · split_ifs at e <;> cases e <;> simp
  · split at e
    · cases e; simp
    · split_ifs at e; cases e; rfl
@[simp] theorem wellKept_splitOwn {pa : Nat} : WellKept (s.splitOwn pa) ↔ WellKept s := by
  unfold State.splitOwn; split <;> simp
@[simp] theorem wellKept_releaseOwn {t : Nat} : WellKept (s.releaseOwn t) ↔ WellKept s := wellKept_update s
@[simp] theorem wellKept_leaveCore : WellKept (s.leaveCore mem) ↔ WellKept s := wellKept_update s
@[simp] theorem wellKept_leaveCores : WellKept (s.leaveCores tk) ↔ WellKept s := by
  unfold State.leaveCores; split <;> simp
@[simp] theorem wellKept_dropSpawns {t : Nat} : WellKept (s.dropSpawns t) ↔ WellKept s := wellKept_update s
@[simp] theorem wellKept_discard {t : Nat} : WellKept (s.discard t) ↔ WellKept s := by
  unfold State.discard; split
  · rfl
  · dsimp only; simp
@[simp] theorem wellKept_recordRaw {r : Rec} : WellKept (s.recordRaw r) ↔ WellKept s := wellKept_update s
@[simp] theorem wellKept_recordFault {t : Nat} {f : FaultInfo} : WellKept (s.recordFault t f) ↔ WellKept s := wellKept_update s
@[simp] theorem wellKept_recordOnce {t : Nat} {f : FaultInfo} : WellKept (s.recordOnce t f) ↔ WellKept s := by
  unfold State.recordOnce; split <;> simp
@[simp] theorem wellKept_suspend {t : Nat} : WellKept (s.suspend t) ↔ WellKept s := by
  unfold State.suspend; split <;> simp
@[simp] theorem wellKept_halt {t : Nat} : WellKept (s.halt t) ↔ WellKept s := by simp [State.halt]
@[simp] theorem wellKept_recordDiscard {t : Nat} {f : FaultInfo} : WellKept (s.recordDiscard t tk f) ↔ WellKept s := by
  simp [State.recordDiscard]
@[simp] theorem wellKept_raiseFor {t : Nat} {f : FaultInfo} : WellKept (s.raiseFor t f) ↔ WellKept s := by
  unfold State.raiseFor
  split
  · rfl
  · split_ifs
    · simp
    · simp
    · split
      · rfl
      · split_ifs <;> simp
@[simp] theorem wellKept_resumeTask {t : Nat} : WellKept (s.resumeTask t) ↔ WellKept s := wellKept_modTask
@[simp] theorem wellKept_queueRecord {c : Nat} {rec : BitVec 512} (h : WellKept s) : WellKept (s.queueRecord c rec) := by
  unfold State.queueRecord
  generalize leBytes 64 rec.toNat = bs
  dsimp only
  split
  · exact h
  · split
    · exact h
    · have drop : ∀ pa bs, WellKept (s.wrDev pa bs) := fun _ _ => wellKept_wrDev h
      split
      · exact drop _ _
      · split
        · exact drop _ _
        · split
          · exact drop _ _
          · split
            · exact drop _ _
            · have wrote : ∀ p n bs cs, WellKept ((s.wrDev p bs).wrDev n cs) := fun _ _ _ _ => wellKept_wrDev (drop _ _)
              repeat' split
              all_goals simp [wrote]
@[simp] theorem wellKept_present {r : Rec} (h : WellKept s) : WellKept (s.present r) := by
  unfold State.present; split
  · exact h
  · simp [h]
@[simp] theorem wellKept_presentFor {t : Nat} (h : WellKept s) : WellKept (s.presentFor t) :=
  wellKept_foldl_of (fun _ _ => wellKept_present) _ (by simpa)
@[simp] theorem wellKept_presentAll (h : WellKept s) : WellKept s.presentAll :=
  wellKept_foldl_of (fun _ _ => wellKept_presentFor) _ h

/-! ### How a word ends -/

@[simp] theorem keeps_raise {c : Nat} {a : W64} {x : Nat} (h : WellKept s) : Keeps (raise s mem c a x) := by simp [raise, h]
@[simp] theorem keeps_raiseIllegal (h : WellKept s) : Keeps (raiseIllegal s mem) := keeps_raise h
@[simp] theorem keeps_raiseSchedule {x : Nat} (h : WellKept s) : Keeps (raiseSchedule s mem x) := keeps_raise h
@[simp] theorem keeps_raiseTrap {t : Trap} (h : WellKept s) : Keeps (raiseTrap s mem t) := keeps_raise h
@[simp] theorem keeps_scoreboard {c : Nat} {a : W64} {x : Nat} (h : WellKept s) : Keeps (scoreboard s tk mem c a x) := by
  unfold scoreboard; split <;> simp [h]
@[simp] theorem keeps_cDone (h : WellKept s) : Keeps (cDone s mem) := by simp [cDone, h]
@[simp] theorem keeps_cWrite {rd : BitVec 5} {v : Scalar} (h : WellKept s) : Keeps (cWrite s mem rd v) := keeps_cDone h
@[simp] theorem keeps_cStall {i : Instr} (h : WellKept s) : Keeps (cStall s mem i) := by simp [cStall, h]
@[simp] theorem keeps_cGoto {t : W64} (h : WellKept s) : Keeps (cGoto s mem t) := by simp [cGoto, h]
@[simp] theorem keeps_tGoto {t : W64} (h : WellKept s) : Keeps (tGoto s mem t) := by simp [tGoto, h]
@[simp] theorem keeps_tDone (h : WellKept s) : Keeps (tDone s mem) := by simp [tDone, h]

/-! ### Loads and stores -/

@[simp] theorem wellKept_fillLine {ctx : Nat} {l : Leaf} {va pa : Nat} :
    WellKept (s.fillLine ctx mem l va pa).2.2 ↔ WellKept s := by
  simp only [State.fillLine]; split <;> simp
@[simp] theorem wellKept_l1Read {ctx : Nat} {l : Leaf} {va pa n : Nat} : WellKept (l1Read s ctx mem l va pa n).st ↔ WellKept s := by
  unfold l1Read
  split
  · rfl
  · dsimp only; split_ifs <;> simp
@[simp] theorem wellKept_readC {a : W64} {n : Nat} : WellKept (readC s tk mem a n).st ↔ WellKept s := by
  unfold readC
  split
  · next e => exact wellKept_of_translateFor e
  · next l m1 s1 e =>
    rw [← wellKept_of_translateFor e]
    dsimp only
    split_ifs
    · rfl
    · rfl
    · simp
    · simp
    · have h1 := wellKept_l1Read (s := s1) (ctx := tk.ctx) (mem := m1) (l := l) (va := a.toNat) (pa := l.pa a.toNat) (n := n)
      split
      · next e2 => rwa [e2] at h1
      · next e2 => rwa [e2] at h1
@[simp] theorem wellKept_loadVirtual {a : W64} {n : Nat} : WellKept (loadVirtual s tk mem a n).st ↔ WellKept s := by
  have h1 := wellKept_readC (s := s) (tk := tk) (mem := mem) (a := a) (n := n)
  unfold loadVirtual
  split
  · next e => rwa [e] at h1
  · next e => rwa [e] at h1
@[simp] theorem wellKept_loadAt {a : W64} {n : Nat} : WellKept (loadAt s tk mem a n).st ↔ WellKept s := by
  unfold loadAt
  split_ifs
  · split <;> rfl
  · simp
@[simp] theorem keeps_loadWord {rd rs : BitVec 5} {imm : BitVec 16} {n : Nat} {ext : Nat → W64} (h : WellKept s) :
    Keeps (loadWord rd rs imm n ext s) := by
  refine keeps_onMember fun tk mem => ?_
  dsimp only
  split_ifs
  · simp [h]
  · simp [h]
  · split <;> simp [h]
@[simp] theorem wellKept_addLog {e : LogEntry} : WellKept (s.addLog e) ↔ WellKept s := wellKept_update s
@[simp] theorem wellKept_logWrite {t m va : Nat} {bs : List Byte} {act : LogAct} {cmd : Option Nat} :
    WellKept (s.logWrite t m tk mem va bs act cmd) ↔ WellKept s := wellKept_addLog
@[simp] theorem wellKept_deferStore {a : W64} {n : Nat} {v : W64} {missing : Bool} :
    WellKept (deferStore s tk mem a n v missing).st ↔ WellKept s := by
  unfold deferStore; split <;> rfl
/-- A page taken where its leaf is owned. -/
theorem wellKept_of_takeIfOwned {b : Bool} {o : Owner} {pa : Nat} {s1 : State}
    (e : (if b = true then s.takeOwn o pa else some s) = some s1) : WellKept s1 ↔ WellKept s := by
  split at e
  · exact wellKept_of_takeOwn e
  · cases e; rfl
@[simp] theorem wellKept_storeVirtual {a : W64} {n : Nat} {v : W64} : WellKept (storeVirtual s tk mem a n v).st ↔ WellKept s := by
  unfold storeVirtual
  dsimp only
  split
  · rfl
  · split
    · next e =>
      rw [← wellKept_of_translateFor e]
      split_ifs <;> simp
    · next l m1 s1 e =>
      rw [← wellKept_of_translateFor e]
      split
      · rfl
      · split
        · rfl
        · split
          · simp
          · next e2 =>
            rw [← wellKept_of_takeIfOwned e2]
            split <;> simp

end
end Sys2Proof.Machine

namespace Sys2Proof.Machine
section
variable {s : State} {tk : Task} {mem : Member} {t m : Nat} {c : Cmd}

@[simp] theorem wellKept_storeAperture {a n v} : WellKept (storeAperture s tk mem a n v).st ↔ WellKept s := by
  unfold storeAperture
  dsimp only
  split
  · rfl
  · split <;> rfl
@[simp] theorem keeps_storeWord {i : Instr} {rt rs imm n} (h : WellKept s) : Keeps (storeWord i rt rs imm n s) := by
  refine keeps_onMember fun tk mem => ?_
  dsimp only
  split
  · simp [h]
  · split
    · simp [h]
    · have h1 : ∀ a v, WellKept (if inAperture a.toNat then storeAperture s tk mem a n v else storeVirtual s tk mem a n v.val).st := by
        intro a v; split <;> simp [h]
      split <;> simp [h1]
theorem wellKept_objectPa {a} : WellKept (objectPa s tk mem a).st ↔ WellKept s := by
  unfold objectPa
  split
  · next e => exact wellKept_of_translateFor e
  · next e =>
    rw [← wellKept_of_translateFor e]
    split_ifs <;> simp
@[simp] theorem keeps_echoed {i rd v} (h : WellKept s) : Keeps (echoed i rd v s tk mem) := by
  unfold echoed; split_ifs <;> simp [h]

/-! ### Control words of the C stream (R131 to R149) -/

@[simp] theorem keeps_branchOp {rs rt off f} (h : WellKept s) : Keeps (branchOp rs rt off f s) := by
  refine keeps_onMember fun tk mem => ?_
  dsimp only
  split_ifs <;> simp [h]
theorem keeps_execJal {rd off} (h : WellKept s) : Keeps (execJal rd off s) := by
  refine keeps_onMember fun tk mem => ?_
  split <;> simp [h]
theorem keeps_execJalr {rd rs imm} (h : WellKept s) : Keeps (execJalr rd rs imm s) := by
  refine keeps_onMember fun tk mem => ?_
  dsimp only
  split_ifs <;> simp [h]
@[simp] theorem keeps_cLoop {j count stop} (h : WellKept s) : Keeps (cLoop s mem j count stop) := by
  unfold cLoop
  split
  · simp [h]
  · split <;> simp [h]
theorem keeps_execLoop {lc rs stop} (h : WellKept s) : Keeps (execLoop lc rs stop s) := by
  refine keeps_onMember fun tk mem => ?_
  dsimp only
  split_ifs <;> simp [h]
theorem keeps_execLoopi {lc count stop} (h : WellKept s) : Keeps (execLoopi lc count stop s) := by
  refine keeps_onMember fun tk mem => ?_
  split_ifs <;> simp [h]
theorem keeps_execDset {dn q g} (h : WellKept s) : Keeps (execDset dn q g s) := by
  refine keeps_onMember fun tk mem => ?_
  dsimp only
  split_ifs <;> simp [h]
theorem keeps_execDget {dn q g} (h : WellKept s) : Keeps (execDget dn q g s) :=
  keeps_onMember fun _ _ => keeps_cWrite h
theorem keeps_execMbw {mb rs} (h : WellKept s) : Keeps (execMbw mb rs s) :=
  keeps_onMember fun _ _ => keeps_cDone h
theorem keeps_execTsig {str tag nm1} (h : WellKept s) : Keeps (execTsig str tag nm1 s) := by
  refine keeps_onMember fun tk mem => ?_
  dsimp only
  split_ifs <;> simp [h]
theorem keeps_execTwait {str nm1} (h : WellKept s) : Keeps (execTwait str nm1 s) := by
  refine keeps_onMember fun tk mem => ?_
  dsimp only
  split_ifs <;> simp [h]
theorem keeps_execTwaitb {str off} (h : WellKept s) : Keeps (execTwaitb str off s) := by
  refine keeps_onMember fun tk mem => ?_
  dsimp only
  split_ifs <;> simp [h]
theorem keeps_execSemw {sem cnt} (h : WellKept s) : Keeps (execSemw sem cnt s) := by
  refine keeps_onMember fun tk mem => ?_
  split_ifs <;> simp [h]
theorem keeps_execSems {sem cnt} (h : WellKept s) : Keeps (execSems sem cnt s) := by
  refine keeps_onMember fun tk mem => ?_
  split_ifs <;> simp [h]
theorem keeps_execSemr {rd sem} (h : WellKept s) : Keeps (execSemr rd sem s) :=
  keeps_onMember fun _ _ => keeps_cWrite h

/-! ### Control words of the timed streams (R150, R151) -/

theorem keeps_execLoopk {idle lc stop count} (h : WellKept s) : Keeps (execLoopk idle lc stop count s) := by
  refine keeps_onMember fun tk mem => ?_
  split
  · simp [h]
  · split <;> simp [h]
theorem keeps_execJmpk {idle off} (h : WellKept s) : Keeps (execJmpk idle off s) := by
  refine keeps_onMember fun tk mem => ?_
  split <;> simp [h]
@[simp] theorem keeps_timedWait {q branch} (h : WellKept s) : Keeps (timedWait q branch s) := by
  refine keeps_onMember fun tk mem => ?_
  dsimp only
  split
  · simp [h]
  · split
    · simp [h]
    · split
      · split <;> simp [h]
      · simp [h]
theorem keeps_execTsigTimed {idle q tag} (h : WellKept s) : Keeps (execTsigTimed idle q tag s) := by
  refine keeps_onMember fun tk mem => ?_
  dsimp only
  split_ifs <;> simp [h]
@[simp] theorem keeps_timedStop {st} (h : WellKept s) : Keeps (timedStop st s) := by
  refine keeps_onMember fun tk mem => ?_
  dsimp only
  split_ifs <;> simp [h]

/-! ### Engine commands: issue, reads, writes and pieces (R215 to R243) -/

@[simp] theorem wellKept_addObject {va units who} (h : WellKept s) : WellKept (s.addObject t m tk mem va units who) := by
  unfold State.addObject
  dsimp only
  split
  · next e =>
    have h1 := (wellKept_of_translateFor e).2 h
    split <;> simp [h1]
  · next e =>
    have h1 := (wellKept_of_translateFor e).2 h
    split_ifs <;> simp [h1]
@[simp] theorem wellKept_addBytes {units} (h : WellKept s) : WellKept (s.addBytes t m tk mem c units).2 := by
  unfold State.addBytes
  dsimp only
  split_ifs <;> simp [h]
@[simp] theorem keeps_issued {hd} (h : WellKept s) : Keeps (issued s hd mem) := keeps_tDone h
@[simp] theorem keeps_issueCmd {i hd legal checks plan room} (h : WellKept s) :
    Keeps (issueCmd s i hd legal checks plan room) := by
  refine keeps_onMember fun tk mem => ?_
  dsimp only
  split
  · simp [h]
  · split
    · simp [h]
    · split
      · simp [h]
      · split
        · simp [h]
        · split
          · simp [h]
          · split
            · simp [h]
            · simp [h]
            · split <;> simp [h]
            · split <;> simp [h]
            · split <;> simp [h]
@[simp] theorem wellKept_walkAhead {x va l} : WellKept (s.walkAhead tk mem x va l).2 ↔ WellKept s := by
  unfold State.walkAhead
  extract_lets down next
  split
  · rfl
  · split
    · rfl
    · exact wellKept_fillTlb
@[simp] theorem wellKept_engTranslate {x va} : WellKept (s.engTranslate tk mem x va).2.2 ↔ WellKept s := by
  unfold State.engTranslate
  split
  · next e => exact wellKept_of_translateFor e
  · next e => simp [wellKept_of_translateFor e]
theorem wellKept_of_engTranslate {x va o m1} {s1 : State} (e : s.engTranslate tk mem x va = (o, m1, s1)) : WellKept s1 ↔ WellKept s := by
  simpa [e] using wellKept_engTranslate (s := s) (tk := tk) (mem := mem) (x := x) (va := va)
@[simp] theorem wellKept_engReadPart {x va n w} : WellKept (engReadPart s t tk mem x va n w).st ↔ WellKept s := by
  unfold engReadPart
  split
  · next e => exact wellKept_of_engTranslate e
  · next e =>
    rw [← wellKept_of_engTranslate e]
    dsimp only
    split_ifs <;> simp
theorem wellKept_engReadParts {x w} (ps : List (Nat × Nat)) : WellKept (engReadParts t tk x w ps s mem).st ↔ WellKept s := by
  induction ps generalizing s mem with
  | nil => rfl
  | cons p r ih =>
    unfold engReadParts
    have h1 := wellKept_engReadPart (s := s) (t := t) (tk := tk) (mem := mem) (x := x) (va := p.1) (n := p.2) (w := w)
    split
    · next e => rwa [e] at h1
    · next b m1 s1 e =>
      rw [e] at h1
      have h2 := (ih (s := s1) (mem := m1)).trans h1
      split
      · next e2 => rwa [e2] at h2
      · next e2 => rwa [e2] at h2
@[simp] theorem wellKept_engRead {x va n w} : WellKept (engRead s t tk mem x va n w).st ↔ WellKept s := wellKept_engReadParts _
@[simp] theorem wellKept_whole {u : UnitRes} : WellKept (u.whole c).st ↔ WellKept u.st := by
  unfold UnitRes.whole; split <;> rfl
@[simp] theorem wellKept_logPart {atCommit va bs act} : WellKept (logPart s t m tk mem c atCommit va bs act).st ↔ WellKept s := by
  simp only [logPart]
  split
  · simp only [wellKept_update]; split <;> simp
  · split
    · rfl
    · simp only [wellKept_addLog]; split <;> simp
@[simp] theorem wellKept_denied {atCommit va e} : WellKept (denied s t mem c atCommit va e).st ↔ WellKept s := by
  unfold denied
  dsimp only
  split_ifs <;> simp
@[simp] theorem wellKept_badPorts {pa n} : WellKept (badPorts s mem c pa n).st ↔ WellKept s := by
  simp [badPorts]
@[simp] theorem wellKept_engWritePart {atCommit va bs} (h : WellKept s) : WellKept (engWritePart s t m tk mem c atCommit va bs).st := by
  unfold engWritePart
  split
  · exact h
  · split
    · simp [h]
    · split
      · next e =>
        have h1 := (wellKept_of_engTranslate e).2 h
        split <;> simp [h1]
      · next e =>
        have h1 := (wellKept_of_engTranslate e).2 h
        dsimp only
        split
        · simp [h1]
        · split
          · simp [h1]
          · split
            · simp [h1]
            · split
              · simp [h1]
              · next e2 => simp [(wellKept_of_takeIfOwned e2).2 h1]
theorem wellKept_engWriteParts {atCommit} (ps : List (Nat × List (Option Byte))) (h : WellKept s) :
    WellKept (engWriteParts t m tk atCommit ps s mem c).st := by
  induction ps generalizing s mem c with
  | nil => exact h
  | cons p r ih =>
    unfold engWriteParts
    dsimp only
    split
    · exact ih (wellKept_engWritePart h)
    · exact wellKept_engWritePart h
theorem wellKept_of_writeDenied {x ps} {e : Trap × State} (he : writeDenied s t tk mem x ps = some e) : WellKept e.2 ↔ WellKept s := by
  obtain ⟨p, -, hp⟩ := List.exists_of_findSome?_eq_some he
  split at hp
  · cases hp
  · split at hp
    · cases hp
    · split_ifs at hp <;> cases hp <;> simp
@[simp] theorem wellKept_engWrite {atCommit va bs} (h : WellKept s) : WellKept (engWrite s t m tk mem c atCommit va bs).st := by
  unfold engWrite
  dsimp only
  split
  · next e he =>
    split at he
    · cases he
    · exact (wellKept_of_writeDenied he).2 h
  · exact wellKept_engWriteParts _ h

/-- A piece of a command keeps the form. -/
def KeepsPiece (f : State → Member → Cmd → Nat → UnitRes) : Prop := ∀ s mem c k, WellKept s → WellKept (f s mem c k).st

theorem wellKept_runPieces {f total} (hf : KeepsPiece f) (n : Nat) (h : WellKept s) : WellKept (runPieces f total n s mem c).st := by
  induction n generalizing s mem c with
  | zero => exact h
  | succ n ih =>
    unfold runPieces
    split
    · exact h
    · dsimp only
      split
      · exact ih (hf _ _ _ _ h)
      · exact hf _ _ _ _ h
theorem keeps_afterPieces {total} {r : UnitRes} (h : WellKept r.st) : Keeps (afterPieces s total r) := by
  unfold afterPieces
  dsimp only
  split <;> simp [h]
theorem keeps_workCmd {total} {f : Task → State → Member → Cmd → Nat → UnitRes} (hf : ∀ tk, KeepsPiece (f tk)) (h : WellKept s) :
    Keeps (workCmd s total f) := by
  refine keeps_onMember fun tk mem => ?_
  dsimp only
  split
  · simp [h]
  · split
    · exact keeps_afterPieces (wellKept_runPieces (hf tk) _ h)
    · exact keeps_afterPieces (wellKept_runPieces (hf tk) _ h)
    · simp [h]
@[simp] theorem wellKept_spPiece {a len f} : WellKept (spPiece s mem c a len f).st ↔ WellKept s := by
  unfold spPiece; split <;> rfl

end
end Sys2Proof.Machine

namespace Sys2Proof.Machine
section
variable {s : State} {tk : Task} {mem : Member} {t m : Nat} {c : Cmd}

/-! ### The V and K streams and the units of the matrix array (R94 to R121, R150 to R214) -/

theorem keeps_execBundle {idle s0 s1 s2} (h : WellKept s) : Keeps (execBundle idle s0 s1 s2 s) := by
  refine keeps_onMember fun tk mem => ?_
  split
  · simp [h]
  · dsimp only
    split
    · simp [h]
    · split
      · simp [h]
      · split <;> simp [h]
@[simp] theorem wellKept_readChains : WellKept (s.readChains t m) ↔ WellKept s := by
  unfold State.readChains
  split
  · rfl
  · dsimp only
    rw [← wellKept_putMember (s := s), wellKept_update]
theorem keeps_execVchain {f} (h : WellKept s) : Keeps (execVchain f s) := by
  refine keeps_onMember fun tk mem => ?_
  dsimp only
  split
  · simp [h]
  · split
    · simp [h]
    · split <;> simp [h]
theorem keeps_execMoveArrival (h : WellKept s) : Keeps (execMoveArrival s) := by
  refine keeps_onMember fun tk mem => ?_
  split
  · simp [h]
  · split <;> simp [h]
theorem keeps_execUnitResult (h : WellKept s) : Keeps (execUnitResult s) := by
  refine keeps_onMember fun tk mem => ?_
  split <;> simp [h]

/-- Every operation of the lanes starts in the same way, whatever it computes. -/
theorem keeps_opStart {o num f} (h : WellKept s) : Keeps (opStart o num f s) := by
  refine keeps_onMember fun tk mem => ?_
  dsimp only
  split <;> simp [h]

/-- Every matrix word issues in the same way. -/
theorem keeps_matIssue {mop f legal trap} (h : WellKept s) : Keeps (matIssue mop f legal trap s) := by
  refine keeps_onMember fun tk mem => ?_
  dsimp only
  split
  · simp [h]
  · split
    · simp [h]
    · split_ifs <;> simp [h]
@[simp] theorem wellKept_arrayReads : WellKept (s.arrayReads t m) ↔ WellKept s := by
  unfold State.arrayReads
  split
  · rfl
  · split
    · rfl
    · dsimp only; simp
theorem keeps_execArrayWrite (h : WellKept s) : Keeps (execArrayWrite s) := by
  refine keeps_onMember fun tk mem => ?_
  split
  · simp [h]
  · dsimp only
    split <;> simp [h]
theorem keeps_execFollowOnStep (h : WellKept s) : Keeps (execFollowOnStep s) := by
  refine keeps_onMember fun tk mem => ?_
  split
  · simp [h]
  · split
    · simp [h]
    · split <;> simp [h]

end
end Sys2Proof.Machine

namespace Sys2Proof.Machine
section
variable {s : State} {tk : Task} {mem : Member} {t m : Nat} {c : Cmd}

/-! ### Copies, fills, gathers and windows (R225 to R237) -/

@[simp] theorem wellKept_fillRow {a row} (h : WellKept s) : WellKept (fillRow s tk mem c a row).st := by
  unfold fillRow
  dsimp only
  split
  · simp [h]
  · next k =>
    split
    · simp [h]
    · have h1 := (wellKept_engRead (s := s) (t := s.cur.task) (tk := tk) (mem := mem) (x := c.stream) (va := rowVA c.desc k)
        (n := dRow c.desc) (w := max 1 (dBits c.desc / 8))).2 h
      split
      · next e => rwa [e] at h1
      · next e => rw [e] at h1; simp [h1]
@[simp] theorem wellKept_ringRow {r j row} (h : WellKept s) : WellKept (ringRow s tk mem c r j row).st := by
  unfold ringRow
  dsimp only
  split <;> simp [h]
theorem keepsPiece_fetchPiece : KeepsPiece (fetchPiece tk) := by
  intro s mem c k h
  unfold fetchPiece
  split <;> simp [h]
theorem keeps_execWset {hd w d f} (h : WellKept s) : Keeps (execWset hd w d f s) := by
  unfold execWset
  split
  · exact keeps_issueCmd h
  · exact keeps_workCmd (fun _ => keepsPiece_fetchPiece) h
theorem keeps_execWadv {hd w ret fetch} (h : WellKept s) : Keeps (execWadv hd w ret fetch s) := by
  unfold execWadv
  split
  · exact keeps_issueCmd h
  · exact keeps_workCmd (fun _ => keepsPiece_fetchPiece) h

/-- A command that is done when it issues performs nothing. -/
theorem keeps_onMember_next (h : WellKept s) : Keeps (onMember s fun _ _ => .next s) := keeps_onMember fun _ _ => keeps_next.2 h

theorem keeps_execWclose {hd w} (h : WellKept s) : Keeps (execWclose hd w s) := by
  unfold execWclose
  split
  · exact keeps_issueCmd h
  · exact keeps_onMember_next h
theorem keepsPiece_copyInPiece {spa i0} : KeepsPiece (copyInPiece spa i0 tk) := by
  intro s mem c k h
  have h1 := (wellKept_engRead (s := s) (t := s.cur.task) (tk := tk) (mem := mem) (x := c.stream) (va := atomVA c.desc i0 k)
    (n := atomBytes c.desc) (w := atomBytes c.desc)).2 h
  unfold copyInPiece
  dsimp only
  split
  · next e => rwa [e] at h1
  · next e => rw [e] at h1; simp [h1]
theorem keepsPiece_copyOutPiece {atCommit spa i0 cnt} : KeepsPiece (copyOutPiece atCommit spa i0 cnt tk) := by
  intro s mem c k h
  unfold copyOutPiece
  dsimp only
  split
  · simp [h]
  · split
    · split
      · simp [h]
      · split <;> simp [h]
    · split <;> simp [h]
theorem keeps_execCopy {hd d spa i0 cntm1 fo} (h : WellKept s) : Keeps (execCopy hd d spa i0 cntm1 fo s) := by
  unfold execCopy
  dsimp only
  split
  · exact keeps_issueCmd h
  · refine keeps_workCmd (fun tk s mem c k h => ?_) h
    split
    · exact keepsPiece_copyInPiece _ _ _ _ h
    · exact keepsPiece_copyOutPiece _ _ _ _ h
theorem keepsPiece_peerPiece {spa prank} : KeepsPiece (peerPiece spa prank tk) := by
  intro s mem c k h
  unfold peerPiece
  split <;> simp [h]
theorem keeps_execPeerCopy {hd spa prank rowsm1 fo} (h : WellKept s) : Keeps (execPeerCopy hd spa prank rowsm1 fo s) := by
  unfold execPeerCopy
  dsimp only
  split
  · exact keeps_issueCmd h
  · exact keeps_workCmd (fun _ => keepsPiece_peerPiece) h
theorem keeps_execGath {hd d dst idx nm1} (h : WellKept s) : Keeps (execGath hd d dst idx nm1 s) := by
  unfold execGath
  dsimp only
  split
  · exact keeps_issueCmd h
  · exact keeps_workCmd (fun _ _ _ _ _ h => wellKept_fillRow h) h
theorem keeps_execGathTowin {hd w d idx nm1} (h : WellKept s) : Keeps (execGathTowin hd w d idx nm1 s) := by
  unfold execGathTowin
  dsimp only
  split
  · exact keeps_issueCmd h
  · refine keeps_workCmd (fun tk s mem c j h => ?_) h
    split <;> simp [h]
theorem keepsPiece_scatPiece {atCommit src idx} : KeepsPiece (scatPiece atCommit src idx tk) := by
  intro s mem c k h
  unfold scatPiece
  dsimp only
  split
  · exact h
  · split <;> simp [h]
theorem keeps_execScat {hd d src idx nm1} (h : WellKept s) : Keeps (execScat hd d src idx nm1 s) := by
  unfold execScat
  dsimp only
  split
  · exact keeps_issueCmd h
  · exact keeps_workCmd (fun _ => keepsPiece_scatPiece) h
theorem keepsPiece_fillOutPiece {atCommit val vm i0} : KeepsPiece (fillOutPiece atCommit val vm i0 tk) :=
  fun _ _ _ _ h => wellKept_engWrite h
theorem keepsPiece_fillWord {a x inv} : KeepsPiece (fillWord a x inv) := fun _ _ _ _ h => wellKept_spPiece.2 h
theorem keeps_execFill {hd f} (h : WellKept s) : Keeps (execFill hd f s) := by
  unfold execFill
  split
  · exact keeps_issueCmd h
  · exact keeps_issueCmd h
  · exact keeps_workCmd (fun _ => keepsPiece_fillWord) h
  · exact keeps_workCmd (fun _ => keepsPiece_fillOutPiece) h
theorem keepsPiece_prefPiece {tier i0} : KeepsPiece (prefPiece tier i0 tk) := by
  intro s mem c k h
  unfold prefPiece
  dsimp only
  split
  · next e =>
    have h1 := (wellKept_of_engTranslate e).2 h
    split <;> simp [h1]
  · next e => exact (wellKept_of_engTranslate e).2 h
theorem keeps_execPref {hd d tier i0 cntm1} (h : WellKept s) : Keeps (execPref hd d tier i0 cntm1 s) := by
  unfold execPref
  dsimp only
  split
  · exact keeps_issueCmd h
  · exact keeps_workCmd (fun _ => keepsPiece_prefPiece) h
theorem keeps_execBclose {f} (h : WellKept s) : Keeps (execBclose f s) := by
  refine keeps_onMember fun tk mem => ?_
  split
  · simp [h]
  · split <;> simp [h]
theorem keeps_execWaitb {hd n} (h : WellKept s) : Keeps (execWaitb hd n s) := by
  unfold execWaitb
  split
  · exact keeps_issueCmd h
  · exact keeps_onMember_next h

/-! ### Accumulates and compare-and-swap (R238 to R242) -/

@[simp] theorem wellKept_dropLine {pa core scope} : WellKept (s.dropLine pa core scope) ↔ WellKept s := wellKept_update s
@[simp] theorem wellKept_spread {f} : WellKept (s.spread t mem f) ↔ WellKept s := wellKept_modTask
@[simp] theorem wellKept_wrAtomic {pa core scope bs} (h : WellKept s) : WellKept (s.wrAtomic pa core scope bs) := by
  simp [State.wrAtomic, h]
@[simp] theorem wellKept_accPerform {a fetch f j pa x} (h : WellKept s) : WellKept (accPerform s t mem a fetch f j pa x).1 := by
  unfold accPerform
  dsimp only
  split <;> simp [h]
@[simp] theorem wellKept_casPerform {recw w64 scope pa cmp new} (h : WellKept s) :
    WellKept (casPerform s t mem recw w64 scope pa cmp new).1 := by
  simp [casPerform, h]
theorem wellKept_atomicAt {j va n data old perform} (hp : ∀ s m pa, WellKept s → WellKept (perform s m pa).1) (h : WellKept s) :
    WellKept (atomicAt tk s mem c j va n data old perform).st := by
  unfold atomicAt
  dsimp only
  split
  · next e =>
    have h1 := (wellKept_of_translateFor e).2 h
    split
    · exact h1
    · split
      · exact h1
      · simp only [wellKept_logWrite]
        split <;> simp [h1]
  · next e =>
    have h1 := (wellKept_of_translateFor e).2 h
    split
    · simp [h1]
    · split
      · simp [h1]
      · split
        · simp [h1]
        · next e2 => exact hp _ _ _ (by simp [(wellKept_of_takeIfOwned e2).2 h1])
theorem keepsPiece_accPiece {a fetch f} : KeepsPiece (accPiece a fetch f tk) := by
  intro s mem c j h
  unfold accPiece
  split
  · split <;> exact h
  · split
    · exact wellKept_atomicAt (fun _ _ _ h => wellKept_accPerform h) h
    · exact h
theorem keepsPiece_accSpad {a fetch f} : KeepsPiece (accSpad a fetch f) := by
  intro s mem c j h
  unfold accSpad
  dsimp only
  split
  · exact h
  · split <;> exact h

/-- Every accumulate issues and performs in the same way, whatever its operation. -/
theorem keeps_accumulate {i a fetch hd f} (h : WellKept s) : Keeps (accumulate i a fetch hd f s) := by
  unfold accumulate
  split
  · exact keeps_issueCmd h
  · exact keeps_workCmd (fun _ => keepsPiece_accSpad) h
@[simp] theorem wellKept_casPiece {recw w64 scope} (h : WellKept s) : WellKept (casPiece recw w64 scope tk s mem c).st := by
  unfold casPiece
  dsimp only
  split
  · split <;> exact h
  · split
    · simp [h]
    · exact wellKept_atomicAt (fun _ _ _ h => wellKept_casPerform h) h
theorem keeps_execCas {hd d recw w64 scope} (h : WellKept s) : Keeps (execCas hd d recw w64 scope s) := by
  unfold execCas
  dsimp only
  split
  · exact keeps_issueCmd h
  · exact keeps_onMember_next h

/-! ### Links (R420 to R427) -/

@[simp] theorem wellKept_modFabric {f} : WellKept (s.modFabric f) ↔ WellKept s := wellKept_update s
@[simp] theorem wellKept_modPort {p f} : WellKept (s.modPort p f) ↔ WellKept s := wellKept_modFabric
@[simp] theorem wellKept_sendOn {p dest x} : WellKept (s.sendOn p dest x) ↔ WellKept s := by simp [State.sendOn]
@[simp] theorem wellKept_send {dest x} : WellKept (s.send dest x) ↔ WellKept s := by
  unfold State.send; split <;> simp
@[simp] theorem wellKept_sendData {dest nm id off bs} : WellKept (s.sendData dest nm id off bs) ↔ WellKept s := by
  refine wellKept_foldl (fun s i => ?_) _ s
  dsimp only
  split <;> simp

end
end Sys2Proof.Machine

namespace Sys2Proof.Machine
section
variable {s : State} {tk : Task} {mem : Member} {t m : Nat} {c : Cmd}

/-! ### The store of prefixes: nodes, tiers, leases and readers (R360 to R380) -/

@[simp] theorem wellKept_announce {nm enter} : WellKept (s.announce nm enter) ↔ WellKept s := by
  unfold State.announce
  dsimp only
  split
  · simp
  · split <;> simp
@[simp] theorem wellKept_putNode {k n} : WellKept (s.putNode k n) ↔ WellKept s := wellKept_update s
@[simp] theorem wellKept_modNode {k f} : WellKept (s.modNode k f) ↔ WellKept s := by
  unfold State.modNode; split <;> simp
@[simp] theorem wellKept_modNode? {k f} : WellKept (s.modNode? k f) ↔ WellKept s := by
  unfold State.modNode?; split <;> simp
@[simp] theorem wellKept_putSlot {k x} : WellKept (s.putSlot k x) ↔ WellKept s := wellKept_update s
@[simp] theorem wellKept_relink {p cs} : WellKept (s.relink p cs) ↔ WellKept s := by simp [State.relink]
theorem wellKept_of_charge {ctx tier n} {s1 : State} (e : s.charge ctx tier n = some s1) : WellKept s1 ↔ WellKept s := by
  simp only [State.charge] at e
  split at e
  · cases e
  · cases e; simp
@[simp] theorem wellKept_refund {ctx tier n} : WellKept (s.refund ctx tier n) ↔ WellKept s := wellKept_update s
@[simp] theorem wellKept_dropLines {g} : WellKept (s.dropLines g) ↔ WellKept s := wellKept_update s
@[simp] theorem wellKept_unmap {ps} : WellKept (s.unmap ps) ↔ WellKept s := by simp [State.unmap]
@[simp] theorem wellKept_removeNode {k} : WellKept (s.removeNode k) ↔ WellKept s := by
  unfold State.removeNode
  split
  · rfl
  · simp only [wellKept_announce, wellKept_update, wellKept_unmap]
    split <;> simp
@[simp] theorem wellKept_demoted {k} : WellKept (s.demoted k) ↔ WellKept s := wellKept_modNode

/-- An operation that may find no room leaves the form as it is where it finds some. -/
def Leaves (s : State) (o : Option State) : Prop := ∀ s1, o = some s1 → (WellKept s1 ↔ WellKept s)

theorem leaves_none : Leaves s none := fun _ e => nomatch e
theorem leaves_some {s1 : State} : Leaves s (some s1) ↔ (WellKept s1 ↔ WellKept s) :=
  ⟨fun h => h s1 rfl, fun h _ e => Option.some.inj e ▸ h⟩
theorem Leaves.trans {s1 : State} {o : Option State} (h1 : WellKept s1 ↔ WellKept s) (h : Leaves s1 o) : Leaves s o :=
  fun s2 e => (h s2 e).trans h1
theorem Leaves.map {o : Option State} {f : State → State} (h : Leaves s o) (hf : ∀ s1, WellKept (f s1) ↔ WellKept s1) :
    Leaves s (o.map f) := by
  intro s2 e
  obtain ⟨s1, e1, rfl⟩ := Option.map_eq_some_iff.mp e
  exact (hf s1).trans (h s1 e1)
theorem Leaves.bind {o : Option State} {f : State → Option State} (h : Leaves s o) (hf : ∀ s1, Leaves s1 (f s1)) :
    Leaves s (o.bind f) := by
  intro s2 e
  obtain ⟨s1, e1, e2⟩ := Option.bind_eq_some_iff.mp e
  exact (hf s1 s2 e2).trans (h s1 e1)

theorem leaves_chestRoom {need} (f : Nat) : Leaves s (State.chestRoom need f s) := by
  induction f generalizing s with
  | zero => exact leaves_none
  | succ f ih =>
    unfold State.chestRoom
    split
    · exact leaves_some.2 .rfl
    · split
      · exact leaves_none
      · exact .trans wellKept_removeNode ih
theorem leaves_leaveDrawer {k n} : Leaves s (s.leaveDrawer k n) := by
  unfold State.leaveDrawer
  split
  · exact leaves_some.2 wellKept_removeNode
  · split
    · exact leaves_some.2 wellKept_putNode
    · exact (leaves_chestRoom _).map fun _ => wellKept_demoted
theorem leaves_drawerRoom {need} (f : Nat) {skip : List Nat} : Leaves s (State.drawerRoom need f skip s) := by
  induction f generalizing s skip with
  | zero => exact leaves_none
  | succ f ih =>
    unfold State.drawerRoom
    split
    · exact leaves_some.2 .rfl
    · split
      · exact leaves_none
      · split
        · next e => exact .trans (leaves_leaveDrawer _ e) ih
        · exact ih
theorem leaves_roomFor {need keep} : Leaves s (s.roomFor need keep) :=
  .trans wellKept_modNode? ((leaves_drawerRoom _).map fun _ => wellKept_modNode?)
@[simp] theorem wellKept_leaveShelf {k} : WellKept (s.leaveShelf k) ↔ WellKept s := by simp [State.leaveShelf]
theorem leaves_shelfRoom {keep l} (f : Nat) : Leaves s (State.shelfRoom keep l f s) := by
  induction f generalizing s with
  | zero => exact leaves_none
  | succ f ih =>
    unfold State.shelfRoom
    split
    · exact leaves_some.2 .rfl
    · split
      · exact .trans (wellKept_update s) ih
      · split
        · exact leaves_none
        · exact .trans wellKept_leaveShelf ih
theorem leaves_fillPlane {l} : Leaves s (s.fillPlane l) := by
  unfold State.fillPlane
  split
  · exact leaves_none
  · split
    · exact leaves_some.2 .rfl
    · exact (leaves_shelfRoom _).map fun s1 => by simp
theorem leaves_fillPlanes (ls : List ShelfLine) : Leaves s (s.fillPlanes ls) := by
  induction ls generalizing s with
  | nil => exact leaves_some.2 .rfl
  | cons l r ih => exact leaves_fillPlane.bind fun _ => ih
theorem leaves_fillShelf {k} : Leaves s (s.fillShelf k) := by
  intro s1 e
  obtain ⟨n, -, e2⟩ := Option.bind_eq_some_iff.mp e
  exact leaves_fillPlanes _ s1 e2
@[simp] theorem wellKept_fillPlane_getD {l} : WellKept ((s.fillPlane l).getD s) ↔ WellKept s := by
  cases e : s.fillPlane l with
  | none => rfl
  | some s1 => exact leaves_fillPlane s1 e
@[simp] theorem wellKept_readPlanes {ls} : WellKept (s.readPlanes ls) ↔ WellKept s :=
  wellKept_foldl (fun _ _ => wellKept_fillPlane_getD) ls s
@[simp] theorem wellKept_leaseId {nm} : WellKept (s.leaseId nm).2 ↔ WellKept s := by
  simp only [State.leaseId]
  split <;> simp
theorem wellKept_of_leaseId {nm o} {s1 : State} (e : s.leaseId nm = (o, s1)) : WellKept s1 ↔ WellKept s := by
  simpa [e] using wellKept_leaseId (s := s) (nm := nm)
@[simp] theorem wellKept_grantLease {ctx dev k n tier ticks} : WellKept (s.grantLease ctx dev k n tier ticks).2 ↔ WellKept s := by
  unfold State.grantLease
  extract_lets way t
  split
  · rfl
  · split
    · rfl
    · next id s1 e1 =>
      split
      · rfl
      · next s2 e2 =>
        have h2 : WellKept s2 ↔ WellKept s1 := by
          split at e2
          · exact wellKept_of_charge e2
          · cases e2; rfl
        split
        · rfl
        · next s3 e3 =>
          have h3 : WellKept s3 ↔ WellKept s2 := by
            split at e3
            · exact leaves_fillShelf _ e3
            · cases e3; rfl
          simp [h3, h2, wellKept_of_leaseId e1]
@[simp] theorem wellKept_endLease {l} : WellKept (s.endLease l) ↔ WellKept s := by
  unfold State.endLease
  dsimp only
  split <;> simp
@[simp] theorem wellKept_insertNode {k n p die} : WellKept (s.insertNode k n p die) ↔ WellKept s := by
  simp only [State.insertNode, wellKept_announce]
  split <;> simp
@[simp] theorem wellKept_addReader {k tier t m c} : WellKept (s.addReader k tier t m c) ↔ WellKept s := by
  unfold State.addReader; split <;> simp
@[simp] theorem wellKept_dropReader {k t m c} : WellKept (s.dropReader k t m c) ↔ WellKept s := wellKept_update s
@[simp] theorem wellKept_dropReaders {t m c} : WellKept (s.dropReaders t m c) ↔ WellKept s := wellKept_update s

end
end Sys2Proof.Machine

namespace Sys2Proof.Machine
section
variable {s : State} {tk : Task} {mem : Member} {t m : Nat} {c : Cmd}

/-! ### Prefix-store commands: how they issue, perform and end (R254 to R260) -/

theorem keeps_prefixIssue {i hd p f legal post} (h : WellKept s) : Keeps (prefixIssue s i hd p f legal post) := keeps_issueCmd h
@[simp] theorem wellKept_resultUnit {a out} : WellKept (resultUnit s mem c a out).st ↔ WellKept s := wellKept_spPiece

/-- An operation on the store leaves the form as it is. -/
def LeavesOp (f : StoreOp) : Prop := ∀ s tk mem c, WellKept (f s tk mem c).1 ↔ WellKept s

theorem wellKept_replayed {n logged f} (hf : LeavesOp f) : WellKept (replayed s tk mem c n logged f).1 ↔ WellKept s := by
  unfold replayed
  dsimp only
  split
  · exact hf ..
  · split
    · rfl
    · exact hf ..
theorem wellKept_readLines {tier fill} (ls : List ShelfLine) : WellKept (State.readLines tier fill ls s).2 ↔ WellKept s := by
  induction ls generalizing s with
  | nil => rfl
  | cons l r ih =>
    simp [State.readLines, apply_ite Prod.snd, ih]
theorem wellKept_of_readLines {tier fill ls o} {s1 : State} (e : State.readLines tier fill ls s = (o, s1)) : WellKept s1 ↔ WellKept s := by
  simpa [e] using wellKept_readLines (s := s) (tier := tier) (fill := fill) ls
theorem keeps_prefixPerform {p n logged f lines} (hf : LeavesOp f) (h : WellKept s) : Keeps (prefixPerform p n logged f s lines) := by
  refine keeps_onMember fun tk mem => ?_
  split
  · split
    · dsimp only
      split
      · next e => exact keeps_afterPieces ((wellKept_of_readLines e).2 h)
      · next e => exact keeps_afterPieces (by simp [wellKept_replayed hf, (wellKept_of_readLines e).2 h])
    · simp [h]
  · simp [h]
theorem keeps_echoPerform {p n logged f} (hf : LeavesOp f) (h : WellKept s) : Keeps (echoPerform p n logged f s) := by
  refine keeps_onMember fun tk mem => ?_
  split
  · split
    · split
      · simp [h]
      · split
        · simp [h]
        · have h1 := (wellKept_replayed (s := s) (tk := tk) (mem := mem) (c := by assumption) (n := n) (logged := logged) hf).2 h
          dsimp only
          split
          · refine keeps_afterPieces ?_
            split <;> simp [h1]
          · exact keeps_afterPieces (by simp [h1])
    · simp [h]
  · simp [h]

/-! ### Slots (R257 to R262) -/

@[simp] theorem wellKept_openSlot {ctx x} : WellKept (s.openSlot ctx mem x).1 ↔ WellKept s := by
  unfold State.openSlot
  split
  · rfl
  · split
    · rfl
    · next e1 =>
      split
      · rfl
      · next e2 => simp [leaves_roomFor _ e2, wellKept_of_charge e1]
theorem leavesOp_slopenOp : LeavesOp slopenOp := by
  intro s tk mem c
  simp only [slopenOp]
  split
  · rfl
  · split
    · rfl
    · simp
theorem keeps_execSlopen {hd p} (h : WellKept s) : Keeps (execSlopen hd p s) := by
  unfold execSlopen
  split
  · exact keeps_prefixIssue h
  · exact keeps_prefixPerform leavesOp_slopenOp h
theorem leavesOp_slforkOp : LeavesOp slforkOp := by
  intro s tk mem c
  unfold slforkOp
  split <;> simp
theorem keeps_execSlfork {hd p} (h : WellKept s) : Keeps (execSlfork hd p s) := by
  unfold execSlfork
  split
  · exact keeps_prefixIssue h
  · exact keeps_prefixPerform leavesOp_slforkOp h
@[simp] theorem wellKept_tailsGone {ks} : WellKept (s.tailsGone ks) ↔ WellKept s := wellKept_update s
theorem leavesOp_slmoveOp : LeavesOp slmoveOp := by
  intro s tk mem c
  unfold slmoveOp
  split
  · split <;> simp
  · rfl
theorem keeps_execSlmove {hd p} (h : WellKept s) : Keeps (execSlmove hd p s) := by
  unfold execSlmove
  split
  · exact keeps_prefixIssue h
  · exact keeps_prefixPerform leavesOp_slmoveOp h
theorem leavesOp_slmoveSwapOp : LeavesOp slmoveSwapOp := by
  intro s tk mem c
  unfold slmoveSwapOp
  split
  · split <;> simp
  · rfl
theorem keeps_execSlmoveSwap {hd p} (h : WellKept s) : Keeps (execSlmoveSwap hd p s) := by
  unfold execSlmoveSwap
  split
  · exact keeps_prefixIssue h
  · exact keeps_prefixPerform leavesOp_slmoveSwapOp h
theorem leavesOp_slcloseOp : LeavesOp slcloseOp := by
  intro s tk mem c
  unfold slcloseOp
  split <;> simp
theorem keeps_execSlclose {hd p} (h : WellKept s) : Keeps (execSlclose hd p s) := by
  unfold execSlclose
  split
  · exact keeps_prefixIssue h
  · exact keeps_prefixPerform leavesOp_slcloseOp h
theorem leavesOp_slinfoOp : LeavesOp slinfoOp := by
  intro s tk mem c
  unfold slinfoOp
  split <;> rfl
theorem keeps_execSlinfo {hd p} (h : WellKept s) : Keeps (execSlinfo hd p s) := by
  unfold execSlinfo
  split
  · exact keeps_prefixIssue h
  · exact keeps_echoPerform leavesOp_slinfoOp h

/-! ### Look-ups, tails and blocks (R263 to R266) -/

@[simp] theorem wellKept_rxLocal {lse tier} : WellKept (rxLocal lse tier s tk mem c).1 ↔ WellKept s := by
  unfold rxLocal
  split
  · rfl
  · dsimp only
    split
    · split <;> simp
    · rfl
@[simp] theorem wellKept_request {k nm dest msg} : WellKept (s.request t m c k nm dest msg) ↔ WellKept s := by simp [State.request]
@[simp] theorem keeps_rxFinish {p hit out} (h : WellKept s) : Keeps (rxFinish s t m tk mem c p hit out) := by
  unfold rxFinish
  split
  · simp [h]
  · extract_lets logged m1 actor s0 u
    have hu : WellKept u.st := by simp [u, s0, h]
    split
    · exact keeps_afterPieces (by simp [hu])
    · exact keeps_afterPieces hu
@[simp] theorem keeps_rxProbe {p b out q} (h : WellKept s) : Keeps (rxProbe s t m tk mem c p b out q) := by
  unfold rxProbe
  split <;> simp [h]
@[simp] theorem keeps_rxAnswered {p ans} (h : WellKept s) : Keeps (rxAnswered s t m tk mem c p ans) := by
  unfold rxAnswered
  dsimp only
  split <;> simp [h]
theorem keeps_execRxlook {hd p lse tier rmt} (h : WellKept s) : Keeps (execRxlook hd p lse tier rmt s) := by
  unfold execRxlook
  split
  · exact keeps_prefixIssue h
  · refine keeps_onMember fun tk mem => ?_
    split
    · split
      · dsimp only
        split
        · simp [h]
        · split
          · simp [h]
          · split
            · simp [h]
            · split
              · simp [h]
              · split
                · simp [h]
                · split <;> simp [h]
      · simp [h]
    · simp [h]
theorem leavesOp_kappOp : LeavesOp kappOp := by
  intro s tk mem c
  unfold kappOp
  split
  · rfl
  · dsimp only
    split_ifs <;> simp
theorem keeps_execKapp {hd p} (h : WellKept s) : Keeps (execKapp hd p s) := by
  unfold execKapp
  split
  · exact keeps_prefixIssue h
  · exact keeps_prefixPerform leavesOp_kappOp h
theorem leavesOp_sealOp {evc} : LeavesOp (sealOp evc) := by
  intro s tk mem c
  unfold sealOp
  split
  · rfl
  · dsimp only
    split
    · rfl
    · split
      · rfl
      · split
        · rfl
        · next e1 =>
          have h1 := leaves_roomFor _ e1
          split
          · split <;> simp [h1]
          · split
            · rfl
            · split <;> simp [h1]
theorem keeps_execSeal {hd p evc} (h : WellKept s) : Keeps (execSeal hd p evc s) := by
  unfold execSeal
  split
  · exact keeps_prefixIssue h
  · exact keeps_prefixPerform leavesOp_sealOp h

end
end Sys2Proof.Machine

namespace Sys2Proof.Machine
section
variable {s : State} {tk : Task} {mem : Member} {t m : Nat} {c : Cmd}

/-! ### Reads of grains, and the commands that select and gather (R267 to R271) -/

@[simp] theorem wellKept_windowCheck {x node part grain} : WellKept (windowCheck s tk mem x node part grain).st ↔ WellKept s := by
  unfold windowCheck
  dsimp only
  split
  · rfl
  · split
    · next e => exact wellKept_of_engTranslate e
    · next e => split <;> exact wellKept_of_engTranslate e
@[simp] theorem wellKept_reach {k n need t m c} : WellKept (s.reach k n need t m c).2 ↔ WellKept s := by
  unfold State.reach; split <;> simp
theorem wellKept_readGrain {all g} : WellKept (readGrain tk c all g s mem).2.2 ↔ WellKept s := by
  unfold readGrain
  extract_lets r a
  have hr : WellKept r.2 ↔ WellKept s := by
    unfold r
    split
    · rfl
    · split <;> simp
  have ha : WellKept a.st ↔ WellKept s := by
    unfold a
    split
    · split <;> simp [hr]
    · exact hr
  split
  · exact ha
  · split
    · next e => exact (wellKept_of_readLines e).trans ha
    · next e => exact (wellKept_of_readLines e).trans ha
theorem wellKept_readGrains {all} (gs : List GrainRead) : WellKept (readGrains tk c all gs s mem).2.2 ↔ WellKept s := by
  induction gs generalizing s mem with
  | nil => rfl
  | cons g r ih =>
    have h1 := wellKept_readGrain (s := s) (tk := tk) (mem := mem) (c := c) (all := all) (g := g)
    unfold readGrains
    split
    · next e =>
      rw [e] at h1
      dsimp only
      rw [ih, ← h1]
      split <;> simp
    · exact h1
theorem wellKept_of_readGrains {all gs o m1} {s1 : State} (e : readGrains tk c all gs s mem = (o, m1, s1)) : WellKept s1 ↔ WellKept s := by
  simpa [e] using wellKept_readGrains (s := s) (tk := tk) (mem := mem) (c := c) (all := all) gs
theorem leavesOp_cpactOp : LeavesOp cpactOp := by
  intro s tk mem c
  unfold cpactOp
  split
  · dsimp only; simp
  · rfl
@[simp] theorem wellKept_cpactReading : WellKept (cpactReading s tk mem c).2.2 ↔ WellKept s := by
  unfold cpactReading
  split
  · exact wellKept_readGrains _
  · rfl
theorem wellKept_of_cpactReading {o m1} {s1 : State} (e : cpactReading s tk mem c = (o, m1, s1)) : WellKept s1 ↔ WellKept s := by
  simpa [e] using wellKept_cpactReading (s := s) (tk := tk) (mem := mem) (c := c)
theorem keeps_execCpact {hd p} (h : WellKept s) : Keeps (execCpact hd p s) := by
  unfold execCpact
  split
  · exact keeps_prefixIssue h
  · refine keeps_onMember fun tk mem => ?_
    split
    · split
      · dsimp only
        split
        · next e => exact keeps_afterPieces ((wellKept_of_cpactReading e).2 h)
        · next e => exact keeps_afterPieces ((wellKept_of_cpactReading e).2 h)
        · next e =>
          exact keeps_afterPieces (by simp [wellKept_replayed leavesOp_cpactOp, (wellKept_of_cpactReading e).2 h])
      · simp [h]
    · simp [h]
theorem leavesOp_leaseOp : LeavesOp leaseOp := by
  intro s tk mem c
  unfold leaseOp
  split <;> simp
theorem keeps_execLease {hd p} (h : WellKept s) : Keeps (execLease hd p s) := by
  unfold execLease
  split
  · exact keeps_prefixIssue h
  · exact keeps_prefixPerform leavesOp_leaseOp h
theorem leavesOp_renewOp : LeavesOp renewOp := by
  intro s tk mem c
  unfold renewOp
  split <;> simp
theorem keeps_execRenew {hd p} (h : WellKept s) : Keeps (execRenew hd p s) := by
  unfold execRenew
  split
  · exact keeps_prefixIssue h
  · exact keeps_prefixPerform leavesOp_renewOp h
theorem leavesOp_freeOp : LeavesOp freeOp := by
  intro s tk mem c
  unfold freeOp
  split <;> simp
theorem keeps_execFree {hd p} (h : WellKept s) : Keeps (execFree hd p s) := by
  unfold execFree
  split
  · exact keeps_prefixIssue h
  · exact keeps_prefixPerform leavesOp_freeOp h
theorem leavesOp_evclassOp : LeavesOp evclassOp := by
  intro s tk mem c
  unfold evclassOp
  split <;> simp
theorem keeps_execEvclass {hd p} (h : WellKept s) : Keeps (execEvclass hd p s) := by
  unfold execEvclass
  split
  · exact keeps_prefixIssue h
  · exact keeps_prefixPerform leavesOp_evclassOp h
theorem leavesOp_promoOp : LeavesOp promoOp := by
  intro s tk mem c
  unfold promoOp
  split
  · rfl
  · split
    · split
      · next e => exact leaves_fillShelf _ e
      · rfl
    · split
      · rfl
      · split
        · next e => simp [leaves_roomFor _ e]
        · rfl
theorem keeps_execPromo {hd p} (h : WellKept s) : Keeps (execPromo hd p s) := by
  unfold execPromo
  split
  · exact keeps_prefixIssue h
  · exact keeps_prefixPerform leavesOp_promoOp h
theorem leavesOp_nodeinfoOp : LeavesOp nodeinfoOp := by
  intro s tk mem c
  unfold nodeinfoOp
  split <;> rfl
theorem keeps_execNodeinfo {hd p} (h : WellKept s) : Keeps (execNodeinfo hd p s) := by
  unfold execNodeinfo
  split
  · exact keeps_prefixIssue h
  · exact keeps_echoPerform leavesOp_nodeinfoOp h
theorem keeps_execBsel {hd p} (h : WellKept s) : Keeps (execBsel hd p s) := by
  unfold execBsel
  split
  · exact keeps_prefixIssue h
  · refine keeps_onMember fun tk mem => ?_
    split
    · split
      · dsimp only
        split
        · exact keeps_afterPieces (by simp [h])
        · split
          · next e => exact keeps_afterPieces ((wellKept_of_readGrains e).2 h)
          · next e => exact keeps_afterPieces ((wellKept_of_readGrains e).2 h)
          · next e =>
            have h1 := (wellKept_of_readGrains e).2 h
            refine keeps_afterPieces ?_
            rw [wellKept_whole]
            split <;> simp [h1]
      · simp [h]
    · simp [h]
@[simp] theorem wellKept_pgathPut {r j f} : WellKept (pgathPut s mem c r j f).st ↔ WellKept s := by
  unfold pgathPut
  dsimp only
  split <;> simp
@[simp] theorem wellKept_pgathNew {r j row} : WellKept (pgathNew s mem c r j row).st ↔ WellKept s := by simp [pgathNew]
@[simp] theorem wellKept_pgathRow {r j k} : WellKept (pgathRow tk s mem c r j k).st ↔ WellKept s := by
  unfold pgathRow
  extract_lets q t m g rb cut row at_ pos
  split
  · simp
  · have hrow : ∀ x st mm, WellKept (row x st mm).st ↔ WellKept st := fun _ _ _ => wellKept_pgathPut
    split
    · split
      · simp
      · extract_lets s0 seen acc
        have hacc : WellKept acc.st ↔ WellKept s := by
          unfold acc s0
          split <;> simp
        split
        · exact hacc
        · split
          · next e => exact (wellKept_of_readLines e).trans hacc
          · next e =>
            rw [← hacc, ← wellKept_of_readLines e, hrow]
            split <;> simp
    · split
      · next e => exact wellKept_of_readLines e
      · next e => exact (hrow _ _ _).trans (wellKept_of_readLines e)
    · simp
    · simp
theorem keepsPiece_pgathPiece {p} : KeepsPiece (pgathPiece p tk) := by
  intro s mem c j h
  unfold pgathPiece
  split
  · exact h
  · dsimp only
    split <;> simp [h]
theorem keeps_execPgath {hd p w} (h : WellKept s) : Keeps (execPgath hd p w s) := by
  unfold execPgath
  split
  · exact keeps_prefixIssue h
  · exact keeps_workCmd (fun _ => keepsPiece_pgathPiece) h
@[simp] theorem keeps_replFinish {p out} (h : WellKept s) : Keeps (replFinish s t m mem c p out) :=
  keeps_afterPieces (by simp [h])
theorem keeps_execRepl {hd p} (h : WellKept s) : Keeps (execRepl hd p s) := by
  unfold execRepl
  split
  · exact keeps_prefixIssue h
  · refine keeps_onMember fun tk mem => ?_
    split
    · split
      · dsimp only
        split
        · exact keeps_afterPieces (by simp [h])
        · split <;> simp [h]
      · simp [h]
    · simp [h]

end
end Sys2Proof.Machine

namespace Sys2Proof.Machine

/-! ### The token engine: what its pieces of work do to the device (R272 to R292) -/

/-- A piece of work of the token engine leaves the form as it is, whether it answers or fails. -/
def LeavesImg {α : Type} (o : Img α) : Prop := ∀ p : Member × State, WellKept (o.run.run p).2.2 ↔ WellKept p.2

section
variable {α β : Type}

theorem img_run_bind (o : Img α) (f : α → Img β) (p : Member × State) : (o >>= f).run.run p = match o.run.run p with
    | (.error e, q) => (.error e, q)
    | (.ok a, q) => (f a).run.run q := by
  rw [ExceptT.run_bind, StateT.run_bind]
  rcases o.run.run p with ⟨_ | a, q⟩ <;> rfl
theorem img_run_tryCatch (o : Img α) (f : ImgErr → Img α) (p : Member × State) : (tryCatch o f).run.run p = match o.run.run p with
    | (.error e, q) => (f e).run.run q
    | (.ok a, q) => (.ok a, q) := by
  simp only [tryCatch, tryCatchThe, MonadExceptOf.tryCatch, ExceptT.tryCatch, ExceptT.run_mk, StateT.run_bind]
  change (o.run.run p >>= _ : Id _) = _
  rcases o.run.run p with ⟨_ | a, q⟩ <;> rfl
theorem img_run_get {f : Member × State → Img β} (p : Member × State) : (get >>= f : Img β).run.run p = (f p).run.run p := rfl
theorem img_run_set {q : Member × State} {f : PUnit → Img β} (p : Member × State) :
    (set q >>= f : Img β).run.run p = (f ⟨⟩).run.run q := rfl

theorem leavesImg_pure (a : α) : LeavesImg (pure a) := fun _ => .rfl
theorem leavesImg_throw (e : ImgErr) : LeavesImg (throw e : Img α) := fun _ => .rfl
theorem leavesImg_bind {o : Img α} {f : α → Img β} (ho : LeavesImg o) (hf : ∀ a, LeavesImg (f a)) : LeavesImg (o >>= f) := by
  intro p
  rw [img_run_bind, ← ho p]
  split
  · next e => rw [e]
  · next a q e => rw [e]; exact hf a q
theorem leavesImg_get {f : Member × State → Img β} (hf : ∀ a, LeavesImg (f a)) : LeavesImg (get >>= f) := fun p => hf p p
theorem leavesImg_tryCatch {o : Img α} {f : ImgErr → Img α} (ho : LeavesImg o) (hf : ∀ e, LeavesImg (f e)) :
    LeavesImg (tryCatch o f) := by
  intro p
  rw [img_run_tryCatch, ← ho p]
  split
  · next e q h => rw [h]; exact hf e q
  · next h => rw [h]
theorem leavesImg_store {f : Store → Store} : LeavesImg (Img.store f) := fun p => wellKept_update p.2
theorem leavesImg_ite {c : Prop} [Decidable c] {a b : Img α} (ha : LeavesImg a) (hb : LeavesImg b) : LeavesImg (if c then a else b) := by
  split <;> assumption

theorem leavesImg_imgParts {tk x} (ps : List (Nat × Nat)) : LeavesImg (imgParts tk x ps) := by
  induction ps with
  | nil => exact leavesImg_pure _
  | cons q r ih =>
    intro p
    have h1 := wellKept_engTranslate (s := p.2) (tk := tk) (mem := p.1) (x := x) (va := q.1)
    simp only [imgParts]
    rw [img_run_get, img_run_set, ← h1]
    split
    · rfl
    · split
      · rfl
      · split
        · rfl
        · rw [img_run_set]
          split
          · exact wellKept_noteRead
          · rw [img_run_set]
            refine (leavesImg_bind ih fun _ => leavesImg_pure _) _ |>.trans ?_
            simp

/-- A reader leaves the form as it is wherever it reads. -/
def LeavesRd (rd : ImgReader) : Prop := ∀ va n, LeavesImg (rd va n)

theorem leavesRd_imgRead {tk x} : LeavesRd (imgRead tk x) := fun _ _ => leavesImg_imgParts _
end

section
variable {rd : ImgReader} {v : Vocab} {g : Gram} (hr : LeavesRd rd)
include hr

/-! #### Vocabulary and the coding of a run (R274 to R282) -/

theorem leavesImg_vocabAt {base} : LeavesImg (vocabAt rd base) := by
  refine leavesImg_bind (hr _ _) fun b => ?_
  dsimp only
  exact leavesImg_ite (leavesImg_pure _) (leavesImg_throw _)
theorem leavesImg_vocabProbe {h k} (n : Nat) {i : Nat} : LeavesImg (vocabProbe rd v h k n i) := by
  induction n generalizing i with
  | zero => exact leavesImg_pure _
  | succ n ih =>
    refine leavesImg_bind (hr _ _) fun b => ?_
    dsimp only
    exact leavesImg_ite (leavesImg_pure _) (leavesImg_ite (leavesImg_pure _) ih)
theorem leavesImg_vocabLookup {bs} : LeavesImg (vocabLookup rd v bs) :=
  leavesImg_ite (leavesImg_pure _) (leavesImg_vocabProbe hr _)
theorem leavesImg_pieceSteps {r e} (is : List Nat) : LeavesImg (pieceSteps rd v r e is) := by
  induction is with
  | nil => exact leavesImg_pure _
  | cons i t ih =>
    refine leavesImg_bind (leavesImg_vocabLookup hr) fun o => ?_
    split
    · exact leavesImg_bind ih fun _ => leavesImg_pure _
    · exact ih
theorem leavesImg_settle {r : Run} {e} : LeavesImg (r.settle rd v e) :=
  leavesImg_bind (leavesImg_pieceSteps hr _) fun _ => leavesImg_pure _
theorem leavesImg_stepTokens {fb bs} : LeavesImg (stepTokens rd v fb bs) := by
  refine leavesImg_ite (leavesImg_pure _) (leavesImg_bind (leavesImg_vocabLookup hr) fun o => ?_)
  split <;> exact leavesImg_pure _
theorem leavesImg_chainTokens {r} (as : List Nat) : LeavesImg (chainTokens rd v r as) := by
  induction as with
  | nil => exact leavesImg_pure _
  | cons a t ih =>
    cases t with
    | nil => exact leavesImg_pure _
    | cons b t => exact leavesImg_bind (leavesImg_stepTokens hr) fun _ => leavesImg_bind ih fun _ => leavesImg_pure _
theorem leavesImg_emit {r : Run} {c} : LeavesImg (r.emit rd v c) :=
  leavesImg_bind (leavesImg_chainTokens hr _) fun _ => leavesImg_pure _
theorem leavesImg_resettle (n : Nat) {j : Nat} {r : Run} : LeavesImg (Run.resettle rd v n j r) := by
  induction n generalizing j r with
  | zero => exact leavesImg_pure _
  | succ n ih => exact leavesImg_ite (leavesImg_bind (leavesImg_settle hr) fun _ => ih) ih
theorem leavesImg_commit {r : Run} : LeavesImg (r.commit rd v) := by
  refine leavesImg_bind (leavesImg_emit hr) fun a => leavesImg_ite (leavesImg_pure _) ?_
  refine leavesImg_bind (leavesImg_emit hr) fun b => ?_
  exact leavesImg_bind (leavesImg_resettle hr _) fun _ => leavesImg_bind (leavesImg_emit hr) fun _ => leavesImg_pure _
theorem leavesImg_char {q : TkState} {ch} : LeavesImg (q.char rd v ch) :=
  leavesImg_bind (leavesImg_settle hr) fun _ => leavesImg_bind (leavesImg_commit hr) fun _ => leavesImg_pure _
theorem leavesImg_invalid {q : TkState} {x} : LeavesImg (q.invalid rd v x) :=
  leavesImg_bind (leavesImg_emit hr) fun _ => leavesImg_pure _
theorem leavesImg_invalids (bs : List Byte) {q : TkState} : LeavesImg (TkState.invalids rd v bs q) := by
  induction bs generalizing q with
  | nil => exact leavesImg_pure _
  | cons x r ih => exact leavesImg_bind (leavesImg_invalid hr) fun _ => ih
theorem leavesImg_first {q : TkState} {x} : LeavesImg (q.first rd v x) := by
  unfold TkState.first
  split
  · exact leavesImg_invalid hr
  · exact leavesImg_char hr
  · exact leavesImg_pure _
theorem leavesImg_byte {q : TkState} {x} : LeavesImg (q.byte rd v x) := by
  unfold TkState.byte
  split
  · exact leavesImg_first hr
  · exact leavesImg_ite (leavesImg_ite (leavesImg_char hr) (leavesImg_pure _))
      (leavesImg_bind (leavesImg_invalids hr _) fun _ => leavesImg_first hr)
theorem leavesImg_feed (bs : List Byte) {q : TkState} : LeavesImg (TkState.feed rd v bs q) := by
  induction bs generalizing q with
  | nil => exact leavesImg_pure _
  | cons x r ih => exact leavesImg_bind (leavesImg_byte hr) fun _ => ih
theorem leavesImg_drain {q : TkState} : LeavesImg (q.drain rd v) := leavesImg_bind (leavesImg_emit hr) fun _ => leavesImg_pure _
theorem leavesImg_tokenPiece {t} : LeavesImg (tokenPiece rd v t) :=
  leavesImg_ite (leavesImg_pure _) (leavesImg_bind (hr _ _) fun _ => leavesImg_pure _)
theorem leavesImg_tokenPieces (ts : List Nat) : LeavesImg (tokenPieces rd v ts) := by
  induction ts with
  | nil => exact leavesImg_pure _
  | cons t r ih => exact leavesImg_bind (leavesImg_tokenPiece hr) fun _ => leavesImg_bind ih fun _ => leavesImg_pure _

/-! #### Grammars (R284 to R290) -/

theorem leavesImg_gramAt {base} : LeavesImg (gramAt rd base) := by
  refine leavesImg_bind (hr _ _) fun b => ?_
  dsimp only
  exact leavesImg_ite (leavesImg_pure _) (leavesImg_throw _)
theorem leavesImg_gramRow {x} : LeavesImg (gramRow rd g x) := leavesImg_bind (hr _ _) fun _ => leavesImg_pure _
theorem leavesImg_gramClass {t} : LeavesImg (gramClass rd g t) :=
  leavesImg_ite (leavesImg_pure _) (leavesImg_bind (hr _ _) fun _ => leavesImg_pure _)
theorem leavesImg_gramBit {row k} : LeavesImg (gramBit rd g row k) := leavesImg_bind (hr _ _) fun _ => leavesImg_pure _
theorem leavesImg_gramAllows {row t} : LeavesImg (gramAllows rd g row t) := by
  refine leavesImg_bind (leavesImg_gramClass hr) fun o => ?_
  split
  · exact leavesImg_pure _
  · exact leavesImg_bind (leavesImg_gramBit hr) fun _ => leavesImg_pure _
theorem leavesImg_gramAccepts {st} : LeavesImg (gramAccepts rd g st) :=
  leavesImg_ite (leavesImg_pure _) (leavesImg_bind (hr _ _) fun _ => leavesImg_pure _)
theorem leavesImg_gramMask {row} (n : Nat) {t : Nat} : LeavesImg (gramMask rd g row n t) := by
  induction n generalizing t with
  | zero => exact leavesImg_pure _
  | succ n ih => exact leavesImg_bind (leavesImg_gramAllows hr) fun _ => leavesImg_bind ih fun _ => leavesImg_pure _
theorem leavesImg_slotMask {x n} : LeavesImg (slotMask rd g x n) := by
  refine leavesImg_ite (leavesImg_pure _) (leavesImg_bind (leavesImg_gramRow hr) fun o => ?_)
  split
  · exact leavesImg_pure _
  · exact leavesImg_gramMask hr _
theorem leavesImg_gramStep {x tok} : LeavesImg (gramStep rd g x tok) := by
  refine leavesImg_ite (leavesImg_pure _) ?_
  split
  · exact leavesImg_pure _
  · refine leavesImg_bind (leavesImg_gramRow hr) fun o => ?_
    split
    · exact leavesImg_pure _
    · refine leavesImg_bind (leavesImg_gramAllows hr) fun o => ?_
      split
      · exact leavesImg_pure _
      · refine leavesImg_bind (hr _ _) fun o => ?_
        split <;> exact leavesImg_pure _
theorem leavesImg_boundGram {tk n} : LeavesImg (boundGram tk rd n) := by
  refine leavesImg_get fun a => ?_
  split
  · exact leavesImg_throw _
  · exact leavesImg_gramAt hr
theorem leavesImg_gramPair {tk mode x tok} : LeavesImg (gramPair tk rd mode x tok) := by
  unfold gramPair
  split
  · exact leavesImg_pure _
  · exact leavesImg_bind (leavesImg_boundGram hr) fun _ => leavesImg_pure _
  · exact leavesImg_ite (leavesImg_pure _)
      (leavesImg_ite (leavesImg_pure _) (leavesImg_bind (leavesImg_boundGram hr) fun _ => leavesImg_gramStep hr))
end

section
variable {s : State} {tk : Task} {mem : Member} {t m : Nat} {c : Cmd}

/-! #### What the token commands come to -/

/-- What a command of the token engine comes to leaves the form as it is. -/
def LeavesTok (f : Task → Member → Cmd → Img TokOut) : Prop := ∀ tk mem c, LeavesImg (f tk mem c)

theorem leavesTok_tkOutcome {drain} : LeavesTok (tkOutcome drain) := by
  intro tk mem c
  have hr := leavesRd_imgRead (tk := tk) (x := c.stream)
  refine leavesImg_bind (leavesImg_vocabAt hr) fun v => ?_
  dsimp only
  split
  · split
    · exact leavesImg_pure _
    · split
      · exact leavesImg_bind (leavesImg_drain hr) fun _ => leavesImg_pure _
      · split
        · exact leavesImg_pure _
        · exact leavesImg_bind (leavesImg_feed hr _) fun _ => leavesImg_pure _
  · exact leavesImg_pure _
theorem leavesTok_detokOutcome : LeavesTok detokOutcome := by
  intro tk mem c
  have hr := leavesRd_imgRead (tk := tk) (x := c.stream)
  refine leavesImg_bind (leavesImg_vocabAt hr) fun v => ?_
  exact leavesImg_ite (leavesImg_pure _)
    (leavesImg_bind (leavesImg_tokenPieces hr _) fun _ => leavesImg_ite (leavesImg_pure _) (leavesImg_pure _))
theorem leavesTok_gmaskOutcome : LeavesTok gmaskOutcome := by
  intro tk mem c
  have hr := leavesRd_imgRead (tk := tk) (x := c.stream)
  refine leavesImg_get fun a => ?_
  dsimp only
  split
  · exact leavesImg_pure _
  · refine leavesImg_ite (leavesImg_pure _) ?_
    split
    · exact leavesImg_throw _
    · exact leavesImg_bind (leavesImg_gramAt hr) fun _ => leavesImg_bind (leavesImg_slotMask hr) fun _ =>
        leavesImg_bind (leavesImg_gramAccepts hr) fun _ => leavesImg_pure _
theorem leavesTok_gloadCheck : LeavesTok gloadCheck := by
  intro tk mem c
  unfold gloadCheck
  split
  · exact leavesImg_bind (leavesImg_gramAt leavesRd_imgRead) fun _ => leavesImg_pure _
  · exact leavesImg_pure _
theorem leavesTok_gloadOutcome {n} : LeavesTok (gloadOutcome n) := fun _ _ _ =>
  leavesImg_bind (leavesTok_gloadCheck _ _ _) fun _ => leavesImg_bind leavesImg_store fun _ => leavesImg_pure _
theorem leavesImg_gramPairAt {mode i} : LeavesImg (gramPairAt tk mem c mode i) := by
  refine leavesImg_get fun a => ?_
  dsimp only
  split
  · exact leavesImg_pure _
  · refine leavesImg_bind (leavesImg_tryCatch (leavesImg_gramPair leavesRd_imgRead) fun e => ?_)
      fun _ => leavesImg_bind leavesImg_store fun _ => leavesImg_pure _
    split
    · exact leavesImg_pure _
    · exact leavesImg_throw _
theorem leavesImg_gramPairs {mode} (n : Nat) {i : Nat} : LeavesImg (gramPairs tk mem c mode n i) := by
  induction n generalizing i with
  | zero => exact leavesImg_pure _
  | succ n ih => exact leavesImg_bind leavesImg_gramPairAt fun _ => leavesImg_bind ih fun _ => leavesImg_pure _
theorem leavesTok_gstepOutcome {mode} : LeavesTok (gstepOutcome mode) := fun _ _ _ =>
  leavesImg_bind (leavesImg_gramPairs _) fun _ => leavesImg_pure _

end
end Sys2Proof.Machine

namespace Sys2Proof.Machine
section
variable {s : State} {tk : Task} {mem : Member} {t m : Nat} {c : Cmd}

/-! #### How the token commands perform (R272, R273, R291) -/

theorem wellKept_imgAt {α : Type} {o : Img α} (ho : LeavesImg o) : WellKept (o.at s mem).2.2 ↔ WellKept s := by
  have h1 := ho (mem, s)
  unfold Img.at
  split
  · next e => rw [e] at h1; simpa using h1
  · exact h1
@[simp] theorem wellKept_tokWrites (ws : List (Nat × List (Byte × Bool))) : WellKept (tokWrites s c ws mem).st ↔ WellKept s := by
  induction ws generalizing mem with
  | nil => rfl
  | cons w r ih =>
    unfold tokWrites
    dsimp only
    split
    · exact ih
    · simp
@[simp] theorem wellKept_tokUnit {p o} : WellKept (tokUnit c p o).st ↔ WellKept o.2.2 := by
  unfold tokUnit
  split
  · rfl
  · simp
  · dsimp only
    split <;> simp
theorem keeps_tokPerform {p f} (hf : LeavesTok f) (h : WellKept s) : Keeps (tokPerform p f s) := by
  refine keeps_onMember fun tk mem => ?_
  split
  · split
    · refine keeps_afterPieces ?_
      rw [wellKept_whole, wellKept_tokUnit]
      exact (wellKept_imgAt (hf _ _ _)).2 h
    · simp [h]
  · simp [h]
theorem keeps_tkIssue {i hd p drain} (h : WellKept s) : Keeps (tkIssue s i hd p drain) := keeps_issueCmd h
theorem keeps_execTkfeed {hd p} (h : WellKept s) : Keeps (execTkfeed hd p s) := by
  unfold execTkfeed
  split
  · exact keeps_tkIssue h
  · exact keeps_tokPerform leavesTok_tkOutcome h
theorem keeps_execTkdrain {hd p} (h : WellKept s) : Keeps (execTkdrain hd p s) := by
  unfold execTkdrain
  split
  · exact keeps_tkIssue h
  · exact keeps_tokPerform leavesTok_tkOutcome h
theorem keeps_execTkdetok {hd p} (h : WellKept s) : Keeps (execTkdetok hd p s) := by
  unfold execTkdetok
  split
  · exact keeps_prefixIssue h
  · exact keeps_tokPerform leavesTok_detokOutcome h
theorem keeps_execGmask {hd p} (h : WellKept s) : Keeps (execGmask hd p s) := by
  unfold execGmask
  split
  · exact keeps_prefixIssue h
  · exact keeps_tokPerform leavesTok_gmaskOutcome h
theorem keeps_gloadReplica {p} (h : WellKept s) : Keeps (gloadReplica p s) := by
  refine keeps_onMember fun tk mem => ?_
  split
  · next c _ =>
    split
    · have h1 := (wellKept_imgAt (s := s) (mem := mem) (leavesTok_gloadCheck tk mem c)).2 h
      generalize (gloadCheck tk mem c).at s mem = o at h1 ⊢
      rcases o with ⟨(_ | _) | _, mem1, s1⟩
      all_goals exact keeps_afterPieces (wellKept_whole.2 (wellKept_tokUnit.2 h1))
    · simp [h]
  · simp [h]
theorem keeps_tokLogged {p n f} (hf : LeavesTok f) (h : WellKept s) : Keeps (tokLogged p n f s) := by
  refine keeps_onMember fun tk mem => ?_
  split
  · next c _ =>
    split
    · split
      · exact keeps_afterPieces (by simp [h])
      · refine keeps_afterPieces ?_
        have h1 := (wellKept_imgAt (s := s) (mem := mem) (hf tk mem c)).2 h
        rw [wellKept_whole, wellKept_tokUnit]
        split <;> exact h1
    · simp [h]
  · simp [h]
theorem keeps_execGload {hd p g} (h : WellKept s) : Keeps (execGload hd p g s) := by
  unfold execGload
  split
  · exact keeps_prefixIssue h
  · refine keeps_onMember fun tk mem => ?_
    split
    · exact keeps_gloadReplica h
    · exact keeps_tokLogged leavesTok_gloadOutcome h
theorem keeps_gstepIssue {i hd p} (h : WellKept s) : Keeps (gstepIssue s i hd p) := keeps_prefixIssue h
theorem keeps_execGstepStep {hd p} (h : WellKept s) : Keeps (execGstepStep hd p s) := by
  unfold execGstepStep
  split
  · exact keeps_gstepIssue h
  · exact keeps_tokLogged leavesTok_gstepOutcome h
theorem keeps_execGstepStart {hd p g} (h : WellKept s) : Keeps (execGstepStart hd p g s) := by
  unfold execGstepStart
  split
  · exact keeps_gstepIssue h
  · exact keeps_tokLogged leavesTok_gstepOutcome h
theorem keeps_execGstepOff {hd p} (h : WellKept s) : Keeps (execGstepOff hd p s) := by
  unfold execGstepOff
  split
  · exact keeps_gstepIssue h
  · exact keeps_tokLogged leavesTok_gstepOutcome h

/-! ### Deferred commands at a commit; the start and the end of a command -/

/-- The state that a deferred command leaves. -/
def CommitOut.st : CommitOut → State
  | .done s _ _ _ => s
  | .wait s _ _ _ => s

@[simp] theorem CommitOut.st_done {mem a out} : (CommitOut.done s mem a out).st = s := rfl
@[simp] theorem CommitOut.st_wait {mem c e} : (CommitOut.wait s mem c e).st = s := rfl

theorem wellKept_cpactCommit {a} : WellKept (cpactCommit s tk mem c a).st ↔ WellKept s := by
  unfold cpactCommit
  dsimp only
  split
  · next e => exact wellKept_of_cpactReading e
  · next e => exact wellKept_of_cpactReading e
  · next e => simp [leavesOp_cpactOp _ _ _ _, wellKept_of_cpactReading e]
theorem wellKept_tokCommit {a f} (hf : LeavesTok f) : WellKept (tokCommit s tk mem c a f).st ↔ WellKept s := by
  have h1 := wellKept_imgAt (s := s) (mem := mem) (hf tk mem c)
  unfold tokCommit
  split
  · next e => rwa [e] at h1
  · next e => rwa [e] at h1
  · next e => rwa [e] at h1

theorem wellKept_of_prefixCommit {o} (e : prefixCommit s tk mem c = some o) : WellKept o.st ↔ WellKept s := by
  unfold prefixCommit at e
  extract_lets op at e
  have store : ∀ {p : PrmRes} {f : StoreOp} {lines : State → Task → Cmd → List ShelfLine}, LeavesOp f →
      op p f lines = some o → (WellKept o.st ↔ WellKept s) := by
    intro p f lines hf e
    unfold op at e
    split at e
    · next e1 => cases e; exact wellKept_of_readLines e1
    · next e1 => cases e; exact (hf _ _ _ _).trans (wellKept_of_readLines e1)
  clear_value op
  split at e
  · exact store leavesOp_slopenOp e
  · exact store leavesOp_slforkOp e
  · exact store leavesOp_slmoveOp e
  · exact store leavesOp_slmoveSwapOp e
  · exact store leavesOp_slcloseOp e
  · exact store leavesOp_sealOp e
  · exact store leavesOp_kappOp e
  · cases e; exact wellKept_cpactCommit
  · exact store leavesOp_leaseOp e
  · exact store leavesOp_renewOp e
  · exact store leavesOp_freeOp e
  · exact store leavesOp_evclassOp e
  · exact store leavesOp_promoOp e
  · cases e; exact wellKept_update s
  · cases e; exact wellKept_tokCommit leavesTok_gstepOutcome
  · cases e; exact wellKept_tokCommit leavesTok_gstepOutcome
  · cases e; exact wellKept_tokCommit leavesTok_gstepOutcome
  · cases e
theorem keeps_execCommandStart (h : WellKept s) : Keeps (execCommandStart s) := by
  refine keeps_onMember fun tk mem => ?_
  split
  · simp [h]
  · dsimp only
    split <;> simp [h]
theorem keeps_execCommandCompletion (h : WellKept s) : Keeps (execCommandCompletion s) := by
  refine keeps_onMember fun tk mem => ?_
  split
  · simp [h]
  · split <;> simp [h]

end
end Sys2Proof.Machine

namespace Sys2Proof.Machine
section
variable {s : State} {tk : Task} {mem : Member} {t m q : Nat} {c : Cmd}

/-! ### Locks, barriers, regions and the state registers (R143 to R149, R302 to R306) -/

@[simp] theorem keeps_grantLock {so pa} (h : WellKept s) : Keeps (grantLock s so pa tk mem) := by
  unfold grantLock
  dsimp only
  split
  · simp [h]
  · rw [keeps_next, wellKept_putBoth, wellKept_update]
    exact wellKept_wrDev h
@[simp] theorem keeps_tryAcquire {so} (h : WellKept s) : Keeps (tryAcquire s so tk mem) := by
  have hr : ∀ a, WellKept (objectPa s tk mem a).st := fun _ => wellKept_objectPa.2 h
  unfold tryAcquire
  dsimp only
  split
  · simp [h]
  · split
    · split
      · simp [h]
      · split <;> simp [h]
    · split
      · simp [h]
      · split
        · simp [h]
        · split
          · simp [hr]
          · refine keeps_ite (keeps_grantLock (hr _)) (keeps_cStall ?_)
            split <;> simp [hr]
theorem keeps_execAcq {so} (h : WellKept s) : Keeps (execAcq so s) := keeps_onMember fun _ _ => keeps_tryAcquire h
theorem keeps_execLockGrant (h : WellKept s) : Keeps (execLockGrant s) := by
  refine keeps_onMember fun tk mem => ?_
  split <;> simp [h]
theorem keeps_execRel {so} (h : WellKept s) : Keeps (execRel so s) := by
  refine keeps_onMember fun tk mem => ?_
  dsimp only
  split <;> simp [h]
theorem keeps_execSobind {so kind rs} (h : WellKept s) : Keeps (execSobind so kind rs s) := by
  refine keeps_onMember fun tk mem => ?_
  dsimp only
  split
  · simp [h]
  · split
    · simp [h]
    · split
      · simp [h]
      · split
        · simp [h]
        · split
          · simp [h]
          · split
            · simp [h]
            · split <;> simp [h]
theorem keeps_execBoarm {so rs} (h : WellKept s) : Keeps (execBoarm so rs s) := by
  refine keeps_onMember fun tk mem => ?_
  dsimp only
  split
  · simp [h]
  · split <;> simp [h]
@[simp] theorem keeps_tryBowait {so} (h : WellKept s) : Keeps (tryBowait s so tk mem) := by
  have h1 : ∀ a, WellKept (objectPa s tk mem a).st := fun _ => wellKept_objectPa.2 h
  unfold tryBowait
  extract_lets hd r
  have hr : WellKept r.st := h1 _
  split
  · simp [h]
  · split
    · simp [hr]
    · split <;> simp [hr]
theorem keeps_execBowait {so} (h : WellKept s) : Keeps (execBowait so s) := keeps_onMember fun _ _ => keeps_tryBowait h
theorem keeps_execBarrierPhaseSeen (h : WellKept s) : Keeps (execBarrierPhaseSeen s) := by
  refine keeps_onMember fun tk mem => ?_
  split <;> simp [h]
theorem keeps_execFence {pred succ} (h : WellKept s) : Keeps (execFence pred succ s) := by
  refine keeps_onMember fun tk mem => ?_
  split <;> simp [h]
theorem keeps_regionEnd {i} (h : WellKept s) : Keeps (regionEnd i s) := by
  refine keeps_onMember fun tk mem => ?_
  dsimp only
  split <;> simp [h]
theorem keeps_execTspawn {rd rs rt} (h : WellKept s) : Keeps (execTspawn rd rs rt s) := by
  refine keeps_onMember fun tk mem => ?_
  extract_lets a b que ok tk1 s1 m1 s2
  have h1 : WellKept s1 := wellKept_putTask.2 h
  have h2 : WellKept s2 := wellKept_modQueue.2 h1
  split
  · simp [h]
  · split
    · simp [h]
    · split
      · simp [h1]
      · split <;> simp [h1, h2]
theorem keeps_execSrrd {rd idx} (h : WellKept s) : Keeps (execSrrd rd idx s) := by
  refine keeps_onMember fun tk mem => ?_
  extract_lets v
  split
  · simp [h]
  · split <;> simp [h]
theorem keeps_execSrwr {rs idx} (h : WellKept s) : Keeps (execSrwr rs idx s) := by
  refine keeps_onMember fun tk mem => ?_
  split
  · simp [h]
  · split <;> simp [h]
theorem keeps_execTime {rd} (h : WellKept s) : Keeps (execTime rd s) := keeps_onMember fun _ _ => keeps_echoed h
theorem keeps_execCyc {rd} (h : WellKept s) : Keeps (execCyc rd s) := keeps_onMember fun _ _ => keeps_echoed h
theorem keeps_execRng {rd} (h : WellKept s) : Keeps (execRng rd s) := by
  refine keeps_onMember fun tk mem => ?_
  split <;> simp [h]
theorem keeps_execTrap {rs} (h : WellKept s) : Keeps (execTrap rs s) := keeps_onMember fun _ _ => keeps_raise h
theorem keeps_execFltinj {rs rt} (h : WellKept s) : Keeps (execFltinj rs rt s) := by
  refine keeps_onMember fun tk mem => ?_
  extract_lets a b kind rep t
  repeat' split
  all_goals simp [h]
theorem keeps_execNop (h : WellKept s) : Keeps (execNop s) := keeps_onMember fun _ _ => keeps_cDone h
theorem keeps_execStalledWordResume (h : WellKept s) : Keeps (execStalledWordResume s) := by
  refine keeps_onMember fun tk mem => ?_
  extract_lets m1 s1
  have h1 : WellKept s1 := wellKept_put.2 h
  have lead : ∀ {r : Res}, Keeps r → Keeps (if mem.lead then r else .next s) := by
    intro r hr; split <;> simp [h, hr]
  split
  · exact keeps_execTsig h1
  · exact keeps_execTwait h1
  · exact keeps_execTwaitb h1
  · exact keeps_execSemw h1
  · exact keeps_execFence h1
  · exact keeps_storeWord h1
  · exact keeps_storeWord h1
  · exact keeps_storeWord h1
  · exact keeps_storeWord h1
  · exact lead (keeps_execTime h1)
  · exact lead (keeps_execCyc h1)
  · exact lead (keeps_execRng h1)
  · exact lead (keeps_execSrrd h1)
  · exact lead (keeps_execTspawn h1)
  · simp [h]

/-! ### Launch records and the host (R396 to R412) -/

theorem wellKept_of_ctxWrite {va bs} {ctx : Nat} {s1 : State} (e : s.ctxWrite ctx va bs = some s1) (h : WellKept s) : WellKept s1 := by
  unfold State.ctxWrite at e
  split at e
  · cases e
  · dsimp only at e
    split at e
    · cases e
    · cases e; exact wellKept_foldl_of (fun _ _ => wellKept_wrDev) _ h
@[simp] theorem wellKept_popHead : WellKept (s.popHead q) ↔ WellKept s := wellKept_modQueue
@[simp] theorem wellKept_waitHead : WellKept (s.waitHead q) ↔ WellKept s := wellKept_modQueue
@[simp] theorem wellKept_interrupt {irq} : WellKept (s.interrupt q irq) ↔ WellKept s := by simp [State.interrupt]
@[simp] theorem wellKept_ttSet {i b on} (h : WellKept s) : WellKept (s.ttSet i b on) := wellKept_wrMem h
@[simp] theorem wellKept_ttSkip {i n} (h : WellKept s) : WellKept (s.ttSkip i n) := wellKept_wrMem h
@[simp] theorem wellKept_ttFire {i} (h : WellKept s) : WellKept (s.ttFire i) := by
  unfold State.ttFire
  extract_lets q
  split
  · simp [h]
  · split
    · simp [h]
    · extract_lets r
      split
      · simp [h]
      · split <;> simp [h]
@[simp] theorem wellKept_ttEnd {tt} (h : WellKept s) : WellKept (s.ttEnd tt) := by
  unfold State.ttEnd
  split
  · exact h
  · dsimp only
    split
    · exact wellKept_ttFire (wellKept_ttSet (wellKept_ttSet h))
    · simp [h]
@[simp] theorem wellKept_discardHead (h : WellKept s) : WellKept (s.discardHead q) := wellKept_ttEnd (by simp [h])
theorem keeps_onHead {kind ok f} (hf : ∀ q x e r, WellKept (f q x e r)) (h : WellKept s) : Keeps (onHead s kind ok f) := by
  unfold onHead
  split
  · split
    · split
      · split
        · simp [h]
        · split
          · simp [h]
          · simp [hf]
      · simp [h]
    · simp [h]
  · simp [h]
@[simp] theorem wellKept_recordLaunch {ctx seq f} (h : WellKept s) : WellKept (s.recordLaunch ctx seq f) :=
  wellKept_queueRecord (wellKept_stamp.2 h)
@[simp] theorem wellKept_complete {ctx launch node tag irq compl tt e a} (h : WellKept s) :
    WellKept (s.complete q ctx launch node tag irq compl tt e a) := by
  unfold State.complete
  extract_lets seq s1 s2
  have h1 : WellKept s1 := wellKept_stamp.2 h
  have h2 : WellKept s2 := by
    unfold s2
    split
    · exact h1
    · split
      · next e => exact wellKept_of_ctxWrite e h1
      · simp [h1]
  exact wellKept_ttEnd (wellKept_interrupt.2 h2)
@[simp] theorem wellKept_launchNode {gi g n} : WellKept (s.launchNode gi g n) ↔ WellKept s := wellKept_update s
@[simp] theorem wellKept_launchNodes {gi g ns} : WellKept (s.launchNodes gi g ns) ↔ WellKept s := by simp [State.launchNodes]
@[simp] theorem wellKept_retireGraph {gi} (h : WellKept s) : WellKept (s.retireGraph gi) := by
  unfold State.retireGraph
  split
  · exact h
  · split
    · exact h
    · exact wellKept_complete ((wellKept_update s).2 h)
@[simp] theorem wellKept_nodeEnded {gi n e a} (h : WellKept s) : WellKept (s.nodeEnded gi n e a) := by
  unfold State.nodeEnded
  split
  · exact h
  · exact wellKept_retireGraph (wellKept_launchNodes.2 h)
@[simp] theorem wellKept_endTask {e k} (h : WellKept s) : WellKept (s.endTask t e k) := by
  unfold State.endTask
  split
  · exact h
  · dsimp only
    split <;> simp [h]
theorem keeps_execTask (h : WellKept s) : Keeps (execTask s) := by
  refine keeps_onHead (fun q x e r => ?_) h
  dsimp only
  split <;> simp [↓wellKept_update, h]
@[simp] theorem wellKept_refuseGraph {g cause addr} (h : WellKept s) : WellKept (s.refuseGraph g cause addr) :=
  wellKept_retireGraph ((wellKept_update _).2 (wellKept_recordLaunch h))
theorem keeps_execGraph (h : WellKept s) : Keeps (execGraph s) := by
  refine keeps_onHead (fun q x e r => ?_) h
  extract_lets va live s1
  have h1 : WellKept s1 := by simp [s1, h]
  split
  · simp [h]
  · split
    · simp [h1]
    · split
      · simp [h1]
      · split
        · simp [h1]
        · split <;> simp [h1]
theorem keeps_execPatch (h : WellKept s) : Keeps (execPatch s) := by
  refine keeps_onHead (fun q x e r => ?_) h
  extract_lets va
  split
  · extract_lets other
    split
    · simp [h]
    · split
      · simp [h]
      · split
        · simp [h]
        · next e2 =>
          obtain ⟨s1, e3, e4⟩ := Option.bind_eq_some_iff.mp e2
          simp [wellKept_of_ctxWrite e4 (wellKept_of_ctxWrite e3 h)]
  · simp [h]
@[simp] theorem wellKept_invalidateCtx {ctx} : WellKept (s.invalidateCtx ctx) ↔ WellKept s := wellKept_update s
theorem keeps_execFenceRecord (h : WellKept s) : Keeps (execFenceRecord s) := by
  refine keeps_onHead (fun q x e r => ?_) h
  split
  · simp [h]
  · simp [h]
theorem keeps_execSignal (h : WellKept s) : Keeps (execSignal s) := by
  refine keeps_onHead (fun q x e r => ?_) h
  split
  · simp [h]
  · split <;> simp [h]
theorem keeps_execTimed (h : WellKept s) : Keeps (execTimed s) := by
  refine keeps_onHead (fun q x e r => ?_) h
  dsimp only
  rw [wellKept_interrupt, wellKept_stamp, wellKept_popHead, wellKept_update]
  exact wellKept_wrMem h
theorem keeps_execTimedSlotFire (h : WellKept s) : Keeps (execTimedSlotFire s) := by
  unfold execTimedSlotFire
  split
  · dsimp only
    split
    · simp [h]
    · refine keeps_next.2 (wellKept_ttFire ?_)
      split <;> simp [h]
  · simp [h]
theorem keeps_execLaunchPortWrite (h : WellKept s) : Keeps (execLaunchPortWrite s) := by
  unfold execLaunchPortWrite
  split <;> simp [h]
theorem keeps_execQstatWrite (h : WellKept s) : Keeps (execQstatWrite s) := by
  unfold execQstatWrite
  split <;> simp [h]
@[simp] theorem wellKept_writeQueueReg {off val} : WellKept (s.writeQueueReg off val) ↔ WellKept s := by
  unfold State.writeQueueReg
  extract_lets q
  split <;> simp
@[simp] theorem wellKept_writeGlobal {off val} : WellKept (s.writeGlobal off val) ↔ WellKept s := by
  unfold State.writeGlobal
  split <;> simp
theorem keeps_execRegisterWrite (h : WellKept s) : Keeps (execRegisterWrite s) := by
  unfold execRegisterWrite
  split <;> simp [h]
theorem keeps_execHostMemoryWrite (h : WellKept s) : Keeps (execHostMemoryWrite s) := by
  unfold execHostMemoryWrite
  split <;> simp [h]

end
end Sys2Proof.Machine

namespace Sys2Proof.Machine
section
variable {s : State} {tk : Task} {mem : Member} {t m q : Nat} {c : Cmd}

/-! ### C stores and the side log (R236, R319, R341) -/

@[simp] theorem wellKept_storeDone {p} (h : WellKept s) : WellKept (s.storeDone t mem p) := by
  unfold State.storeDone
  split <;> simp [h]
theorem keeps_execCStorePerformed (h : WellKept s) : Keeps (execCStorePerformed s) := by
  refine keeps_onMember fun tk mem => ?_
  split <;> simp [h]
@[simp] theorem wellKept_passLock {pa} (h : WellKept s) : WellKept (s.passLock pa) := by
  unfold State.passLock
  split
  · exact (wellKept_update _).2 (wellKept_wrDev h)
  · exact wellKept_wrDev h
@[simp] theorem wellKept_modHandle {so f} : WellKept (s.modHandle t so f) ↔ WellKept s := wellKept_modTask
@[simp] theorem wellKept_objectAct {pa act} (h : WellKept s) : WellKept (s.objectAct t pa act) := by
  unfold State.objectAct
  split <;> simp [h]
@[simp] theorem wellKept_logDone {e} (h : WellKept s) : WellKept (s.logDone e mem) := by
  unfold State.logDone
  dsimp only
  split
  · split <;> simp [h]
  · simp [h]
@[simp] theorem wellKept_logStore {e pa} (h : WellKept s) : WellKept (s.logStore e mem pa) := by
  unfold State.logStore
  dsimp only
  split <;> simp [h]
@[simp] theorem wellKept_logPerform {e pa} (h : WellKept s) : WellKept (s.logPerform e mem pa) := by
  unfold State.logPerform
  dsimp only
  split
  · simp [h]
  · split <;> simp [h]
  · rw [wellKept_putMember]
    split
    · simp [h]
    · split <;> simp [h]
  · simp [h]
@[simp] theorem wellKept_drainBefore {e} (h : WellKept s) : WellKept (s.drainBefore e mem) := by
  unfold State.drainBefore
  dsimp only
  split
  · exact wellKept_modMember.2 (wellKept_foldl_of (fun _ _ => wellKept_storeDone) _ h)
  · exact h
@[simp] theorem wellKept_logDrop {e cause} (h : WellKept s) : WellKept (s.logDrop e mem cause) := wellKept_logDone (by simpa)
@[simp] theorem wellKept_logFail {e} (h : WellKept s) : WellKept (s.logFail tk e mem) := by
  unfold State.logFail
  split
  · split <;> simp [h]
  · simp [h]
theorem wellKept_of_logTry {e} {s1 : State} (e1 : s.logTry e = some s1) (h : WellKept s) : WellKept s1 := by
  unfold State.logTry at e1
  split at e1
  · split at e1
    · split at e1
      · cases e1; simp [h]
      · cases e1
    · dsimp only at e1
      split at e1
      · cases e1; simp [h]
      · split at e1
        · cases e1; simp [h]
        · split at e1
          · cases e1; simp [h]
          · next s2 e2 =>
            cases e1
            have h2 : WellKept s2 := by
              split at e2
              · exact (wellKept_of_takeOwn e2).2 h
              · cases e2; exact h
            exact wellKept_logDone (wellKept_writtenBy.2 (wellKept_logPerform (wellKept_drainBefore h2)))
  · cases e1; simpa using h
theorem wellKept_logRun (es : List LogEntry) {bs : List Nat} (h : WellKept s) : WellKept (State.logRun s bs es) := by
  induction es generalizing s bs with
  | nil => exact h
  | cons e r ih =>
    unfold State.logRun
    split
    · exact ih h
    · split
      · next e1 => exact ih (wellKept_of_logTry e1 h)
      · exact ih h
@[simp] theorem wellKept_retryCore {core} (h : WellKept s) : WellKept (s.retryCore core) := wellKept_logRun _ h
theorem keeps_execSideLogRetry (h : WellKept s) : Keeps (execSideLogRetry s) :=
  keeps_next.2 (wellKept_foldl_of (fun _ _ => wellKept_retryCore) _ h)

/-! ### The commit of a region (R301, R319 to R328) -/

@[simp] theorem wellKept_commitRecord {cause addr} : WellKept (s.commitRecord t mem cause addr) ↔ WellKept s := wellKept_recordFault
@[simp] theorem wellKept_commitStore {a bs missing} (h : WellKept s) : WellKept (s.commitStore t m tk mem a bs missing).1 := by
  unfold State.commitStore
  split
  · next e =>
    have h1 := (wellKept_of_translateFor e).2 h
    dsimp only
    split
    · simp [h1]
    · split
      · simp [h1]
      · split
        · simp [h1]
        · next e2 => simp [(wellKept_of_takeIfOwned e2).2 h1]
  · next e _ =>
    have h1 := (wellKept_of_translateFor e).2 h
    split
    · simp [h1]
    · split <;> simp [h1]
theorem keepsPiece_of_commitPieces {n f} (e : commitPieces tk c = some (n, f)) : KeepsPiece f := by
  unfold commitPieces at e
  split at e
  · cases e; exact keepsPiece_copyOutPiece
  · cases e; exact keepsPiece_scatPiece
  · cases e; exact keepsPiece_fillOutPiece
  · cases e; exact fun _ _ _ _ h => wellKept_casPiece h
  · obtain ⟨x, -, e2⟩ := Option.map_eq_some_iff.mp e
    cases e2
    exact keepsPiece_accPiece
@[simp] theorem wellKept_commitCount (h : WellKept s) : WellKept (s.commitCount t m tk mem c).1 := by
  unfold State.commitCount
  split_ifs <;> simp [h]
@[simp] theorem wellKept_commitHold {e} : WellKept (s.commitHold t m tk mem c e).1 ↔ WellKept s := by
  unfold State.commitHold
  split <;> simp
@[simp] theorem wellKept_commitCmd (h : WellKept s) : WellKept (s.commitCmd t m tk mem c).1 := by
  unfold State.commitCmd
  extract_lets s0
  have h0 : WellKept s0 := (wellKept_update s).2 h
  split
  · exact h
  · split
    · next n f e =>
      have h1 := wellKept_runPieces (total := n) (mem := mem) (c := c) (keepsPiece_of_commitPieces e) n h0
      dsimp only
      split
      · exact wellKept_putMember.2 h1
      · exact wellKept_commitHold.2 (wellKept_putMember.2 h1)
      · exact wellKept_commitCount (wellKept_putMember.2 h1)
    · split
      · exact h
      · next e =>
        have h1 := (wellKept_of_prefixCommit e).2 h0
        rw [CommitOut.st_wait] at h1
        simp [h1]
      · next e =>
        have h1 := (wellKept_of_prefixCommit e).2 h0
        rw [CommitOut.st_done] at h1
        simp [h1]
@[simp] theorem wellKept_commitObject {w so act} (h : WellKept s) : WellKept (s.commitObject t m tk mem w so act).1 := by
  unfold State.commitObject
  dsimp only
  split
  · next e =>
    have h1 := (wellKept_of_translateFor e).2 h
    split
    · split <;> simp [h1]
    · split <;> simp [h1]
  · next e =>
    have h1 := (wellKept_of_translateFor e).2 h
    split
    · simp [h1]
    · split
      · simp [h1]
      · split <;> simp [h1]
@[simp] theorem wellKept_performWork {k w} (h : WellKept s) : WellKept (s.performWork t k w).1 := by
  unfold State.performWork
  split
  · exact h
  · next tk _ =>
    extract_lets on
    have hon : ∀ {m f}, (∀ s0 mem, WellKept s0 → WellKept (f s0 mem).1) → WellKept (on m f).1 := by
      intro m f hf
      unfold on
      split
      · exact wellKept_writtenBy.2 (hf _ _ ((wellKept_update s).2 h))
      · exact h
    clear_value on
    split
    · exact hon fun _ _ h => wellKept_commitStore h
    · exact hon fun _ _ h => wellKept_commitCmd h
    · exact hon fun _ _ h => wellKept_commitCount h
    · exact hon fun _ _ h => wellKept_commitObject h
    · exact hon fun _ _ h => wellKept_commitObject h
    · refine hon fun s0 mem h => ?_
      simp [h]
    · exact h
theorem wellKept_of_performWork {k w o} {s1 : State} (e : s.performWork t k w = (s1, o)) (h : WellKept s) : WellKept s1 := by
  simpa [e] using wellKept_performWork (t := t) (k := k) (w := w) h
theorem wellKept_commitWork {k} (ws : List Work) (h : WellKept s) : WellKept (s.commitWork t k ws).1 := by
  induction ws generalizing s with
  | nil => exact h
  | cons w r ih =>
    unfold State.commitWork
    split
    · exact h
    · split
      · next e => exact ih (wellKept_of_performWork e h)
      · next e => exact wellKept_of_performWork e h
      · next e => exact wellKept_of_performWork e h

end
end Sys2Proof.Machine

namespace Sys2Proof.Machine
section
variable {s : State} {tk : Task} {mem : Member} {t m k q : Nat} {c : Cmd}

/-! ### How a region ends: votes, failures, deadlines and pre-emption (R24 to R34, R317 to R328) -/

@[simp] theorem wellKept_releaseMu : WellKept (s.releaseMu t tk) ↔ WellKept s := by simp [State.releaseMu]
@[simp] theorem wellKept_decisionRecord {cause kind win single attempt} :
    WellKept (s.decisionRecord t cause kind win single attempt) ↔ WellKept s := by
  unfold State.decisionRecord
  split
  · rfl
  · split
    · rfl
    · exact wellKept_recordRaw.trans (wellKept_update s)
@[simp] theorem wellKept_suspect {p} : WellKept (s.suspect p) ↔ WellKept s := wellKept_update s
@[simp] theorem wellKept_toBarrier : WellKept (s.toBarrier t) ↔ WellKept s := wellKept_modTask
@[simp] theorem wellKept_dropTaskReaders : WellKept (s.dropTaskReaders t) ↔ WellKept s := wellKept_update s
@[simp] theorem wellKept_dropRequests (h : WellKept s) : WellKept (s.dropRequests t) :=
  wellKept_foldl_of (fun _ _ => wellKept_passLock) _ ((wellKept_update s).2 h)
@[simp] theorem wellKept_leaveReleases {w} : WellKept (s.leaveReleases t tk w) ↔ WellKept s := by simp [State.leaveReleases]

@[simp] theorem wellKept_failTask {e} (h : WellKept s) : WellKept (s.failTask t e) := by
  unfold State.failTask
  split
  · exact h
  · next tk _ =>
    extract_lets s1 r
    have h1 : WellKept s1 := wellKept_dropSpawns.2 (wellKept_dropRequests ((wellKept_update s).2 h))
    have hr : WellKept r.1 := by
      refine List.foldlRecOn (motive := fun a : State × List Work => WellKept a.1) tk.heldLocks _ h1 fun a ha so _ => ?_
      split
      · next e => exact wellKept_of_performWork e ha
      · next e => exact wellKept_of_performWork e ha
    simp [hr]
@[simp] theorem wellKept_failReplica (h : WellKept s) : WellKept (s.failReplica t) := by
  unfold State.failReplica
  split <;> simp [h]
@[simp] theorem wellKept_commitFinish (h : WellKept s) : WellKept (s.commitFinish t k) := by
  unfold State.commitFinish
  split
  · exact h
  · extract_lets tk1 s1 s2
    have h1 : WellKept s1 := by simp [s1, h]
    have h2 : WellKept s2 := by
      unfold s2
      split <;> simp [h1]
    split_ifs <;> simp [h2]
@[simp] theorem wellKept_toRunning {i} : WellKept (s.toRunning t i) ↔ WellKept s := (wellKept_update _).trans wellKept_modTask
@[simp] theorem wellKept_commitStep2 (h : WellKept s) : WellKept (s.commitStep2 t) := by
  unfold State.commitStep2
  split
  · exact h
  · split
    · have h1 : ∀ k w, WellKept (s.commitWork t k w).1 := fun _ _ => wellKept_commitWork _ h
      dsimp only
      split_ifs <;> simp [h1]
    · exact h
@[simp] theorem wellKept_commitStep1 (h : WellKept s) : WellKept (s.commitStep1 t) := by
  unfold State.commitStep1
  split
  · exact h
  · split_ifs <;> simp [h]
@[simp] theorem wellKept_sendSigs : WellKept (s.sendSigs t k) ↔ WellKept s := by
  unfold State.sendSigs
  split
  · rfl
  · dsimp only
    split
    · rfl
    · split_ifs <;> simp
@[simp] theorem wellKept_comparePoint : WellKept (s.comparePoint t) ↔ WellKept s := by
  unfold State.comparePoint
  dsimp only
  split <;> simp
@[simp] theorem wellKept_commitBegin : WellKept (s.commitBegin t) ↔ WellKept s := by
  unfold State.commitBegin
  split
  · rfl
  · split
    · rfl
    · split
      · exact wellKept_foldl (fun _ _ => wellKept_raiseFor.trans (wellKept_update _)) _ s
      · split_ifs <;> simp
theorem keeps_execRegionCommit (h : WellKept s) : Keeps (execRegionCommit s) :=
  keeps_next.2 (wellKept_commitStep2 (wellKept_commitStep1 (wellKept_commitBegin.2 h)))
@[simp] theorem wellKept_takeOff : WellKept (s.takeOff t) ↔ WellKept s := by
  unfold State.takeOff
  split <;> simp
theorem keeps_execAlignmentBarrier (h : WellKept s) : Keeps (execAlignmentBarrier s) := by
  unfold execAlignmentBarrier
  dsimp only
  split
  · simp [h]
  · split
    · simp [h]
    · split
      · simp [h]
      · split <;> simp [h]
@[simp] theorem wellKept_echoTimeout {f} : WellKept (s.echoTimeout t f) ↔ WellKept s := by simp [State.echoTimeout]
@[simp] theorem keeps_echoWord {v} (h : WellKept s) : Keeps (echoWord s tk mem v) := by
  unfold echoWord
  dsimp only
  split
  · simp [h]
  · simp [h]
  · simp [h]
  · simp [h]
  · split <;> simp [h]
  · simp [h]
  · simp [h]
@[simp] theorem keeps_echoForCmd (h : WellKept s) : Keeps (echoForCmd s tk mem c) := by
  unfold echoForCmd
  extract_lets src s0 fail
  have h0 : WellKept s0 := (wellKept_update s).2 h
  have hf : ∀ m, Keeps (fail m) := fun _ => keeps_next.2 (wellKept_echoTimeout.2 (wellKept_put.2 h0))
  split
  · split
    · exact hf _
    · exact keeps_afterPieces (wellKept_spPiece.2 h0)
  · split
    · exact hf _
    · simp [h]
theorem keeps_execEchoArrival (h : WellKept s) : Keeps (execEchoArrival s) := by
  refine keeps_onMember fun tk mem => ?_
  extract_lets s0 fail
  have h0 : WellKept s0 := (wellKept_update s).2 h
  have hf : ∀ m, Keeps (fail m) := fun _ => keeps_next.2 (wellKept_echoTimeout.2 (wellKept_put.2 h0))
  split
  · split
    · split
      · exact keeps_echoWord h0
      · exact hf _
    · split
      · exact hf _
      · split <;> simp [h]
  · split <;> simp [h]
@[simp] theorem wellKept_pendCommit : WellKept (s.pendCommit t) ↔ WellKept s := by
  unfold State.pendCommit
  split
  · rfl
  · simp
theorem keeps_execDeadlineFault (h : WellKept s) : Keeps (execDeadlineFault s) := by
  unfold execDeadlineFault
  dsimp only
  split
  · simp [h]
  · split
    · simp [h]
    · split
      · simp [h]
      · split
        · simp [h]
        · split
          · split <;> simp [h]
          · simp [h]
          · split
            · simp [h]
            · split <;> simp [h]
theorem keeps_execPreemptionDiscard (h : WellKept s) : Keeps (execPreemptionDiscard s) := by
  unfold execPreemptionDiscard
  dsimp only
  split
  · simp [h]
  · split_ifs <;> simp [h]

end
end Sys2Proof.Machine

namespace Sys2Proof.Machine
section
variable {s : State} {tk : Task} {mem : Member} {t m k q : Nat} {c : Cmd}

/-! ### Placement and dispatch (R62 to R67, R345, R413 to R417) -/

@[simp] theorem wellKept_savePiece {x} : WellKept (s.savePiece x).1 ↔ WellKept s := by
  unfold State.savePiece
  split
  · dsimp only
    split
    · rw [wellKept_update, wellKept_putMember]
      split <;> simp
    · simp
  · rfl
@[simp] theorem wellKept_savePieces {l} (h : WellKept s) : WellKept (s.savePieces l).1 :=
  List.foldlRecOn (motive := fun r : State × Bool => WellKept r.1) l _ h fun _ hr _ _ => wellKept_savePiece.2 hr
@[simp] theorem wellKept_readBack : WellKept (s.readBack t m) ↔ WellKept s := by
  unfold State.readBack
  split
  · refine (wellKept_foldl (fun s p => ?_) _ _).trans wellKept_modMember
    dsimp only
    rw [wellKept_modMember]
    split <;> simp
  · rfl
@[simp] theorem wellKept_reused {ctx core n} : WellKept (s.reused ctx t m core n).2 ↔ WellKept s := wellKept_update s
@[simp] theorem wellKept_firstSpad {had} : WellKept (s.firstSpad had).2 ↔ WellKept s := by
  unfold State.firstSpad
  split <;> simp
@[simp] theorem wellKept_putOnCore {core first} : WellKept (s.putOnCore t m core first) ↔ WellKept s := by
  unfold State.putOnCore
  split
  · extract_lets c stays reused init
    have h1 : WellKept reused.2 ↔ WellKept s := by
      unfold reused
      split <;> simp
    have h2 : WellKept init.2 ↔ WellKept s := by
      unfold init
      split <;> simp [h1]
    exact wellKept_readBack.trans ((wellKept_update _).trans (wellKept_putMember.trans h2))
  · rfl
@[simp] theorem wellKept_putOnCores {cores} : WellKept (s.putOnCores t tk cores) ↔ WellKept s :=
  (wellKept_foldl (fun _ _ => wellKept_putOnCore) _ _).trans ((wellKept_update _).trans wellKept_putTask)
@[simp] theorem wellKept_creditPlacement {p} : WellKept (s.creditPlacement p q) ↔ WellKept s := wellKept_update s
@[simp] theorem wellKept_notePlaceable : WellKept (s.notePlaceable t) ↔ WellKept s := by
  refine wellKept_foldl (fun s u => ?_) _ s
  split <;> simp
@[simp] theorem wellKept_refuseTask {cause addr} (h : WellKept s) : WellKept (s.refuseTask t cause addr) :=
  wellKept_endTask (wellKept_recordFault.2 h)
theorem keeps_execTaskPlacement (h : WellKept s) : Keeps (execTaskPlacement s) := by
  unfold execTaskPlacement
  split
  · simp [h]
  · dsimp only
    split <;> simp [h]
  · simp [h]
theorem keeps_execPlacementReservation (h : WellKept s) : Keeps (execPlacementReservation s) := by
  unfold execPlacementReservation
  split
  · simp [h]
  · dsimp only
    split <;> simp [h]
@[simp] theorem wellKept_replace (h : WellKept s) : WellKept (s.replace t) := by
  unfold State.replace
  split
  · exact h
  · dsimp only
    split <;> simp [h]

/-! ### The parapet, recovery records and power (R323 to R328, R337 to R344, R441) -/

@[simp] theorem wellKept_mismatch (h : WellKept s) : WellKept (s.mismatch t) := by
  unfold State.mismatch
  split
  · exact h
  · split
    · simp [h]
    · split <;> simp [h]
@[simp] theorem wellKept_sharedFault : WellKept (s.sharedFault t tk) ↔ WellKept s := by simp [State.sharedFault]
theorem keeps_execParapetDecision (h : WellKept s) : Keeps (execParapetDecision s) := by
  unfold execParapetDecision
  dsimp only
  split
  · simp [h]
  · split
    · simp [h]
    · split
      · simp [h]
      · split
        · simp [h]
        · split <;> simp [h]
theorem wellKept_recovery {x e r f} (hf : ∀ s, WellKept s → WellKept (f s)) (h : WellKept s) : WellKept (s.recovery q x e r f) := by
  unfold State.recovery
  extract_lets s1 svc s2
  have h1 : WellKept s1 := by simp [s1, h]
  rw [wellKept_interrupt]
  unfold s2
  split
  · exact hf s1 h1
  · next w _ =>
    split
    · exact hf s1 h1
    · cases s1.tasks[w]? with
      | none => exact h1
      | some k => exact wellKept_recordFault.2 h1

theorem keeps_execResume (h : WellKept s) : Keeps (execResume s) := by
  refine keeps_onHead (fun q x e r => wellKept_recovery (fun s1 h1 => ?_) h) h
  split
  · exact h1
  · split
    · exact h1
    · split
      · exact h1
      · exact wellKept_resumeTask.2 (wellKept_foldl_of (fun _ _ => wellKept_retryCore) _ (wellKept_putTask.2 h1))
@[simp] theorem wellKept_releaseChannel {rank u} (h : WellKept s) : WellKept (s.releaseChannel t rank u) := by
  unfold State.releaseChannel
  split
  · exact h
  · dsimp only
    split
    · split
      · exact wellKept_resumeTask.2 (wellKept_foldl_of (fun _ _ => wellKept_retryCore) _ h)
      · exact h
    · split
      · exact wellKept_resumeTask.2 (wellKept_putTask.2 h)
      · exact h
theorem keeps_execResumeChannel (h : WellKept s) : Keeps (execResumeChannel s) := by
  refine keeps_onHead (fun q x e r => wellKept_recovery (fun s1 h1 => ?_) h) h
  dsimp only
  split
  · exact h1
  · split <;> simp [h1]
@[simp] theorem wellKept_failNode {ctx seq node} : WellKept (s.failNode ctx seq node) ↔ WellKept s := wellKept_update s
@[simp] theorem wellKept_terminate (h : WellKept s) : WellKept (s.terminate t) := by
  unfold State.terminate
  extract_lets s1
  have h1 : WellKept s1 := by
    unfold s1
    split <;> simp [h]
  split
  · exact h1
  · split_ifs <;> simp [h1]
theorem keeps_execTerminate (h : WellKept s) : Keeps (execTerminate s) := by
  refine keeps_onHead (fun q x e r => wellKept_recovery (fun s1 h1 => ?_) h) h
  split <;> simp [h1]
theorem keeps_execPower (h : WellKept s) : Keeps (execPower s) := by
  refine keeps_onHead (fun q x e r => ?_) h
  extract_lets s1 irqs src s2
  have h2 : WellKept s2 := (wellKept_update s1).2 (by simp [s1, h])
  split <;> simp [h2]
theorem keeps_execSpanPowerChange (h : WellKept s) : Keeps (execSpanPowerChange s) := by
  unfold execSpanPowerChange
  split
  · dsimp only
    split
    · split <;> simp [h]
    · simp [h]
  · simp [h]

/-! ### Device time and leases (R378 to R380, R416 to R419) -/

@[simp] theorem wellKept_setTime {ns} : WellKept (s.setTime ns) ↔ WellKept s := wellKept_update s
@[simp] theorem wellKept_rebaseTo {base} : WellKept (s.rebaseTo base) ↔ WellKept s := wellKept_update s
@[simp] theorem wellKept_expire {l} : WellKept (s.expire l) ↔ WellKept s := by simp [State.expire]
@[simp] theorem wellKept_tickTo {k} : WellKept (s.tickTo k) ↔ WellKept s := by simp [State.tickTo]
@[simp] theorem wellKept_followTicks : WellKept s.followTicks ↔ WellKept s := by simp [State.followTicks]
theorem keeps_execLeaseRebase (h : WellKept s) : Keeps (execLeaseRebase s) := by simp [execLeaseRebase, h]
theorem keeps_execLeaseExpiry (h : WellKept s) : Keeps (execLeaseExpiry s) := by simp [execLeaseExpiry, h]
theorem keeps_execDeviceTimeStep (h : WellKept s) : Keeps (execDeviceTimeStep s) := by
  unfold execDeviceTimeStep
  split <;> simp [h]

end
end Sys2Proof.Machine

namespace Sys2Proof.Machine
section
variable {s : State} {tk : Task} {mem : Member} {t m k q : Nat} {c : Cmd}

/-! ### Messages of other devices (R420 to R434) -/

theorem keeps_onMsg {f} (hf : ∀ x, Leaves s (f x)) (h : WellKept s) : Keeps (onMsg s f) := by
  unfold onMsg
  split
  · next x _ =>
    rw [keeps_next]
    cases e : f x with
    | none => exact h
    | some s1 => exact (hf x s1 e).2 h
  · simp [h]
theorem keeps_execRegister (h : WellKept s) : Keeps (execRegister s) := by
  refine keeps_onMsg (fun x => ?_) h
  split
  · split
    · exact leaves_some.2 wellKept_modFabric
    · exact leaves_none
  · exact leaves_none
theorem keeps_execUnregister (h : WellKept s) : Keeps (execUnregister s) := by
  refine keeps_onMsg (fun x => ?_) h
  split
  · split
    · exact leaves_some.2 wellKept_modFabric
    · exact leaves_none
  · exact leaves_none
theorem keeps_execLookup (h : WellKept s) : Keeps (execLookup s) := by
  refine keeps_onMsg (fun x => ?_) h
  split
  · exact leaves_some.2 wellKept_send
  · exact leaves_none
@[simp] theorem wellKept_dropReq {r} : WellKept (s.dropReq r) ↔ WellKept s := wellKept_modFabric
@[simp] theorem wellKept_forgetRemote {seq} : WellKept (s.forgetRemote t m seq) ↔ WellKept s := by simp [State.forgetRemote]
@[simp] theorem keeps_endRepl {seq status node} (h : WellKept s) : Keeps (s.endRepl t m seq status node) := by
  unfold State.endRepl
  split
  · split <;> simp [h]
  · simp [h]
@[simp] theorem keeps_answerLookup {r devs} (h : WellKept s) : Keeps (s.answerLookup r devs) := by
  unfold State.answerLookup
  dsimp only
  split
  · split <;> simp [h]
  · simp [h]
@[simp] theorem wellKept_dropLate {kinds nm src} : WellKept (s.dropLate kinds nm src) ↔ WellKept s := wellKept_modFabric
@[simp] theorem wellKept_dropLease {kind src id} : WellKept (s.dropLease kind src id) ↔ WellKept s := wellKept_modFabric
theorem keeps_execHolders (h : WellKept s) : Keeps (execHolders s) := by
  unfold execHolders
  split
  · split <;> simp [h]
  · simp [h]
theorem keeps_execRlease (h : WellKept s) : Keeps (execRlease s) := by
  refine keeps_onMsg (fun x => ?_) h
  split
  · dsimp only
    split
    · exact leaves_some.2 wellKept_send
    · split
      · exact leaves_some.2 wellKept_send
      · split <;> exact leaves_some.2 (wellKept_send.trans wellKept_grantLease)
  · exact leaves_none
theorem keeps_execRlrenew (h : WellKept s) : Keeps (execRlrenew s) := by
  refine keeps_onMsg (fun x => ?_) h
  split
  · dsimp only
    split
    · exact leaves_some.2 wellKept_send
    · exact leaves_some.2 (by simp)
  · exact leaves_none
theorem keeps_execRlfree (h : WellKept s) : Keeps (execRlfree s) := by
  refine keeps_onMsg (fun x => ?_) h
  split
  · intro s1 e
    obtain ⟨l, -, rfl⟩ := Option.map_eq_some_iff.mp e
    exact wellKept_endLease
  · exact leaves_none
theorem keeps_execRead (h : WellKept s) : Keeps (execRead s) := by
  refine keeps_onMsg (fun x => ?_) h
  split
  · dsimp only
    split
    · exact leaves_some.2 wellKept_send
    · exact leaves_some.2 (by simp)
  · exact leaves_none
@[simp] theorem wellKept_askBytes {r l off len} : WellKept (s.askBytes r l off len) ↔ WellKept s := by simp [State.askBytes]
theorem keeps_execRlgrant (h : WellKept s) : Keeps (execRlgrant s) := by
  unfold execRlgrant
  split
  · dsimp only
    split
    · split <;> simp [h]
    · split
      · simp [h]
      · split
        · simp [h]
        · split
          · simp [h]
          · split <;> simp [h]
  · simp [h]
theorem keeps_execRldeny (h : WellKept s) : Keeps (execRldeny s) := by
  unfold execRldeny
  split
  · split <;> simp [h]
  · simp [h]
@[simp] theorem keeps_insertCopy {ctx bs} (h : WellKept s) : Keeps (s.insertCopy t m ctx c bs) := by
  unfold State.insertCopy
  dsimp only
  split
  · simp [h]
  · split
    · simp [h]
    · split
      · simp [h]
      · next s1 e =>
        have h1 : WellKept s1 := (leaves_roomFor _ e).2 h
        split
        · split <;> simp [h, h1]
        · split
          · simp [h]
          · split <;> simp [h, h1]
theorem keeps_execData (h : WellKept s) : Keeps (execData s) := by
  unfold execData
  split
  · split
    · simp [h]
    · dsimp only
      split
      · split
        · simp [h]
        · split
          · simp [h]
          · split
            · simp [h]
            · split <;> simp [h]
      · simp [h]
  · simp [h]
theorem keeps_execRemoteLeaseRenew (h : WellKept s) : Keeps (execRemoteLeaseRenew s) := by
  unfold execRemoteLeaseRenew
  split <;> simp [h]
theorem keeps_execRemoteLeaseHolderExpiry (h : WellKept s) : Keeps (execRemoteLeaseHolderExpiry s) := by
  unfold execRemoteLeaseHolderExpiry
  split <;> simp [h]
theorem keeps_execDirectoryTimeout (h : WellKept s) : Keeps (execDirectoryTimeout s) := by
  unfold execDirectoryTimeout
  split
  · simp [h]
  · extract_lets s1 s2
    have h1 : WellKept s1 := by
      unfold s1
      split <;> simp [h]
    have h2 : WellKept s2 := wellKept_modFabric.2 h1
    split <;> simp [h2]
theorem keeps_execLinkReplay (h : WellKept s) : Keeps (execLinkReplay s) := by
  unfold execLinkReplay
  split <;> simp [h]
@[simp] theorem wellKept_takeFlits : WellKept s.takeFlits.1 ↔ WellKept s := wellKept_update s
theorem keeps_execFjostanPortStateChange (h : WellKept s) : Keeps (execFjostanPortStateChange s) := by
  unfold execFjostanPortStateChange
  split
  · split <;> simp [h]
  · simp [h]
theorem keeps_execFarMemoryPortStateChange (h : WellKept s) : Keeps (execFarMemoryPortStateChange s) := by
  unfold execFarMemoryPortStateChange
  split <;> simp [h]
theorem keeps_execPortStatusWrite (h : WellKept s) : Keeps (execPortStatusWrite s) := by
  unfold execPortStatusWrite
  split <;> simp [h]
theorem keeps_execTimeMessage (h : WellKept s) : Keeps (execTimeMessage s) := by
  unfold execTimeMessage
  split
  · split <;> simp [h]
  · simp [h]
@[simp] theorem wellKept_voidLease {l} (h : WellKept s) : WellKept (s.voidLease l) := by
  unfold State.voidLease
  split
  · next e => exact keeps_endRepl h _ e
  · exact h
@[simp] theorem wellKept_noticeVoided {held ctx} : WellKept (s.noticeVoided held ctx) ↔ WellKept s := by
  unfold State.noticeVoided
  dsimp only
  split
  · rfl
  · next l _ _ =>
    cases s.tasks[l.task]? with
    | none => rfl
    | some k => exact wellKept_recordFault
theorem keeps_execSyncLoss (h : WellKept s) : Keeps (execSyncLoss s) := by
  unfold execSyncLoss
  split
  · simp [h]
  · exact keeps_next.2 ((wellKept_foldl (fun _ _ => wellKept_noticeVoided) _ _).2
      (wellKept_foldl_of (fun _ _ => wellKept_voidLease) _ ((wellKept_update s).2 h)))

/-! ### The management core, the stacks of memory and soft errors (R332, R385 to R394, R435 to R442) -/

@[simp] theorem wellKept_modMgmt {f} : WellKept (s.modMgmt f) ↔ WellKept s := wellKept_update s
@[simp] theorem wellKept_manage {what value} : WellKept (s.manage what value) ↔ WellKept s := wellKept_stamp
@[simp] theorem wellKept_answer {a} : WellKept (s.answer a) ↔ WellKept s := wellKept_modMgmt
@[simp] theorem wellKept_stackFailed {i} : WellKept (s.stackFailed i) ↔ WellKept s := by simp [State.stackFailed]

/-- A warm reset keeps memory and starts the events again at 0. -/
theorem wellKept_warmReset (h : WellKept s) : WellKept s.warmReset := ⟨h.mem, rfl⟩
@[simp] theorem wellKept_loseRepairs : WellKept s.loseRepairs ↔ WellKept s := by simp [State.loseRepairs]
@[simp] theorem wellKept_bootChain {ds fail bad badStacks ok} : WellKept (s.bootChain ds fail bad badStacks ok) ↔ WellKept s := by
  unfold State.bootChain
  extract_lets past cfg s1 src regs s0 s2 s3 s4 s5
  have h1 : WellKept s1 ↔ WellKept s := wellKept_modMgmt
  have h0 : WellKept s0 ↔ WellKept s := (wellKept_update src).trans (wellKept_modMgmt.trans h1)
  have h2 : WellKept s2 ↔ WellKept s := by
    unfold s2
    split
    · split <;> simp [h0]
    · exact h1
  have h3 : WellKept s3 ↔ WellKept s := by
    unfold s3
    split <;> simp [h2]
  have h4 : WellKept s4 ↔ WellKept s := by
    unfold s4
    split <;> simp [h3]
  have h5 : WellKept s5 ↔ WellKept s := by
    unfold s5
    split <;> simp [h4]
  exact wellKept_modMgmt.trans h5
theorem keeps_execBoot (h : WellKept s) : Keeps (execBoot s) := by
  unfold execBoot
  split
  · rw [keeps_next]
    split
    · rw [wellKept_bootChain]
      split
      · exact h
      · exact wellKept_warmReset h
    · exact h
  · simp [h]
theorem keeps_mailRequest {f} (hf : WellKept s → WellKept (f s)) (h : WellKept s) : Keeps (mailRequest s f) := by
  simp [mailRequest, h, hf h]

/-- A request that is only answered. -/
theorem keeps_answered {f : State → MailAnswer} (h : WellKept s) : Keeps (mailRequest s fun st => st.answer (f st)) :=
  keeps_mailRequest wellKept_answer.2 h
theorem keeps_execMeasurementExtend (h : WellKept s) : Keeps (execMeasurementExtend s) := by
  unfold execMeasurementExtend
  split
  · exact keeps_mailRequest (fun h => by simp [h]) h
  · simp [h]
theorem keeps_execConfigRecordReplace (h : WellKept s) : Keeps (execConfigRecordReplace s) := by
  unfold execConfigRecordReplace
  split <;> simp [h]
theorem keeps_execNegotiateAlgorithms (h : WellKept s) : Keeps (execNegotiateAlgorithms s) := by
  unfold execNegotiateAlgorithms
  split
  · exact keeps_answered h
  · simp [h]
theorem keeps_execGetCertificate (h : WellKept s) : Keeps (execGetCertificate s) := by
  unfold execGetCertificate
  split <;> exact keeps_answered h
theorem keeps_execChallenge (h : WellKept s) : Keeps (execChallenge s) := by
  unfold execChallenge
  split
  · exact keeps_answered h
  · simp [h]
theorem keeps_execGetMeasurements (h : WellKept s) : Keeps (execGetMeasurements s) := by
  unfold execGetMeasurements
  split <;> exact keeps_answered h
theorem keeps_execCoreRetirement (h : WellKept s) : Keeps (execCoreRetirement s) := by
  unfold execCoreRetirement
  split
  · split <;> simp [h]
  · simp [h]
theorem keeps_execThermalClampEngage (h : WellKept s) : Keeps (execThermalClampEngage s) := by
  unfold execThermalClampEngage
  split
  · split <;> simp [h]
  · simp [h]
theorem keeps_execThermalClampRelease (h : WellKept s) : Keeps (execThermalClampRelease s) := by
  unfold execThermalClampRelease
  split
  · split <;> simp [h]
  · simp [h]
@[simp] theorem wellKept_modStack {i f} : WellKept (s.modStack i f) ↔ WellKept s := wellKept_update s
theorem keeps_execHbmRetraining (h : WellKept s) : Keeps (execHbmRetraining s) := by
  unfold execHbmRetraining
  split
  · split
    · simp [h]
    · split <;> simp [h]
  · simp [h]
theorem keeps_execHbmInterfaceError (h : WellKept s) : Keeps (execHbmInterfaceError s) := by
  unfold execHbmInterfaceError
  split <;> simp [h]
@[simp] theorem wellKept_startTest {i pc bank bad} : WellKept (s.startTest i pc bank bad) ↔ WellKept s := by
  unfold State.startTest
  split
  · rfl
  · split <;> simp
@[simp] theorem wellKept_goOnTest {i} : WellKept (s.goOnTest i) ↔ WellKept s := by
  unfold State.goOnTest
  split <;> simp
@[simp] theorem wellKept_periodicTest : WellKept s.periodicTest ↔ WellKept s := by simp [State.periodicTest]
theorem keeps_execBankTest (h : WellKept s) : Keeps (execBankTest s) := by
  unfold execBankTest
  split <;> simp [h]
@[simp] theorem wellKept_reportBad {i bad} : WellKept (s.reportBad i bad) ↔ WellKept s := by simp [State.reportBad]
@[simp] theorem wellKept_countCorrected {i lines} : WellKept (s.countCorrected i lines) ↔ WellKept s := by simp [State.countCorrected]
@[simp] theorem wellKept_scrubAll : WellKept s.scrubAll ↔ WellKept s := by
  unfold State.scrubAll
  dsimp only
  rw [wellKept_modMgmt]
  refine wellKept_foldl (fun s i => ?_) _ s
  split
  · rfl
  · split <;> simp
theorem keeps_execPatrolScrub (h : WellKept s) : Keeps (execPatrolScrub s) := by
  unfold execPatrolScrub
  split
  · split <;> simp [h]
  · simp [h]
  · simp [h]
theorem keeps_execHbmStatusWrite (h : WellKept s) : Keeps (execHbmStatusWrite s) := by
  unfold execHbmStatusWrite
  split <;> simp [h]
@[simp] theorem wellKept_coreError {addr aux f} (h : WellKept s) : WellKept (s.coreError t m addr aux f).1 := by
  unfold State.coreError
  split
  · split
    · exact h
    · split
      · exact h
      · split
        · simp [h]
        · split <;> simp [h]
        · split <;> simp [h]
        · exact h
  · exact h
@[simp] theorem wellKept_softError {e} (h : WellKept s) : WellKept (s.softError e).1 := by
  unfold State.softError
  split
  · simp [h]
  · simp [h]
  · next id _ =>
    dsimp only
    cases e : (s.slog.find? fun x => x.id == id).bind fun x => (s.member? x.task x.member).map fun mem => s.logDrop x mem cMemory with
    | none => exact h
    | some s1 =>
      obtain ⟨x, -, e1⟩ := Option.bind_eq_some_iff.mp e
      obtain ⟨mem, -, rfl⟩ := Option.map_eq_some_iff.mp e1
      exact wellKept_logDrop h
  · exact wellKept_coreError h
  · exact wellKept_modTask.2 (wellKept_coreError h)
  · simp [h]
  · exact wellKept_coreError h
@[simp] theorem wellKept_softErrors (h : WellKept s) : WellKept s.softErrors := by
  refine wellKept_foldl_of (fun s e h => ?_) _ h
  dsimp only
  split
  · exact (wellKept_update _).2 (wellKept_softError h)
  · exact wellKept_softError h

end
end Sys2Proof.Machine

namespace Sys2Proof.Machine
section
variable {s : State} {tk : Task} {mem : Member} {t m : Nat}

/-! ### Register words (R122 to R125) -/

theorem keeps_aluOp {rd rs rt f} (h : WellKept s) : Keeps (aluOp rd rs rt f s) := keeps_onMember fun _ _ => keeps_cWrite h
theorem keeps_unOp {rd rs f} (h : WellKept s) : Keeps (unOp rd rs f s) := keeps_onMember fun _ _ => keeps_cWrite h
theorem keeps_cmpOp {rd rs rt f} (h : WellKept s) : Keeps (cmpOp rd rs rt f s) :=
  keeps_onMember fun _ _ => keeps_ite (keeps_raise h) (keeps_cWrite h)
theorem keeps_execSlti {rd rs imm} (h : WellKept s) : Keeps (execSlti rd rs imm s) :=
  keeps_onMember fun _ _ => keeps_ite (keeps_raise h) (keeps_cWrite h)
theorem keeps_execMdrain {f} (h : WellKept s) : Keeps (execMdrain f s) := keeps_matIssue h

/-! ### Every instruction -/

/-- Every instruction and every event of the device keeps the form: those that share a shape go by the lemma of their shape, the others by
their own. -/


theorem keeps_exec (i : Instr) (h : WellKept s) : Keeps (exec i s) := by
  unfold exec
  cases i with
  | add | sub | mul | mulh | mulhz | div_ | divz | rem_ | remz | and_ | or_ | xor_ | shl | shr | sra | min | max | minz | maxz | lea =>
    exact keeps_aluOp h
  | clz | popc | addi | andi | ori | xori | lih | shli | shri | srai => exact keeps_unOp h
  | seq | slt | sltz => exact keeps_cmpOp h
  | slti => exact keeps_execSlti h
  | ldb | ldbs | ldh | ldhs | ldw | ldws | ldd => exact keeps_loadWord h
  | stb | sth | stw | std => exact keeps_storeWord h
  | beq | bne | blt | bge | blo | bhs => exact keeps_branchOp h
  | jal => exact keeps_execJal h
  | jalr => exact keeps_execJalr h
  | loop => exact keeps_execLoop h
  | loopi => exact keeps_execLoopi h
  | dset => exact keeps_execDset h
  | dget => exact keeps_execDget h
  | mbw => exact keeps_execMbw h
  | tsig => exact keeps_execTsig h
  | twait => exact keeps_execTwait h
  | twaitb => exact keeps_execTwaitb h
  | semw => exact keeps_execSemw h
  | sems => exact keeps_execSems h
  | semr => exact keeps_execSemr h
  | acq => exact keeps_execAcq h
  | rel => exact keeps_execRel h
  | sobind => exact keeps_execSobind h
  | boarm => exact keeps_execBoarm h
  | bowait => exact keeps_execBowait h
  | fence => exact keeps_execFence h
  | tspawn => exact keeps_execTspawn h
  | srrd => exact keeps_execSrrd h
  | srwr => exact keeps_execSrwr h
  | time => exact keeps_execTime h
  | cyc => exact keeps_execCyc h
  | rng => exact keeps_execRng h
  | trap => exact keeps_execTrap h
  | fltinj => exact keeps_execFltinj h
  | loopk => exact keeps_execLoopk h
  | jmpk => exact keeps_execJmpk h
  | twaitTimed | twaitbTimed => exact keeps_timedWait h
  | tsigTimed => exact keeps_execTsigTimed h
  | closeTimed | halt => exact keeps_timedStop h
  | bundle => exact keeps_execBundle h
  | vadd | vsub | vadds | vsubs | vmin | vmax | vminz | vmaxz | vand | vor | vxor | vnot | vshl | vshr | vsra | vmov | vceq | vclt |
    vcltz | vsel | vvalid | viota | vabs | vneg | vfadd | vfsub | vfmul | vfma | vfms | vfnma | vfmin | vfmax | vfabs | vfneg | vfcmp
    | vfscale | vfexpo | vfmant | vdiv | vrcp | vsqrt | vsqrtc | vrsqrt | vexp2 | vlog2 | vgumb | vsum | vscan | vrmax | vrmin | vemax
    | vcount | vsort | vtopk | vtopkm | vcvtF32 | vcvtF16 | vcvtBf16 | vcvtE4m3 | vcvtE5m2 | vcvtS32 | vcvtS16 | vcvtS8 | vmxq | vmxdq
    | vpack | vwiden | vnarrow | vrng | vperm | vshuf | vbcast | vextr | vins | vrot | vdot4s | vdot8s | vcompact | vexpand =>
    exact keeps_opStart h
  | vchain => exact keeps_execVchain h
  | mma | mmaz | mmas | mima | mzero | mldacc => exact keeps_matIssue h
  | mdrain => exact keeps_execMdrain h
  | wset => exact keeps_execWset h
  | wadv => exact keeps_execWadv h
  | wclose => exact keeps_execWclose h
  | copy => exact keeps_execCopy h
  | peerCopy => exact keeps_execPeerCopy h
  | gath => exact keeps_execGath h
  | gathTowin => exact keeps_execGathTowin h
  | scat => exact keeps_execScat h
  | fill => exact keeps_execFill h
  | pref => exact keeps_execPref h
  | accAddS32 | accAddF32 | accAddBf16 | accMinS32 | accMaxS32 | accMinZ32 | accMaxZ32 | accAnd | accOr | accXor | accSwap |
    accfAddS32 | accfAddF32 | accfAddBf16 | accfMinS32 | accfMaxS32 | accfMinZ32 | accfMaxZ32 | accfAnd | accfOr | accfXor | accfSwap =>
    exact keeps_accumulate h
  | cas => exact keeps_execCas h
  | bclose => exact keeps_execBclose h
  | waitb => exact keeps_execWaitb h
  | slopen => exact keeps_execSlopen h
  | slfork => exact keeps_execSlfork h
  | slmove => exact keeps_execSlmove h
  | slmoveSwap => exact keeps_execSlmoveSwap h
  | slclose => exact keeps_execSlclose h
  | slinfo => exact keeps_execSlinfo h
  | rxlook => exact keeps_execRxlook h
  | kapp => exact keeps_execKapp h
  | cpact => exact keeps_execCpact h
  | repl => exact keeps_execRepl h
  | lease => exact keeps_execLease h
  | renew => exact keeps_execRenew h
  | free => exact keeps_execFree h
  | evclass => exact keeps_execEvclass h
  | promo => exact keeps_execPromo h
  | nodeinfo => exact keeps_execNodeinfo h
  | bsel => exact keeps_execBsel h
  | pgath => exact keeps_execPgath h
  | tkfeed => exact keeps_execTkfeed h
  | tkdrain => exact keeps_execTkdrain h
  | tkdetok => exact keeps_execTkdetok h
  | gload => exact keeps_execGload h
  | gmask => exact keeps_execGmask h
  | gstepStep => exact keeps_execGstepStep h
  | gstepStart => exact keeps_execGstepStart h
  | gstepOff => exact keeps_execGstepOff h
  | close | tdone => exact keeps_regionEnd h
  | nop => exact keeps_execNop h
  | stalledWordResume => exact keeps_execStalledWordResume h
  | lockGrant => exact keeps_execLockGrant h
  | barrierPhaseSeen => exact keeps_execBarrierPhaseSeen h
  | cStorePerformed => exact keeps_execCStorePerformed h
  | moveArrival => exact keeps_execMoveArrival h
  | unitResult => exact keeps_execUnitResult h
  | followOnStep => exact keeps_execFollowOnStep h
  | commandStart => exact keeps_execCommandStart h
  | commandCompletion => exact keeps_execCommandCompletion h
  | regionCommit => exact keeps_execRegionCommit h
  | alignmentBarrier => exact keeps_execAlignmentBarrier h
  | echoArrival => exact keeps_execEchoArrival h
  | parapetDecision => exact keeps_execParapetDecision h
  | deadlineFault => exact keeps_execDeadlineFault h
  | sideLogRetry => exact keeps_execSideLogRetry h
  | taskPlacement => exact keeps_execTaskPlacement h
  | preemptionDiscard => exact keeps_execPreemptionDiscard h
  | placementReservation => exact keeps_execPlacementReservation h
  | launchPortWrite => exact keeps_execLaunchPortWrite h
  | task => exact keeps_execTask h
  | graph => exact keeps_execGraph h
  | patch => exact keeps_execPatch h
  | fenceRecord => exact keeps_execFenceRecord h
  | timed => exact keeps_execTimed h
  | signal => exact keeps_execSignal h
  | resume => exact keeps_execResume h
  | resumeChannel => exact keeps_execResumeChannel h
  | terminate => exact keeps_execTerminate h
  | power => exact keeps_execPower h
  | spanPowerChange => exact keeps_execSpanPowerChange h
  | timedSlotFire => exact keeps_execTimedSlotFire h
  | qstatWrite => exact keeps_execQstatWrite h
  | registerWrite => exact keeps_execRegisterWrite h
  | hostMemoryWrite => exact keeps_execHostMemoryWrite h
  | leaseExpiry => exact keeps_execLeaseExpiry h
  | leaseRebase => exact keeps_execLeaseRebase h
  | deviceTimeStep => exact keeps_execDeviceTimeStep h
  | register => exact keeps_execRegister h
  | unregister => exact keeps_execUnregister h
  | lookup => exact keeps_execLookup h
  | holders => exact keeps_execHolders h
  | rlease => exact keeps_execRlease h
  | rlgrant => exact keeps_execRlgrant h
  | rldeny => exact keeps_execRldeny h
  | rlrenew => exact keeps_execRlrenew h
  | rlfree => exact keeps_execRlfree h
  | read => exact keeps_execRead h
  | data => exact keeps_execData h
  | remoteLeaseRenew => exact keeps_execRemoteLeaseRenew h
  | directoryTimeout => exact keeps_execDirectoryTimeout h
  | linkReplay => exact keeps_execLinkReplay h
  | timeMessage => exact keeps_execTimeMessage h
  | syncLoss => exact keeps_execSyncLoss h
  | boot => exact keeps_execBoot h
  | measurementExtend => exact keeps_execMeasurementExtend h
  | configRecordReplace => exact keeps_execConfigRecordReplace h
  | getVersion | getCapabilities | getDigests => exact keeps_answered h
  | negotiateAlgorithms => exact keeps_execNegotiateAlgorithms h
  | getCertificate => exact keeps_execGetCertificate h
  | challenge => exact keeps_execChallenge h
  | getMeasurements => exact keeps_execGetMeasurements h
  | coreRetirement => exact keeps_execCoreRetirement h
  | thermalClampEngage => exact keeps_execThermalClampEngage h
  | thermalClampRelease => exact keeps_execThermalClampRelease h
  | hbmRetraining => exact keeps_execHbmRetraining h
  | hbmInterfaceError => exact keeps_execHbmInterfaceError h
  | bankTest => exact keeps_execBankTest h
  | patrolScrub => exact keeps_execPatrolScrub h
  | hbmStatusWrite => exact keeps_execHbmStatusWrite h
  | portStatusWrite => exact keeps_execPortStatusWrite h
  | arrayWrite => exact keeps_execArrayWrite h
  | fjostanPortStateChange => exact keeps_execFjostanPortStateChange h
  | farMemoryPortStateChange => exact keeps_execFarMemoryPortStateChange h
  | remoteLeaseHolderExpiry => exact keeps_execRemoteLeaseHolderExpiry h
  -- SEAL alone is left: its name is a keyword of Lean and cannot stand as the name of a case.
  | _ => exact keeps_execSeal h

end
end Sys2Proof.Machine

namespace Sys2Proof.Machine
section
variable {s : State} {tk : Task} {mem : Member} {t m : Nat}

/-! ### The turn of a stream (R19, R35, R89) -/

/-- The result of a stream's turn, or the state its word runs in, has the form. Of the state of a ghost's word nothing is asked: the step
goes on from the state before it, whatever the word does. -/
def KeepsIssue : Issue → Prop
  | .done r => Keeps r
  | .run _ s => WellKept s
  | .ghost _ _ => True

theorem keepsIssue_fetchIssue {x} (h : WellKept s) : KeepsIssue (fetchIssue s t m x tk mem) := by
  have hf := wellKept_fetchWord (tk := tk) (mem := mem) (x := x) h
  unfold fetchIssue
  generalize fetchWord s tk mem x = r at hf ⊢
  obtain ⟨e | w, m1, s1⟩ := r <;> dsimp only
  · split
    · exact keeps_next.2 h
    · exact keeps_raise ((wellKept_update _).2 (wellKept_putMember.2 hf))
  · split
    · exact keeps_next.2 h
    · have h2 : WellKept (s1.putMember t m m1) := wellKept_putMember.2 hf
      split
      · exact keeps_raiseIllegal ((wellKept_update _).2 h2)
      · exact (wellKept_update _).2 h2

/-- A ghost's word leaves memory and the events as they were before it. -/
theorem keeps_ghostResult {r} (h : WellKept s) : Keeps (ghostResult s t r) := by
  unfold ghostResult
  split
  · split
    · exact keeps_next.2 (wellKept_putTask.2 ((wellKept_update s).2 h))
    · exact keeps_next.2 h
  · next hr => exact fun s1 e => absurd e (hr s1)

theorem keepsIssue_prepareIssue {x} (h : WellKept s) : KeepsIssue (prepareIssue s t m x) := by
  have h1 : Keeps (.next s) := keeps_next.2 h
  unfold prepareIssue
  split
  · exact h1
  · split
    · split
      · exact h1
      · split
        · exact keepsIssue_fetchIssue h
        · exact h1
    · split
      · exact h1
      · dsimp only
        split
        · split
          · trivial
          · trivial
          · exact keeps_ghostResult h
        · exact h1
    · exact h1

/-! ### The stages of a cycle (R24, R48, R159, R336, R405) -/

@[simp] theorem wellKept_list {l} : WellKept (s.list l) ↔ WellKept s := wellKept_update s
@[simp] theorem wellKept_mapRunning {f} : WellKept (s.mapRunning f) ↔ WellKept s := wellKept_update s
@[simp] theorem wellKept_mergeWrites : WellKept (mergeWrites s) ↔ WellKept s :=
  wellKept_foldl (fun s _ => wellKept_foldl (fun _ _ => (wellKept_update _).trans wellKept_modMember) _ s) _ s
@[simp] theorem wellKept_phaseReads : WellKept (phaseReads s) ↔ WellKept s :=
  wellKept_foldl (fun _ _ => wellKept_arrayReads.trans wellKept_readChains) _ s
@[simp] theorem wellKept_retryCounts (h : WellKept s) : WellKept (s.retryCounts t m) := by
  unfold State.retryCounts
  split
  · exact h
  · split
    · exact h
    · exact wellKept_putMember.2
        (List.foldlRecOn (motive := fun r : Member × State => WellKept r.2) _ _ h fun _ hr _ _ => wellKept_addBytes hr)
@[simp] theorem wellKept_retryAllCounts (h : WellKept s) : WellKept (retryAllCounts s) := by
  refine wellKept_foldl_of (fun s p h => ?_) _ h
  split
  · exact h
  · exact wellKept_retryCounts h
@[simp] theorem wellKept_raiseOverflows : WellKept (raiseOverflows s) ↔ WellKept s :=
  wellKept_foldl (fun _ _ => wellKept_raiseFor) _ s
@[simp] theorem wellKept_discardUnknown (h : WellKept s) : WellKept (discardUnknown s) := by
  refine wellKept_foldl_of (fun s q h => ?_) _ h
  split
  · split
    · exact wellKept_discardHead h
    · exact h
  · exact h
@[simp] theorem wellKept_endCycle : WellKept (endCycle s) ↔ WellKept s := wellKept_update s
@[simp] theorem wellKept_startTurns : WellKept (startTurns s t m) ↔ WellKept s := by
  unfold startTurns
  split <;> simp
theorem wellKept_stageStep {n} (h : WellKept s) : WellKept (stageStep n s) := by
  unfold stageStep
  split
  · simp [h]
  · simp [h]
  · exact (wellKept_update _).2 (wellKept_list.2 (wellKept_softErrors h))
  all_goals simp [h]

/-! ### One step -/

theorem keeps_step (h : WellKept s) : Keeps (step s) := by
  unfold step
  split
  · exact keeps_next.2 ((wellKept_update s).2 h)
  · next turn rest _ =>
    have h1 : ∀ a g, WellKept { s with agenda := rest, cur := a, arg := g } := fun _ _ => (wellKept_update s).2 h
    have h2 : WellKept { s with agenda := rest } := (wellKept_update s).2 h
    cases turn with
    | event a g i => exact keeps_exec i (h1 a g)
    | issue t m x =>
      have h3 := keepsIssue_prepareIssue (t := t) (m := m) (x := x) h2
      dsimp only
      split
      · next e => rwa [e] at h3
      · next e => rw [e] at h3; exact keeps_exec _ h3
      · exact keeps_ghostResult h2
    | starts t m => exact keeps_next.2 (wellKept_startTurns.2 h2)
    | stage n => exact keeps_next.2 (wellKept_stageStep h2)

end

/-- Settles O40: of all that a step runs, memory is written by State.wrMem alone and events are numbered by State.stamp alone, and both keep
the form (wellKept_wrMem, wellKept_stamp). -/
theorem everyStepKeepsMemoryAndEvents : Obligations.EveryStepKeepsMemoryAndEvents := by
  unfold Obligations.EveryStepKeepsMemoryAndEvents
  intro s s1 h e
  exact keeps_step h s1 e

end Sys2Proof.Machine

namespace Sys2Proof.Machine
section
variable {s : State} {tk tk1 : Task} {mem : Member} {t k : Nat}

/-! ## A task replaced, and what leaving a core, records and suspensions leave alone (R31, R35, R302, R356) -/

/-- The new task is the one the state holds. -/
theorem getElem?_putTask (h : s.tasks[t]? = some tk) : (s.putTask t tk1).tasks[t]? = some tk1 := by
  have hl := (List.getElem?_eq_some_iff.mp h).1
  simp [hl]

/-- A change of a task that the state holds replaces it. -/
theorem modTask_eq {f : Task → Task} (h : s.tasks[t]? = some tk) : s.modTask t f = s.putTask t (f tk) := by
  simp [State.modTask, h]

@[simp] theorem putTask_putTask (a b : Task) : (s.putTask t a).putTask t b = s.putTask t b := by
  simp [State.putTask]

@[simp] theorem leaveCores_tasks : (s.leaveCores tk).tasks = s.tasks := by rw [leaveCores_eq]
@[simp] theorem leaveCores_mem : (s.leaveCores tk).mem = s.mem := by rw [leaveCores_eq]
@[simp] theorem leaveCores_queues : (s.leaveCores tk).queues = s.queues := by rw [leaveCores_eq]
@[simp] theorem leaveCores_events : (s.leaveCores tk).events = s.events := by rw [leaveCores_eq]
@[simp] theorem leaveCores_nextSeq : (s.leaveCores tk).nextSeq = s.nextSeq := by rw [leaveCores_eq]
@[simp] theorem leaveCores_irqs : (s.leaveCores tk).irqs = s.irqs := by rw [leaveCores_eq]

@[simp] theorem releaseOwn_tasks : (s.releaseOwn t).tasks = s.tasks := rfl
@[simp] theorem releaseOwn_mem : (s.releaseOwn t).mem = s.mem := rfl
@[simp] theorem releaseOwn_recs : (s.releaseOwn t).recs = s.recs := rfl
@[simp] theorem releaseOwn_queues : (s.releaseOwn t).queues = s.queues := rfl
@[simp] theorem releaseOwn_events : (s.releaseOwn t).events = s.events := rfl
@[simp] theorem releaseOwn_nextSeq : (s.releaseOwn t).nextSeq = s.nextSeq := rfl
@[simp] theorem releaseOwn_irqs : (s.releaseOwn t).irqs = s.irqs := rfl

/-- A suspension presents and drops no record. -/
@[simp] theorem suspend_recs : (s.suspend t).recs = s.recs := by
  unfold State.suspend
  split
  · rfl
  · next h => rw [State.modTask_recs, releaseOwn_recs, discard_eq h]

@[simp] theorem halt_recs : (s.halt t).recs = s.recs := by simp [State.halt]

/-- The task after a suspension. -/
theorem suspend_task (h : s.tasks[t]? = some tk) : (s.suspend t).tasks[t]? =
    some { tk.discardRegion with state := .suspended, before := some (tk.before.getD (tk.replicas, tk.members)) } := by
  rw [suspend_tasks h]
  exact List.getElem?_set_self (List.getElem?_eq_some_iff.mp h).1

/-- The task after a suspension in whose cycle no word of it issues: nothing of the region is kept (R25, R31). -/
theorem halt_task (h : s.tasks[t]? = some tk) :
    (s.halt t).tasks[t]? = some { tk.discardRegion with state := .suspended, before := none } := by
  rw [State.halt, modTask_eq (suspend_task h)]
  exact getElem?_putTask (suspend_task h)

/-- The other faults of a cycle are added to the records that wait; nothing else changes. -/
theorem foldl_recordOnce (fs : List FaultInfo) (s : State) :
    ∃ rs, fs.foldl (fun st g => st.recordOnce t g) s = { s with recs := s.recs ++ rs } := by
  induction fs generalizing s with
  | nil => exact ⟨[], by simp⟩
  | cons f r ih =>
    rw [List.foldl_cons]
    obtain ⟨rs, e⟩ := ih (s.recordOnce t f)
    rw [e]
    unfold State.recordOnce
    split
    · exact ⟨rs, rfl⟩
    · exact ⟨⟨t, f, none⟩ :: rs, by simp [recordFault_eq]⟩

/-- A fault that discards a region is recorded, with the others of its cycle behind it; nothing else changes (R35). -/
theorem recordDiscard_eq (s : State) (t : Nat) (tk : Task) (f : FaultInfo) :
    ∃ rs, s.recordDiscard t tk f = { s with recs := s.recs ++ ⟨t, f, none⟩ :: rs } := by
  obtain ⟨rs, e⟩ := foldl_recordOnce (t := t) (tk.stoppedIn s.cycle) (s.recordFault t f)
  exact ⟨rs, by rw [State.recordDiscard, e]; simp [recordFault_eq]⟩

/-- Any fault of an unreplicated task that has not been suspended in this cycle discards its region (R329). -/
theorem raiseFor_unreplicated {f : FaultInfo} (h : s.tasks[t]? = some tk) (hr : tk.replicated = false) (hb : tk.before = none) :
    s.raiseFor t f = (s.recordDiscard t tk f).suspend t := by
  simp [State.raiseFor, h, hr, hb]

/-! ## Where a region's end is reached (R27, R28, R37) -/

/-- A member whose C stream does not stand still is at no region end. -/
theorem Member.atEnd_of_stall_none (h : mem.stall = none) (final : Bool) : mem.atEnd final = false := by
  simp [Member.atEnd, h]

/-- Nothing overflows where no signal of the cycle is left to add (R48). -/
theorem Member.semEnd_overflows_nil (h : mem.pend = Pend.empty) : mem.semEnd.2 = [] := by
  simp [Member.semEnd, h, Pend.empty]

/-- No token is left over where each member is at no end, or has empty queues. -/
theorem Task.strayTokens_eq_nil (h : ∀ m ∈ tk.members, (∀ final, m.atEnd final = false) ∨ ∀ q ∈ m.tq.toList, q = []) :
    tk.strayTokens = [] := by
  unfold Task.strayTokens
  refine List.filter_eq_nil_iff.mpr fun p hp => ?_
  obtain ⟨hp, hbad⟩ := List.mem_filter.mp hp
  obtain ⟨i, -, hi⟩ := List.mem_filterMap.mp hp
  obtain ⟨m, hm, rfl⟩ := Option.map_eq_some_iff.mp hi
  rcases h m (List.mem_of_getElem? hm) with ha | hq
  · simp [ha] at hbad
  · have hnone : (m.tq.toList.any fun q => !q.isEmpty) = false := List.any_eq_false.mpr fun q h => by simp [hq q h]
    simp [hnone, -Vector.any_toList] at hbad

/-- The one member of a task stands at its end with a token left: it is named (R28). -/
theorem Task.strayTokens_single {r : Replica} (hm : tk.members = [mem]) (ha : mem.atEnd false = true ∨ mem.atEnd true = true)
    (hq : ∃ q ∈ mem.tq.toList, q ≠ []) (hr : tk.replicas[mem.replica]? = some r) (hs : r.stopped = none) :
    tk.strayTokens = [(0, mem)] := by
  have hq : (mem.tq.toList.any fun q => !q.isEmpty) = true := by
    obtain ⟨q, hq, hne⟩ := hq
    exact List.any_eq_true.mpr ⟨q, hq, by simp [hne]⟩
  simp [Task.strayTokens, hm, ha, -Vector.any_toList, hq, hr, hs]

namespace AtRegionEnd
variable {final : Bool}

/-- Each member stands at the end that the region has. -/
theorem atEnd (h : AtRegionEnd s tk final) (hm : mem ∈ tk.members) (b : Bool) : mem.atEnd b = (b == final) := by
  obtain ⟨hstall, hk, hst⟩ := h.ends mem hm
  cases final <;> cases b <;> simp [Member.atEnd, hstall, hk, hst]

theorem strayTokens (h : AtRegionEnd s tk final) : tk.strayTokens = [] :=
  Task.strayTokens_eq_nil fun m hm => by
    obtain ⟨-, -, -, -, htokens⟩ := h.quiet m hm
    exact .inr htokens

theorem logged (h : AtRegionEnd s tk final) (t : Nat) : s.logged t = false := by simp [State.logged, h.log]

/-- Step 1 of the commit has nothing to wait for. -/
theorem drained (h : AtRegionEnd s tk final) (t : Nat) : s.drained t tk.members = true := by
  have hstores : ∀ m ∈ tk.members, m.stores.isEmpty = true := fun m hm => by
    obtain ⟨-, -, hs, -, -⟩ := h.quiet m hm
    simp [hs]
  simpa [State.drained, h.logged] using hstores

theorem endReached (h : AtRegionEnd s tk final) (b : Bool) : endReached false tk.members b = (b == final) := by
  have hall : ∀ m ∈ tk.members, (m.atEnd b && m.cmds.isEmpty && (false || m.counts.isEmpty) && m.semEnd.2.isEmpty) = (b == final) :=
    fun m hm => by
      obtain ⟨hc, hn, -, hp, -⟩ := h.quiet m hm
      simp [h.atEnd hm, hc, hn, Member.semEnd_overflows_nil hp]
  obtain ⟨m, hm⟩ := List.exists_mem_of_ne_nil _ h.some_
  rw [Machine.endReached, Bool.eq_iff_iff, List.all_eq_true]
  exact ⟨fun ha => by rw [← hall m hm]; exact ha m hm, fun e x hx => by rw [hall x hx]; exact e⟩

end AtRegionEnd

/-! ## The steps of a commit (R27) -/

/-- Before its members reach an end no commit of an unreplicated task begins. -/
theorem commitBegin_early (h : s.tasks[t]? = some tk) (hr : tk.replicated = false) (hne : tk.members ≠ [])
    (hs : ∀ m ∈ tk.members, m.stall = none) : s.commitBegin t = s := by
  have hend : ∀ b, endReached false tk.members b = false := fun b => by
    obtain ⟨m, hm⟩ := List.exists_mem_of_ne_nil _ hne
    exact List.all_eq_false.mpr ⟨m, hm, by simp [Member.atEnd_of_stall_none (hs m hm)]⟩
  have hstray : tk.strayTokens = [] := Task.strayTokens_eq_nil fun m hm => .inl (Member.atEnd_of_stall_none (hs m hm))
  simp [State.commitBegin, h, hstray, hr, hend]

/-- The commit begins where every member stands at the region's end. -/
theorem commitBegin_atRegionEnd {final : Bool} (h : s.tasks[t]? = some tk) (he : AtRegionEnd s tk final) :
    s.commitBegin t = s.putTask t { tk with commit := .step1, commitFinal := final } := by
  have hpast : (tk.replicas.any fun r => r.atBarrier) = false := List.any_eq_false.mpr fun r hr => by simp [he.past r hr]
  cases final <;> simp [State.commitBegin, h, he.idle, he.running, he.strayTokens, he.single, hpast, he.endReached]

/-- The fault of a member that stands at its region's end with a token left (R28). -/
def State.strayFault (s : State) (t : Nat) (mem : Member) : FaultInfo :=
  { s with cur := endActor t 0 mem }.info mem cSchedule 0 0 8

/-- A token left at the region's end is a schedule fault of the task's one member: no commit begins, and the region is discarded (R28). -/
theorem commitBegin_stray (h : s.tasks[t]? = some tk) (hr : tk.replicated = false) (hc : tk.commit = .none) (hs : tk.state = .running)
    (hb : tk.before = none) (hstray : tk.strayTokens = [(0, mem)]) :
    s.commitBegin t = (State.recordDiscard { s with cur := endActor t 0 mem } t tk (s.strayFault t mem)).suspend t := by
  rw [← raiseFor_unreplicated (s := { s with cur := endActor t 0 mem }) h hr hb]
  simp [State.commitBegin, h, hc, hs, hstray, State.strayFault]

/-- No work is deferred where no member has deferred any and no lock is held at TDONE (R150, R301). -/
theorem Task.commitList_eq_nil (hd : ∀ m ∈ tk.members, m.dwq = [] ∧ m.rels = [] ∧ m.arms = [] ∧ m.spawns = [] ∧ m.counts = [])
    (hl : tk.commitFinal = true → tk.heldLocks = []) : tk.commitList k = [] := by
  have hcrew : ∀ p ∈ tk.crewOf k, p.2 ∈ tk.members := fun p hp => by
    obtain ⟨r, -, hr⟩ := List.mem_filterMap.mp hp
    obtain ⟨m, hm, rfl⟩ := Option.map_eq_some_iff.mp hr
    exact List.mem_of_getElem? hm
  have hd : ∀ p ∈ tk.crewOf k, p.2.dwq = [] ∧ p.2.rels = [] ∧ p.2.arms = [] ∧ p.2.spawns = [] ∧ p.2.counts = [] :=
    fun p hp => hd p.2 (hcrew p hp)
  have hnone : ∀ {β : Type} (f : Nat × Member → List β), (∀ p ∈ tk.crewOf k, f p = []) → (tk.crewOf k).flatMap f = [] :=
    fun f hf => List.flatMap_eq_nil_iff.mpr hf
  have hrels : (if tk.commitFinal then tk.heldLocks else ((tk.crewOf k).flatMap fun p => p.2.rels).eraseDups) = [] := by
    split
    · next hf => exact hl hf
    · rw [hnone _ fun p hp => (hd p hp).2.1]; rfl
  unfold Task.commitList
  dsimp only
  rw [hrels, hnone deferredWrites fun p hp => by simp [deferredWrites, hd p hp],
    hnone (fun p => deferredOf p isAtomic) fun p hp => by simp [deferredOf, hd p hp],
    hnone (fun p => deferredOf p _) fun p hp => by simp [deferredOf, hd p hp],
    hnone (fun p => p.2.counts.map _) fun p hp => by simp [hd p hp],
    hnone (fun p => p.2.arms.map _) fun p hp => by simp [hd p hp],
    hnone (fun p => p.2.spawns.map _) fun p hp => by simp [hd p hp]]
  rfl

/-- Step 1 is done at once where every store is performed and the side log is empty; step 2 takes its work. -/
theorem commitStep1_drained (h : s.tasks[t]? = some tk) (hc : tk.commit = .step1) (hr : tk.replicated = false)
    (hd : s.drained t tk.members = true) : s.commitStep1 t = s.putTask t { tk with commit := .step2 0 (tk.commitList 0) } := by
  simp [State.commitStep1, h, hc, hr, hd]

/-- Step 2 of a running task ends at once where it has no work and the side log is empty. -/
theorem commitStep2_done (h : s.tasks[t]? = some tk) (hc : tk.commit = .step2 k []) (hl : s.logged t = false)
    (hs : tk.state = .running) (he : tk.ending = none) : s.commitStep2 t = s.commitFinish t k := by
  simp [State.commitStep2, h, hc, State.commitWork, hl, hs, he]

/-- A task without a commit in progress does none of its steps. -/
theorem commitSteps_idle (h : s.tasks[t]? = some tk) (hc : tk.commit = .none) : (s.commitStep1 t).commitStep2 t = s := by
  have h1 : s.commitStep1 t = s := by simp [State.commitStep1, h, hc]
  rw [h1]
  simp [State.commitStep2, h, hc]

/-- REGION_COMMIT takes the commit through its steps. -/
theorem exec_regionCommit (ht : s.cur.task = t) : exec .regionCommit s = .next (((s.commitBegin t).commitStep1 t).commitStep2 t) := by
  subst ht; rfl

/-- A task whose commit, at CLOSE or where final at TDONE, has no work left. -/
def Task.worked (tk : Task) (final : Bool) : Task := { tk with commit := .step2 0 [], commitFinal := final }

/-- REGION_COMMIT at a region's end with nothing deferred comes to the end of the commit. -/
theorem regionCommit_atRegionEnd {final : Bool} (ht : s.cur.task = t) (h : s.tasks[t]? = some tk) (he : AtRegionEnd s tk final)
    (hl : final = true → tk.heldLocks = []) : exec .regionCommit s = .next ((s.putTask t (tk.worked final)).commitFinish t 0) := by
  have hlist : Task.commitList { tk with commit := .step1, commitFinal := final } 0 = [] :=
    Task.commitList_eq_nil (fun m hm => by
      obtain ⟨hd, hr, ha, hs⟩ := he.deferred m hm
      obtain ⟨-, hn, -, -, -⟩ := he.quiet m hm
      exact ⟨hd, hr, ha, hs, hn⟩) hl
  have h1 : (s.commitBegin t).commitStep1 t = s.putTask t (tk.worked final) := by
    have hbegun := getElem?_putTask (tk1 := { tk with commit := .step1, commitFinal := final }) h
    rw [commitBegin_atRegionEnd h he, commitStep1_drained hbegun rfl he.single (he.drained t), hlist, putTask_putTask]
    rfl
  obtain ⟨-, -, -, -, hend⟩ := he.plain
  have hstep2 := getElem?_putTask (tk1 := tk.worked final) h
  rw [exec_regionCommit ht, h1, commitStep2_done hstep2 rfl (he.logged t) he.running hend]

/-! ## The end of a commit: the next region's barrier, or the task's end (R27, R29, R37) -/

/-- A task that goes on stands settled before its next alignment barrier. -/
theorem commitFinish_goesOn (h : s.tasks[t]? = some tk) (hv : tk.vote = none) (hp : tk.commitPending = false)
    (hf : tk.commitFinal = false) (hq : tk.termReq = false) (hm : tk.mu = []) :
    s.commitFinish t k = ((s.putTask t tk.settle.endStep2).dropTaskReaders t).toBarrier t := by
  simp [State.commitFinish, h, hv, hp, hf, hq, State.releaseMu, Task.settle, Task.endStep2, hm]

/-- At TDONE the settled task ends. -/
theorem commitFinish_ends (h : s.tasks[t]? = some tk) (hv : tk.vote = none) (hp : tk.commitPending = false) (hf : tk.commitFinal = true) :
    s.commitFinish t k = ((s.putTask t tk.settle.endStep2).dropTaskReaders t).endTask t .done k := by
  simp [State.commitFinish, h, hv, hp, hf]

theorem getElem?_putTask_dropTaskReaders (h : s.tasks[t]? = some tk) : ((s.putTask t tk1).dropTaskReaders t).tasks[t]? = some tk1 :=
  getElem?_putTask h
@[simp] theorem toBarrier_mem : (s.toBarrier t).mem = s.mem := State.modTask_mem ..

/-- Every replica before its barrier holds its cores, and its barrier is due in a later cycle (R18). -/
theorem mem_barriers {r : Replica} {holding : Bool} (h : r ∈ s.barriers tk holding) :
    r.atBarrier = true ∧ r.holding = holding ∧ s.cycle < r.origin := by
  obtain ⟨⟨r0, i⟩, -, rfl⟩ := List.mem_map.mp h
  refine ⟨rfl, rfl, ?_⟩
  simp only [State.barrierDue]
  omega

/-- A task before its next barrier: its members at the entry of their next region, its replicas waiting (R18, R29). -/
theorem toBarrier_task (h : s.tasks[t]? = some tk) : ∃ tk1 : Task, (s.toBarrier t).tasks[t]? = some tk1 ∧
    tk1.state = tk.state ∧ tk1.commit = .none ∧ tk1.discards = tk.discards ∧ tk1.attempt = tk.attempt ∧
    (∀ r ∈ tk1.replicas, r.atBarrier = true ∧ r.holding = true ∧ s.cycle < r.origin) ∧ tk1.members = tk.members.map Member.rerun := by
  rw [State.toBarrier, modTask_eq h]
  refine ⟨_, List.getElem?_set_self (List.getElem?_eq_some_iff.mp h).1, rfl, rfl, rfl, rfl, fun r hr => ?_, rfl⟩
  obtain ⟨r0, hr0, rfl⟩ := List.mem_map.mp hr
  exact mem_barriers (r := r0) hr0

/-! ### A member at the entry of its next region (R27, R29) -/

/-- What a commit's end leaves of a member whose task holds the objects of some identifiers (Task.settle, Task.endStep2). -/
def Member.settled (mem : Member) (ids : List Nat) : Member :=
  { mem with ckpt := mem.checkpoint, held := [], replay := [], bowaits := [], l1 := mem.l1.filter fun l => !ids.contains l.leaf.bind }

theorem settle_endStep2_members : tk.settle.endStep2.members = tk.members.map fun m => m.settled tk.settle.heldIds := by
  simp only [Task.endStep2, Task.settle, List.map_map]
  rfl

@[simp] theorem Member.rerun_g : mem.rerun.g = mem.ckpt.g := by simp [Member.rerun]
@[simp] theorem Member.rerun_v : mem.rerun.v = mem.ckpt.v := by simp [Member.rerun]
@[simp] theorem Member.rerun_mb : mem.rerun.mb = mem.ckpt.mb := by simp [Member.rerun]
@[simp] theorem Member.rerun_d : mem.rerun.d = mem.ckpt.d := by simp [Member.rerun]
@[simp] theorem Member.rerun_spad : mem.rerun.spad = mem.spad := by simp [Member.rerun, Member.entry]
@[simp] theorem Member.rerun_ckpt : mem.rerun.ckpt = mem.ckpt := by simp [Member.rerun, Member.entry]
@[simp] theorem Member.rerun_stall : mem.rerun.stall = none := by simp [Member.rerun, Member.entry]

/-- Each stream runs again from the address in the checkpoint. -/
theorem Member.rerun_str (x : Stream) :
    (mem.rerun.str x).pc = mem.ckpt.pcs.getD x.code 0 ∧ (mem.rerun.str x).status = .running := by
  cases x <;> simp [Member.rerun, Member.entry, str_setStr, StreamSt.at, Stream.code]

/-- The checkpoint of a region's end holds the C stream past its CLOSE and the other streams where they stand. -/
theorem Member.checkpoint_pcs (x : Stream) :
    mem.checkpoint.pcs.getD x.code 0 = if x = .c then (mem.str .c).pc + 4 else (mem.str x).pc := by
  cases x <;> simp [Member.checkpoint, Stream.code]

/-! ### The end of a task (R37, R408) -/

/-- A task without records of its own has none to present. -/
theorem presentFor_eq (h : ∀ f ∈ s.recs, f.task ≠ t) : s.presentFor t = s := by
  have hmine : (s.recs.filter fun r => r.task == t) = [] := List.filter_eq_nil_iff.mpr fun f hf => by simp [h f hf]
  have hkeep : (s.recs.filter fun r => r.task != t) = s.recs := List.filter_eq_self.mpr fun f hf => by simp [h f hf]
  simp [State.presentFor, State.recsOf, hmine, hkeep, sortKeyed]

/-- An interrupt is added where the record asks for one; nothing else changes (R403). -/
theorem interrupt_eq (q : Nat) (irq : Bool) :
    s.interrupt q irq = { s with irqs := s.irqs ++ if irq then [(s.queueAt q).vec] else [] } := by
  cases irq <;> simp [State.interrupt]

/-- A completion with no completion address and no table entry is stamped, and its interrupt sent. -/
theorem complete_plain {q ctx launch node : Nat} {tag : BitVec 32} {irq : Bool} {e : Ending} {a : Account} :
    s.complete q ctx launch node tag irq 0 none e a = (s.stamp (.completion launch)).interrupt q irq := rfl

/-- A launch by itself that ends: its task is done or has failed, its completion is stamped and its interrupt sent. -/
theorem endTask_plain {e : Ending} (h : s.tasks[t]? = some tk) (hrec : ∀ f ∈ s.recs, f.task ≠ t) (hg : tk.graph = none)
    (htt : tk.fromTT = none) (hc : tk.compl = 0) :
    ∃ tk1 : Task, (s.endTask t e k).tasks[t]? = some tk1 ∧ (s.endTask t e k).mem = s.mem ∧
      tk1.state = (if e = .done then .done else .failed) ∧ tk1.ending = some e ∧
      (s.endTask t e k).nextSeq = s.nextSeq + 1 ∧ (s.endTask t e k).events = s.events ++ [(s.nextSeq, .completion tk.seq)] ∧
      (s.endTask t e k).irqs = s.irqs ++ if tk.irq then [(s.queueAt tk.queue).vec] else [] := by
  have hl : t < (s.leaveCores tk).tasks.length := by simpa using (List.getElem?_eq_some_iff.mp h).1
  unfold State.endTask
  simp only [h, hg, htt, hc, presentFor_eq hrec]
  rw [modTask_eq (by simpa using h)]
  simp only [show (0 : W64).toNat = 0 from rfl, complete_plain, interrupt_eq]
  refine ⟨_, List.getElem?_set_self hl, leaveCores_mem, rfl, rfl, ?_, ?_, ?_⟩
  · simp
  · simp
  · simp [State.queueAt]

/-! ## What REGION_COMMIT comes to (R27, R28, R29, R37) -/

/-- A member of a settled task that has entered its next region: its registers, memories and descriptors are as the region left them, its
checkpoint holds them, and every stream runs again from where it stood, C past its CLOSE. -/
theorem Member.rerun_settled (mem : Member) (ids : List Nat) : let b := (mem.settled ids).rerun
    b.g = mem.g ∧ b.v = mem.v ∧ b.mb = mem.mb ∧ b.d = mem.d ∧ b.spad = mem.spad ∧ b.ckpt.g = mem.g ∧ b.ckpt.d = mem.d ∧
      (b.str .c).pc = (mem.str .c).pc + 4 ∧ b.stall = none ∧
      ∀ x, x ≠ .c → (b.str x).pc = (mem.str x).pc ∧ (b.str x).status = .running := by
  have hpc : ∀ x, ((mem.settled ids).rerun.str x).pc = if x = .c then (mem.str .c).pc + 4 else (mem.str x).pc := fun x =>
    (Member.rerun_str x).1.trans (Member.checkpoint_pcs x)
  refine ⟨Member.rerun_g, Member.rerun_v, Member.rerun_mb, Member.rerun_d, Member.rerun_spad, ?_, ?_, hpc .c, Member.rerun_stall,
    fun x hx => ?_⟩
  · rw [Member.rerun_ckpt]; rfl
  · rw [Member.rerun_ckpt]; rfl
  · exact ⟨by rw [hpc, if_neg hx], (Member.rerun_str x).2⟩

/-- At CLOSE the task stands before its next barrier, each member at the entry of its next region. -/
theorem regionCommit_close (ht : s.cur.task = t) (h : s.tasks[t]? = some tk) (he : AtRegionEnd s tk false) :
    ∃ (s1 : State) (tk1 : Task), exec .regionCommit s = .next s1 ∧ s1.tasks[t]? = some tk1 ∧ s1.mem = s.mem ∧
      tk1.state = .running ∧ tk1.commit = .none ∧ tk1.discards = 0 ∧ tk1.attempt = 0 ∧
      (∀ r ∈ tk1.replicas, r.atBarrier = true ∧ r.holding = true ∧ s.cycle < r.origin) ∧
      ∃ ids, tk1.members = tk.members.map fun m => (m.settled ids).rerun := by
  obtain ⟨hv, hq, hp, hmu, -⟩ := he.plain
  have h0 := getElem?_putTask (tk1 := tk.worked false) h
  have hend := commitFinish_goesOn (k := 0) h0 hv hp rfl hq hmu
  rw [putTask_putTask] at hend
  obtain ⟨tk1, e1, hstate, hcommit, hdis, hatt, hrep, hmem⟩ := toBarrier_task (getElem?_putTask_dropTaskReaders h)
  refine ⟨_, tk1, (regionCommit_atRegionEnd ht h he nofun).trans (congrArg _ hend), e1, toBarrier_mem, ?_, hcommit, hdis, hatt, hrep, ?_⟩
  · rw [hstate]; exact he.running
  · exact ⟨_, by rw [hmem, settle_endStep2_members, List.map_map]; rfl⟩

/-- At TDONE the task is done and its completion is stamped. -/
theorem regionCommit_tdone (ht : s.cur.task = t) (h : s.tasks[t]? = some tk) (he : AtRegionEnd s tk true) (hrec : ∀ f ∈ s.recs, f.task ≠ t)
    (hl : tk.heldLocks = []) (hg : tk.graph = none) (htt : tk.fromTT = none) (hc : tk.compl = 0) :
    ∃ (s1 : State) (tk1 : Task), exec .regionCommit s = .next s1 ∧ s1.tasks[t]? = some tk1 ∧ s1.mem = s.mem ∧
      tk1.state = .done ∧ tk1.ending = some .done ∧ s1.nextSeq = s.nextSeq + 1 ∧
      s1.events = s.events ++ [(s.nextSeq, .completion tk.seq)] ∧
      s1.irqs = s.irqs ++ (if tk.irq then [(s.queueAt tk.queue).vec] else []) := by
  obtain ⟨hv, -, hp, -, -⟩ := he.plain
  have h0 := getElem?_putTask (tk1 := tk.worked true) h
  have hend := commitFinish_ends (k := 0) h0 hv hp rfl
  rw [putTask_putTask] at hend
  obtain ⟨tk1, e1, hmem, hstate, hending, hseq, hev, hirq⟩ :=
    endTask_plain (k := 0) (e := .done) (getElem?_putTask_dropTaskReaders (tk1 := (tk.worked true).settle.endStep2) h) hrec hg htt hc
  exact ⟨_, tk1, (regionCommit_atRegionEnd ht h he fun _ => hl).trans (congrArg _ hend), e1, hmem, hstate, hending, hseq, hev, hirq⟩

/-- Before the region's end REGION_COMMIT does nothing. -/
theorem regionCommit_early (ht : s.cur.task = t) (h : s.tasks[t]? = some tk) (hr : tk.replicated = false) (hc : tk.commit = .none)
    (hne : tk.members ≠ []) (hs : ∀ m ∈ tk.members, m.stall = none) : exec .regionCommit s = .next s := by
  rw [exec_regionCommit ht, commitBegin_early h hr hne hs, commitSteps_idle h hc]

/-- A token left at the end of a region suspends the task with check code 8 (R28, R330). -/
theorem regionCommit_stray {r : Replica} (ht : s.cur.task = t) (h : s.tasks[t]? = some tk) (hm : tk.members = [mem])
    (hr : tk.replicated = false) (hc : tk.commit = .none) (hs : tk.state = .running) (hb : tk.before = none)
    (ha : mem.atEnd false = true ∨ mem.atEnd true = true) (hq : ∃ q ∈ mem.tq.toList, q ≠ [])
    (hrep : tk.replicas[mem.replica]? = some r) (hst : r.stopped = none) :
    ∃ (s1 : State) (tk1 : Task), exec .regionCommit s = .next s1 ∧ s1.tasks[t]? = some tk1 ∧ tk1.state = .suspended ∧
      ∃ f ∈ s1.recs, f.task = t ∧ f.info.cause = 0x09 ∧ f.info.cls = 0 ∧ f.info.aux = 8 ∧ f.info.rank = mem.rank := by
  have hbegin := commitBegin_stray h hr hc hs hb (Task.strayTokens_single hm ha hq hrep hst)
  obtain ⟨rs, hrec⟩ := recordDiscard_eq { s with cur := endActor t 0 mem } t tk (s.strayFault t mem)
  rw [hrec] at hbegin
  have htask : (s.commitBegin t).tasks[t]? = some
      { tk.discardRegion with state := .suspended, before := some (tk.before.getD (tk.replicas, tk.members)) } := by
    rw [hbegin]; exact suspend_task h
  refine ⟨s.commitBegin t, _, ?_, htask, rfl, ⟨t, s.strayFault t mem, none⟩, ?_, rfl, rfl, rfl, rfl, rfl⟩
  · rw [exec_regionCommit ht, commitSteps_idle htask rfl]
  · rw [hbegin, suspend_recs]; simp

/-! ## Alignment barriers (R18, R24, R34, R332) -/

/-- The task as all of its replicas pass their barriers: the region's origin is the given cycle (R18, R29). -/
def Task.startRegion (tk : Task) (origin : Nat) : Task :=
  { tk with
    state := .running, placedOnce := true
    replicas := tk.replicas.map fun r => r.pass origin tk.faultLive
    members := tk.members.map fun m => m.startAt origin }

/-- The fault of a task whose context could not be read back (R332). -/
def Task.fatalFault (tk : Task) : FaultInfo :=
  FaultInfo.ofTask { dispatchInfo cMemory 0 (tk.saveVA tk.members.length 0) with aux := 1 } tk

/-- No barrier that is not due is passed. -/
theorem alignmentBarrier_early (ht : s.cur.task = t) (h : s.tasks[t]? = some tk)
    (hd : ∀ r ∈ tk.replicas, r.atBarrier = false ∨ s.cycle < r.origin) : exec .alignmentBarrier s = .next s := by
  have hnone : (tk.replicas.any fun r => r.atBarrier && decide (r.origin ≤ s.cycle)) = false := List.any_eq_false.mpr fun r hr => by
    rcases hd r hr with hb | ho
    · simp [hb]
    · simp [Nat.not_le.mpr ho]
  show execAlignmentBarrier s = _
  simp [execAlignmentBarrier, ht, h, hnone]

section
variable (hne : tk.replicas ≠ []) (hd : ∀ r ∈ tk.replicas, r.atBarrier = true ∧ r.origin ≤ s.cycle)
include hne hd

theorem any_barrierDue : (tk.replicas.any fun r => r.atBarrier && decide (r.origin ≤ s.cycle)) = true := by
  obtain ⟨r, hr⟩ := List.exists_mem_of_ne_nil _ hne
  exact List.any_eq_true.mpr ⟨r, hr, by simp [hd r hr]⟩

variable (ht : s.cur.task = t) (h : s.tasks[t]? = some tk) (hc : tk.commit = .none)
include ht h hc

/-- A crew that is to be pre-empted is taken off where the barriers are due. -/
theorem alignmentBarrier_preempted (hp : tk.preemptReq = true) (hrun : tk.state = .running) :
    exec .alignmentBarrier s = .next (s.takeOff t) := by
  show execAlignmentBarrier s = _
  simp [execAlignmentBarrier, ht, h, hc, any_barrierDue hne hd, hp, hrun]

/-- The replicas of a task pass their barriers together where all are due; a task that could not be read back takes its fatal fault there. -/
theorem alignmentBarrier_due (hs : tk.state = .running ∨ tk.state = .placing)
    (hm : ∀ m ∈ tk.members, m.replica < tk.replicas.length) (hp : tk.preemptReq = false) :
    exec .alignmentBarrier s = .next (if tk.fatal then
      ((s.putTask t (tk.startRegion (s.cycle + 1))).recordFault t tk.fatalFault).halt t
      else s.putTask t (tk.startRegion (s.cycle + 1))) := by
  have hrep : (tk.replicas.map fun r => if r.atBarrier && decide (r.origin ≤ s.cycle) then r.pass (s.cycle + 1) tk.faultLive else r) =
      tk.replicas.map fun r => r.pass (s.cycle + 1) tk.faultLive := List.map_congr_left fun r hr => by simp [hd r hr]
  have hmem : (tk.members.map fun m => if ((tk.replicas[m.replica]?).map fun r => r.atBarrier && decide (r.origin ≤ s.cycle)).getD false
      then m.startAt (s.cycle + 1) else m) = tk.members.map fun m => m.startAt (s.cycle + 1) := List.map_congr_left fun m hm' => by
    simp [List.getElem?_eq_getElem (hm m hm'), hd _ (List.getElem_mem (hm m hm'))]
  show execAlignmentBarrier s = _
  have hplaced : ¬ (tk.state ≠ .running ∧ tk.state ≠ .placing) := fun ⟨h1, h2⟩ => hs.elim h1 h2
  simp only [execAlignmentBarrier, ht, h, any_barrierDue hne hd, hc, hplaced, hp, hrep, hmem, Task.startRegion, Task.fatalFault]
  cases tk.fatal <;> simp

end

/-- A task taken off its cores is READY, and nothing of its region is discarded (R34). -/
theorem takeOff_task (h : s.tasks[t]? = some tk) : (s.takeOff t).mem = s.mem ∧ ∃ tk1 : Task, (s.takeOff t).tasks[t]? = some tk1 ∧
    tk1.state = .ready ∧ tk1.preemptReq = false ∧ tk1.discards = tk.discards := by
  have h1 : ((s.leaveCores tk).releaseOwn t).tasks[t]? = some tk := by simpa using h
  unfold State.takeOff
  simp only [h]
  rw [modTask_eq h1]
  exact ⟨by simp, _, getElem?_putTask h1, rfl, rfl, rfl⟩

end

/-- Settles O52: a commit with nothing deferred runs through all its steps at once (regionCommit_close, regionCommit_tdone), a token left over
is a schedule fault of the whole task (regionCommit_stray), and barriers that are due are passed together (alignmentBarrier_due). -/
theorem regionsCommit : Obligations.RegionsCommit := by
  unfold Obligations.RegionsCommit
  intro s t tk ht h
  refine ⟨fun he => ?_, fun he hrec hl hg htt hc => regionCommit_tdone ht h he hrec hl hg htt hc,
    fun hr hc hne hs => regionCommit_early ht h hr hc hne hs,
    fun m r hm hr hc hs hb ha hq hrep hst => regionCommit_stray ht h hm hr hc hs hb ha hq hrep hst,
    alignmentBarrier_early ht h, fun hs hc hne hd hm => ⟨fun hp hf => ?_, fun hp hf => ?_, fun hp hrun => ?_⟩⟩
  · obtain ⟨s1, tk1, hexec, htask, hmem, hstate, hcommit, hdis, hatt, hrep, ids, hmembers⟩ := regionCommit_close ht h he
    refine ⟨s1, tk1, hexec, htask, hmem, hstate, hcommit, hdis, hatt, hrep, fun i m hi => ?_⟩
    exact ⟨(m.settled ids).rerun, by rw [hmembers, List.getElem?_map, hi]; rfl, m.rerun_settled ids⟩
  · exact (alignmentBarrier_due hne hd ht h hc hs hm hp).trans (by rw [if_neg (by simp [hf])]; rfl)
  · have hstart := getElem?_putTask (tk1 := tk.startRegion (s.cycle + 1)) h
    have hhalt := halt_task (s := (s.putTask t (tk.startRegion (s.cycle + 1))).recordFault t tk.fatalFault) hstart
    exact ⟨_, _, (alignmentBarrier_due hne hd ht h hc hs hm hp).trans (by rw [if_pos hf]), hhalt, rfl, ⟨t, tk.fatalFault, none⟩,
      by simp [recordFault_eq], rfl, rfl, rfl⟩
  · obtain ⟨hmem, tk1, htask, hready⟩ := takeOff_task h
    exact ⟨_, tk1, alignmentBarrier_preempted hne hd ht h hc hp hrun, htask, hmem, hready⟩

end Sys2Proof.Machine

namespace Sys2Proof.Machine

/-- Settles O1: the read-after-write rule of the g registers (rd_wr) says it for every pair of a register written and a register read,
g0 in either place included. -/
theorem registerZeroIsHardwired : Obligations.RegisterZeroIsHardwired := by
  unfold Obligations.RegisterZeroIsHardwired
  exact rd_wr

end Sys2Proof.Machine

namespace Sys2Proof.Machine

/-! ## A value of a format rounds to its own code (R68, R75) -/

/-- The bits of a code below its sign: exponent and mantissa field (R68). -/
def Fmt.magBits (f : Fmt) (code : Nat) : Nat := code % 2 ^ (f.w - 1)

section
variable {f : Fmt} {code m k : Nat} {e : Int} {n : Bool}

/-- The leading bit of a significand of k + 1 bits is k places above its unit. -/
theorem lg_of_normal (hlo : 2 ^ k ≤ m) (hhi : m < 2 ^ (k + 1)) : lg m e = k + e := by
  have hm : m ≠ 0 := by have := Nat.two_pow_pos k; omega
  have hlog : Nat.log2 m = k := (Nat.log2_eq_iff hm).mpr ⟨hlo, hhi⟩
  simp only [lg, bitLen, hm, hlog, if_false]
  omega

/-- The leading bit of a significand of at most k bits is less than k places above its unit. -/
theorem lg_lt_of_subnormal (hm : m ≠ 0) (hhi : m < 2 ^ k) : lg m e < k + e := by
  have hlog : Nat.log2 m < k := (Nat.log2_lt hm).mpr hhi
  simp only [lg, bitLen, hm, if_false]
  omega

/-- Nothing is rounded off where the spacing is the unit of the magnitude, whatever the mode and the random bits. -/
theorem roundUp_exact (m : Nat) (e : Int) (n : Bool) (rm rb : Nat) : roundUp ⟨m, e, false⟩ n e rm rb = (m, false, false) := by
  simp [roundUp, scaleNat]

/-- A magnitude whose unit is the spacing around it, and whose code does not exceed the greatest, is delivered as it is (R75). -/
theorem roundMag_exact (rm rb : Nat) (sat : Bool) (hq : max (lg m e) (1 - (f.bias : Int)) = e + f.m)
    (hc : (e + f.m + f.bias - 1).toNat * 2 ^ f.m + m ≤ f.maxCode) :
    roundMag ⟨m, e, false⟩ n f rm sat rb = (f.signBit n + ((e + f.m + f.bias - 1).toNat * 2 ^ f.m + m), 0) := by
  have hqe : e + f.m - f.m = e := by omega
  simp only [roundMag, hq, hqe, roundUp_exact, Bool.false_eq_true, Bool.false_and, if_false, Nat.add_zero, BitVec.or_self,
    if_neg (Nat.not_lt.mpr hc)]

/-- A zero keeps its sign (R75). -/
theorem roundFmt_zero (rm rb : Nat) (sat : Bool) : roundFmt (.fin n 0 e) f rm sat rb = (f.signBit n, 0) := rfl

/-- A finite nonzero value is rounded as its magnitude. -/
theorem roundFmt_of_ne_zero (hm : m ≠ 0) (rm rb : Nat) (sat : Bool) :
    roundFmt (.fin n m e) f rm sat rb = roundMag ⟨m, e, false⟩ n f rm sat rb := by
  cases m with
  | zero => exact absurd rfl hm
  | succ m => rfl

/-- A code is its sign bit and its magnitude bits. -/
theorem signBit_add_magBits (hcode : code < 2 ^ f.w) :
    f.signBit (code / 2 ^ (f.w - 1) % 2 == 1) + f.magBits code = code := by
  have hw : 2 ^ f.w ≤ 2 ^ (f.w - 1) * 2 := Nat.pow_le_pow_right two_pos (by omega : f.w ≤ f.w - 1 + 1)
  have hsign : code / 2 ^ (f.w - 1) < 2 := Nat.div_lt_of_lt_mul (hcode.trans_le hw)
  have hparts := Nat.div_add_mod code (2 ^ (f.w - 1))
  obtain h | h := Nat.le_one_iff_eq_zero_or_eq_one.mp (Nat.lt_succ_iff.mp hsign) <;>
  · rw [h] at hparts ⊢
    simpa [Fmt.signBit, Fmt.magBits] using hparts

/-- What a code of a finite value says (R68): its sign, that its magnitude bits are not above the greatest finite code, and its significand
and exponent, of a subnormal (or zero) and of a normal value. -/
theorem decode_eq_fin (h : f.decode code = .fin n m e) :
    n = (code / 2 ^ (f.w - 1) % 2 == 1) ∧ f.magBits code ≤ f.maxCode ∧
      (f.magBits code / 2 ^ f.m = 0 ∧ m = f.magBits code % 2 ^ f.m ∧ e = 1 - (f.bias : Int) - f.m ∨
        f.magBits code / 2 ^ f.m ≠ 0 ∧ m = f.magBits code % 2 ^ f.m + 2 ^ f.m ∧
          e = ((f.magBits code / 2 ^ f.m : Nat) : Int) - f.bias - f.m) := by
  simp only [Fmt.decode] at h
  split at h
  · next hmax =>
    split at h
    · next hsub => cases h; exact ⟨rfl, hmax, .inl ⟨hsub, rfl, rfl⟩⟩
    · next hnorm => cases h; exact ⟨rfl, hmax, .inr ⟨hnorm, rfl, rfl⟩⟩
  · split at h <;> cases h

/-- The unit of a finite nonzero value of a format is the spacing of the format around it (R75). -/
theorem spacing_of_decode (h : f.decode code = .fin n m e) (hm : m ≠ 0) : max (lg m e) (1 - (f.bias : Int)) = e + f.m := by
  have hlt := Nat.mod_lt (f.magBits code) (Nat.two_pow_pos f.m)
  obtain ⟨-, -, ⟨-, hsig, hexp⟩ | ⟨hnorm, hsig, hexp⟩⟩ := decode_eq_fin h
  · have := lg_lt_of_subnormal (e := e) hm (hsig ▸ hlt)
    omega
  · have := lg_of_normal (k := f.m) (m := m) (e := e) (by omega) (by rw [Nat.pow_succ]; omega)
    have : (0 : Int) < (f.magBits code / 2 ^ f.m : Nat) := by exact_mod_cast Nat.pos_of_ne_zero hnorm
    omega

/-- The magnitude bits of a finite value are put together again from its exponent and its significand, the leading bit of a normal one counting
in the exponent (R68). -/
theorem magBits_of_decode (h : f.decode code = .fin n m e) :
    (e + f.m + f.bias - 1).toNat * 2 ^ f.m + m = f.magBits code := by
  have hparts := Nat.div_add_mod' (f.magBits code) (2 ^ f.m)
  obtain ⟨-, -, ⟨hsub, hsig, hexp⟩ | ⟨hnorm, hsig, hexp⟩⟩ := decode_eq_fin h
  · have hfield : (e + f.m + f.bias - 1).toNat = 0 := by omega
    rw [hsub] at hparts
    rw [hfield, hsig, hparts]
  · obtain ⟨E, hE⟩ := Nat.exists_eq_succ_of_ne_zero hnorm
    have hfield : (e + f.m + f.bias - 1).toNat = E := by omega
    rw [hE, Nat.succ_mul] at hparts
    rw [hfield, hsig]
    omega

/-- A zero has the exponent of the subnormals (R68). -/
theorem exponentField_of_decode_zero (h : f.decode code = .fin n m e) (hm : m = 0) : (e + f.m + f.bias - 1).toNat = 0 := by
  have hlead := Nat.two_pow_pos f.m
  obtain ⟨-, -, ⟨-, -, hexp⟩ | ⟨-, hsig, -⟩⟩ := decode_eq_fin h
  · omega
  · omega

/-- A finite value of any format rounds to its own code, exactly and without a flag, in every mode (R68, R75): it is a zero, which keeps its
sign, or its unit is the spacing around it. -/
theorem roundFmt_decode (rm rb : Nat) (sat : Bool) (hcode : code < 2 ^ f.w) (h : f.decode code = .fin n m e) :
    roundFmt (f.decode code) f rm sat rb = (code, 0) := by
  obtain ⟨hsign, hmax, -⟩ := decode_eq_fin h
  have hmag := magBits_of_decode h
  have hwhole := signBit_add_magBits hcode
  rw [← hsign, ← hmag] at hwhole
  rw [h]
  by_cases hm : m = 0
  · have hfield := exponentField_of_decode_zero h hm
    subst hm
    rw [roundFmt_zero]
    simpa [hfield] using hwhole
  · rw [roundFmt_of_ne_zero hm, roundMag_exact rm rb sat (spacing_of_decode h hm) (hmag ▸ hmax), hwhole]

end

/-- Settles O29: whatever the format, the unit of a finite nonzero value is the spacing around it (spacing_of_decode), so that nothing is
rounded off and the code is put together again (roundFmt_decode). -/
theorem roundingIsExactOnItsFormat : Obligations.RoundingIsExactOnItsFormat := by
  unfold Obligations.RoundingIsExactOnItsFormat
  rintro f code rm rb - - hcode ⟨n, m, e, h⟩
  exact roundFmt_decode rm rb false hcode h

/-! ## The random numbers of a key are a permutation of the counters (R78) -/

/-- A word is known from its exclusive or with its own shifted copy: two words with the same one differ by a word that its own shift leaves
as it is, which is 0. -/
theorem xor_ushiftRight_injective {w s : Nat} (hs : 0 < s) : Function.Injective fun x : BitVec w => x ^^^ (x >>> s) := by
  intro a b h
  have hdiff : (a ^^^ b) >>> s = a ^^^ b := by
    rw [BitVec.ushiftRight_xor_distrib]
    have h' : a ^^^ a >>> s = b ^^^ b >>> s := h
    calc a >>> s ^^^ b >>> s = a ^^^ (a ^^^ a >>> s) ^^^ b >>> s := by simp
      _ = a ^^^ b := by rw [h', BitVec.xor_assoc, BitVec.xor_assoc]; simp
  have hzero : (a ^^^ b).toNat = 0 := by
    have hdiv : (a ^^^ b).toNat / 2 ^ s = (a ^^^ b).toNat := by
      rw [← Nat.shiftRight_eq_div_pow, ← BitVec.toNat_ushiftRight, hdiff]
    by_contra hne
    exact (Nat.div_lt_self (Nat.pos_of_ne_zero hne) (Nat.one_lt_two_pow hs.ne')).ne hdiv
  exact BitVec.xor_eq_zero_iff.mp (BitVec.eq_of_toNat_eq (by simpa using hzero))

/-- One round loses nothing of its word: an addition, two exclusive ors with shifted copies and a product with an odd constant, which has an
inverse (R78). -/
theorem rngRound_injective (k : W64) : Function.Injective (rngRound · k) := by
  have hunit : IsUnit 0xD6E8FEB86659FD93#64 := IsUnit.of_mul_eq_one 0xCFEE444D8B59A89B#64 (by decide)
  exact (xor_ushiftRight_injective (s := 29) (by decide)).comp
    (hunit.mul_left_injective.comp ((xor_ushiftRight_injective (s := 31) (by decide)).comp (add_left_injective k)))

/-- For each key, rng64 takes distinct counters to distinct outputs (R78). -/
theorem rng64_injective (key : W64) : Function.Injective (rng64 key) :=
  (rngRound_injective _).comp ((rngRound_injective _).comp ((rngRound_injective _).comp (rngRound_injective key)))

/-- The round keys of rng64 are the key and the multiples of the constant added to it (R78). -/
theorem rng64_eq_foldl (key ctr : W64) :
    rng64 key ctr = (List.range 4).foldl (fun x i => rngRound x (key + BitVec.ofNat 64 (i * 0x9E3779B97F4A7C15))) ctr := by
  simp [rng64, List.range_succ, BitVec.add_assoc]

/-- Settles O30: a round loses nothing (rngRound_injective), nor do four of them (rng64_injective); under key 0 the first
round keeps 0, and three are left. -/
theorem randomNumbersPermuteTheCounters : Obligations.RandomNumbersPermuteTheCounters := by
  unfold Obligations.RandomNumbersPermuteTheCounters
  exact ⟨rng64_eq_foldl, fun key a b h => rng64_injective key h, by decide⟩

end Sys2Proof.Machine

namespace Sys2Proof.Machine
section
variable {s t : State} {tk : Task} {mem : Member} {i : Instr} {rd rs rt : BitVec 5} {v : Scalar}

/-! ## The words of R122 and R124 by the integers of their rules -/

theorem shiftLeft_eq_ofNat (a : W64) (n : Nat) : a <<< n = BitVec.ofNat 64 (a.toNat * 2 ^ n) := by
  apply BitVec.eq_of_toNat_eq
  simp [Nat.shiftLeft_eq]

theorem ushiftRight_eq_ofNat (a : W64) (n : Nat) : a >>> n = BitVec.ofNat 64 (a.toNat / 2 ^ n) := by
  rw [← Nat.shiftRight_eq_div_pow, ← BitVec.toNat_ushiftRight, BitVec.ofNat_toNat, BitVec.setWidth_eq]

theorem sshiftRight_eq_ofInt (a : W64) (n : Nat) : a.sshiftRight n = BitVec.ofInt 64 (a.toInt / 2 ^ n) := by
  rw [← BitVec.ofInt_toInt (x := a.sshiftRight n), BitVec.toInt_sshiftRight, Int.shiftRight_eq_div_pow]
  norm_cast

theorem smin_eq_ofInt (a b : W64) : (if a.toInt < b.toInt then a else b) = BitVec.ofInt 64 (min a.toInt b.toInt) := by
  split
  · next h => rw [min_eq_left h.le, BitVec.ofInt_toInt]
  · next h => rw [min_eq_right (not_lt.mp h), BitVec.ofInt_toInt]

theorem smax_eq_ofInt (a b : W64) : (if a.toInt < b.toInt then b else a) = BitVec.ofInt 64 (max a.toInt b.toInt) := by
  split
  · next h => rw [max_eq_right h.le, BitVec.ofInt_toInt]
  · next h => rw [max_eq_left (not_lt.mp h), BitVec.ofInt_toInt]

theorem umin_eq_ofNat (a b : W64) : (if a.toNat < b.toNat then a else b) = BitVec.ofNat 64 (Nat.min a.toNat b.toNat) := by
  show _ = BitVec.ofNat 64 (min a.toNat b.toNat)
  split
  · next h => rw [min_eq_left h.le, BitVec.ofNat_toNat, BitVec.setWidth_eq]
  · next h => rw [min_eq_right (not_lt.mp h), BitVec.ofNat_toNat, BitVec.setWidth_eq]

theorem umax_eq_ofNat (a b : W64) : (if a.toNat < b.toNat then b else a) = BitVec.ofNat 64 (Nat.max a.toNat b.toNat) := by
  show _ = BitVec.ofNat 64 (max a.toNat b.toNat)
  split
  · next h => rw [max_eq_right h.le, BitVec.ofNat_toNat, BitVec.setWidth_eq]
  · next h => rw [max_eq_left (not_lt.mp h), BitVec.ofNat_toNat, BitVec.setWidth_eq]

/-- The leading zeros counted from bit n - 1 down are those above the highest one bit. -/
theorem clzFrom_eq (a : W64) (n : Nat) (h : a.toNat < 2 ^ n) : clzFrom a n = n - bitLength a.toNat := by
  induction n with
  | zero => simp [clzFrom]
  | succ n ih =>
    unfold clzFrom
    by_cases hb : a.toNat < 2 ^ n
    · have hz : a.getLsbD n = false := Nat.testBit_lt_two_pow hb
      have hl : bitLength a.toNat ≤ n := by
        unfold bitLength
        split
        · omega
        · next h0 => exact (Nat.log2_lt h0).mpr hb
      rw [hz, ih hb]
      simp only [Bool.false_eq_true, if_false]
      omega
    · have h0 : a.toNat ≠ 0 := by have := Nat.two_pow_pos n; omega
      have hl : Nat.log2 a.toNat = n := (Nat.log2_eq_iff h0).mpr ⟨not_lt.mp hb, h⟩
      have hz : a.getLsbD n = true := by
        rw [← hl, BitVec.getLsbD, Nat.testBit_log2 h0]
      simp [hz, bitLength, h0, hl]

/-- The one bits below bit n are counted one by one. -/
theorem popcBelow_eq (a : W64) (n : Nat) : popcBelow a n = (List.range n).countP fun k => a.getLsbD k := by
  induction n with
  | zero => rfl
  | succ n ih =>
    rw [popcBelow, ih, List.range_succ, List.countP_append, List.countP_singleton, Nat.add_comm]

theorem lih_eq_ofNat (a : W64) (imm : BitVec 16) :
    (a <<< 16) ||| imm.zeroExtend 64 = BitVec.ofNat 64 (a.toNat * 2 ^ 16 + imm.toNat) := by
  have hi := imm.isLt
  have hz : (a <<< 16 : W64) = BitVec.ofNat 64 (2 ^ 16 * a.toNat) := by rw [shiftLeft_eq_ofNat, Nat.mul_comm]
  have ho : 2 ^ 16 * a.toNat + imm.toNat = 2 ^ 16 * a.toNat ||| imm.toNat := Nat.two_pow_add_eq_or_of_lt hi _
  rw [Nat.mul_comm, ho, hz]
  apply BitVec.eq_of_getLsbD_eq
  intro k hk
  simp [hk]

theorem addi_eq_ofInt (a : W64) (imm : BitVec 16) : a + imm.signExtend 64 = BitVec.ofInt 64 ((a.toNat : Int) + imm.toInt) := by
  rw [BitVec.ofInt_add, BitVec.ofInt_natCast, BitVec.ofNat_toNat, BitVec.setWidth_eq]
  rfl

/-- The quotient truncated toward zero, by the signs and magnitudes of its operands (R123). -/
theorem tdiv_eq_of_signs (a b : Int) :
    Int.tdiv a b = if (a < 0) = (b < 0) then ((a.natAbs / b.natAbs : Nat) : Int) else -((a.natAbs / b.natAbs : Nat) : Int) := by
  rcases lt_or_ge a 0 with ha | ha <;> rcases lt_or_ge b 0 with hb | hb
  · obtain ⟨m, rfl⟩ := Int.exists_eq_neg_ofNat ha.le
    obtain ⟨n, rfl⟩ := Int.exists_eq_neg_ofNat hb.le
    have hm : 0 < m := by omega
    have hn : 0 < n := by omega
    simp [hm, hn]
  · obtain ⟨m, rfl⟩ := Int.exists_eq_neg_ofNat ha.le
    obtain ⟨n, rfl⟩ := Int.eq_ofNat_of_zero_le hb
    have hm : m ≠ 0 := by omega
    simp [hm, Int.not_lt.mpr hb, Int.neg_tdiv]
  · obtain ⟨m, rfl⟩ := Int.eq_ofNat_of_zero_le ha
    obtain ⟨n, rfl⟩ := Int.exists_eq_neg_ofNat hb.le
    have hn : n ≠ 0 := by omega
    simp [hn, Int.not_lt.mpr ha, Int.tdiv_neg]
  · obtain ⟨m, rfl⟩ := Int.eq_ofNat_of_zero_le ha
    obtain ⟨n, rfl⟩ := Int.eq_ofNat_of_zero_le hb
    simp [Int.not_lt.mpr ha, Int.not_lt.mpr hb]

/-- Quotient and remainder of a signed division are those the rule names (R123). -/
theorem divS_eq (a b : W64) :
    divS a b = (BitVec.ofInt 64 (signedDivision a.toInt b.toInt).1, BitVec.ofInt 64 (signedDivision a.toInt b.toInt).2) := by
  by_cases hb : b = 0
  · subst hb
    simp [divS, signedDivision]
  · have hi : b.toInt ≠ 0 := fun h => hb (BitVec.eq_of_toInt_eq h)
    have hm : Int.tmod a.toInt b.toInt = a.toInt - Int.tdiv a.toInt b.toInt * b.toInt := by
      rw [Int.tmod_def, Int.mul_comm]
    simp only [divS, signedDivision, hb, hi, if_false, hm, tdiv_eq_of_signs]

/-- Quotient and remainder of an unsigned division are those the rule names (R123). -/
theorem divZ_eq (a b : W64) :
    divZ a b = (BitVec.ofNat 64 (unsignedDivision a.toNat b.toNat).1, BitVec.ofNat 64 (unsignedDivision a.toNat b.toNat).2) := by
  by_cases hb : b = 0
  · subst hb
    simp [divZ, unsignedDivision]
  · have hi : b.toNat ≠ 0 := fun h => hb (BitVec.eq_of_toNat_eq h)
    have hm : a.toNat - a.toNat / b.toNat * b.toNat = (a % b).toNat := by
      rw [BitVec.toNat_umod, Nat.mod_eq_sub_div_mul]
    simp only [divZ, unsignedDivision, hb, hi, if_false]
    rw [hm]
    simp only [← BitVec.toNat_udiv, BitVec.ofNat_toNat, BitVec.setWidth_eq]

/-! ## What the register words write (R122 to R125) -/

/-- A word of two registers, by the rule for its result. -/
theorem aluOp_of_rule (h : Current s tk mem) {f g : W64 → W64 → W64} (hfg : ∀ a b, f a b = g a b) :
    aluOp rd rs rt f s = .next (afterC s (mem.wr rd (fromTwo mem rs rt g))) := by
  rw [aluOp_cur h, fromTwo, hfg]
  rfl

/-- A word of one register, by the rule for its result. -/
theorem unOp_of_rule (h : Current s tk mem) {f g : W64 → W64} (hfg : ∀ a, f a = g a) :
    unOp rd rs f s = .next (afterC s (mem.wr rd (fromOne mem rs g))) := by
  rw [unOp_cur h, fromOne, hfg]
  rfl

/-- The words of scalarResult complete with the result named there. -/
theorem exec_scalarResult (h : Current s tk mem) (hr : scalarResult mem i = some (rd, v)) :
    exec i s = .next (afterC s (mem.wr rd v)) := by
  unfold scalarResult at hr
  split at hr <;> cases hr <;> simp only [exec]
  case h_1 => exact aluOp_of_rule h fun a b => by simp [BitVec.ofNat_add]
  case h_2 => exact aluOp_of_rule h fun a b => by simp [sub_eq_add_neg, BitVec.ofInt_add, BitVec.ofInt_neg]
  case h_3 => exact aluOp_of_rule h fun a b => by simp [BitVec.ofNat_mul]
  case h_4 => exact aluOp_cur h ..
  case h_5 => exact aluOp_cur h ..
  case h_6 => exact aluOp_of_rule h fun a b => by simp
  case h_7 => exact aluOp_of_rule h fun a b => by simp
  case h_8 => exact aluOp_of_rule h fun a b => by simp
  case h_9 => exact aluOp_of_rule h fun a b => shiftLeft_eq_ofNat a _
  case h_10 => exact aluOp_of_rule h fun a b => ushiftRight_eq_ofNat a _
  case h_11 => exact aluOp_of_rule h fun a b => sshiftRight_eq_ofInt a _
  case h_12 => exact aluOp_of_rule h smin_eq_ofInt
  case h_13 => exact aluOp_of_rule h smax_eq_ofInt
  case h_14 => exact aluOp_of_rule h umin_eq_ofNat
  case h_15 => exact aluOp_of_rule h umax_eq_ofNat
  case h_16 => exact unOp_of_rule h fun a => congrArg _ (clzFrom_eq a 64 a.isLt)
  case h_17 => exact unOp_of_rule h fun a => congrArg _ (popcBelow_eq a 64)
  case h_18 => exact aluOp_of_rule h fun a b => by simp [shiftLeft_eq_ofNat, BitVec.ofNat_add]
  case h_19 => exact unOp_of_rule h fun a => addi_eq_ofInt a _
  case h_20 => exact unOp_of_rule h fun a => by simp
  case h_21 => exact unOp_of_rule h fun a => by simp
  case h_22 => exact unOp_of_rule h fun a => by simp
  case h_23 => exact unOp_of_rule h fun a => lih_eq_ofNat a _
  case h_24 => exact unOp_of_rule h fun a => shiftLeft_eq_ofNat a _
  case h_25 => exact unOp_of_rule h fun a => ushiftRight_eq_ofNat a _
  case h_26 => exact unOp_of_rule h fun a => sshiftRight_eq_ofInt a _

/-- The divisions complete with the result of the rule. -/
theorem exec_divisionResult (h : Current s tk mem) (hr : divisionResult mem i = some (rd, v)) :
    exec i s = .next (afterC s (mem.wr rd v)) := by
  unfold divisionResult at hr
  split at hr <;> cases hr <;> simp only [exec]
  case h_1 => exact aluOp_of_rule h fun a b => congrArg Prod.fst (divS_eq a b)
  case h_2 => exact aluOp_of_rule h fun a b => congrArg Prod.snd (divS_eq a b)
  case h_3 => exact aluOp_of_rule h fun a b => congrArg Prod.fst (divZ_eq a b)
  case h_4 => exact aluOp_of_rule h fun a b => congrArg Prod.snd (divZ_eq a b)

/-- A compare faults on a poisoned operand, and else writes 1 or 0. -/
theorem exec_compareOf (h : Current s tk mem) {p b : Bool} (hc : compareOf mem i = some (rd, p, b)) :
    exec i s = if p = true then .next (faulted s mem cPoison 0 0) else .next (afterC s (mem.wr rd ⟨if b then 1 else 0, false⟩)) := by
  unfold compareOf at hc
  split at hc <;> cases hc <;> simp only [exec]
  case h_1 => exact cmpOp_cur h ..
  case h_2 => exact cmpOp_cur h ..
  case h_3 => exact cmpOp_cur h ..
  case h_4 => simp [execSlti, onMember_cur h, raise_eq, cWrite_eq]

/-- Settles O2: every word is the function of registers its rule names (exec_scalarResult, exec_divisionResult). -/
theorem scalarWordsWriteTheirResults : Obligations.ScalarWordsWriteTheirResults := by
  unfold Obligations.ScalarWordsWriteTheirResults
  exact ⟨fun _ _ _ _ _ _ h hr => exec_scalarResult h hr, fun _ _ _ _ _ _ h hr => exec_divisionResult h hr⟩

/-- Settles O3: by the two branches of exec_compareOf. -/
theorem comparesWriteZeroOrOne : Obligations.ComparesWriteZeroOrOne := by
  unfold Obligations.ComparesWriteZeroOrOne
  intro s tk mem i rd p holds h hc
  rw [exec_compareOf h hc]
  exact ⟨fun hp => if_neg (by simp [hp]), fun hp => if_pos hp⟩

/-! ## The frame of a register word (R119) -/

/-- A word that writes one register leaves the rest of the device, of the task and of the member. -/
theorem afterC_wr_frame (h : Current s tk mem) (rd : BitVec 5) (v : Scalar) : let t := afterC s (mem.wr rd v)
    (∀ a, t.mem.get a = s.mem.get a) ∧ t = { s with tasks := t.tasks } ∧ (∀ j, j ≠ s.cur.task → t.tasks[j]? = s.tasks[j]?) ∧
    ∃ (tk1 : Task) (b : Member), t.tasks[s.cur.task]? = some tk1 ∧ tk1 = { tk with members := tk1.members } ∧
      (∀ j, j ≠ s.cur.member → tk1.members[j]? = tk.members[j]?) ∧ tk1.members[s.cur.member]? = some b ∧
      b = { mem with g := b.g, streams := b.streams } ∧ (∀ r, r ≠ rd → b.rd r = mem.rd r) ∧ ∀ x, x ≠ .c → b.str x = mem.str x := by
  intro t
  have hcur := put_current h ((mem.wr rd v).cNext s.cycle)
  refine ⟨fun a => by simp [t, afterC], by simp only [t, afterC, put_eq h], fun j hj => put_other_task h _ hj,
    _, _, by simpa [t, afterC] using hcur.task, rfl, fun j hj => putMember_other _ hj, by simpa using hcur.member, ?_, fun r hr => ?_, fun x hx => ?_⟩
  · unfold Member.cNext Member.wr
    split <;> rfl
  · rw [rd_cNext, rd_wr]
    by_cases h0 : r = 0#5
    · simp [h0, Member.rd]
    · rw [if_neg h0, if_neg hr]
  · rw [Member.cNext, str_setStr, if_neg hx, str_wr]

end

/-- Settles O36: each of the words ends in afterC of a written register (O2, O3), whose frame is afterC_wr_frame. -/
theorem registerWordsKeepTheRest : Obligations.RegisterWordsKeepTheRest := by
  unfold Obligations.RegisterWordsKeepTheRest
  rintro s t tk mem i rd h hw ht
  have hv : ∃ v, exec i s = .next (afterC s (mem.wr rd v)) := by
    obtain ⟨v, hr⟩ | ⟨v, hr⟩ | ⟨b, hc⟩ := hw
    · exact ⟨v, exec_scalarResult h hr⟩
    · exact ⟨v, exec_divisionResult h hr⟩
    · exact ⟨_, (exec_compareOf h hc).trans (if_neg (by decide))⟩
  obtain ⟨v, hv⟩ := hv
  obtain rfl : t = afterC s (mem.wr rd v) := Host.Outcome.next.inj (ht.symm.trans hv)
  exact afterC_wr_frame h rd v

end Sys2Proof.Machine

namespace Sys2Proof.Machine
section
variable {s : State} {tk : Task} {mem : Member}

/-! ## Descriptors and mailboxes (R51, R135, R136) -/

/-- A quarter written is read back, and the other quarters of the descriptor are as before. -/
theorem getQuarter_setQuarter (d : BitVec 256) (q r : BitVec 2) (v : W64) :
    getQuarter (setQuarter d q v) r = if r = q then v else getQuarter d r := by
  have hr := r.isLt
  apply BitVec.eq_of_getLsbD_eq
  intro k hk
  have hin : 64 * r.toNat + k < 256 := by omega
  by_cases h : r = q
  · subst h
    have hlo : ¬ 64 * r.toNat + k < 64 * r.toNat := by omega
    simp [-BitVec.reduceAllOnes, getQuarter, setQuarter, hk, hin, hlo]
  · have hne : r.toNat ≠ q.toNat := fun e => h (BitVec.eq_of_toNat_eq e)
    rcases Nat.lt_or_gt_of_ne hne with hlt | hgt
    · have hlo : 64 * r.toNat + k < 64 * q.toNat := by omega
      simp [-BitVec.reduceAllOnes, getQuarter, setQuarter, hk, hin, hlo, h]
    · have hlo : ¬ 64 * r.toNat + k < 64 * q.toNat := by omega
      have hhi : ¬ 64 * r.toNat + k - 64 * q.toNat < 64 := by omega
      have hv : v.getLsbD (64 * r.toNat + k - 64 * q.toNat) = false := BitVec.getLsbD_of_ge _ _ (by omega)
      simp [-BitVec.reduceAllOnes, getQuarter, setQuarter, hk, hin, hlo, hhi, hv, h]

/-- The member after DSET has left a quarter for the end of the cycle. -/
def Member.pendDset (mem : Member) (dn : BitVec 6) (q : BitVec 2) (v : W64) : Member :=
  { mem with pend := { mem.pend with dset := mem.pend.dset ++ [(dn.toNat, q.toNat, v)] } }

/-- What DGET sees after a DSET: its quarter of its descriptor. -/
theorem descNow_pendDset (mem : Member) (dn e : BitVec 6) (q : BitVec 2) (v : W64) :
    (mem.pendDset dn q v).descNow e = if e = dn then setQuarter (mem.descNow e) q v else mem.descNow e := by
  have hiff : dn.toNat = e.toNat ↔ e = dn := by rw [← BitVec.toNat_inj, eq_comm]
  simp [Member.pendDset, Member.descNow, List.foldl_append, hiff]

/-- At the end of the cycle a descriptor is what the C stream has written it to be. -/
theorem endCycle_d (mem : Member) (e : BitVec 6) : mem.endCycle.d[e.toNat]'(e.isLt) = mem.descNow e := by
  simp [Member.endCycle]

/-- The member after MBW has left a mailbox value for the end of the cycle. -/
def Member.pendMbw (mem : Member) (mb : BitVec 2) (v : Scalar) : Member :=
  { mem with pend := { mem.pend with mbw := mem.pend.mbw ++ [(mb.toNat, v)] } }

/-- At the end of the cycle a mailbox holds what the latest MBW of the cycle left for it. -/
theorem endCycle_mb_pendMbw (mem : Member) (mb n : BitVec 2) (v : Scalar) :
    (mem.pendMbw mb v).endCycle.mb[n.toNat]'(n.isLt) = if n = mb then v else mem.endCycle.mb[n.toNat]'(n.isLt) := by
  simp only [Member.endCycle, Member.pendMbw, List.foldl_append, List.foldl_cons, List.foldl_nil, getElem_setVec, BitVec.toNat_inj]

end

/-- Settles O9: what DSET leaves for the end of the cycle is what DGET reads (descNow_pendDset) and what the end of the cycle takes
(endCycle_d); a mailbox takes the latest MBW (endCycle_mb_pendMbw). -/
theorem descriptorAndMailboxWords : Obligations.DescriptorAndMailboxWords := by
  unfold Obligations.DescriptorAndMailboxWords
  intro s tk mem dn q g mb h
  refine ⟨fun hp => ?_, fun hp => ⟨mem.pendDset dn q (mem.rd g).val, ?_, rfl, fun e r => ⟨?_, endCycle_d _ e⟩⟩, ?_,
    mem.pendMbw mb (mem.rd g), ?_, rfl, fun n => endCycle_mb_pendMbw mem mb n _⟩
  · simp [exec, execDset, onMember_cur h, hp, raise_eq]
  · simp [exec, execDset, onMember_cur h, hp, cDone_eq, Member.pendDset]
  · rw [descNow_pendDset]
    by_cases he : e = dn
    · simp [he, getQuarter_setQuarter]
    · simp [he]
  · simp [exec, execDget, onMember_cur h, cWrite_eq]
  · simp [exec, execMbw, onMember_cur h, cDone_eq, Member.pendMbw]

end Sys2Proof.Machine

namespace Sys2Proof.Machine
section
variable {s : State} {tk : Task} {mem : Member}

/-! ## Token queues (R17, R49, R137) -/

/-- The queue from the C stream to another stream. -/
theorem tokenQueue_from_c {y : BitVec 2} (hy : y ≠ 0#2) : tokenQueue 0 y.toNat = y.toNat - 1 := by
  have hy : 0 < y.toNat := Nat.pos_of_ne_zero fun h => hy (BitVec.eq_of_toNat_eq h)
  simp [tokenQueue]

/-- The queue from another stream to the C stream. -/
theorem tokenQueue_to_c {y : BitVec 2} (hy : y ≠ 0#2) : tokenQueue y.toNat 0 = 3 * y.toNat := by
  have hy : 0 < y.toNat := Nat.pos_of_ne_zero fun h => hy (BitVec.eq_of_toNat_eq h)
  simp [tokenQueue, hy]

/-- Tokens appended stand at the end of their queue when the cycle ends. -/
theorem tokEnd_tokPush (mem : Member) (q n k : Nat) (tag : Bool) :
    (mem.tokPush q n tag).tokEnd k = if k = q then mem.tokEnd k ++ List.replicate n tag else mem.tokEnd k := by
  by_cases h : k = q
  · subst h
    simp [Member.tokEnd, Member.tokPush, Member.tokens, Member.tokTaken, List.filter_append]
  · have h' : (q == k) = false := by simpa using Ne.symm h
    simp [Member.tokEnd, Member.tokPush, Member.tokens, Member.tokTaken, List.filter_append, h, h']

/-- A queue that holds n tokens loses its oldest n at the end of the cycle. -/
theorem tokEnd_tokTake {q n : Nat} (hq : mem.tokHas q n = true) (k : Nat) :
    (mem.tokTake q n).2.tokEnd k = if k = q then (mem.tokEnd k).drop n else mem.tokEnd k := by
  by_cases h : k = q
  · subst h
    have hlen : mem.tokTaken k + n ≤ (mem.tokens k).length := of_decide_eq_true hq
    have htaken : (mem.tokTake k n).2.tokTaken k = mem.tokTaken k + n := by
      simp [Member.tokTake, Member.tokTaken, List.filter_append]
    rw [if_pos rfl, Member.tokEnd, Member.tokEnd, htaken, List.drop_append_of_le_length (by simp; omega), List.drop_drop]
    rfl
  · have h' : (q == k) = false := by simpa using Ne.symm h
    simp [Member.tokEnd, Member.tokTake, Member.tokens, Member.tokTaken, List.filter_append, h, h']

/-- The token that a wait takes is the oldest that the cycle leaves. -/
theorem tokTake_fst {q : Nat} (hq : mem.tokHas q 1 = true) : (mem.tokTake q 1).1 = true ↔ (mem.tokEnd q).head? = some true := by
  have hlen : mem.tokTaken q < (mem.tokens q).length := of_decide_eq_true hq
  rw [Member.tokEnd, List.drop_eq_getElem_cons hlen]
  simp [Member.tokTake, hlen]

/-- TSIG of another stream appends its tokens where the queue has room, and stalls otherwise. -/
theorem exec_tsig (h : Current s tk mem) {y : BitVec 2} (hy : y ≠ 0#2) (tag : BitVec 1) (nm1 : BitVec 5) :
    exec (.tsig y tag nm1) s = if mem.tokRoom (y.toNat - 1) (nm1.toNat + 1) = true
      then .next (afterC s (mem.tokPush (y.toNat - 1) (nm1.toNat + 1) (tag == 1#1)))
      else .next (s.put { mem with stall := some (.tsig y tag nm1) }) := by
  simp only [exec, execTsig, onMember_cur h, hy, if_false, tokenQueue_from_c hy, cDone_eq, cStall_eq]

/-- TWAIT on another stream takes its tokens where the queue holds them, and stalls otherwise. -/
theorem exec_twait (h : Current s tk mem) {y : BitVec 2} (hy : y ≠ 0#2) (nm1 : BitVec 5) :
    exec (.twait y nm1) s = if mem.tokHas (3 * y.toNat) (nm1.toNat + 1) = true
      then .next (afterC s (mem.tokTake (3 * y.toNat) (nm1.toNat + 1)).2)
      else .next (s.put { mem with stall := some (.twait y nm1) }) := by
  simp only [exec, execTwait, onMember_cur h, hy, if_false, tokenQueue_to_c hy, cDone_eq, cStall_eq]

/-- TWAITB away from a loop's end takes a token and branches on its tag, or stalls. -/
theorem exec_twaitb (h : Current s tk mem) {y : BitVec 2} (hy : y ≠ 0#2) (he : endsLoop s mem = false) (off : BitVec 16) :
    exec (.twaitb y off) s = if mem.tokHas (3 * y.toNat) 1 = true
      then .next (if (mem.tokEnd (3 * y.toNat)).head? = some true
        then s.put ((mem.tokTake (3 * y.toNat) 1).2.cJump (s.cur.pc + BitVec.ofInt 64 (4 * off.toInt)) s.cycle)
        else afterC s (mem.tokTake (3 * y.toNat) 1).2)
      else .next (s.put { mem with stall := some (.twaitb y off) }) := by
  simp only [exec, execTwaitb, onMember_cur h, hy, he, if_false, tokenQueue_to_c hy, cDone_eq, cStall_eq, cGoto_eq,
    wordTarget_eq s (by omega : 16 ≤ 62) off, Bool.false_eq_true]
  by_cases hq : mem.tokHas (3 * y.toNat) 1 = true
  · simp only [hq, Bool.not_true, Bool.false_eq_true, if_false, if_true, tokTake_fst hq, apply_ite Host.Outcome.next]
  · simp [hq]

/-! ## Semaphores (R48, R138) -/

theorem semVal_eq (mem : Member) (n : BitVec 8) : mem.semVal n.toNat = mem.sem[n.toNat]'(n.isLt) := by
  have hn : n.toNat < 256 := n.isLt
  simp [Member.semVal, hn]

/-- A wait's count is added to what the cycle has taken of its semaphore. -/
theorem semTakenNow_semTake (mem : Member) (n cnt k : Nat) :
    (mem.semTake n cnt).semTakenNow k = mem.semTakenNow k + if k = n then cnt else 0 := by
  by_cases h : k = n
  · subst h
    simp [Member.semTakenNow, Member.semTake, List.filter_append]
  · have h' : (n == k) = false := by simpa using Ne.symm h
    simp [Member.semTakenNow, Member.semTake, List.filter_append, h, h']

/-- Counts taken one by one leave a semaphore lower by their sum. -/
theorem foldl_semTaken (l : List (Nat × Nat)) (mem : Member) (n : BitVec 8) :
    (l.foldl (fun m p => { m with sem := setVec m.sem p.1 (m.semVal p.1 - p.2) }) mem).sem[n.toNat]'(n.isLt) =
      mem.sem[n.toNat]'(n.isLt) - ((l.filter fun p => p.1 == n.toNat).map (·.2)).sum := by
  induction l generalizing mem with
  | nil => simp
  | cons p r ih =>
    rw [List.foldl_cons, ih, getElem_setVec]
    by_cases hp : n.toNat = p.1
    · rw [if_pos hp, ← hp, semVal_eq]
      simp [← hp, Nat.sub_sub]
    · have hp' : (p.1 == n.toNat) = false := by simpa using Ne.symm hp
      simp [hp, hp']

/-- Where nothing was added in a cycle, a semaphore is lower by what the cycle's waits took. -/
theorem semEnd_of_semAdd_nil (ha : mem.pend.semAdd = []) (n : BitVec 8) :
    mem.semEnd.2 = [] ∧ mem.semEnd.1.sem[n.toNat]'(n.isLt) = mem.sem[n.toNat]'(n.isLt) - mem.semTakenNow n.toNat := by
  simp only [Member.semEnd, ha, List.foldl_nil, foldl_semTaken, Member.semTakenNow, and_self]

theorem setVec_eq_set {α : Type} {n i : Nat} (v : Vector α n) (a : α) (h : i < n) : setVec v i a = v.set i a h := by
  apply Vector.ext
  simp [getElem_setVec, Vector.getElem_set, eq_comm]

/-- One count added in a cycle with no other change arrives, or overflows and is reported (R48). -/
theorem semEnd_semAdd (hp : mem.pend = Pend.empty) (n cnt : BitVec 8) (who : FaultInfo) :
    (mem.semAdd n.toNat cnt.toNat who).semEnd =
      if mem.sem[n.toNat]'(n.isLt) + cnt.toNat < 65536 then
        ({ mem.semAdd n.toNat cnt.toNat who with sem := mem.sem.set n.toNat (mem.sem[n.toNat]'(n.isLt) + cnt.toNat) n.isLt }, [])
      else (mem.semAdd n.toNat cnt.toNat who, [who]) := by
  have hv : (mem.semAdd n.toNat cnt.toNat who).semVal n.toNat = mem.sem[n.toNat]'(n.isLt) := semVal_eq mem n
  have hpend : (mem.semAdd n.toNat cnt.toNat who).pend = { Pend.empty with semAdd := [(n.toNat, cnt.toNat, who)] } := by
    simp [Member.semAdd, hp, Pend.empty]
  unfold Member.semEnd
  simp only [hpend, Pend.empty, List.foldl_nil, List.foldl_cons, hv, List.nil_append, setVec_eq_set _ _ n.isLt]
  rfl

end

/-- Settles O10: a queue at the end of the cycle after TSIG (tokEnd_tokPush) and after a wait (tokEnd_tokTake), and a semaphore
after the cycle's waits (semEnd_of_semAdd_nil) or one SEMS (semEnd_semAdd). -/
theorem tokenAndSemaphoreWords : Obligations.TokenAndSemaphoreWords := by
  unfold Obligations.TokenAndSemaphoreWords
  refine ⟨fun s tk mem y tag nm1 off h hy => ?_, fun s tk mem n cnt rd h hc => ?_, fun mem ha n => semEnd_of_semAdd_nil ha n⟩
  · rw [exec_tsig h hy, exec_twait h hy]
    refine ⟨fun hr => ⟨_, if_pos hr, rfl, fun k => tokEnd_tokPush ..⟩, fun hr => if_neg (by simp [hr]),
      fun hq => ⟨_, if_pos hq, rfl, tokEnd_tokTake hq⟩, fun hq => if_neg (by simp [hq]), fun hq he => ?_, fun hq he => ?_⟩
    · exact ⟨_, (exec_twaitb h hy he off).trans (if_pos hq), rfl, tokEnd_tokTake hq⟩
    · exact (exec_twaitb h hy he off).trans (if_neg (by simp [hq]))
  · refine ⟨fun hr => ⟨mem.semTake n.toNat cnt.toNat, ?_, rfl, semTakenNow_semTake mem _ _⟩, fun hr => ?_, ?_,
      mem.semAdd n.toNat cnt.toNat (s.info mem cSchedule 0 0 9), ?_, rfl, fun hp => ⟨fun hlt => ?_, fun hge => ?_⟩⟩
    · simp [exec, execSemw, onMember_cur h, hc, hr, cDone_eq]
    · simp [exec, execSemw, onMember_cur h, hc, hr, cStall_eq]
    · simp [exec, execSemr, onMember_cur h, cWrite_eq, semVal_eq]
    · simp [exec, execSems, onMember_cur h, hc, cDone_eq]
    · rw [semEnd_semAdd hp, if_pos hlt]
    · rw [semEnd_semAdd hp, if_neg (Nat.not_lt.mpr hge)]

end Sys2Proof.Machine

namespace Sys2Proof.Machine
section
variable {s s1 s2 : State} {tk : Task} {mem : Member} {l : Leaf} {pa n a : Nat}

/-! ## What reads leave behind (R349, R350, R390, R392) -/

/-- A state after reads and translations: readsOnly, and the same bytes of memory exist, read and can be written. -/
structure Reads (s s1 : State) : Prop where
  only : readsOnly s s1
  paOk : ∀ pa, s1.paOk pa = s.paOk pa
  paWritable : ∀ pa, s1.paWritable pa = s.paWritable pa

theorem Reads.refl (s : State) : Reads s s := ⟨rfl, fun _ => rfl, fun _ => rfl⟩

theorem Reads.trans (h1 : Reads s s1) (h2 : Reads s1 s2) : Reads s s2 where
  only := by
    have e1 := h1.only
    have e2 := h2.only
    unfold readsOnly at *
    rw [e1] at e2
    exact e2
  paOk pa := (h2.paOk pa).trans (h1.paOk pa)
  paWritable pa := (h2.paWritable pa).trans (h1.paWritable pa)

/-- Free values used up and translations noted are no part of the memories. -/
theorem Reads.of_xlat_free (x : List TlbEntry) (k : Nat) : Reads s { s with xlat := x, free := k } := ⟨rfl, fun _ => rfl, fun _ => rfl⟩

theorem Stack.noteRead_mode (st : Stack) (pa n : Nat) : (st.noteRead pa n).mode = st.mode := by
  unfold Stack.noteRead Stack.correct
  dsimp only
  repeat' split
  all_goals rfl

theorem Stack.noteRead_badLines (st : Stack) (pa n : Nat) : (st.noteRead pa n).badLines = st.badLines := by
  unfold Stack.noteRead Stack.correct
  dsimp only
  repeat' split
  all_goals rfl

/-- What decides whether a stack reads and writes a byte: its mode and the lines that fail. -/
def Stack.service (st : Stack) : Nat × List Nat := (st.mode, st.badLines)

/-- What exists and reads is known from the configuration, the ports and the service of the stacks. -/
theorem paOk_congr (hc : s1.mgmt.cfg = s.mgmt.cfg) (hf : s1.fabric = s.fabric)
    (hh : ∀ i : Nat, (s1.hbm[i]?).map Stack.service = (s.hbm[i]?).map Stack.service) (pa : Nat) : s1.paOk pa = s.paOk pa := by
  have hp := hh (pa / 2 ^ 36)
  unfold State.paOk State.chestOk State.chestPort
  rw [hc, hf]
  generalize s1.hbm[pa / 2 ^ 36]? = x at hp ⊢
  generalize s.hbm[pa / 2 ^ 36]? = y at hp ⊢
  match x, y with
  | none, none => rfl
  | some a, some b =>
    obtain ⟨hm, hb⟩ := Prod.mk.inj (Option.some.inj hp)
    simp only [hm, hb]

/-- What can be written is known from the same. -/
theorem paWritable_congr (hc : s1.mgmt.cfg = s.mgmt.cfg) (hf : s1.fabric = s.fabric)
    (hh : ∀ i : Nat, (s1.hbm[i]?).map Stack.service = (s.hbm[i]?).map Stack.service) (pa : Nat) : s1.paWritable pa = s.paWritable pa := by
  have hp := hh (pa / 2 ^ 36)
  unfold State.paWritable
  rw [paOk_congr hc hf hh]
  unfold State.chestOk State.chestPort
  rw [hc, hf]
  generalize s1.hbm[pa / 2 ^ 36]? = x at hp ⊢
  generalize s.hbm[pa / 2 ^ 36]? = y at hp ⊢
  match x, y with
  | none, none => rfl
  | some a, some b =>
    obtain ⟨hm, -⟩ := Prod.mk.inj (Option.some.inj hp)
    simp only [hm]

/-- A read noted in its stack changes neither which lines fail nor which bytes exist. -/
theorem reads_noteRead (s : State) (pa n : Nat) : Reads s (s.noteRead pa n) := by
  have hh (i : Nat) : ((s.noteRead pa n).hbm[i]?).map Stack.service = (s.hbm[i]?).map Stack.service := by
    simp only [State.noteRead, List.getElem?_modify, Option.map_eq_map, Option.map_map]
    congr 1
    funext st
    simp only [Function.comp, Stack.service]
    split
    · rw [Stack.noteRead_mode, Stack.noteRead_badLines]
    · rfl
  exact ⟨rfl, paOk_congr rfl rfl hh, paWritable_congr rfl rfl hh⟩

theorem reads_noteXlat (s : State) (ctx va : Nat) (w : Option Leaf) : Reads s (s.noteXlat ctx va w) := by
  unfold State.noteXlat
  split
  · exact Reads.refl s
  · dsimp only
    split
    · exact Reads.refl s
    · exact Reads.of_xlat_free _ s.free

theorem reads_noteWalk (s : State) (root va : Nat) : Reads s (s.noteWalk root va) := by
  unfold State.noteWalk
  split
  · generalize s.walkReads [48, 39, 30, 21, 12] 0 root va = l
    induction l generalizing s with
    | nil => exact Reads.refl s
    | cons x r ih => exact (reads_noteRead s x 8).trans (ih _)
  · exact Reads.refl s

theorem reads_fillTlb (s : State) (u : TlbUse) (tlb : List TlbEntry) (ctx root va : Nat) : Reads s (s.fillTlb u tlb ctx root va).2 := by
  have h := (reads_noteWalk s root va).trans (reads_noteXlat (s.noteWalk root va) ctx va (s.leafOf root va))
  unfold State.fillTlb
  dsimp only
  split
  · exact h.trans (Reads.of_xlat_free _ _)
  · exact h

theorem reads_translate (s : State) (u : TlbUse) (tlb : List TlbEntry) (ctx root va : Nat) :
    Reads s (s.translate u tlb ctx root va).2.2 := by
  have hfree : Reads s s.takeFree.2 := Reads.of_xlat_free s.xlat _
  unfold State.translate
  dsimp only
  split
  · exact reads_fillTlb ..
  · split
    · exact Reads.refl s
    · split
      · exact hfree
      · exact hfree.trans (reads_fillTlb ..)

/-- A translation that the page tables give, and the TLB not otherwise. -/
theorem translate_of_mappedBy {u : TlbUse} {tlb : List TlbEntry} (h : mappedBy s tk tlb a l) :
    (s.translate u tlb tk.ctx tk.ptroot a).1 = some l := by
  obtain ⟨hwalk, htlb⟩ := h
  unfold State.translate
  dsimp only
  split
  · exact hwalk
  · next old ho =>
    rw [hwalk, htlb old ho, if_pos rfl]

/-- A translation that neither the page tables nor the TLB give. -/
theorem translate_of_unmapped {u : TlbUse} (h : unmapped s tk mem a) : (s.translate u mem.tlbC tk.ctx tk.ptroot a).1 = none := by
  obtain ⟨hwalk, htlb⟩ := h
  unfold State.translate
  simp only [htlb, hwalk]

/-- A mapped address translates for the C stream; of the member only its TLB moves. -/
theorem translateFor_of_mapped (h : mapped s tk mem a l) : ∃ (s1 : State) (t : List TlbEntry),
    Reads s s1 ∧ s.translateFor tk mem .c a = (some l, { mem with tlbC := t }, s1) :=
  ⟨_, _, reads_translate .., Prod.ext (translate_of_mappedBy h) rfl⟩

/-- An unmapped address does not translate for the C stream; of the member only its TLB moves. -/
theorem translateFor_of_unmapped (h : unmapped s tk mem a) : ∃ (s1 : State) (t : List TlbEntry),
    Reads s s1 ∧ s.translateFor tk mem .c a = (none, { mem with tlbC := t }, s1) :=
  ⟨_, _, reads_translate .., Prod.ext (translate_of_unmapped h) rfl⟩

/-! ### What a state after reads still gives -/

namespace Reads

theorem rangeOk (h : Reads s s1) (pa n : Nat) : s1.rangeOk pa n = s.rangeOk pa n := by simp only [State.rangeOk, h.paOk]

theorem canWrite (h : Reads s s1) (pa n : Nat) : s1.canWrite pa n = s.canWrite pa n := by simp only [State.canWrite, h.paWritable]

/-- Every part of the device but the four that readsOnly names. -/
theorem eq (h : Reads s s1) : s1 = { s with xlat := s1.xlat, free := s1.free, hbm := s1.hbm, mgmt := s1.mgmt } := h.only

theorem cur (h : Reads s s1) : s1.cur = s.cur := by rw [h.eq]
theorem cycle (h : Reads s s1) : s1.cycle = s.cycle := by rw [h.eq]
theorem load (h : Reads s s1) (pa n : Nat) : s1.load pa n = s.load pa n := by rw [h.eq]; rfl
theorem outsideRule (h : Reads s s1) (t pa : Nat) (tk : Task) (l : Leaf) : s1.outsideRule t tk l pa = s.outsideRule t tk l pa := by
  rw [h.eq]; rfl
theorem racy (h : Reads s s1) (t pa : Nat) (tk : Task) (mem : Member) (l : Leaf) : s1.racy t tk mem l pa = s.racy t tk mem l pa := by
  rw [h.eq]; rfl
theorem settled (h : Reads s s1) (t pa n : Nat) (mem : Member) : s1.settled t mem pa n = s.settled t mem pa n := by rw [h.eq]; rfl
theorem coreBytes (h : Reads s s1) (mem : Member) (va pa : Nat) (bs : List Byte) :
    Machine.coreBytes s1 mem va pa bs = Machine.coreBytes s mem va pa bs := by rw [h.eq]; rfl
theorem info (h : Reads s s1) (mem : Member) (c k : Nat) (a : W64) (x : Nat) : s1.info mem c k a x = s.info mem c k a x := by rw [h.eq]; rfl
theorem logRoom (h : Reads s s1) (core : Nat) : s1.logRoom core = s.logRoom core := by rw [h.eq]; rfl

/-- The words whose turn it is are the same. -/
theorem current (h : Reads s s1) (hc : Current s tk mem) : Current s1 tk mem := by
  rw [h.eq]
  exact ⟨hc.task, hc.member⟩

end Reads

end
end Sys2Proof.Machine

namespace Sys2Proof.Machine
section
variable {s s1 : State} {tk : Task} {mem : Member} {l : Leaf} {pa n va : Nat} {a : W64} {bytes : List Byte}

/-! ## Lines of memory (R358) -/

/-- A stretch of a list given by position. -/
theorem slice_map_range {α : Type} (f : Nat → α) {k n len : Nat} (h : k + n ≤ len) :
    (((List.range len).map f).drop k).take n = (List.range n).map fun i => f (k + i) := by
  apply List.ext_getElem
  · simp; omega
  · intro i h1 h2
    simp

/-- Stores lie over a stretch of a line as they lie over the line. -/
theorem overlay_slice (st : List (Nat × List Byte)) (at_ : Nat) {bs : List Byte} {k n : Nat} (h : k + n ≤ bs.length) :
    ((overlay st at_ bs).drop k).take n = overlay st (at_ + k) ((bs.drop k).take n) := by
  have hl : ((bs.drop k).take n).length = n := by simp; omega
  unfold overlay
  rw [slice_map_range _ h, hl]
  apply List.map_congr_left
  intro i hi
  have hi : i < n := by simpa using hi
  rw [Nat.add_assoc]
  congr 1
  simp [hi]

theorem length_load (s : State) (pa n : Nat) : (s.load pa n).length = n := by
  unfold State.load Memory.bytes
  split
  · rw [List.length_map, List.length_range]
  · split <;> rw [List.length_map, List.length_range]

/-- The bytes of memory inside a line are a stretch of the line's. -/
theorem load_slice (s : State) {pa n : Nat} (h : pa % 128 + n ≤ 128) :
    ((s.load (pa / 128 * 128) 128).drop (pa % 128)).take n = s.load pa n := by
  have hports : inPorts (pa / 128 * 128) = inPorts pa := by
    unfold inPorts within Config.portBase
    rw [Bool.eq_iff_iff, Bool.and_eq_true, Bool.and_eq_true]
    simp only [decide_eq_true_eq]
    omega
  have hpage : pa / 128 * 128 / 4096 = pa / 4096 := by omega
  have hsum (i : Nat) : pa / 128 * 128 + (pa % 128 + i) = pa + i := by omega
  have hoff (i : Nat) : pa / 128 * 128 % 4096 + (pa % 128 + i) = pa % 4096 + i := by omega
  unfold State.load
  rw [hports, hpage]
  split
  · rw [slice_map_range _ h]
    simp only [hsum]
  · split
    · rw [slice_map_range _ h]
      simp only [hoff]
    · unfold Memory.bytes
      rw [slice_map_range _ h]
      simp only [hsum]

/-- Part of a readable range is readable. -/
theorem rangeOk_sub {pa n lo len : Nat} (h : s.rangeOk lo len = true) (h1 : lo ≤ pa) (h2 : pa + n ≤ lo + len) : s.rangeOk pa n = true := by
  unfold State.rangeOk at *
  rw [List.all_eq_true] at *
  intro i hi
  have hi : i < n := by simpa using hi
  have := h (pa - lo + i) (by simp; omega)
  rwa [show lo + (pa - lo + i) = pa + i by omega] at this

/-- Part of a settled range is settled. -/
theorem settled_sub {t pa n lo len : Nat} (h : s.settled t mem lo len = true) (h1 : lo ≤ pa) (h2 : pa + n ≤ lo + len) :
    s.settled t mem pa n = true := by
  unfold State.settled at *
  rw [List.all_eq_true] at *
  intro i hi
  have hi : i < n := by simpa using hi
  have := h (pa - lo + i) (by simp; omega)
  rwa [show lo + (pa - lo + i) = pa + i by omega] at this

/-- Settled bytes read as memory holds them. -/
theorem weakBytes_of_settled {t w : Nat} (h : s.settled t mem pa n = true) : s.weakBytes t mem pa n w = (s.load pa n, mem, s) := by
  simp [State.weakBytes, h]

/-- A core's own stores lie over a stretch of a line as over the line. -/
theorem coreBytes_line (s : State) (mem : Member) (va pa : Nat) (bs : List Byte) :
    coreBytes s mem va (pa / 128 * 128) bs = overlay (ownStores s mem va pa) (pa / 128 * 128) bs := by
  simp [coreBytes, ownStores, ownLogged]

/-- A line put into the L1 changes nothing else of the member. -/
theorem putLine_eq (mem : Member) (free : Nat) (k : Line) : mem.putLine free k = { mem with l1 := (mem.putLine free k).l1 } := by
  unfold Member.putLine
  dsimp only
  split <;> rfl

/-- A read of settled bytes, noted in its stack, returns them as memory holds them. -/
theorem weakBytes_noteRead (h : s.settled s.cur.task mem pa n = true) (w : Nat) :
    (s.noteRead pa n).weakBytes s.cur.task mem pa n w = (s.load pa n, mem, s.noteRead pa n) := by
  rw [weakBytes_of_settled ((reads_noteRead s pa n).settled .. |>.trans h), (reads_noteRead s pa n).load]

/-- A fill of a settled line brings the line's bytes under this core's own stores; of the member only the L1 changes (R358). -/
theorem fillLine_of_settled (ctx : Nat) (l : Leaf) (va : Nat)
    (h : s.settled s.cur.task mem (pa / 128 * 128) 128 = true) : ∃ (s1 : State) (x : List Line), Reads s s1 ∧
      s.fillLine ctx mem l va pa =
        (overlay (ownStores s mem va pa) (pa / 128 * 128) (s.load (pa / 128 * 128) 128), { mem with l1 := x }, s1) := by
  refine ⟨(s.fillLine ctx mem l va pa).2.2, (s.fillLine ctx mem l va pa).2.1.l1, ?_, ?_⟩ <;>
    simp only [State.fillLine, weakBytes_noteRead h, coreBytes_line, ← putLine_eq]
  split
  · exact (reads_noteRead ..).trans (Reads.of_xlat_free _ _)
  · exact reads_noteRead ..

/-- A C read inside one line: the bytes of the L1's line, or of memory where it has none, under this core's own stores (R130, R358). -/
theorem l1Read_ok (ctx : Nat) (l : Leaf) (va : Nat) (hin : pa % 128 + n ≤ 128)
    (hok : mem.line? pa = none → s.rangeOk (pa / 128 * 128) 128 = true ∧ s.settled s.cur.task mem (pa / 128 * 128) 128 = true) :
    ∃ (s1 : State) (x : List Line), Reads s s1 ∧ l1Read s ctx mem l va pa n = ⟨.ok (coreBytes s mem va pa
      (((mem.line? pa).map fun k => (k.data.drop (pa % 128)).take n).getD (s.load pa n))), { mem with l1 := x }, s1⟩ := by
  unfold l1Read
  split
  · next k hk => exact ⟨s, mem.l1, Reads.refl s, by simp [hk]⟩
  · next hk =>
    obtain ⟨hr, hs⟩ := hok hk
    have hr' : s.rangeOk pa n = true := rangeOk_sub hr (by omega) (by omega)
    rw [hk]
    cases hn : l.nl1 with
    | true =>
      refine ⟨_, mem.l1, reads_noteRead s pa n, ?_⟩
      simp [hr', weakBytes_noteRead (settled_sub (pa := pa) (n := n) hs (by omega) (by omega))]
    | false =>
      obtain ⟨s1, x, h1, hf⟩ := fillLine_of_settled ctx l va hs
      refine ⟨s1, x, h1, ?_⟩
      have hbytes : ((overlay (ownStores s mem va pa) (pa / 128 * 128) (s.load (pa / 128 * 128) 128)).drop (pa % 128)).take n =
          coreBytes s mem va pa (s.load pa n) := by
        rw [overlay_slice _ _ (by rw [length_load]; omega), load_slice s hin, show pa / 128 * 128 + pa % 128 = pa by omega]
        rfl
      simp [hr, hf, hbytes]

end
end Sys2Proof.Machine

namespace Sys2Proof.Machine
section
variable {s s1 : State} {tk : Task} {mem : Member} {l : Leaf} {pa n : Nat} {a : W64} {bytes : List Byte} {i : Instr} {f : LoadForm}

/-! ## C reads of virtual memory (R126, R128, R299, R300) -/

/-- A read that is not racy lies inside the load rule (R299). -/
theorem outsideRule_of_not_racy {t : Nat} (h : s.racy t tk mem l pa = false) : s.outsideRule t tk l pa = false := by
  cases hw : l.w with
  | false => simp [State.outsideRule, hw]
  | true =>
    simp only [State.racy, hw, Bool.true_and, Bool.or_eq_false_iff] at h
    exact h.2

/-- A C read of bytes that LoadedAs describes returns them, unpoisoned; of the member only TLB and L1 change. -/
theorem readC_of_loadedAs (h : LoadedAs s tk mem a.toNat pa n bytes) : ∃ (s1 : State) (x : List Line) (t : List TlbEntry),
    Reads s s1 ∧ readC s tk mem a n = ⟨.ok (bytes, false), { mem with l1 := x, tlbC := t }, s1⟩ := by
  obtain ⟨⟨l, hmap, hr, rfl, hracy⟩, hok, hin, rfl⟩ := h
  obtain ⟨s1, t, h1, ht⟩ := translateFor_of_mapped hmap
  have hok1 : ({ mem with tlbC := t } : Member).line? (l.pa a.toNat) = none →
      s1.rangeOk (l.pa a.toNat / 128 * 128) 128 = true ∧
      s1.settled s1.cur.task { mem with tlbC := t } (l.pa a.toNat / 128 * 128) 128 = true := fun hn => by
    rw [h1.rangeOk, h1.settled, h1.cur]
    exact hok hn
  obtain ⟨s2, x, h2, hl⟩ := l1Read_ok tk.ctx l a.toNat hin hok1
  refine ⟨s2, x, t, h1.trans h2, ?_⟩
  have hracy1 : s1.racy s.cur.task tk { mem with tlbC := t } l (l.pa a.toNat) = false := (h1.racy ..).trans hracy
  unfold readC
  simp only [ht, hr, h1.outsideRule, outsideRule_of_not_racy hracy, hracy1, hl, h1.coreBytes, h1.load, Bool.not_true,
    Bool.false_eq_true, if_false, overDeferred, Bool.false_and]
  rfl

/-- A C read without a translation fails with the cause of the miss. -/
theorem readC_of_unmapped (h : unmapped s tk mem a.toNat) (n : Nat) : ∃ (s1 : State) (t : List TlbEntry),
    Reads s s1 ∧ readC s tk mem a n = ⟨.error ⟨s.missCause tk.ptroot a.toNat, a, 0⟩, { mem with tlbC := t }, s1⟩ := by
  obtain ⟨s1, t, h1, ht⟩ := translateFor_of_unmapped h
  exact ⟨s1, t, h1, by simp only [readC, ht]⟩

/-- A C read of a page without R is a protection fault. -/
theorem readC_of_unreadable (h : mapped s tk mem a.toNat l) (hr : l.r = false) (n : Nat) : ∃ (s1 : State) (t : List TlbEntry),
    Reads s s1 ∧ readC s tk mem a n = ⟨.error ⟨cProtection, a, 0⟩, { mem with tlbC := t }, s1⟩ := by
  obtain ⟨s1, t, h1, ht⟩ := translateFor_of_mapped h
  exact ⟨s1, t, h1, by simp only [readC, ht, hr, Bool.not_false, if_true]⟩

/-! ### Pages are 4 KiB or larger, and aligned (R348, R349) -/

/-- A leaf that names whole pages of 4 KiB. -/
def Leaf.paged (l : Leaf) : Prop := 4096 ∣ l.base ∧ 4096 ∣ l.size

theorem dvd_pageBytes (k : Nat) : 4096 ∣ pageBytes k := by
  unfold pageBytes
  split <;> decide

theorem decodePte_paged {level : Nat} {e : W64} (h : decodePte level e = .leaf l) : l.paged := by
  unfold decodePte at h
  dsimp only at h
  split_ifs at h
  cases h
  exact ⟨Dvd.intro_left _ rfl, dvd_pageBytes _⟩

theorem leafAt_paged {entry va : Nat} {l' : Leaf} (h : s.leafAt entry va l = some l') (hl : l.paged) : l'.paged := by
  unfold State.leafAt at h
  dsimp only at h
  split_ifs at h <;> cases h
  · exact ⟨Dvd.intro _ rfl, dvd_rfl⟩
  · exact hl

theorem walkFrom_paged (shifts : List Nat) {level tab va : Nat} (h : s.walkFrom shifts level tab va = some l) : l.paged := by
  induction shifts generalizing level tab with
  | nil => cases h
  | cons sh rest ih =>
    unfold State.walkFrom at h
    split at h
    · cases h
    · split at h
      · cases h
      · next hd => exact leafAt_paged h (decodePte_paged hd)
      · exact ih h

/-- The leaf of an address under a root names whole pages. -/
theorem walk_paged {root va : Nat} (h : s.walk root va = some l) : l.paged := by
  unfold State.walk at h
  obtain ⟨l0, h0, hv⟩ := Option.bind_eq_some_iff.mp h
  have hp : l0.paged := by
    unfold State.leafOf at h0
    split at h0
    · exact walkFrom_paged _ h0
    · cases h0
  unfold State.view at hv
  split_ifs at hv <;> cases hv <;> exact hp

/-- An aligned access stays in one line of its page. -/
theorem Leaf.paged.inLine (h : l.paged) {va : Nat} (hn : n = 1 ∨ n = 2 ∨ n = 4 ∨ n = 8) (ha : va % n = 0) : l.pa va % 128 + n ≤ 128 := by
  obtain ⟨⟨b, hb⟩, c, hc⟩ := h
  have hva : l.pa va % 4096 = va % 4096 := by
    unfold Leaf.pa
    rw [hb, Nat.mul_add_mod, hc, Nat.mod_mul_right_mod]
  obtain rfl | rfl | rfl | rfl := hn <;> omega

/-- A line that the L1 does not hold and whose bytes cannot be read is a memory fault. -/
theorem l1Read_of_bad (ctx va : Nat) (hline : mem.line? pa = none) (hin : pa % 128 + n ≤ 128) (hbad : s.rangeOk pa n = false) :
    ∃ s1 : State, Reads s s1 ∧ l1Read s ctx mem l va pa n = ⟨.error ⟨cMemory, BitVec.ofNat 64 va, 0⟩, mem, s1⟩ := by
  have hall : s.rangeOk (pa / 128 * 128) 128 = false := by
    by_contra hok
    have := rangeOk_sub (pa := pa) (n := n) (by simpa using hok) (by omega) (by omega)
    simp [hbad] at this
  unfold l1Read
  cases hn : l.nl1 with
  | true => exact ⟨_, reads_noteRead s pa n, by simp [hline, hbad]⟩
  | false => exact ⟨_, reads_noteRead s (pa / 128 * 128) 128, by simp [hline, hall]⟩

/-- A C read of bytes that cannot be read, and that neither the L1 holds nor the load rule withholds, is a memory fault (R316, R358, R385). -/
theorem readC_of_bad (h : mapped s tk mem a.toNat l) (hr : l.r = true) (hn : n = 1 ∨ n = 2 ∨ n = 4 ∨ n = 8) (ha : a.toNat % n = 0)
    (hbad : s.rangeOk (l.pa a.toNat) n = false) (hrule : s.outsideRule s.cur.task tk l (l.pa a.toNat) = false)
    (hmiss : s.racy s.cur.task tk mem l (l.pa a.toNat) = true ∨ mem.line? (l.pa a.toNat) = none) : ∃ (s1 : State) (t : List TlbEntry),
    Reads s s1 ∧ readC s tk mem a n = ⟨.error ⟨cMemory, a, 0⟩, { mem with tlbC := t }, s1⟩ := by
  obtain ⟨s1, t, h1, ht⟩ := translateFor_of_mapped h
  have hracy1 : s1.racy s.cur.task tk { mem with tlbC := t } l (l.pa a.toNat) = s.racy s.cur.task tk mem l (l.pa a.toNat) := h1.racy ..
  unfold readC
  simp only [ht, hr, h1.outsideRule, hrule, hracy1, Bool.not_true, Bool.false_eq_true, if_false]
  cases hc : s.racy s.cur.task tk mem l (l.pa a.toNat) with
  | true =>
    refine ⟨_, t, h1.trans (reads_noteRead s1 (l.pa a.toNat) n), ?_⟩
    simp only [h1.rangeOk, hbad, Bool.not_false, if_true]
  | false =>
    have hline : ({ mem with tlbC := t } : Member).line? (l.pa a.toNat) = none := hmiss.resolve_left (by simp [hc])
    have hin := (walk_paged h.1).inLine hn ha
    obtain ⟨s2, h2, hl⟩ := l1Read_of_bad (s := s1) (l := l) tk.ctx a.toNat hline hin ((h1.rangeOk ..).trans hbad)
    exact ⟨s2, t, h1.trans h2, by simp [hl]⟩

end
end Sys2Proof.Machine

namespace Sys2Proof.Machine
section
variable {s s1 : State} {tk : Task} {mem : Member} {l : Leaf} {pa va n : Nat} {a : W64} {bytes : List Byte} {i : Instr} {f : LoadForm}
  {rd rs : BitVec 5} {imm : BitVec 16}

/-! ## Loads through the aperture (R127) -/

theorem toNat_contByte (c : Container) (k : Nat) : (contByte c k).toNat = c.data.toNat / 2 ^ (8 * k) % 256 := by
  simp [contByte, BitVec.extractLsb'_toNat, Nat.shiftRight_eq_div_pow]

/-- The number of a stretch of a container's bytes. -/
theorem leNat_contBytes (c : Container) (k m : Nat) :
    leNat ((List.range m).map fun i => contByte c (k + i)) = c.data.toNat / 2 ^ (8 * k) % 2 ^ (8 * m) := by
  induction m generalizing k with
  | zero => simp [leNat, Nat.mod_one]
  | succ m ih =>
    have hrest : ((fun i => contByte c (k + i)) ∘ Nat.succ) = fun i => contByte c (k + 1 + i) := by
      funext i
      exact congrArg (contByte c) (by omega)
    have hpow : 2 ^ (8 * (k + 1)) = 2 ^ (8 * k) * 256 := by rw [Nat.mul_add, Nat.pow_add]
    rw [List.range_succ_eq_map, List.map_cons, List.map_map, hrest, leNat, ih, toNat_contByte, hpow, ← Nat.div_div_eq_div_mul,
      show 2 ^ (8 * (m + 1)) = 256 * 2 ^ (8 * m) by rw [Nat.mul_add, Nat.pow_add, Nat.mul_comm], Nat.mod_mul, Nat.add_zero]

theorem leNat_append (x y : List Byte) : leNat (x ++ y) = leNat x + 256 ^ x.length * leNat y := by
  induction x with
  | nil => simp [leNat]
  | cons b r ih =>
    simp only [List.cons_append, leNat, ih, List.length_cons, Nat.pow_succ]
    ring

/-- The bytes of the scratchpad inside one container. -/
theorem spByte_inContainer (mem : Member) {ci k : Nat} (hk : k < 4) : mem.spByte (4 * ci + k) =
    (contByte (mem.cont ci) k, (mem.cont ci).valid, (mem.cont ci).valid && (mem.cont ci).poison) := by
  unfold Member.spByte
  rw [show (4 * ci + k) / 4 = ci by omega, show (4 * ci + k) % 4 = k by omega]

/-- The bytes of a stretch inside one container. -/
theorem spBytes_inContainer (mem : Member) (ci : Nat) {k n : Nat} (hk : k + n ≤ 4) :
    ((List.range n).map fun i => mem.spByte (4 * ci + k + i)) =
      (List.range n).map fun i => (contByte (mem.cont ci) (k + i), (mem.cont ci).valid, (mem.cont ci).valid && (mem.cont ci).poison) := by
  apply List.map_congr_left
  intro i hi
  have hi : i < n := by simpa using hi
  rw [Nat.add_assoc, spByte_inContainer mem (by omega)]

/-- A load inside one container reads its bytes, or 0 poisoned where it is invalid. -/
theorem apertureLoad_one (mem : Member) (ci : Nat) {k n : Nat} (hk : k + n ≤ 4) (hn : 0 < n) : mem.apertureLoad (4 * ci + k) n =
    if (mem.cont ci).valid then ((mem.cont ci).data.toNat / 2 ^ (8 * k) % 2 ^ (8 * n), (mem.cont ci).poison) else (0, true) := by
  have hall (b : Bool) : ((List.range n).all fun _ => b) = b := by cases b <;> simp [show ∃ x, x < n from ⟨0, hn⟩]
  have hany (b : Bool) : ((List.range n).any fun _ => b) = b := by cases b <;> simp [show ∃ x, x < n from ⟨0, hn⟩]
  unfold Member.apertureLoad
  dsimp only
  rw [spBytes_inContainer mem ci hk]
  simp only [List.all_map, List.any_map, List.map_map, Function.comp_def, hall, hany, leNat_contBytes]
  cases hv : (mem.cont ci).valid <;> rfl

/-- A load of two containers puts the second above the first. -/
theorem apertureLoad_two (mem : Member) (ci : Nat) : mem.apertureLoad (4 * ci) 8 =
    if (mem.cont ci).valid && (mem.cont (ci + 1)).valid then
      ((mem.cont ci).data.toNat + 2 ^ 32 * (mem.cont (ci + 1)).data.toNat, (mem.cont ci).poison || (mem.cont (ci + 1)).poison)
    else (0, true) := by
  have hbytes : ((List.range 8).map fun i => mem.spByte (4 * ci + i)) =
      ((List.range 4).map fun i => mem.spByte (4 * ci + 0 + i)) ++ (List.range 4).map fun i => mem.spByte (4 * (ci + 1) + 0 + i) := by
    rw [show List.range 8 = List.range (4 + 4) from rfl, List.range_add, List.map_append, List.map_map]
    congr 2
    funext i
    exact congrArg mem.spByte (by dsimp only; omega)
  have hdata (c : Container) : leNat ((List.range 4).map fun i => contByte c (0 + i)) = c.data.toNat := by
    have := c.data.isLt
    rw [leNat_contBytes, Nat.mul_zero, Nat.pow_zero, Nat.div_one, Nat.mod_eq_of_lt this]
  unfold Member.apertureLoad
  dsimp only
  rw [hbytes, spBytes_inContainer mem ci (by decide), spBytes_inContainer mem (ci + 1) (by decide)]
  simp only [List.all_append, List.any_append, List.map_append, List.map_map, Function.comp_def, leNat_append, hdata, List.all_map,
    List.any_map, List.length_map, List.length_range]
  cases hv : (mem.cont ci).valid <;> cases hw : (mem.cont (ci + 1)).valid <;> simp [List.range_succ]

/-- An aligned load through the aperture reads by containers. -/
theorem apertureLoad_eq (mem : Member) {t : Nat} (hn : n = 1 ∨ n = 2 ∨ n = 4 ∨ n = 8) (ht : t % n = 0) :
    mem.apertureLoad t n = scratchValue mem t n := by
  unfold scratchValue
  dsimp only
  by_cases h8 : n = 8
  · subst h8
    rw [if_pos rfl, ← apertureLoad_two, show 4 * (t / 4) = t by omega]
  · have hk : t % 4 + n ≤ 4 := by obtain rfl | rfl | rfl | rfl := hn <;> omega
    rw [if_neg h8, ← apertureLoad_one mem (t / 4) hk (by omega), show 4 * (t / 4) + t % 4 = t by omega]

/-- What the scratchpad holds in n bytes is a number of n bytes. -/
theorem scratchValue_lt (mem : Member) {t : Nat} (hn : n = 1 ∨ n = 2 ∨ n = 4 ∨ n = 8) : (scratchValue mem t n).1 < 2 ^ (8 * n) := by
  have hc := (mem.cont (t / 4)).data.isLt
  have hd := (mem.cont (t / 4 + 1)).data.isLt
  unfold scratchValue
  dsimp only
  split_ifs with h8
  · subst h8; dsimp only; omega
  · positivity
  · exact Nat.mod_lt _ (by positivity)
  · positivity

/-- What LoadedAs describes is a number of n bytes. -/
theorem LoadedAs.leNat_lt (h : LoadedAs s tk mem va pa n bytes) : leNat bytes < 2 ^ (8 * n) := by
  have hlen : bytes.length ≤ n := by
    rw [h.bytes, overlay, List.length_map, List.length_range, coreBytes, overlay, List.length_map, List.length_range]
    cases mem.line? pa with
    | none => simp [length_load]
    | some k => simp
  refine (Machine.leNat_lt bytes).trans_le ?_
  rw [Nat.pow_mul]
  exact Nat.pow_le_pow_right (by decide) hlen

/-! ## The load words (R126) -/

/-- How a load extends its number. -/
def LoadForm.ext (f : LoadForm) : Nat → W64 := if f.signed then sext f.bytes else zext

theorem exec_loadForm (h : loadForm i = some f) (s : State) : exec i s = loadWord f.rd f.rs f.imm f.bytes f.ext s := by
  unfold loadForm at h
  split at h <;> cases h <;> rfl

theorem loadForm_bytes (h : loadForm i = some f) : f.bytes = 1 ∨ f.bytes = 2 ∨ f.bytes = 4 ∨ f.bytes = 8 := by
  unfold loadForm at h
  split at h <;> cases h <;> simp

/-- Sign extension of a number of n bytes. -/
theorem sext_eq {v : Nat} (hn : 0 < n) (hv : v < 2 ^ (8 * n)) : sext n v = loadExtended true n v := by
  have hpow : 2 ^ (8 * n) = 2 * 2 ^ (8 * n - 1) := by rw [← Nat.pow_succ']; congr 1; omega
  have hi : (BitVec.ofNat (8 * n) v).toInt = if 2 ^ (8 * n - 1) ≤ v then (v : Int) - 2 ^ (8 * n) else v := by
    rw [BitVec.toInt_eq_toNat_cond, BitVec.toNat_ofNat, Nat.mod_eq_of_lt hv]
    push_cast
    split_ifs <;> omega
  show BitVec.ofInt 64 (BitVec.ofNat (8 * n) v).toInt = _
  rw [hi, loadExtended]
  by_cases hs : 2 ^ (8 * n - 1) ≤ v <;> simp [hs]

/-- Every load writes its number zero- or sign-extended. -/
theorem loadForm_ext (h : loadForm i = some f) {v : Nat} (hv : v < 2 ^ (8 * f.bytes)) : f.ext v = loadExtended f.signed f.bytes v := by
  have hb := loadForm_bytes h
  unfold LoadForm.ext
  cases f.signed with
  | false => simp [loadExtended, zext]
  | true => exact sext_eq (by omega) hv

section
variable {b : Member} (h : Current s tk mem) (hf : loadForm i = some f) (hp : (mem.rd f.rs).poison = false)
  (ha : (effAddr mem f.rs f.imm).toNat % f.bytes = 0)
include h hf hp ha

/-- A load of an unpoisoned base and an aligned address writes what loadAt reads. -/
theorem exec_load_ok {v : Nat × Bool} (hl : loadAt s tk mem (effAddr mem f.rs f.imm) f.bytes = ⟨.ok v, b, s1⟩) :
    exec i s = .next (afterC s1 (b.wr f.rd ⟨f.ext v.1, v.2⟩)) := by
  rw [exec_loadForm hf, loadWord_cur h, if_neg (by simp [hp]), if_neg (by simp [ha])]
  simp only [hl, cWrite_eq]

/-- It takes the fault that loadAt meets. -/
theorem exec_load_error {t : Trap} (hl : loadAt s tk mem (effAddr mem f.rs f.imm) f.bytes = ⟨.error t, b, s1⟩) :
    exec i s = .next (faulted s1 b t.cause t.addr t.aux) := by
  rw [exec_loadForm hf, loadWord_cur h, if_neg (by simp [hp]), if_neg (by simp [ha])]
  simp only [hl, raiseTrap_eq]

/-- A load that an access of virtual memory answers. -/
theorem exec_load_readC_ok {bs : List Byte} {p : Bool} (hv : inAperture (effAddr mem f.rs f.imm).toNat = false)
    (hl : readC s tk mem (effAddr mem f.rs f.imm) f.bytes = ⟨.ok (bs, p), b, s1⟩) :
    exec i s = .next (afterC s1 (b.wr f.rd ⟨f.ext (leNat bs), p⟩)) :=
  exec_load_ok (v := (leNat bs, p)) h hf hp ha (by simp [loadAt, loadVirtual, hv, hl])

/-- A load that an access of virtual memory refuses. -/
theorem exec_load_readC_error {t : Trap} (hv : inAperture (effAddr mem f.rs f.imm).toNat = false)
    (hl : readC s tk mem (effAddr mem f.rs f.imm) f.bytes = ⟨.error t, b, s1⟩) :
    exec i s = .next (faulted s1 b t.cause t.addr t.aux) :=
  exec_load_error h hf hp ha (by simp [loadAt, loadVirtual, hv, hl])

end
end

/-- Settles O4: through the aperture a load reads by containers (apertureLoad_eq); from memory it reads what LoadedAs says
(readC_of_loadedAs). -/
theorem loadsRead : Obligations.LoadsRead := by
  unfold Obligations.LoadsRead
  refine ⟨fun s tk mem i f h hf hp ha hv hin => ?_, ?_⟩
  · have hb := loadForm_bytes hf
    have ht : apertureOf (effAddr mem f.rs f.imm) % f.bytes = 0 := by
      unfold apertureOf
      obtain h | h | h | h := hb <;> rw [h] at ha ⊢ <;> omega
    rw [← loadForm_ext hf (scratchValue_lt mem hb), ← apertureLoad_eq mem hb ht]
    exact exec_load_ok h hf hp ha (by simp [loadAt, hv, apertureCheck, hin])
  · intro s tk mem i f pa bytes h hf a hp ha hv hl
    obtain ⟨s1, x, t, h1, hr⟩ := readC_of_loadedAs hl
    refine ⟨s1, { mem with l1 := x, tlbC := t }, h1.only, rfl, ?_⟩
    rw [← loadForm_ext hf hl.leNat_lt]
    exact exec_load_readC_ok h hf hp ha hv hr

end Sys2Proof.Machine

namespace Sys2Proof.Machine
section
variable {s s1 s2 : State} {tk : Task} {mem b : Member} {l : Leaf} {pa n : Nat} {a v : W64} {i : Instr} {f : StoreForm}

/-! ## The store words (R126, R129) -/

theorem exec_storeForm (h : storeForm i = some f) (s : State) : exec i s = storeWord i f.rt f.rs f.imm f.bytes s := by
  unfold storeForm at h
  split at h <;> cases h <;> rfl

/-- A store of good operands: to the scratchpad or to memory, by its address. -/
def storeAt (s : State) (tk : Task) (mem : Member) (a : W64) (n : Nat) (v : Scalar) : Acc Bool :=
  if inAperture a.toNat then storeAperture s tk mem a n v else storeVirtual s tk mem a n v.val

/-- A store faults on a poisoned base, and to memory on poisoned data. -/
theorem exec_store_poisoned (h : Current s tk mem) (hf : storeForm i = some f)
    (hp : ((mem.rd f.rs).poison || ((mem.rd f.rt).poison && !inAperture (effAddr mem f.rs f.imm).toNat)) = true) :
    exec i s = .next (faulted s mem cPoison 0 0) := by
  simp only [exec_storeForm hf, storeWord, onMember_cur h, hp, if_true, raise_eq]

/-- Good data, or an address in the aperture: the check of R129 passes. -/
theorem not_poisonedToMemory {p v : Bool} (h : p = false ∨ v = true) : (p && !v) = false := by
  obtain rfl | rfl := h
  · rfl
  · exact Bool.and_false p

section
variable (h : Current s tk mem) (hf : storeForm i = some f) (hp : (mem.rd f.rs).poison = false)
  (hq : (mem.rd f.rt).poison = false ∨ inAperture (effAddr mem f.rs f.imm).toNat = true)
include h hf hp hq

theorem exec_store_misaligned (ha : (effAddr mem f.rs f.imm).toNat % f.bytes ≠ 0) :
    exec i s = .next (faulted s mem cAlignment (effAddr mem f.rs f.imm) 0) := by
  have hq := not_poisonedToMemory hq
  simp only [exec_storeForm hf, storeWord, onMember_cur h, hp, hq, Bool.or_false, Bool.false_eq_true, if_false, if_pos ha, raise_eq]

variable (ha : (effAddr mem f.rs f.imm).toNat % f.bytes = 0)
include ha

/-- A store that storeAt performs completes. -/
theorem exec_store_ok (hs : storeAt s tk mem (effAddr mem f.rs f.imm) f.bytes (mem.rd f.rt) = ⟨.ok true, b, s1⟩) :
    exec i s = .next (afterC s1 b) := by
  have hq := not_poisonedToMemory hq
  unfold storeAt at hs
  simp only [exec_storeForm hf, storeWord, onMember_cur h, hp, hq, Bool.or_false, Bool.false_eq_true, if_false, ha, ne_eq,
    not_true_eq_false, hs, cDone_eq]

/-- A store that storeAt has wait stalls. -/
theorem exec_store_wait (hs : storeAt s tk mem (effAddr mem f.rs f.imm) f.bytes (mem.rd f.rt) = ⟨.ok false, b, s1⟩) :
    exec i s = .next (s1.put { b with stall := some i }) := by
  have hq := not_poisonedToMemory hq
  unfold storeAt at hs
  simp only [exec_storeForm hf, storeWord, onMember_cur h, hp, hq, Bool.or_false, Bool.false_eq_true, if_false, ha, ne_eq,
    not_true_eq_false, hs, cStall_eq]

/-- A store takes the fault that storeAt meets. -/
theorem exec_store_error {t : Trap} (hs : storeAt s tk mem (effAddr mem f.rs f.imm) f.bytes (mem.rd f.rt) = ⟨.error t, b, s1⟩) :
    exec i s = .next (faulted s1 b t.cause t.addr t.aux) := by
  have hq := not_poisonedToMemory hq
  unfold storeAt at hs
  simp only [exec_storeForm hf, storeWord, onMember_cur h, hp, hq, Bool.or_false, Bool.false_eq_true, if_false, ha, ne_eq,
    not_true_eq_false, hs, raiseTrap_eq]

end

/-! ## Stores to virtual memory (R129, R355, R364) -/

/-- A page taken changes nothing but the owners (R355). -/
theorem takeOwn_eq {o : Owner} (h : s.takeOwn o pa = some s2) : s2 = { s with own := s2.own } := by
  unfold State.takeOwn at h
  dsimp only at h
  split at h
  · cases h; rfl
  · split_ifs at h <;> cases h <;> rfl
  · split at h
    · cases h; rfl
    · split_ifs at h
      cases h; rfl

/-- Reads leave open or refuse the same pages. -/
theorem Reads.takeOwn (h : Reads s s1) (o : Owner) (pa : Nat) :
    s1.takeOwn o pa = (s.takeOwn o pa).map fun s2 => { s1 with own := s2.own } := by
  have ho : s1.own = s.own := by rw [h.eq]
  unfold State.takeOwn
  dsimp only
  rw [ho]
  split
  · rfl
  · split_ifs <;> rfl
  · split
    · rfl
    · split_ifs
      · rw [Option.map_some, ← ho]
      · rfl

theorem storeVirtual_high (ha : 2 ^ 57 ≤ a.toNat) (n : Nat) (v : W64) :
    storeVirtual s tk mem a n v = ⟨.error ⟨cTranslation, a, 0⟩, mem, s⟩ := if_pos ha

section
variable (ha : a.toNat < 2 ^ 57)
include ha

section
variable (h : unmapped s tk mem a.toNat)
include h

/-- A store without a translation whose walk met a bad entry is a memory fault. -/
theorem storeVirtual_bad_walk (hm : s.missCause tk.ptroot a.toNat = cMemory) (n : Nat) (v : W64) : ∃ (s1 : State) (t : List TlbEntry),
    Reads s s1 ∧ storeVirtual s tk mem a n v = ⟨.error ⟨cMemory, a, 0⟩, { mem with tlbC := t }, s1⟩ := by
  obtain ⟨s1, t, h1, ht⟩ := translateFor_of_unmapped h
  exact ⟨s1, t, h1, by simp only [storeVirtual, ge_iff_le, if_neg (Nat.not_le.mpr ha), ht, hm, if_true]⟩

variable (hm : s.missCause tk.ptroot a.toNat ≠ cMemory) (hr : tk.replicated = false)
include hm hr

/-- Another store without a translation enters the side log where it has room. -/
theorem storeVirtual_logged (hl : s.logRoom mem.core = true) (n : Nat) (v : W64) : ∃ (s1 : State) (t : List TlbEntry), Reads s s1 ∧
    storeVirtual s tk mem a n v = ⟨.ok true, { mem with tlbC := t },
      (s1.logWrite s.cur.task s.cur.member tk { mem with tlbC := t } a.toNat (leBytes n v.toNat) .write none).recordFault s.cur.task
        (s.info { mem with tlbC := t } cTranslation 2 a 0)⟩ := by
  obtain ⟨s1, t, h1, ht⟩ := translateFor_of_unmapped h
  refine ⟨s1, t, h1, ?_⟩
  simp only [storeVirtual, ge_iff_le, if_neg (Nat.not_le.mpr ha), ht, hm, hr, h1.logRoom, hl, h1.info, if_false, Bool.not_true,
    Bool.false_eq_true]

/-- With the side log full it waits. -/
theorem storeVirtual_waits (hl : s.logRoom mem.core = false) (n : Nat) (v : W64) : ∃ (s1 : State) (t : List TlbEntry), Reads s s1 ∧
    storeVirtual s tk mem a n v = ⟨.ok false, { mem with tlbC := t }, s1⟩ := by
  obtain ⟨s1, t, h1, ht⟩ := translateFor_of_unmapped h
  refine ⟨s1, t, h1, ?_⟩
  simp only [storeVirtual, ge_iff_le, if_neg (Nat.not_le.mpr ha), ht, hm, hr, h1.logRoom, hl, if_false, if_true, Bool.not_false,
    Bool.false_eq_true]

end

section
variable (h : mapped s tk mem a.toNat l)
include h

theorem storeVirtual_unwritable (hw : l.w = false) (n : Nat) (v : W64) : ∃ (s1 : State) (t : List TlbEntry),
    Reads s s1 ∧ storeVirtual s tk mem a n v = ⟨.error ⟨cProtection, a, 0⟩, { mem with tlbC := t }, s1⟩ := by
  obtain ⟨s1, t, h1, ht⟩ := translateFor_of_mapped h
  refine ⟨s1, t, h1, ?_⟩
  simp only [storeVirtual, ge_iff_le, if_neg (Nat.not_le.mpr ha), ht, hw, Bool.not_false, if_true]

variable (hw : l.w = true)
include hw

theorem storeVirtual_bad (hc : s.canWrite (l.pa a.toNat) n = false) (v : W64) : ∃ (s1 : State) (t : List TlbEntry),
    Reads s s1 ∧ storeVirtual s tk mem a n v = ⟨.error ⟨cMemory, a, 0⟩, { mem with tlbC := t }, s1⟩ := by
  obtain ⟨s1, t, h1, ht⟩ := translateFor_of_mapped h
  refine ⟨s1, t, h1, ?_⟩
  simp only [storeVirtual, ge_iff_le, if_neg (Nat.not_le.mpr ha), ht, hw, h1.canWrite, hc, Bool.not_true, Bool.not_false, if_true,
    Bool.false_eq_true, if_false]

variable (hc : s.canWrite (l.pa a.toNat) n = true)
include hc

/-- A piece that another member owns refuses the store. -/
theorem storeVirtual_shared (ho : l.owned (l.pa a.toNat) = true) (hn : s.takeOwn ⟨s.cur.task, mem.rank⟩ (l.pa a.toNat) = none) (v : W64) :
    ∃ (s1 : State) (t : List TlbEntry), Reads s s1 ∧
      storeVirtual s tk mem a n v = ⟨.error ⟨cSharing, a, 0⟩, { mem with tlbC := t }, s1.splitOwn (l.pa a.toNat)⟩ := by
  obtain ⟨s1, t, h1, ht⟩ := translateFor_of_mapped h
  refine ⟨s1, t, h1, ?_⟩
  simp only [storeVirtual, ge_iff_le, if_neg (Nat.not_le.mpr ha), ht, hw, h1.canWrite, hc, ho, h1.takeOwn, hn, Option.map_none,
    Bool.not_true, if_true, Bool.false_eq_true, if_false]

/-- Otherwise the bytes wait to be performed, of a task with REPL = 0. -/
theorem storeVirtual_waiting (hr : tk.replicated = false)
    (ho : (if l.owned (l.pa a.toNat) then s.takeOwn ⟨s.cur.task, mem.rank⟩ (l.pa a.toNat) else some s) = some s2) (v : W64) :
    ∃ (s1 : State) (x : List Line) (t : List TlbEntry), Reads s s1 ∧ s2 = { s with own := s2.own } ∧
      storeVirtual s tk mem a n v = ⟨.ok true,
        { mem with l1 := x, tlbC := t,
                   stores := mem.stores ++ [⟨l.pa a.toNat, a.toNat, leBytes n v.toNat, s.cycle + 1 + Config.drainDelay s.cycle, s.nextLog⟩] },
        { s1 with own := s2.own }⟩ := by
  obtain ⟨s1, t, h1, ht⟩ := translateFor_of_mapped h
  have hs2 : s2 = { s with own := s2.own } := by
    split at ho
    · exact takeOwn_eq ho
    · cases ho; rfl
  have ho1 : (if l.owned (l.pa a.toNat) then s1.takeOwn ⟨s.cur.task, mem.rank⟩ (l.pa a.toNat) else some s1) =
      some { s1 with own := s2.own } := by
    split at ho
    · next h => rw [if_pos h, h1.takeOwn, ho, Option.map_some]
    · next h =>
      cases ho
      have hown : s1.own = s.own := by rw [h1.eq]
      rw [if_neg h, ← hown]
  refine ⟨s1, (({ mem with tlbC := t } : Member).updateLine (l.pa a.toNat) (leBytes n v.toNat)).l1, t, h1, hs2, ?_⟩
  have hcycle := h1.cycle
  have hlog : s1.nextLog = s.nextLog := by rw [h1.eq]
  simp only [storeVirtual, ge_iff_le, if_neg (Nat.not_le.mpr ha), ht, hw, h1.canWrite, hc, ho1, hr, hcycle, hlog,
    Bool.not_true, Bool.false_eq_true, if_false, Member.updateLine]

end
end

end
end Sys2Proof.Machine

namespace Sys2Proof.Machine
section
variable {s s1 : State} {tk : Task} {mem b : Member} {a : W64} {n : Nat} {v : Scalar} {i : Instr} {f : LoadForm} {c x : Nat} {e : W64}

/-! ## Where loads and stores fault (R126 to R129) -/

theorem exec_load_poisoned (h : Current s tk mem) (hf : loadForm i = some f) (hp : (mem.rd f.rs).poison = true) :
    exec i s = .next (faulted s mem cPoison 0 0) := by
  rw [exec_loadForm hf, loadWord_cur h, if_pos hp]

theorem exec_load_misaligned (h : Current s tk mem) (hf : loadForm i = some f) (hp : (mem.rd f.rs).poison = false)
    (ha : (effAddr mem f.rs f.imm).toNat % f.bytes ≠ 0) : exec i s = .next (faulted s mem cAlignment (effAddr mem f.rs f.imm) 0) := by
  rw [exec_loadForm hf, loadWord_cur h, if_neg (by simp [hp]), if_pos ha]

/-- A load that meets a fault after reads of tables and memory shows their effect on the cached TLB only. -/
theorem exec_load_fault_of_reads (h : Current s tk mem) (hf : loadForm i = some f) (hp : (mem.rd f.rs).poison = false)
    (ha : (effAddr mem f.rs f.imm).toNat % f.bytes = 0) (hv : inAperture (effAddr mem f.rs f.imm).toNat = false)
    (hr : ∃ (s1 : State) (t : List TlbEntry), Reads s s1 ∧
      readC s tk mem (effAddr mem f.rs f.imm) f.bytes = ⟨.error ⟨c, e, x⟩, { mem with tlbC := t }, s1⟩) :
    ∃ (s1 : State) (b : Member), readsOnly s s1 ∧ b = { mem with tlbC := b.tlbC } ∧
      exec i s = .next (faulted s1 b c e x) := by
  obtain ⟨s1, t, h1, hr⟩ := hr
  exact ⟨s1, { mem with tlbC := t }, h1.only, rfl, exec_load_readC_error h hf hp ha hv hr⟩

theorem storeAt_of_memory (ha : inAperture a.toNat = false) : storeAt s tk mem a n v = storeVirtual s tk mem a n v.val := by
  rw [storeAt, if_neg (by simp [ha])]

theorem storeAt_outside (ha : inAperture a.toNat = true) (ho : inAlloc tk.spadN (apertureOf a) = false) :
    storeAt s tk mem a n v = ⟨.error ⟨cBounds, BitVec.ofNat 64 (apertureOf a), 0⟩, mem, s⟩ := by
  simp [storeAt, ha, storeAperture, apertureCheck, ho]

section
variable (ha : inAperture a.toNat = true) (ho : inAlloc tk.spadN (apertureOf a) = true)
include ha ho

theorem storeAt_frozen (hz : mem.frozen.contains (apertureOf a / 512) = true) :
    storeAt s tk mem a n v = ⟨.error ⟨cSchedule, 0, 11⟩, mem, s⟩ := by
  rw [storeAt, if_pos ha, storeAperture, apertureCheck, if_pos ho]
  exact if_pos hz

/-- A store through the aperture writes the scratchpad at once (R127). -/
theorem storeAt_inside (hz : mem.frozen.contains (apertureOf a / 512) = false) : storeAt s tk mem a n v =
    ⟨.ok true, mem.putSpBytes (apertureOf a) ((leBytes n v.val.toNat).map fun b => (b, v.poison)), s⟩ := by
  rw [storeAt, if_pos ha, storeAperture, apertureCheck, if_pos ho]
  exact if_neg (by simp only [hz, Bool.false_eq_true, not_false_eq_true])

end

/-- A store to memory that meets a fault after reads of tables shows their effect on the cached TLB only. -/
theorem exec_store_fault_of_reads {f : StoreForm} (h : Current s tk mem) (hf : storeForm i = some f) (hp : (mem.rd f.rs).poison = false)
    (hq : (mem.rd f.rt).poison = false) (ha : (effAddr mem f.rs f.imm).toNat % f.bytes = 0)
    (hv : inAperture (effAddr mem f.rs f.imm).toNat = false)
    (hr : ∃ (s1 : State) (t : List TlbEntry), Reads s s1 ∧
      storeVirtual s tk mem (effAddr mem f.rs f.imm) f.bytes (mem.rd f.rt).val = ⟨.error ⟨c, e, x⟩, { mem with tlbC := t }, s1⟩) :
    ∃ (s1 : State) (b : Member), readsOnly s s1 ∧ b = { mem with tlbC := b.tlbC } ∧
      exec i s = .next (faulted s1 b c e x) := by
  obtain ⟨s1, t, h1, hr⟩ := hr
  exact ⟨s1, { mem with tlbC := t }, h1.only, rfl, exec_store_error h hf hp (.inl hq) ha ((storeAt_of_memory hv).trans hr)⟩

end

/-- Settles O5: loads and stores check the base, then the address; what follows is loadAt and storeAt's, with the faults of
readC and storeVirtual and the side log's record for a page without a translation. -/
theorem loadAndStoreFaults : Obligations.LoadAndStoreFaults := by
  unfold Obligations.LoadAndStoreFaults
  refine ⟨?loads, ?stores, ?unmappedStores⟩
  case loads =>
    intro s tk mem i f h hf a
    refine ⟨exec_load_poisoned h hf, exec_load_misaligned h hf, ?_, ?_, ?_, ?_⟩
    · intro hp ha hv ho
      exact exec_load_error (t := ⟨cBounds, BitVec.ofNat 64 (apertureOf a), 0⟩) h hf hp ha
        (by simp [a, loadAt, hv, apertureCheck, ho])
    · exact fun hp ha hv hm => exec_load_fault_of_reads h hf hp ha hv (readC_of_unmapped hm f.bytes)
    · exact fun l hp ha hv hm hr => exec_load_fault_of_reads h hf hp ha hv (readC_of_unreadable hm hr f.bytes)
    · exact fun l hp ha hv hm hr hbad hrule hmiss =>
        exec_load_fault_of_reads h hf hp ha hv (readC_of_bad hm hr (loadForm_bytes hf) ha hbad hrule hmiss)
  case stores =>
    intro s tk mem i f h hf a good
    refine ⟨?_, ?_, ?_, ?_, ?_, ?_, ?_, ?_, ?_⟩
    · exact fun hp => exec_store_poisoned h hf (by simp [hp])
    · exact fun hp hq hv => exec_store_poisoned h hf (by simp [hq, show inAperture (effAddr mem f.rs f.imm).toNat = false from hv])
    · exact fun hp hq ha => exec_store_misaligned h hf hp (.inl hq) ha
    · exact fun hp ha hv ho => exec_store_error h hf hp (.inr hv) ha (storeAt_outside hv ho)
    · exact fun hp ha hv ho hz => exec_store_error h hf hp (.inr hv) ha (storeAt_frozen hv ho hz)
    · exact fun ⟨hp, hq, ha, hv⟩ hhigh =>
        exec_store_error h hf hp (.inl hq) ha ((storeAt_of_memory hv).trans (storeVirtual_high hhigh _ _))
    · exact fun l ⟨hp, hq, ha, hv⟩ hlow hm hw => exec_store_fault_of_reads h hf hp hq ha hv (storeVirtual_unwritable hlow hm hw _ _)
    · exact fun l ⟨hp, hq, ha, hv⟩ hlow hm hw hc => exec_store_fault_of_reads h hf hp hq ha hv (storeVirtual_bad hlow hm hw hc _)
    · intro l ⟨hp, hq, ha, hv⟩ hlow hm hw hc ho hn
      obtain ⟨s1, x, h1, hr⟩ := storeVirtual_shared hlow hm hw hc ho hn (mem.rd f.rt).val
      exact ⟨s1, { mem with tlbC := x }, h1.only, rfl, exec_store_error h hf hp (.inl hq) ha ((storeAt_of_memory hv).trans hr)⟩
  case unmappedStores =>
    intro s tk mem i f h hf a bytes hp hq ha hv hlow hm hr
    have notMemory (hc : s.missCause tk.ptroot a.toNat = cTranslation) : s.missCause tk.ptroot a.toNat ≠ cMemory := by
      rw [hc]; decide
    refine ⟨?_, ?_, ?_⟩
    · exact fun hc => exec_store_fault_of_reads h hf hp hq ha hv (storeVirtual_bad_walk hlow hm hc _ _)
    · intro hc hl
      obtain ⟨s1, x, h1, hs⟩ := storeVirtual_logged hlow hm (notMemory hc) hr hl f.bytes (mem.rd f.rt).val
      exact ⟨s1, { mem with tlbC := x }, h1.only, rfl, exec_store_ok h hf hp (.inl hq) ha ((storeAt_of_memory hv).trans hs)⟩
    · intro hc hl
      obtain ⟨s1, x, h1, hs⟩ := storeVirtual_waits hlow hm (notMemory hc) hr hl f.bytes (mem.rd f.rt).val
      exact ⟨s1, { mem with tlbC := x, stall := some i }, h1.only, rfl,
        exec_store_wait h hf hp (.inl hq) ha ((storeAt_of_memory hv).trans hs)⟩

end Sys2Proof.Machine

namespace Sys2Proof.Machine
section
variable {mem : Member} {s s1 s2 : State}

/-! ## Bytes of the scratchpad (R58, R127) -/

/-- A key set leaves what the map finds under every other key. -/
theorem SMap.find_put_ne {α : Type} (m : SMap α) {k j : Nat} (a : α) (h : j ≠ k) : (m.put k a).find j = m.find j := by
  induction m with
  | nil => simp [SMap.put, SMap.find, h.symm]
  | cons e r ih =>
    obtain ⟨i, b⟩ := e
    rw [SMap.put]
    by_cases hi : i = k
    · subst hi; simp [SMap.find, h.symm]
    · by_cases hk : k < i
      · by_cases hj : j < k
        · simp [hi, hk, SMap.find, h.symm, hj, hj.trans hk, (hj.trans hk).ne']
        · simp [hi, hk, SMap.find, h.symm, hj]
      · simp [hi, hk, SMap.find, ih]

/-- A container after another one, not the default, was set. -/
theorem cont_setCont (mem : Member) (ci cj : Nat) {c : Container} (hc : c.valid = true) :
    (mem.setCont ci c).cont cj = if cj = ci then c else mem.cont cj := by
  have hne : c ≠ Container.none := by rintro rfl; cases hc
  unfold Member.cont Member.setCont
  simp only [if_neg hne]
  split_ifs with h
  · rw [h, SMap.find_put_same, Option.getD_some]
  · rw [SMap.find_put_ne _ _ h]

theorem cont_putSpByte (mem : Member) (a ci : Nat) (v : Byte) (p : Bool) :
    (mem.putSpByte a v p false).cont ci = if ci = a / 4 then putContByte (mem.cont (a / 4)) (a % 4) v p else mem.cont ci := by
  simp only [Member.putSpByte, Bool.false_and, Bool.or_false]
  exact cont_setCont mem _ _ rfl

/-- The bytes of a container after one of them was written: the others of an invalid container read as 0. -/
theorem contByte_putContByte (c : Container) {i j : Nat} (hi : i < 4) (hj : j < 4) (v : Byte) (p : Bool) :
    contByte (putContByte c i v p) j = if j = i then v else if c.valid then contByte c j else 0 := by
  unfold contByte putContByte
  apply BitVec.eq_of_getLsbD_eq
  intro k hk
  have hmask : (0xFF#32 : BitVec 32) = BitVec.setWidth 32 (BitVec.allOnes 8) := by decide
  simp only [hmask, BitVec.getLsbD_extractLsb', BitVec.getLsbD_or, BitVec.getLsbD_and, BitVec.getLsbD_not, BitVec.getLsbD_shiftLeft,
    BitVec.getLsbD_setWidth, BitVec.getLsbD_allOnes, BitVec.zeroExtend]
  have hb : 8 * j + k < 32 := by omega
  by_cases h : j = i
  · subst h
    have hk32 : k < 32 := by omega
    simp [hk, hb, hk32]
  · rw [if_neg h]
    obtain hout | hout : 8 * j + k < 8 * i ∨ 8 ≤ 8 * j + k - 8 * i := by omega
    · cases c.valid <;> simp [hk, hb, hout]
    · have hv := BitVec.getLsbD_of_ge v _ hout
      cases c.valid <;> simp [hk, hb, hv, Nat.not_lt.mpr hout]

theorem container_eq {c : Container} {p : Bool} (hv : c.valid = true) (hp : c.poison = p) : c = ⟨c.data, true, p⟩ := by
  subst hp
  rw [← hv]

/-- Whether n bytes from t touch a container. -/
def touches (t n ci : Nat) : Bool := (List.range n).any fun k => (t + k) / 4 == ci

theorem touches_succ (t n ci : Nat) : touches t (n + 1) ci = (t / 4 == ci || touches (t + 1) n ci) := by
  simp only [touches, List.range_succ_eq_map, List.any_cons, List.any_map, Nat.add_zero, Function.comp_def, Nat.succ_eq_add_one,
    Nat.add_assoc, Nat.add_comm 1]

/-- Bytes written change the scratchpad and the note of it. -/
theorem putSpBytes_eq (p : Bool) (bs : List Byte) (t : Nat) (mem : Member) : mem.putSpBytes t (bs.map fun v => (v, p)) =
    { mem with spad := (mem.putSpBytes t (bs.map fun v => (v, p))).spad, wrote := (mem.putSpBytes t (bs.map fun v => (v, p))).wrote } := by
  induction bs generalizing t mem with
  | nil => rfl
  | cons v bs ih => exact ih (t + 1) (mem.putSpByte t v p false)

/-- A container that no byte touches stays. -/
theorem cont_putSpBytes_untouched (p : Bool) (bs : List Byte) (t ci : Nat) (mem : Member) (h : touches t bs.length ci = false) :
    (mem.putSpBytes t (bs.map fun v => (v, p))).cont ci = mem.cont ci := by
  induction bs generalizing t mem with
  | nil => rfl
  | cons v bs ih =>
    rw [List.length_cons, touches_succ, Bool.or_eq_false_iff, beq_eq_false_iff_ne] at h
    obtain ⟨h0, h⟩ := h
    rw [List.map_cons, Member.putSpBytes, ih _ _ h, cont_putSpByte, if_neg h0.symm]

/-- A container that a byte touches, or that had these tags, is valid with the poison written. -/
theorem tags_putSpBytes (p : Bool) (bs : List Byte) (t ci : Nat) (mem : Member)
    (h : touches t bs.length ci = true ∨ (mem.cont ci).valid = true ∧ (mem.cont ci).poison = p) :
    ((mem.putSpBytes t (bs.map fun v => (v, p))).cont ci).valid = true ∧ ((mem.putSpBytes t (bs.map fun v => (v, p))).cont ci).poison = p := by
  induction bs generalizing t mem with
  | nil => exact h.resolve_left (by simp [touches])
  | cons v bs ih =>
    apply ih (t + 1) (mem.putSpByte t v p false)
    rw [cont_putSpByte]
    split_ifs with hci
    · exact .inr ⟨rfl, rfl⟩
    · refine h.imp_left fun h => ?_
      rw [List.length_cons, touches_succ] at h
      simpa [Ne.symm hci] using h

/-- The bytes of the scratchpad after bytes were written from t. -/
theorem contByte_putSpBytes (p : Bool) (bs : List Byte) (t x : Nat) (mem : Member) :
    contByte ((mem.putSpBytes t (bs.map fun v => (v, p))).cont (x / 4)) (x % 4) =
      if t ≤ x ∧ x < t + bs.length then bs.getD (x - t) 0
      else if (mem.cont (x / 4)).valid || !touches t bs.length (x / 4) then contByte (mem.cont (x / 4)) (x % 4) else 0 := by
  induction bs generalizing t mem with
  | nil => simp [touches, Member.putSpBytes]
  | cons v bs ih =>
    have hx : x % 4 < 4 := Nat.mod_lt _ (by decide)
    have ht : t % 4 < 4 := Nat.mod_lt _ (by decide)
    rw [List.map_cons, Member.putSpBytes, ih, cont_putSpByte, List.length_cons, touches_succ]
    by_cases hin : t + 1 ≤ x ∧ x < t + 1 + bs.length
    · have : x - t = x - (t + 1) + 1 := by omega
      rw [if_pos hin, if_pos (by omega), this, List.getD_cons_succ]
    · rw [if_neg hin]
      by_cases hc : x / 4 = t / 4
      · rw [if_pos hc, contByte_putContByte _ ht hx]
        by_cases hxt : x = t
        · subst hxt
          simp [putContByte]
        · have hb : ¬x % 4 = t % 4 := by omega
          simp [putContByte, hb, hc, show ¬(t ≤ x ∧ x < t + (bs.length + 1)) by omega]
      · simp [hc, Ne.symm hc, show ¬(t ≤ x ∧ x < t + (bs.length + 1)) by omega]

/-- Byte k of a number of n bytes. -/
theorem leBytes_getD (v : W64) {n k : Nat} (hk : k < n) : (leBytes n v.toNat).getD k 0 = v.extractLsb' (8 * k) 8 := by
  have general (u : Nat) : (leBytes n u).getD k 0 = BitVec.ofNat 8 (u / 2 ^ (8 * k)) := by
    induction n generalizing k u with
    | zero => omega
    | succ n ih =>
      cases k with
      | zero => simp [leBytes]
      | succ k =>
        rw [leBytes, List.getD_cons_succ, ih (by omega), Nat.div_div_eq_div_mul]
        congr 2
        rw [Nat.mul_succ, Nat.pow_add, Nat.mul_comm]
  rw [general]
  simp [BitVec.extractLsb', Nat.shiftRight_eq_div_pow]

end

/-- Settles O6: through the aperture a store is putSpBytes of its bytes; to memory it is storeVirtual_waiting. -/
theorem storesWrite : Obligations.StoresWrite := by
  unfold Obligations.StoresWrite
  refine ⟨?aperture, ?memory⟩
  case aperture =>
    intro s tk mem i f h hf a t v hp ha hv ho hz
    have hlen := length_leBytes f.bytes v.val.toNat
    have bytes (x : Nat) := contByte_putSpBytes v.poison (leBytes f.bytes v.val.toNat) t x mem
    have untouched (ci : Nat) := cont_putSpBytes_untouched v.poison (leBytes f.bytes v.val.toNat) t ci mem
    have tags (ci : Nat) := tags_putSpBytes v.poison (leBytes f.bytes v.val.toNat) t ci mem
    simp only [hlen] at bytes untouched tags
    refine ⟨mem.putSpBytes t ((leBytes f.bytes v.val.toNat).map fun b => (b, v.poison)),
      exec_store_ok h hf hp (.inr hv) ha (storeAt_inside hv ho hz), putSpBytes_eq _ _ _ _, ?_, ?_, ?_⟩
    · intro k hk
      have htouch : touches t f.bytes ((t + k) / 4) = true := List.any_eq_true.mpr ⟨k, List.mem_range.mpr hk, beq_self_eq_true _⟩
      obtain ⟨hvalid, hpoison⟩ := tags _ (.inl htouch)
      refine ⟨container_eq hvalid hpoison, ?_⟩
      rw [bytes, if_pos (by omega), Nat.add_sub_cancel_left, leBytes_getD v.val hk]
    · intro x hx
      rw [bytes, if_neg fun ⟨h1, h2⟩ => hx (x - t) (by omega) (by omega)]
      rfl
    · intro ci hci
      exact untouched ci (by simpa [touches] using hci)
  case memory =>
    intro s tk mem i f l s2 h hf a pa v hp hq ha hv hlow hm hw hr hc ho
    obtain ⟨s1, x, t, h1, hs2, hs⟩ := storeVirtual_waiting hlow hm hw hc hr ho v.val
    refine ⟨{ s1 with own := s2.own }, { mem with l1 := x, tlbC := t, stores := mem.stores ++
      [⟨pa, a.toNat, leBytes f.bytes v.val.toNat, s.cycle + 1 + Config.drainDelay s.cycle, s.nextLog⟩] },
      s.cycle + 1 + Config.drainDelay s.cycle, ?_, exec_store_ok h hf hp (.inl hq) ha ((storeAt_of_memory hv).trans hs), by omega, rfl, hs2, ?_⟩
    · exact congrArg (fun x : State => { x with own := s2.own }) h1.only
    · intro y
      rw [afterC, State.put_mem, h1.eq]

end Sys2Proof.Machine

namespace Sys2Proof.Machine
section
variable {s : State} {tk : Task} {mem : Member} {i : Instr}

/-! ## Branches and jumps (R131, R132) -/

/-- A branch, by branchOf: its operands' poison, its offset and whether its relation holds. -/
theorem exec_branchOf (h : Current s tk mem) {p taken : Bool} {off : BitVec 16} (hb : branchOf mem i = some (p, off, taken)) :
    exec i s = if p = true then .next (faulted s mem cPoison 0 0)
      else if endsLoop s mem = true then .next (faulted s mem cIllegal 0 0)
      else if taken = true then .next (s.put (mem.cJump (s.cur.pc + BitVec.ofInt 64 (4 * off.toInt)) s.cycle))
      else .next (afterC s mem) := by
  unfold branchOf at hb
  split at hb <;> cases hb <;> simp only [exec]
  case h_1 => exact branchOp_cur h ..
  case h_2 => exact branchOp_cur h ..
  case h_3 => exact branchOp_cur h ..
  case h_4 rs rt => exact (branchOp_cur h ..).trans (by simp)
  case h_5 => exact branchOp_cur h ..
  case h_6 => exact (branchOp_cur h ..).trans (by simp)

theorem exec_jal (h : Current s tk mem) (rd : BitVec 5) (off : BitVec 21) :
    exec (.jal rd off) s = if endsLoop s mem = true then .next (faulted s mem cIllegal 0 0)
      else .next (s.put ((mem.wr rd ⟨s.cur.pc + 4, false⟩).cJump (s.cur.pc + BitVec.ofInt 64 (4 * off.toInt)) s.cycle)) := by
  simp only [exec, execJal, onMember_cur h, raiseIllegal_eq, cGoto_eq, wordTarget_eq s (by omega : 21 ≤ 62) off]

theorem exec_jalr (h : Current s tk mem) (rd rs : BitVec 5) (imm : BitVec 16) :
    exec (.jalr rd rs imm) s = if (mem.rd rs).poison = true then .next (faulted s mem cPoison 0 0)
      else if endsLoop s mem = true then .next (faulted s mem cIllegal 0 0)
      else if ((mem.rd rs).val + BitVec.ofInt 64 imm.toInt).toNat % 4 ≠ 0 then
        .next (faulted s mem cAlignment ((mem.rd rs).val + BitVec.ofInt 64 imm.toInt) 0)
      else .next (s.put ((mem.wr rd ⟨s.cur.pc + 4, false⟩).cJump ((mem.rd rs).val + BitVec.ofInt 64 imm.toInt) s.cycle)) := by
  have ht : effAddr mem rs imm = (mem.rd rs).val + BitVec.ofInt 64 imm.toInt := rfl
  simp only [exec, execJalr, onMember_cur h, ht, raiseIllegal_eq, raise_eq, cGoto_eq]

end

/-- Settles O7: exec_branchOf, exec_jal and exec_jalr, each by the branch its conditions take. -/
theorem branchesAndJumps : Obligations.BranchesAndJumps := by
  unfold Obligations.BranchesAndJumps
  refine ⟨?_, ?_⟩
  · intro s tk mem i p off taken h hb
    rw [exec_branchOf h hb]
    exact ⟨fun hp => by simp [hp], fun hp he => by simp [hp, he], fun hp he ht => by simp [hp, he, ht],
      fun hp he ht => by simp [hp, he, ht]⟩
  · intro s tk mem rd rs off imm h t linked
    rw [exec_jal h, exec_jalr h]
    refine ⟨fun he => if_pos he, fun he => if_neg (Bool.eq_false_iff.mp he), fun hp => if_pos hp, ?_, ?_, ?_⟩
    · intro hp he
      rw [if_neg (Bool.eq_false_iff.mp hp), if_pos he]
    · intro hp he ha
      rw [if_neg (Bool.eq_false_iff.mp hp), if_neg (Bool.eq_false_iff.mp he), if_pos ha]
    · intro hp he ha
      rw [if_neg (Bool.eq_false_iff.mp hp), if_neg (Bool.eq_false_iff.mp he), if_neg (not_not.mpr ha)]

/-! ## Releases and arrivals (R144, R145) -/

section
variable {s : State} {tk : Task} {mem : Member}

/-- A task with REPL = 0 signs nothing (R319). -/
theorem sign_of_not_replicated (hr : tk.replicated = false) (m : Member) (x : Stream) (k : Nat) (body : List Byte) :
    tk.sign m x k body = m := if_neg (Bool.eq_false_iff.mp hr)

theorem exec_rel (h : Current s tk mem) (hr : tk.replicated = false) (so : BitVec 6) :
    exec (.rel so) s = if (tk.handle so).kind = .lock ∧ (tk.handle so).held = true ∧ so.toNat ∉ mem.rels
      then .next (afterC s { mem with rels := mem.rels ++ [so.toNat] }) else .next (faulted s mem cIllegal 0 0) := by
  have hbad : (decide ((tk.handle so).kind ≠ .lock) || !(tk.handle so).held || mem.rels.contains so.toNat) = true ↔
      ¬((tk.handle so).kind = .lock ∧ (tk.handle so).held = true ∧ so.toNat ∉ mem.rels) := by
    rw [Bool.or_eq_true, Bool.or_eq_true, decide_eq_true_eq, Bool.not_eq_true', ← Bool.not_eq_true, List.contains_iff_mem]
    tauto
  simp only [exec, execRel, onMember_cur h, sign_of_not_replicated hr, raiseIllegal_eq, cDone_eq, hbad, ite_not]

theorem exec_boarm (h : Current s tk mem) (hr : tk.replicated = false) (so : BitVec 6) (rs : BitVec 5) :
    exec (.boarm so rs) s = if (mem.rd rs).poison = true then .next (faulted s mem cPoison 0 0)
      else if (tk.handle so).kind ≠ .barrier then .next (faulted s mem cIllegal 0 0)
      else .next (s.putBoth (tk.setHandle so { tk.handle so with arm := true })
        ({ mem with arms := mem.arms ++ [(so.toNat, (mem.rd rs).val)] }.cNext s.cycle)) := by
  simp only [exec, execBoarm, onMember_cur h, sign_of_not_replicated hr, raiseIllegal_eq, raise_eq]

end

/-- Settles O13: exec_rel and exec_boarm, each by the branch its conditions take. -/
theorem releasesAndArrivalsWaitForTheCommit : Obligations.ReleasesAndArrivalsWaitForTheCommit := by
  unfold Obligations.ReleasesAndArrivalsWaitForTheCommit
  refine ⟨?_, ?_⟩
  · intro s tk mem so h hr k
    rw [exec_rel h hr]
    refine ⟨fun hk hh hn => if_pos ⟨hk, hh, hn⟩, fun hbad => if_neg ?_⟩
    rintro ⟨hk, hh, hn⟩
    obtain hb | hb | hb := hbad
    · exact hb hk
    · exact absurd (hh.symm.trans hb) (by decide)
    · exact hn hb
  · intro s tk mem so rs h hr k g
    rw [exec_boarm h hr]
    refine ⟨fun hp => if_pos hp, fun hp hk => ?_, fun hp hk => ?_⟩
    · rw [if_neg (Bool.eq_false_iff.mp hp), if_pos hk]
    · rw [if_neg (Bool.eq_false_iff.mp hp), if_neg (not_not.mpr hk)]

/-! ## Fences and ends of regions (R147, R148, R150) -/

section
variable {s : State} {tk : Task} {mem : Member}

theorem exec_fence (h : Current s tk mem) (p q : BitVec 7) : exec (.fence p q) s =
    if fenceBlocked s mem p = true then .next (s.put { mem with stall := some (.fence p q) }) else .next (afterC s mem) := by
  simp only [exec, execFence, onMember_cur h, cStall_eq, cDone_eq]

/-- A fence with a zero mask waits for nothing. -/
theorem fenceBlocked_zero (s : State) (mem : Member) : fenceBlocked s mem 0 = false := by
  simp [fenceBlocked]

/-- Bit 1 of the mask waits for the core's stores, and for those of its side log. -/
theorem fenceBlocked_stores (s : State) (mem : Member) : fenceBlocked s mem 2#7 = true ↔ mem.stores ≠ [] ∨
    ∃ e ∈ s.slog, e.task = s.cur.task ∧ e.member = s.cur.member ∧ e.cmd = none ∧ e.act = .write := by
  have hact (e : LogEntry) : (e.act = .write ∨ e.act = .record) ∧ e.cmd = none ∧ e.act = .write ↔ e.cmd = none ∧ e.act = .write := by
    tauto
  simp [fenceBlocked, and_assoc, hact]

theorem regionEnd_cur (h : Current s tk mem) (i : Instr) : regionEnd i s =
    if (mem.str .c).lc0.count ≠ 0 ∨ (mem.str .c).lc1.count ≠ 0 then .next (faulted s mem cIllegal 0 0)
    else .next (s.put { mem with stall := some i }) := by
  simp only [regionEnd, onMember_cur h, raiseIllegal_eq, cStall_eq]

end

/-- Settles O15: exec_fence and regionEnd_cur, each by the branch its conditions take. -/
theorem fencesAndRegionEnds : Obligations.FencesAndRegionEnds := by
  unfold Obligations.FencesAndRegionEnds
  refine ⟨?_, ?_⟩
  · intro s tk mem p q h
    rw [exec_fence h, exec_fence h]
    exact ⟨fun hb => if_neg (Bool.eq_false_iff.mp hb), fun hb => if_pos hb,
      if_neg (Bool.eq_false_iff.mp (fenceBlocked_zero s mem)), fenceBlocked_stores s mem⟩
  · intro s tk mem h
    refine ⟨by simp only [exec, execNop, onMember_cur h, cDone_eq], fun i hi => ?_⟩
    have hend : exec i s = regionEnd i s := by obtain rfl | rfl := hi <;> rfl
    rw [hend, regionEnd_cur h]
    exact ⟨fun ⟨h0, h1⟩ => if_neg (not_or.mpr ⟨not_not.mpr h0, not_not.mpr h1⟩), fun hc => if_pos hc⟩

/-! ## Spawns (R149) -/

section
variable {s : State} {tk : Task} {mem : Member}

/-- The current task put back as it is changes nothing. -/
theorem putTask_self (h : Current s tk mem) : s.putTask s.cur.task tk = s := by
  obtain ⟨hlt, hget⟩ := List.getElem?_eq_some_iff.mp h.task
  unfold State.putTask
  rw [← hget, List.set_getElem_self]

theorem exec_tspawn (h : Current s tk mem) (hr : tk.replicated = false) (rd rs rt : BitVec 5) : exec (.tspawn rd rs rt) s =
    let q := (s.queues.find tk.queue).getD Queue.reset
    if ((mem.rd rs).poison || (mem.rd rt).poison) = true then .next (faulted s mem cPoison 0 0)
    else if (q.room && decide (mem.spawns.length ≥ 16)) = true then .next (faulted s mem cIllegal 0 0)
    else if q.room = true then .next (afterC
      { s with queues := (s.queues.put tk.queue
          { q with entries := q.entries ++ [⟨none, .task s.cur.task, some (mem.rank, mem.spawns.length), none⟩] }) }
      (Member.wr { mem with spawns := mem.spawns ++ [⟨mem.spawns.length, tk.queue, (mem.rd rs).val, (mem.rd rt).val⟩], stall := none }
        rd ⟨1, false⟩))
    else .next (afterC s (Member.wr { mem with stall := none } rd ⟨0, false⟩)) := by
  simp only [exec, execTspawn, onMember_cur h, hr, Bool.false_and, Bool.false_eq_true, if_false, putTask_self h,
    sign_of_not_replicated hr, State.modQueue, raise_eq, raiseIllegal_eq, cWrite_eq]

end

/-- Settles O16: by the four branches of exec_tspawn. -/
theorem spawnReserves : Obligations.SpawnReserves := by
  unfold Obligations.SpawnReserves
  intro s tk mem rd rs rt h hr a b q reserved
  rw [exec_tspawn h hr]
  have unpoisoned (ha : a.poison = false) (hb : b.poison = false) : ¬((mem.rd rs).poison || (mem.rd rt).poison) = true := by
    simp only [a, b] at ha hb
    simp [ha, hb]
  refine ⟨fun hp => if_pos (Bool.or_eq_true_iff.mpr hp), fun ha hb hq => ?_, fun ha hb hq hn => ?_, fun ha hb hq hn => ?_⟩
  · dsimp only
    rw [if_neg (unpoisoned ha hb), if_neg (by simp [show ((s.queues.find tk.queue).getD Queue.reset).room = false from hq]), if_neg (Bool.eq_false_iff.mp hq)]
  · dsimp only
    rw [if_neg (unpoisoned ha hb), if_neg (by simp [hn]), if_pos hq]
  · dsimp only
    rw [if_neg (unpoisoned ha hb), if_pos (by simp [show ((s.queues.find tk.queue).getD Queue.reset).room = true from hq, hn])]

end Sys2Proof.Machine

namespace Sys2Proof.Machine
section
variable {s : State} {tk : Task} {mem : Member}

/-! ## A stalled word tried again (R137, R138, R147, R129) -/

/-- A stall taken back lets its word run as on its first issue. -/
theorem exec_stalledWordResume (h : Current s tk mem) {i : Instr} (hs : mem.stall = some i)
    (hi : (∃ y tag n, i = .tsig y tag n) ∨ (∃ y n, i = .twait y n) ∨ (∃ y off, i = .twaitb y off) ∨ (∃ n c, i = .semw n c) ∨
      (∃ p q, i = .fence p q) ∨ (storeForm i).isSome) :
    exec .stalledWordResume s = exec i (s.put { mem with stall := none }) := by
  obtain ⟨y, tag, n, rfl⟩ | ⟨y, n, rfl⟩ | ⟨y, off, rfl⟩ | ⟨n, c, rfl⟩ | ⟨p, q, rfl⟩ | hf := hi
  case inr.inr.inr.inr.inr =>
    unfold storeForm at hf
    split at hf
    case h_5 => cases hf
    all_goals
      simp only [exec, execStalledWordResume, onMember_cur h, hs]
      rfl
  all_goals simp only [exec, execStalledWordResume, onMember_cur h, hs]

@[simp] theorem tokHas_stall (mem : Member) (i : Option Instr) (q n : Nat) : ({ mem with stall := i } : Member).tokHas q n = mem.tokHas q n := rfl

/-- A member put in the place of one put just before. -/
theorem afterC_put (h : Current s tk mem) (b c : Member) : afterC (s.put b) c = afterC s c := by
  have hcycle : (s.put b).cycle = s.cycle := State.put_cycle ..
  rw [afterC, afterC, put_put h, hcycle]

end

/-- Settles O11: exec_stalledWordResume, and for TWAIT exec_twait on the member without its stall. -/
theorem stalledWordsAreTriedAgain : Obligations.StalledWordsAreTriedAgain := by
  unfold Obligations.StalledWordsAreTriedAgain
  refine ⟨fun s tk mem i h hs hi => exec_stalledWordResume h hs hi, fun s tk mem y nm1 h hs hy hq => ?_⟩
  refine ⟨(Member.tokTake { mem with stall := none } (3 * y.toNat) (nm1.toNat + 1)).2, ?_, rfl, ?_⟩
  · rw [exec_stalledWordResume h hs (.inr (.inl ⟨y, nm1, rfl⟩)), exec_twait (put_current h _) hy, tokHas_stall, if_pos hq, afterC_put h]
  · rw [tokEnd_tokTake (mem := { mem with stall := none }) hq, if_pos rfl]
    rfl

/-! ## Traps and injected faults (R153) -/

section
variable {s : State} {tk : Task} {mem : Member}

theorem exec_trap (h : Current s tk mem) (rs : BitVec 5) : exec (.trap rs) s = .next (faulted s mem cTrap (mem.rd rs).val 0) := by
  simp only [exec, execTrap, onMember_cur h, raise_eq]

theorem one_shiftLeft (w n : Nat) : 1#w <<< n = BitVec.ofNat w (2 ^ n) := by
  apply BitVec.eq_of_toNat_eq
  rw [← BitVec.twoPow_eq, BitVec.toNat_twoPow, BitVec.toNat_ofNat]

/-- The fields of FLTINJ's first operand. -/
theorem extractLsb'_two (a : W64) (k : Nat) : (a.extractLsb' k 2).toNat = a.toNat / 2 ^ k % 4 := by
  simp [Nat.shiftRight_eq_div_pow]

/-- FLTINJ: its checks in order, then what it injects, with a notice where that is anything. -/
theorem exec_fltinj (h : Current s tk mem) (rs rt : BitVec 5) :
    exec (.fltinj rs rt) s =
      let a := (mem.rd rs).val
      let bit := (mem.rd rt).val.toNat
      let kind := a.toNat / 4 % 4
      if tk.ctx ∉ s.mgmt.cfg.finj then .next (faulted s mem cPrivilege 0 0)
      else if (mem.rd rs).poison = true ∨ (mem.rd rt).poison = true then .next (faulted s mem cPoison 0 0)
      else if kind = 3 ∨ a.toNat % 4 = 3 ∨ 512 ≤ a.toNat ∨ (if kind = 1 then 4096 else 64) ≤ bit then .next (faulted s mem cIllegal 0 0)
      else if a.toNat % 4 ≠ mem.replica then .next (afterC s mem)
      else .next ((injected tk mem kind (a.extractLsb' 4 5) bit).elim (afterC s mem)
        (afterC (s.recordFault s.cur.task (s.info mem cInjected 3 a (bit % 65536))))) := by
  have h2 := extractLsb'_two (mem.rd rs).val 2
  have h0 := extractLsb'_two (mem.rd rs).val 0
  rw [Nat.pow_zero, Nat.div_one] at h0
  simp only [exec, execFltinj, onMember_cur h, h2, h0, raise_eq, raiseIllegal_eq, cDone_eq, Nat.reducePow]
  cases injected tk mem ((mem.rd rs).val.toNat / 4 % 4) ((mem.rd rs).val.extractLsb' 4 5) (mem.rd rt).val.toNat <;> simp

end

/-- Settles O19: exec_trap, and exec_fltinj by the branch its conditions take; what is injected is one bit of the register
named (R153). -/
theorem trapsAndInjectedFaults : Obligations.TrapsAndInjectedFaults := by
  unfold Obligations.TrapsAndInjectedFaults
  refine ⟨fun s tk mem rs h => exec_trap h rs, ?_⟩
  intro s tk mem rs rt h a bit reg kind notice
  rw [exec_fltinj h]
  refine ⟨fun hc => if_pos hc, ?_, ?_, ?_⟩
  · intro hc hp
    exact (if_neg (not_not.mpr hc)).trans (if_pos hp)
  · intro hc ha hb hbad
    have hp : ¬((mem.rd rs).poison = true ∨ (mem.rd rt).poison = true) := by simp [hb, show (mem.rd rs).poison = false from ha]
    exact (if_neg (not_not.mpr hc)).trans ((if_neg hp).trans (if_pos hbad))
  · intro hc ha hb h512 hk hr3 hbit
    have hp : ¬((mem.rd rs).poison = true ∨ (mem.rd rt).poison = true) := by simp [hb, show (mem.rd rs).poison = false from ha]
    have hgood : ¬(kind = 3 ∨ a.val.toNat % 4 = 3 ∨ 512 ≤ a.val.toNat ∨ (if kind = 1 then 4096 else 64) ≤ bit) := by omega
    dsimp only
    rw [if_neg (not_not.mpr hc), if_neg hp, if_neg hgood]
    refine ⟨fun hr => if_pos hr, ?_, ?_, ?_, ?_, ?_⟩
    all_goals
      intro hr hkind
      rw [if_neg (not_not.mpr hr), show (mem.rd rs).val.toNat / 4 % 4 = _ from hkind]
    · intro hreg
      rw [injected, if_pos hreg]
      rfl
    · intro hreg
      rw [injected, if_neg hreg, one_shiftLeft]
      rfl
    · refine ⟨{ mem with v := mem.v.set reg.toNat (flipRow (mem.v[reg.toNat]'(reg.isLt)) bit) reg.isLt }, rfl, rfl, ?_, ?_⟩
      · intro r hne
        exact Vector.getElem_set_ne reg.isLt r.isLt (fun he => hne (BitVec.eq_of_toNat_eq he.symm))
      · intro k c hk
        simp only [Vector.getElem_set_self, flipRow, List.getElem?_modify, hk, one_shiftLeft]
        by_cases hkb : k = bit / 32
        · simp [hkb]
        · simp [hkb, Ne.symm hkb]
    · intro hrep
      simp [injected, hrep]
    · intro hrep
      simp [injected, hrep]
      rfl

end Sys2Proof.Machine

namespace Sys2Proof.Machine
section
variable {s : State} {tk tk1 : Task} {mem b c : Member}

/-! ## The current task and member replaced -/

/-- The task replaced keeps a current member. -/
theorem putTask_current (h : Current s tk mem) (hm : tk1.members[s.cur.member]? = some c) : Current (s.putTask s.cur.task tk1) tk1 c := by
  obtain ⟨hlt, -⟩ := List.getElem?_eq_some_iff.mp h.task
  exact ⟨by simp [State.putTask, hlt], hm⟩

section
variable (h : Current s tk mem) (hm : tk1.members[s.cur.member]? = some c) (b : Member)
include h hm

theorem putBoth_current : Current (s.putBoth tk1 b) (tk1.putMember s.cur.member b) b :=
  put_current (putTask_current h hm) b

theorem putBoth_eq : s.putBoth tk1 b = { s with tasks := s.tasks.set s.cur.task (tk1.putMember s.cur.member b) } := by
  have hset : (s.putTask s.cur.task tk1).tasks = s.tasks.set s.cur.task tk1 := rfl
  rw [State.putBoth, put_eq (putTask_current h hm), hset, State.putTask_cur, List.set_set]
  rfl

end
end

/-! ## State registers (R63, R64, R65) -/

section
variable {s : State} {tk : Task} {mem : Member} {rd rs : BitVec 5} {n : BitVec 8} {v : W64}

theorem exec_srrd (h : Current s tk mem) (rd : BitVec 5) (n : BitVec 8) : exec (.srrd rd n) s =
    if 10 < n.toNat then .next (faulted s mem cIllegal 0 0)
    else if n.toNat = 6 ∨ n.toNat = 7 then echoed (.srrd rd n) rd (srValue s tk mem n.toNat) s tk mem
    else .next (afterC s (mem.wr rd ⟨srValue s tk mem n.toNat, false⟩)) := by
  simp only [exec, execSrrd, onMember_cur h, raiseIllegal_eq, cWrite_eq, gt_iff_lt]

/-- In a task with REPL = 0 a word that would be echoed completes at once (R314). -/
theorem echoed_of_not_replicated (hr : tk.replicated = false) (i : Instr) (rd : BitVec 5) (v : W64) (s : State) (mem : Member) :
    echoed i rd v s tk mem = .next (afterC s (mem.wr rd ⟨v, false⟩)) := if_pos (by simp [hr])

/-- SR.TASK: node, queue and sequence number. -/
theorem bitsOf_srTask (tk : Task) : bitsOf (srTask tk) 15 0 = tk.node % 2 ^ 16 ∧ bitsOf (srTask tk) 30 16 = tk.queue % 2 ^ 15 ∧
    bitsOf (srTask tk) 31 31 = 0 ∧ bitsOf (srTask tk) 63 32 = tk.seq % 2 ^ 32 := by
  simp only [srTask, bitsOf, BitVec.toNat_ofNat]
  omega

/-- SR.CREW: the crew's size and its logarithm. -/
theorem bitsOf_srCrew (s : State) (tk : Task) (mem : Member) : bitsOf (srValue s tk mem 2) 3 0 = tk.crew ∧
    2 ^ bitsOf (srValue s tk mem 2) 5 4 = tk.crew ∧ bitsOf (srValue s tk mem 2) 63 6 = 0 := by
  have hk : (tk.hdr.extractLsb' 352 2).toNat < 4 := BitVec.isLt _
  simp only [srValue, Task.crew, bitsOf, BitVec.toNat_ofNat]
  generalize (tk.hdr.extractLsb' 352 2).toNat = k at hk
  obtain rfl | rfl | rfl | rfl : k = 0 ∨ k = 1 ∨ k = 2 ∨ k = 3 := by omega
  all_goals decide

/-- SR.REPL: the replica, REPL and the attempt. -/
theorem bitsOf_srRepl (s : State) (tk : Task) {mem : Member} (hm : mem.replica ≤ 2) : bitsOf (srValue s tk mem 3) 1 0 = mem.replica ∧
    bitsOf (srValue s tk mem 3) 3 2 = tk.repl ∧ bitsOf (srValue s tk mem 3) 5 4 = tk.attempt % 4 ∧
    bitsOf (srValue s tk mem 3) 63 6 = 0 := by
  have hk : tk.repl < 4 := BitVec.isLt _
  simp only [srValue, bitsOf, BitVec.toNat_ofNat]
  omega

/-- SR.MODE: MODE, whether the task can be pre-empted, and PRIO. -/
theorem bitsOf_srMode (s : State) (tk : Task) (mem : Member) :
    bitsOf (srValue s tk mem 5) 0 0 = (if tk.tolerant then 1 else 0) ∧
    bitsOf (srValue s tk mem 5) 1 1 = (if tk.pre && decide (tk.discards < 3) then 1 else 0) ∧
    bitsOf (srValue s tk mem 5) 4 2 = tk.prio ∧ bitsOf (srValue s tk mem 5) 63 5 = 0 := by
  have hk : tk.prio < 8 := BitVec.isLt _
  simp only [srValue, bitsOf, BitVec.toNat_ofNat]
  split_ifs <;> omega

/-- SR.FAULT of the member's replica: cause, count and sequence number. -/
theorem bitsOf_srFault (s : State) {r : Replica} (hr : tk.replicas[mem.replica]? = some r) (hc : r.fault.count ≤ 255)
    (hs : r.fault.seq < 2 ^ 32) : bitsOf (srValue s tk mem 10) 7 0 = r.fault.cause % 256 ∧
      bitsOf (srValue s tk mem 10) 15 8 = r.fault.count ∧ bitsOf (srValue s tk mem 10) 63 32 = r.fault.seq := by
  simp only [srValue, hr, bitsOf, BitVec.toNat_ofNat]
  omega

/-- The task with SR.FAULT cleared, live and in the region's copy of one replica. -/
def Task.clearFault (tk : Task) (k : Nat) : Task :=
  { tk with faultLive := ⟨0, 0, 0⟩, replicas := tk.replicas.modify k fun r => { r with fault := ⟨0, 0, 0⟩ } }

/-- SRWR clears SR.FAULT in both copies, whatever is written. -/
theorem exec_srwr (h : Current s tk mem) (rs : BitVec 5) (n : BitVec 8) : exec (.srwr rs n) s =
    if n.toNat ≠ 10 then .next (faulted s mem cIllegal 0 0)
    else if (mem.rd rs).poison = true then .next (faulted s mem cPoison 0 0)
    else .next (s.putBoth (tk.clearFault mem.replica) (mem.cNext s.cycle)) := by
  simp only [exec, execSrwr, onMember_cur h, raiseIllegal_eq, raise_eq, Task.clearFault]

/-- Device time, with the sync bit above it. -/
theorem bitsOf_timeWord (s : State) : bitsOf s.timeWord 62 0 = s.time.ns % 2 ^ 63 ∧ (bitsOf s.timeWord 63 63 = 1 ↔ s.time.inSync = false) := by
  simp only [State.timeWord, bitsOf, BitVec.toNat_ofNat]
  cases s.time.inSync <;> simp <;> omega

end

/-- Settles O17: exec_srrd with the fields of srValue, exec_srwr, and the words whose echo is their own value. -/
theorem stateRegistersAndClocks : Obligations.StateRegistersAndClocks := by
  unfold Obligations.StateRegistersAndClocks
  refine ⟨⟨?reads, ?writes⟩, ?clocks⟩
  case reads =>
    intro s tk mem rd n h
    rw [exec_srrd h]
    refine ⟨fun hn => if_pos hn, fun hn h6 h7 => ?_⟩
    have hecho : ¬(n.toNat = 6 ∨ n.toNat = 7) := by
      rintro (hn | hn)
      · exact h6 (BitVec.eq_of_toNat_eq hn)
      · exact h7 (BitVec.eq_of_toNat_eq hn)
    refine ⟨srValue s tk mem n.toNat, ?_, ?_, ?_, ?_, ?_, ?_, ?_, ?_, ?_, ?_⟩
    · rw [if_neg (by omega), if_neg hecho]
    · rintro rfl
      exact bitsOf_srTask tk
    · rintro rfl
      exact BitVec.toNat_ofNat ..
    · rintro rfl
      exact bitsOf_srCrew s tk mem
    · rintro rfl hm
      exact bitsOf_srRepl s tk hm
    · rintro rfl
      exact BitVec.toNat_ofNat ..
    · rintro rfl
      exact bitsOf_srMode s tk mem
    · rintro rfl
      rfl
    · rintro rfl
      rfl
    · rintro rfl r hr hc hs
      exact bitsOf_srFault s hr hc hs
  case writes =>
    intro s tk mem rs n h
    rw [exec_srwr h]
    refine ⟨fun hn => if_pos fun he => hn (BitVec.eq_of_toNat_eq he), ?_, ?_⟩
    · rintro rfl hp
      exact (if_neg (by decide)).trans (if_pos hp)
    · rintro rfl hp
      have hm : (tk.clearFault mem.replica).members[s.cur.member]? = some mem := h.member
      refine ⟨_, _, _, (if_neg (by decide)).trans (if_neg (Bool.eq_false_iff.mp hp)), putBoth_current h hm _, ?_, rfl, rfl, ?_, ?_⟩
      · rw [putBoth_eq h hm]
      · intro r hr
        simp [Task.clearFault, hr]
      · intro k hk
        simp [Task.clearFault, Ne.symm hk]
  case clocks =>
    intro s tk mem rd h hr
    refine ⟨⟨s.timeWord, ?_, bitsOf_timeWord s⟩, ?_, ?_, ?_, ?_⟩
    · simp only [exec, execTime, onMember_cur h, echoed_of_not_replicated hr]
    · simp only [exec, execCyc, onMember_cur h, echoed_of_not_replicated hr, srCyc]
    · rw [exec_srrd h]
      simp only [exec, execCyc, onMember_cur h, echoed_of_not_replicated hr]
      rfl
    · simp only [exec, execRng, onMember_cur h, hr, Bool.false_and, Bool.false_eq_true, if_false, echoed_of_not_replicated hr,
        State.takeFree]
    · rw [exec_srrd h, echoed_of_not_replicated hr]
      rfl

end Sys2Proof.Machine

namespace Sys2Proof.Machine
section
variable {s s1 : State} {tk : Task} {mem b : Member} {l : Leaf} {pa addr : Nat} {so k : BitVec 6} {h' : Handle} {ids : List Nat}

/-! ## The object of a handle (R478) -/

/-- An address that is mapped has at most 57 bits (R349). -/
theorem lt_of_mapped (h : mapped s tk mem addr l) : addr < 2 ^ 57 := by
  obtain ⟨hwalk, -⟩ := h
  by_contra hlt
  have hleaf : s.leafOf tk.ptroot addr = none := if_neg (by simp only [hlt, decide_false, Bool.false_and, Bool.false_eq_true, not_false_eq_true])
  rw [State.walk, hleaf] at hwalk
  cases hwalk

/-- The object of ObjectAt is found; of the member only its TLB moves. -/
theorem objectPa_of_objectAt (h : ObjectAt s tk mem addr pa) : ∃ (s1 : State) (t : List TlbEntry),
    Reads s s1 ∧ objectPa s tk mem (BitVec.ofNat 64 addr) = ⟨.ok pa, { mem with tlbC := t }, s1⟩ := by
  obtain ⟨⟨l, hmap, hr, rfl⟩, hok, -⟩ := h
  obtain ⟨s1, t, h1, ht⟩ := translateFor_of_mapped hmap
  have haddr : (BitVec.ofNat 64 addr).toNat = addr := by
    have := lt_of_mapped hmap
    rw [BitVec.toNat_ofNat, Nat.mod_eq_of_lt (by omega)]
  refine ⟨s1.noteRead (l.pa addr) 64, t, h1.trans (reads_noteRead ..), ?_⟩
  simp only [objectPa, haddr, ht, hr, h1.rangeOk, hok, Bool.not_true, Bool.false_eq_true, if_false]

theorem Reads.lockOwner (h : Reads s s1) (pa : Nat) : s1.lockOwner pa = s.lockOwner pa := by
  rw [State.lockOwner, State.lockOwner, State.loadNat, State.loadNat, h.load]

theorem Reads.loadNat (h : Reads s s1) (pa n : Nat) : s1.loadNat pa n = s.loadNat pa n := by
  rw [State.loadNat, State.loadNat, h.load]

theorem chest_bounds (h : within pa Config.chestBase (2 ^ 44) = true) : 2 ^ 48 ≤ pa ∧ pa < 2 ^ 48 + 2 ^ 44 := by
  unfold within Config.chestBase at h
  rw [Bool.and_eq_true, decide_eq_true_eq, decide_eq_true_eq] at h
  omega

theorem not_inPorts_of_chest (h : within pa Config.chestBase (2 ^ 44) = true) : ¬inPorts pa = true := by
  have := chest_bounds h
  unfold inPorts within Config.portBase
  rw [Bool.and_eq_true, decide_eq_true_eq, decide_eq_true_eq]
  omega

/-- What can be read can be written (R385, R392). -/
theorem paWritable_of_paOk (h : s.paOk pa = true) : s.paWritable pa = true := by
  have h0 := h
  unfold State.paOk at h
  unfold State.paWritable
  by_cases hc : within pa Config.chestBase (2 ^ 44) = true
  · have := chest_bounds hc
    rw [if_neg (by omega), if_neg (not_inPorts_of_chest hc), if_pos hc, Bool.and_eq_true, Bool.not_eq_true'] at h
    obtain ⟨hok, hbad⟩ := h
    rw [if_pos hc, hok, Bool.true_and, Bool.not_eq_true', Bool.eq_false_iff]
    intro hin
    refine Bool.eq_false_iff.mp hbad (List.any_eq_true.mpr ⟨(pa / 64, true), List.contains_iff_mem.mp hin, beq_self_eq_true _⟩)
  · rw [if_neg hc]
    by_cases hhigh : (decide (2 ^ 51 ≤ pa) || inPorts pa) = true
    · rw [if_pos hhigh, h0]
    · rw [if_neg hhigh]
      rw [Bool.or_eq_true, decide_eq_true_eq, not_or] at hhigh
      obtain ⟨h51, hp⟩ := hhigh
      rw [if_neg h51, if_neg hp, if_neg hc] at h
      cases hs : s.hbm[pa / 2 ^ 36]? with
      | none =>
        rw [hs] at h
        cases h
      | some st =>
        rw [hs] at h
        exact ((Bool.and_eq_true _ _).mp h).1

/-- OWNER of a lock can be written. -/
theorem canWrite_owner (h : s.rangeOk pa 64 = true) : s.canWrite (pa + 8) 8 = true := by
  refine List.all_eq_true.mpr fun i hi => paWritable_of_paOk ?_
  have := List.mem_range.mp hi
  rw [Nat.add_assoc]
  exact List.all_eq_true.mp h _ (List.mem_range.mpr (by omega))

/-! ## Handles and bound lines (R143, R146) -/

theorem handle_setHandle (tk : Task) (so k : BitVec 6) (h : Handle) : (tk.setHandle so h).handle k = if k = so then h else tk.handle k := by
  unfold Task.handle Task.setHandle
  by_cases hk : k = so
  · subst hk; simp
  · rw [if_neg hk]
    exact Vector.getElem_set_ne so.isLt k.isLt fun he => hk (BitVec.eq_of_toNat_eq he.symm)

/-- A task that takes a handle's object: the handle, and the lines of its binding gone from every member. -/
def Task.taking (tk : Task) (so : BitVec 6) (h : Handle) (s : State) : Task := ((tk.setHandle so h).invalidate h.ids).acquire s

/-- A member without the lines of a binding, its word done. -/
def Member.taking (mem : Member) (ids : List Nat) (s : State) : Member :=
  ({ mem with l1 := mem.l1.filter (fun l => !ids.contains l.leaf.bind), stall := none } : Member).acquire s

section
variable (tk : Task) (so : BitVec 6) (h : Handle) (s : State) (m : Nat) (b : Member)

theorem handle_taking (k : BitVec 6) : ((tk.taking so h s).putMember m b).handle k = if k = so then h else tk.handle k :=
  handle_setHandle tk so k h

theorem member_taking {mem : Member} (hm : tk.members[m]? = some mem) : ∃ c, (tk.taking so h s).members[m]? = some c := by
  simp [Task.taking, Task.acquire, Task.invalidate, Task.setHandle, hm]

/-- No member keeps a line of the handle's binding. -/
theorem noneBound_taking {mem : Member} (c : Nat) :
    noneBound ((tk.taking so h s).putMember m ((mem.taking h.ids s).cNext c)) h.ids := by
  have filtered (x : List Line) : ∀ l ∈ x.filter (fun l => !h.ids.contains l.leaf.bind), h.ids.contains l.leaf.bind = false :=
    fun l hl => by simpa using (List.mem_filter.mp hl).2
  intro b hb
  obtain hb | rfl := List.mem_or_eq_of_mem_set hb
  · simp only [Task.taking, Task.acquire, Task.invalidate, List.map_map, List.mem_map] at hb
    obtain ⟨d, -, rfl⟩ := hb
    exact filtered d.l1
  · exact filtered mem.l1

end

end
end Sys2Proof.Machine

namespace Sys2Proof.Machine
section
variable {s s1 : State} {tk : Task} {mem b : Member} {pa : Nat} {so : BitVec 6} {i : Instr}

/-! ## Acquiring a lock (R143) -/

/-- ACQ, or the grant of a waiting one, tries the lock. -/
theorem exec_acquire (h : Current s tk mem) (hi : i = .acq so ∨ (i = .lockGrant ∧ mem.stall = some (.acq so))) :
    exec i s = tryAcquire s so tk mem := by
  obtain rfl | ⟨rfl, hs⟩ := hi
  · simp only [exec, execAcq, onMember_cur h]
  · simp only [exec, execLockGrant, onMember_cur h, hs]

theorem tryAcquire_of_not_lock (hk : (tk.handle so).kind ≠ .lock) : tryAcquire s so tk mem = .next (faulted s mem cIllegal 0 0) := by
  rw [tryAcquire]
  exact if_pos hk

section
variable (hk : (tk.handle so).kind = .lock) (he : mem.takeEcho .c = none)
include hk he

theorem tryAcquire_of_held (hh : (tk.handle so).held = true) :
    tryAcquire s so tk mem = .next (afterC s { mem with stall := none }) := by
  simp only [tryAcquire, hk, he, hh, ne_eq, not_true_eq_false, if_false, if_true, cDone_eq]

variable (hh : (tk.handle so).held = false) (hr : tk.replicated = false)
include hh hr

section
variable {t : List TlbEntry} (ho : objectPa s tk mem (BitVec.ofNat 64 (tk.handle so).addr) = ⟨.ok pa, { mem with tlbC := t }, s1⟩)
include ho

/-- A free lock at which no earlier request waits is granted. -/
theorem tryAcquire_of_free (hfree : s1.lockOwner pa = 0) (hfirst : (s1.lockWaiters pa).head?.getD s.cur.task = s.cur.task) :
    tryAcquire s so tk mem = grantLock s1 so pa tk { mem with tlbC := t } := by
  simp only [tryAcquire, hk, he, hh, hr, ho, hfree, ne_eq, not_true_eq_false, if_false, Bool.false_and, Bool.false_eq_true,
    beq_self_eq_true, Bool.and_true]
  cases hw : s1.lockWaiters pa with
  | nil => simp
  | cons w ws =>
    rw [hw] at hfirst
    simp [show w = s.cur.task from hfirst]

/-- A lock that another task holds has the word wait, once. -/
theorem tryAcquire_of_owned (howned : s1.lockOwner pa ≠ 0)
    (hpassed : ∀ r ∈ s1.lockq, r.obj = pa → r.task = s.cur.task → r.granted = false) :
    tryAcquire s so tk mem = .next (State.put { s1 with
      lockq := if s.cur.task ∈ s1.lockWaiters pa then s1.lockq else s1.lockq ++ [⟨pa, s.cur.task, false⟩] }
      { mem with tlbC := t, stall := some (.acq so) }) := by
  have hno : (s1.lockq.any fun q => q.obj == pa && q.task == s.cur.task && q.granted) = false := by
    rw [Bool.eq_false_iff]
    intro hany
    obtain ⟨r, hmem, hr⟩ := List.any_eq_true.mp hany
    simp only [Bool.and_eq_true, beq_iff_eq] at hr
    obtain ⟨⟨hobj, htask⟩, hgranted⟩ := hr
    exact Bool.eq_false_iff.mp (hpassed r hmem hobj htask) hgranted
  simp only [tryAcquire, hk, he, hh, hr, ho, hno, beq_eq_false_iff_ne.mpr howned, ne_eq, not_true_eq_false, if_false, Bool.false_and,
    Bool.false_eq_true, Bool.and_false, Bool.or_false, cStall_eq, List.contains_eq_mem, decide_eq_true_eq]
  split_ifs <;> rfl

end
end

/-- The device after a lock is granted: OWNER written, the task's requests at the lock gone. -/
def State.granting (s : State) (pa : Nat) (tk : Task) : State :=
  { s.wrMem (pa + 8) (leBytes 8 tk.holderId) with lockq := s.lockq.filter fun r => !(r.obj == pa && r.task == s.cur.task) }

/-- A grant in a task with REPL = 0, of a lock outside the launch ports. -/
theorem grantLock_eq (hr : tk.replicated = false) (hp : inPorts (pa + 8) = false) (hw : s.canWrite (pa + 8) 8 = true) :
    grantLock s so pa tk mem = .next ((s.granting pa tk).putBoth (tk.taking so { tk.handle so with held := true } (s.granting pa tk))
      ((mem.taking (tk.handle so).ids (s.granting pa tk)).cNext s.cycle)) := by
  have hdev : s.wrDev (pa + 8) (leBytes 8 tk.holderId) = s.wrMem (pa + 8) (leBytes 8 tk.holderId) := by
    rw [State.wrDev, length_leBytes, if_neg (Bool.eq_false_iff.mp hp), if_pos hw]
  simp only [grantLock, hr, hdev, Bool.false_and, Bool.false_eq_true, if_false]
  rfl

/-- The requests that wait after a grant. -/
theorem lockWaiters_granting (s : State) (pa : Nat) (tk : Task) :
    (s.granting pa tk).lockWaiters pa = (s.lockWaiters pa).filter (· != s.cur.task) := by
  simp only [State.lockWaiters, State.granting, List.filter_map, List.filter_filter]
  congr 1
  refine List.filter_congr fun r _ => ?_
  cases hobj : r.obj == pa <;> simp [bne]

/-- The requests that wait after one more. -/
theorem lockWaiters_append (s : State) (pa t : Nat) :
    ({ s with lockq := s.lockq ++ [⟨pa, t, false⟩] } : State).lockWaiters pa = s.lockWaiters pa ++ [t] := by
  simp [State.lockWaiters]

theorem granting_current (h : Current s tk mem) (pa : Nat) : Current (s.granting pa tk) tk mem := ⟨h.task, h.member⟩

end

/-- Settles O12: by the four answers of tryAcquire; a grant is grantLock_eq. -/
theorem acquiringALock : Obligations.AcquiringALock := by
  unfold Obligations.AcquiringALock
  refine ⟨?grant, ?others⟩
  case grant =>
    intro s tk mem so pa i hcur hi h hk hh hr he ho hfree hfirst hwf
    obtain ⟨s1, x, h1, hpa⟩ := objectPa_of_objectAt ho
    have hwaiters : s1.lockWaiters pa = s.lockWaiters pa := by rw [h1.eq]; rfl
    have htask : s1.cur.task = s.cur.task := by rw [h1.cur]
    have hmem : s1.mem = s.mem := by rw [h1.eq]
    have hrun : exec i s = grantLock s1 so pa tk { mem with tlbC := x } := (exec_acquire hcur hi).trans
      (tryAcquire_of_free hk he hh hr hpa (by rw [h1.lockOwner, hfree]) (by rw [hwaiters, hfirst]))
    rw [grantLock_eq hr (ho.plain 8 (by decide)) (h1.canWrite .. ▸ canWrite_owner ho.ok)] at hrun
    have hg : Current (s1.granting pa tk) tk mem := granting_current (h1.current hcur) pa
    obtain ⟨c, hc⟩ := member_taking tk so { h with held := true } (s1.granting pa tk) _ hg.member
    refine ⟨_, _, _, hrun, putBoth_current hg hc _, ?_, ?_, ?_, ?_, ?_, ?_, ?_, ?_, ?_⟩
    · rw [State.putBoth_mem]
      exact (congrArg _ (length_leBytes 8 _).symm).trans (Memory.bytes_setBytes (hmem ▸ hwf))
    · intro y hy
      rw [State.putBoth_mem, ← hmem]
      exact Memory.get_setBytes_outside (hmem ▸ hwf) (by rw [length_leBytes]; omega)
    · rw [handle_taking, if_pos rfl]
    · intro k hne
      rw [handle_taking, if_neg hne]
    · exact noneBound_taking tk so { h with held := true } _ _ _
    · rw [Member.cNext_stall]
      rfl
    · rw [Member.cNext_g]
      rfl
    · rw [Member.cNext, str_setStr, if_pos rfl, h1.cycle]
      rfl
    · rw [← hwaiters, ← htask, ← lockWaiters_granting s1 pa tk, State.lockWaiters, State.lockWaiters, State.putBoth_lockq]
  case others =>
    intro s tk mem so hcur h
    have hrun : exec (.acq so) s = tryAcquire s so tk mem := exec_acquire hcur (.inl rfl)
    refine ⟨fun hk => hrun.trans (tryAcquire_of_not_lock hk), fun hk hh he => hrun.trans (tryAcquire_of_held hk he hh), ?_⟩
    intro pa hk hh hr he ho howned hpassed
    obtain ⟨s1, x, h1, hpa⟩ := objectPa_of_objectAt ho
    have hq : s1.lockq = s.lockq := by rw [h1.eq]
    have hwaiters : s1.lockWaiters pa = s.lockWaiters pa := by rw [State.lockWaiters, State.lockWaiters, hq]
    rw [tryAcquire_of_owned hk he hh hr hpa (by rw [h1.lockOwner]; exact howned) (hq ▸ hpassed), hwaiters, hq] at hrun
    refine ⟨_, { mem with tlbC := x, stall := some (.acq so) }, hrun, rfl, ?_, ?_⟩
    · have hcur1 : Current { s1 with lockq := if s.cur.task ∈ s.lockWaiters pa then s.lockq else s.lockq ++ [⟨pa, s.cur.task, false⟩] } tk mem :=
        ⟨(h1.current hcur).task, (h1.current hcur).member⟩
      rw [put_eq hcur1, put_eq hcur, h1.eq]
    · rw [State.lockWaiters, State.put_lockq]
      split_ifs with hin
      · rfl
      · exact lockWaiters_append s pa s.cur.task

end Sys2Proof.Machine

namespace Sys2Proof.Machine
section
variable {s s1 : State} {tk : Task} {mem b : Member} {pa : Nat} {so : BitVec 6} {i : Instr} {kind : BitVec 2} {k : SoKind} {rs : BitVec 5}
  {bytes : List Byte}

/-! ## Binding a handle (R142) -/

/-- The handle that SOBIND leaves for an object's bytes. -/
def State.boundHandle (s : State) (tk : Task) (k : SoKind) (addr : Nat) (bytes : List Byte) : Handle :=
  ⟨k, addr, false, if k == SoKind.barrier then BitVec.ofNat 32 (leNat ((bytes.drop 24).take 4)) else 0, false, s.bindIds tk.btab addr,
    k == SoKind.barrier⟩

section
variable (h : Current s tk mem) (hk : bindKind kind = some k)
include h hk

theorem exec_sobind_poisoned (hp : (mem.rd rs).poison = true) : exec (.sobind so kind rs) s = .next (faulted s mem cPoison 0 0) := by
  simp only [exec, execSobind, onMember_cur h, hk, hp, if_true, raise_eq]

variable (hp : (mem.rd rs).poison = false)
include hp

theorem exec_sobind_misaligned (ha : (mem.rd rs).val.toNat % 64 ≠ 0) :
    exec (.sobind so kind rs) s = .next (faulted s mem cAlignment (mem.rd rs).val 0) := by
  simp only [exec, execSobind, onMember_cur h, hk, hp, Bool.false_eq_true, if_false, if_pos ha, raise_eq]

variable (ha : (mem.rd rs).val.toNat % 64 = 0)
include ha

theorem exec_sobind_same (hsame : (tk.handle so).kind = k ∧ (tk.handle so).addr = (mem.rd rs).val.toNat) :
    exec (.sobind so kind rs) s = .next (afterC s mem) := by
  simp only [exec, execSobind, onMember_cur h, hk, hp, ha, Bool.false_eq_true, if_false, ne_eq, not_true_eq_false, if_pos hsame, cDone_eq]

variable (hother : ¬((tk.handle so).kind = k ∧ (tk.handle so).addr = (mem.rd rs).val.toNat))
include hother

theorem exec_sobind_inUse (hu : (tk.handle so).held = true ∨ (tk.handle so).arm = true) :
    exec (.sobind so kind rs) s = .next (faulted s mem cIllegal 0 0) := by
  simp only [exec, execSobind, onMember_cur h, hk, hp, ha, Bool.false_eq_true, if_false, ne_eq, not_true_eq_false, if_neg hother,
    Bool.or_eq_true, if_pos hu, raiseIllegal_eq]

variable (hheld : (tk.handle so).held = false) (harm : (tk.handle so).arm = false) {p : Bool}
  (hread : readC s tk mem (mem.rd rs).val 64 = ⟨.ok (bytes, p), b, s1⟩)
include hheld harm hread

theorem exec_sobind_bound (ht : leNat (bytes.take 1) = kind.toNat) : exec (.sobind so kind rs) s =
    .next (s1.putBoth (tk.setHandle so (s1.boundHandle tk k (mem.rd rs).val.toNat bytes)) (b.cNext s.cycle)) := by
  simp only [exec, execSobind, onMember_cur h, hk, hp, ha, Bool.false_eq_true, if_false, ne_eq, not_true_eq_false, if_neg hother,
    hheld, harm, Bool.or_false, hread, ht]
  rfl

theorem exec_sobind_otherType (ht : leNat (bytes.take 1) ≠ kind.toNat) :
    exec (.sobind so kind rs) s = .next (faulted s1 b cIllegal 0 0) := by
  simp only [exec, execSobind, onMember_cur h, hk, hp, ha, Bool.false_eq_true, if_false, ne_eq, not_true_eq_false, if_neg hother,
    hheld, harm, Bool.or_false, hread, ht, not_false_eq_true, if_true, raiseIllegal_eq]

end

/-! ## Waiting at a barrier (R146) -/

/-- BOWAIT, or a waiting one that looks again, tries the barrier. -/
theorem exec_bowait (h : Current s tk mem) (hi : i = .bowait so ∨ (i = .barrierPhaseSeen ∧ mem.stall = some (.bowait so))) :
    exec i s = tryBowait s so tk mem := by
  obtain rfl | ⟨rfl, hs⟩ := hi
  · simp only [exec, execBowait, onMember_cur h]
  · simp only [exec, execBarrierPhaseSeen, onMember_cur h, hs]

theorem tryBowait_illegal (hbad : (tk.handle so).kind ≠ .barrier ∨ (tk.handle so).arm = true) :
    tryBowait s so tk mem = .next (faulted s mem cIllegal 0 0) := by
  rw [tryBowait]
  exact if_pos (by simpa using hbad)

/-- The member's list of barriers it has passed in the region, with one more. -/
def Member.passing (mem : Member) (so : BitVec 6) : Member :=
  { mem with bowaits := if mem.bowaits.contains so.toNat then mem.bowaits else mem.bowaits ++ [so.toNat] }

theorem mem_bowaits_passing (mem : Member) (so : BitVec 6) : so.toNat ∈ (mem.passing so).bowaits := by
  unfold Member.passing
  dsimp only
  split_ifs with h
  · exact List.contains_iff_mem.mp h
  · simp

section
variable (hk : (tk.handle so).kind = .barrier) (harm : (tk.handle so).arm = false)
  (ho : objectPa s tk mem (BitVec.ofNat 64 (tk.handle so).addr) = ⟨.ok pa, b, s1⟩)
include hk harm ho

theorem tryBowait_of_same_phase (hph : s1.loadNat (pa + 24) 4 = (tk.handle so).phase.toNat) :
    tryBowait s so tk mem = .next (s1.put { b with stall := some (.bowait so) }) := by
  simp only [tryBowait, hk, harm, ho, hph, ne_eq, not_true_eq_false, decide_false, Bool.or_false, Bool.false_eq_true, if_false, if_true,
    cStall_eq]

theorem tryBowait_of_other_phase (hph : s1.loadNat (pa + 24) 4 ≠ (tk.handle so).phase.toNat) :
    tryBowait s so tk mem = .next (s1.putBoth (tk.taking so { tk.handle so with holds := true } s1)
      (((b.passing so).taking (tk.handle so).ids s1).cNext s.cycle)) := by
  simp only [tryBowait, hk, harm, ho, hph, ne_eq, not_true_eq_false, decide_false, Bool.or_false, Bool.false_eq_true, if_false]
  rfl

end
end

/-- Settles O14: by the checks of SOBIND in order, and the two answers of tryBowait for an object that is found. -/
theorem barrierHandles : Obligations.BarrierHandles := by
  unfold Obligations.BarrierHandles
  refine ⟨?bind, ?wait⟩
  case bind =>
    intro s tk mem so kind rs hcur hkind k h g
    have hk : bindKind kind = some k := by
      obtain rfl | rfl := hkind <;> rfl
    have other (ho : h.kind ≠ k ∨ h.addr ≠ g.val.toNat) : ¬(h.kind = k ∧ h.addr = g.val.toNat) := not_and_or.mpr ho
    refine ⟨exec_sobind_poisoned hcur hk, exec_sobind_misaligned hcur hk, fun hp ha h1 h2 => exec_sobind_same hcur hk hp ha ⟨h1, h2⟩,
      fun hp ha ho => exec_sobind_inUse hcur hk hp ha (other ho), ?_, ?_⟩
    · intro pa bytes hp ha ho hheld harm hl ht
      obtain ⟨s1, x, t, h1, hr⟩ := readC_of_loadedAs hl
      refine ⟨s1, { mem with l1 := x, tlbC := t }, s1.boundHandle tk k g.val.toNat bytes, h1.only,
        exec_sobind_bound hcur hk hp ha (other ho) hheld harm hr ht, rfl, rfl, rfl, rfl, rfl, ?_⟩
      rintro rfl
      rfl
    · intro pa bytes hp ha ho hheld harm hl ht
      obtain ⟨s1, x, t, h1, hr⟩ := readC_of_loadedAs hl
      exact ⟨s1, { mem with l1 := x, tlbC := t }, h1.only, rfl, exec_sobind_otherType hcur hk hp ha (other ho) hheld harm hr ht⟩
  case wait =>
    intro s tk mem so i hcur hi h
    rw [exec_bowait hcur hi]
    refine ⟨tryBowait_illegal, ?_, ?_⟩
    · intro pa hk harm ho hph
      obtain ⟨s1, x, h1, hpa⟩ := objectPa_of_objectAt ho
      exact ⟨s1, { mem with tlbC := x, stall := some (.bowait so) }, h1.only,
        tryBowait_of_same_phase hk harm hpa ((h1.loadNat ..).trans hph), rfl⟩
    · intro pa hk harm ho hph
      obtain ⟨s1, x, h1, hpa⟩ := objectPa_of_objectAt ho
      have hcur1 := h1.current hcur
      obtain ⟨c, hc⟩ := member_taking tk so { h with holds := true } s1 _ hcur1.member
      refine ⟨_, _, _, tryBowait_of_other_phase hk harm hpa (by rw [h1.loadNat]; exact hph), putBoth_current hcur1 hc _,
        ?_, ?_, ?_, ?_, ?_, ?_, ?_, ?_⟩
      · rw [putBoth_eq hcur1 hc, h1.eq]
      · rw [handle_taking, if_pos rfl]
      · intro k hne
        rw [handle_taking, if_neg hne]
      · exact noneBound_taking tk so { h with holds := true } _ _ _
      · rw [Member.cNext_stall]
        rfl
      · rw [Member.cNext_bowaits]
        exact mem_bowaits_passing _ so
      · rw [Member.cNext_g]
        rfl
      · rw [Member.cNext, str_setStr, if_pos rfl]
        rfl

end Sys2Proof.Machine

namespace Sys2Proof.Machine
section
variable {s : State} {tk : Task} {mem : Member}

/-! ## Chain words (R196, R197) -/

/-- A trigger or row write of a chain word issued now meets one in flight: check 7 fails (R197). -/
def chainClash (s : State) (mem : Member) (f : ChainFields) : Bool :=
  ((chainRows mem f (rngKey s mem) s.cycle).flatMap fun c => chainEvents c.stages c.x c.dest c.arrive).any
    fun e => mem.pending.any fun p => e.1.same p.1 && e.2 == p.2

theorem length_chainRows (mem : Member) (f : ChainFields) (key : RngKey) (c : Nat) : (chainRows mem f key c).length = f.nm1.toNat + 1 := by
  simp [chainRows]

/-- Row r of a chain word is among those it starts: one cycle after row r - 1, with its own source and destination row. -/
theorem mem_chainRows (mem : Member) (f : ChainFields) (key : RngKey) (c : Nat) {r : Nat} (hr : r < f.nm1.toNat + 1) :
    ∃ k ∈ chainRows mem f key c, k.arrive = c + 1 + r ∧ k.dest = f.daddr.toNat / 512 + r ∧ k.x = f.x ∧
      k.stages = chainStages f ∧ k.reads = some (f.saddr.toNat / 512 + r) :=
  ⟨_, List.mem_map.mpr ⟨r, List.mem_range.mpr hr, rfl⟩, rfl, rfl, rfl, rfl, rfl⟩

section
variable {f : ChainFields} (h : Current s tk mem) (hw : (mem.str s.cur.stream).waiting = false)
include h hw

theorem exec_vchain_illegal (hi : chainIllegal f = true) : exec (.vchain f) s = .next (faulted s mem cIllegal 0 0) := by
  simp [exec, execVchain, onMember_cur h, Member.cur, hw, hi, raiseIllegal_eq]

theorem exec_vchain_trap {t : Trap} (hi : chainIllegal f = false) (hn : chainNominal tk mem f = some t) :
    exec (.vchain f) s = .next (faulted s mem t.cause t.addr t.aux) := by
  simp [exec, execVchain, onMember_cur h, Member.cur, hw, hi, hn, raiseTrap_eq]

variable (hi : chainIllegal f = false) (hn : chainNominal tk mem f = none)
include hi hn

/-- A legal chain word within its bounds meets the scoreboard, and starts its rows if nothing in flight is in their way. -/
theorem exec_vchain_legal : exec (.vchain f) s = if chainClash s mem f = true then scoreboard s tk mem cSchedule 0 7
    else .next (afterTimed s { mem with chains := mem.chains ++ chainRows mem f (rngKey s mem) s.cycle }) := by
  simp only [exec, execVchain, onMember_cur h, Member.cur, hw, hi, hn, Bool.not_false, Bool.true_and, Bool.false_eq_true, if_false,
    tDone_eq]
  rfl

theorem exec_vchain_clash (hc : chainClash s mem f = true) :
    exec (.vchain f) s = .next (if tk.tolerant = true then heldACycle s mem else faulted s mem cSchedule 0 7) := by
  rw [exec_vchain_legal h hw hi hn, if_pos hc, scoreboard_eq]

theorem exec_vchain_starts (hc : chainClash s mem f = false) : exec (.vchain f) s =
    .next (afterTimed s { mem with chains := mem.chains ++ chainRows mem f (rngKey s mem) s.cycle }) := by
  rw [exec_vchain_legal h hw hi hn, hc, if_neg Bool.false_ne_true]

end

/-! ## Reads of chain rows (R159, R196) -/

/-- A chain row after phase 3 of cycle c: read from the scratchpad as it stands, if it arrives in the next cycle. -/
def ChainRow.readIn (mem : Member) (c : Nat) (k : ChainRow) : ChainRow :=
  match k.reads with
  | some w => if k.arrive = c + 1 then { k with t := mem.spRow w, reads := none } else k
  | none => k

theorem mixed_same (free : Nat) (l : List Container) : mixed free l l = (l, free) := if_pos rfl

theorem Member.midCycle_of_spMid (h : mem.spMid = mem.spad) : mem.midCycle = mem :=
  congrArg (fun spad => { mem with spad }) h

/-- Where no engine writes in the cycle, a row is read as it stands and no free value is used (R159). -/
theorem Member.kRow_of_spMid (h : mem.spMid = mem.spad) (free r : Nat) : mem.kRow free r = (mem.spRow r, free) := by
  rw [Member.kRow, Member.midCycle_of_spMid h, mixed_same]

theorem readChainRows_of_spMid (h : mem.spMid = mem.spad) (c free : Nat) (l : List ChainRow) :
    readChainRows mem c free l = (l.map (ChainRow.readIn mem c), free) := by
  induction l with
  | nil => rfl
  | cons k l ih =>
    rw [readChainRows, List.map_cons, ChainRow.readIn]
    cases k.reads with
    | none => simp only [ih]
    | some w =>
      dsimp only
      split_ifs
      · simp only [Member.kRow_of_spMid h, ih]
      · simp only [ih]

theorem readChains_of_spMid {t m : Nat} (hm : s.member? t m = some mem) (h : mem.spMid = mem.spad) :
    s.readChains t m = s.putMember t m { mem with chains := mem.chains.map (ChainRow.readIn mem s.cycle) } := by
  simp only [State.readChains, hm, readChainRows_of_spMid h]
  rw [← State.putMember_free s t m { mem with chains := mem.chains.map (ChainRow.readIn mem s.cycle) }]

/-! ## Follow-on steps (R214, R215) -/

/-- The busy cycles of the four multiply words are those of R210. -/
theorem matBusy_multiply {n : Nat} (f : MatFields) (h1 : 1 ≤ n) (h4 : n ≤ 4) : matBusy n f = busyCycles n f := by
  obtain rfl | rfl | rfl | rfl : n = 1 ∨ n = 2 ∨ n = 3 ∨ n = 4 := by omega
  · exact matBusy_matrixOp (i := .mma f) rfl
  · exact matBusy_matrixOp (i := .mmaz f) rfl
  · exact matBusy_matrixOp (i := .mmas f) rfl
  · exact matBusy_matrixOp (i := .mima f) rfl

/-- The job of a command's follow-on step issued in cycle c. -/
def followJob (c : Nat) (k : Cmd) (r : FollowOn) : Job := matJob r.fmop.toNat (followFields r) c k.key (some k.seq)

/-- The member whose array has taken the follow-on step of command k: the command completes when the step is ready. -/
def Member.followed (mem : Member) (c : Nat) (k : Cmd) (r : FollowOn) : Member :=
  { mem.startJob (followJob c k r) c with
    cmds := mem.cmds.map fun x => if x.seq = k.seq then { x with state := .moved (followJob c k r).ready } else x }

/-- Both operands of a follow-on step are the member's own: its job starts in the next cycle. -/
theorem followJob_start (c : Nat) (k : Cmd) (r : FollowOn) : (followJob c k r).start = c + 1 := rfl

theorem followJob_ready (c : Nat) (k : Cmd) {r : FollowOn} (h1 : 1 ≤ r.fmop.toNat) (h4 : r.fmop.toNat ≤ 4) :
    (followJob c k r).ready = c + 7 + busyCycles r.fmop.toNat (followJob c k r).f := by
  rw [← matBusy_multiply _ h1 h4]
  change c + 1 + matBusy r.fmop.toNat (followFields r) + 6 = c + 7 + matBusy r.fmop.toNat (followFields r)
  omega

section
variable {c : Cmd} {r : FollowOn} (h : Current s tk mem)
  (hc : mem.cmds.find? (fun k => k.state == CmdState.moved 0 && k.follow.isSome) = some c) (hr : c.follow = some r)
include h hc hr

theorem exec_followOnStep_first : exec .followOnStep s =
    if (issuedMatrix mem s.cycle || decide (s.cycle + 1 < mem.arrayFree)) = true then .next s
    else .next (s.put (mem.followed s.cycle c r)) := by
  simp only [exec, execFollowOnStep, onMember_cur h, hc, hr]
  rfl

theorem exec_followOnStep_issues (hk : issuedMatrix mem s.cycle = false) (ha : mem.arrayFree ≤ s.cycle + 1) :
    exec .followOnStep s = .next (s.put (mem.followed s.cycle c r)) := by
  rw [exec_followOnStep_first h hc hr]
  exact if_neg (by simpa [hk] using ha)

theorem exec_followOnStep_waits (hb : issuedMatrix mem s.cycle = true ∨ s.cycle + 1 < mem.arrayFree) :
    exec .followOnStep s = .next s := by
  rw [exec_followOnStep_first h hc hr]
  exact if_pos (by simpa using hb)

end
end

/-- Settles O33: the answers of VCHAIN by its checks in order, the reads of the rows one by one (readChainRows_of_spMid), and the two answers
of FOLLOW_ON_STEP for a step that waits. -/
theorem chainWordsAndFollowOnSteps : Obligations.ChainWordsAndFollowOnSteps := by
  unfold Obligations.ChainWordsAndFollowOnSteps
  refine ⟨?chain, fun s t m mem hm h => readChains_of_spMid hm h, ?follow⟩
  case chain =>
    intro s tk mem f hcur hw n events clash
    refine ⟨exec_vchain_illegal hcur hw, fun t => exec_vchain_trap hcur hw, fun hi hn hc => ?_, fun hi hn hc => ?_⟩
    · have hrun := exec_vchain_clash hcur hw hi hn hc
      exact ⟨fun ht => by simpa [ht] using hrun, fun ht => by simpa [ht] using hrun⟩
    · refine ⟨_, exec_vchain_starts hcur hw hi hn hc, rfl, ?_, fun r hr => ?_⟩
      · rw [List.length_append, length_chainRows]
      · obtain ⟨k, hk, harrive, hdest, hx, hstages, hreads⟩ := mem_chainRows mem f (rngKey s mem) s.cycle hr
        exact ⟨k, List.mem_append_right _ hk, harrive, hdest, hx, hstages, hreads⟩
  case follow =>
    intro s tk mem c r hcur hc hr h1 h4
    refine ⟨fun hk ha => ?_, exec_followOnStep_waits hcur hc hr⟩
    exact ⟨mem.followed s.cycle c r, followJob s.cycle c r, exec_followOnStep_issues hcur hc hr hk ha, rfl, rfl,
      followJob_start s.cycle c r, followJob_ready s.cycle c h1 h4, rfl, rfl, rfl, rfl, rfl, rfl, rfl⟩

end Sys2Proof.Machine

namespace Sys2Proof.Machine
section
variable {s : State} {tk : Task} {mem : Member}

/-! ## Matrix words at issue (R209, R210, R213) -/

/-- The first cycle in which a word issued in cycle c holds the array (R210). -/
def matStart (f : MatFields) (c : Nat) : Nat := if f.arem = 1#1 ∨ f.brem = 1#1 then c + 13 else c + 1

/-- The cycle from which word n may issue for its tile: MDRAIN waits for the tile to be ready, no other word does (R210). -/
def tileReady (mem : Member) (n : Nat) (f : MatFields) : Nat := if n = 7 then mem.accReady.toList.getD f.acc.toNat 0 else 0

theorem matRemote_iff (f : MatFields) : matRemote f = true ↔ f.arem = 1#1 ∨ f.brem = 1#1 := by
  simp [matRemote]

theorem matJob_start (n : Nat) (f : MatFields) (c : Nat) (key : RngKey) (k : Option Nat) : (matJob n f c key k).start = matStart f c := by
  simp only [matJob, matRemote_iff, matStart]

theorem matJob_ready (n : Nat) (f : MatFields) (c : Nat) (key : RngKey) (k : Option Nat) :
    (matJob n f c key k).ready = matStart f c + matBusy n f + 6 :=
  congrArg (· + matBusy n f + 6) (matJob_start n f c key k)

/-- The accumulator-ready check asks for a free array, and of MDRAIN for a ready tile (R210). -/
theorem arrayReady_iff (mem : Member) (n : Nat) (f : MatFields) (c : Nat) :
    arrayReady mem n f c = true ↔ mem.arrayFree ≤ matStart f c ∧ tileReady mem n f ≤ c := by
  unfold arrayReady matStart tileReady
  simp only [← matRemote_iff]
  by_cases hr : matRemote f = true <;> by_cases hn : n = 7 <;> simp [hr, hn]

theorem arrayReady_eq_false {n : Nat} {f : MatFields} {c : Nat} (hb : matStart f c < mem.arrayFree ∨ c < tileReady mem n f) :
    arrayReady mem n f c = false := by
  rw [Bool.eq_false_iff, ne_eq, arrayReady_iff]
  omega

/-- A tile's ready cycle after a word was given to the array (R210). -/
theorem accReady_startJob (mem : Member) (j : Job) (c : Nat) (t : Fin 4) :
    (mem.startJob j c).accReady[t] = if t.val = j.f.acc.toNat ∧ j.mop ≠ 7 then j.ready else mem.accReady[t] := by
  unfold Member.startJob
  by_cases hd : j.mop = 7
  · simp [hd]
  · simp [hd, getElem_setVec]

section
variable {i : Instr} {n : Nat} {f : MatFields} (h : Current s tk mem) (hm : matrixOp i = some (n, f))
  (hw : (mem.str s.cur.stream).waiting = false)
include h hm hw

theorem exec_matrixWord_illegal (hl : matrixLegal tk mem n f = false) : exec i s = .next (faulted s mem cIllegal 0 0) := by
  simp [exec_matrixOp hm, matIssue, onMember_cur h, Member.cur, hw, hl, raiseIllegal_eq]

variable (hl : matrixLegal tk mem n f = true)
include hl

theorem exec_matrixWord_trap {t : Trap} (ht : matrixTrap tk mem n f = some t) :
    exec i s = .next (faulted s mem t.cause t.addr t.aux) := by
  simp [exec_matrixOp hm, matIssue, onMember_cur h, Member.cur, hw, hl, ht, raiseTrap_eq]

variable (ht : matrixTrap tk mem n f = none)
include ht

theorem exec_matrixWord_mismatch (hg : groupMismatch tk mem f = true) : exec i s = .next (faulted s mem cMatrix 0 f.mcg.toNat) := by
  simp [exec_matrixOp hm, matIssue, onMember_cur h, Member.cur, hw, hl, ht, hg, raise_eq]

variable (hg : groupMismatch tk mem f = false)
include hg

theorem exec_matrixWord_busy (hb : arrayReady mem n f s.cycle = false) :
    exec i s = .next (if tk.tolerant = true then heldACycle s mem else faulted s mem cSchedule 0 2) := by
  simp [exec_matrixOp hm, matIssue, onMember_cur h, Member.cur, hw, hl, ht, hg, hb, scoreboard_eq]

theorem exec_matrixWord_issues (hb : arrayReady mem n f s.cycle = true) (hr : remoteFree tk mem s.cycle (matBusy n f) f = true) :
    exec i s = .next (afterTimed s (mem.startJob (matJob n f s.cycle (rngKey s mem) none) s.cycle)) := by
  simp [exec_matrixOp hm, matIssue, onMember_cur h, Member.cur, hw, hl, ht, hg, hb, hr, tDone_eq]

end
end

/-- Settles O31: the answers of a matrix word by its checks in order; the job of one that issues is matJob. -/
theorem matrixWordsIssue : Obligations.MatrixWordsIssue := by
  unfold Obligations.MatrixWordsIssue
  intro s tk mem i n f hcur hm hw remote start busy tile
  have hbusy : matBusy n f = busy := matBusy_matrixOp hm
  refine ⟨exec_matrixWord_illegal hcur hm hw, fun t hl ht => exec_matrixWord_trap hcur hm hw hl ht, exec_matrixWord_mismatch hcur hm hw,
    fun hl ht hg hb => ?_, fun hl ht hg ha hc hr => ?_⟩
  · have hrun := exec_matrixWord_busy hcur hm hw hl ht hg (arrayReady_eq_false hb)
    exact ⟨fun hs => by simpa [hs] using hrun, fun hs => by simpa [hs] using hrun⟩
  · let j := matJob n f s.cycle (rngKey s mem) none
    have hstart : j.start = start := matJob_start n f s.cycle (rngKey s mem) none
    have hready : j.ready = start + busy + 6 := by rw [← hbusy]; exact matJob_ready n f s.cycle (rngKey s mem) none
    have hfree : j.start + j.busy = start + busy := congrArg₂ (· + ·) hstart hbusy
    refine ⟨mem.startJob j s.cycle, j, ?_, ?_, rfl, rfl, hstart, hbusy, hready, rfl, rfl, fun t => ?_⟩
    · exact exec_matrixWord_issues hcur hm hw hl ht hg ((arrayReady_iff mem n f s.cycle).2 ⟨ha, hc⟩) (hbusy ▸ hr)
    · rw [← hfree]
      rfl
    · rw [accReady_startJob, hready]
      rfl

end Sys2Proof.Machine

namespace Sys2Proof.Machine
section
variable {mem : Member}

/-! ## A fold of writes, read at one place -/

/-- What a place reads as after a fold of writes: the value that every write to it gives, if there is one. The states the writes go
through keep inv. -/
theorem foldl_read {σ ι α : Type} {inv : σ → Prop} {step : σ → ι → σ} {rd : σ → α} {hit : ι → Bool} {v : α} {l : List ι} {x : σ}
    (hx : inv x) (hinv : ∀ x, ∀ i ∈ l, inv x → inv (step x i))
    (hstep : ∀ x, ∀ i ∈ l, inv x → rd (step x i) = if hit i then v else rd x) :
    rd (l.foldl step x) = if l.any hit then v else rd x := by
  induction l generalizing x with
  | nil => simp
  | cons i r ih =>
    have hi := List.mem_cons_self (a := i) (l := r)
    rw [List.foldl_cons, ih (hinv x i hi hx) (fun x k hk => hinv x k (List.mem_cons_of_mem i hk))
      (fun x k hk => hstep x k (List.mem_cons_of_mem i hk)), hstep x i hi hx, List.any_cons]
    cases hit i <;> simp

/-- A flag is raised after a fold of writes if it was before or one of them raises it. -/
theorem foldl_raises {σ ι : Type} {step : σ → ι → σ} {rd : σ → Bool} {raised : ι → Bool} {l : List ι} {x : σ}
    (hstep : ∀ x i, rd (step x i) = (rd x || raised i)) : rd (l.foldl step x) = (rd x || l.any raised) := by
  have hfold : rd (l.foldl step x) = if l.any raised then true else rd x := by
    refine foldl_read (inv := fun _ => True) trivial (fun _ _ _ _ => trivial) fun x i _ _ => (hstep x i).trans ?_
    cases raised i <;> simp
  rw [hfold]
  cases l.any raised <;> simp

theorem joinTags_valid (cs : List Container) : (joinTags cs).1 = true ↔ ∀ c ∈ cs, c.valid = true := List.all_eq_true

theorem joinTags_poison (cs : List Container) : (joinTags cs).2 = true ↔ ∃ c ∈ cs, c.poison = true := List.any_eq_true

/-- sat_int is a clamp to the range of its integers (R76). -/
theorem satInt_eq_clampTo (v : Int) (w : Nat) (sg : Bool) : satInt v w sg = clampTo w sg v := by
  cases sg <;> rfl

/-! ## Elements of the tiles (R29, R56) -/

/-- A key of a sparse map after one of its entries is set, where an absent one stands for d. -/
theorem SMap.find_put_or_del {a : SMap Container} (hw : a.risesFrom 0) (k q : Nat) (c d : Container) :
    ((if c = d then a.del k else a.put k c).find q).getD d = if q = k then c else (a.find q).getD d := by
  by_cases hc : c = d
  · subst hc
    rw [if_pos rfl, SMap.find_del hw]
    split <;> simp
  · rw [if_neg hc, SMap.find_put hw]
    split <;> simp

/-- One element of a tile is replaced, and no other. -/
theorem accAt_setAcc (hw : mem.acc.risesFrom 0) {t m n u p q : Nat} (hm : m < 128) (hn : n < 256) (hp : p < 128) (hq : q < 256)
    (c : Container) : (mem.setAcc t m n c).accAt u p q = if u = t ∧ p = m ∧ q = n then c else mem.accAt u p q := by
  have hkey : u * 32768 + p * 256 + q = t * 32768 + m * 256 + n ↔ u = t ∧ p = m ∧ q = n := by omega
  simp only [Member.accAt, Member.setAcc, SMap.find_put_or_del hw, hkey]

theorem risesFrom_setAcc (hw : mem.acc.risesFrom 0) (t m n : Nat) (c : Container) : (mem.setAcc t m n c).acc.risesFrom 0 := by
  simp only [Member.setAcc]
  split
  · exact SMap.risesFrom_del hw
  · exact SMap.risesFrom_put hw (Nat.zero_le _)

theorem mem_outputs {f : MatFields} {m n : Nat} : (m, n) ∈ outputs f ↔ m < f.mm1.toNat + 1 ∧ n < f.nm1.toNat + 1 := by
  simp [outputs, matM, matN]

/-- An output of a word, with the flags it raises, written to a tile. -/
def Member.writeOutput (mem : Member) (t : Nat) (p : Nat × Nat) (o : Container × KFlags) : Member :=
  { mem.setAcc t p.1 p.2 o.1 with kf := mem.kf ||| o.2 }

theorem writeOutput_noFlags (mem : Member) (t : Nat) (p : Nat × Nat) (c : Container) :
    mem.writeOutput t p (c, 0) = mem.setAcc t p.1 p.2 c := by
  unfold Member.writeOutput
  exact congrArg (fun kf => { mem.setAcc t p.1 p.2 c with kf }) BitVec.or_zero

/-- The outputs of a word at the listed positions written to a tile. -/
def Member.writeOutputs (mem : Member) (t : Nat) (r : Nat × Nat → Container × KFlags) (ps : List (Nat × Nat)) : Member :=
  ps.foldl (fun x p => x.writeOutput t p (r p)) mem

/-- Writing outputs changes the tiles and kf only. -/
theorem writeOutputs_eq (t : Nat) (r : Nat × Nat → Container × KFlags) (ps : List (Nat × Nat)) (mem : Member) :
    mem.writeOutputs t r ps = { mem with acc := (mem.writeOutputs t r ps).acc, kf := (mem.writeOutputs t r ps).kf } := by
  induction ps generalizing mem with
  | nil => rfl
  | cons p ps ih => exact ih (mem.writeOutput t p (r p))

/-- Every element of the word's part of its tile is its output, every other one is as before (R199). -/
theorem accAt_writeOutputs (hw : mem.acc.risesFrom 0) (t : Nat) (r : Nat × Nat → Container × KFlags) (f : MatFields) {u m n : Nat}
    (hm : m < 128) (hn : n < 256) : (mem.writeOutputs t r (outputs f)).accAt u m n =
      if u = t ∧ m < f.mm1.toNat + 1 ∧ n < f.nm1.toNat + 1 then (r (m, n)).1 else mem.accAt u m n := by
  have hany : (outputs f).any (fun p => decide (u = t ∧ p = (m, n))) = true ↔ u = t ∧ m < f.mm1.toNat + 1 ∧ n < f.nm1.toNat + 1 := by
    rw [← mem_outputs]
    simp [and_comm]
  simp only [← hany]
  refine foldl_read (inv := fun x : Member => x.acc.risesFrom 0) (rd := fun x : Member => x.accAt u m n) hw
    (fun x p _ hx => risesFrom_setAcc hx t p.1 p.2 (r p).1) fun x p hp hx => ?_
  obtain ⟨hp1, hp2⟩ := mem_outputs.1 (show (p.1, p.2) ∈ outputs f from hp)
  refine (accAt_setAcc hx (by omega) (by omega) hm hn (r p).1).trans ?_
  by_cases heq : p = (m, n)
  · subst heq
    simp
  · have hne : ¬(m = p.1 ∧ n = p.2) := fun ⟨h1, h2⟩ => heq (Prod.ext h1.symm h2.symm)
    simp [heq, hne]

/-- The flags of the outputs written are or-ed into kf (R204). -/
theorem kf_writeOutputs (t : Nat) (r : Nat × Nat → Container × KFlags) (f : MatFields) (k : Nat) :
    (mem.writeOutputs t r (outputs f)).kf.getLsbD k = true ↔ mem.kf.getLsbD k = true ∨
      ∃ m n, m < f.mm1.toNat + 1 ∧ n < f.nm1.toNat + 1 ∧ (r (m, n)).2.getLsbD k = true := by
  have hfold : (mem.writeOutputs t r (outputs f)).kf.getLsbD k = (mem.kf.getLsbD k || (outputs f).any fun p => (r p).2.getLsbD k) :=
    foldl_raises (rd := fun x : Member => x.kf.getLsbD k) fun _ _ => BitVec.getLsbD_or
  simp only [hfold, Bool.or_eq_true, List.any_eq_true, Prod.exists, mem_outputs, and_assoc]

/-! ## Outputs of a multiply word (R199, R203, R204) -/

theorem lt_matG (f : MatFields) (g : Nat) : g < matG f ↔ 32 * g ≤ f.km1.toNat := by
  unfold matG matK
  omega

/-- An operand without MX has the scale 127, an ordinary value. -/
theorem sideScale_unscaled {x : Side} (hx : x.mx = false) (d : List Container) (g r : Nat) :
    (sideScale x d g r).1 = Container.ord 127 := by
  simp [sideScale, hx]

section
variable (j : Job) (a b : List Container × List Container) (m n : Nat)

theorem groupResult_float (hj : j.mop = 1 ∨ j.mop = 3) (g old : Nat) : groupResult j a b m n g old =
    let r := mmaGroup (fp32.decode old) (groupPairs j a.1 b.1 m n g) (decide (j.f.fa.toNat ≤ 2) || decide (j.f.fb.toNat ≤ 2))
      (sideScale (sideA j.f) a.2 g m).2 (sideScale (sideB j.f) b.2 g n).2
    (r.1, r.2 &&& (fIV ||| fOF)) := by
  obtain hj | hj := hj <;> simp [groupResult, groupPairs, hj, matK, Function.comp_def]

theorem groupResult_int (hj : ¬(j.mop = 1 ∨ j.mop = 3)) (g old : Nat) : groupResult j a b m n g old =
    let t := toI 32 (j.mop == 4) old + groupSum j a.1 b.1 m n g
    ((clampTo 32 (j.mop == 4) t % 2 ^ 32).toNat, if clampTo 32 (j.mop == 4) t = t then 0 else fOF) := by
  unfold groupResult
  split
  · exact absurd (.inl ‹_›) hj
  · exact absurd (.inr ‹_›) hj
  · simp only [satInt_eq_clampTo, List.map_map]
    rfl

/-- One group: mma_group for MMA and MMAS, the clamped sum for MIMA and MMAZ (R199, R82, R83). -/
theorem afterGroups_succ (old g : Nat) : afterGroups j a b m n old (g + 1) =
    ((groupResult j a b m n g (afterGroups j a b m n old g).1).1,
      (afterGroups j a b m n old g).2 ||| (groupResult j a b m n g (afterGroups j a b m n old g).1).2) := by
  rw [afterGroups]
  by_cases hj : j.mop = 1 ∨ j.mop = 3
  · rw [groupResult_float j a b m n hj, if_pos hj]
  · rw [groupResult_int j a b m n hj, if_neg hj]

/-- The groups of a word one after the other. -/
theorem foldl_groupResult (old g : Nat) : (List.range g).foldl (fun (x : Nat × KFlags) g =>
      ((groupResult j a b m n g x.1).1, x.2 ||| (groupResult j a b m n g x.1).2)) (old, 0) = afterGroups j a b m n old g := by
  induction g with
  | zero => rfl
  | succ g ih => rw [List.range_succ, List.foldl_append, ih, List.foldl_cons, List.foldl_nil, afterGroups_succ]

/-- An output reads what its groups read and, of an operand without MX, the constant scale. -/
theorem groupReads_of_mem_outputConts {c : Container} (h : c ∈ outputConts j a b m n) :
    groupReads j a b m n c ∨ c = Container.ord 127 := by
  simp only [outputConts, List.mem_append, List.mem_flatMap, List.mem_range, List.mem_pair, matK, lt_matG] at h
  obtain ⟨k, hk, hc⟩ | ⟨g, hg, hc | hc⟩ := h
  · exact .inl (.inl ⟨k, Nat.le_of_lt_succ hk, hc⟩)
  · by_cases hx : j.f.mxa = 1#1
    · exact .inl (.inr ⟨g, hg, .inl ⟨hx, hc⟩⟩)
    · exact .inr (hc.trans (sideScale_unscaled (by simpa [sideA] using hx) ..))
  · by_cases hx : j.f.mxb = 1#1
    · exact .inl (.inr ⟨g, hg, .inr ⟨hx, hc⟩⟩)
    · exact .inr (hc.trans (sideScale_unscaled (by simpa [sideB] using hx) ..))

theorem mem_outputConts_of_groupReads {c : Container} (h : groupReads j a b m n c) : c ∈ outputConts j a b m n := by
  simp only [outputConts, List.mem_append, List.mem_flatMap, List.mem_range, List.mem_pair, matK, lt_matG]
  obtain ⟨k, hk, hc⟩ | ⟨g, hg, hc⟩ := h
  · exact .inl ⟨k, Nat.lt_succ_of_le hk, hc⟩
  · exact .inr ⟨g, hg, hc.imp And.right And.right⟩

/-- The old value of an output and all it reads are valid (R203). -/
def outputWhole (old : Container) : Prop := old.valid = true ∧ ∀ c, groupReads j a b m n c → c.valid = true

theorem outputTags_valid (old : Container) : (joinTags (old :: outputConts j a b m n)).1 = true ↔ outputWhole j a b m n old := by
  rw [joinTags_valid, List.forall_mem_cons]
  refine and_congr_right fun _ => ⟨fun h c hc => h c (mem_outputConts_of_groupReads j a b m n hc), fun h c hc => ?_⟩
  obtain hr | rfl := groupReads_of_mem_outputConts j a b m n hc
  · exact h c hr
  · rfl

theorem outputTags_poison (old : Container) : (joinTags (old :: outputConts j a b m n)).2 = true ↔
    old.poison = true ∨ ∃ c, groupReads j a b m n c ∧ c.poison = true := by
  rw [joinTags_poison, List.exists_mem_cons_iff]
  refine or_congr_right ⟨fun ⟨c, hc, hp⟩ => ?_, fun ⟨c, hc, hp⟩ => ⟨c, mem_outputConts_of_groupReads j a b m n hc, hp⟩⟩
  obtain hr | rfl := groupReads_of_mem_outputConts j a b m n hc
  · exact ⟨c, hr, hp⟩
  · cases hp

theorem outputResult_whole {old : Container} (h : outputWhole j a b m n old) : outputResult j a b m n old =
    (⟨BitVec.ofNat 32 (afterGroups j a b m n old.data.toNat (matG j.f)).1, true, (joinTags (old :: outputConts j a b m n)).2⟩,
      (afterGroups j a b m n old.data.toNat (matG j.f)).2) := by
  simp [outputResult, (outputTags_valid j a b m n old).2 h, ← foldl_groupResult]

theorem outputResult_not_whole {old : Container} (h : ¬outputWhole j a b m n old) :
    outputResult j a b m n old = (Container.none, 0) := by
  simp [outputResult, Bool.eq_false_iff.2 (mt (outputTags_valid j a b m n old).1 h)]

end

/-! ## Tile writes (R199, R204, R205) -/

/-- What a job other than MDRAIN writes for an output, and the flags it raises for it. -/
def tileOutput (mem : Member) (j : Job) (p : Nat × Nat) : Container × KFlags :=
  match j.mop with
  | 5 => (Container.ord 0, 0)
  | 6 => ((j.opA.getD ([], [])).1.getD (p.1 * matN j.f + p.2) Container.none, 0)
  | _ => outputResult j (j.opA.getD ([], [])) (j.opB.getD ([], [])) p.1 p.2 (mem.accAt j.f.acc.toNat p.1 p.2)

theorem tileOutput_mzero (mem : Member) {j : Job} (hj : j.mop = 5) (p : Nat × Nat) : tileOutput mem j p = (Container.ord 0, 0) := by
  simp [tileOutput, hj]

theorem tileOutput_mldacc (mem : Member) {j : Job} (hj : j.mop = 6) (p : Nat × Nat) :
    tileOutput mem j p = ((j.opA.getD ([], [])).1.getD (p.1 * matN j.f + p.2) Container.none, 0) := by
  simp [tileOutput, hj]

theorem tileOutput_multiply (mem : Member) {j : Job} (h5 : j.mop ≠ 5) (h6 : j.mop ≠ 6) (p : Nat × Nat) : tileOutput mem j p =
    outputResult j (j.opA.getD ([], [])) (j.opB.getD ([], [])) p.1 p.2 (mem.accAt j.f.acc.toNat p.1 p.2) := by
  unfold tileOutput
  split
  · exact absurd ‹_› h5
  · exact absurd ‹_› h6
  · rfl

/-- The tile write of a job is the write of its outputs. -/
theorem tileWrite_eq (mem : Member) (j : Job) :
    mem.tileWrite j = mem.writeOutputs j.f.acc.toNat (tileOutput mem j) (outputs j.f) := by
  unfold Member.tileWrite
  split
  · next h5 => simp only [Member.writeOutputs, tileOutput_mzero mem h5, writeOutput_noFlags]
  · next h6 => simp only [Member.writeOutputs, tileOutput_mldacc mem h6, writeOutput_noFlags]
  · next h5 h6 =>
    simp only [Member.writeOutputs, tileOutput_multiply mem h5 h6]
    rfl

/-- The member whose array has written the tile of a job. -/
def Member.wroteTile (mem : Member) (j : Job) : Member := { mem.tileWrite j with jobs := mem.jobs.erase j }

theorem exec_arrayWrite_tile {s : State} {tk : Task} {j : Job} (h : Current s tk mem)
    (hj : mem.jobs.find? (fun k => k.due s.cycle) = some j) (h7 : j.mop ≠ 7) :
    exec .arrayWrite s = .next (s.put (mem.wroteTile j)) := by
  simp only [exec, execArrayWrite, onMember_cur h, hj, if_neg h7]
  rfl

theorem wroteTile_eq (mem : Member) (j : Job) : mem.wroteTile j =
    { mem with jobs := mem.jobs.erase j, acc := (mem.wroteTile j).acc, kf := (mem.wroteTile j).kf } := by
  unfold Member.wroteTile
  rw [tileWrite_eq]
  exact congrArg (fun x : Member => { x with jobs := mem.jobs.erase j }) (writeOutputs_eq ..)

/-- Every element of the job's part of its tile is its output, every other one is as before (R199). -/
theorem accAt_wroteTile (hw : mem.acc.risesFrom 0) (j : Job) {u m n : Nat} (hm : m < 128) (hn : n < 256) :
    (mem.wroteTile j).accAt u m n = if u = j.f.acc.toNat ∧ m < j.f.mm1.toNat + 1 ∧ n < j.f.nm1.toNat + 1
      then (tileOutput mem j (m, n)).1 else mem.accAt u m n := by
  rw [← accAt_writeOutputs hw _ _ _ hm hn, ← tileWrite_eq]
  rfl

theorem accAt_wroteTile_inside (hw : mem.acc.risesFrom 0) {j : Job} {m n : Nat} (hm : m < j.f.mm1.toNat + 1)
    (hn : n < j.f.nm1.toNat + 1) : (mem.wroteTile j).accAt j.f.acc.toNat m n = (tileOutput mem j (m, n)).1 := by
  rw [accAt_wroteTile hw j (by omega) (by omega), if_pos ⟨rfl, hm, hn⟩]

theorem kf_wroteTile (mem : Member) (j : Job) (k : Nat) : (mem.wroteTile j).kf.getLsbD k = true ↔ mem.kf.getLsbD k = true ∨
    ∃ m n, m < j.f.mm1.toNat + 1 ∧ n < j.f.nm1.toNat + 1 ∧ (tileOutput mem j (m, n)).2.getLsbD k = true := by
  rw [← kf_writeOutputs, ← tileWrite_eq]
  rfl

/-- kf stays where no output raises a flag. -/
theorem kf_wroteTile_of_noFlags {mem : Member} {j : Job} (h : ∀ p, (tileOutput mem j p).2 = 0) : (mem.wroteTile j).kf = mem.kf := by
  refine BitVec.eq_of_getLsbD_eq fun k _ => Bool.eq_iff_iff.2 ?_
  rw [kf_wroteTile]
  simp [h]

/-! ## Drained rows (R206) -/

/-- Only a narrow format asks whether an overflow saturates (R75). -/
theorem roundFmt_sat {f : Fmt} (hn : f.narrow = false) (hi : f.inf.isSome = true) (x : FVal) (rm : Nat) (sat : Bool) (rb : Nat) :
    roundFmt x f rm sat rb = roundFmt x f rm false rb := by
  obtain ⟨c, hc⟩ := Option.isSome_iff_exists.1 hi
  cases x with
  | nan => rfl
  | inf neg => simp [roundFmt, hc, hn]
  | fin neg m e => cases m <;> simp [roundFmt, roundMag, overflowCode, hn]

/-- A drained element by its format: the bytes it takes, its code and its flags (R206). -/
theorem drained_eq (f : MatFields) (bits : Nat → Nat) (m n : Nat) (d : W32) :
    drained f (bits (256 * m + n)) d = (drainFmt f.dfmt).map fun p => (p.1, drainElem f bits m n d.toNat) := by
  have hd : d.toNat % 2 ^ 32 = d.toNat := Nat.mod_eq_of_lt d.isLt
  unfold drained
  split
  · next h => simp [drainFmt, drainElem, h]
  · next h => simp [drainFmt, drainElem, h, roundFmt_sat (f := fp16) rfl rfl _ _ (f.sat == 1#1)]
  · next h => simp [drainFmt, drainElem, h, roundFmt_sat (f := bf16) rfl rfl _ _ (f.sat == 1#1)]
  · next h => simp [drainFmt, drainElem, h]
  · next h => simp [drainFmt, drainElem, h]
  · next h => simp [drainFmt, drainElem, h, satInt_eq_clampTo, wrapTo, toI]
  · next h => simp [drainFmt, drainElem, h, satInt_eq_clampTo, wrapTo, toI]
  · next h => simp [drainFmt, drainElem, h, satInt_eq_clampTo, wrapTo, toI, -Nat.reducePow, hd]
  · simp [drainFmt]

theorem drainW_of_drained {f : MatFields} {rb w : Nat} {d : W32} {r : Nat × KFlags} (h : drained f rb d = some (w, r)) : drainW f = w := by
  rw [drained_eq f (fun _ => rb) 0 0 d] at h
  obtain ⟨p, hp, hr⟩ := Option.map_eq_some_iff.1 h
  simp [drainW, hp, (Prod.mk.inj hr).1]

/-- The code and flags of a drained element, of a format that has some. -/
theorem drained_code {f : MatFields} {rb w : Nat} {d : W32} {r : Nat × KFlags} (h : drained f rb d = some (w, r)) (bits : Nat → Nat)
    (m n : Nat) (e : W32) : ((drained f (bits (256 * m + n)) e).map (·.2)).getD (0, 0) = drainElem f bits m n e.toNat := by
  rw [drained_eq f (fun _ => rb) 0 0 d] at h
  obtain ⟨p, hp, -⟩ := Option.map_eq_some_iff.1 h
  simp [drained_eq, hp]

/-- Bytes of a drained element: a container holds a whole number of them. -/
theorem drainW_mul (f : MatFields) : drainW f * (4 / drainW f) = 4 := by
  unfold drainW drainFmt
  split <;> rfl

section
variable (mem) (tk : Task) (j : Job)

/-- The tags of container i of the row an MDRAIN writes: those of the elements placed in it (R206). -/
def drainTag (i : Nat) : Bool × Bool :=
  joinTags (((List.range (4 / drainW j.f)).map fun k => i * (4 / drainW j.f) + k).map fun n => mem.accAt j.f.acc.toNat j.rowsDone n)

/-- The codes placed in container i of the row an MDRAIN writes, with their flags (R206). -/
def drainCodes (i : Nat) : List (Nat × KFlags) :=
  ((List.range (4 / drainW j.f)).map fun k => i * (4 / drainW j.f) + k).map fun n =>
    drainElem j.f (opBits tk mem j.key) j.rowsDone n (mem.accAt j.f.acc.toNat j.rowsDone n).data.toNat

/-- Container i of the row an MDRAIN writes. -/
def drainedCont (i : Nat) : Container := taggedC (drainTag mem j i) (packCodes (8 * drainW j.f) ((drainCodes mem tk j i).map (·.1)))

/-- The first container of the row an MDRAIN writes (R206). -/
def drainBase : Nat := (j.f.aaddr.toNat + j.rowsDone * matN j.f * drainW j.f) / 4

/-- Container i of the row an MDRAIN writes, written to a member. -/
def Member.drainCont (x : Member) (i : Nat) : Member :=
  if (drainTag mem j i).1 then
    { x.setCont (drainBase j + i) (drainedCont mem tk j i) with kf := (drainCodes mem tk j i).foldl (fun a e => a ||| e.2) x.kf }
  else x

theorem drainRow_eq : mem.drainRow tk j j.rowsDone = (List.range (matN j.f * drainW j.f / 4)).foldl (mem.drainCont tk j) mem := rfl

theorem drainTag_valid (i : Nat) : (drainTag mem j i).1 = true ↔
    ∀ k < 4 / drainW j.f, (mem.accAt j.f.acc.toNat j.rowsDone (i * (4 / drainW j.f) + k)).valid = true := by
  simp only [drainTag, joinTags_valid, List.forall_mem_map, List.mem_range]

theorem drainTag_poison (i : Nat) : (drainTag mem j i).2 = true ↔
    ∃ k < 4 / drainW j.f, (mem.accAt j.f.acc.toNat j.rowsDone (i * (4 / drainW j.f) + k)).poison = true := by
  simp [drainTag, joinTags_poison]

theorem drainedCont_valid {i : Nat} (hv : (drainTag mem j i).1 = true) : drainedCont mem tk j i =
    ⟨BitVec.ofNat 32 (packCodes (8 * drainW j.f) ((drainCodes mem tk j i).map (·.1))), true, (drainTag mem j i).2⟩ := by
  rw [drainedCont, taggedC, if_pos hv]

/-- Element k of a container of a drained row holds its code. -/
theorem drainedCont_code {i k : Nat} (hv : (drainTag mem j i).1 = true) (hk : k < 4 / drainW j.f) :
    (drainedCont mem tk j i).data.toNat / 2 ^ (8 * drainW j.f * k) % 2 ^ (8 * drainW j.f) =
      (drainElem j.f (opBits tk mem j.key) j.rowsDone (i * (4 / drainW j.f) + k)
        (mem.accAt j.f.acc.toNat j.rowsDone (i * (4 / drainW j.f) + k)).data.toNat).1 % 2 ^ (8 * drainW j.f) := by
  have hlen : ((drainCodes mem tk j i).map (·.1)).length = 4 / drainW j.f := by simp [drainCodes]
  have hlt := packCodes_lt (8 * drainW j.f) ((drainCodes mem tk j i).map (·.1))
  rw [hlen, Nat.mul_assoc, drainW_mul] at hlt
  rw [drainedCont_valid mem tk j hv, BitVec.toNat_ofNat, Nat.mod_eq_of_lt hlt, packCodes_at _ _ _ (hlen.symm ▸ hk)]
  simp [drainCodes]

/-- Drained containers change the scratchpad, the note of its writes and kf only. -/
theorem drainRow_frame (l : List Nat) (x : Member) : l.foldl (mem.drainCont tk j) x =
    { x with spad := (l.foldl (mem.drainCont tk j) x).spad, wrote := (l.foldl (mem.drainCont tk j) x).wrote,
             kf := (l.foldl (mem.drainCont tk j) x).kf } := by
  induction l generalizing x with
  | nil => rfl
  | cons i l ih =>
    rw [List.foldl_cons, ih]
    unfold Member.drainCont
    split <;> rfl

theorem cont_drainCont (x : Member) (i ci : Nat) : (mem.drainCont tk j x i).cont ci =
    if decide (ci = drainBase j + i) && (drainTag mem j i).1 then drainedCont mem tk j i else x.cont ci := by
  by_cases hv : (drainTag mem j i).1 = true
  · have hval : (drainedCont mem tk j i).valid = true := by rw [drainedCont_valid mem tk j hv]
    rw [Member.drainCont, if_pos hv, hv, Bool.and_true]
    exact (cont_setCont x (drainBase j + i) ci hval).trans (by simp)
  · simp [Member.drainCont, hv]

/-- A container is written by a drained row if it is one of the row's and its elements are valid (R206). -/
theorem cont_drainRow (ci : Nat) : (mem.drainRow tk j j.rowsDone).cont ci =
    if (List.range (matN j.f * drainW j.f / 4)).any (fun i => decide (ci = drainBase j + i) && (drainTag mem j i).1)
      then drainedCont mem tk j (ci - drainBase j) else mem.cont ci := by
  rw [drainRow_eq]
  refine foldl_read (inv := fun _ => True) (rd := fun x : Member => x.cont ci) trivial (fun _ _ _ _ => trivial) fun x i _ _ => ?_
  rw [cont_drainCont]
  by_cases hc : ci = drainBase j + i
  · rw [hc, Nat.add_sub_cancel_left]
  · simp [hc]

theorem cont_drainRow_at {i : Nat} (hi : i < matN j.f * drainW j.f / 4) : (mem.drainRow tk j j.rowsDone).cont (drainBase j + i) =
    if (drainTag mem j i).1 then drainedCont mem tk j i else mem.cont (drainBase j + i) := by
  have hany : (List.range (matN j.f * drainW j.f / 4)).any
      (fun k => decide (drainBase j + i = drainBase j + k) && (drainTag mem j k).1) = (drainTag mem j i).1 := by
    rw [Bool.eq_iff_iff]
    simp [hi]
  rw [cont_drainRow, hany, Nat.add_sub_cancel_left]

theorem cont_drainRow_outside {ci : Nat} (hci : ci < drainBase j ∨ drainBase j + matN j.f * drainW j.f / 4 ≤ ci) :
    (mem.drainRow tk j j.rowsDone).cont ci = mem.cont ci := by
  rw [cont_drainRow, if_neg]
  simp only [List.any_eq_true, List.mem_range, Bool.and_eq_true, decide_eq_true_eq]
  rintro ⟨i, hi, rfl, -⟩
  omega

/-- A drained row raises the flags of the elements of the containers it writes (R206). -/
theorem kf_drainRow (q : Nat) : (mem.drainRow tk j j.rowsDone).kf.getLsbD q = true ↔ mem.kf.getLsbD q = true ∨
    ∃ i k, i < matN j.f * drainW j.f / 4 ∧ (drainTag mem j i).1 = true ∧ k < 4 / drainW j.f ∧
      (drainElem j.f (opBits tk mem j.key) j.rowsDone (i * (4 / drainW j.f) + k)
        (mem.accAt j.f.acc.toNat j.rowsDone (i * (4 / drainW j.f) + k)).data.toNat).2.getLsbD q = true := by
  have hstep (x : Member) (i : Nat) : (mem.drainCont tk j x i).kf.getLsbD q =
      (x.kf.getLsbD q || ((drainTag mem j i).1 && (drainCodes mem tk j i).any fun e => e.2.getLsbD q)) := by
    by_cases hv : (drainTag mem j i).1 = true
    · rw [Member.drainCont, if_pos hv, hv, Bool.true_and]
      exact foldl_raises (rd := fun a : KFlags => a.getLsbD q) fun _ _ => BitVec.getLsbD_or
    · simp [Member.drainCont, hv]
  have hfold := foldl_raises (rd := fun x : Member => x.kf.getLsbD q) (l := List.range (matN j.f * drainW j.f / 4)) (x := mem) hstep
  rw [drainRow_eq, hfold]
  simp [drainCodes]

/-- The member whose array has written the next row of an MDRAIN. -/
def Member.wroteRow : Member :=
  { mem.drainRow tk j j.rowsDone with
    jobs := if j.rowsDone + 1 = matM j.f then mem.jobs.erase j
      else mem.jobs.map fun k => if k = j then { j with rowsDone := j.rowsDone + 1 } else k }

theorem wroteRow_eq : mem.wroteRow tk j =
    { mem with jobs := (mem.wroteRow tk j).jobs, spad := (mem.wroteRow tk j).spad, wrote := (mem.wroteRow tk j).wrote,
               kf := (mem.wroteRow tk j).kf } := by
  unfold Member.wroteRow
  rw [drainRow_eq, drainRow_frame]

end

theorem exec_arrayWrite_row {s : State} {tk : Task} {j : Job} (h : Current s tk mem)
    (hj : mem.jobs.find? (fun k => k.due s.cycle) = some j) (h7 : j.mop = 7) :
    exec .arrayWrite s = .next (s.put (mem.wroteRow tk j)) := by
  simp only [exec, execArrayWrite, onMember_cur h, hj, if_pos h7]
  rfl

end

/-- Settles O32: a job other than MDRAIN writes its outputs one by one (accAt_wroteTile, kf_wroteTile), those of a multiply word being
outputResult; MDRAIN writes the containers of its next row one by one (cont_drainRow, kf_drainRow). -/
theorem arrayWrites : Obligations.ArrayWrites := by
  unfold Obligations.ArrayWrites
  intro s tk mem j hcur hrise hj mm nn inside
  have hw := SMap.risesFrom_of_pairwise hrise
  refine ⟨fun h7 => ?tile, fun h7 w hfmt => ?drain⟩
  case tile =>
    refine ⟨mem.wroteTile j, exec_arrayWrite_tile hcur hj h7, wroteTile_eq mem j, ?outside, ?quiet, ?copied, ?multiply⟩
    case outside =>
      intro t m n _ hm hn hout
      rw [accAt_wroteTile hw j hm hn, if_neg hout]
    case quiet =>
      rintro (h5 | h6)
      · exact kf_wroteTile_of_noFlags fun p => by rw [tileOutput_mzero mem h5]
      · exact kf_wroteTile_of_noFlags fun p => by rw [tileOutput_mldacc mem h6]
    case copied =>
      rintro t m n ⟨rfl, hm, hn⟩
      rw [accAt_wroteTile_inside hw hm hn]
      refine ⟨fun h5 => by rw [tileOutput_mzero mem h5], fun h6 c hc => ?_⟩
      obtain ⟨x, hx, hget⟩ := Option.bind_eq_some_iff.1 hc
      rw [tileOutput_mldacc mem h6, hx]
      exact List.getD_eq_getElem?_getD.trans (congrArg (·.getD Container.none) hget)
    case multiply =>
      intro h1 h4 x y hx hy out whole
      have hout (m n : Nat) : tileOutput mem j (m, n) = outputResult j x y m n (mem.accAt j.f.acc.toNat m n) := by
        rw [tileOutput_multiply mem (by omega) (by omega), hx, hy]
        rfl
      have hwhole {m n : Nat} (h : whole m n) := outputResult_whole j x y m n h
      have hbroken {m n : Nat} (h : ¬whole m n) := outputResult_not_whole j x y m n h
      refine ⟨fun m n hm hn h => ?_, fun m n hm hn h => ?_, fun k => ?_⟩
      · rw [accAt_wroteTile_inside hw hm hn, hout, hwhole h]
        exact ⟨rfl, rfl, outputTags_poison j x y m n _⟩
      · rw [accAt_wroteTile_inside hw hm hn, hout, hbroken h]
      · have hflag (m n : Nat) : (tileOutput mem j (m, n)).2.getLsbD k = true ↔ whole m n ∧ (out m n).2.getLsbD k = true := by
          by_cases h : whole m n
          · rw [hout, hwhole h]
            exact (and_iff_right h).symm
          · rw [hout, hbroken h]
            simp [h]
        simp only [kf_wroteTile, hflag]
        rfl
  case drain =>
    obtain ⟨r, hr⟩ := hfmt 0 0
    obtain rfl := drainW_of_drained hr
    refine ⟨mem.wroteRow tk j, exec_arrayWrite_row hcur hj h7, wroteRow_eq mem tk j, fun hlast => if_pos hlast, ?_⟩
    intro base elem code whole
    have hcode (n : Nat) : code n = drainElem j.f (opBits tk mem j.key) j.rowsDone n (elem n).data.toNat := drained_code hr ..
    have hwhole (i : Nat) : whole i ↔ (drainTag mem j i).1 = true := (drainTag_valid mem j i).symm
    refine ⟨fun i hi => ⟨fun h => ?_, fun h => ?_⟩, fun ci hci => cont_drainRow_outside mem tk j hci, fun q => ?_⟩
    · rw [hwhole] at h
      exact (cont_drainRow_at mem tk j hi).trans (if_neg h)
    · rw [hwhole] at h
      have hcont : (mem.wroteRow tk j).cont (base + i) = drainedCont mem tk j i := (cont_drainRow_at mem tk j hi).trans (if_pos h)
      rw [hcont]
      refine ⟨by rw [drainedCont_valid mem tk j h], ?_, fun k hk => ?_⟩
      · rw [drainedCont_valid mem tk j h]
        exact drainTag_poison mem j i
      · rw [drainedCont_code mem tk j h hk, hcode]
    · simp only [hcode, hwhole]
      exact kf_drainRow mem tk j q

end Sys2Proof.Machine

namespace Sys2Proof.Machine
section
variable {s : State} {tk : Task} {mem m : Member} {c k : Cmd} {i : Instr} {f : CmdForm}

/-! ## What the plan of a command leaves alone (R218, R223 to R227, R240, R243, R260) -/

/-- Of a member only what the plan of a command may change differs: windows, batches, signatures, frozen rows and the note of a fetch. -/
def Member.plannedTo (mem m : Member) : Prop :=
  m = { mem with win := m.win, batchL := m.batchL, batchS := m.batchS, sigC := m.sigC, sigL := m.sigL, sigS := m.sigS
                 recCounts := m.recCounts, frozen := m.frozen, lastAcc := m.lastAcc }

/-- Of a command only what its form fills in at issue differs. -/
def Cmd.plannedTo (c k : Cmd) : Prop :=
  k = { c with desc := k.desc, ring := k.ring, batch := k.batch, bytes := k.bytes, out := k.out, step := k.step }

theorem Member.plannedTo_trans {a b d : Member} (h1 : a.plannedTo b) (h2 : b.plannedTo d) : a.plannedTo d := by
  unfold Member.plannedTo at *
  rw [h1] at h2
  exact h2

theorem Cmd.plannedTo_trans {a b d : Cmd} (h1 : a.plannedTo b) (h2 : b.plannedTo d) : a.plannedTo d := by
  unfold Cmd.plannedTo at *
  rw [h1] at h2
  exact h2

theorem Member.plannedTo_lastAcc (h : mem.plannedTo m) (b : Bool) : mem.plannedTo { m with lastAcc := b } := Member.plannedTo_trans h rfl

theorem Member.plannedTo_sign (tk : Task) (mem : Member) (x : Stream) (n : Nat) (body : List Byte) : mem.plannedTo (tk.sign mem x n body) := by
  unfold Task.sign
  split
  · cases x <;> rfl
  · rfl

theorem Member.plannedTo_freeze (mem : Member) (a len : Nat) : mem.plannedTo (mem.freeze a len) := rfl

theorem Member.plannedTo_freezes (l : List (Nat × Nat)) (mem : Member) : mem.plannedTo (l.foldl (fun m r => m.freeze r.1 r.2) mem) := by
  induction l generalizing mem with
  | nil => rfl
  | cons r l ih => exact Member.plannedTo_trans (mem.plannedTo_freeze r.1 r.2) (ih _)

theorem Member.plannedTo_closeBatch (mem : Member) (x : Stream) : mem.plannedTo (mem.closeBatch x) := by
  unfold Member.closeBatch
  split <;> rfl

theorem Member.plannedTo_deferS (tk : Task) (mem : Member) (c : Cmd) (l : List (Nat × Nat)) : mem.plannedTo (deferS tk mem c l) :=
  Member.plannedTo_trans (Member.plannedTo_sign ..) (Member.plannedTo_freezes l _)

theorem Member.plannedTo_deferPrefix (tk : Task) (mem : Member) (c : Cmd) (l : List (Nat × Nat)) :
    mem.plannedTo (deferPrefix tk mem c l) :=
  Member.plannedTo_trans (Member.plannedTo_sign ..) (Member.plannedTo_freezes l _)

/-- A plan with the fate of its form that changes no more than a plan may. -/
structure Plan.Fits (p : Plan) (f : CmdForm) (tk : Task) (mem : Member) (c : Cmd) : Prop where
  fate : p.fate = f.fate tk
  mem : mem.plannedTo p.mem
  cmd : c.plannedTo p.cmd

/-- The word of a form issues as issueCmd does, with a plan that fits the form. -/
def IssuesBy (f : CmdForm) (s : State) (i : Instr) : Prop :=
  ∃ plan : Task → Member → Cmd → Plan, exec i s = issueCmd s i f.hdr f.legal (f.checks s) plan f.room ∧
    ∀ tk mem c, (plan tk mem c).Fits f tk mem c

/-- The copies, windows, gathers, scatters, fills and prefetches issue by their forms. -/
theorem issuesBy_copyForm (hp : s.cur.phase = .issue) (h : copyForm s.cur.stream i = some f) : IssuesBy f s i := by
  unfold copyForm at h
  split at h <;> cases h
  case h_1 =>
    refine ⟨_, by simp only [exec, execWset, hp]; rfl, ?_⟩
    exact fun _ _ _ => ⟨rfl, rfl, rfl⟩
  case h_2 =>
    refine ⟨_, by simp only [exec, execWadv, hp]; rfl, ?_⟩
    exact fun _ _ _ => ⟨rfl, rfl, rfl⟩
  case h_3 =>
    refine ⟨_, by simp only [exec, execWclose, hp]; rfl, ?_⟩
    exact fun _ _ _ => ⟨rfl, rfl, rfl⟩
  case h_4 =>
    refine ⟨_, by simp only [exec, execCopy, hp, beq_iff_eq]; rfl, fun tk mem c => ?_⟩
    by_cases hl : s.cur.stream = .l
    · simp only [hl, if_true]
      exact ⟨rfl, rfl, rfl⟩
    · simp only [if_neg hl]
      cases hr : tk.replicated
      · exact ⟨by simp [hr], rfl, rfl⟩
      · exact ⟨by simp [hl, hr], Member.plannedTo_deferS .., rfl⟩
  case h_5 =>
    refine ⟨_, by simp only [exec, execPeerCopy, hp]; rfl, ?_⟩
    exact fun _ _ _ => ⟨rfl, rfl, rfl⟩
  case h_6 =>
    refine ⟨_, by simp only [exec, execGath, hp]; rfl, ?_⟩
    exact fun _ _ _ => ⟨rfl, rfl, rfl⟩
  case h_7 =>
    refine ⟨_, by simp only [exec, execGathTowin, hp]; rfl, ?_⟩
    exact fun _ _ _ => ⟨rfl, rfl, rfl⟩
  case h_8 =>
    refine ⟨_, by simp only [exec, execScat, hp]; rfl, fun tk mem c => ?_⟩
    cases hr : tk.replicated
    · exact ⟨by simp [hr, writeForm], rfl, rfl⟩
    · exact ⟨by simp [hr, writeForm], Member.plannedTo_deferS .., rfl⟩
  case h_9 =>
    refine ⟨_, by simp only [exec, execFill, hp]; rfl, ?_⟩
    exact fun _ _ _ => ⟨rfl, rfl, rfl⟩
  case h_10 =>
    refine ⟨_, by simp only [exec, execFill, hp]; rfl, fun tk mem c => ?_⟩
    cases hr : tk.replicated
    · exact ⟨by simp [hr, writeForm], rfl, rfl⟩
    · exact ⟨by simp [hr, writeForm], Member.plannedTo_deferS .., rfl⟩
  case h_11 =>
    refine ⟨_, by simp only [exec, execPref, hp]; rfl, ?_⟩
    exact fun _ _ _ => ⟨rfl, rfl, rfl⟩
  case h_12 =>
    refine ⟨_, by simp only [exec, execWaitb, hp]; rfl, ?_⟩
    exact fun _ mem _ => ⟨rfl, Member.plannedTo_closeBatch mem _, rfl⟩

/-- A command of rows 0x2_ to 0x4_ issues by its form. -/
theorem issuesBy_prefixIssue {h : Hdr} {p : PrmRes} {g : PrefixForm} {legal : Task → Bool} {post : Member → Cmd → Member × Cmd}
    (hpost : ∀ (mem : Member) (c : Cmd), mem.plannedTo (post mem c).1 ∧ c.plannedTo (post mem c).2)
    (he : exec i s = prefixIssue s i h p g legal post) : IssuesBy (recordCmdForm h p g legal) s i := by
  refine ⟨_, he, fun tk mem c => ?_⟩
  dsimp only
  generalize hc1 : ({ c with out := _, bytes := _ } : Cmd) = c1
  have hc : c.plannedTo c1 := hc1 ▸ rfl
  unfold recordCmdForm
  split_ifs with hd ht
  · exact ⟨by simp only [hd, if_true], Member.plannedTo_deferPrefix .., hc⟩
  · exact ⟨by simp only [hd, ht, if_true, if_false, Bool.false_eq_true], Member.plannedTo_sign .., hc⟩
  · exact ⟨by simp only [hd, ht, if_false, Bool.false_eq_true], (hpost mem c1).1, Cmd.plannedTo_trans hc (hpost mem c1).2⟩

/-- The store, selection, token and grammar commands issue by their forms. -/
theorem issuesBy_storeCmdForm (hp : s.cur.phase = .issue) (h : storeCmdForm i = some f) : IssuesBy f s i := by
  have plain (mem : Member) (c : Cmd) : mem.plannedTo (mem, c).1 ∧ c.plannedTo (mem, c).2 := ⟨rfl, rfl⟩
  unfold storeCmdForm at h
  split at h <;> cases h
  case h_19 =>
    refine issuesBy_prefixIssue ?_ (by simp only [exec, execPgath, hp]; rfl)
    exact fun _ _ => ⟨rfl, rfl⟩
  all_goals
    refine issuesBy_prefixIssue plain ?_
    simp only [exec, execSlopen, execSlfork, execSlmove, execSlmoveSwap, execSlclose, execSlinfo, execRxlook, execSeal, execKapp,
      execCpact, execRepl, execLease, execRenew, execFree, execEvclass, execPromo, execNodeinfo, execBsel, execTkdetok, execGload,
      execGmask, execGstepStep, execGstepStart, execGstepOff, hp] <;> rfl

/-- An accumulate is accumulate of its AOP. -/
theorem exec_accOf {a : Aop} {fetch : Bool} {h : Hdr} {r : AccFields} (ha : accOf i = some (a, fetch, h, r)) (s : State) :
    exec i s = accumulate i a fetch h r s := by
  unfold accOf at ha
  split at ha <;> cases ha <;> rfl

/-- The accumulates and CAS issue by their forms. -/
theorem issuesBy_atomicForm (hp : s.cur.phase = .issue) (h : atomicForm i = some f) : IssuesBy f s i := by
  unfold atomicForm at h
  split at h
  case h_1 =>
    obtain rfl := Option.some.inj h
    refine ⟨_, by simp only [exec, execCas, hp]; rfl, fun tk mem c => ?_⟩
    refine ⟨rfl, Member.plannedTo_lastAcc ?_ true, rfl⟩
    by_cases hr : tk.replicated = true
    · rw [if_pos hr]
      exact Member.plannedTo_trans (Member.plannedTo_sign ..) (Member.plannedTo_freeze ..)
    · rw [if_neg hr]
      exact Member.plannedTo_sign ..
  case h_2 =>
    obtain ⟨⟨a, fetch, hd, r⟩, ha, rfl⟩ := Option.map_eq_some_iff.mp h
    refine ⟨accPlan a fetch r, by simp only [exec_accOf ha, accumulate, hp], fun tk mem c => ?_⟩
    by_cases hd2 : r.dmode = 2#2
    · simp only [accPlan, hd2, beq_self_eq_true, if_true]
      exact ⟨rfl, Member.plannedTo_sign .., rfl⟩
    · simp only [accPlan, beq_eq_false_iff_ne.mpr hd2, hd2, Bool.false_eq_true, if_false]
      refine ⟨rfl, Member.plannedTo_lastAcc ?_ _, rfl⟩
      by_cases hr : tk.replicated = true
      · rw [if_pos hr]
        exact Member.plannedTo_trans (Member.plannedTo_sign ..) (Member.plannedTo_freezes ..)
      · rw [if_neg hr]
        exact Member.plannedTo_sign ..

/-- Every command with a form issues by it. -/
theorem issuesBy_cmdForm (hp : s.cur.phase = .issue) (h : cmdForm s.cur.stream i = some f) : IssuesBy f s i := by
  unfold cmdForm at h
  cases hc : copyForm s.cur.stream i with
  | some a =>
    rw [hc] at h
    obtain rfl := Option.some.inj h
    exact issuesBy_copyForm hp hc
  | none =>
    rw [hc, Option.orElse_none] at h
    cases ha : atomicForm i with
    | some a =>
      rw [ha] at h
      obtain rfl := Option.some.inj h
      exact issuesBy_atomicForm hp ha
    | none =>
      rw [ha, Option.orElse_none] at h
      exact issuesBy_storeCmdForm hp h

/-! ## The issue of an engine command (R217, R218, R219) -/

/-- The limits of a command at issue: those of its header (R94, R220), the rule after a fetch (R240), and its own. -/
def CmdForm.allowed (f : CmdForm) (s : State) (tk : Task) (mem : Member) : Prop :=
  hdrLegal tk f.hdr = true ∧ ¬ (s.cur.stream = .s ∧ mem.lastAcc = true) ∧ f.legal tk mem = true

/-- The count a command waits for is in its semaphore (R48, R94). -/
def CmdForm.counted (f : CmdForm) (mem : Member) : Prop := f.hdr.wcnt = 0#4 ∨ mem.semReady f.hdr.wsem.toNat f.hdr.wcnt.toNat = true

/-- A queue entry, and what else the command needs, is free (R219). -/
def CmdForm.entry (f : CmdForm) (s : State) (mem : Member) : Prop := (mem.queued s.cur.stream).length < 16 ∧ f.room mem = true

/-- The member with the wait of a command consumed (R94). -/
def Member.waited (mem : Member) (h : Hdr) : Member := if h.wcnt = 0#4 then mem else mem.semTake h.wsem.toNat h.wcnt.toNat

theorem issued_eq (s : State) (h : Hdr) (mem : Member) : issued s h mem = .next (afterTimed s (mem.waited h)) := rfl

/-- A command put into the deferred-write queue (R240, R243). -/
def Member.defer (mem : Member) (c : Cmd) : Member := { mem with dwq := mem.dwq ++ [.cmd { c with state := .deferred }] }

/-- The number of the next command moved on. -/
def Member.numbered (mem : Member) : Member := { mem with nextCmd := mem.nextCmd + 1 }

/-- The queue entry that a follow-on step keeps, of a copy that is deferred (R215, R243). -/
def Member.deferStep (mem : Member) (c : Cmd) : Member :=
  { (mem.defer { c with ssem := 0 }).numbered with cmds := mem.cmds ++ [{ c with state := .moved 0, so := 0, bytes := 0 }] }

/-- How a command whose checks are passed leaves its issue, by its plan. -/
def Plan.leaves (p : Plan) (s : State) (tk : Task) (mem : Member) (h : Hdr) : Res :=
  let full := decide (64 ≤ p.mem.dwq.length)
  match p.fate with
  | .queued => issued s h (p.mem.enqueue p.cmd)
  | .done =>
    let r := s.addBytes s.cur.task s.cur.member tk p.mem.numbered p.cmd 0
    issued r.2 h (r.1.signal p.cmd)
  | .deferred => if full then raiseSchedule s mem 10 else issued s h ((p.mem.defer p.cmd).numbered.signal p.cmd)
  | .deferredStep => if full then raiseSchedule s mem 10 else issued s h (p.mem.deferStep p.cmd)
  | .twice => if full then raiseSchedule s mem 10 else issued s h ((p.mem.defer { p.cmd with ssem := 0, so := 0 }).enqueue p.cmd)

/-- The checks at issue in their order (R218): limits, semaphore, entry, and the command's own checks. -/
theorem exec_cmd (hc : Current s tk mem) (hp : s.cur.phase = .issue) (hf : cmdForm s.cur.stream i = some f)
    (hw : (mem.str s.cur.stream).waiting = false) : ∃ p : Plan, p.Fits f tk mem (newCmd s mem i f.hdr.ssem f.hdr.so) ∧
      (¬ f.allowed s tk mem → exec i s = raiseIllegal s mem) ∧
      (f.allowed s tk mem → ¬ f.counted mem → exec i s = scoreboard s tk mem cSchedule 0 5) ∧
      (f.allowed s tk mem → f.counted mem → ¬ f.entry s mem → exec i s = scoreboard s tk mem cSchedule 0 6) ∧
      (f.allowed s tk mem → f.counted mem → f.entry s mem →
        exec i s = (f.checks s tk mem).elim (p.leaves s tk mem f.hdr) (raiseTrap s mem)) := by
  obtain ⟨plan, he, hfit⟩ := issuesBy_cmdForm hp hf
  have hallowed : (hdrLegal tk f.hdr && !(s.cur.stream == Stream.s && mem.lastAcc) && f.legal tk mem) = true ↔ f.allowed s tk mem := by
    simp only [CmdForm.allowed, Bool.and_eq_true, Bool.not_eq_true', Bool.and_eq_false_iff, beq_eq_false_iff_ne, and_assoc, not_and_or,
      Bool.not_eq_true, ne_eq]
  have hcounted : (f.hdr.wcnt ≠ 0#4 ∧ mem.semReady f.hdr.wsem.toNat f.hdr.wcnt.toNat = false) ↔ ¬ f.counted mem := by
    simp only [CmdForm.counted, not_or, Bool.not_eq_true, ne_eq]
  have hentry : (decide (16 ≤ (mem.queued s.cur.stream).length) || !f.room mem) = true ↔ ¬ f.entry s mem := by
    simp only [CmdForm.entry, Bool.or_eq_true, decide_eq_true_eq, Bool.not_eq_true', not_and_or, Nat.not_lt, Bool.not_eq_true]
  refine ⟨_, hfit tk mem _, ?_⟩
  rw [he, issueCmd, onMember_cur hc]
  simp only [Member.cur, hw, Bool.not_false, Bool.true_and]
  refine ⟨fun hl => ?_, fun hl hn => ?_, fun hl hn hr => ?_, fun hl hn hr => ?_⟩
  · rw [Bool.eq_false_iff.mpr (mt hallowed.mp hl)]
    rfl
  all_goals simp only [hallowed.mpr hl, Bool.not_true, Bool.false_eq_true, if_false]
  · rw [if_pos (hcounted.mpr hn)]
  · rw [if_neg (mt hcounted.mp (not_not.mpr hn)), if_pos (hentry.mpr hr)]
  · rw [if_neg (mt hcounted.mp (not_not.mpr hn)), if_neg (mt hentry.mp (not_not.mpr hr))]
    cases f.checks s tk mem with
    | some t => rfl
    | none =>
      unfold Plan.leaves
      cases (plan tk mem (newCmd s mem i f.hdr.ssem f.hdr.so)).fate <;> simp only [decide_eq_true_eq] <;> rfl

/-- Of a member only what a plan may change differs, with the queues, the counts that wait and the next number: one command has issued. -/
def Member.issuedTo (mem m : Member) : Prop :=
  m = { mem with win := m.win, batchL := m.batchL, batchS := m.batchS, sigC := m.sigC, sigL := m.sigL, sigS := m.sigS
                 recCounts := m.recCounts, frozen := m.frozen, lastAcc := m.lastAcc, cmds := m.cmds, dwq := m.dwq, counts := m.counts
                 nextCmd := mem.nextCmd + 1, pend := { mem.pend with semAdd := m.pend.semAdd } }

theorem Member.issuedTo_of_planned {a b d : Member} (h1 : a.plannedTo b) (h2 : b.issuedTo d) : a.issuedTo d := by
  unfold Member.plannedTo at h1
  unfold Member.issuedTo at *
  rw [h1] at h2
  exact h2

theorem Member.issuedTo_numbered (mem : Member) : mem.issuedTo mem.numbered := rfl

theorem Member.issuedTo_defer (mem : Member) (c : Cmd) : mem.issuedTo (mem.defer c).numbered := rfl

theorem Member.issuedTo_deferStep (mem : Member) (c : Cmd) : mem.issuedTo (mem.deferStep c) := rfl

theorem Member.issuedTo_of_defer {c : Cmd} (h : (mem.defer c).issuedTo m) : mem.issuedTo m := h

theorem Member.deferStep_queues (mem : Member) (c : Cmd) : (mem.deferStep c).counts = mem.counts ∧
    (mem.deferStep c).dwq = mem.dwq ++ [.cmd { c with ssem := 0, state := .deferred }] ∧
    (mem.deferStep c).cmds = mem.cmds ++ [{ c with state := .moved 0, so := 0, bytes := 0 }] := ⟨rfl, rfl, rfl⟩

theorem Member.defer_queues (mem : Member) (c : Cmd) : (mem.defer c).numbered.counts = mem.counts ∧
    (mem.defer c).numbered.dwq = mem.dwq ++ [.cmd { c with state := .deferred }] ∧ (mem.defer c).numbered.cmds = mem.cmds := ⟨rfl, rfl, rfl⟩

theorem Member.issuedTo_signal (h : mem.issuedTo m) (c : Cmd) : mem.issuedTo (m.signal c) := by
  unfold Member.signal
  split
  · exact h
  · unfold Member.issuedTo at *
    rw [h]
    rfl

theorem Member.refilled_eq (mem : Member) (c : Cmd) : mem.refilled c = { mem with win := (mem.refilled c).win } := by
  unfold Member.refilled
  split <;> rfl

/-- A command that takes its queue entry is the one issued, from the mark and on the channel of a held command it matches. -/
theorem Member.enqueue_spec (mem : Member) (c : Cmd) : mem.issuedTo (mem.enqueue c) ∧ (mem.enqueue c).dwq = mem.dwq ∧
    (mem.enqueue c).counts = mem.counts ∧ ∃ k : Cmd, (mem.enqueue c).cmds = mem.cmds ++ [k] ∧
      k = { c with chan := k.chan, mark := k.mark, step := k.step, out := k.out, pages := k.pages, kept := k.kept } := by
  unfold Member.enqueue Member.issuedTo
  dsimp only
  rw [Member.refilled_eq]
  refine ⟨rfl, rfl, rfl, _, rfl, ?_⟩
  split <;> rfl

theorem Member.waited_eq (mem : Member) (h : Hdr) : mem.waited h = { mem with pend := { mem.pend with
    semTaken := mem.pend.semTaken ++ if h.wcnt = 0#4 then [] else [(h.wsem.toNat, h.wcnt.toNat)] } } := by
  unfold Member.waited
  split
  · rw [List.append_nil]
  · rfl

theorem Member.signal_eq (mem : Member) (c : Cmd) : mem.signal c = { mem with pend := { mem.pend with semAdd := (mem.signal c).pend.semAdd } } := by
  unfold Member.signal
  split <;> rfl

@[simp] theorem Member.signal_counts (m : Member) (c : Cmd) : (m.signal c).counts = m.counts := by rw [Member.signal_eq]
@[simp] theorem Member.signal_dwq (m : Member) (c : Cmd) : (m.signal c).dwq = m.dwq := by rw [Member.signal_eq]
@[simp] theorem Member.signal_cmds (m : Member) (c : Cmd) : (m.signal c).cmds = m.cmds := by rw [Member.signal_eq]

/-- The command of a plan is the one issued, whatever state and destinations its fate gives it. -/
theorem issuedAs_of_plannedTo {ssem so : BitVec 6} (h : (newCmd s mem i ssem so).plannedTo c) (hi : k.instr = c.instr) (hs : k.stream = c.stream)
    (hc : k.issued = c.issued) (hk : k.key = c.key) : issuedAs s i k.state k := by
  unfold Cmd.plannedTo at h
  refine ⟨hi.trans ?_, hs.trans ?_, rfl, hc.trans ?_, (congrArg RngKey.addr hk).trans ?_⟩ <;> rw [h] <;> rfl

/-! ## Byte counts added to their objects (R220, R478) -/

theorem addBytes_none {t n u : Nat} (h : c.so = 0) : s.addBytes t n tk mem c u = (mem, s) := if_pos h

theorem addBytes_replicated {t n u : Nat} (h : c.so ≠ 0) (hr : tk.replicated = true) :
    s.addBytes t n tk mem c u = ({ mem with counts := mem.counts ++ [{ c with bytes := u }] }, s) := by
  rw [State.addBytes, if_neg h, if_pos hr]

/-- With an empty side log the count goes to a writable object that memory holds. -/
theorem addBytes_object {t n u : Nat} {l : Leaf} (h : c.so ≠ 0) (hr : tk.replicated = false) (hlog : s.slog = [])
    (hm : mapped s tk mem (c.object tk) l) (hlw : l.w = true) (ho : s.objectOk (l.pa (c.object tk)) = true) :
    ∃ s1 : State, Reads s s1 ∧ s.addBytes t n tk mem c u = (mem, s1.barrierAdd (l.pa (c.object tk)) u) := by
  obtain ⟨s1, x, h1, ht⟩ := translateFor_of_mapped hm
  have ho1 : s1.objectOk (l.pa (c.object tk)) = true := by rw [State.objectOk, h1.rangeOk, h1.canWrite]; exact ho
  refine ⟨s1, h1, ?_⟩
  simp [State.addBytes, h, hr, hlog, State.objectRoom, State.addObject, ht, hlw, ho1]

/-! ## How a command leaves its issue (R219, R226, R240, R243, R291) -/

section
variable {p : Plan} {h : Hdr} (hp : p.Fits f tk mem (newCmd s mem i h.ssem h.so))
include hp

theorem dwq_of_fits : p.mem.dwq = mem.dwq := by rw [hp.mem]

theorem cmds_of_fits : p.mem.cmds = mem.cmds := by rw [hp.mem]

theorem counts_of_fits : p.mem.counts = mem.counts := by rw [hp.mem]

theorem so_of_fits : p.cmd.so = h.so.toNat := by rw [hp.cmd]; rfl

theorem ssem_of_fits : p.cmd.ssem = h.ssem.toNat := by rw [hp.cmd]; rfl

theorem leaves_full (hd : f.fate tk = .deferred ∨ f.fate tk = .deferredStep ∨ f.fate tk = .twice) (hfull : 64 ≤ mem.dwq.length) :
    p.leaves s tk mem h = .next (faulted s mem cSchedule 0 10) := by
  rw [← dwq_of_fits hp] at hfull
  obtain hd | hd | hd := hd <;> rw [← hp.fate] at hd <;> simp only [Plan.leaves, hd, hfull, decide_true, if_true] <;> rfl

theorem leaves_queued (hd : f.fate tk = .queued) : ∃ m : Member, p.leaves s tk mem h = .next (afterTimed s (m.waited h)) ∧
    mem.issuedTo m ∧ m.counts = mem.counts ∧ m.dwq = mem.dwq ∧ ∃ c, m.cmds = mem.cmds ++ [c] ∧ issuedAs s i .queued c := by
  obtain ⟨hi, hdwq, hcounts, k, hk, hke⟩ := p.mem.enqueue_spec p.cmd
  rw [← hp.fate] at hd
  refine ⟨p.mem.enqueue p.cmd, by simp only [Plan.leaves, hd]; rfl, Member.issuedTo_of_planned hp.mem hi, hcounts.trans (counts_of_fits hp),
    hdwq.trans (dwq_of_fits hp), k, by rw [hk, cmds_of_fits hp], ?_⟩
  have hs : k.state = .queued := by rw [hke, hp.cmd]; rfl
  exact hs ▸ issuedAs_of_plannedTo hp.cmd (by rw [hke]) (by rw [hke]) (by rw [hke]) (by rw [hke])

section
variable (hroom : mem.dwq.length < 64)
include hroom

theorem leaves_deferred (hd : f.fate tk = .deferred) : ∃ m : Member, p.leaves s tk mem h = .next (afterTimed s (m.waited h)) ∧
    mem.issuedTo m ∧ m.counts = mem.counts ∧ m.cmds = mem.cmds ∧ ∃ c, m.dwq = mem.dwq ++ [.cmd c] ∧ issuedAs s i .deferred c := by
  rw [← hp.fate] at hd
  have hd10 : ¬ 64 ≤ p.mem.dwq.length := by rw [dwq_of_fits hp]; omega
  obtain ⟨hcounts, hdwq, hcmds⟩ := p.mem.defer_queues p.cmd
  refine ⟨(p.mem.defer p.cmd).numbered.signal p.cmd,
    by simp only [Plan.leaves, hd, hd10, decide_false, Bool.false_eq_true, if_false]; rfl, ?_, ?_, ?_, { p.cmd with state := .deferred }, ?_, ?_⟩
  · exact Member.issuedTo_signal (Member.issuedTo_of_planned hp.mem (p.mem.issuedTo_defer p.cmd)) _
  · rw [Member.signal_counts, hcounts, counts_of_fits hp]
  · rw [Member.signal_cmds, hcmds, cmds_of_fits hp]
  · rw [Member.signal_dwq, hdwq, dwq_of_fits hp]
  · exact issuedAs_of_plannedTo hp.cmd rfl rfl rfl rfl

theorem leaves_deferredStep (hd : f.fate tk = .deferredStep) : ∃ m : Member, p.leaves s tk mem h = .next (afterTimed s (m.waited h)) ∧
    mem.issuedTo m ∧ m.counts = mem.counts ∧ ∃ c d, m.dwq = mem.dwq ++ [.cmd c] ∧ issuedAs s i .deferred c ∧ c.ssem = 0 ∧
      m.cmds = mem.cmds ++ [d] ∧ issuedAs s i (.moved 0) d ∧ d.ssem = h.ssem.toNat := by
  rw [← hp.fate] at hd
  have hd10 : ¬ 64 ≤ p.mem.dwq.length := by rw [dwq_of_fits hp]; omega
  obtain ⟨hcounts, hdwq, hcmds⟩ := p.mem.deferStep_queues p.cmd
  refine ⟨p.mem.deferStep p.cmd, by simp only [Plan.leaves, hd, hd10, decide_false, Bool.false_eq_true, if_false]; rfl,
    Member.issuedTo_of_planned hp.mem (p.mem.issuedTo_deferStep p.cmd), hcounts.trans (counts_of_fits hp),
    { p.cmd with ssem := 0, state := .deferred }, { p.cmd with state := .moved 0, so := 0, bytes := 0 }, ?_, ?_, rfl, ?_, ?_,
    ssem_of_fits hp⟩
  · rw [hdwq, dwq_of_fits hp]
  · exact issuedAs_of_plannedTo hp.cmd rfl rfl rfl rfl
  · rw [hcmds, cmds_of_fits hp]
  · exact issuedAs_of_plannedTo hp.cmd rfl rfl rfl rfl

theorem leaves_twice (hd : f.fate tk = .twice) : ∃ m : Member, p.leaves s tk mem h = .next (afterTimed s (m.waited h)) ∧
    mem.issuedTo m ∧ m.counts = mem.counts ∧ ∃ c d, m.dwq = mem.dwq ++ [.cmd c] ∧ issuedAs s i .deferred c ∧ c.ssem = 0 ∧ c.so = 0 ∧
      m.cmds = mem.cmds ++ [d] ∧ issuedAs s i .queued d := by
  rw [← hp.fate] at hd
  have hd10 : ¬ 64 ≤ p.mem.dwq.length := by rw [dwq_of_fits hp]; omega
  obtain ⟨hi, hdwq, hcounts, k, hk, hke⟩ := (p.mem.defer { p.cmd with ssem := 0, so := 0 }).enqueue_spec p.cmd
  refine ⟨(p.mem.defer { p.cmd with ssem := 0, so := 0 }).enqueue p.cmd,
    by simp only [Plan.leaves, hd, hd10, decide_false, Bool.false_eq_true, if_false]; rfl,
    Member.issuedTo_of_planned hp.mem (Member.issuedTo_of_defer hi), hcounts.trans (counts_of_fits hp),
    { p.cmd with ssem := 0, so := 0, state := .deferred }, k,
    hdwq.trans ?_, ?_, rfl, rfl, hk.trans ?_, ?_⟩
  · exact congrArg (· ++ _) (dwq_of_fits hp)
  · exact issuedAs_of_plannedTo hp.cmd rfl rfl rfl rfl
  · exact congrArg (· ++ _) (cmds_of_fits hp)
  · have hs : k.state = .queued := by rw [hke, hp.cmd]; rfl
    exact hs ▸ issuedAs_of_plannedTo hp.cmd (by rw [hke]) (by rw [hke]) (by rw [hke]) (by rw [hke])

end

/-- A command complete at once adds its byte count of 0, then signals. -/
theorem leaves_done (hd : f.fate tk = .done) : ∃ q : Member, mem.issuedTo q ∧ q.counts = mem.counts ∧ q.dwq = mem.dwq ∧
    q.cmds = mem.cmds ∧ q.tlbC = mem.tlbC ∧
    let r := s.addBytes s.cur.task s.cur.member tk q p.cmd 0
    p.leaves s tk mem h = .next (afterTimed r.2 ((r.1.signal p.cmd).waited h)) := by
  rw [← hp.fate] at hd
  refine ⟨p.mem.numbered, Member.issuedTo_of_planned hp.mem p.mem.issuedTo_numbered, counts_of_fits hp, dwq_of_fits hp, cmds_of_fits hp,
    (congrArg Member.tlbC hp.mem :), ?_⟩
  simp only [Plan.leaves, hd]
  rfl

end

/-- What an issued command leaves of the member once its wait is consumed. -/
theorem Member.waited_of_issuedTo (hm : mem.issuedTo m) (h : Hdr) : (m.waited h).g = mem.g ∧ (m.waited h).v = mem.v ∧
    (m.waited h).spad = mem.spad ∧ (m.waited h).d = mem.d ∧ (m.waited h).tq = mem.tq ∧ (m.waited h).sem = mem.sem ∧
    (m.waited h).nextCmd = mem.nextCmd + 1 ∧
    (m.waited h).pend.semTaken = mem.pend.semTaken ++ if h.wcnt = 0#4 then [] else [(h.wsem.toNat, h.wcnt.toNat)] := by
  rw [Member.waited_eq, hm]
  exact ⟨rfl, rfl, rfl, rfl, rfl, rfl, rfl, rfl⟩

@[simp] theorem Member.waited_counts (m : Member) (h : Hdr) : (m.waited h).counts = m.counts := by rw [Member.waited_eq]
@[simp] theorem Member.waited_dwq (m : Member) (h : Hdr) : (m.waited h).dwq = m.dwq := by rw [Member.waited_eq]
@[simp] theorem Member.waited_cmds (m : Member) (h : Hdr) : (m.waited h).cmds = m.cmds := by rw [Member.waited_eq]

/-- Of the member a byte count can only come to wait for the commit. -/
theorem addBytes_mem (s : State) (t n : Nat) (tk : Task) (mem : Member) (c : Cmd) (u : Nat) :
    (s.addBytes t n tk mem c u).1 = { mem with counts := (s.addBytes t n tk mem c u).1.counts } := by
  unfold State.addBytes
  dsimp only
  repeat' split
  all_goals rfl

theorem issuedTo_addBytes {t n u : Nat} (h : mem.issuedTo m) : mem.issuedTo (s.addBytes t n tk m c u).1 := by
  rw [addBytes_mem]
  unfold Member.issuedTo at *
  rw [h]

/-- The object of a command is the one its handle is bound to. -/
theorem object_of_so {so : BitVec 6} (h : c.so = so.toNat) (tk : Task) : c.object tk = (tk.handle so).addr := by
  have hlt : so.toNat < tk.so.toList.length := by simpa using so.isLt
  rw [Cmd.object, h, Task.handle, List.getD_eq_getElem _ _ hlt]
  rfl

/-- BCLOSE issues, or meets one of its two checks (R223). -/
theorem exec_bclose (hc : Current s tk mem) (r : CloseFields) : exec (.bclose r) s =
    if s.cur.stream = .s ∧ mem.lastAcc = true then .next (faulted s mem cIllegal 0 0)
    else if r.wcnt ≠ 0#4 ∧ mem.semReady 0 r.wcnt.toNat = false then
      .next (if tk.tolerant = true then heldACycle s mem else faulted s mem cSchedule 0 5)
    else .next (afterTimed s ((if r.wcnt = 0#4 then mem else mem.semTake 0 r.wcnt.toNat).closeBatch s.cur.stream)) := by
  simp only [exec, execBclose, onMember_cur hc, scoreboard_eq, raiseIllegal_eq, tDone_eq, Bool.and_eq_true, beq_iff_eq]

end

/-- Settles O42: the checks of every command in their order are exec_cmd, its five ways of leaving issue leaves_queued, leaves_done,
leaves_deferred, leaves_deferredStep and leaves_twice; BCLOSE is exec_bclose. -/
theorem engineCommandsIssue : Obligations.EngineCommandsIssue := by
  unfold Obligations.EngineCommandsIssue
  refine ⟨?commands, ?bclose⟩
  case commands =>
    intro s tk mem i f hc hp hf hw h legal counted entry refusal
    obtain ⟨p, hfit, hillegal, huncounted, hunqueued, hpassed⟩ := exec_cmd hc hp hf hw
    have hrefusal (aux : Nat) (hx : exec i s = scoreboard s tk mem cSchedule 0 aux) : refusal aux :=
      ⟨fun ht => by rw [hx, scoreboard_eq, ht]; rfl, fun ht => by rw [hx, scoreboard_eq, ht]; rfl⟩
    refine ⟨hillegal, fun hl hn => hrefusal 5 (huncounted hl hn), fun hl hn hr => hrefusal 6 (hunqueued hl hn hr),
      fun t hl hn hr ht => ?trap, fun hl hn hr ht hd hfull => ?full, fun hl hn hr ht hroom => ?issues⟩
    case trap => rw [hpassed hl hn hr, ht, Option.elim_some, raiseTrap_eq]
    case full => rw [hpassed hl hn hr, ht, Option.elim_none, leaves_full hfit hd hfull]
    case issues =>
      have hx := hpassed hl hn hr
      rw [ht, Option.elim_none] at hx
      cases hfate : f.fate tk with
      | queued =>
        obtain ⟨m, hm, hi, hcounts, hdwq, c, hcmds, hcmd⟩ := leaves_queued hfit hfate
        obtain ⟨h1, h2, h3, h4, h5, h6, h7, h8⟩ := Member.waited_of_issuedTo hi h
        exact ⟨s, m.waited h, hx.trans hm, h1, h2, h3, h4, h5, h6, h7, h8, fun _ => ⟨rfl, by simpa⟩, fun _ => ⟨by simpa, c, by simpa, hcmd⟩,
          nofun, nofun, nofun, nofun⟩
      | done =>
        obtain ⟨q, hi, hcounts, hdwq, hcmds, htlb, hq⟩ := leaves_done hfit hfate
        have hr1 := addBytes_mem s s.cur.task s.cur.member tk q p.cmd 0
        have hso := so_of_fits hfit
        obtain ⟨h1, h2, h3, h4, h5, h6, h7, h8⟩ := Member.waited_of_issuedTo (Member.issuedTo_signal (issuedTo_addBytes hi) p.cmd) h
        refine ⟨_, _, hx.trans hq, h1, h2, h3, h4, h5, h6, h7, h8, fun hn => ?_, nofun, fun _ => ⟨?_, ?_, fun h0 => ⟨fun hrep => ?_, ?_⟩⟩,
          nofun, nofun, nofun⟩
        · have h0 : p.cmd.so = 0 := by rw [hso, hn.resolve_left (absurd rfl)]; rfl
          rw [addBytes_none h0]
          exact ⟨rfl, by simpa⟩
        · rw [Member.waited_dwq, Member.signal_dwq, hr1, hdwq]
        · rw [Member.waited_cmds, Member.signal_cmds, hr1, hcmds]
        · have h0 : p.cmd.so ≠ 0 := fun h => h0 (BitVec.eq_of_toNat_eq (hso.symm.trans h))
          rw [addBytes_replicated h0 hrep]
          exact ⟨rfl, { p.cmd with bytes := 0 }, by simp [hcounts], hso, rfl⟩
        · intro hrep hlog l hm hlw ho
          have h0 : p.cmd.so ≠ 0 := fun h => h0 (BitVec.eq_of_toNat_eq (hso.symm.trans h))
          have hobj := object_of_so hso tk
          have hm' : mapped s tk q (p.cmd.object tk) l := by
            rw [hobj, mapped, htlb]
            exact hm
          obtain ⟨s2, hreads, hadd⟩ := addBytes_object (u := 0) h0 hrep hlog hm' hlw (hobj ▸ ho)
          rw [hadd]
          exact ⟨by simp [hcounts], s2, hreads.only, by rw [hobj]⟩
      | deferred =>
        obtain ⟨m, hm, hi, hcounts, hcmds, c, hdwq, hcmd⟩ := leaves_deferred hfit (hroom (.inl hfate)) hfate
        obtain ⟨h1, h2, h3, h4, h5, h6, h7, h8⟩ := Member.waited_of_issuedTo hi h
        exact ⟨s, m.waited h, hx.trans hm, h1, h2, h3, h4, h5, h6, h7, h8, fun _ => ⟨rfl, by simpa⟩, nofun, nofun,
          fun _ => ⟨by simpa, c, by simpa, hcmd⟩, nofun, nofun⟩
      | deferredStep =>
        obtain ⟨m, hm, hi, hcounts, c, d, hdwq, hcmd, hssem, hcmds, hstep, hs⟩ := leaves_deferredStep hfit (hroom (.inr (.inl hfate))) hfate
        obtain ⟨h1, h2, h3, h4, h5, h6, h7, h8⟩ := Member.waited_of_issuedTo hi h
        exact ⟨s, m.waited h, hx.trans hm, h1, h2, h3, h4, h5, h6, h7, h8, fun _ => ⟨rfl, by simpa⟩, nofun, nofun, nofun,
          fun _ => ⟨c, d, by simpa, hcmd, hssem, by simpa, hstep, hs⟩, nofun⟩
      | twice =>
        obtain ⟨m, hm, hi, hcounts, c, d, hdwq, hcmd, hssem, hso, hcmds, hq⟩ := leaves_twice hfit (hroom (.inr (.inr hfate))) hfate
        obtain ⟨h1, h2, h3, h4, h5, h6, h7, h8⟩ := Member.waited_of_issuedTo hi h
        exact ⟨s, m.waited h, hx.trans hm, h1, h2, h3, h4, h5, h6, h7, h8, fun _ => ⟨rfl, by simpa⟩, nofun, nofun, nofun, nofun,
          fun _ => ⟨c, d, by simpa, hcmd, hssem, hso, by simpa, hq⟩⟩
  case bclose =>
    intro s tk mem idle wcnt hc counted
    have he := exec_bclose hc ⟨idle, wcnt⟩
    refine ⟨fun hl => by rw [he, if_pos hl], fun hl hn => ?_, fun hl hn => ?_⟩
    · have hn : wcnt ≠ 0#4 ∧ mem.semReady 0 wcnt.toNat = false := by simpa [counted] using hn
      rw [if_neg hl, if_pos hn] at he
      exact ⟨fun ht => by rw [he, ht]; rfl, fun ht => by rw [he, ht]; rfl⟩
    · have hn : ¬ (wcnt ≠ 0#4 ∧ mem.semReady 0 wcnt.toNat = false) := by simpa [counted, or_iff_not_imp_left] using hn
      rw [if_neg hl, if_neg hn] at he
      refine ⟨_, he, ?_⟩
      by_cases hx : s.cur.stream = .l <;> by_cases h0 : wcnt = 0#4 <;> simp [Member.closeBatch, Member.semTake, hx, h0]

end Sys2Proof.Machine

namespace Sys2Proof.Machine
section
variable {s s1 : State} {tk : Task} {mem : Member} {c : Cmd} {h : HeldCmd} {l : Leaf}

/-! ## Translations by equal tables (R349, R366) -/

section
variable (hok : ∀ pa, s1.paOk pa = s.paOk pa) (hload : ∀ pa n, s1.loadNat pa n = s.loadNat pa n) (hun : s1.unmapped = s.unmapped)
include hok hload hun

theorem walkFrom_congr (shifts : List Nat) (level tab va : Nat) : s1.walkFrom shifts level tab va = s.walkFrom shifts level tab va := by
  induction shifts generalizing level tab with
  | nil => rfl
  | cons sh rest ih => simp only [State.walkFrom, State.rangeOk, State.leafAt, hok, hload, hun, ih]

/-- States of the same tables and the same blocks map the same addresses. -/
theorem mappedBy_congr (hb : ∀ page, s1.store.blockAt page = s.store.blockAt page) {tlb : List TlbEntry} {a : Nat} :
    mappedBy s1 tk tlb a l ↔ mappedBy s tk tlb a l := by
  have hv (l : Leaf) : s1.view l a = s.view l a := by simp only [State.view, hb]
  have hw : s1.walk tk.ptroot a = s.walk tk.ptroot a := by
    simp only [State.walk, State.leafOf, walkFrom_congr hok hload hun, hv]
  simp only [mappedBy, hw, hv]

end

/-- Readers deregistered translate nothing otherwise. -/
theorem mapped_dropReaders {t m q a : Nat} (hm : mapped s tk mem a l) : mapped (s.dropReaders t m q) tk mem a l :=
  (mappedBy_congr (fun _ => rfl) (fun _ _ => rfl) rfl fun _ => rfl).mpr hm

/-! ## The start of a command (R219, R223, R236) -/

/-- The first queued command of a stream. -/
def Member.firstQueued (mem : Member) (x : Stream) : Option Cmd := mem.cmds.find? fun k => k.stream == x && k.state == CmdState.queued

section
variable (hc : Current s tk mem)
include hc

theorem exec_commandStart_waits (hn : mem.startable s.cur.stream s.cycle = none) : exec .commandStart s = .next s := by
  simp only [exec, execCommandStart, onMember_cur hc, hn]

theorem exec_commandStart_fresh {k : Option Nat} (hs : mem.startable s.cur.stream s.cycle = some (c, k)) (hr : mem.resumes c = none) :
    exec .commandStart s = .next (s.put (mem.putCmd { c with chan := k, state := .active (s.cycle + Config.engineCycles (c.timeKey s)) })) := by
  simp only [exec, execCommandStart, onMember_cur hc, hs, hr]

end

section
variable {x : Stream} {n : Nat}

theorem startable_of_none_queued (hf : mem.firstQueued x = none) : mem.startable x n = none := by
  rw [Member.firstQueued] at hf
  rw [Member.startable, hf]

variable (hf : mem.firstQueued x = some c)
include hf

theorem stream_of_firstQueued : c.stream = x := by
  have h := List.find?_some hf
  grind

theorem startable_waitb {hd : Hdr} {k} (hi : c.instr = .waitb hd k) : mem.startable x n = none := by
  rw [Member.firstQueued] at hf
  simp only [Member.startable, hf, hi]

/-- The first queued command of a stream starts in order, on the channel it finds (R219). -/
theorem startable_eq (hw : ∀ hd k, c.instr ≠ .waitb hd k) :
    mem.startable x n = if decide (n ≤ c.issued) || mem.behind c then none else (mem.channelFor c).map fun k => (c, k) := by
  rw [Member.firstQueued] at hf
  rw [Member.startable, hf]
  dsimp only
  split
  · exact absurd ‹_› (hw _ _)
  · rfl

theorem startable_of_waits (h : (∃ hd k, c.instr = .waitb hd k) ∨ n ≤ c.issued ∨ mem.behind c = true) : mem.startable x n = none := by
  by_cases hw : ∃ hd k, c.instr = .waitb hd k
  · obtain ⟨hd, k, hi⟩ := hw
    exact startable_waitb hf hi
  · have hlate : n ≤ c.issued ∨ mem.behind c = true := h.resolve_left hw
    rw [startable_eq hf fun hd k hi => hw ⟨hd, k, hi⟩, if_pos (by simpa using hlate)]

theorem startable_of_ready (hw : ∀ hd k, c.instr ≠ .waitb hd k) (hi : c.issued < n) (hb : mem.behind c = false) :
    mem.startable x n = (mem.channelFor c).map fun k => (c, k) := by
  rw [startable_eq hf hw, if_neg (by simp [hb, hi])]

end

/-! ## The channel a command finds (R219, R236) -/

theorem resumes_of_no_held (hh : mem.held = []) : mem.resumes c = none := by
  simp [Member.resumes, hh]

theorem channelFor_of_no_channel (hr : mem.resumes c = none) (hu : usesChannel c.instr = false) : mem.channelFor c = some none := by
  simp [Member.channelFor, hr, hu]

theorem channelFor_of_resumes (hr : mem.resumes c = some h) : mem.channelFor c = if h.released then some h.cmd.chan else none := by
  simp only [Member.channelFor, hr]

/-- The lower of the two channels of a stream. -/
def firstChannel (x : Stream) : Nat := if x = .l then 0 else 2

theorem channelsOf_eq {x : Stream} : channelsOf x = [firstChannel x, firstChannel x + 1] := by
  cases x <;> rfl

section
variable (hh : mem.held = []) (hu : usesChannel c.instr = true)
include hh hu

/-- A command that uses a channel finds the lowest free one of its stream (R219). -/
theorem channelFor_lowest {x : Stream} (hx : c.stream = x) :
    let busy := mem.cmds.filterMap fun k => if k.running then k.chan else none
    (firstChannel x ∉ busy → mem.channelFor c = some (some (firstChannel x))) ∧
      (firstChannel x ∈ busy → firstChannel x + 1 ∉ busy → mem.channelFor c = some (some (firstChannel x + 1))) ∧
      (firstChannel x ∈ busy → firstChannel x + 1 ∈ busy → mem.channelFor c = none) := by
  intro busy
  have hch : mem.channelFor c = ([firstChannel x, firstChannel x + 1].find? fun k => !busy.contains k).map some := by
    simp [Member.channelFor, resumes_of_no_held hh, hu, hx, channelsOf_eq, Member.busyChannels, hh, busy]
  rw [hch]
  refine ⟨fun hlo => ?_, fun hlo hhi => ?_, fun hlo hhi => ?_⟩
  · rw [List.find?_cons_of_pos (by simpa using hlo)]
    rfl
  · rw [List.find?_cons_of_neg (by simpa using hlo), List.find?_cons_of_pos (by simpa using hhi)]
    rfl
  · rw [List.find?_cons_of_neg (by simpa using hlo), List.find?_cons_of_neg (by simpa using hhi)]
    rfl

end

/-! ## A hold resumed (R236) -/

/-- The registered reads and the side-log entries of a held command are those of the command that resumes it (R236). -/
def State.resumedBy (s : State) (h : HeldCmd) (c : Cmd) : State :=
  { s with
    slog := s.slog.map fun e => if e.task == s.cur.task && e.member == s.cur.member && e.cmd == some h.cmd.seq
      then { e with cmd := some c.seq } else e
    store := { s.store with
      readers := s.store.readers.map fun r => if r.task == s.cur.task && r.member == s.cur.member && r.cmd == h.cmd.seq
        then { r with cmd := c.seq } else r } }

section
variable (hc : Current s tk mem)
include hc

theorem exec_commandStart_resumed {k : Option Nat} (hs : mem.startable s.cur.stream s.cycle = some (c, k)) (hr : mem.resumes c = some h) :
    exec .commandStart s = .next ((s.resumedBy h c).put
      { mem.putCmd { c with chan := k, state := .active (s.cycle + Config.engineCycles (c.timeKey s)) } with held := mem.held.erase h }) := by
  simp only [exec, execCommandStart, onMember_cur hc, hs, hr]
  rfl

variable (hf : mem.firstQueued s.cur.stream = some c) (hw : ∀ hd k, c.instr ≠ .waitb hd k) (hi : c.issued < s.cycle) (hb : mem.behind c = false)
include hf hw hi hb

/-- A command that resumes no hold starts on the channel it finds, or waits for one (R219). -/
theorem exec_commandStart_of_no_held (hh : mem.held = []) :
    (mem.channelFor c = none → exec .commandStart s = .next s) ∧
      ∀ k, mem.channelFor c = some k → ∃ due, s.cycle ≤ due ∧
        exec .commandStart s = .next (s.put (mem.putCmd { c with chan := k, state := .active due })) := by
  have hs := startable_of_ready hf hw hi hb
  refine ⟨fun hk => exec_commandStart_waits hc (by rw [hs, hk]; rfl),
    fun k hk => ⟨_, Nat.le_add_right _ _, exec_commandStart_fresh hc ?_ (resumes_of_no_held hh)⟩⟩
  rw [hs, hk]
  rfl

theorem exec_commandStart_resumes (hr : mem.resumes c = some h) :
    (h.released = false → exec .commandStart s = .next s) ∧
      (h.released = true → ∃ due, exec .commandStart s = .next ((s.resumedBy h c).put
        { mem.putCmd { c with chan := h.cmd.chan, state := .active due } with held := mem.held.erase h })) := by
  have hs := startable_of_ready hf hw hi hb
  rw [channelFor_of_resumes hr] at hs
  exact ⟨fun hrel => exec_commandStart_waits hc (by simpa [hrel] using hs),
    fun hrel => ⟨_, exec_commandStart_resumed hc (by simpa [hrel] using hs) hr⟩⟩

end

/-! ## The completion of a command (R220, R223, R375) -/

/-- A command has moved its last byte and its window's rows are present, or is a WAITB whose batches are few enough. -/
theorem complete_iff {n : Nat} : mem.complete c n = true ↔
    (∃ d, c.state = .moved d ∧ 0 < d ∧ d ≤ n ∧ mem.fillPresent c = true) ∨
      ∃ hd k, c.instr = .waitb hd k ∧ c.state = .queued ∧ c.issued < n ∧ outstandingBatches mem c ≤ k.toNat := by
  unfold Member.complete
  cases hst : c.state with
  | moved d => simp [Nat.pos_iff_ne_zero, and_assoc]
  | queued =>
    cases hi : c.instr with
    | waitb hd k => simp
    | _ => simp
  | _ => simp

/-- A member whose command has left its queue and signalled its semaphore (R220). -/
def Member.freed (mem : Member) (c : Cmd) : Member :=
  { mem with cmds := mem.cmds.filter fun k => k.seq != c.seq }.signal c

section
variable (hc : Current s tk mem) (hcmd : mem.curCmd s = some c)
include hc hcmd

theorem exec_commandCompletion_waits (hd : mem.complete c s.cycle = false) : exec .commandCompletion s = .next s := by
  simp only [exec, execCommandCompletion, onMember_cur hc, hcmd, hd, Bool.false_eq_true, if_false]

theorem exec_commandCompletion_done (hd : mem.complete c s.cycle = true) : exec .commandCompletion s =
    let r := (s.dropReaders s.cur.task s.cur.member c.seq).addBytes s.cur.task s.cur.member tk (mem.freed c) c c.bytes
    .next (r.2.put r.1) := by
  simp only [exec, execCommandCompletion, onMember_cur hc, hcmd, hd, if_true]
  rfl

end

theorem freed_eq : mem.freed c = { mem with cmds := mem.cmds.filter fun k => k.seq != c.seq, pend := (mem.freed c).pend } := by
  rw [Member.freed, Member.signal_eq]

@[simp] theorem freed_counts : (mem.freed c).counts = mem.counts := by
  rw [freed_eq]

theorem freed_of_no_semaphore (h : c.ssem = 0) : (mem.freed c).pend = mem.pend := by
  rw [Member.freed, Member.signal, if_pos h]

theorem freed_of_semaphore (h : c.ssem ≠ 0) : ∃ f, (mem.freed c).pend.semAdd = mem.pend.semAdd ++ [(c.ssem, 1, f)] := by
  rw [Member.freed, Member.signal, if_neg h]
  exact ⟨_, rfl⟩

/-- A byte count reaches its object with the reads of the command deregistered. -/
theorem addBytes_freed (hso : c.so ≠ 0) (hr : tk.replicated = false) (hlog : s.slog = []) (hlw : l.w = true) (hm : mapped s tk mem (c.object tk) l)
    (ho : s.objectOk (l.pa (c.object tk)) = true) {t n q : Nat} :
    ∃ s1 : State, Reads (s.dropReaders t n q) s1 ∧
      (s.dropReaders t n q).addBytes t n tk (mem.freed c) c c.bytes = (mem.freed c, s1.barrierAdd (l.pa (c.object tk)) c.bytes) := by
  have hm1 : mapped s tk (mem.freed c) (c.object tk) l := by
    rw [freed_eq]
    exact hm
  exact addBytes_object hso hr hlog (mapped_dropReaders hm1) hlw ho

end

/-- Settles O50: a stream's first queued command by what it waits for, by its hold and by its channel; a completion by its object. -/
theorem commandsStartAndComplete : Obligations.CommandsStartAndComplete := by
  intro s tk mem c hc
  refine ⟨fun hn => exec_commandStart_waits hc (startable_of_none_queued hn),
    fun hf h => exec_commandStart_waits hc (startable_of_waits hf h), fun hf hw hi hb => ⟨fun hh hu => ?_, fun hh hu => ?_, fun h hr => ?_⟩,
    fun hcmd => ⟨fun hd => ?_, fun hd => ⟨mem.freed c, freed_eq, freed_of_no_semaphore, freed_of_semaphore, fun hso => ?_, fun hso hr => ?_,
      fun l hso hr hlog hlw hm ho => ?_⟩⟩⟩
  · exact (exec_commandStart_of_no_held hc hf hw hi hb hh).2 none (channelFor_of_no_channel (resumes_of_no_held hh) hu)
  · obtain ⟨hnone, hsome⟩ := exec_commandStart_of_no_held hc hf hw hi hb hh
    obtain ⟨hlow, hhigh, hfull⟩ := channelFor_lowest hh hu (stream_of_firstQueued hf)
    exact ⟨fun hlo => hsome _ (hlow hlo), fun hlo hhi => hsome _ (hhigh hlo hhi), fun hlo hhi => hnone (hfull hlo hhi)⟩
  · obtain ⟨hwait, hgo⟩ := exec_commandStart_resumes hc hf hw hi hb hr
    refine ⟨hwait, fun hrel => ?_⟩
    obtain ⟨due, hx⟩ := hgo hrel
    exact ⟨due, s.resumedBy h c, rfl, by simp [State.resumedBy, and_assoc], hx⟩
  · exact exec_commandCompletion_waits hc hcmd (by simpa using mt complete_iff.mp hd)
  · rw [exec_commandCompletion_done hc hcmd (complete_iff.mpr hd), addBytes_none hso]
    rfl
  · rw [exec_commandCompletion_done hc hcmd (complete_iff.mpr hd), addBytes_replicated hso hr, freed_counts]
    rfl
  · obtain ⟨s1, h1, hx⟩ := addBytes_freed hso hr hlog hlw hm ho (t := s.cur.task) (n := s.cur.member) (q := c.seq)
    refine ⟨s1, h1.only, ?_⟩
    rw [exec_commandCompletion_done hc hcmd (complete_iff.mpr hd), hx]

end Sys2Proof.Machine

namespace Sys2Proof.Machine
section
variable {s s1 s2 : State} {tk : Task} {mem b : Member} {c : Cmd} {l : Leaf} {t : Nat}

/-! ## The last piece of a command (R220, R234) -/

section
variable {total : Task → Member → Cmd → Nat} {f : Task → State → Member → Cmd → Nat → UnitRes} (hw : Working s tk mem c)
  (ht : total tk mem c = c.mark + 1)
include hw ht

/-- A command with one piece left works off that piece. -/
theorem workCmd_last : workCmd s total f =
    afterPieces s (c.mark + 1) (runPieces (f tk) (c.mark + 1) (1 + Config.engineBurst (c.timeKey s)) s mem c) := by
  obtain ⟨d, hd⟩ := hw.active
  simp only [workCmd, onMember_cur hw.current, hw.cmd, hd, ht]

theorem workCmd_of_ok (hf : f tk s mem c c.mark = ⟨.ok, s1, b, c⟩) (hc : s1.cycle = s.cycle) : workCmd s total f = .next (finished s1 b c) := by
  rw [workCmd_last hw ht, Nat.add_comm 1]
  simp only [runPieces, hf, Nat.not_succ_le_self, if_false]
  cases Config.engineBurst (c.timeKey s) with
  | zero =>
    simp only [runPieces, afterPieces, finished, Nat.le_refl, if_true, hc]
    rfl
  | succ n =>
    simp only [runPieces, afterPieces, finished, Nat.le_refl, if_true, hc]

theorem workCmd_of_hold {e : Trap} (hf : f tk s mem c c.mark = ⟨.hold e, s1, b, c⟩) : workCmd s total f =
    .next ((s1.recordFault s.cur.task (c.info b e 1 c.unit c.progress)).put (b.putCmd { c with state := .held e.cause })) := by
  rw [workCmd_last hw ht, Nat.add_comm 1]
  simp only [runPieces, hf, Nat.not_succ_le_self, if_false, afterPieces]

end

/-! ## Translations of the engine's streams (R349) -/

/-- A mapped address translates for its stream; of the member only that stream's TLB moves. -/
theorem translateFor_of_mappedFor {x : Stream} {a : Nat} (h : mappedFor s tk mem x a l) : ∃ (s1 : State) (t : List TlbEntry),
    Reads s s1 ∧ s.translateFor tk mem x a = (some l, mem.setTlb x t, s1) :=
  ⟨_, _, reads_translate .., Prod.ext (translate_of_mappedBy h) rfl⟩

@[simp] theorem Member.setTlb_spad (m : Member) (x : Stream) (t : List TlbEntry) : (m.setTlb x t).spad = m.spad := by cases x <;> rfl
@[simp] theorem Member.setTlb_frozen (m : Member) (x : Stream) (t : List TlbEntry) : (m.setTlb x t).frozen = m.frozen := by cases x <;> rfl
@[simp] theorem Member.setTlb_rank (m : Member) (x : Stream) (t : List TlbEntry) : (m.setTlb x t).rank = m.rank := by cases x <;> rfl

/-- The containers are those of the scratchpad. -/
theorem cont_congr {m : Member} (h : b.spad = m.spad) (ci : Nat) : b.cont ci = m.cont ci := by rw [Member.cont, Member.cont, h]

/-! ## Pages taken by a write (R355) -/

/-- States with the same owners leave open or refuse the same pages. -/
theorem takeOwn_congr (h : s1.own = s.own) (o : Owner) (pa : Nat) :
    s1.takeOwn o pa = (s.takeOwn o pa).map fun s2 => { s1 with own := s2.own } := by
  unfold State.takeOwn
  dsimp only
  rw [h]
  split
  · rfl
  · split_ifs <;> rfl
  · split
    · rfl
    · split_ifs
      · rw [Option.map_some, ← h]
      · rfl

/-- The state after a write to an address of a leaf has taken its page, where the leaf has owners (R355). -/
def State.takes (s : State) (o : Owner) (l : Leaf) (pa : Nat) : Option State := if l.owned pa then s.takeOwn o pa else some s

section
variable {o : Owner} {pa : Nat}

theorem takes_eq (h : s.takes o l pa = some s2) : s2 = { s with own := s2.own } := by
  unfold State.takes at h
  split_ifs at h
  · exact takeOwn_eq h
  · cases h
    rfl

theorem takes_of_own_eq (h : s1.own = s.own) (ht : s.takes o l pa = some s2) : s1.takes o l pa = some { s1 with own := s2.own } := by
  unfold State.takes at *
  split_ifs at ht ⊢
  · rw [takeOwn_congr h, ht, Option.map_some]
  · cases ht
    rw [← h]

end

/-- Reads of a state whose owners change alike. -/
theorem Reads.withOwn (h : Reads s s1) (o : SMap OwnUnit) : Reads { s with own := o } { s1 with own := o } := by
  refine ⟨?_, h.paOk, h.paWritable⟩
  rw [h.eq]
  rfl

namespace Writable

variable {x : Stream} {va n : Nat} (hw : Writable s s2 tk mem x va n l)
include hw

theorem takes : s.takes ⟨s.cur.task, mem.rank⟩ l (l.pa va) = some s2 := hw.own

/-- What the write takes its page in changes only the owners. -/
theorem eq_own : s2 = { s with own := s2.own } := takes_eq hw.takes

/-- After reads the write takes its page, in a state that reads like the one it took it in. -/
theorem takes_of_reads (h : Reads s s1) : ∃ s3, s1.takes ⟨s.cur.task, mem.rank⟩ l (l.pa va) = some s3 ∧ Reads s2 s3 := by
  refine ⟨_, takes_of_own_eq (by rw [h.eq]) hw.takes, ?_⟩
  have h2 := h.withOwn s2.own
  rwa [← hw.eq_own] at h2

/-- An ordinary write is one for every event of its task. -/
theorem withCur {a : Actor} (ha : a.task = s.cur.task) :
    Writable { s with cur := a } { s with cur := a, own := s2.own } tk mem x va n l where
  map := hw.map
  w := hw.w
  own := by
    have h := takes_of_own_eq (s := s) (s1 := { s with cur := a }) rfl hw.takes
    rw [← ha] at h
    exact h
  plain := hw.plain
  exists_ := hw.exists_
  fresh := hw.fresh
  line := hw.line
  low := hw.low

end Writable

/-! ## Bytes written (R295) -/

theorem wroteAt_setBytes {m : Memory} (hm : m.wf = true) (pa : Nat) (bs : List Byte) : wroteAt m (m.setBytes pa bs) pa bs :=
  ⟨fun k hk => by rw [Memory.get_setBytes hm, if_pos (by omega), Nat.add_sub_cancel_left], fun _ hx => Memory.get_setBytes_outside hm hx⟩

/-- A write outside the launch ports, where memory can be written, is performed. -/
theorem wrDev_of_canWrite {pa : Nat} {bs : List Byte} (hp : inPorts pa = false) (hc : s.canWrite pa bs.length = true) :
    s.wrDev pa bs = s.wrMem pa bs := by
  simp [State.wrDev, hp, hc]

/-! ## Valid data in the scratchpad (R58, R237) -/

/-- The byte of the scratchpad at an address is valid, unpoisoned data. -/
theorem spByte_eq_data {x : Nat} {v : Byte} :
    mem.spByte x = (v, true, false) ↔
      (mem.cont (x / 4)).valid = true ∧ (mem.cont (x / 4)).poison = false ∧ contByte (mem.cont (x / 4)) (x % 4) = v := by
  simp only [Member.spByte, Prod.mk.injEq]
  constructor
  · rintro ⟨rfl, hv, hp⟩
    exact ⟨hv, by simpa [hv] using hp, rfl⟩
  · rintro ⟨hv, hp, rfl⟩
    exact ⟨rfl, hv, by simp [hp]⟩

section
variable {a n p : Nat} {bs xs : List Byte}

theorem touches_iff {ci : Nat} : touches a n ci = true ↔ ∃ k < n, (a + k) / 4 = ci := by
  simp [touches]

/-- Valid data written are there. -/
theorem spByte_putSpBytes_inside {x : Nat} (h1 : a ≤ x) (h2 : x < a + bs.length) :
    (mem.putSpBytes a (bs.map fun v => (v, false))).spByte x = (bs.getD (x - a) 0, true, false) := by
  have ht : touches a bs.length (x / 4) = true := touches_iff.mpr ⟨x - a, by omega, by congr 1; omega⟩
  obtain ⟨hv, hp⟩ := tags_putSpBytes false bs a (x / 4) mem (.inl ht)
  exact spByte_eq_data.mpr ⟨hv, hp, by rw [contByte_putSpBytes, if_pos ⟨h1, h2⟩]⟩

/-- Valid data elsewhere stay. -/
theorem spByte_putSpBytes_outside {x : Nat} {v : Byte} (h : mem.spByte x = (v, true, false)) (hx : x < a ∨ a + bs.length ≤ x) :
    (mem.putSpBytes a (bs.map fun v => (v, false))).spByte x = (v, true, false) := by
  obtain ⟨hv, hp, hb⟩ := spByte_eq_data.mp h
  obtain ⟨hv1, hp1⟩ := tags_putSpBytes false bs a (x / 4) mem (.inr ⟨hv, hp⟩)
  exact spByte_eq_data.mpr ⟨hv1, hp1, by rw [contByte_putSpBytes, if_neg (by omega), hv, Bool.true_or, if_pos rfl, hb]⟩

theorem spadBytes_congr (h : b.spad = mem.spad) : spadBytes b a n xs ↔ spadBytes mem a n xs := by
  simp only [spadBytes, Member.spByte, cont_congr h]

theorem spadBytes_putSpBytes_same : spadBytes (mem.putSpBytes a (bs.map fun v => (v, false))) a bs.length bs :=
  ⟨rfl, fun k hk => by rw [spByte_putSpBytes_inside (by omega) (by omega), Nat.add_sub_cancel_left]⟩

theorem spadBytes_putSpBytes_apart (h : spadBytes mem p n xs) (hd : p + n ≤ a ∨ a + bs.length ≤ p) :
    spadBytes (mem.putSpBytes a (bs.map fun v => (v, false))) p n xs := by
  obtain ⟨hl, hb⟩ := h
  exact ⟨hl, fun k hk => spByte_putSpBytes_outside (hb k hk) (by omega)⟩

/-- A value put at an address is there, as its bytes. -/
theorem spadBytes_putValue_same {v : Nat} : spadBytes (mem.putValue a n v) a n (leBytes n v) := by
  have h := spadBytes_putSpBytes_same (mem := mem) (a := a) (bs := leBytes n v)
  rwa [length_leBytes] at h

theorem putValue_eq (v : Nat) : mem.putValue a n v = { mem with spad := (mem.putValue a n v).spad, wrote := (mem.putValue a n v).wrote } :=
  putSpBytes_eq false _ _ mem

/-- Data of one container are its bytes. -/
theorem contBytes_of_spadBytes (h : spadBytes mem p n xs) (hin : p % 4 + n ≤ 4) :
    ((List.range n).map fun i => contByte (mem.cont (p / 4)) (p % 4 + i)) = xs := by
  obtain ⟨hl, hb⟩ := h
  refine List.ext_getElem (by simpa using hl.symm) fun i h1 h2 => ?_
  have hi : i < n := by simpa using h1
  obtain ⟨-, -, hx⟩ := spByte_eq_data.mp (hb i hi)
  rw [show (p + i) / 4 = p / 4 by omega, show (p + i) % 4 = p % 4 + i by omega, List.getD_eq_getElem _ _ h2] at hx
  simpa using hx

theorem tags_of_spadBytes (h : spadBytes mem p n xs) (hn : 0 < n) : (mem.cont (p / 4)).valid = true ∧ (mem.cont (p / 4)).poison = false := by
  obtain ⟨hv, hp, -⟩ := spByte_eq_data.mp (h.2 0 hn)
  exact ⟨hv, hp⟩

end
end
end Sys2Proof.Machine

namespace Sys2Proof.Machine
section

/-! ## The new values of accumulates over 32-bit integers (R239) -/

theorem toS_toNat (x : BitVec 32) : toS 32 x.toNat = x.toInt := by
  have hx := x.isLt
  rw [toS, BitVec.toInt_eq_toNat_cond, Nat.mod_eq_of_lt hx]
  split_ifs <;> omega

/-- Every AOP over 32-bit integers is the operation of bit vectors of its name. -/
theorem aop_new_int32 (old x : BitVec 32) :
    Aop.addS32.new old.toNat x.toNat = (old + x).toNat ∧ Aop.swap.new old.toNat x.toNat = x.toNat ∧
    Aop.minS32.new old.toNat x.toNat = (if old.toInt ≤ x.toInt then old else x).toNat ∧
    Aop.maxS32.new old.toNat x.toNat = (if old.toInt ≤ x.toInt then x else old).toNat ∧
    Aop.minZ32.new old.toNat x.toNat = (if old.toNat ≤ x.toNat then old else x).toNat ∧
    Aop.maxZ32.new old.toNat x.toNat = (if old.toNat ≤ x.toNat then x else old).toNat ∧
    Aop.and.new old.toNat x.toNat = (old &&& x).toNat ∧ Aop.or.new old.toNat x.toNat = (old ||| x).toNat ∧
    Aop.xor.new old.toNat x.toNat = (old ^^^ x).toNat := by
  refine ⟨(BitVec.toNat_add old x).symm, rfl, ?_, ?_, ?_, ?_, (BitVec.toNat_and old x).symm, (BitVec.toNat_or old x).symm,
    (BitVec.toNat_xor old x).symm⟩
  · rw [Aop.new, toS_toNat, toS_toNat, apply_ite BitVec.toNat]
  · rw [Aop.new, toS_toNat, toS_toNat, apply_ite BitVec.toNat]
  · rw [Aop.new, Nat.min_def, apply_ite BitVec.toNat]
  · rw [Aop.new, Nat.max_def, apply_ite BitVec.toNat]

end

section
variable {s s1 s2 : State} {tk : Task} {mem m b : Member} {c : Cmd} {l : Leaf} {a : Aop} {fetch : Bool} {f : AccFields} {h : Hdr} {i : Instr}
  {xs os : List Byte} {j : Nat}

/-! ## Accumulates in the scratchpad (R239, R240) -/

theorem z_cases (a : Aop) : a.z = 2 ∨ a.z = 4 := by
  cases a <;> simp [Aop.z]

/-- The elements of an operand or a destination lie each in one container. -/
theorem element_inContainer (a : Aop) (w j : Nat) : (4 * w + j * a.z) % 4 + a.z ≤ 4 := by
  obtain hz | hz := z_cases a <;> rw [hz] <;> omega

theorem accSpad_of_invalid (hv : (mem.cont ((4 * f.srcw.toNat + j * a.z) / 4)).valid = false) :
    accSpad a fetch f s mem c j = ⟨.ok, s, mem, c⟩ := by
  simp [accSpad, hv]

/-- The scratchpad of a member after an accumulate of one element: the new value at the destination, and where it fetches the old one at
the operand. -/
def Member.accumulated (mem : Member) (a : Aop) (fetch : Bool) (d p old x : Nat) : Member :=
  let m1 := mem.putValue d a.z (a.new old x)
  if fetch then m1.putValue p a.z old else m1

theorem frozenTrap_nil {at_ n : Nat} (h : mem.frozen = []) : frozenTrap mem at_ n = none := by
  simp [frozenTrap, h]

theorem accSpad_of_data (hfr : mem.frozen = []) (hx : spadBytes mem (4 * f.srcw.toNat + j * a.z) a.z xs)
    (ho : spadBytes mem (4 * f.ixw.toNat + j * a.z) a.z os) :
    accSpad a fetch f s mem c j =
      ⟨.ok, s, mem.accumulated a fetch (4 * f.ixw.toNat + j * a.z) (4 * f.srcw.toNat + j * a.z) (leNat os) (leNat xs), c⟩ := by
  have hz : 0 < a.z := by obtain hz | hz := z_cases a <;> omega
  obtain ⟨hxv, hxp⟩ := tags_of_spadBytes hx hz
  obtain ⟨hov, hop⟩ := tags_of_spadBytes ho hz
  simp only [accSpad, contBytes_of_spadBytes hx (element_inContainer ..), contBytes_of_spadBytes ho (element_inContainer ..), hxv, hxp, hov, hop,
    frozenTrap_nil hfr, ite_self, firstTrap]
  cases fetch <;> rfl

theorem accumulated_eq (d p old x : Nat) : mem.accumulated a fetch d p old x =
    { mem with spad := (mem.accumulated a fetch d p old x).spad, wrote := (mem.accumulated a fetch d p old x).wrote } := by
  unfold Member.accumulated
  cases fetch
  · exact putValue_eq _
  · simp only [if_true]
    rw [putValue_eq old, putValue_eq (a.new old x)]

section
variable {d p : Nat} (hd : d % 4 + a.z ≤ 4) (hp : p % 4 + a.z ≤ 4)

theorem touches_inContainer {n ci : Nat} (hp : p % 4 + n ≤ 4) (hci : ci ≠ p / 4) : touches p n ci = false := by
  rw [Bool.eq_false_iff, Ne, touches_iff]
  rintro ⟨k, hk, rfl⟩
  omega

theorem cont_putValue_apart {n v ci : Nat} (hp : p % 4 + n ≤ 4) (hci : ci ≠ p / 4) : (mem.putValue p n v).cont ci = mem.cont ci :=
  cont_putSpBytes_untouched false _ _ _ _ (by rw [length_leBytes]; exact touches_inContainer hp hci)

include hd hp in
/-- What an accumulate leaves in the scratchpad: its two elements, and every container of neither as before. -/
theorem accumulated_spec (hx : spadBytes mem p a.z xs) (ho : spadBytes mem d a.z os) (hapart : p + a.z ≤ d ∨ d + a.z ≤ p) :
    let b := mem.accumulated a fetch d p (leNat os) (leNat xs)
    spadBytes b d a.z (leBytes a.z (a.new (leNat os) (leNat xs))) ∧ spadBytes b p a.z (if fetch then os else xs) ∧
      ∀ ci, ci ≠ d / 4 → ci ≠ p / 4 → b.cont ci = mem.cont ci := by
  have hl := ho.1
  cases fetch
  · exact ⟨spadBytes_putValue_same, spadBytes_putSpBytes_apart hx (by rw [length_leBytes]; omega), fun ci hcd _ => cont_putValue_apart hd hcd⟩
  · refine ⟨spadBytes_putSpBytes_apart spadBytes_putValue_same (by rw [length_leBytes]; omega), ?_, fun ci hcd hcp => ?_⟩
    · have hb : leBytes a.z (leNat os) = os := by rw [← hl, leBytes_leNat]
      have h := spadBytes_putValue_same (mem := mem.putValue d a.z (a.new (leNat os) (leNat xs))) (a := p) (n := a.z) (v := leNat os)
      rwa [hb] at h
    · exact (cont_putValue_apart hp hcp).trans (cont_putValue_apart hd hcd)

end

/-- An accumulate at work in the scratchpad is accSpad of its elements. -/
theorem exec_accOf_perform (ha : accOf i = some (a, fetch, h, f)) (hp : s.cur.phase = .perform) :
    exec i s = workCmd s (fun _ _ _ => f.nm1.toNat + 1) fun _ => accSpad a fetch f := by
  rw [exec_accOf ha, accumulate, hp]

/-! ## Copies of a line invalidated (R307) -/

/-- A member holds no copy of the line of an address. -/
def Member.lacks (mem : Member) (pa : Nat) : Prop := ∀ ln ∈ mem.l1, ln.pa ≠ pa / 128 * 128

/-- No member of the device holds a copy of the line of an address. -/
def State.purged (s : State) (pa : Nat) : Prop := ∀ x ∈ s.tasks, ∀ y ∈ x.members, y.lacks pa

section
variable {pa scope core t n : Nat} {g : Member → Member}

theorem lacks_dropLine (mem : Member) (pa : Nat) : (mem.dropLine pa).lacks pa := by
  simp [Member.lacks, Member.dropLine]

theorem spread_mem : (s.spread t mem g).mem = s.mem := State.modTask_mem ..

theorem purged_dropLine (h : 2 ≤ scope) : (s.dropLine pa core scope).purged pa := by
  obtain ⟨k, rfl⟩ := Nat.exists_eq_add_of_le' h
  intro x hx y hy
  obtain ⟨tk, -, rfl⟩ := List.mem_map.mp hx
  obtain ⟨m, -, rfl⟩ := List.mem_map.mp hy
  exact lacks_dropLine m pa

theorem purged_putTask (h : s.purged pa) (htk : ∀ y ∈ tk.members, y.lacks pa) : (s.putTask t tk).purged pa := by
  intro x hx
  obtain hx | rfl := List.mem_or_eq_of_mem_set hx
  · exact h x hx
  · exact htk

theorem purged_putMember (h : s.purged pa) (hb : b.lacks pa) : (s.putMember t n b).purged pa := by
  unfold State.putMember
  split
  · next tk hk =>
    refine purged_putTask h fun y hy => ?_
    obtain hy | rfl := List.mem_or_eq_of_mem_set hy
    · exact h tk (List.mem_of_getElem? hk) y hy
    · exact hb
  · exact h

theorem purged_spread (h : s.purged pa) (hg : ∀ y, y.lacks pa → (g y).lacks pa) : (s.spread t mem g).purged pa := by
  unfold State.spread State.modTask
  split
  · next tk hk =>
    refine purged_putTask h fun y hy => ?_
    obtain ⟨z, hz, rfl⟩ := List.mem_map.mp hy
    have hzl := h tk (List.mem_of_getElem? hk) z hz
    split
    · exact hg z hzl
    · exact hzl
  · exact h

theorem isSome_member? : (s.member? t n).isSome ↔ ∃ tk, s.tasks[t]? = some tk ∧ n < tk.members.length := by
  simp only [State.member?, Option.isSome_bind]
  cases s.tasks[t]? <;> simp

theorem isSome_member?_putTask {k : Nat} (h : (s.member? t n).isSome) (htk : ∀ x, s.tasks[k]? = some x → tk.members.length = x.members.length) :
    ((s.putTask k tk).member? t n).isSome := by
  obtain ⟨x, hx, hn⟩ := isSome_member?.mp h
  by_cases hk : k = t
  · subst hk
    exact isSome_member?.mpr ⟨tk, getElem?_putTask hx, by rw [htk x hx]; exact hn⟩
  · exact isSome_member?.mpr ⟨x, by rw [State.putTask_tasks, List.getElem?_set_ne hk, hx], hn⟩

theorem isSome_member?_dropLine (h : (s.member? t n).isSome) : ((s.dropLine pa core scope).member? t n).isSome := by
  obtain ⟨x, hx, hn⟩ := isSome_member?.mp h
  exact isSome_member?.mpr ⟨_, by rw [State.dropLine, List.getElem?_map, hx]; rfl, by rwa [List.length_map]⟩

theorem isSome_member?_spread {k : Nat} (h : (s.member? t n).isSome) : ((s.spread k mem g).member? t n).isSome := by
  unfold State.spread State.modTask
  split
  · next tk hk => exact isSome_member?_putTask h fun x hx => by rw [List.length_map, Option.some.inj (hk.symm.trans hx)]
  · exact h

theorem member?_putMember (h : (s.member? t n).isSome) : (s.putMember t n b).member? t n = some b := by
  obtain ⟨x, hx, hn⟩ := isSome_member?.mp h
  rw [State.putMember, hx, State.member?, getElem?_putTask hx, Option.bind_some, Task.putMember, List.getElem?_set_self hn]

end

/-! ## Atomic operations of a commit (R240, R307) -/

/-- The state in which a deferred command works: its event, and all else as it stands. -/
def State.committing (s : State) (t n : Nat) (c : Cmd) : State := { s with cur := ⟨t, n, c.stream, .perform, c.seq, c.key.addr, c.u1 ++ c.u0⟩ }

/-- A deferred command of one piece, with nothing to count, is performed by that piece. -/
theorem performWork_of_ok {t n k : Nat} (ht : s.tasks[t]? = some tk) (hn : tk.members[n]? = some mem) (hh : c.isHeld = false) (hm : c.mark = 0)
    (hso : c.so = 0) {g : State → Member → Cmd → Nat → UnitRes} (hp : commitPieces tk c = some (1, g))
    (hg : g (s.committing t n c) mem c 0 = ⟨.ok, s1, b, c⟩) :
    s.performWork t k (.cmd n c) = ((s1.putMember t n b).writtenBy s t mem.rank true, .done) := by
  unfold State.committing at hg
  simp [State.performWork, ht, hn, State.commitCmd, hh, hp, runPieces, hm, hg, State.commitCount, hso]

theorem commitPieces_acc (ha : accOf c.instr = some (a, fetch, h, f)) : commitPieces tk c = some (f.nm1.toNat + 1, accPiece a fetch f tk) := by
  unfold commitPieces
  split
  case h_5 => rw [ha, Option.map_some]
  all_goals
    next hi => rw [hi] at ha; cases ha

/-- An ordinary target is worked on where its page is taken, as the reads leave it (R240). -/
theorem atomicAt_of_writable {va n data : Nat} {old : W64} {work : State → Member → Nat → State × Member}
    (hw : Writable s s2 tk mem c.stream va n l) (hr : s.rangeOk (l.pa va) n = true) : ∃ (s3 : State) (tl : List TlbEntry), Reads s2 s3 ∧
      atomicAt tk s mem c j va n data old work =
        ⟨.ok, (work s3 (mem.setTlb c.stream tl) (l.pa va)).1, (work s3 (mem.setTlb c.stream tl) (l.pa va)).2, c⟩ := by
  obtain ⟨s1, tl, h1, ht⟩ := translateFor_of_mappedFor hw.map
  obtain ⟨s3, h3, hr3⟩ := hw.takes_of_reads h1
  refine ⟨s3.noteRead (l.pa va) n, tl, hr3.trans (reads_noteRead ..), ?_⟩
  unfold State.takes at h3
  simp only [atomicAt, ht, hw.w, h1.rangeOk, hr, h1.canWrite, hw.exists_, Member.setTlb_rank, h3]
  rfl

/-- What an atomic operation leaves: memory m, no copy of the line in a scope of the device, and member b to be put back. -/
structure AtomicLeaves (r : State × Member) (t n pa : Nat) (scope : BitVec 2) (m : Memory) (b : Member) : Prop where
  mem : r.1.mem = m
  purged : 2 ≤ scope.toNat → r.1.purged pa
  stays : (r.1.member? t n).isSome
  lacks : r.2.lacks pa
  put : r.2 = b

section
variable {t n k pa : Nat} {scope : BitVec 2} {m0 : Memory}

/-- A value put keeps the lines. -/
theorem lacks_putValue {at_ v : Nat} (hm : mem.lacks pa) : (mem.putValue at_ n v).lacks pa := by
  rw [putValue_eq]
  exact hm

/-- An operation that drops the line and puts a value in every replica, or in none, leaves the state as it was written. -/
theorem leaves_dropLine (hs : (s.member? t n).isSome) :
    AtomicLeaves (s.dropLine pa k scope.toNat, mem.dropLine pa) t n pa scope s.mem (mem.dropLine pa) :=
  ⟨rfl, purged_dropLine, isSome_member?_dropLine hs, lacks_dropLine mem pa, rfl⟩

theorem leaves_spread {at_ z v : Nat} (hs : (s.member? t n).isSome) :
    AtomicLeaves ((s.dropLine pa k scope.toNat).spread t mem fun m => m.putValue at_ z v, (mem.dropLine pa).putValue at_ z v) t n pa scope s.mem
      ((mem.dropLine pa).putValue at_ z v) :=
  ⟨spread_mem, fun h => purged_spread (purged_dropLine h) fun _ => lacks_putValue, isSome_member?_spread (isSome_member?_dropLine hs),
    lacks_putValue (lacks_dropLine mem pa), rfl⟩

theorem wrAtomic_mem {core sc : Nat} {bytes : List Byte} (hp : inPorts pa = false) (hc : s.canWrite pa bytes.length = true) :
    (s.wrAtomic pa core sc bytes).mem = s.mem.setBytes pa bytes := by
  rw [State.wrAtomic, wrDev_of_canWrite hp hc]
  rfl

theorem wrAtomic_member? {core sc : Nat} {bytes : List Byte} : (s.wrAtomic pa core sc bytes).member? t n = s.member? t n := by
  rw [State.member?, State.wrAtomic, State.markPast, State.wrDev_tasks, State.member?]

/-- A member after an atomic operation on a line: it holds no copy of it, and a value fetched is at its address. -/
def Member.fetched (mem : Member) (fetch : Bool) (pa at_ z v : Nat) : Member := if fetch then (mem.dropLine pa).putValue at_ z v else mem.dropLine pa

theorem accPerform_leaves {x : Nat} (hs : (s.member? t n).isSome) (hp : inPorts pa = false) (hc : s.canWrite pa a.z = true) :
    AtomicLeaves (accPerform s t mem a fetch f j pa x) t n pa f.scope (s.mem.setBytes pa (leBytes a.z (a.new (s.loadNat pa a.z) x)))
      (mem.fetched fetch pa (4 * f.srcw.toNat + j * a.z) a.z (s.loadNat pa a.z)) := by
  rw [← wrAtomic_mem (core := mem.core) (sc := f.scope.toNat) hp (by rwa [length_leBytes])]
  cases fetch
  · exact leaves_dropLine (by rwa [wrAtomic_member?])
  · exact leaves_spread (by rwa [wrAtomic_member?])

theorem casPerform_leaves {recw : BitVec 17} {w64 : BitVec 1} {cmp new : Nat} (hs : (s.member? t n).isSome) (hp : inPorts pa = false)
    (hc : s.canWrite pa (if w64 = 1#1 then 8 else 4) = true) :
    let z := if w64 = 1#1 then 8 else 4
    AtomicLeaves (casPerform s t mem recw w64 scope pa cmp new) t n pa scope
      (if s.loadNat pa z = cmp then s.mem.setBytes pa (leBytes z new) else s.mem)
      (mem.fetched true pa (4 * recw.toNat + 16) 8 (s.loadNat pa z)) := by
  intro z
  by_cases heq : s.loadNat pa z = cmp
  · simp only [casPerform, z, if_pos heq]
    rw [← wrAtomic_mem (core := mem.core) (sc := scope.toNat) hp (by rwa [length_leBytes])]
    exact leaves_spread (by rwa [wrAtomic_member?])
  · simp only [casPerform, z, if_neg heq]
    exact leaves_spread hs

/-- The state after an atomic operation's command is performed, from what the operation left. -/
theorem performWork_of_leaves {r : State × Member} (ht : s.tasks[t]? = some tk) (hn : tk.members[n]? = some mem)
    (hh : c.isHeld = false) (hm : c.mark = 0) (hso : c.so = 0) {g : State → Member → Cmd → Nat → UnitRes}
    (hp : commitPieces tk c = some (1, g)) (hg : g (s.committing t n c) mem c 0 = ⟨.ok, r.1, r.2, c⟩) (hr : AtomicLeaves r t n pa scope m0 b) :
    (s.performWork t k (.cmd n c)).2 = .done ∧ (s.performWork t k (.cmd n c)).1.mem = m0 ∧
      (2 ≤ scope.toNat → (s.performWork t k (.cmd n c)).1.purged pa) ∧ (s.performWork t k (.cmd n c)).1.member? t n = some b := by
  rw [performWork_of_ok ht hn hh hm hso hp hg]
  refine ⟨rfl, (State.putMember_mem ..).trans hr.mem, fun h2 => purged_putMember (hr.purged h2) hr.lacks, ?_⟩
  rw [← hr.put]
  exact member?_putMember hr.stays

end

section
variable {t n k : Nat} (ht : s.tasks[t]? = some tk) (hn : tk.members[n]? = some mem) (hcur : s.cur.task = t) (hh : c.isHeld = false) (hm : c.mark = 0)
  (hso : c.so = 0)
include ht hn hcur hh hm hso

/-- A command whose piece is one atomic operation on an ordinary target leaves what the operation leaves, from a state like the first. -/
theorem performWork_of_atomicAt {va z data : Nat} {old : W64} {work : State → Member → Nat → State × Member}
    {g : State → Member → Cmd → Nat → UnitRes} {scope : BitVec 2} {m0 : Memory} {put : Member → Member}
    (hw : Writable s s2 tk mem c.stream va z l) (hr : s.rangeOk (l.pa va) z = true)
    (hp : commitPieces tk c = some (1, g)) (hg : g (s.committing t n c) mem c 0 = atomicAt tk (s.committing t n c) mem c 0 va z data old work)
    (hwork : ∀ (s3 : State) (m : Member), s3.mem = s.mem → (∀ pa n, s3.loadNat pa n = s.loadNat pa n) → s3.canWrite (l.pa va) z = true →
      (s3.member? t n).isSome → AtomicLeaves (work s3 m (l.pa va)) t n (l.pa va) scope m0 (put m)) :
    ∃ tl, (s.performWork t k (.cmd n c)).2 = .done ∧ (s.performWork t k (.cmd n c)).1.mem = m0 ∧
      (2 ≤ scope.toNat → (s.performWork t k (.cmd n c)).1.purged (l.pa va)) ∧
      (s.performWork t k (.cmd n c)).1.member? t n = some (put (mem.setTlb c.stream tl)) := by
  have hw0 : Writable (s.committing t n c) _ tk mem c.stream va z l := hw.withCur hcur.symm
  obtain ⟨s3, tl, h3, hat⟩ := atomicAt_of_writable (j := 0) (data := data) (old := old) (work := work) hw0 hr
  refine ⟨tl, performWork_of_leaves ht hn hh hm hso hp (hg.trans hat) (hwork s3 _ ?_ h3.loadNat ?_ ?_)⟩
  · rw [h3.eq]
  · rw [h3.canWrite]
    exact hw.exists_
  · rw [h3.eq]
    exact isSome_member?.mpr ⟨tk, ht, (List.getElem?_eq_some_iff.mp hn).1⟩

/-- An accumulate of one element in memory, performed at its commit (R239, R240). -/
theorem performWork_acc (hst : c.step = 0) (ha : accOf c.instr = some (a, fetch, h, f)) (hd : f.dmode = 0#2) (h1 : f.nm1.toNat = 0)
    (hx : spadBytes mem (4 * f.srcw.toNat) a.z xs) (hw : Writable s s2 tk mem c.stream (dAddr c.desc 0 0) a.z l)
    (hr : s.rangeOk (l.pa (dAddr c.desc 0 0)) a.z = true) :
    let pa := l.pa (dAddr c.desc 0 0)
    ∃ tl, (s.performWork t k (.cmd n c)).2 = .done ∧
      (s.performWork t k (.cmd n c)).1.mem = s.mem.setBytes pa (leBytes a.z (a.new (s.loadNat pa a.z) (leNat xs))) ∧
      (2 ≤ f.scope.toNat → (s.performWork t k (.cmd n c)).1.purged pa) ∧
      (s.performWork t k (.cmd n c)).1.member? t n =
        some ((mem.setTlb c.stream tl).fetched fetch pa (4 * f.srcw.toNat) a.z (s.loadNat pa a.z)) := by
  intro pa
  have hz : 0 < a.z := by obtain hz | hz := z_cases a <;> omega
  obtain ⟨hv, hp⟩ := tags_of_spadBytes hx hz
  have hin : (4 * f.srcw.toNat) % 4 + a.z ≤ 4 := by simpa using element_inContainer a f.srcw.toNat 0
  have hop : accOperand a f mem 0 = some (leNat xs) := by
    simp only [accOperand, Nat.zero_mul, Nat.add_zero, hv, hp, contBytes_of_spadBytes hx hin, Bool.not_false, Bool.and_self, if_true]
  have hva : accVA c.desc f mem 0 = some (dAddr c.desc 0 0) := by rw [accVA, if_pos hd]
  refine performWork_of_atomicAt ht hn hcur hh hm hso hw hr (by rw [commitPieces_acc ha, h1]) (data := leNat xs) (old := 0)
    (work := fun s1 m1 pa => accPerform s1 t m1 a fetch f 0 pa (leNat xs))
    (put := fun m => m.fetched fetch pa (4 * f.srcw.toNat) a.z (s.loadNat pa a.z)) ?_ fun s3 m hmem hload hcan hsome => ?_
  · simp only [accPiece, hst, hop, hva]
    rfl
  · have h := accPerform_leaves (mem := m) (fetch := fetch) (j := 0) (x := leNat xs) (f := f) hsome hw.plain hcan
    rw [hload, hmem, Nat.zero_mul, Nat.add_zero] at h
    exact h

/-- A CAS performed at its commit (R242). -/
theorem performWork_cas (hst : c.step = 0) {d : BitVec 6} {recw : BitVec 17} {w64 : BitVec 1} {scope : BitVec 2}
    (hi : c.instr = .cas h d recw w64 scope) (hx : ∀ i ∈ casUsed recw w64, (mem.cont i).valid = true ∧ (mem.cont i).poison = false)
    (hw : Writable s s2 tk mem c.stream (dBase c.desc) (if w64 = 1#1 then 8 else 4) l)
    (hr : s.rangeOk (l.pa (dBase c.desc)) (if w64 = 1#1 then 8 else 4) = true) :
    let pa := l.pa (dBase c.desc)
    let z := if w64 = 1#1 then 8 else 4
    ∃ tl, (s.performWork t k (.cmd n c)).2 = .done ∧
      (s.performWork t k (.cmd n c)).1.mem =
        (if s.loadNat pa z = casField mem recw 0 z then s.mem.setBytes pa (leBytes z (casField mem recw 8 z)) else s.mem) ∧
      (2 ≤ scope.toNat → (s.performWork t k (.cmd n c)).1.purged pa) ∧
      (s.performWork t k (.cmd n c)).1.member? t n =
        some ((mem.setTlb c.stream tl).fetched true pa (4 * recw.toNat + 16) 8 (s.loadNat pa z)) := by
  intro pa z
  have hbad : ((casUsed recw w64).any fun i => !(mem.cont i).valid || (mem.cont i).poison) = false := by
    rw [List.any_eq_false]
    intro i hi
    obtain ⟨hv, hp⟩ := hx i hi
    simp [hv, hp]
  refine performWork_of_atomicAt ht hn hcur hh hm hso hw hr (g := fun s1 m1 k _ => casPiece recw w64 scope tk s1 m1 k)
    (by rw [commitPieces, hi]) (data := casField mem recw 8 z) (old := BitVec.ofNat 64 (casField mem recw 0 z))
    (work := fun s1 m1 pa => casPerform s1 t m1 recw w64 scope pa (casField mem recw 0 z) (casField mem recw 8 z))
    (put := fun m => m.fetched true pa (4 * recw.toNat + 16) 8 (s.loadNat pa z)) ?_ fun s3 m hmem hload hcan hsome => ?_
  · simp only [casPiece, hst, hbad]
    rfl
  · have h := casPerform_leaves (mem := m) (recw := recw) (scope := scope) (cmp := casField mem recw 0 z) (new := casField mem recw 8 z)
      hsome hw.plain hcan
    rw [hmem] at h
    simp only [hload] at h
    exact h

end

section
variable {pa at_ z v n : Nat} {x : Stream} {tl : List TlbEntry}

/-- The scratchpad after a fetch into a member whose TLB moved. -/
theorem spadBytes_fetched : spadBytes ((mem.setTlb x tl).fetched true pa at_ z v) at_ z (leBytes z v) := spadBytes_putValue_same

theorem spadBytes_not_fetched (h : spadBytes mem at_ z xs) : spadBytes ((mem.setTlb x tl).fetched false pa at_ z v) at_ z xs :=
  (spadBytes_congr (Member.setTlb_spad mem x tl)).mpr h

end
end

/-- Settles O49: the new values are those of bit vectors; a scratchpad accumulate by accSpad; an atomic operation of a commit by what it leaves. -/
theorem atomicsAct : Obligations.AtomicsAct := by
  refine ⟨aop_new_int32, ?_, ?_⟩
  · intro s tk mem c i a fetch h f hw hfr ha _ hmark p d
    have hwork := exec_accOf_perform ha hw.phase
    refine ⟨fun hv => ?_, fun xs os hx ho hapart => ⟨mem.accumulated a fetch d p (leNat os) (leNat xs), ?_, accumulated_eq ..,
      accumulated_spec (element_inContainer ..) (element_inContainer ..) hx ho hapart⟩⟩
    · rw [hwork]
      exact workCmd_of_ok hw (by rw [hmark]) (accSpad_of_invalid hv) rfl
    · rw [hwork]
      exact workCmd_of_ok hw (by rw [hmark]) (accSpad_of_data hfr hx ho) rfl
  · intro s s2 t k n tk mem c l ht hn hcur hh hm hst hso hwf s1 purged
    refine ⟨?_, ?_⟩
    · intro a fetch h f xs ha hd h1 hx va hw hr old
      obtain ⟨tl, hdone, hmem, hpurged, hb⟩ := performWork_acc ht hn hcur hh hm hso hst ha hd h1 hx hw hr (k := k)
      refine ⟨hdone, ?_, hpurged, _, hb, ?_⟩
      · rw [show s1.mem = _ from hmem]
        exact wroteAt_setBytes hwf ..
      · cases fetch
        · exact spadBytes_not_fetched hx
        · have hold : leBytes a.z (leNat old) = old := by
            conv_rhs => rw [← leBytes_leNat old, length_load]
          have hput := spadBytes_fetched (mem := mem) (x := c.stream) (tl := tl) (pa := l.pa va) (at_ := 4 * f.srcw.toNat) (z := a.z) (v := leNat old)
          rw [hold] at hput
          exact hput
    · intro h d recw w64 scope hi hx z va hw hr old
      obtain ⟨tl, hdone, hmem, hpurged, hb⟩ := performWork_cas ht hn hcur hh hm hso hst hi hx hw hr (k := k)
      refine ⟨hdone, hpurged, fun heq => ?_, fun hne => hmem.trans (if_neg hne), _, hb, spadBytes_fetched⟩
      rw [show s1.mem = _ from hmem, if_pos heq]
      exact wroteAt_setBytes hwf ..

end Sys2Proof.Machine

namespace Sys2Proof.Machine
section
variable {s s1 s2 : State} {tk : Task} {mem b : Member} {c : Cmd} {l : Leaf} {x : Stream} {va n w : Nat}

/-! ## Translations of an engine's accesses, with the walk ahead (R351) -/

@[simp] theorem Member.setTlb_setTlb (m : Member) (x : Stream) (t u : List TlbEntry) : (m.setTlb x t).setTlb x u = m.setTlb x u := by
  cases x <;> rfl

@[simp] theorem Member.setTlb_tlb (m : Member) (x : Stream) : m.setTlb x (m.tlb x) = m := by cases x <;> rfl

/-- A walk ahead reads, and of the member only the stream's TLB moves. -/
theorem walkAhead_reads (s : State) (tk : Task) (mem : Member) (x : Stream) (va : Nat) (l : Leaf) :
    ∃ (s1 : State) (t : List TlbEntry), Reads s s1 ∧ s.walkAhead tk mem x va l = (mem.setTlb x t, s1) := by
  unfold State.walkAhead
  dsimp only
  generalize (if ((mem.curCmd s).map Cmd.stepsDown).getD false then va / l.size * l.size - 1 else (va / l.size + 1) * l.size) = next
  split
  · exact ⟨s, mem.tlb x, Reads.refl s, by rw [Member.setTlb_tlb]⟩
  · split
    · exact ⟨s, mem.tlb x, Reads.refl s, by rw [Member.setTlb_tlb]⟩
    · exact ⟨_, _, reads_fillTlb .., rfl⟩

theorem engTranslate_of_mapped (h : mappedFor s tk mem x va l) : ∃ (s1 : State) (t : List TlbEntry), Reads s s1 ∧
    s.engTranslate tk mem x va = (some l, mem.setTlb x t, s1) := by
  obtain ⟨s1, t1, h1, ht⟩ := translateFor_of_mappedFor h
  obtain ⟨s2, t2, h2, hwalk⟩ := walkAhead_reads s1 tk (mem.setTlb x t1) x va l
  refine ⟨s2, t2, h1.trans h2, ?_⟩
  simp only [State.engTranslate, ht, hwalk, Member.setTlb_setTlb]

theorem engTranslate_of_unmapped (hwalk : s.walk tk.ptroot va = none) (htlb : tlbFind (mem.tlb x) tk.ctx va = none) :
    ∃ (s1 : State) (t : List TlbEntry), Reads s s1 ∧ s.engTranslate tk mem x va = (none, mem.setTlb x t, s1) := by
  let r := s.translate (tk.tlbUse mem x va) (mem.tlb x) tk.ctx tk.ptroot va
  have hnone : r.1 = none := by simp only [r, State.translate, htlb, hwalk]
  refine ⟨r.2.2, r.2.1, reads_translate .., ?_⟩
  simp only [State.engTranslate, State.translateFor, r, hnone]

/-! ## Ordinary reads of an engine (R293, R299, R300) -/

/-- A range inside one piece of g bytes is its own only part. -/
theorem parts_of_inside {g : Nat} (hn : 0 < n) (hg : 0 < g) (hin : va % g + n ≤ g) (hlow : va < 2 ^ 57) : parts g va n = [(va, n)] := by
  have hdiv : (va + n - 1) / g = va / g := by
    have h1 := Nat.div_add_mod va g
    rw [Nat.div_eq_iff hg]
    constructor
    · rw [Nat.mul_comm]; omega
    · rw [Nat.mul_comm]; omega
  have hlo : max va (va / g * g) = va := max_eq_left (Nat.div_mul_le_self va g)
  have hhi : min (va + n) ((va / g + 1) * g) = va + n := by
    have h1 := Nat.div_add_mod va g
    rw [Nat.add_mul, Nat.one_mul, Nat.mul_comm]
    omega
  have hone : va / g + 1 - va / g = 1 := by omega
  simp only [parts, Nat.ne_of_gt hn, if_false, hdiv, hone, List.range_one, List.map_cons, List.map_nil, Nat.add_zero, hlo, hhi,
    Nat.mod_eq_of_lt hlow, Nat.add_sub_cancel_left]

theorem racy_setTlb {t pa : Nat} {u : List TlbEntry} : s.racy t tk (mem.setTlb x u) l pa = s.racy t tk mem l pa := by
  simp only [State.racy, Member.setTlb_rank]

theorem settled_setTlb {t pa : Nat} {u : List TlbEntry} : s.settled t (mem.setTlb x u) pa n = s.settled t mem pa n := by
  cases x <;> rfl

/-- An ordinary read brings the bytes of memory, with no poison; of the member only the stream's TLB moves. -/
theorem engRead_of_readable (h : Readable s tk mem x va n l) (hn : 0 < n) : ∃ (s1 : State) (t : List TlbEntry), Reads s s1 ∧
    engRead s s.cur.task tk mem x va n w = ⟨.ok ((s.load (l.pa va) n).map fun v => (v, false)), mem.setTlb x t, s1⟩ := by
  obtain ⟨s1, t, h1, ht⟩ := engTranslate_of_mapped h.map
  have hset : s1.settled s1.cur.task (mem.setTlb x t) (l.pa va) n = true := by rw [h1.settled, h1.cur, settled_setTlb, h.settled]
  have hweak := weakBytes_noteRead hset w
  rw [h1.cur, h1.load] at hweak
  refine ⟨s1.noteRead (l.pa va) n, t, h1.trans (reads_noteRead ..), ?_⟩
  simp only [engRead, parts_of_inside hn (by decide) h.page h.low, engReadParts, engReadPart, ht, h.r, h1.outsideRule, h.rule, h1.rangeOk, h.ok,
    h1.racy, racy_setTlb, h.calm, hweak, List.append_nil]
  rfl

/-- A read of a page without a translation fails with its cause. -/
theorem engRead_of_unmapped (hn : 0 < n) (hpage : va % 4096 + n ≤ 4096) (hlow : va < 2 ^ 57) (hwalk : s.walk tk.ptroot va = none)
    (htlb : tlbFind (mem.tlb x) tk.ctx va = none) : ∃ (s1 : State) (t : List TlbEntry), Reads s s1 ∧
      engRead s s.cur.task tk mem x va n w = ⟨.error ⟨s.missCause tk.ptroot va, BitVec.ofNat 64 va, 0⟩, mem.setTlb x t, s1⟩ := by
  obtain ⟨s1, t, h1, ht⟩ := engTranslate_of_unmapped hwalk htlb (x := x)
  exact ⟨s1, t, h1, by simp only [engRead, parts_of_inside hn (by decide) hpage hlow, engReadParts, engReadPart, ht]⟩

end
end Sys2Proof.Machine

namespace Sys2Proof.Machine
section
variable {mem b : Member} {a n ci : Nat} {keep : Bool} {bs : List Byte}

/-! ## Bytes an engine writes into the scratchpad (R221) -/

/-- A byte is written with some poison, whatever the container's is. -/
theorem putSpByte_keep (mem : Member) (a : Nat) (v : Byte) (p keep : Bool) : ∃ q, mem.putSpByte a v p keep = mem.putSpByte a v q false :=
  ⟨p || (keep && (mem.cont (a / 4)).valid && (mem.cont (a / 4)).poison), by simp [Member.putSpByte]⟩

theorem spPut_eq (bs : List (Byte × Bool)) (a : Nat) (keep : Bool) (mem : Member) :
    mem.spPut a keep bs = { mem with spad := (mem.spPut a keep bs).spad, wrote := (mem.spPut a keep bs).wrote } := by
  induction bs generalizing a keep mem with
  | nil => rfl
  | cons v bs ih => exact ih (a + 1) true (mem.putSpByte a v.1 v.2 (keep && a % 4 != 0))

/-- A container that no byte touches stays. -/
theorem cont_spPut_untouched (h : touches a bs.length ci = false) : (mem.spPut a keep (bs.map fun v => (v, false))).cont ci = mem.cont ci := by
  induction bs generalizing a keep mem with
  | nil => rfl
  | cons v bs ih =>
    rw [List.length_cons, touches_succ, Bool.or_eq_false_iff, beq_eq_false_iff_ne] at h
    obtain ⟨h0, h⟩ := h
    obtain ⟨q, hq⟩ := putSpByte_keep mem a v false (keep && a % 4 != 0)
    rw [List.map_cons, Member.spPut, ih h, hq, cont_putSpByte, if_neg h0.symm]

/-- Bytes of a valid container that are not written stay, and it stays valid. -/
theorem cont_spPut_outside {x : Nat} (hv : (mem.cont (x / 4)).valid = true) (hx : x < a ∨ a + bs.length ≤ x) :
    ((mem.spPut a keep (bs.map fun v => (v, false))).cont (x / 4)).valid = true ∧
      contByte ((mem.spPut a keep (bs.map fun v => (v, false))).cont (x / 4)) (x % 4) = contByte (mem.cont (x / 4)) (x % 4) := by
  induction bs generalizing a keep mem with
  | nil => exact ⟨hv, rfl⟩
  | cons v bs ih =>
    rw [List.length_cons] at hx
    obtain ⟨q, hq⟩ := putSpByte_keep mem a v false (keep && a % 4 != 0)
    have hput : (mem.putSpByte a v q false).cont (x / 4) =
        if x / 4 = a / 4 then putContByte (mem.cont (a / 4)) (a % 4) v q else mem.cont (x / 4) := cont_putSpByte ..
    rw [List.map_cons, Member.spPut, hq]
    obtain ⟨h1, h2⟩ := ih (a := a + 1) (keep := true) (mem := mem.putSpByte a v q false)
      (by rw [hput]; split; exacts [rfl, hv]) (by omega)
    refine ⟨h1, h2.trans ?_⟩
    rw [hput]
    split
    · next hc =>
      rw [contByte_putContByte _ (Nat.mod_lt _ (by decide)) (Nat.mod_lt _ (by decide)), if_neg (by omega), ← hc, if_pos hv]
    · rfl

/-- Bytes written are there, in valid containers. -/
theorem cont_spPut_inside {k : Nat} (hk : k < bs.length) :
    ((mem.spPut a keep (bs.map fun v => (v, false))).cont ((a + k) / 4)).valid = true ∧
      contByte ((mem.spPut a keep (bs.map fun v => (v, false))).cont ((a + k) / 4)) ((a + k) % 4) = bs.getD k 0 := by
  induction bs generalizing a k keep mem with
  | nil => cases hk
  | cons v bs ih =>
    obtain ⟨q, hq⟩ := putSpByte_keep mem a v false (keep && a % 4 != 0)
    rw [List.map_cons, Member.spPut, hq]
    cases k with
    | zero =>
      have hput : (mem.putSpByte a v q false).cont (a / 4) = putContByte (mem.cont (a / 4)) (a % 4) v q := by rw [cont_putSpByte, if_pos rfl]
      obtain ⟨h1, h2⟩ := cont_spPut_outside (mem := mem.putSpByte a v q false) (a := a + 1) (keep := true) (bs := bs) (x := a)
        (by rw [hput]; rfl) (by omega)
      refine ⟨h1, h2.trans ?_⟩
      rw [hput, contByte_putContByte _ (Nat.mod_lt _ (by decide)) (Nat.mod_lt _ (by decide)), if_pos rfl]
      rfl
    | succ k =>
      have h := ih (a := a + 1) (k := k) (keep := true) (mem := mem.putSpByte a v q false) (by simpa using hk)
      rw [show a + (k + 1) = a + 1 + k by omega]
      exact h

theorem spadHolds_spPut (h : b.spad = mem.spad) : spadHolds mem (b.spPut a keep (bs.map fun v => (v, false))) a bs :=
  ⟨fun _ hk => cont_spPut_inside hk, fun ci hci => by
    rw [cont_spPut_untouched, cont_congr h]
    rw [Bool.eq_false_iff, Ne, touches_iff]
    rintro ⟨k, hk, rfl⟩
    omega⟩

/-! ## Containers an engine sets (R229, R230, R233) -/

section
variable (h : mem.spad.risesFrom 0)
include h

/-- A container after any container was set, where the map lists its keys in order. -/
theorem cont_setCont_of_rises (cj : Nat) (c : Container) : (mem.setCont ci c).cont cj = if cj = ci then c else mem.cont cj :=
  SMap.find_put_or_del h ci cj c Container.none

theorem rises_setCont (c : Container) : (mem.setCont ci c).spad.risesFrom 0 := by
  unfold Member.setCont
  dsimp only
  split
  · exact SMap.risesFrom_del h
  · exact SMap.risesFrom_put h (Nat.zero_le _)

end

/-- A run of n containers from the one of a number set to those of a function. -/
def Member.setConts (mem : Member) (ci : Nat) (f : Nat → Container) (n : Nat) : Member :=
  (List.range n).foldl (fun m i => m.setCont (ci + i) (f i)) mem

section
variable {f : Nat → Container}

theorem setConts_succ : mem.setConts ci f (n + 1) = (mem.setConts ci f n).setCont (ci + n) (f n) := by
  simp [Member.setConts, List.range_succ]

theorem setConts_eq : mem.setConts ci f n = { mem with spad := (mem.setConts ci f n).spad, wrote := (mem.setConts ci f n).wrote } := by
  induction n with
  | zero => rfl
  | succ n ih =>
    rw [setConts_succ, ih]
    rfl

theorem rises_setConts (h : mem.spad.risesFrom 0) : (mem.setConts ci f n).spad.risesFrom 0 := by
  induction n with
  | zero => exact h
  | succ n ih =>
    rw [setConts_succ]
    exact rises_setCont ih _

theorem cont_setConts (h : mem.spad.risesFrom 0) (cj : Nat) :
    (mem.setConts ci f n).cont cj = if ci ≤ cj ∧ cj < ci + n then f (cj - ci) else mem.cont cj := by
  induction n with
  | zero =>
    rw [if_neg (by omega)]
    rfl
  | succ n ih =>
    rw [setConts_succ, cont_setCont_of_rises (rises_setConts h), ih]
    by_cases hlast : cj = ci + n
    · rw [if_pos hlast, if_pos (by omega), hlast, Nat.add_sub_cancel_left]
    · rw [if_neg hlast]
      exact if_congr (by omega) rfl rfl

end

/-- Where no row is frozen a piece is written (R243). -/
theorem spPiece_of_thawed {s : State} {c : Cmd} {g : Member → Member} (h : mem.frozen = []) : spPiece s mem c a n g = ⟨.ok, s, g mem, c⟩ := by
  rw [spPiece, frozenTrap, h]
  rfl

end
end Sys2Proof.Machine

namespace Sys2Proof.Machine
section
variable {s s1 s2 s3 : State} {tk : Task} {mem b : Member} {c : Cmd} {l : Leaf} {va a n m : Nat} {bytes xs : List Byte}

/-! ## Ordinary writes of an engine (R235, R295, R355) -/

/-- Bytes that are all written are one run. -/
theorem runs_of_all_some (i : Nat) (h : 0 < bytes.length) : runs i (bytes.map some) = [(i, bytes)] := by
  induction bytes generalizing i with
  | nil => cases h
  | cons v r ih =>
    cases r with
    | nil => rfl
    | cons w r =>
      rw [List.map_cons, runs, ih (i + 1) (by simp)]
      simp

theorem not_all_isNone (h : 0 < bytes.length) : ((bytes.map some).all (·.isNone)) = false := by
  cases bytes with
  | nil => cases h
  | cons v r => rfl

/-- The state after bytes were written by a member for an engine: memory has them, and each write its writer. -/
def State.engWrote (s : State) (t rank pa : Nat) (bytes : List Byte) : State := (s.wrMem pa bytes).writtenBy s t rank false

/-- What a write leaves of a state that reads like the one its page was taken in. -/
theorem engWrote_eq (h2 : s2 = { s with own := s2.own }) (h3 : Reads s2 s3) (t rank pa : Nat) (bytes : List Byte) :
    let w := s3.engWrote t rank pa bytes
    w = { s with own := s2.own, mem := w.mem, past := w.past, unmapped := w.unmapped, hbm := w.hbm, mgmt := w.mgmt, xlat := w.xlat
                 free := w.free } := by
  rw [h3.eq, h2]
  rfl

theorem engWrote_cycle (h2 : s2 = { s with own := s2.own }) (h3 : Reads s2 s3) (t rank pa : Nat) (bytes : List Byte) :
    (s3.engWrote t rank pa bytes).cycle = s.cycle := by
  rw [h3.eq, h2]
  rfl

theorem engWrote_mem (h2 : s2 = { s with own := s2.own }) (h3 : Reads s2 s3) (t rank pa : Nat) (bytes : List Byte) :
    (s3.engWrote t rank pa bytes).mem = s.mem.setBytes pa bytes := by
  rw [h3.eq, h2]
  rfl

section
variable (hw : Writable s s2 tk mem c.stream va bytes.length l) (h0 : 0 < bytes.length)
include hw

/-- Nothing of the line of an ordinary write waits in the side log. -/
theorem ownEntry_of_writable : s.ownEntry s.cur.task m c va = false := by
  rw [State.ownEntry, List.any_eq_false]
  intro e he
  simp [hw.fresh e he]

include h0

/-- An ordinary write is not denied. -/
theorem writeDenied_of_writable : writeDenied s s.cur.task tk mem c.stream [(va, bytes.map some)] = none := by
  obtain ⟨s1, t, -, ht⟩ := translateFor_of_mappedFor hw.map
  have hown : (l.owned (l.pa va) && (s.takeOwn ⟨s.cur.task, mem.rank⟩ (l.pa va)).isNone) = false := by
    have h := hw.own
    split_ifs at h with ho
    · simp [h]
    · simp [ho]
  simp only [writeDenied, List.findSome?_cons, List.findSome?_nil, not_all_isNone h0, ht, hw.w, hown, Bool.not_true, Bool.false_eq_true, if_false]

/-- An ordinary write is performed in a state like the one its page was taken in; of the member only the stream's TLB moves. -/
theorem engWrite_of_writable : ∃ (s3 : State) (t : List TlbEntry), Reads s2 s3 ∧ engWrite s s.cur.task m tk mem c false va (bytes.map some) =
    ⟨.ok, s3.engWrote s.cur.task mem.rank (l.pa va) bytes, mem.setTlb c.stream t, c⟩ := by
  obtain ⟨s1, t, h1, ht⟩ := engTranslate_of_mapped hw.map
  obtain ⟨s3, htake, h3⟩ := hw.takes_of_reads h1
  unfold State.takes at htake
  have hcan : s3.canWrite (l.pa va) bytes.length = true := by
    rw [h3.canWrite, hw.eq_own]
    exact hw.exists_
  have hparts : ((parts 128 va bytes.length).map fun p =>
      (p.1, ((bytes.map some).drop ((p.1 + 2 ^ 57 - va % 2 ^ 57) % 2 ^ 57)).take p.2)) = [(va, bytes.map some)] := by
    have hoff : (va + 2 ^ 57 - va % 2 ^ 57) % 2 ^ 57 = 0 := by rw [Nat.mod_eq_of_lt hw.low, Nat.add_sub_cancel_left, Nat.mod_self]
    rw [parts_of_inside h0 (by decide) hw.line hw.low, List.map_cons, List.map_nil, hoff, List.drop_zero,
      List.take_of_length_le (by rw [List.length_map])]
  refine ⟨s3, t, h3, ?_⟩
  simp only [engWrite, List.length_map, hparts, writeDenied_of_writable hw h0, Bool.false_eq_true, if_false, engWriteParts, engWritePart,
    not_all_isNone h0, ownEntry_of_writable hw, ht, hw.w, Bool.not_true, hw.plain, h1.canWrite, hw.exists_, Member.setTlb_rank, htake,
    State.writeRuns, runs_of_all_some 0 h0, List.foldl_cons, List.foldl_nil, Nat.add_zero, wrDev_of_canWrite hw.plain hcan]
  rfl

end

/-- The data of valid bytes are those bytes, all of them written. -/
theorem spData_of_spadBytes (h : spadBytes mem a n xs) : mem.spData a n = xs.map some := by
  obtain ⟨hl, hb⟩ := h
  refine List.ext_getElem (by simpa [Member.spData] using hl.symm) fun i h1 h2 => ?_
  have hi : i < n := by simpa [Member.spData] using h1
  have hx : i < xs.length := by simpa using h2
  simp [Member.spData, hb i hi, hx]

theorem outData_of_spadBytes (h : spadBytes mem a n xs) (d : BitVec 256) : outData mem d a n = (xs.map (fmtByte d)).map some := by
  rw [outData, spData_of_spadBytes h, List.map_map, List.map_map]
  rfl

end
end Sys2Proof.Machine

namespace Sys2Proof.Machine
section
variable {w : Window} {t u n k : Nat} {f : Fill}

/-! ## Slots of windows (R224, R227) -/

/-- A slot with data lies in the ring. -/
theorem lt_of_slot_ne (h : (w.slot t).2 ≠ .empty) : t % 2 ^ 32 % w.depth < w.slots.length := by
  by_contra hge
  rw [Window.slot, List.getD_eq_default _ _ (Nat.not_lt.mp hge)] at h
  exact h rfl

theorem slot_setSlot_same (h : t % 2 ^ 32 % w.depth < w.slots.length) (hu : u % 2 ^ 32 % w.depth = t % 2 ^ 32 % w.depth) :
    (w.setSlot t f).slot u = (t % 2 ^ 32, f) := by
  unfold Window.slot Window.setSlot
  rw [hu, List.getD_eq_getElem?_getD, List.getElem?_set_self h, Option.getD_some]

theorem slot_setSlot_other (hu : u % 2 ^ 32 % w.depth ≠ t % 2 ^ 32 % w.depth) : (w.setSlot t f).slot u = w.slot u := by
  unfold Window.slot Window.setSlot
  rw [List.getD_eq_getElem?_getD, List.getElem?_set_ne hu.symm, List.getD_eq_getElem?_getD]

/-- A slot that is not filling is, in a window with another slot present, the same or present. -/
theorem slot_setSlot_present (h : (w.slot t).2 ≠ .empty) :
    ((w.setSlot t .present).slot u).2 = .present ∨ (w.setSlot t .present).slot u = w.slot u := by
  by_cases hu : u % 2 ^ 32 % w.depth = t % 2 ^ 32 % w.depth
  · exact .inl (by rw [slot_setSlot_same (lt_of_slot_ne h) hu])
  · exact .inr (slot_setSlot_other hu)

theorem settle_succ_of_written (h : (w.slot t).2 = .written) : w.settle t (n + 1) = (w.setSlot t .present).settle (t + 1) n := by
  obtain ⟨x, hx⟩ : ∃ x, w.slot t = (x, .written) := ⟨(w.slot t).1, Prod.ext rfl h⟩
  simp only [Window.settle, hx]

theorem settle_succ_of_present (h : (w.slot t).2 = .present) : w.settle t (n + 1) = w.settle (t + 1) n := by
  obtain ⟨x, hx⟩ : ∃ x, w.slot t = (x, .present) := ⟨(w.slot t).1, Prod.ext rfl h⟩
  simp only [Window.settle, hx]

theorem settle_succ_of_other (h1 : (w.slot t).2 ≠ .written) (h2 : (w.slot t).2 ≠ .present) : w.settle t (n + 1) = w := by
  rw [Window.settle]
  split
  · next x hx => exact absurd (congrArg Prod.snd hx) h1
  · next x hx => exact absurd (congrArg Prod.snd hx) h2
  · rfl

/-- Slots that are present stay so. -/
theorem present_settle (h : (w.slot u).2 = .present) : ((w.settle t n).slot u).2 = .present := by
  induction n generalizing w t with
  | zero => exact h
  | succ n ih =>
    by_cases h1 : (w.slot t).2 = .written
    · rw [settle_succ_of_written h1]
      refine ih ?_
      obtain hp | hs := slot_setSlot_present (u := u) (w := w) (t := t) (by simp [h1])
      · exact hp
      · rw [hs, h]
    · by_cases h2 : (w.slot t).2 = .present
      · rw [settle_succ_of_present h2]
        exact ih h
      · rw [settle_succ_of_other h1 h2, h]

/-- A slot is present after rows up to it, all written or present, have settled (R224). -/
theorem settle_present (hk : k < n) (h : ∀ u ≤ k, (w.slot (t + u)).2 = .written ∨ (w.slot (t + u)).2 = .present) :
    ((w.settle t n).slot (t + k)).2 = .present := by
  induction n generalizing w t k with
  | zero => cases hk
  | succ n ih =>
    obtain h0 | h0 := h 0 (Nat.zero_le k) <;> rw [Nat.add_zero] at h0
    · rw [settle_succ_of_written h0]
      have hne : (w.slot t).2 ≠ .empty := by simp [h0]
      cases k with
      | zero => exact present_settle (by rw [Nat.add_zero, slot_setSlot_same (lt_of_slot_ne hne) rfl])
      | succ k =>
        rw [Nat.add_comm k, ← Nat.add_assoc]
        refine ih (by omega) fun u hu => ?_
        have hw := h (u + 1) (by omega)
        rw [Nat.add_comm u, ← Nat.add_assoc] at hw
        obtain hp | hs := slot_setSlot_present (u := t + 1 + u) hne
        · exact .inr hp
        · rwa [hs]
    · rw [settle_succ_of_present h0]
      cases k with
      | zero => exact present_settle h0
      | succ k =>
        rw [Nat.add_comm k, ← Nat.add_assoc]
        refine ih (by omega) fun u hu => ?_
        have hw := h (u + 1) (by omega)
        rwa [Nat.add_comm u, ← Nat.add_assoc] at hw

/-- The last byte of a row notes its slot, in the opening it belongs to. -/
theorem rowArrives_rowWritten (w : Window) (gen t : Nat) : rowArrives w (w.rowWritten gen t) gen t := by
  refine ⟨fun ho hg hs => ?_, fun hn => ?_⟩
  · have hset : w.rowWritten gen t = w.setSlot t .written := by simp [Window.rowWritten, ho, hg, hs]
    rw [hset]
    exact ⟨rfl, slot_setSlot_same (lt_of_slot_ne (by simp [hs])) rfl, fun u hu => slot_setSlot_other hu⟩
  · have hno : (w.opened && w.gen == gen) = false := by
      obtain hg | ho := hn
      · simp [hg]
      · simp [ho]
    simp [Window.rowWritten, hno]

/-- The window replaced is there. -/
theorem window_setWindow (mem : Member) {i : Nat} (hi : i < 16) (w : Window) : (mem.setWindow i w).window i = w := by
  simp [Member.window, Member.setWindow, setVec, hi]

end
end Sys2Proof.Machine

namespace Sys2Proof.Machine
section
variable {s s1 s2 : State} {tk : Task} {mem b : Member} {c : Cmd} {l : Leaf} {x : Stream} {a i0 k n t : Nat} {keep : Bool} {bs : List Byte}
  {tl : List TlbEntry}

/-! ## Descriptors (R43) -/

theorem atomBytes_pos (d : BitVec 256) : 0 < atomBytes d := by
  unfold atomBytes dBits fmtBits
  split <;> decide

theorem atomVA_lt (d : BitVec 256) (i0 k : Nat) : atomVA d i0 k < 2 ^ 57 := by
  unfold atomVA dAddr
  dsimp only
  omega

/-! ## Data brought into the scratchpad (R221, R224) -/

/-- A member after bytes read by one of its streams have been written to its scratchpad. -/
def Member.landed (mem : Member) (x : Stream) (tl : List TlbEntry) (a : Nat) (keep : Bool) (bs : List Byte) : Member :=
  (mem.setTlb x tl).spPut a keep (bs.map fun v => (v, false))

theorem spadHolds_landed : spadHolds mem (mem.landed x tl a keep bs) a bs := spadHolds_spPut (Member.setTlb_spad ..)

theorem landed_l : mem.landed .l tl a keep bs = { mem with
    spad := (mem.landed .l tl a keep bs).spad, wrote := (mem.landed .l tl a keep bs).wrote, tlbL := (mem.landed .l tl a keep bs).tlbL } := by
  unfold Member.landed
  rw [spPut_eq]
  rfl

theorem landed_eq (hx : x = .l ∨ x = .s) : mem.landed x tl a keep bs = { mem with
    spad := (mem.landed x tl a keep bs).spad, wrote := (mem.landed x tl a keep bs).wrote
    tlbL := (mem.landed x tl a keep bs).tlbL, tlbS := (mem.landed x tl a keep bs).tlbS } := by
  unfold Member.landed
  rw [spPut_eq]
  obtain rfl | rfl := hx <;> rfl

theorem landed_window {i : Nat} (hx : x = .l ∨ x = .s) : (mem.landed x tl a keep bs).window i = mem.window i := by
  rw [landed_eq hx]
  rfl

section
variable (hfr : mem.frozen = [])
include hfr

theorem copyInPiece_of_readable {va : Nat} (hva : va = atomVA c.desc i0 k) {spa : Nat}
    (h : Readable s tk mem c.stream va (atomBytes c.desc) l) : ∃ (s1 : State) (tl : List TlbEntry), Reads s s1 ∧
      copyInPiece spa i0 tk s mem c k =
        ⟨.ok, s1, mem.landed c.stream tl (spa + k * atomBytes c.desc) (decide (k ≠ 0)) (s.load (l.pa va) (atomBytes c.desc)), c⟩ := by
  subst hva
  obtain ⟨s1, tl, h1, hr⟩ := engRead_of_readable h (atomBytes_pos c.desc) (w := atomBytes c.desc)
  refine ⟨s1, tl, h1, ?_⟩
  simp only [copyInPiece, hr]
  exact spPiece_of_thawed (by rw [Member.setTlb_frozen, hfr])

theorem fillRow_of_readable (ht : t < dSize c.desc 1) (hn : 0 < dRow c.desc) (h : Readable s tk mem c.stream (rowVA c.desc t) (dRow c.desc) l) :
    ∃ (s1 : State) (tl : List TlbEntry), Reads s s1 ∧
      fillRow s tk mem c a (some t) = ⟨.ok, s1, mem.landed c.stream tl a false (s.load (l.pa (rowVA c.desc t)) (dRow c.desc)), c⟩ := by
  obtain ⟨s1, tl, h1, hr⟩ := engRead_of_readable h hn (w := max 1 (dBits c.desc / 8))
  refine ⟨s1, tl, h1, ?_⟩
  simp only [fillRow, Nat.not_le.mpr ht, if_false, hr]
  exact spPiece_of_thawed (by rw [Member.setTlb_frozen, hfr])

/-- A row of a bad index becomes invalid (R233). -/
theorem fillRow_of_bad {row : Option Nat} (h : ∀ t, row = some t → dSize c.desc 1 ≤ t) :
    fillRow s tk mem c a row = ⟨.ok, s, mem.setConts (a / 4) (fun _ => Container.none) (dRow c.desc / 4), c⟩ := by
  cases row with
  | none =>
    simp only [fillRow]
    exact spPiece_of_thawed hfr
  | some t =>
    simp only [fillRow, h t rfl, if_true]
    exact spPiece_of_thawed hfr

theorem ringRow_of_readable {r : Ring} (hx : c.stream = .l ∨ c.stream = .s) (ht : t < dSize c.desc 1) (hn : 0 < dRow c.desc)
    (h : Readable s tk mem c.stream (rowVA c.desc t) (dRow c.desc) l) : ∃ (s1 : State) (tl : List TlbEntry), Reads s s1 ∧
      ringRow s tk mem c r k (some t) = ⟨.ok, s1,
        (mem.landed c.stream tl (r.slotAddr k) false (s.load (l.pa (rowVA c.desc t)) (dRow c.desc))).setWindow r.w
          ((mem.window r.w).rowWritten r.gen (r.tag + k)), c⟩ := by
  obtain ⟨s1, tl, h1, hr⟩ := fillRow_of_readable hfr ht hn h (a := r.slotAddr k)
  refine ⟨s1, tl, h1, ?_⟩
  simp only [ringRow, hr, landed_window hx]

end

/-! ## The copies at work (R220, R228 to R233) -/

/-- Piece j of a GATH into a window: a row of the window's fill (R233). -/
def gathTowinPiece (idx : Nat) (tk : Task) (s : State) (mem : Member) (c : Cmd) (j : Nat) : UnitRes :=
  match c.ring with
  | some r => ringRow s tk mem c r j (indexAt mem idx j)
  | none => ⟨.ok, s, mem, c⟩

section
variable (hp : s.cur.phase = .perform) {h : Hdr} {d : BitVec 6} {w : BitVec 4} {spa idx : BitVec 19} {nm1 : BitVec 9} {j val : BitVec 16}
  {cntm1 : BitVec 12} {fo : Option FollowOn} {vm : BitVec 2}
include hp

theorem exec_copy_perform : exec (.copy h d spa j cntm1 fo) s = workCmd s (fun _ _ c => atoms c.desc (cntm1.toNat + 1)) fun tk s mem c k =>
    if c.stream == Stream.l then copyInPiece spa.toNat j.toNat tk s mem c k
    else copyOutPiece false spa.toNat j.toNat (cntm1.toNat + 1) tk s mem c k := by
  simp only [exec, execCopy, hp]

theorem exec_wset_perform {f : RingFields} : exec (.wset h w d f) s = workCmd s (fun _ _ _ => f.fetch.toNat) fetchPiece := by
  simp only [exec, execWset, hp]

theorem exec_wadv_perform {ret fetch : BitVec 7} : exec (.wadv h w ret fetch) s = workCmd s (fun _ _ _ => fetch.toNat) fetchPiece := by
  simp only [exec, execWadv, hp]

theorem exec_gath_perform : exec (.gath h d spa idx nm1) s = workCmd s (fun _ _ _ => nm1.toNat + 1) fun tk s mem c j =>
    fillRow s tk mem c (spa.toNat + j * dRow c.desc) (indexAt mem idx.toNat j) := by
  simp only [exec, execGath, hp]

theorem exec_gathTowin_perform : exec (.gathTowin h w d idx nm1) s = workCmd s (fun _ _ _ => nm1.toNat + 1) (gathTowinPiece idx.toNat) := by
  simp only [exec, execGathTowin, hp]
  rfl

theorem exec_scat_perform : exec (.scat h d spa idx nm1) s = workCmd s (fun _ _ _ => nm1.toNat + 1) (scatPiece false spa.toNat idx.toNat) := by
  simp only [exec, execScat, hp]

theorem exec_fill_spad_perform {wa nwm1 : BitVec 17} {inv : BitVec 1} : exec (.fill h (.spad wa nwm1 val vm inv)) s =
    workCmd s (fun _ _ _ => nwm1.toNat + 1) fun _ => fillWord (4 * wa.toNat) (fillValue val vm) (inv == 1#1) := by
  simp only [exec, execFill, hp]

theorem exec_fill_mem_perform : exec (.fill h (.mem d val vm j cntm1)) s =
    workCmd s (fun _ _ c => atoms c.desc (cntm1.toNat + 1)) (fillOutPiece false val vm j.toNat) := by
  simp only [exec, execFill, hp]

theorem exec_peerCopy_perform {prank : BitVec 3} : exec (.peerCopy h spa prank cntm1 fo) s =
    workCmd s (fun _ _ _ => cntm1.toNat + 1) (peerPiece spa.toNat prank.toNat) := by
  simp only [exec, execPeerCopy, hp]

theorem exec_pref_perform {tier : BitVec 1} : exec (.pref h d tier j cntm1) s =
    workCmd s (fun _ _ c => atoms c.desc (cntm1.toNat + 1)) (prefPiece tier j.toNat) := by
  simp only [exec, execPref, hp]

end

section
variable (hw : Working s tk mem c)
include hw

/-- A page without a translation holds a COPY of L at its mark (R234). -/
theorem exec_copy_of_unmapped {h : Hdr} {d : BitVec 6} {spa : BitVec 19} {j : BitVec 16} {cntm1 : BitVec 12} {fo : Option FollowOn}
    (hm : c.mark + 1 = atoms c.desc (cntm1.toNat + 1)) (hx : c.stream = .l) {va : Nat} (hva : va = atomVA c.desc j.toNat c.mark)
    (hpage : va % 4096 + atomBytes c.desc ≤ 4096) (hwalk : s.walk tk.ptroot va = none) (htlb : tlbFind mem.tlbL tk.ctx va = none) :
    ∃ (s1 : State) (tl : List TlbEntry), Reads s s1 ∧ exec (.copy h d spa j cntm1 fo) s =
      .next (heldAtMark s1 { mem with tlbL := tl } c (s.missCause tk.ptroot va) va) := by
  obtain ⟨s1, tl, h1, hr⟩ := engRead_of_unmapped (x := .l) (w := atomBytes c.desc) (atomBytes_pos c.desc) hpage (by rw [hva]; exact atomVA_lt ..)
    hwalk htlb
  refine ⟨s1, tl, h1, ?_⟩
  rw [exec_copy_perform hw.phase, workCmd_of_hold hw hm.symm (s1 := s1) (b := { mem with tlbL := tl })
    (e := ⟨s.missCause tk.ptroot va, BitVec.ofNat 64 va, 0⟩)
    (by subst hva; simp only [hx, beq_self_eq_true, if_true, copyInPiece, hr]; rfl), heldAtMark, h1.cur]

section
variable {i : Instr} {total : Task → Member → Cmd → Nat} {f : Task → State → Member → Cmd → Nat → UnitRes}
  (hi : exec i s = workCmd s total f) (htot : total tk mem c = c.mark + 1)
include hi htot

theorem exec_of_piece {s1 : State} {b : Member} (hc : s1.cycle = s.cycle) (hf : f tk s mem c c.mark = ⟨.ok, s1, b, c⟩) :
    exec i s = .next (finished s1 b c) := by
  rw [hi]
  exact workCmd_of_ok hw htot hf hc

/-- The last row of a fill of a window lands in its slot, which is noted (R224). -/
theorem exec_of_ringRow {r : Ring} (hfr : mem.frozen = []) (hx : c.stream = .l ∨ c.stream = .s) (hn : 0 < dRow c.desc) (ht : t < dSize c.desc 1)
    (hr : Readable s tk mem c.stream (rowVA c.desc t) (dRow c.desc) l)
    (hf : f tk s mem c c.mark = ringRow s tk mem c r c.mark (some t)) : ∃ (s1 : State) (b : Member), readsOnly s s1 ∧
      exec i s = .next (finished s1 b c) ∧ b = { mem with spad := b.spad, wrote := b.wrote, tlbL := b.tlbL, tlbS := b.tlbS, win := b.win } ∧
      spadHolds mem b (r.slotAddr c.mark) (s.load (l.pa (rowVA c.desc t)) (dRow c.desc)) ∧
      (r.w < 16 → rowArrives (mem.window r.w) (b.window r.w) r.gen (r.tag + c.mark)) := by
  obtain ⟨s1, tl, h1, hring⟩ := ringRow_of_readable hfr hx ht hn hr (r := r) (k := c.mark)
  refine ⟨s1, (mem.landed c.stream tl (r.slotAddr c.mark) false (s.load (l.pa (rowVA c.desc t)) (dRow c.desc))).setWindow r.w
    ((mem.window r.w).rowWritten r.gen (r.tag + c.mark)), h1.only,
    exec_of_piece hw hi htot h1.cycle (hf.trans hring), ?_, spadHolds_landed (x := c.stream) (tl := tl) (keep := false), fun hw16 => ?_⟩
  · rw [landed_eq hx]
    rfl
  · rw [window_setWindow _ hw16]
    exact rowArrives_rowWritten ..

/-- The last piece of a command that writes memory: its bytes are there, and nothing else changed (R235). -/
theorem exec_of_engWrite {va : Nat} {bytes : List Byte} (hx : c.stream = .s) (hwr : Writable s s2 tk mem c.stream va bytes.length l)
    (h0 : 0 < bytes.length) (hf : f tk s mem c c.mark = engWrite s s.cur.task s.cur.member tk mem c false va (bytes.map some)) :
    ∃ (t : State) (b : Member), exec i s = .next (finished t b c) ∧ b = { mem with tlbS := b.tlbS } ∧
      t = { s with own := s2.own, mem := t.mem, past := t.past, unmapped := t.unmapped, hbm := t.hbm, mgmt := t.mgmt, xlat := t.xlat,
                   free := t.free } ∧
      (s.mem.wf = true → wroteAt s.mem t.mem (l.pa va) bytes) := by
  obtain ⟨s3, tl, h3, he⟩ := engWrite_of_writable hwr h0 (m := s.cur.member)
  refine ⟨s3.engWrote s.cur.task mem.rank (l.pa va) bytes, mem.setTlb c.stream tl,
    exec_of_piece hw hi htot (engWrote_cycle hwr.eq_own h3 ..) (hf.trans he), by rw [hx]; rfl, engWrote_eq hwr.eq_own h3 .., fun hwf => ?_⟩
  rw [engWrote_mem hwr.eq_own h3]
  exact wroteAt_setBytes hwf ..

end
end

/-! ## Pieces that write memory (R228, R230, R233, R235) -/

section
variable {va z : Nat} {xs : List Byte}

/-- A COPY of S to an ordinary target is an ordinary write, and no record of a launch port (R397). -/
theorem copyOutPiece_of_writable {spa cnt : Nat} (hwr : Writable s s2 tk mem c.stream (atomVA c.desc i0 k) z l) :
    copyOutPiece false spa i0 cnt tk s mem c k = engWrite s s.cur.task s.cur.member tk mem c false (atomVA c.desc i0 k)
      (outData mem c.desc (spa + k * atomBytes c.desc) (atomBytes c.desc)) := by
  unfold copyOutPiece
  dsimp only
  split
  · rfl
  · next rec hrec =>
    have hk : k = 0 := by
      by_contra hk
      rw [if_neg hk] at hrec
      cases hrec
    subst hk
    obtain ⟨s1, tl, -, ht⟩ := translateFor_of_mappedFor hwr.map
    simp only [ht, hwr.plain, Bool.and_false, Bool.false_eq_true, if_false]

theorem fillOutPiece_eq {val : BitVec 16} {vm : BitVec 2} (hb : dBits c.desc ≠ 4) : fillOutPiece false val vm i0 tk s mem c k =
    engWrite s s.cur.task s.cur.member tk mem c false (atomVA c.desc i0 k)
      (((leBytes (dBits c.desc / 8) (fillValue val vm).toNat).map (fmtByte c.desc)).map some) := by
  simp only [fillOutPiece, if_neg hb, atomBytes, List.map_map]
  rfl

theorem scatPiece_eq {src idx : Nat} (hi : indexAt mem idx k = some t) (ht : t < dSize c.desc 1) (hp : (mem.cont (idx / 4 + k)).poison = false) :
    scatPiece false src idx tk s mem c k =
      engWrite s s.cur.task s.cur.member tk mem c false (rowVA c.desc t) (outData mem c.desc (src + k * dRow c.desc) (dRow c.desc)) := by
  simp [scatPiece, hi, hp, Nat.not_le.mpr ht]

end

/-! ## Pieces that set containers (R229, R230) -/

theorem fillWord_eq {wa : Nat} {v : W32} {inv : Bool} (hfr : mem.frozen = []) :
    fillWord (4 * wa) v inv s mem c k = ⟨.ok, s, mem.setCont (wa + k) (if inv then Container.none else Container.ord v), c⟩ := by
  have h : 4 * wa / 4 = wa := Nat.mul_div_cancel_left wa (by decide)
  rw [fillWord, spPiece_of_thawed hfr, h]

/-- A row of a peer copy sets the row's containers to the peer's. -/
theorem peerPiece_eq {spa prank : Nat} {p : Member} (hfr : mem.frozen = []) (hp : tk.members[tk.index mem.replica prank]? = some p)
    (hal : spa % 4 = 0) : peerPiece spa prank tk s mem c k =
      ⟨.ok, s, mem.setConts (spa / 4 + 128 * k) (fun i => p.cont (spa / 4 + 128 * k + i)) 128, c⟩ := by
  have h : (spa + 512 * k) / 4 = spa / 4 + 128 * k := by omega
  simp only [peerPiece, hp, spPiece_of_thawed hfr, h]
  rfl

/-! ## Prefetches (R231, R358) -/

theorem weakBytes_reads (s : State) (t : Nat) (mem : Member) (pa n w : Nat) : Reads s (s.weakBytes t mem pa n w).2.2 ∧
    (s.weakBytes t mem pa n w).2.1 = { mem with saw := (s.weakBytes t mem pa n w).2.1.saw } := by
  unfold State.weakBytes
  split
  · exact ⟨Reads.refl s, rfl⟩
  · exact ⟨Reads.of_xlat_free _ _, rfl⟩

/-- A fill of a line reads, and of the member only the L1 and what it saw change (R358). -/
theorem fillLine_reads (s : State) (ctx : Nat) (mem : Member) (l : Leaf) (va pa : Nat) : Reads s (s.fillLine ctx mem l va pa).2.2 ∧
    (s.fillLine ctx mem l va pa).2.1 = { mem with l1 := (s.fillLine ctx mem l va pa).2.1.l1, saw := (s.fillLine ctx mem l va pa).2.1.saw } := by
  let at_ := pa / 128 * 128
  obtain ⟨h2, hm⟩ := weakBytes_reads (s.noteRead at_ 128) s.cur.task mem at_ 128 8
  have h1 := (reads_noteRead s at_ 128).trans h2
  unfold State.fillLine
  dsimp only
  refine ⟨?_, ?_⟩
  · split
    · exact h1.trans (Reads.of_xlat_free _ _)
    · exact h1
  · rw [putLine_eq, hm]

/-- A piece of a PREF reads, and of the member only the stream's TLB, the L1 and what it saw change. -/
theorem prefPiece_reads {tier : BitVec 1} (hx : c.stream = .l) (hmap : mappedFor s tk mem .l (atomVA c.desc i0 k) l) :
    ∃ (s1 : State) (b : Member), Reads s s1 ∧ prefPiece tier i0 tk s mem c k = ⟨.ok, s1, b, c⟩ ∧
      b = { mem with l1 := b.l1, tlbL := b.tlbL, saw := b.saw } := by
  obtain ⟨s1, tl, h1, ht⟩ := engTranslate_of_mapped hmap
  simp only [prefPiece, hx, ht]
  split
  · obtain ⟨h2, hm⟩ := fillLine_reads s1 tk.ctx (mem.setTlb .l tl) l (atomVA c.desc i0 k) (l.pa (atomVA c.desc i0 k))
    refine ⟨_, _, h1.trans h2, rfl, ?_⟩
    rw [hm]
    rfl
  · exact ⟨_, _, h1, rfl, rfl⟩

end
/-- Settles O43: each command's last piece is worked off; reads land in the scratchpad, writes in memory. -/
theorem commandsWorkPieceByPiece : Obligations.CommandsWorkPieceByPiece := by
  intro s tk mem c h d hw hfr
  refine ⟨?_, fun w k hk hwr => settle_present hk hwr, ?_, ?_, ?_, ?_, ?_, ?_⟩
  · intro spa i0 cntm1 fo l hx hm n va
    refine ⟨fun hr => ?_, fun hpage hwalk htlb => ?_⟩
    · obtain ⟨s1, tl, h1, hp⟩ := copyInPiece_of_readable hfr (k := c.mark) (i0 := i0.toNat) (spa := spa.toNat) (va := va) rfl
        (by rw [hx]; exact hr)
      rw [hx] at hp
      exact ⟨s1, _, h1.only, exec_of_piece hw (exec_copy_perform hw.phase) hm.symm h1.cycle ((if_pos (by simp [hx])).trans hp), landed_l,
        spadHolds_landed⟩
    · obtain ⟨s1, tl, h1, he⟩ := exec_copy_of_unmapped hw hm hx rfl hpage hwalk htlb
      exact ⟨s1, _, h1.only, he, rfl⟩
  · intro i r l w hring hn _ hx n a row
    refine ⟨fun f hi hm ht hr _ => ?_, fun ret fetch hi hm ht hr _ => ?_, fun idx nm1 t hi hm hidx ht hr _ => ?_⟩
    · subst hi
      exact exec_of_ringRow hw (exec_wset_perform hw.phase) hm.symm hfr hx hn ht hr (by simp only [fetchPiece, hring])
    · subst hi
      exact exec_of_ringRow hw (exec_wadv_perform hw.phase) hm.symm hfr hx hn ht hr (by simp only [fetchPiece, hring])
    · subst hi
      exact exec_of_ringRow hw (exec_gathTowin_perform hw.phase) (by rw [hm]) hfr hx hn ht hr (by simp only [gathTowinPiece, hring, hidx])
  · intro dst idx nm1 hm hn _ _ hx n a
    refine ⟨fun t l hidx ht hr => ?_, fun hbad => ?_⟩
    · obtain ⟨s1, tl, h1, hp⟩ := fillRow_of_readable hfr ht hn hr (a := a)
      exact ⟨s1, _, h1.only, exec_of_piece hw (exec_gath_perform hw.phase) (by rw [hm]) h1.cycle (by rw [hidx]; exact hp), landed_eq hx,
        spadHolds_landed⟩
    · exact ⟨_, exec_of_piece hw (exec_gath_perform hw.phase) (by rw [hm]) rfl (fillRow_of_bad hfr hbad), setConts_eq,
        fun hk => cont_setConts (SMap.risesFrom_of_pairwise hk)⟩
  · intro i s2 va l bytes hx h0 hwr stored hi
    have hlen : stored.length = bytes.length := List.length_map ..
    have hwr1 : Writable s s2 tk mem c.stream va stored.length l := by rw [hlen, hx]; exact hwr
    have h1 : 0 < stored.length := by rw [hlen]; exact h0
    obtain ⟨spa, i0, cntm1, fo, rfl, hm, rfl, hsp⟩ | ⟨val, vm, i0, cntm1, rfl, hm, rfl, hb, rfl⟩ |
      ⟨src, idx, nm1, t, rfl, hm, hidx, ht, hpo, rfl, hsp⟩ := hi
    · exact exec_of_engWrite hw (exec_copy_perform hw.phase) hm.symm hx hwr1 h1
        ((if_neg (by simp [hx])).trans ((copyOutPiece_of_writable hwr1).trans (by rw [outData_of_spadBytes hsp]; rfl)))
    · exact exec_of_engWrite hw (exec_fill_mem_perform hw.phase) hm.symm hx hwr1 h1 (fillOutPiece_eq hb)
    · exact exec_of_engWrite hw (exec_scat_perform hw.phase) (by rw [hm]) hx hwr1 h1
        ((scatPiece_eq hidx ht hpo).trans (by rw [outData_of_spadBytes hsp]; rfl))
  · intro wa nwm1 val vm inv hm
    refine ⟨_, exec_of_piece hw (exec_fill_spad_perform hw.phase) (by rw [hm]) rfl (fillWord_eq hfr), rfl, fun hk ci => ?_⟩
    rw [cont_setCont_of_rises (SMap.risesFrom_of_pairwise hk)]
    simp only [beq_iff_eq]
    rfl
  · intro spa prank rowsm1 fo p hm hp hal
    refine ⟨_, exec_of_piece hw (exec_peerCopy_perform hw.phase) (by rw [hm]) rfl (peerPiece_eq hfr hp hal), setConts_eq, fun hk ci => ?_⟩
    rw [cont_setConts (SMap.risesFrom_of_pairwise hk)]
    split
    · next hin => rw [Nat.add_sub_cancel' hin.1]
    · rfl
  · intro tier i0 cntm1 l hm hx hmap
    obtain ⟨s1, b, h1, hp, hb⟩ := prefPiece_reads (tier := tier) (k := c.mark) hx hmap
    exact ⟨s1, b, h1.only, exec_of_piece hw (exec_pref_perform hw.phase) hm.symm h1.cycle hp, hb⟩

end Sys2Proof.Machine

namespace Sys2Proof.Machine
section
variable {α β : Type} {m : SMap α} {k : Nat} {a b : α}

/-! ## Entries of a map put back -/

theorem SMap.put_put (m : SMap α) (k : Nat) (a b : α) : (m.put k a).put k b = m.put k b := by
  induction m with
  | nil => simp [SMap.put]
  | cons e r ih =>
    obtain ⟨i, x⟩ := e
    by_cases hi : i = k
    · simp [SMap.put, hi]
    · by_cases hk : k < i <;> simp [SMap.put, hi, hk, ih]

/-- What a map's entries come to stays where the entry put comes to the same as the one it replaces. -/
theorem SMap.map_put_of_find (f : Nat × α → β) (h : m.find k = some a) (hf : f (k, b) = f (k, a)) : (m.put k b).map f = m.map f := by
  induction m with
  | nil => cases h
  | cons e r ih =>
    obtain ⟨i, x⟩ := e
    by_cases hi : i = k
    · subst hi
      obtain rfl : x = a := by simpa [SMap.find] using h
      simp [SMap.put, hf]
    · by_cases hk : k < i
      · simp [SMap.find, hi, hk] at h
      · simp only [SMap.find, beq_iff_eq, hi, hk, if_false] at h
        simp [SMap.put, hi, hk, ih h]

theorem SMap.put_of_find (h : m.find k = some a) : m.put k a = m := by
  simpa using SMap.map_put_of_find id h rfl

end

section
variable {s s0 s1 s2 : State} {tk : Task} {mem b : Member} {c : Cmd} {a n ci : Nat} {out : List W32}

/-! ## What a state after an operation of the block store still gives (R256) -/

theorem storeOnly_refl (s : State) : storeOnly s s := rfl

theorem storeOnly_trans (h1 : storeOnly s s1) (h2 : storeOnly s1 s2) : storeOnly s s2 := by
  unfold storeOnly at *
  rw [h1] at h2
  exact h2

theorem storeOnly_of_store (st : Store) : storeOnly s { s with store := st } := rfl

theorem linesOnly_trans (h1 : linesOnly s s1) (h2 : linesOnly s1 s2) : linesOnly s s2 := by
  unfold linesOnly at *
  rw [h1] at h2
  exact h2

/-! ## Result records (R256) -/

/-- Words written from an address set the containers from its own on. -/
theorem putWords_eq (out : List W32) (a : Nat) (mem : Member) :
    mem.putWords a out = { mem with spad := (mem.putWords a out).spad, wrote := (mem.putWords a out).wrote } := by
  induction out generalizing a mem with
  | nil => rfl
  | cons w r ih => exact ih (a + 4) (mem.setCont (a / 4) (Container.ord w))

theorem cont_putWords_outside (h : ci < a / 4 ∨ a / 4 + out.length ≤ ci) : (mem.putWords a out).cont ci = mem.cont ci := by
  induction out generalizing a mem with
  | nil => rfl
  | cons w r ih =>
    rw [List.length_cons] at h
    rw [Member.putWords, ih (by omega), cont_setCont _ _ _ rfl, if_neg (by omega)]

theorem cont_putWords_inside {k : Nat} (hk : k < out.length) : (mem.putWords a out).cont (a / 4 + k) = ⟨out.getD k 0, true, false⟩ := by
  induction out generalizing a mem k with
  | nil => cases hk
  | cons w r ih =>
    rw [Member.putWords]
    cases k with
    | zero =>
      rw [cont_putWords_outside (by omega), cont_setCont _ _ _ rfl, if_pos (by omega)]
      rfl
    | succ k =>
      rw [show a / 4 + (k + 1) = (a + 4) / 4 + k by omega, ih (by simpa using hk)]
      rfl

/-- Where no row is frozen a result is written. -/
theorem resultUnit_of_thawed (h : mem.frozen = []) : resultUnit s mem c a out = ⟨.ok, s, mem.putWords a out, c⟩ := spPiece_of_thawed h

theorem result16_eq {st : Nat} (h : st < 256) (v w : W32) : result16 st v w = [BitVec.ofNat 32 st, v, w, 0] := by
  simp [result16, statusWord, Nat.mod_eq_of_lt h]

/-- A command done in one piece leaves its state as its piece left it. -/
theorem afterPieces_whole (hm : c.mark = 0) (hc : s1.cycle = s.cycle) :
    afterPieces s 1 ((⟨.ok, s1, b, c⟩ : UnitRes).whole c) = .next (finished s1 b c) := by
  simp only [afterPieces, UnitRes.whole, finished, Nat.le_refl, if_true, hm, hc]
  rfl

/-- A command that answers with the words of its result record. -/
theorem answers_of_exec {i : Instr} {p : PrmRes} (hx : exec i s = .next (finished s1 (b.putWords (16 * p.res.toNat) out) c))
    (hb : b = { mem with replay := b.replay, replayPos := b.replayPos }) : answers i s s1 mem c p out := by
  have hbase : 16 * p.res.toNat / 4 = 4 * p.res.toNat := by omega
  have hspad : b.spad = mem.spad := by rw [hb]
  refine ⟨_, hx, ?_, fun k hk => ?_, fun ci hci => ?_⟩
  · rw [putWords_eq, hb]
  · rw [← hbase, cont_putWords_inside hk]
  · rw [cont_putWords_outside (by omega), cont_congr hspad]

/-! ## Commands performed in one step (R256, R259, R260) -/

theorem member?_of_current (h : Current s tk mem) : s.member? s.cur.task s.cur.member = some mem := by
  simp [State.member?, h.task, h.member]

theorem putTask_of_current (h : Current s tk mem) : s.putTask s.cur.task tk = s := by
  obtain ⟨hlt, hget⟩ := List.getElem?_eq_some_iff.mp h.task
  rw [State.putTask, ← hget, List.set_getElem_self]

theorem tlbWithout_nil (t : List TlbEntry) : tlbWithout [] t = t := by
  simp [tlbWithout]

theorem unmap_nil (mem : Member) : mem.unmap [] = mem := by
  simp [Member.unmap, tlbWithout_nil]

/-- An operation that leaves the tasks and removes no block leaves the L1 lines and TLB entries of its member. -/
theorem linesLeft_of_storeOnly (h : storeOnly s s1) (hc : Current s tk mem) : s.linesLeft s1 mem = mem := by
  have hm : s1.member? s.cur.task s.cur.member = some mem := by
    rw [← member?_of_current hc, h]
    rfl
  have hu : s1.unmapped = s.unmapped := by rw [h]
  have hcur : s1.cur = s.cur := by rw [h]
  have hnone : (s.unmapped.filter fun e => !s.unmapped.contains e) = [] := by simp
  simp only [State.linesLeft, hu, hcur, hm, hnone, List.map_nil, unmap_nil, Option.map_some, Option.getD_some]

/-- What counting a read and filling a line keep, reading lines keeps (R332, R372). -/
theorem readLines_keeps {P : State → Prop} {tier : Nat} {fill : Bool} (hn : ∀ s pa n, P s → P (s.noteRead pa n))
    (hf : ∀ s l s1, fill = true → P s → s.fillPlane l = some s1 → P s1) (ls : List ShelfLine) {s : State} (h : P s) :
    P (s.readLines tier fill ls).2 := by
  induction ls generalizing s with
  | nil => exact h
  | cons l r ih =>
    have h1 := hn s (s.lineAddr tier l) 128 h
    unfold State.readLines
    by_cases hc : (if l.tail then s.store.shelf.contains l else tier == 0) = true
    · rw [if_pos hc]
      exact ih h
    · rw [if_neg hc]
      dsimp only
      split_ifs with ha hb hfill
      · exact h1
      · exact h1
      · cases he : (s.noteRead (s.lineAddr tier l) 128).fillPlane l with
        | none => exact ih h1
        | some s1 => exact ih (hf _ _ _ hfill h1 he)
      · exact ih h1

/-- Reads of lines that fill nothing are counted in the stacks and the management core (R332, R392). -/
theorem readLines_unfilled (tier : Nat) (ls : List ShelfLine) (s : State) : (s.readLines tier false ls).2 =
    { s with hbm := (s.readLines tier false ls).2.hbm, mgmt := (s.readLines tier false ls).2.mgmt } := by
  refine readLines_keeps (fill := false) (s := s) (P := fun s1 => s1 = { s with hbm := s1.hbm, mgmt := s1.mgmt }) (fun s1 pa n h => ?_)
    (fun _ _ _ hf => absurd hf Bool.false_ne_true) ls rfl
  rw [h]
  rfl

theorem eq_of_readLines_unfilled {tier : Nat} {ls : List ShelfLine} {o : Option Nat} (h : s.readLines tier false ls = (o, s0)) :
    s0 = { s with hbm := s0.hbm, mgmt := s0.mgmt } := by
  have he := readLines_unfilled tier ls s
  rwa [h] at he

theorem linesRead_nil (s : State) : linesRead s [] s := rfl

section
variable {f : StoreOp} {lines : State → Task → Cmd → List ShelfLine} {p : PrmRes} {i : Instr} (hp : Performing s tk mem c)
include hp

/-- A logged operation of the block store answers with its result record once the lines it reads are read (R256, R332). -/
theorem prefixPerform_answers (hi : exec i s = prefixPerform p n true f s lines) (hl : linesRead s (lines s tk c) s0)
    (hf : f s0 tk mem c = (s1, out)) (h1 : storeOnly s0 s1) : answers i s s1 mem c p out := by
  obtain ⟨d, hd⟩ := hp.work.active
  have h0 := eq_of_readLines_unfilled hl
  have hc0 : Current s0 tk mem := by
    rw [h0]
    exact ⟨hp.work.current.task, hp.work.current.member⟩
  have hcycle : s1.cycle = s.cycle := by rw [h1, h0]
  unfold linesRead at hl
  refine answers_of_exec (b := (mem.replayPut c n out).replayNext c.stream) ?_ rfl
  rw [hi, prefixPerform, onMember_cur hp.work.current]
  simp only [hp.work.cmd, hd, hp.fresh, Option.isSome_none, Bool.and_false, Bool.false_eq_true, if_false, hl, replayed, Bool.not_true, hf,
    linesLeft_of_storeOnly h1 hc0]
  rw [resultUnit_of_thawed (by exact hp.thawed)]
  exact afterPieces_whole hp.start hcycle

/-- An operation that answers with a status and two words. -/
theorem prefixPerform_answers16 {st : Nat} {v w : W32} (hi : exec i s = prefixPerform p n true f s lines) (hl : linesRead s (lines s tk c) s0)
    (hf : f s0 tk mem c = (s1, result16 st v w)) (hst : st < 256) (h1 : storeOnly s0 s1) : answers i s s1 mem c p [BitVec.ofNat 32 st, v, w, 0] := by
  rw [← result16_eq hst]
  exact prefixPerform_answers hp hi hl hf h1

/-- The same, of an operation that reads no line. -/
theorem prefixPerform_answers16_unread {st : Nat} {v w : W32} (hi : exec i s = prefixPerform p n true f s)
    (hf : f s tk mem c = (s1, result16 st v w)) (hst : st < 256) (h1 : storeOnly s s1) : answers i s s1 mem c p [BitVec.ofNat 32 st, v, w, 0] :=
  prefixPerform_answers16 hp hi (linesRead_nil s) hf hst h1

/-- An uncorrectable error of a line holds the command at its first mark (R332). -/
theorem prefixPerform_held {pa : Nat} (hi : exec i s = prefixPerform p n true f s lines)
    (hl : s.readLines 1 false (lines s tk c) = (some pa, s0)) : exec i s = .next (heldAtMark s0 mem c cMemory pa) := by
  obtain ⟨d, hd⟩ := hp.work.active
  have hcur : s0.cur = s.cur := by rw [eq_of_readLines_unfilled hl]
  rw [hi, prefixPerform, onMember_cur hp.work.current]
  simp only [hp.work.cmd, hd, hp.fresh, Option.isSome_none, Bool.and_false, Bool.false_eq_true, if_false, hl, afterPieces, heldAtMark,
    hcur, memTrap, ← hp.start]
  simp only [← hd]

/-- An operation that the lead performs for its followers leaves an unreplicated task as a plain one does (R260, R314). -/
theorem echoPerform_answers (hi : exec i s = echoPerform p n false f s) (hf : f s tk mem c = (s, out)) : answers i s s mem c p out := by
  obtain ⟨d, hd⟩ := hp.work.active
  refine answers_of_exec (b := mem) ?_ rfl
  rw [hi, echoPerform, onMember_cur hp.work.current]
  simp only [hp.work.cmd, hd, hp.lead, hp.single, Bool.not_true, Bool.false_and, Bool.false_eq_true, if_false, replayed, Bool.not_false, if_true, hf,
    linesLeft_of_storeOnly (storeOnly_refl s) hp.work.current, resultUnit_of_thawed hp.thawed, hp.work.current.task, Task.echoResult,
    putTask_of_current hp.work.current]
  exact afterPieces_whole hp.start rfl

end
end
end Sys2Proof.Machine

namespace Sys2Proof.Machine
section
variable {s s0 s1 : State} {ctx tier need k t u v : Nat} {n : Node} {f g : Node → Node} {ok : Option Nat}

/-! ## Nodes of the store changed (R247) -/

theorem modNode_eq (s : State) (k : Nat) (f : Node → Node) :
    s.modNode k f = { s with store := { s.store with nodes := (s.modNode k f).store.nodes } } := by
  unfold State.modNode
  split <;> rfl

theorem modNode?_eq (s : State) (ok : Option Nat) (f : Node → Node) :
    s.modNode? ok f = { s with store := { s.store with nodes := (s.modNode? ok f).store.nodes } } := by
  cases ok with
  | none => rfl
  | some k => exact modNode_eq s k f

@[simp] theorem modNode_usage : (s.modNode k f).store.usage = s.store.usage := by rw [modNode_eq]
@[simp] theorem modNode_leases : (s.modNode k f).store.leases = s.store.leases := by rw [modNode_eq]
@[simp] theorem modNode_shelf : (s.modNode k f).store.shelf = s.store.shelf := by rw [modNode_eq]
@[simp] theorem modNode?_slots : (s.modNode? ok f).store.slots = s.store.slots := by rw [modNode?_eq]
@[simp] theorem modNode?_usage : (s.modNode? ok f).store.usage = s.store.usage := by rw [modNode?_eq]

theorem storeOnly_modNode (s : State) (k : Nat) (f : Node → Node) : storeOnly s (s.modNode k f) := by
  rw [modNode_eq]
  rfl

theorem storeOnly_modNode? (s : State) (ok : Option Nat) (f : Node → Node) : storeOnly s (s.modNode? ok f) := by
  rw [modNode?_eq]
  rfl

theorem modNode_of_find (h : s.store.nodes.find k = some n) : s.modNode k f = s.putNode k (f n) := by
  rw [State.modNode, h]

theorem find_modNode (h : s.store.nodes.find k = some n) : (s.modNode k f).store.nodes.find k = some (f n) := by
  rw [modNode_of_find h]
  exact SMap.find_put_same ..

/-- A change undone. -/
theorem modNode?_undo (h : ∀ n, g (f n) = n) : (s.modNode? ok f).modNode? ok g = s := by
  cases ok with
  | none => rfl
  | some k =>
    change ((s.modNode k f).modNode k g) = s
    cases hn : s.store.nodes.find k with
    | none => simp [State.modNode, hn]
    | some n =>
      rw [modNode_of_find (find_modNode hn), modNode_of_find hn, h]
      unfold State.putNode
      rw [SMap.put_put, SMap.put_of_find hn]

/-! ## Room in the drawer (R267, R376) -/

theorem bytesIn_modNode? (h : ∀ n, (f n).inTier t = n.inTier t ∧ (f n).geom = n.geom) : (s.modNode? ok f).bytesIn t = s.bytesIn t := by
  cases ok with
  | none => rfl
  | some k =>
    change (s.modNode k f).bytesIn t = s.bytesIn t
    cases hn : s.store.nodes.find k with
    | none => simp [State.modNode, hn]
    | some n =>
      obtain ⟨ht, hg⟩ := h n
      rw [modNode_of_find hn]
      unfold State.bytesIn State.putNode
      dsimp only
      rw [SMap.map_put_of_find _ hn (by simp only [ht, hg])]

/-- What fits in the drawer removes nothing from it. -/
theorem roomFor_of_fits (keep : Option Nat) (h : s.bytesIn 1 + need ≤ Config.storeBytes 1) : s.roomFor need keep = some s := by
  have hb : (s.modNode? keep fun n => { n with refc := n.refc + 1 }).bytesIn 1 = s.bytesIn 1 := bytesIn_modNode? fun _ => ⟨rfl, rfl⟩
  rw [State.roomFor, State.drawerRoom, if_pos (by rw [hb]; exact h), Option.map_some, modNode?_undo fun _ => rfl]

/-! ## Charges (R378) -/

/-- The usage of a context in a tier set. -/
def State.setUsage (s : State) (ctx tier u : Nat) : State :=
  { s with store := { s.store with usage := s.store.usage.put (4 * ctx + tier) u } }

theorem charge_of_over (h : s.quota ctx tier < s.usageOf ctx tier + v) : s.charge ctx tier v = none := if_pos h

theorem charge_of_fits (h : s.usageOf ctx tier + v ≤ s.quota ctx tier) :
    s.charge ctx tier v = some (s.setUsage ctx tier (s.usageOf ctx tier + v)) := if_neg (Nat.not_lt.mpr h)

theorem refund_eq : s.refund ctx tier v = s.setUsage ctx tier (s.usageOf ctx tier - v) := rfl

theorem usageOf_congr (h : s1.store.usage = s.store.usage) : s1.usageOf ctx tier = s.usageOf ctx tier := by
  rw [State.usageOf, State.usageOf, h]

@[simp] theorem usageOf_setUsage : (s.setUsage ctx tier u).usageOf ctx tier = u := by
  simp [State.usageOf, State.setUsage, SMap.find_put_same]

end

section
variable {s s0 s1 : State} {tk : Task} {mem : Member} {c : Cmd} {ctx k : Nat} {x y : SeqSlot}

/-! ## Slots opened (R261, R366, R378) -/

/-- A slot put stands in its place, and no other moves. -/
theorem find_putSlot_same : (s.putSlot k x).store.slots.find k = some x := SMap.find_put_same ..

theorem find_putSlot_ne {j : Nat} (h : j ≠ k) : (s.putSlot k x).store.slots.find j = s.store.slots.find j := SMap.find_put_ne _ _ h

theorem openSlot_of_no_slot (h : s.freeSlot = none) : s.openSlot ctx mem x = (s, result16 5 noneWord 0) := by
  rw [State.openSlot, h]

theorem openSlot_of_over (hk : s.freeSlot = some k) (h : s.quota ctx 1 < s.usageOf ctx 1 + x.geom.tail) :
    s.openSlot ctx mem x = (s, result16 3 noneWord 0) := by
  simp only [State.openSlot, hk, charge_of_over h]

/-- The state after a slot was opened at a number, in the drawer of a member's die. -/
def State.slotOpened (s : State) (ctx : Nat) (mem : Member) (k : Nat) (x : SeqSlot) : State :=
  ((s.setUsage ctx 1 (s.usageOf ctx 1 + x.geom.tail)).putSlot k
    { x with homeDie := mem.dieOf, gen := ((s.store.slots.find k).map (·.gen)).getD 0 + 1 }).modNode? x.leaf fun n => { n with refc := n.refc + 1 }

/-- A slot that finds its place, its charge and its room is opened. -/
theorem openSlot_of_fits (hk : s.freeSlot = some k) (hq : s.usageOf ctx 1 + x.geom.tail ≤ s.quota ctx 1)
    (hr : s.bytesIn 1 + x.geom.tail ≤ Config.storeBytes 1) :
    s.openSlot ctx mem x = (s.slotOpened ctx mem k x, result16 0 (BitVec.ofNat 32 k) 0) := by
  have hroom : (s.setUsage ctx 1 (s.usageOf ctx 1 + x.geom.tail)).roomFor x.geom.tail x.leaf =
      some (s.setUsage ctx 1 (s.usageOf ctx 1 + x.geom.tail)) := roomFor_of_fits _ hr
  simp only [State.openSlot, hk, charge_of_fits hq, hroom]
  rfl

theorem storeOnly_slotOpened (s : State) (ctx : Nat) (mem : Member) (k : Nat) (x : SeqSlot) : storeOnly s (s.slotOpened ctx mem k x) :=
  storeOnly_trans (s1 := (s.setUsage ctx 1 (s.usageOf ctx 1 + x.geom.tail)).putSlot k _) rfl (storeOnly_modNode? ..)

theorem find_slotOpened : (s.slotOpened ctx mem k x).store.slots.find k =
    some { x with homeDie := mem.dieOf, gen := ((s.store.slots.find k).map (·.gen)).getD 0 + 1 } := by
  rw [State.slotOpened, modNode?_slots]
  exact find_putSlot_same

theorem slotsKept_slotOpened : slotsKept s (s.slotOpened ctx mem k x) [k] := by
  intro j hj
  rw [State.slotOpened, modNode?_slots]
  exact find_putSlot_ne (by simpa using hj)

theorem usageOf_slotOpened : (s.slotOpened ctx mem k x).usageOf ctx 1 = s.usageOf ctx 1 + x.geom.tail := by
  rw [State.slotOpened, usageOf_congr modNode?_usage]
  exact usageOf_setUsage (s := s)

/-- What opens a slot answers with FULL, with QUOTA, or with the lowest free slot; its reads of the tail, which are counted, change none of it. -/
theorem answers_openSlot {i : Instr} {p : PrmRes} {m : Nat} {f : StoreOp} {lines : State → Task → Cmd → List ShelfLine} (hp : Performing s tk mem c)
    (hi : exec i s = prefixPerform p m true f s lines) (hl : linesRead s (lines s tk c) s0) (hf : f s0 tk mem c = s0.openSlot tk.ctx mem x) :
    (s.freeSlot = none → answers i s s0 mem c p [5, noneWord, 0, 0]) ∧
    ∀ k, s.freeSlot = some k →
      (s.quota tk.ctx 1 < s.usageOf tk.ctx 1 + x.geom.tail → answers i s s0 mem c p [3, noneWord, 0, 0]) ∧
      (s.usageOf tk.ctx 1 + x.geom.tail ≤ s.quota tk.ctx 1 → s.bytesIn 1 + x.geom.tail ≤ Config.storeBytes 1 →
        ∃ (s1 : State) (g : Nat), answers i s s1 mem c p [0, BitVec.ofNat 32 k, 0, 0] ∧ storeOnly s0 s1 ∧
          s1.store.slots.find k = some { x with homeDie := mem.core / 64, gen := g } ∧ slotsKept s s1 [k] ∧
          s1.usageOf tk.ctx 1 = s.usageOf tk.ctx 1 + x.geom.tail) := by
  have h0 := eq_of_readLines_unfilled hl
  have hstore : s0.store = s.store := by rw [h0]
  have hslot : s0.freeSlot = s.freeSlot := by rw [h0]; rfl
  have husage : s0.usageOf tk.ctx 1 = s.usageOf tk.ctx 1 := by rw [h0]; rfl
  have hquota : s0.quota tk.ctx 1 = s.quota tk.ctx 1 := by rw [h0]; rfl
  have hbytes : s0.bytesIn 1 = s.bytesIn 1 := by rw [h0]; rfl
  rw [← hslot, ← husage, ← hquota, ← hbytes]
  refine ⟨fun hk => ?_, fun k hk => ⟨fun hq => ?_, fun hq hr => ?_⟩⟩
  · exact prefixPerform_answers16 hp hi hl (hf.trans (openSlot_of_no_slot hk)) (by decide) rfl
  · exact prefixPerform_answers16 hp hi hl (hf.trans (openSlot_of_over hk hq)) (by decide) rfl
  · refine ⟨s0.slotOpened tk.ctx mem k x, _, ?_, storeOnly_slotOpened .., find_slotOpened, fun j hj => ?_, usageOf_slotOpened⟩
    · exact prefixPerform_answers16 hp hi hl (hf.trans (openSlot_of_fits hk hq hr)) (by decide) (storeOnly_slotOpened ..)
    · rw [slotsKept_slotOpened j hj, hstore]

end
end Sys2Proof.Machine

namespace Sys2Proof.Machine
section
variable {s s0 s1 : State} {tk : Task} {mem : Member} {c : Cmd} {k v : Nat} {x y : SeqSlot} {ks : List Nat}

/-! ## Records as words (R247, R248) -/

@[simp] theorem length_wordsOf (n v : Nat) : (wordsOf n v).length = n := by
  induction n generalizing v with
  | zero => rfl
  | succ n ih => rw [wordsOf, List.length_cons, ih]

theorem getD_wordsOf {n : Nat} (h : k < n) : (wordsOf n v).getD k 0 = BitVec.ofNat 32 (v / 2 ^ (32 * k)) := by
  induction n generalizing v k with
  | zero => cases h
  | succ n ih =>
    cases k with
    | zero => simp [wordsOf]
    | succ k =>
      rw [wordsOf, List.getD_cons_succ, ih (by omega), Nat.div_div_eq_div_mul, ← pow_add, Nat.mul_succ, Nat.add_comm]

/-- The words of a number up to a bit are those of any number alike up to it. -/
theorem getD_wordsOf_congr {n m u : Nat} (h : v % 2 ^ (32 * m) = u % 2 ^ (32 * m)) (hk : k < m) (hn : k < n) :
    (wordsOf n v).getD k 0 = BitVec.ofNat 32 (u / 2 ^ (32 * k)) := by
  rw [getD_wordsOf hn]
  apply BitVec.eq_of_getLsbD_eq
  intro i hi
  have hbit := congrArg (fun z => z.testBit (i + 32 * k)) h
  simp only [Nat.testBit_mod_two_pow, show i + 32 * k < 32 * m by omega, decide_true, Bool.true_and] at hbit
  simp only [BitVec.getLsbD_ofNat, hi, decide_true, Bool.true_and, Nat.testBit_div_two_pow, hbit]

/-- A field above a bit does not count below it. -/
theorem add_field_mod {m e a f : Nat} (h : m ≤ e) : (a + f * 2 ^ e) % 2 ^ m = a % 2 ^ m := by
  obtain ⟨d, rfl⟩ := Nat.exists_eq_add_of_le h
  rw [pow_add, Nat.mul_left_comm, Nat.add_mul_mod_self_left]

theorem add_flag_mod {m e a : Nat} {b : Bool} (h : m ≤ e) : (a + if b then 2 ^ e else 0) % 2 ^ m = a % 2 ^ m := by
  cases b with
  | false => rfl
  | true => simpa using add_field_mod (a := a) (f := 1) h

/-- The lowest fields of a slot's record are its leaf and its tokens. -/
theorem slotRecord_mod (x : SeqSlot) : x.record % 2 ^ (32 * 2) = ((nodeWord x.leaf).toNat + x.tok * 2 ^ 32) % 2 ^ (32 * 2) := by
  rw [SeqSlot.record, add_flag_mod (by decide), add_field_mod (by decide), add_field_mod (by decide), add_field_mod (by decide),
    add_field_mod (by decide), add_field_mod (by decide), add_field_mod (by decide), add_flag_mod (by decide), add_field_mod (by decide)]

theorem slotRecord_words (x : SeqSlot) : (wordsOf 16 x.record).getD 0 0 = nodeWord x.leaf ∧ (wordsOf 16 x.record).getD 1 0 = BitVec.ofNat 32 x.tok := by
  have hlt := (nodeWord x.leaf).isLt
  refine ⟨?_, ?_⟩
  · rw [getD_wordsOf_congr (slotRecord_mod x) (by decide) (by decide)]
    apply BitVec.eq_of_toNat_eq
    rw [BitVec.toNat_ofNat]
    omega
  · rw [getD_wordsOf_congr (slotRecord_mod x) (by decide) (by decide)]
    congr 1
    omega

/-! ## Tails that leave the plane cache (R371, R372) -/

theorem tailsGone_eq (s : State) (ks : List Nat) : s.tailsGone ks = { s with store := { s.store with shelf := (s.tailsGone ks).store.shelf } } := by
  have h (st : Store) : ks.foldl (fun st k => st.unshelve true k) st =
      { st with shelf := (ks.foldl (fun st k => st.unshelve true k) st).shelf } := by
    induction ks generalizing st with
    | nil => rfl
    | cons k r ih =>
      rw [List.foldl_cons, ih]
      rfl
  unfold State.tailsGone
  rw [h]

@[simp] theorem tailsGone_slots : (s.tailsGone ks).store.slots = s.store.slots := by rw [tailsGone_eq]
@[simp] theorem tailsGone_nodes : (s.tailsGone ks).store.nodes = s.store.nodes := by rw [tailsGone_eq]
@[simp] theorem tailsGone_usage : (s.tailsGone ks).store.usage = s.store.usage := by rw [tailsGone_eq]

theorem storeOnly_tailsGone (h : storeOnly s s1) : storeOnly s (s1.tailsGone ks) := by
  rw [tailsGone_eq]
  exact storeOnly_trans h rfl

/-! ## Slots closed and moved (R250, R261, R378) -/

theorem slotOf_of_closed {ctx : Nat} (h : s.store.slots.find k = some x) (hx : x.opened = false) : s.slotOf ctx k = none := by
  simp [State.slotOf, h, hx]

/-- The state after a slot of a context was closed. -/
def State.slotClosed (s : State) (ctx k : Nat) (x : SeqSlot) : State :=
  (((s.putSlot k { x.renew with opened := false, tail := Tail.empty }).tailsGone [k]).refund ctx 1 x.geom.tail).modNode? x.leaf
    fun n => { n with refc := n.refc - 1 }

theorem storeOnly_slotClosed (s : State) (ctx k : Nat) (x : SeqSlot) : storeOnly s (s.slotClosed ctx k x) :=
  storeOnly_trans (storeOnly_trans (storeOnly_tailsGone (s := s) (s1 := s.putSlot k _) rfl)
    (s2 := State.refund _ ctx 1 x.geom.tail) rfl) (storeOnly_modNode? ..)

theorem slots_slotClosed {ctx : Nat} : (s.slotClosed ctx k x).store.slots =
    (s.putSlot k { x.renew with opened := false, tail := Tail.empty }).store.slots := by
  rw [State.slotClosed, modNode?_slots]
  exact tailsGone_slots

theorem slotOf_slotClosed {ctx : Nat} : (s.slotClosed ctx k x).slotOf ctx k = none :=
  slotOf_of_closed (by rw [slots_slotClosed, find_putSlot_same]) rfl

theorem slotsKept_slotClosed {ctx : Nat} : slotsKept s (s.slotClosed ctx k x) [k] := by
  intro j hj
  rw [slots_slotClosed]
  exact find_putSlot_ne (by simpa using hj)

theorem usageOf_slotClosed {ctx : Nat} : (s.slotClosed ctx k x).usageOf ctx 1 = s.usageOf ctx 1 - x.geom.tail := by
  rw [State.slotClosed, usageOf_congr modNode?_usage, refund_eq, usageOf_setUsage, usageOf_congr tailsGone_usage]
  rfl

theorem find_node_slotClosed {ctx e : Nat} {n : Node} (hx : x.leaf = some e) (hn : s.store.nodes.find e = some n) :
    (s.slotClosed ctx k x).store.nodes.find e = some { n with refc := n.refc - 1 } := by
  rw [State.slotClosed, hx]
  refine find_modNode (Eq.trans ?_ hn)
  exact congrArg (SMap.find · e) (tailsGone_nodes (s := s.putSlot k _))

/-- Two slots replaced whose tails are others now. -/
def State.slotsMoved (s : State) (a b : Nat) (x y : SeqSlot) : State := ((s.putSlot a x).putSlot b y).tailsGone [a, b]

section
variable {a b : Nat}

theorem storeOnly_slotsMoved : storeOnly s (s.slotsMoved a b x y) := storeOnly_tailsGone rfl

theorem find_slotsMoved_fst (h : a ≠ b) : (s.slotsMoved a b x y).store.slots.find a = some x := by
  rw [State.slotsMoved, tailsGone_slots, find_putSlot_ne h, find_putSlot_same]

theorem find_slotsMoved_snd : (s.slotsMoved a b x y).store.slots.find b = some y := by
  rw [State.slotsMoved, tailsGone_slots, find_putSlot_same]

theorem slotsKept_slotsMoved : slotsKept s (s.slotsMoved a b x y) [a, b] := by
  intro j hj
  obtain ⟨ha, hb⟩ : j ≠ a ∧ j ≠ b := by simpa using hj
  rw [State.slotsMoved, tailsGone_slots, find_putSlot_ne hb, find_putSlot_ne ha]

theorem nodes_slotsMoved : (s.slotsMoved a b x y).store.nodes = s.store.nodes := tailsGone_nodes

theorem slotPair_of_like {ctx : Nat} (hx : s.slotOf ctx a = some x) (hy : s.slotOf ctx b = some y) (h : x.like y = true) :
    s.slotPair ctx a b = some (x, y) := by
  simp only [State.slotPair, hx, hy, h, if_true]

theorem slotPair_of_none {ctx : Nat} (h : s.slotOf ctx a = none) : s.slotPair ctx a b = none := by
  simp only [State.slotPair, h]

end

/-! ## The slot commands at work (R261) -/

section
variable (hp : s.cur.phase = .perform) {h : Hdr} {p : PrmRes}
include hp

theorem exec_slopen_perform : exec (.slopen h p) s = prefixPerform p 12 true slopenOp s := by simp only [exec, execSlopen, hp]
theorem exec_slfork_perform : exec (.slfork h p) s = prefixPerform p 4 true slforkOp s State.wholeTail := by simp only [exec, execSlfork, hp]
theorem exec_slmove_perform : exec (.slmove h p) s = prefixPerform p 4 true slmoveOp s := by simp only [exec, execSlmove, hp]
theorem exec_slmoveSwap_perform : exec (.slmoveSwap h p) s = prefixPerform p 4 true slmoveSwapOp s := by simp only [exec, execSlmoveSwap, hp]
theorem exec_slclose_perform : exec (.slclose h p) s = prefixPerform p 4 true slcloseOp s := by simp only [exec, execSlclose, hp]
theorem exec_slinfo_perform : exec (.slinfo h p) s = echoPerform p 4 false slinfoOp s := by simp only [exec, execSlinfo, hp]

end

/-- SLOPEN of permitted tags without a leaf opens a fresh slot. -/
theorem slopenOp_of_no_leaf {ctag mtag : W64} (hc : BitVec.ofNat 64 (c.w 0 + c.w 1 * 2 ^ 32) = ctag)
    (hm : BitVec.ofNat 64 (c.w 2 + c.w 3 * 2 ^ 32) = mtag) (hr : s.permitted tk.ctx (rootName ctag mtag) = true) (hleaf : c.out.getD 5 0 = noneWord) :
    slopenOp s tk mem c = s.openSlot tk.ctx mem (SeqSlot.fresh tk.ctx ctag mtag (geomOfWord (c.w 4)) none 0) := by
  simp only [slopenOp, hc, hm, hr, State.openLeaf, hleaf]
  rfl

section
variable (hp : Performing s tk mem c) {h : Hdr} {p : PrmRes}
include hp

/-- SLOPEN of tags whose root the context does not permit. -/
theorem answers_slopen_unpermitted (hr : s.permitted tk.ctx (rootName (BitVec.ofNat 64 (c.w 0 + c.w 1 * 2 ^ 32))
    (BitVec.ofNat 64 (c.w 2 + c.w 3 * 2 ^ 32))) = false) : answers (.slopen h p) s s mem c p [10, noneWord, 0, 0] :=
  prefixPerform_answers16_unread hp (exec_slopen_perform hp.work.phase) (by simp only [slopenOp, hr]; rfl) (by decide) rfl

/-- A slot that is not open for the context: INVALID, and nothing changes. -/
theorem answers_slot_unopened (hx : s.slotOf tk.ctx (c.w 0) = none) :
    answers (.slfork h p) s s mem c p [10, noneWord, 0, 0] ∧ answers (.slclose h p) s s mem c p [10, 0, 0, 0] ∧
      answers (.slmove h p) s s mem c p [10, 0, 0, 0] ∧ answers (.slmoveSwap h p) s s mem c p [10, 0, 0, 0] ∧
      answers (.slinfo h p) s s mem c p (List.replicate 16 0) := by
  have hph := hp.work.phase
  refine ⟨?_, ?_, ?_, ?_, ?_⟩
  · exact prefixPerform_answers16 hp (exec_slfork_perform hph) (by simp only [State.wholeTail, hx]; exact linesRead_nil s)
      (by simp only [slforkOp, hx]) (by decide) rfl
  · exact prefixPerform_answers16_unread hp (exec_slclose_perform hph) (by simp only [slcloseOp, hx]) (by decide) rfl
  · exact prefixPerform_answers16_unread hp (exec_slmove_perform hph) (by simp only [slmoveOp, slotPair_of_none hx]) (by decide) rfl
  · exact prefixPerform_answers16_unread hp (exec_slmoveSwap_perform hph) (by simp only [slmoveSwapOp, slotPair_of_none hx]) (by decide) rfl
  · exact echoPerform_answers hp (exec_slinfo_perform hph) (by simp only [slinfoOp, hx])

end
end

/-- Settles O44: each command through the rule of its operation on the store. -/
theorem slotCommands : Obligations.SlotCommands := by
  intro s tk mem c h p hp opened refused
  have hph := hp.work.phase
  refine ⟨⟨answers_slopen_unpermitted hp, fun hr hleaf => ?_⟩, fun x hx => ⟨fun s0 hl => ⟨eq_of_readLines_unfilled hl, ?_⟩, fun pa s0 hl => ?_, ?_, ?_⟩,
    answers_slot_unopened hp, fun x y hx hy hne hlike => ⟨?_, ?_⟩⟩
  · exact answers_openSlot hp (exec_slopen_perform hph) (linesRead_nil s) (slopenOp_of_no_leaf rfl rfl hr hleaf)
  · have hx0 : s0.slotOf tk.ctx (c.w 0) = some x := by rw [eq_of_readLines_unfilled hl]; exact hx
    exact answers_openSlot hp (exec_slfork_perform hph) hl (by simp only [slforkOp, hx0])
  · exact prefixPerform_held hp (exec_slfork_perform hph) hl
  · exact ⟨_, prefixPerform_answers16_unread hp (exec_slclose_perform hph) (s1 := s.slotClosed tk.ctx (c.w 0) x) (by simp only [slcloseOp, hx]; rfl)
      (by decide) (storeOnly_slotClosed ..), storeOnly_slotClosed .., slotOf_slotClosed, slotsKept_slotClosed, usageOf_slotClosed,
      fun k n => find_node_slotClosed⟩
  · exact ⟨_, echoPerform_answers hp (exec_slinfo_perform hph) (by simp only [slinfoOp, hx]), length_wordsOf .., slotRecord_words x⟩
  · have hop : slmoveOp s tk mem c = ((s.slotsMoved (c.w 0) (c.w 1) (x.take y) y.emptied).modNode? x.leaf fun n => { n with refc := n.refc - 1 },
        result16 0 0 0) := by
      simp only [slmoveOp, slotPair_of_like hx hy hlike, if_neg hne]
      rfl
    have hst := storeOnly_trans (storeOnly_slotsMoved (s := s) (a := c.w 0) (b := c.w 1) (x := x.take y) (y := y.emptied))
      (storeOnly_modNode? _ x.leaf fun n => { n with refc := n.refc - 1 })
    refine ⟨_, prefixPerform_answers16_unread hp (exec_slmove_perform hph) hop (by decide) hst, hst, ?_, ?_, y.emptied, ?_,
      rfl, rfl, rfl, rfl, rfl, rfl, rfl⟩
    · intro j hj
      rw [modNode?_slots]
      exact slotsKept_slotsMoved j hj
    · rw [modNode?_slots]
      exact find_slotsMoved_fst hne
    · rw [modNode?_slots]
      exact find_slotsMoved_snd
  · have hop : slmoveSwapOp s tk mem c = (s.slotsMoved (c.w 0) (c.w 1) (x.take y) (y.take x), result16 0 0 0) := by
      simp only [slmoveSwapOp, slotPair_of_like hx hy hlike, if_neg hne]
      rfl
    exact ⟨_, prefixPerform_answers16_unread hp (exec_slmoveSwap_perform hph) hop (by decide) storeOnly_slotsMoved, storeOnly_slotsMoved,
      slotsKept_slotsMoved, nodes_slotsMoved, find_slotsMoved_fst hne, find_slotsMoved_snd⟩

end Sys2Proof.Machine

namespace Sys2Proof.Machine
section
variable {s s0 s1 s' : State} {tk : Task} {mem : Member} {c : Cmd} {k t : Nat} {n : Node} {id ctx : Nat}

/-! ## Lease identifiers (R251, R377) -/

theorem freeLease_spec {used : List Nat} {f w : Nat} (h : freeLease used f w = some id) : id ∉ used ∧ id % 4 = w % 4 := by
  induction f generalizing w with
  | zero => cases h
  | succ f ih =>
    rw [freeLease] at h
    split_ifs at h with hw
    · obtain ⟨hu, hm⟩ := ih h
      exact ⟨hu, by omega⟩
    · obtain rfl := Option.some.inj h
      refine ⟨fun hin => hw ?_, rfl⟩
      simp [hin]

/-- A lease's identifier is no other's, names its trestle, and takes one free value. -/
theorem leaseId_spec {nm : Name} (h : s.leaseId nm = (some id, s')) :
    (∀ l ∈ s.store.leases, l.id ≠ id) ∧ id % 4 = (nm.extractLsb' 0 2).toNat ∧ s' = s.takeFree.2 := by
  unfold State.leaseId at h
  dsimp only at h
  split_ifs at h
  · cases h
  · obtain ⟨hid, rfl⟩ := Prod.mk.inj h
    obtain ⟨hu, hm⟩ := freeLease_spec hid
    have htr := (nm.extractLsb' 0 2).isLt
    refine ⟨fun l hl he => hu (he ▸ List.mem_map_of_mem hl), ?_, rfl⟩
    omega

/-! ## Leases granted, renewed and ended (R251, R253, R377, R378) -/

/-- The state after a lease of a node in the drawer was granted. -/
def State.drawerLeased (s : State) (ctx k : Nat) (n : Node) (id e : Nat) : State :=
  let s1 := (s.takeFree.2.setUsage ctx 1 (s.usageOf ctx 1 + n.geom.block)).modNode k fun x => { x.count 1 (· + 1) with lage := s.nowTick }
  { s1 with store := { s1.store with leases := s1.store.leases ++ [⟨id, k, 1, some ctx, 0, e⟩] } }

/-- A lease in the drawer, of a node that can have one more, is granted once it is charged. -/
theorem grantLease_drawer (hn : n.ldr < 65535) (hid : s.leaseId n.name = (some id, s')) : s.grantLease (some ctx) 0 k n 1 t =
    match s'.charge ctx 1 n.geom.block with
    | none => (⟨3, noneWord, 0⟩, s)
    | some s1 =>
      let e := min (s.nowTick + t) 65535
      let s2 := s1.modNode k fun x => { x.count 1 (· + 1) with lage := s.nowTick }
      (⟨0, BitVec.ofNat 32 id, e - s.nowTick⟩, { s2 with store := { s2.store with leases := s2.store.leases ++ [⟨id, k, 1, some ctx, 0, e⟩] } }) := by
  have hfree : ¬ ((1 = 2 ∧ !s.chestOn) ∨ 65535 ≤ n.leases 1) := by
    rintro (h | h)
    · cases h.1
    · exact Nat.not_le.mpr hn h
  unfold State.grantLease
  dsimp only
  rw [show ((1 == 0) && s.wayFull k n) = false from rfl, if_neg Bool.false_ne_true, if_neg hfree, hid]
  rfl

theorem grantLease_of_over (hn : n.ldr < 65535) (hid : s.leaseId n.name = (some id, s')) (hq : s.quota ctx 1 < s.usageOf ctx 1 + n.geom.block) :
    s.grantLease (some ctx) 0 k n 1 t = (⟨3, noneWord, 0⟩, s) := by
  obtain ⟨-, -, rfl⟩ := leaseId_spec hid
  have hc : s.takeFree.2.charge ctx 1 n.geom.block = none := charge_of_over hq
  rw [grantLease_drawer hn hid, hc]

theorem grantLease_of_fits (hn : n.ldr < 65535) (hid : s.leaseId n.name = (some id, s')) (hq : s.usageOf ctx 1 + n.geom.block ≤ s.quota ctx 1) :
    s.grantLease (some ctx) 0 k n 1 t =
      (⟨0, BitVec.ofNat 32 id, min (s.nowTick + t) 65535 - s.nowTick⟩, s.drawerLeased ctx k n id (min (s.nowTick + t) 65535)) := by
  obtain ⟨-, -, rfl⟩ := leaseId_spec hid
  have hc : s.takeFree.2.charge ctx 1 n.geom.block = some (s.takeFree.2.setUsage ctx 1 (s.usageOf ctx 1 + n.geom.block)) := charge_of_fits hq
  rw [grantLease_drawer hn hid, hc]
  rfl

theorem storeOnly_drawerLeased {e : Nat} : storeOnly s (s.drawerLeased ctx k n id e) := by
  unfold State.drawerLeased
  rw [modNode_eq]
  rfl

theorem leases_drawerLeased {e : Nat} : (s.drawerLeased ctx k n id e).store.leases = s.store.leases ++ [⟨id, k, 1, some ctx, 0, e⟩] := by
  unfold State.drawerLeased
  dsimp only
  rw [modNode_leases]
  rfl

theorem usageOf_drawerLeased {e : Nat} : (s.drawerLeased ctx k n id e).usageOf ctx 1 = s.usageOf ctx 1 + n.geom.block := by
  refine (usageOf_congr ?_).trans (usageOf_setUsage (s := s.takeFree.2))
  exact modNode_usage

theorem find_drawerLeased {e : Nat} (h : s.store.nodes.find k = some n) :
    (s.drawerLeased ctx k n id e).store.nodes.find k = some { n with ldr := n.ldr + 1, lage := s.nowTick } := by
  unfold State.drawerLeased
  exact find_modNode (s := s.takeFree.2.setUsage ctx 1 (s.usageOf ctx 1 + n.geom.block)) h

/-- The state after a lease was given another EXP. -/
def State.leaseRenewed (s : State) (l : Lease) (e : Nat) : State :=
  ({ s with store := { s.store with leases := s.store.leases.map fun (x : Lease) => if x.id = l.id then { x with exp := e } else x } }).modNode
    l.node fun n => { n with lage := s.nowTick }

theorem ctx_of_leaseOf {id : W32} {l : Lease} (h : s.leaseOf ctx id = some l) : l.ctx = some ctx := by
  have hl := List.find?_some h
  simp only [Bool.and_eq_true, beq_iff_eq] at hl
  exact hl.1.2

section
variable {l : Lease}

theorem storeOnly_endLease (s : State) (l : Lease) : storeOnly s (s.endLease l) := by
  have h1 := storeOnly_modNode { s with store := { s.store with leases := s.store.leases.filter fun x => x.id != l.id } } l.node
    fun n => n.count l.tier (· - 1)
  unfold State.endLease
  dsimp only
  split
  · exact storeOnly_trans (storeOnly_trans (storeOnly_of_store _) h1) rfl
  · exact storeOnly_trans (storeOnly_of_store _) h1

theorem leases_endLease : (s.endLease l).store.leases = s.store.leases.filter fun x => x.id != l.id := by
  unfold State.endLease
  dsimp only
  split
  · exact modNode_leases
  · exact modNode_leases

theorem find_endLease (h : s.store.nodes.find l.node = some n) :
    (s.endLease l).store.nodes.find l.node = some (n.count l.tier (· - 1)) := by
  have h1 := find_modNode (s := { s with store := { s.store with leases := s.store.leases.filter fun x => x.id != l.id } })
    (f := fun n => n.count l.tier (· - 1)) h
  unfold State.endLease
  dsimp only
  split
  · exact h1
  · exact h1

theorem usageOf_endLease (hc : l.ctx = some ctx) (h : s.store.nodes.find l.node = some n) :
    (s.endLease l).usageOf ctx l.tier = s.usageOf ctx l.tier - n.geom.block := by
  unfold State.endLease
  simp only [hc, h, Option.map_some, Option.getD_some, refund_eq, usageOf_setUsage]
  rw [usageOf_congr modNode_usage]
  rfl

theorem leases_count (n : Node) (f : Nat → Nat) : (n.count t f).leases t = f (n.leases t) := by
  match t with
  | 0 => rfl
  | 1 => rfl
  | _ + 2 => rfl

theorem count_name (n : Node) (f : Nat → Nat) : (n.count t f).name = n.name := by
  match t with
  | 0 => rfl
  | 1 => rfl
  | _ + 2 => rfl

end

/-! ## Planes brought into the plane cache (R361, R372, R374) -/

theorem fillPlane_of_mem {l : ShelfLine} (hp : s.mgmt.cfg.pcs.val ≠ 0) (hl : l ∈ s.store.shelf) : s.fillPlane l = some s := by
  simp [State.fillPlane, hp, hl]

theorem fillPlanes_of_mem {ls : List ShelfLine} (hp : s.mgmt.cfg.pcs.val ≠ 0) (hl : ∀ l ∈ ls, l ∈ s.store.shelf) : s.fillPlanes ls = some s := by
  induction ls with
  | nil => rfl
  | cons l r ih =>
    rw [State.fillPlanes, fillPlane_of_mem hp (hl l (List.mem_cons_self ..))]
    exact ih fun x hx => hl x (List.mem_cons_of_mem _ hx)

/-- A line of a node that finds a way of its set free. -/
def State.planeFilled (s : State) (l : ShelfLine) : State :=
  ({ s with store := { s.store with shelf := s.store.shelf ++ [l] } }).modNode l.owner fun n => n.setTier 0 true

theorem fillPlane_of_room {l : ShelfLine} (hp : s.mgmt.cfg.pcs.val ≠ 0) (hl : l ∉ s.store.shelf) (ht : l.tail = false)
    (hr : (l.sameSet s.store.shelf).length < Config.shelfWays) : s.fillPlane l = some (s.planeFilled l) := by
  simp [State.fillPlane, hp, hl, ht, State.shelfRoom, hr, State.planeFilled]

theorem setTier_setTier (n : Node) (t : Nat) : (n.setTier t true).setTier t true = n.setTier t true := by
  simp [Node.setTier, BitVec.or_assoc]

theorem length_sameSet_append (l : ShelfLine) (xs ys : List ShelfLine) :
    (l.sameSet (xs ++ ys)).length = (l.sameSet xs).length + (l.sameSet ys).length := by
  simp [ShelfLine.sameSet]

theorem length_sameSet_cons (l x : ShelfLine) (xs : List ShelfLine) :
    (l.sameSet (x :: xs)).length = (l.sameSet [x]).length + (l.sameSet xs).length := length_sameSet_append l [x] xs

theorem length_sameSet_self (l : ShelfLine) : (l.sameSet [l]).length = 1 := by
  simp [ShelfLine.sameSet]

/-- Lines of a node that find ways of their sets free, together, are all brought in; the node is resident in the shelf once one was not there. -/
theorem fillPlanes_of_room {ls : List ShelfLine} (hp : s.mgmt.cfg.pcs.val ≠ 0) (hls : ∀ l ∈ ls, l.tail = false ∧ l.owner = k)
    (hr : ∀ l ∈ ls, (l.sameSet s.store.shelf).length + (l.sameSet ls).length ≤ Config.shelfWays) (hn : s.store.nodes.find k = some n) :
    ∃ s1 m, s.fillPlanes ls = some s1 ∧ storeOnly s s1 ∧ (∀ l ∈ s.store.shelf, l ∈ s1.store.shelf) ∧ (∀ l ∈ ls, l ∈ s1.store.shelf) ∧
      s1.store.nodes.find k = some m ∧ (m = n ∨ m = n.setTier 0 true) ∧ ((∃ l ∈ ls, l ∉ s.store.shelf) → m = n.setTier 0 true) := by
  induction ls generalizing s n with
  | nil => exact ⟨s, n, rfl, rfl, fun _ h => h, by simp, hn, .inl rfl, by simp⟩
  | cons l r ih =>
    obtain ⟨⟨ht, ho⟩, hrest⟩ := List.forall_mem_cons.mp hls
    obtain ⟨hrl, hrr⟩ := List.forall_mem_cons.mp hr
    simp only [length_sameSet_cons _ l r, length_sameSet_self] at hrl hrr
    by_cases hl : l ∈ s.store.shelf
    · obtain ⟨s1, m, hf, h1, hold, hnew, hm, hor, hex⟩ := ih hp hrest (fun x hx => by have := hrr x hx; omega) hn
      refine ⟨s1, m, by rw [State.fillPlanes, fillPlane_of_mem hp hl]; exact hf, h1, hold, List.forall_mem_cons.mpr ⟨hold l hl, hnew⟩, hm, hor, ?_⟩
      rintro ⟨x, hx, hxs⟩
      obtain rfl | hx := List.mem_cons.mp hx
      · exact absurd hl hxs
      · exact hex ⟨x, hx, hxs⟩
    · have hshelf : (s.planeFilled l).store.shelf = s.store.shelf ++ [l] := modNode_shelf
      have hnode : (s.planeFilled l).store.nodes.find k = some (n.setTier 0 true) := by rw [State.planeFilled, ho]; exact find_modNode hn
      obtain ⟨s1, m, hf, h1, hold, hnew, hm, hor, -⟩ := ih (by rw [State.planeFilled, modNode_eq]; exact hp) hrest (fun x hx => by
        have := hrr x hx
        rw [hshelf, length_sameSet_append]
        omega) hnode
      rw [setTier_setTier, or_self] at hor
      rw [hshelf] at hold
      refine ⟨s1, m, by rw [State.fillPlanes, fillPlane_of_room hp hl ht (by omega)]; exact hf, ?_, fun x hx => hold x (List.mem_append_left _ hx),
        List.forall_mem_cons.mpr ⟨hold l (by simp), hnew⟩, hm, .inr hor, fun _ => hor⟩
      exact storeOnly_trans (storeOnly_trans (storeOnly_of_store _) (storeOnly_modNode ..)) h1

/-- Without a plane cache no line of a node is brought in. -/
theorem fillShelf_of_no_cache (hp : s.mgmt.cfg.pcs.val = 0) (hn : s.store.nodes.find k = some n) : s.fillShelf k = none := by
  have hpos : 0 < n.geom.lines := by
    have : 0 < n.geom.block := by
      unfold Geom.block Node.geom
      positivity
    unfold Geom.lines
    omega
  obtain ⟨m, hm⟩ := Nat.exists_eq_add_of_lt hpos
  rw [State.fillShelf, hn, Option.bind_some, State.nodeLines, hm, Nat.zero_add, List.range_succ_eq_map, List.map_cons, State.fillPlanes,
    State.fillPlane, if_pos hp]
  rfl

theorem shelfStatus_of_no_cache (hp : s.mgmt.cfg.pcs.val = 0) : s.shelfStatus k n = 2 := by
  unfold State.shelfStatus
  exact if_pos (.inl hp)

theorem nodeLines_of (s : State) (k : Nat) (n : Node) : ∀ l ∈ s.nodeLines k n, l.tail = false ∧ l.owner = k := by
  intro l hl
  obtain ⟨x, -, rfl⟩ := List.mem_map.mp hl
  exact ⟨rfl, rfl⟩

/-! ## Records of nodes (R247) -/

/-- The lowest field of a node's record is its name. -/
theorem nodeRecord_mod (n : Node) : n.record % 2 ^ (32 * 4) = n.name.toNat % 2 ^ (32 * 4) := by
  rw [Node.record]
  iterate 16 rw [add_field_mod (by decide)]
  rw [add_flag_mod (by decide), add_field_mod (by decide)]

theorem nodeRecord_words (n : Node) (hk : k < 4) : (wordsOf 64 n.record).getD k 0 = n.name.extractLsb' (32 * k) 32 := by
  rw [getD_wordsOf_congr (nodeRecord_mod n) hk (by omega)]
  apply BitVec.eq_of_toNat_eq
  rw [BitVec.toNat_ofNat, BitVec.extractLsb'_toNat, Nat.shiftRight_eq_div_pow]

theorem find_of_nodeOf (h : s.nodeOf ctx k = some n) : s.store.nodes.find k = some n := by
  unfold State.nodeOf at h
  split at h
  · next y hy =>
    split_ifs at h
    rw [hy, h]
  · cases h

/-! ## The lease and node commands at work (R266) -/

section
variable (hp : s.cur.phase = .perform) {h : Hdr} {p : PrmRes}
include hp

theorem exec_lease_perform : exec (.lease h p) s = prefixPerform p 4 true leaseOp s := by simp only [exec, execLease, hp]
theorem exec_renew_perform : exec (.renew h p) s = prefixPerform p 4 true renewOp s := by simp only [exec, execRenew, hp]
theorem exec_free_perform : exec (.free h p) s = prefixPerform p 4 true freeOp s := by simp only [exec, execFree, hp]
theorem exec_evclass_perform : exec (.evclass h p) s = prefixPerform p 4 true evclassOp s := by simp only [exec, execEvclass, hp]
theorem exec_promo_perform : exec (.promo h p) s = prefixPerform p 4 true promoOp s := by simp only [exec, execPromo, hp]
theorem exec_nodeinfo_perform : exec (.nodeinfo h p) s = echoPerform p 4 false nodeinfoOp s := by simp only [exec, execNodeinfo, hp]

end

section
variable (hp : Performing s tk mem c) {h : Hdr} {p : PrmRes}
include hp

/-- A node that the context may not name: INVALID. -/
theorem answers_node_unknown (hn : s.nodeOf tk.ctx (c.w 0) = none) :
    answers (.lease h p) s s mem c p [10, noneWord, 0, 0] ∧ answers (.evclass h p) s s mem c p [10, 0, 0, 0] ∧
      answers (.promo h p) s s mem c p [10, 0, 0, 0] ∧ answers (.nodeinfo h p) s s mem c p (List.replicate 64 0) := by
  have hph := hp.work.phase
  refine ⟨?_, ?_, ?_, ?_⟩
  · exact prefixPerform_answers16_unread hp (exec_lease_perform hph) (by simp only [leaseOp, hn]) (by decide) rfl
  · exact prefixPerform_answers16_unread hp (exec_evclass_perform hph) (by simp only [evclassOp, hn]) (by decide) rfl
  · exact prefixPerform_answers16_unread hp (exec_promo_perform hph) (by simp only [promoOp, hn]) (by decide) rfl
  · exact echoPerform_answers hp (exec_nodeinfo_perform hph) (by simp only [nodeinfoOp, hn])

/-- A lease that the context does not hold: NOLEASE. -/
theorem answers_lease_unknown (hl : s.leaseOf tk.ctx (c.out.getD 0 0) = none) :
    answers (.renew h p) s s mem c p [9, 0, 0, 0] ∧ answers (.free h p) s s mem c p [9, 0, 0, 0] := by
  have hph := hp.work.phase
  refine ⟨?_, ?_⟩
  · exact prefixPerform_answers16_unread hp (exec_renew_perform hph) (by simp only [renewOp, hl]) (by decide) rfl
  · exact prefixPerform_answers16_unread hp (exec_free_perform hph) (by simp only [freeOp, hl]) (by decide) rfl

section
variable (hn : s.nodeOf tk.ctx (c.w 0) = some n)
include hn

/-- LEASE in the drawer: QUOTA where the charge does not fit, else a lease of its own identifier, counted and charged. -/
theorem answers_lease_drawer (htier : c.w 1 / 65536 = 1) (hldr : n.ldr < 65535) (hid : s.leaseId n.name = (some id, s')) :
    let e := min (s.nowTick + c.w 1 % 65536) 65535
    (s.quota tk.ctx 1 < s.usageOf tk.ctx 1 + n.geom.block → answers (.lease h p) s s mem c p [3, noneWord, 0, 0]) ∧
    (s.usageOf tk.ctx 1 + n.geom.block ≤ s.quota tk.ctx 1 →
      answers (.lease h p) s (s.drawerLeased tk.ctx (c.w 0) n id e) mem c p [0, BitVec.ofNat 32 id, BitVec.ofNat 32 (e - s.nowTick), 0]) := by
  have hph := hp.work.phase
  refine ⟨fun hq => ?_, fun hq => ?_⟩
  · exact prefixPerform_answers16_unread hp (exec_lease_perform hph) (by simp only [leaseOp, hn, htier, grantLease_of_over hldr hid hq]; rfl)
      (by decide) rfl
  · exact prefixPerform_answers16_unread hp (exec_lease_perform hph) (by simp only [leaseOp, hn, htier, grantLease_of_fits hldr hid hq])
      (by decide) storeOnly_drawerLeased

theorem answers_evclass : answers (.evclass h p) s (s.putNode (c.w 0) { n with evc := BitVec.ofNat 2 (c.w 1) }) mem c p [0, 0, 0, 0] :=
  prefixPerform_answers16_unread hp (exec_evclass_perform hp.work.phase) (by simp only [evclassOp, hn]) (by decide) rfl

/-- PROMO into the drawer, where the node is already or finds room. -/
theorem answers_promo_drawer (hw : c.w 1 = 1) :
    (n.inTier 1 = true → answers (.promo h p) s s mem c p [0, 0, 0, 0]) ∧
    (n.inTier 1 = false → s.bytesIn 1 + n.geom.block ≤ Config.storeBytes 1 →
      answers (.promo h p) s (s.modNode (c.w 0) fun x => x.setTier 1 true) mem c p [0, 0, 0, 0]) := by
  have hph := hp.work.phase
  have hne : ¬ c.w 1 = 0 := by omega
  refine ⟨fun ht => ?_, fun ht hr => ?_⟩
  · exact prefixPerform_answers16_unread hp (exec_promo_perform hph) (by simp only [promoOp, hn, if_neg hne, ht, if_true]) (by decide) rfl
  · exact prefixPerform_answers16_unread hp (exec_promo_perform hph)
      (by simp only [promoOp, hn, if_neg hne, ht, Bool.false_eq_true, if_false, roomFor_of_fits _ hr]) (by decide) (storeOnly_modNode ..)

/-- PROMO into the plane cache that finds its lines there, or ways for all of them, and PROMO without a plane cache. -/
theorem answers_promo_shelf (hw : c.w 1 = 0) :
    (∀ s1, s.fillPlanes (s.nodeLines (c.w 0) n) = some s1 → storeOnly s s1 → answers (.promo h p) s s1 mem c p [0, 0, 0, 0]) ∧
    (s.mgmt.cfg.pcs.val = 0 → answers (.promo h p) s s mem c p [2, 0, 0, 0]) := by
  have hph := hp.work.phase
  have hfind := find_of_nodeOf hn
  refine ⟨fun s1 hf h1 => ?_, fun hc => ?_⟩
  · exact prefixPerform_answers16_unread hp (exec_promo_perform hph)
      (by simp only [promoOp, hn, hw, if_true, State.fillShelf, hfind, Option.bind_some, hf]) (by decide) h1
  · exact prefixPerform_answers16_unread hp (exec_promo_perform hph)
      (by simp only [promoOp, hn, hw, if_true, fillShelf_of_no_cache hc hfind, shelfStatus_of_no_cache hc]) (by decide) rfl

end

section
variable {l : Lease} (hl : s.leaseOf tk.ctx (c.out.getD 0 0) = some l)
include hl

theorem answers_renew : answers (.renew h p) s (s.leaseRenewed l (min (s.nowTick + c.w 1) 65535)) mem c p
    [0, 0, BitVec.ofNat 32 (min (s.nowTick + c.w 1) 65535 - s.nowTick), 0] :=
  prefixPerform_answers16_unread hp (exec_renew_perform hp.work.phase) (by simp only [renewOp, hl, State.leaseRenewed, beq_iff_eq]) (by decide)
    (storeOnly_trans (storeOnly_of_store _) (storeOnly_modNode ..))

theorem answers_free : answers (.free h p) s (s.endLease l) mem c p [0, 0, 0, 0] :=
  prefixPerform_answers16_unread hp (exec_free_perform hp.work.phase) (by simp only [freeOp, hl]) (by decide) (storeOnly_endLease ..)

end
end
end

/-- Settles O45: each command through the rule of its operation on leases and nodes. -/
theorem leaseAndNodeCommands : Obligations.LeaseAndNodeCommands := by
  intro s tk mem c h p hp
  refine ⟨answers_node_unknown hp, answers_lease_unknown hp, fun n hn => ?_, fun l hl => ⟨?_, ?_⟩⟩
  · have hfind := find_of_nodeOf hn
    refine ⟨fun id s' htier hldr hid => ?_, ?_, fun hw => (answers_promo_drawer hp hn hw).1, fun hw ht hr => ?_, fun hw hc => ⟨fun hall => ?_, ?_⟩,
      fun hw => (answers_promo_shelf hp hn hw).2, ?_⟩
    · obtain ⟨hover, hfits⟩ := answers_lease_drawer hp (h := h) (p := p) hn htier hldr hid
      obtain ⟨hfresh, hmod, -⟩ := leaseId_spec hid
      exact ⟨hover, fun hq => ⟨_, hfits hq, storeOnly_drawerLeased, leases_drawerLeased, hfresh, hmod, usageOf_drawerLeased, find_drawerLeased hfind⟩⟩
    · exact ⟨_, answers_evclass hp hn, rfl, SMap.find_put_same .., fun j hj => SMap.find_put_ne _ _ hj⟩
    · exact ⟨_, (answers_promo_drawer hp hn hw).2 ht hr, storeOnly_modNode .., find_modNode hfind⟩
    · exact (answers_promo_shelf hp hn hw).1 s (fillPlanes_of_mem hc hall) rfl
    · intro hex hroom
      obtain ⟨s1, m, hf, h1, -, hin, hm, -, hset⟩ := fillPlanes_of_room hc (nodeLines_of s (c.w 0) n) hroom hfind
      exact ⟨s1, (answers_promo_shelf hp hn hw).1 s1 hf h1, h1, hin, by rw [hm, hset hex]; rfl⟩
    · exact ⟨_, echoPerform_answers hp (exec_nodeinfo_perform hp.work.phase) (by simp only [nodeinfoOp, hn]), length_wordsOf ..,
        fun _ k hk => nodeRecord_words n hk⟩
  · exact ⟨_, answers_renew hp hl, storeOnly_trans (storeOnly_of_store _) (storeOnly_modNode ..), modNode_leases, fun n hn => find_modNode hn⟩
  · refine ⟨_, answers_free hp hl, storeOnly_endLease .., leases_endLease, fun n hn => ⟨_, find_endLease hn, count_name .., leases_count .., fun _ => ?_⟩⟩
    exact usageOf_endLease (ctx_of_leaseOf hl) hn

end Sys2Proof.Machine

namespace Sys2Proof.Machine
section
variable {s s0 s1 s2 : State} {tk : Task} {mem : Member} {c : Cmd} {k t m n : Nat}

/-! ## What reading lines of the block store leaves (R332, R372, R375) -/

/-- The bytes that a block's pages read as: the pages, and each page's bytes (R308). -/
def Node.image (n : Node) : List Nat × (Nat → Nat → Byte) := (n.pages, n.pageByte)

/-- A state after reads of lines: the plane cache, the readers and counts differ, and no block's pages read otherwise. -/
structure Lines (s s1 : State) : Prop where
  only : linesOnly s s1
  images : s1.store.nodes.map (fun p => p.2.image) = s.store.nodes.map fun p => p.2.image

theorem Lines.refl (s : State) : Lines s s := ⟨rfl, rfl⟩

theorem Lines.trans (h1 : Lines s s1) (h2 : Lines s1 s2) : Lines s s2 := ⟨linesOnly_trans h1.only h2.only, h2.images.trans h1.images⟩

/-- The bytes of the page that a block holds are known from the blocks' images. -/
theorem blockAt_images (st : Store) (page : Nat) : (st.blockAt page).map (fun b => b.1.pageByte b.2) =
    (st.nodes.map fun p => p.2.image).findSome? fun im => (im.1.idxOf? page).map im.2 := by
  unfold Store.blockAt
  induction st.nodes with
  | nil => rfl
  | cons p r ih =>
    rw [List.map_cons, List.findSome?_cons, List.findSome?_cons, ← ih]
    cases h : p.2.pages.idxOf? page with
    | none => simp [Node.image, h]
    | some i => simp [Node.image, h]

/-- Memory reads alike after reads of lines. -/
theorem Lines.load (h : Lines s s1) (pa n : Nat) : s1.load pa n = s.load pa n := by
  have hb : (s1.store.blockAt (pa / 4096)).map (fun b => b.1.pageByte b.2) = (s.store.blockAt (pa / 4096)).map fun b => b.1.pageByte b.2 := by
    rw [blockAt_images, blockAt_images, h.images]
  have hm : s1.mem = s.mem := by rw [h.only]
  have hport (o : Nat) : s1.portByte o = s.portByte o := by rw [h.only]; rfl
  unfold State.load
  rw [hm]
  simp only [hport]
  split
  · rfl
  · cases h1 : s1.store.blockAt (pa / 4096) with
    | none =>
      rw [h1, Option.map_none, eq_comm, Option.map_eq_none_iff] at hb
      rw [hb]
    | some b1 =>
      rw [h1, Option.map_some, eq_comm, Option.map_eq_some_iff] at hb
      obtain ⟨b, hb, he⟩ := hb
      rw [hb]
      simp only [← he]

theorem Lines.swin (h : Lines s s1) (ctx : Nat) : s1.swin ctx = s.swin ctx := by
  have hregs : s1.regs = s.regs := by rw [h.only]
  simp only [State.swin, State.ctxField, State.loadNat, hregs, h.load]

theorem lines_of_readers (rs : List Reader) : Lines s { s with store := { s.store with readers := rs } } := ⟨rfl, rfl⟩

theorem lines_of_shelf (ls : List ShelfLine) : Lines s { s with store := { s.store with shelf := ls } } := ⟨rfl, rfl⟩

theorem lines_noteRead (s : State) (pa n : Nat) : Lines s (s.noteRead pa n) := ⟨rfl, rfl⟩

/-- Where a node is resident is no part of its block's bytes. -/
theorem lines_modNode_setTier (s : State) (k t : Nat) (on : Bool) : Lines s (s.modNode k fun n => n.setTier t on) := by
  cases hn : s.store.nodes.find k with
  | none =>
    rw [State.modNode, hn]
    exact Lines.refl s
  | some n =>
    rw [modNode_of_find hn]
    exact ⟨rfl, SMap.map_put_of_find (b := n.setTier t on) (fun p => p.2.image) hn rfl⟩

theorem lines_leaveShelf (s : State) (k : Nat) : Lines s (s.leaveShelf k) := (lines_of_shelf _).trans (lines_modNode_setTier ..)

theorem lines_shelfRoom {keep : List Nat} {l : ShelfLine} (f : Nat) (h : State.shelfRoom keep l f s = some s1) : Lines s s1 := by
  induction f generalizing s with
  | zero => cases h
  | succ f ih =>
    rw [State.shelfRoom] at h
    split_ifs at h
    · obtain rfl := Option.some.inj h
      exact Lines.refl s
    · split at h
      · exact (lines_of_shelf _).trans (ih h)
      · split at h
        · cases h
        · exact (lines_leaveShelf s _).trans (ih h)

theorem lines_fillPlane {l : ShelfLine} (h : s.fillPlane l = some s1) : Lines s s1 := by
  unfold State.fillPlane at h
  split_ifs at h
  · obtain rfl := Option.some.inj h
    exact Lines.refl s
  · obtain ⟨s2, hr, rfl⟩ := Option.map_eq_some_iff.mp h
    exact (lines_shelfRoom _ hr).trans (lines_of_shelf _)
  · obtain ⟨s2, hr, rfl⟩ := Option.map_eq_some_iff.mp h
    exact ((lines_shelfRoom _ hr).trans (lines_of_shelf _)).trans (lines_modNode_setTier ..)

theorem lines_readLines (tier : Nat) (fill : Bool) (ls : List ShelfLine) (s : State) : Lines s (s.readLines tier fill ls).2 :=
  readLines_keeps (P := Lines s) (fun s1 pa n h => h.trans (lines_noteRead s1 pa n)) (fun _ _ _ _ h hf => h.trans (lines_fillPlane hf)) ls (Lines.refl s)

theorem lines_of_read {tier : Nat} {fill : Bool} {ls : List ShelfLine} {o : Option Nat} (h : s.readLines tier fill ls = (o, s1)) : Lines s s1 := by
  have hl := lines_readLines tier fill ls s
  rwa [h] at hl

theorem lines_reach (s : State) (k : Nat) (n : Node) (need : List ShelfLine) (t m q : Nat) : Lines s (s.reach k n need t m q).2 := by
  unfold State.reach State.addReader
  split
  · exact Lines.refl s
  · dsimp only
    split_ifs
    · exact Lines.refl s
    · exact lines_of_readers _

theorem lines_dropReader (s : State) (k t m q : Nat) : Lines s (s.dropReader k t m q) := lines_of_readers _

/-! ## Reads without store-window checks (R352) -/

theorem windowCheck_of_no_window {x : Stream} {node part grain : Nat} (h : s.swin tk.ctx = 0) :
    windowCheck s tk mem x node part grain = ⟨.ok (), mem, s⟩ := if_pos h

/-- A read whose context has no window checks nothing: it reads its lines, from the tier its node was reached in. -/
theorem readGrain_of_no_window (all : List GrainRead) (g : GrainRead) (h : s.swin tk.ctx = 0) : ∃ (tier : Nat) (s2 : State), Lines s s2 ∧
    readGrain tk c all g s mem = match s2.readLines tier true g.lines with
      | (some pa, s1) => (.memory g.idx (memTrap pa), mem, s1)
      | (none, s1) => (.ok, mem, s1) := by
  unfold readGrain
  rcases hsa : g.sealedAt with _ | ⟨k, part, grain⟩
  · exact ⟨1, s, Lines.refl s, rfl⟩
  · dsimp only
    cases hn : s.store.nodes.find k with
    | none =>
      refine ⟨1, s, Lines.refl s, ?_⟩
      dsimp only
      rw [windowCheck_of_no_window h, ite_self] <;> rfl
    | some n =>
      have h2 := lines_reach s k n (needOf all k) s.cur.task s.cur.member c.seq
      refine ⟨(s.reach k n (needOf all k) s.cur.task s.cur.member c.seq).1, _, h2, ?_⟩
      dsimp only
      rw [windowCheck_of_no_window (h2.swin _ |>.trans h), ite_self] <;> rfl

theorem readGrain_lines (all : List GrainRead) (g : GrainRead) (h : s.swin tk.ctx = 0) :
    (readGrain tk c all g s mem).2.1 = mem ∧ Lines s (readGrain tk c all g s mem).2.2 := by
  obtain ⟨tier, s2, h2, he⟩ := readGrain_of_no_window (c := c) (mem := mem) all g h
  have hl := lines_readLines tier true g.lines s2
  rw [he]
  generalize s2.readLines tier true g.lines = x at hl
  obtain ⟨_ | pa, s1⟩ := x
  · exact ⟨rfl, h2.trans hl⟩
  · exact ⟨rfl, h2.trans hl⟩

theorem readGrains_lines (all gs : List GrainRead) (h : s.swin tk.ctx = 0) :
    (readGrains tk c all gs s mem).2.1 = mem ∧ Lines s (readGrains tk c all gs s mem).2.2 := by
  induction gs generalizing s with
  | nil => exact ⟨rfl, Lines.refl s⟩
  | cons g r ih =>
    obtain ⟨hm, hl⟩ := readGrain_lines (c := c) (mem := mem) all g h
    unfold readGrains
    generalize readGrain tk c all g s mem = x at hm hl
    obtain ⟨e, m1, s1⟩ := x
    dsimp only at hm hl
    subst hm
    cases e with
    | ok =>
      have h2 : Lines s (match g.node with
          | some k => if r.any fun x => x.node == some k then s1 else s1.dropReader k s.cur.task s.cur.member c.seq
          | none => s1) := by
        split
        · split_ifs
          · exact hl
          · exact hl.trans (lines_dropReader ..)
        · exact hl
      obtain ⟨hm, h3⟩ := ih (h2.swin _ |>.trans h)
      exact ⟨hm, h2.trans h3⟩
    | check _ _ => exact ⟨rfl, hl⟩
    | memory _ _ => exact ⟨rfl, hl⟩

end
end Sys2Proof.Machine

namespace Sys2Proof.Machine
section
variable {q : BselPrm} {bounds : List Nat}

/-! ## The grains BSEL selects (R268) -/

/-- The grains kept without a score: the first and the last ones. -/
def BselPrm.keeps (q : BselPrm) (ng i : Nat) : Bool := decide (i < q.sink) || decide (ng ≤ i + q.new)

/-- What BSEL selects of its candidates. -/
theorem selectGrains_eq (q : BselPrm) (bounds : List Nat) : ∃ top : List Nat, top.length ≤ q.g ∧
    selectGrains q bounds = (List.range bounds.length).filter fun i => q.keeps bounds.length i || top.contains i :=
  ⟨_, List.length_take_le .., rfl⟩

theorem pairwise_selectGrains : (selectGrains q bounds).Pairwise (· < ·) := by
  obtain ⟨top, -, h⟩ := selectGrains_eq q bounds
  rw [h]
  exact List.pairwise_lt_range.filter _

theorem lt_of_mem_selectGrains {i : Nat} (hi : i ∈ selectGrains q bounds) : i < bounds.length := by
  obtain ⟨top, -, h⟩ := selectGrains_eq q bounds
  rw [h] at hi
  simpa using (List.mem_filter.mp hi).1

theorem mem_selectGrains_of_kept {i : Nat} (hi : i < bounds.length) (hk : i < q.sink ∨ bounds.length ≤ i + q.new) : i ∈ selectGrains q bounds := by
  obtain ⟨top, -, h⟩ := selectGrains_eq q bounds
  rw [h, List.mem_filter]
  exact ⟨by simpa using hi, by simp [BselPrm.keeps, hk]⟩

/-- The grains selected are among the sinks, the newest grains and G others. -/
theorem length_selectGrains_le : (selectGrains q bounds).length ≤ q.sink + q.new + q.g := by
  obtain ⟨top, htop, h⟩ := selectGrains_eq q bounds
  have hsub : selectGrains q bounds ⊆ List.range q.sink ++ List.range' (bounds.length - q.new) q.new ++ top := by
    intro i hi
    rw [h, List.mem_filter] at hi
    obtain ⟨hlt, hk⟩ := hi
    simp only [List.mem_range, BselPrm.keeps, Bool.or_eq_true, decide_eq_true_eq, List.contains_eq_mem] at hlt hk
    simp only [List.mem_append, List.mem_range, List.mem_range'_1]
    obtain (hs | hn) | ht := hk
    · exact .inl (.inl hs)
    · exact .inl (.inr (by omega))
    · exact .inr ht
  have hnodup : (selectGrains q bounds).Nodup := pairwise_selectGrains.imp Nat.ne_of_lt
  have hlen := (hnodup.subperm hsub).length_le
  simp only [List.length_append, List.length_range, List.length_range'] at hlen
  omega

end

section
variable {s s0 s1 : State} {tk : Task} {mem m1 : Member} {c : Cmd} {x : SeqSlot} {q : BselPrm} {k : Kept}

/-! ## BSEL at work (R268) -/

theorem length_selectGrains_le_length {bounds : List Nat} : (selectGrains q bounds).length ≤ bounds.length := by
  obtain ⟨top, -, h⟩ := selectGrains_eq q bounds
  rw [h]
  simpa using List.length_filter_le (fun i => q.keeps bounds.length i || top.contains i) (List.range bounds.length)

/-- BSEL's list and record are those of some bounds, one for each grain. -/
theorem bselOut_eq (s : State) (mem : Member) (k : Kept) (q : BselPrm) : ∃ (bounds : List Nat) (big : W32), bounds.length = q.grains ∧
    s.bselOut mem k q = (BitVec.ofNat 32 (selectGrains q bounds).length :: (selectGrains q bounds).map fun i => BitVec.ofNat 32 (q.t0 + 16 * i),
      result16 0 (BitVec.ofNat 32 (selectGrains q bounds).length) big) :=
  ⟨_, _, by rw [List.length_map, List.length_range], rfl⟩

section
variable {h : Hdr} {p : PrmRes} (hp : Performing s tk mem c)
include hp

/-- A BSEL that starts afresh reads what its grains need, by its slot's mapping. -/
theorem exec_bsel_of_start {c1 : Cmd} (h1 : s.bselStart tk mem c = c1) (hm : c1.mark = 0) : exec (.bsel h p) s =
    match c1.kept with
    | none => afterPieces s 1 { resultUnit s mem c1 (16 * p.res.toNat) (result16 10 0 0) with cmd := { c1 with mark := 1 } }
    | some k =>
      match readGrains tk c1 (s.bselReads k (bselPrm c.out)) (s.bselReads k (bselPrm c.out)) s mem with
      | (.check i e, m1, s1) => afterPieces s 1 ⟨.hold e, s1, m1, { c1 with mark := i }⟩
      | (.memory _ e, m1, s1) => afterPieces s 1 ⟨.hold e, s1, m1, { c1 with mark := 0 }⟩
      | (.ok, m1, s1) =>
        let out := s1.bselOut m1 k (bselPrm c.out)
        let u := resultUnit (s1.dropReaders s.cur.task s.cur.member c1.seq) m1 c1 (bselPrm c.out).list out.1
        let v := match u.res with
          | .ok => resultUnit u.st u.mem c1 (16 * p.res.toNat) out.2
          | _ => u
        afterPieces s 1 (v.whole { c1 with kept := none }) := by
  obtain ⟨d, hd⟩ := hp.work.active
  have hall (gs : List GrainRead) : gs.filter (fun g => decide (c1.mark ≤ g.idx)) = gs := by simp [hm]
  change execBsel h p s = _
  rw [execBsel, hp.work.phase]
  dsimp only
  rw [onMember_cur hp.work.current, hp.work.cmd]
  dsimp only
  rw [hd]
  dsimp only
  rw [h1]
  simp only [hall] <;> rfl

variable (hk : c.kept = none)
include hk

/-- A BSEL that finds no slot of its parameters answers INVALID. -/
theorem answers_bsel_invalid (hx : s.bselSlot tk mem c = none) : answers (.bsel h p) s s mem c p [10, 0, 0, 0] := by
  have hstart : s.bselStart tk mem c = c := by
    unfold State.bselStart
    rw [hk]
    dsimp only
    rw [hx, Option.map_none, ← hk]
  rw [show ([10, 0, 0, 0] : List W32) = result16 10 0 0 from (result16_eq (by decide) 0 0).symm]
  refine answers_of_exec (b := mem) ?_ rfl
  rw [exec_bsel_of_start hp hstart hp.start]
  split
  · rw [resultUnit_of_thawed hp.thawed]
    exact afterPieces_whole hp.start rfl
  · next k hsome => cases hk.symm.trans hsome

/-- A BSEL whose reads end well writes its list and its record (R268). -/
theorem exec_bsel_of_read (hx : s.bselSlot tk mem c = some x)
    (hr : readGrains tk (s.bselStart tk mem c) (s.bselReads (s.mapping x) (bselPrm c.out)) (s.bselReads (s.mapping x) (bselPrm c.out)) s mem =
      (.ok, mem, s0)) (hl : linesOnly s s0) :
    let out := s0.bselOut mem (s.mapping x) (bselPrm c.out)
    exec (.bsel h p) s = .next (finished (s0.dropReaders s.cur.task s.cur.member c.seq)
      ((mem.putWords (bselPrm c.out).list out.1).putWords (16 * p.res.toNat) out.2) c) := by
  have hstart : s.bselStart tk mem c = { c with kept := some (s.mapping x) } := by
    unfold State.bselStart
    rw [hk]
    dsimp only
    rw [hx]
    rfl
  have hcycle : s0.cycle = s.cycle := by rw [hl]
  have hcmd : { c with kept := none } = c := by rw [← hk]
  have hfr (b : List W32) (a : Nat) : (mem.putWords a b).frozen = [] := by rw [putWords_eq]; exact hp.thawed
  rw [hstart] at hr
  rw [exec_bsel_of_start hp hstart hp.start]
  dsimp only
  rw [hr]
  dsimp only
  rw [resultUnit_of_thawed hp.thawed]
  dsimp only
  rw [resultUnit_of_thawed (hfr _ _), hcmd]
  exact afterPieces_whole hp.start hcycle

end

/-- The containers of two lists of words that lie apart. -/
theorem conts_of_apart {list rec : List W32} {a r : Nat} (hap : r + rec.length ≤ a / 4 ∨ a / 4 + list.length ≤ r) :
    (∀ j < rec.length, ((mem.putWords a list).putWords (4 * r) rec).cont (r + j) = ⟨rec.getD j 0, true, false⟩) ∧
    ∀ j < list.length, ((mem.putWords a list).putWords (4 * r) rec).cont (a / 4 + j) = ⟨list.getD j 0, true, false⟩ := by
  have hbase : 4 * r / 4 = r := by omega
  refine ⟨fun j hj => ?_, fun j hj => ?_⟩
  · simpa only [hbase] using cont_putWords_inside (a := 4 * r) (mem := mem.putWords a list) hj
  · rw [cont_putWords_outside (by omega), cont_putWords_inside hj]

end

section
variable {s s0 : State} {tk : Task} {mem : Member} {c : Cmd} {x : SeqSlot} {h : Hdr} {p : PrmRes}

/-- BSEL's list names its grains, ascending, with every sink and newest grain and at most G others; its record counts them (R268). -/
theorem bsel_selects (hp : Performing s tk mem c) (hk : c.kept = none) (hx : s.bselSlot tk mem c = some x) (hwin : s.swin tk.ctx = 0) :
    let q := bselPrm c.out
    let reads := s.bselReads (s.mapping x) q
    readGrains tk (s.bselStart tk mem c) reads reads s mem = (.ok, mem, s0) →
    (4 * p.res.toNat + 4 ≤ q.list / 4 ∨ q.list / 4 + q.grains + 1 ≤ 4 * p.res.toNat) →
    ∃ (s1 : State) (sel : List Nat) (big : W32) (b : Member), exec (.bsel h p) s = .next (finished s1 b c) ∧ linesOnly s s0 ∧
      storeOnly s0 s1 ∧ b = { mem with spad := b.spad, wrote := b.wrote } ∧
      (∀ k < 4, b.cont (4 * p.res.toNat + k) = ⟨[0, BitVec.ofNat 32 sel.length, big, 0].getD k 0, true, false⟩) ∧
      b.cont (q.list / 4) = ⟨BitVec.ofNat 32 sel.length, true, false⟩ ∧
      (∀ k (hk : k < sel.length), b.cont (q.list / 4 + 1 + k) = ⟨BitVec.ofNat 32 (q.t0 + 16 * sel[k]), true, false⟩) ∧
      sel.Pairwise (· < ·) ∧ (∀ i ∈ sel, i < q.grains) ∧ (∀ i < q.grains, i < q.sink ∨ q.grains ≤ i + q.new → i ∈ sel) ∧
      sel.length ≤ q.sink + q.new + q.g := by
  intro q reads hr hap
  have hl : linesOnly s s0 := by
    have h1 := (readGrains_lines (c := s.bselStart tk mem c) (mem := mem) reads reads hwin).2.only
    rwa [hr] at h1
  obtain ⟨bounds, big, hlen, hout⟩ := bselOut_eq s0 mem (s.mapping x) q
  have hexec := exec_bsel_of_read (h := h) (p := p) hp hk hx hr hl
  have hle : (selectGrains q bounds).length ≤ q.grains := hlen ▸ length_selectGrains_le_length
  rw [← hlen] at hap hle ⊢
  change let out := s0.bselOut mem (s.mapping x) q; _ at hexec
  rw [hout] at hexec
  dsimp only at hexec
  rw [result16_eq (by decide), show 16 * p.res.toNat = 4 * (4 * p.res.toNat) by omega] at hexec
  generalize hlist : (BitVec.ofNat 32 (selectGrains q bounds).length :: (selectGrains q bounds).map fun i => BitVec.ofNat 32 (q.t0 + 16 * i)) = list
    at hexec
  have hll : list.length = (selectGrains q bounds).length + 1 := by rw [← hlist, List.length_cons, List.length_map]
  obtain ⟨hrec, hcont⟩ := conts_of_apart (mem := mem) (list := list) (a := q.list) (r := 4 * p.res.toNat)
    (rec := [BitVec.ofNat 32 0, BitVec.ofNat 32 (selectGrains q bounds).length, big, 0]) (by rw [hll]; simp only [List.length_cons, List.length_nil]; omega)
  refine ⟨_, selectGrains q bounds, big, _, hexec, hl, storeOnly_of_store _, ?_, hrec, ?_, fun k hk => ?_, pairwise_selectGrains,
    fun i => lt_of_mem_selectGrains, fun i => mem_selectGrains_of_kept, length_selectGrains_le⟩
  · rw [putWords_eq, putWords_eq list]
  · exact (hcont 0 (by omega)).trans (by rw [← hlist]; rfl)
  · rw [Nat.add_assoc, Nat.add_comm 1 k, hcont (k + 1) (by omega), ← hlist, List.getD_cons_succ, List.getD_eq_getElem _ _ (by simpa using hk),
      List.getElem_map]

end
end Sys2Proof.Machine

namespace Sys2Proof.Machine
section
variable {s s0 s1 s2 st : State} {tk : Task} {mem b : Member} {c c1 : Cmd} {h : Hdr} {p : PrmRes} {w : BitVec 4} {r : Ring} {k : Kept} {j : Nat}

/-! ## The last piece of PGATH (R269, R371) -/

/-- A last piece that changes its command, but not its mark, ends it as it left it. -/
theorem workCmd_of_ok_changed {total : Task → Member → Cmd → Nat} {f : Task → State → Member → Cmd → Nat → UnitRes} (hw : Working s tk mem c)
    (ht : total tk mem c = c.mark + 1) (hf : f tk s mem c c.mark = ⟨.ok, s1, b, c1⟩) (hm : c1.mark = c.mark) (hc : s1.cycle = s.cycle) :
    workCmd s total f = .next (finished s1 b c1) := by
  rw [workCmd_last hw ht, Nat.add_comm 1]
  simp only [runPieces, hf, hm, Nat.not_succ_le_self, if_false]
  cases Config.engineBurst (c.timeKey s) with
  | zero =>
    simp only [runPieces, afterPieces, finished, Nat.le_refl, if_true, hm, hc]
    rfl
  | succ n =>
    simp only [runPieces, afterPieces, finished, Nat.le_refl, if_true, hm, hc]

theorem exec_pgath_perform (hp : s.cur.phase = .perform) :
    exec (.pgath h p w) s = workCmd s (fun _ _ c => 16 * (pgathPrm c.out).nmax + 1) (pgathPiece p) := by
  change execPgath h p w s = _
  rw [execPgath, hp]

/-- A PGATH that has started works at its row. -/
theorem pgathPiece_row (hr : c.ring = some r) (hk : c.kept = some k) (hj : j < 16 * (pgathPrm c.out).nmax) :
    pgathPiece p tk s mem c j = pgathRow tk s mem c r j k := by
  simp only [pgathPiece, hr, hk, hj, if_true, Option.getD_some]

/-- Past its rows a PGATH leaves its nodes and writes its record. -/
theorem pgathPiece_record (hfr : mem.frozen = []) (hr : c.ring = some r) (hk : c.kept = some k) (hj : ¬ j < 16 * (pgathPrm c.out).nmax) :
    pgathPiece p tk s mem c j = ⟨.ok, s.dropReaders s.cur.task s.cur.member c.seq, mem.putWords (16 * p.res.toNat) (result16 (c.w 8) 0 0),
      { c with kept := none }⟩ := by
  simp only [pgathPiece, hr, hk, hj, if_false, resultUnit_of_thawed hfr]

theorem pgath_answers (hw : Working s tk mem c) (hfr : mem.frozen = []) (hr : c.ring = some r) (hk : c.kept = some k)
    (hm : c.mark = 16 * (pgathPrm c.out).nmax) :
    ∃ (b : Member) (s1 : State), exec (.pgath h p w) s = .next (finished s1 b { c with kept := none }) ∧ storeOnly s s1 ∧
      b = { mem with spad := b.spad, wrote := b.wrote } ∧
      ∀ i < 4, b.cont (4 * p.res.toNat + i) = ⟨[statusWord (c.w 8) 0 0, 0, 0, 0].getD i 0, true, false⟩ := by
  have hexec := workCmd_of_ok_changed (total := fun _ _ c => 16 * (pgathPrm c.out).nmax + 1) hw (by rw [hm])
    (pgathPiece_record (p := p) (tk := tk) (s := s) hfr hr hk (by omega)) rfl rfl
  refine ⟨_, _, (exec_pgath_perform hw.phase).trans hexec, storeOnly_of_store _, putWords_eq .., fun i hi => ?_⟩
  rw [show 4 * p.res.toNat = 16 * p.res.toNat / 4 by omega, cont_putWords_inside (by exact hi)]
  rfl

/-! ## The rows of PGATH (R269, R372, R375) -/

/-- A row of PGATH that is written: its bytes in its slot, which is noted. -/
def Member.rowPut (mem : Member) (r : Ring) (j : Nat) (bs : List Byte) : Member :=
  (mem.spPut (r.slotAddr j) false (bs.map fun v => (v, false))).setWindow r.w ((mem.window r.w).rowWritten r.gen (r.tag + j))

theorem halfBytes_eq (xs : List (BitVec 16)) : halfBytes xs = (xs.flatMap fun v => leBytes 2 v.toNat).map fun v => (v, false) :=
  List.map_flatMap.symm

/-- What is claimed of a piece of PGATH whose row is written. -/
def rowWrittenBy (s s0 : State) (mem : Member) (r : Ring) (j : Nat) (bs : List Byte) (u : UnitRes) : Prop :=
  u.res = .ok ∧ linesOnly s s0 ∧ storeOnly s0 u.st ∧ u.mem.g = mem.g ∧
    (r.w < 16 → rowArrives (mem.window r.w) (u.mem.window r.w) r.gen (r.tag + j)) ∧ spadHolds mem u.mem (r.slotAddr j) bs

theorem pgathPut_of_thawed (hfr : mem.frozen = []) (xs : List (BitVec 16)) :
    pgathPut st mem c r j (fun a m => m.spPut a false (halfBytes xs)) = ⟨.ok, st, mem.rowPut r j (xs.flatMap fun v => leBytes 2 v.toNat), c⟩ := by
  have hwin : (mem.spPut (r.slotAddr j) false (halfBytes xs)).window r.w = mem.window r.w := by rw [spPut_eq]; rfl
  rw [pgathPut, spPiece_of_thawed hfr]
  dsimp only
  rw [hwin, halfBytes_eq]
  rfl

theorem rowWrittenBy_of_eq {u : UnitRes} {bs : List Byte} (hl : linesOnly s s0) (hs : storeOnly s0 st) (hu : u = ⟨.ok, st, mem.rowPut r j bs, c⟩) :
    rowWrittenBy s s0 mem r j bs u := by
  subst hu
  refine ⟨rfl, hl, hs, ?_, fun hw => ?_, spadHolds_spPut (b := mem) rfl⟩
  · rw [Member.rowPut, spPut_eq]
    rfl
  · rw [Member.rowPut, window_setWindow _ hw]
    exact rowArrives_rowWritten ..

section
variable (hfr : mem.frozen = []) (hw8 : c.w 8 = 0)
include hfr hw8

/-- A row of the tail is the tail's row of the chosen heads. -/
theorem pgathRow_tail {i : Nat} (hpos : (pgathPos mem c j).map k.place = some (.tail i))
    (hl : s.readLines 1 true (s.tailLines (pgathPrm c.out).slot k.slot (pgathPrm c.out).vals (pgathPrm c.out).layer i) = (none, s0)) :
    pgathRow tk s mem c r j k = ⟨.ok, s0, mem.rowPut r j ((((k.tail.row (pgathPrm c.out).vals (pgathPrm c.out).layer i).drop
      ((pgathPrm c.out).h0 * k.geometry.c)).take ((pgathPrm c.out).nh * k.geometry.c)).flatMap fun v => leBytes 2 v.toNat), c⟩ := by
  unfold pgathRow
  rw [if_neg (not_not.mpr hw8)]
  dsimp only
  rw [hpos]
  dsimp only
  rw [hl]
  exact pgathPut_of_thawed hfr _

/-- A row of a node, read without window checks from the tier the node is reached in, is the node's row of the chosen heads. -/
theorem pgathRow_node {n i : Nat} {y : Node} (hpos : (pgathPos mem c j).map k.place = some (.node n i)) (hn : s.store.nodes.find n = some y)
    (hwin : s.swin tk.ctx = 0)
    (hl : let at_ := s.reach n y (s.pgathNeed mem c k n y j) s.cur.task s.cur.member c.seq
      at_.2.readLines at_.1 true (s.rowLines n y (pgathPrm c.out).vals (pgathPrm c.out).layer i (pgathPrm c.out).h0 (pgathPrm c.out).nh) = (none, s0)) :
    ∃ st, storeOnly s0 st ∧ pgathRow tk s mem c r j k = ⟨.ok, st, mem.rowPut r j ((((y.row (pgathPrm c.out).vals (pgathPrm c.out).layer i).drop
      ((pgathPrm c.out).h0 * k.geometry.c)).take ((pgathPrm c.out).nh * k.geometry.c)).flatMap fun v => leBytes 2 v.toNat), c⟩ := by
  have hreach := lines_reach s n y (s.pgathNeed mem c k n y j) s.cur.task s.cur.member c.seq
  unfold pgathRow
  rw [if_neg (not_not.mpr hw8)]
  dsimp only at hl ⊢
  rw [hpos]
  dsimp only
  rw [hn]
  dsimp only
  rw [windowCheck_of_no_window (hreach.swin _ |>.trans hwin), ite_self]
  dsimp only
  rw [hl]
  dsimp only
  split_ifs
  · exact ⟨_, storeOnly_refl s0, pgathPut_of_thawed hfr _⟩
  · exact ⟨_, storeOnly_of_store _, pgathPut_of_thawed hfr _⟩

end

end

/-- Settles O47. BSEL's reads move lines only, and what it writes is fixed by the bounds of its grains; a row of PGATH and its record
are one piece each. -/
theorem selectionCommands : Obligations.SelectionCommands := by
  intro s tk mem c h p
  refine ⟨fun hp hk => ⟨answers_bsel_invalid hp hk, fun x s0 hx hwin => bsel_selects hp hk hx hwin⟩,
    fun w r k hw hfr hr hk hm => pgath_answers hw hfr hr hk hm, fun r j k hc hfr hk hr hj hw8 => ⟨fun i s0 hpos hl => ?_, ?_⟩⟩
  · exact rowWrittenBy_of_eq (lines_of_read hl).only (storeOnly_refl s0) ((pgathPiece_row hr hk hj).trans (pgathRow_tail hfr hw8 hpos hl))
  · intro n i y s0 hpos hn hwin at_ hl
    obtain ⟨st, hst, hrow⟩ := pgathRow_node (r := r) hfr hw8 hpos hn hwin hl
    exact rowWrittenBy_of_eq ((lines_reach ..).trans (lines_of_read hl)).only hst ((pgathPiece_row hr hk hj).trans hrow)

end Sys2Proof.Machine

namespace Sys2Proof.Machine
section
variable {s s1 : State} {l : Lease} {ls : List Lease}

/-! ## The end of leases (R252, R377) -/

/-- Time, memory and the tasks are no part of the block store. -/
theorem kept_of_storeOnly (h : storeOnly s s1) : s1.time = s.time ∧ s1.mem = s.mem ∧ s1.tasks = s.tasks := by
  rw [h]
  exact ⟨rfl, rfl, rfl⟩

theorem storeOnly_expire (s : State) (l : Lease) : storeOnly s (s.expire l) := by
  unfold State.expire
  dsimp only
  split_ifs
  · exact storeOnly_endLease s l
  · exact storeOnly_trans (storeOnly_endLease s l) (storeOnly_of_store _)

theorem leases_expire : (s.expire l).store.leases = s.store.leases.filter fun x => x.id != l.id := by
  unfold State.expire
  dsimp only
  split_ifs <;> exact leases_endLease

theorem storeOnly_expireAll (ls : List Lease) (s : State) : storeOnly s (ls.foldl State.expire s) := by
  induction ls generalizing s with
  | nil => exact storeOnly_refl s
  | cons l r ih => exact storeOnly_trans (storeOnly_expire s l) (ih (s.expire l))

/-- What is left once some leases have ended are the leases of other identifiers. -/
theorem mem_leases_expireAll {x : Lease} : x ∈ (ls.foldl State.expire s).store.leases ↔ x ∈ s.store.leases ∧ ∀ l ∈ ls, x.id ≠ l.id := by
  induction ls generalizing s with
  | nil => simp
  | cons l r ih => simp [ih, leases_expire, and_assoc]

/-- At a tick boundary only the count and the block store change. -/
theorem tickTo_eq (s : State) (k : Nat) : storeOnly { s with time := { s.time with tick := k } } (s.tickTo k) := storeOnly_expireAll ..

/-- Where identifiers name leases, those left after a tick boundary are the ones whose EXP lies above NOW. -/
theorem mem_leases_tickTo {k : Nat} (hid : s.store.leases.Pairwise fun a b => a.id ≠ b.id) (l : Lease) :
    l ∈ (s.tickTo k).store.leases ↔ l ∈ s.store.leases ∧ k - s.time.base < l.exp := by
  have hnodup : (s.store.leases.map (·.id)).Nodup := List.pairwise_map.mpr hid
  unfold State.tickTo
  simp only [mem_leases_expireAll, List.mem_filter, decide_eq_true_eq]
  simp only [State.nowTick]
  refine and_congr_right fun hl => ⟨fun h => ?_, fun h x hx heq => ?_⟩
  · by_contra hle
    exact h l ⟨hl, by omega⟩ rfl
  · obtain rfl := List.inj_on_of_nodup_map hnodup hl hx.1 heq
    omega

/-! ## Device time and the tick count (R362, R429) -/

theorem exec_leaseRebase_early (h : s.dueTick < s.time.base + 32768) : exec .leaseRebase s = .next s :=
  congrArg Host.Outcome.next (if_neg (by omega))

theorem exec_leaseRebase_due (h : s.time.base + 32768 ≤ s.dueTick) : exec .leaseRebase s = .next (s.rebaseTo (s.time.base + 32768)) :=
  congrArg Host.Outcome.next (if_pos h)

theorem exec_leaseExpiry_early (h : s.time.base < tickBase s.dueTick) : exec .leaseExpiry s = .next s := congrArg Host.Outcome.next (if_pos h)

theorem exec_leaseExpiry_due (h : tickBase s.dueTick ≤ s.time.base) : exec .leaseExpiry s = .next (s.tickTo s.dueTick) :=
  congrArg Host.Outcome.next (if_neg (by omega))

/-- The tick count follows device time, which is otherwise as it was, and of the rest only the block store may change. -/
theorem followTicks_eq (s : State) : ∃ b, storeOnly { s with time := { s.time with base := b, tick := s.dueTick } } s.followTicks := by
  unfold State.followTicks
  dsimp only
  split_ifs
  · exact ⟨_, storeOnly_trans (storeOnly_of_store _) (tickTo_eq (s.rebaseTo _) _)⟩
  · exact ⟨_, tickTo_eq s _⟩

theorem exec_deviceTimeStep {d : Int} (h : s.arg = .delta d) :
    exec .deviceTimeStep s = .next ((s.setTime ((s.time.ns : Int) + d).toNat).followTicks) := by
  change execDeviceTimeStep s = _
  rw [execDeviceTimeStep, h]

section
variable {ref : TimeRef} {sender : BitVec 20} {ns delay offset : Nat} (ha : s.arg = .timeMsg ref sender ns delay offset)
include ha

/-- A time message of another reference, or on the Fjostan from a device outside the domain, is not heard. -/
theorem exec_timeMessage_unheard (hn : ¬ (s.mgmt.cfg.timeRef = ref ∧ (ref = .fjostan → s.inDomain sender = true))) :
    exec .timeMessage s = .next s := by
  change execTimeMessage s = _
  rw [execTimeMessage, ha]
  refine if_pos ?_
  simpa only [not_and_or, Classical.not_imp, Bool.not_eq_true, ne_eq] using hn

theorem exec_timeMessage_heard (hh : s.mgmt.cfg.timeRef = ref ∧ (ref = .fjostan → s.inDomain sender = true)) {at_ : Nat}
    (hat : at_ = if ref = .fjostan then ns + delay else ns) :
    let s1 := (s.setTime at_).followTicks
    exec .timeMessage s =
      .next { s1 with time := { s1.time with lastSync := at_, offset, inSync := s1.time.inSync || decide (offset < 1000) } } := by
  subst hat
  change execTimeMessage s = _
  rw [execTimeMessage, ha]
  refine if_neg ?_
  simpa only [not_or, not_and, Bool.not_eq_false, ne_eq, not_not] using hh

end

end

section
variable {s s1 : State} {tk : Task} {mem : Member} {c : Cmd} {h : Hdr} {p : PrmRes} {out : List W32} {t m : Nat} {l : RemoteLease}

/-! ## The loss of synchronisation (R429, R431) -/

theorem syncLost_iff : s.syncLost = true ↔
    s.time.inSync = true ∧ (1000 ≤ s.time.offset ∨ s.time.lastSync + 2 * s.mgmt.cfg.syncInt ≤ s.time.ns) := by
  simp [State.syncLost]

theorem exec_syncLoss_kept (h : s.syncLost = false) : exec .syncLoss s = .next s := by
  change execSyncLoss s = _
  rw [execSyncLoss, h]
  rfl

/-- A message sent moves nothing but the links (R419). -/
theorem send_eq (s : State) (dest : BitVec 20) (x : Msg) : s.send dest x = { s with fabric := (s.send dest x).fabric } := by
  unfold State.send
  split <;> rfl

theorem sends_eq {α : Type} (dest : α → BitVec 20) (x : State → α → Msg) (ls : List α) (s : State) :
    ls.foldl (fun st l => st.send (dest l) (x st l)) s =
      { s with fabric := (ls.foldl (fun st l => st.send (dest l) (x st l)) s).fabric } := by
  induction ls generalizing s with
  | nil => rfl
  | cons l r ih =>
    rw [List.foldl_cons, ih, send_eq]

theorem fabric_put (s : State) (b : Member) : (s.put b).fabric = s.fabric := by
  unfold State.put State.putMember
  split <;> rfl

theorem time_put (s : State) (b : Member) : (s.put b).time = s.time := by
  unfold State.put State.putMember
  split <;> rfl

/-- Nothing remote is left of a command (R427). -/
def RemoteGone (s : State) (t m : Nat) (c : Cmd) : Prop :=
  (∀ l ∈ s.fabric.held, ¬ (l.task = t ∧ l.member = m ∧ l.cmd = c.seq)) ∧
  (∀ l ∈ s.fabric.reqs, ¬ (l.task = t ∧ l.member = m ∧ l.cmd = c.seq)) ∧
  ∀ l ∈ s.fabric.copies, ¬ (l.task = t ∧ l.member = m ∧ l.cmd = c.seq)

/-- The member of a REPL after its result record. -/
def Member.replEnded (mem : Member) (c : Cmd) (p : PrmRes) (out : List W32) (n : Nat) : Member :=
  (((mem.replayPut c 8 out).replayNext c.stream).putWords (16 * p.res.toNat) out).putCmd { c with mark := 1, state := .moved n }

/-- A command done in one piece has moved its last byte. -/
theorem afterPieces_moved (s s1 : State) (b : Member) (c : Cmd) : afterPieces s 1 ((⟨.ok, s1, b, c⟩ : UnitRes).whole c) =
    .next (s1.put (b.putCmd { c with mark := 1, state := .moved (if c.step = 1 then 0 else s.cycle) })) := by
  simp only [afterPieces, UnitRes.whole, Nat.le_refl, if_true]
  rfl

/-- The end of a REPL in a member with no frozen row. -/
theorem replFinish_of_thawed (hfr : mem.frozen = []) : ∃ (s2 : State) (n : Nat), s2.time = s.time ∧ s2.tasks = s.tasks ∧ s2.cur.task = t ∧
    s2.cur.member = m ∧ RemoteGone s2 t m c ∧ replFinish s t m mem c p out = .next (s2.put (mem.replEnded c p out n)) := by
  unfold replFinish
  dsimp only
  rw [resultUnit_of_thawed (by exact hfr), sends_eq]
  refine ⟨_, _, ?_, ?_, ?_, ?_, ⟨?_, ?_, ?_⟩, afterPieces_moved ..⟩
  iterate 4 · rfl
  all_goals
    intro l hl
    simpa only [Bool.not_eq_true', Bool.and_eq_false_iff, beq_eq_false_iff_ne, not_and_or, or_assoc] using (List.mem_filter.mp hl).2

theorem servedBy_eq (hs : Served s t m tk mem c) : s.servedBy t m c.seq = some (tk, mem, c) := by
  have hm : s.member? t m = some mem := by rw [State.member?, hs.task, Option.bind_some, hs.member]
  simp only [State.servedBy, hs.task, hm, hs.cmd, Option.map_some]

/-- The member of a REPL that has ended holds its record and its command, whose last byte has moved. -/
theorem replEnded_holds (hc : (mem.cmds.find? fun k => k.seq == c.seq) = some c) (n : Nat) :
    (∀ k < out.length, (mem.replEnded c p out n).cont (4 * p.res.toNat + k) = ⟨out.getD k 0, true, false⟩) ∧
      ∃ d ∈ (mem.replEnded c p out n).cmds, d.seq = c.seq ∧ ∃ n, d.state = .moved n := by
  refine ⟨fun k hk => ?_, { c with mark := 1, state := .moved n }, ?_, rfl, n, rfl⟩
  · rw [show 4 * p.res.toNat = 16 * p.res.toNat / 4 by omega]
    exact cont_putWords_inside hk
  · rw [Member.replEnded, putWords_eq]
    exact List.mem_map.mpr ⟨c, List.mem_of_find?_eq_some hc, if_pos rfl⟩

/-- A REPL ended where its command is served answers, and nothing remote is left of it. -/
theorem endRepl_of_served {status : Nat} {node : W32} (hs : Served s t m tk mem c) (hi : c.instr = .repl h p) (hst : status < 256) : ∃ s1 : State,
    s.endRepl t m c.seq status node = .next s1 ∧ s1.time = s.time ∧ remoteEnded s1 t m c p [BitVec.ofNat 32 status, node, 0, 0] := by
  obtain ⟨s2, n, htime, htasks, ht, hm, hgone, hx⟩ := replFinish_of_thawed (s := s) (t := t) (m := m) (c := c) (p := p)
    (out := [BitVec.ofNat 32 status, node, 0, 0]) hs.thawed
  have hsome : (s2.member? t m).isSome := by
    rw [State.member?, htasks, hs.task, Option.bind_some, hs.member]
    rfl
  have hput : s2.put (mem.replEnded c p [BitVec.ofNat 32 status, node, 0, 0] n) =
      s2.putMember t m (mem.replEnded c p [BitVec.ofNat 32 status, node, 0, 0] n) := by rw [State.put, ht, hm]
  obtain ⟨hrec, hcmd⟩ := replEnded_holds (p := p) (out := [BitVec.ofNat 32 status, node, 0, 0]) hs.cmd n
  refine ⟨_, ?_, (time_put ..).trans htime, ⟨_, hput ▸ member?_putMember hsome, hrec, hcmd⟩, ?_⟩
  · rw [State.endRepl, servedBy_eq hs]
    dsimp only
    rw [hi]
    dsimp only
    rw [result16_eq hst, hx]
  · rw [fabric_put]
    exact hgone

/-- A notice adds a record, and nothing else. -/
theorem noticeVoided_eq (s : State) (held : List RemoteLease) (ctx : Nat) :
    s.noticeVoided held ctx = { s with recs := (s.noticeVoided held ctx).recs } := by
  unfold State.noticeVoided
  dsimp only
  split
  · rfl
  · next l _ _ => cases s.tasks[l.task]? <;> rfl

theorem noticesVoided_eq (held : List RemoteLease) (cs : List Nat) (s : State) : cs.foldl (fun st c => st.noticeVoided held c) s =
    { s with recs := (cs.foldl (fun st c => st.noticeVoided held c) s).recs } := by
  induction cs generalizing s with
  | nil => rfl
  | cons c r ih => rw [List.foldl_cons, ih, noticeVoided_eq]

/-- Where sync is lost every lease is voided, and notices follow. -/
theorem exec_syncLoss_lost (h : s.syncLost = true) : ∃ rs : List Rec, exec .syncLoss s =
    .next { s.fabric.held.foldl State.voidLease { s with time := { s.time with inSync := false } } with recs := rs } := by
  change ∃ rs, execSyncLoss s = _
  rw [execSyncLoss, if_neg (by simp [h])]
  dsimp only
  rw [noticesVoided_eq]
  exact ⟨_, rfl⟩

/-- With no lease held, the loss of sync is all. -/
theorem exec_syncLoss_none (h : s.syncLost = true) (hl : s.fabric.held = []) :
    exec .syncLoss s = .next { s with time := { s.time with inSync := false } } := by
  change execSyncLoss s = _
  rw [execSyncLoss, h, hl]
  rfl

/-- The one lease held is voided with the command it serves (R431). -/
theorem exec_syncLoss_one (hlost : s.syncLost = true) (hl : s.fabric.held = [l]) (hs : Served s l.task l.member tk mem c) (hc : c.seq = l.cmd)
    (hi : c.instr = .repl h p) :
    ∃ s1 : State, exec .syncLoss s = .next s1 ∧ s1.time.inSync = false ∧ remoteEnded s1 l.task l.member c p [4, noneWord, 0, 0] := by
  have hs' : Served { s with time := { s.time with inSync := false } } l.task l.member tk mem c := ⟨hs.task, hs.member, hs.cmd, hs.thawed, hs.single⟩
  obtain ⟨s1, he, htime, hend⟩ := endRepl_of_served (status := 4) (node := noneWord) hs' hi (by decide)
  obtain ⟨rs, hx⟩ := exec_syncLoss_lost hlost
  rw [hl, List.foldl_cons, List.foldl_nil, State.voidLease, ← hc, he] at hx
  exact ⟨_, hx, congrArg (·.inSync) htime, hend⟩

end

/-- Settles O58. A tick boundary changes the count and, by ending the leases due, the block store alone; a lease voided ends the REPL it serves. -/
theorem timeAndLeases : Obligations.TimeAndLeases := by
  intro s
  refine ⟨exec_leaseRebase_early, fun h => ?_, exec_leaseExpiry_early, fun h hid => ?_, fun d hd => ?_, fun ref sender ns delay offset ha => ?_,
    fun hn => ?_, fun hlost hl => exec_syncLoss_none (syncLost_iff.mpr hlost) hl,
    fun l tk mem c h p hlost hl hs hc hi => exec_syncLoss_one (syncLost_iff.mpr hlost) hl hs hc hi⟩
  · rw [exec_leaseRebase_due h, State.rebaseTo, Nat.add_sub_cancel_left]
  · obtain ⟨htime, hmem, htasks⟩ := kept_of_storeOnly (tickTo_eq s s.dueTick)
    exact ⟨_, exec_leaseExpiry_due h, htime, hmem, htasks, mem_leases_tickTo hid⟩
  · obtain ⟨b, hst⟩ := followTicks_eq (s.setTime ((s.time.ns : Int) + d).toNat)
    obtain ⟨htime, hmem, htasks⟩ := kept_of_storeOnly hst
    exact ⟨_, exec_deviceTimeStep hd, by rw [htime]; rfl, by rw [htime]; rfl, hmem, htasks, by rw [htime]; rfl⟩
  · refine ⟨exec_timeMessage_unheard ha, fun hh => ?_⟩
    obtain ⟨b, hst⟩ := followTicks_eq (s.setTime (if ref = .fjostan then ns + delay else ns))
    obtain ⟨htime, -, -⟩ := kept_of_storeOnly hst
    refine ⟨_, exec_timeMessage_heard ha hh rfl, ?_, rfl, rfl, ?_, ?_⟩
    all_goals
      dsimp only
      rw [htime]
      rfl
  · exact exec_syncLoss_kept (Bool.eq_false_iff.mpr fun h => hn (syncLost_iff.mp h))

end Sys2Proof.Machine

namespace Sys2Proof.Machine
section
variable {s s1 : State} {tk : Task} {mem b : Member} {c : Cmd} {h : Hdr} {p : PrmRes} {i : Instr} {out out' : List W32} {tier : BitVec 2}

/-! ## What a command has answered is determined -/

theorem putMember_inj {b' : Member} {t m : Nat} (h : (s.member? t m).isSome) (he : s.putMember t m b = s.putMember t m b') : b = b' := by
  have hm := congrArg (·.member? t m) he
  rw [member?_putMember h, member?_putMember h] at hm
  exact Option.some.inj hm

/-- Two records that one command answers with agree as far as both go. -/
theorem answers_unique (hc : Current s tk mem) (h1 : answers i s s mem c p out) (h2 : answers i s s mem c p out') {k : Nat} (hk : k < out.length)
    (hk' : k < out'.length) : out.getD k 0 = out'.getD k 0 := by
  obtain ⟨b, hx, -, hb, -⟩ := h1
  obtain ⟨b', hx', -, hb', -⟩ := h2
  have hsome : (s.member? s.cur.task s.cur.member).isSome := by rw [member?_of_current hc]; rfl
  have hput := putMember_inj hsome (Host.Outcome.next.inj (hx.symm.trans hx'))
  have hcont : (b.cont (4 * p.res.toNat + k)) = b'.cont (4 * p.res.toNat + k) := cont_congr (congrArg (·.spad) hput) _
  rw [hb k hk, hb' k hk'] at hcont
  exact congrArg (·.data) hcont

/-! ## RXLOOK with its answer kept (R314) -/

/-- The end of an RXLOOK without a lease, of a plain task, writes its record. -/
theorem rxFinish_of_plain (hc : Current s tk mem) (hfr : mem.frozen = []) (hr : tk.replicated = false) (hi : c.instr = .rxlook h p 0 tier 0)
    (hm : c.mark = 0) : rxFinish s s.cur.task s.cur.member tk mem c p false out = .next (finished s (mem.putWords (16 * p.res.toNat) out) c) := by
  have hfin := afterPieces_whole (s := s) (s1 := s) (b := mem.putWords (16 * p.res.toNat) out) hm rfl
  cases c
  dsimp only at hi
  subst hi
  rw [rxFinish, hr]
  simp only [Bool.false_and, Bool.false_eq_true, if_false, show ((0 : BitVec 1) == 1#1) = false from rfl]
  rw [resultUnit_of_thawed hfr]
  dsimp only
  rw [Task.echoResult, hr, if_neg Bool.false_ne_true, putTask_of_current hc]
  exact hfin

/-- An RXLOOK whose answer is kept, as it is while a follower has no room for the echo, answers with what is kept and looks nothing up. -/
theorem answers_rxlook_kept (hp : Performing s tk mem c) (hi : c.instr = .rxlook h p 0 tier 0) (hs : c.step = 2) :
    answers (.rxlook h p 0 tier 0) s s mem c p ((c.out.drop 4).take 16) := by
  obtain ⟨d, hd⟩ := hp.work.active
  refine answers_of_exec (b := mem) ?_ rfl
  rw [← rxFinish_of_plain hp.work.current hp.thawed hp.single hi hp.start]
  change execRxlook h p 0 tier 0 s = _
  rw [execRxlook, hp.work.phase]
  dsimp only
  rw [onMember_cur hp.work.current]
  simp only [hp.work.cmd, hd, hp.lead, hs, Bool.not_true, Bool.false_eq_true, if_false, if_true]

end

/-! ## An RXLOOK of an empty list that holds an answer -/

/-- A command at work that keeps an answer, of status 0, to the list of no token of slot 0. -/
def keptLookup : Cmd :=
  ⟨1, .l, .rxlook ⟨0, 0, 0, 0, 0⟩ ⟨0, 0⟩ 0 0 0, 0, 0, ⟨0, 0, 0⟩, 0, none, 0, .active 0, none, 0, 0, 0, 0, 0, [], List.replicate 20 0, 2, none⟩

def keptMember : Member := { Member.place 0 0 0 (Ckpt.first 0 0 (Vector.replicate 64 0) [0, 0, 0, 0]) with cmds := [keptLookup] }

def keptTask : Task := { fetchTask State.reset with members := [keptMember] }

def keptSlot : SeqSlot := SeqSlot.fresh 0 1 2 ⟨1, 1, 16, false⟩ none 0

/-- The device with slot 0 open for context 0, whose record permits the slot's root. -/
def keptState : State :=
  { State.reset with
    mem := State.reset.mem.setBytes 256 (leBytes 16 keptSlot.root.toNat), tasks := [keptTask], cur := ⟨0, 0, .l, .perform, 1, 0, 0⟩
    store := { State.reset.store with slots := [(0, keptSlot)] } }

theorem performing_kept : Performing keptState keptTask keptMember keptLookup where
  work := ⟨⟨rfl, rfl⟩, rfl, rfl, ⟨0, rfl⟩⟩
  thawed := rfl
  fresh _ := rfl
  single := by decide +kernel
  lead := rfl
  start := rfl

theorem slotOf_kept : keptState.slotOf keptTask.ctx (keptLookup.w 0) = some keptSlot := by decide +kernel

/-- Refutes O46: nothing says that the RXLOOK has no answer kept, and one whose answer is kept writes that answer, whatever its list. For
the empty list of `keptState` the status would have to be 4, and 0 is written. -/
theorem not_blockCommands : ¬ Obligations.BlockCommands := by
  unfold Obligations.BlockCommands
  intro hall
  obtain ⟨hrx, -⟩ := hall keptState keptTask keptMember keptLookup ⟨0, 0, 0, 0, 0⟩ ⟨0, 0⟩ performing_kept
  obtain ⟨out, b, hans, hlen, hb, -, hstatus, -⟩ := hrx 0 keptSlot slotOf_kept (by decide)
  have hempty : b = 0 := by
    have hw : keptLookup.w 2 = 0 := rfl
    omega
  have hkept := answers_unique performing_kept.work.current (answers_rxlook_kept performing_kept rfl rfl) hans (k := 0) (by decide) (by omega)
  rw [if_pos hempty, ← hkept] at hstatus
  exact absurd hstatus (by decide)

end Sys2Proof.Machine
